-- ==== Sys2Proof/Word.lean ====
section
/-! DEFINITION. The word types of the LH3-512 (spec/00_scope.md, spec/12_control_strand.md R250) and the identifiers of
its parts. Nothing here computes: bit-field, sign-extension and byte-order helpers stand in Machine/Operands.lean. -/

namespace Sys2Proof

/-- A C-strand register, a virtual or physical address while it is computed, a record dword (R250, R62). -/
abbrev Word := BitVec 64
/-- A container, an engine-strand register, an instruction word (R59, R133, R166). -/
abbrev Word32 := BitVec 32
/-- A byte of memory. -/
abbrev Byte := BitVec 8
/-- A label id (R305). -/
abbrev Label := BitVec 10

/-- A core of the package: 2 × package cluster + side, side 0 core A and 1 core B (R2, R15). -/
abbrev CoreId := Fin 224
/-- A package cluster index (R2). -/
abbrev ClusterId := Fin 112
/-- A partition (R341). -/
abbrev PartId := Fin 32
/-- A device job id (R339). -/
abbrev JobId := BitVec 12
/-- A work queue (R333). -/
abbrev QueueId := BitVec 13
/-- A port index: 0 host, 1 to 12 UALink, 13 and 14 Ultra Ethernet, 15 to 18 Imost (R314). -/
abbrev Port := Fin 19

/-- The four strands of a core (R12). -/
inductive Strand where
  | C | L | X | S
  deriving DecidableEq, Repr

end Sys2Proof
end

