-- ==== Sys2Proof/Syntax.lean ====
section
/-! DEFINITION. The one inductive of the rows of spec/opcode_table.json: 190 instruction words (fields as their encodings
give them, R61 to R76) and 100 steps of the other agents (spec/95_what_each_step_holds.md). An agent's step carries what
selects it and every choice the spec leaves to the hardware or to the outside. -/

namespace Sys2Proof

/-- The source of transfer-engine work: a channel of a cluster, or the k-th copy in a core's `tcp` queue (R110). -/
inductive XferSrc where
  | chan (cl : ClusterId) (ch : BitVec 3)
  | tcp (c : CoreId) (k : Nat)
  deriving DecidableEq, Repr

/-- An accumulator and a region J of it (R221, R222). -/
structure AccRegion where
  a : BitVec 2
  j : BitVec 4
  deriving DecidableEq, Repr

/-- A carry packet: its bytes (R212), and what the comparison of R210 sees and that layout does not carry (log entry 19): the T′ and LOG2N
of its package as one number, and the reason code that it hands on. -/
structure CarryIn where
  bytes : List Byte
  shape : Nat
  why : Nat := 0
  deriving DecidableEq, Repr

/-- A collective message (R323, R324): group tag, round, pass, sender's rank, kind, the block words, and in the data pass
one value an element: a 64-bit partial sum, an 8-bit COMP code, or a final element pattern; `negz` marks the elements all
of whose contributions so far were −0; `num` is its place among the messages from its sender to this rank under one TAG and RND (R324). -/
structure CollMsg where
  net : Bool
  tag : BitVec 16
  rnd : BitVec 32
  dataPass : Bool
  src : BitVec 7
  num : Nat
  isPartial : Bool
  words : List (BitVec 16)
  codes : Bool
  vals : List Word
  negz : List Bool
  deriving DecidableEq, Repr

/-- An operation of an arriving UALink request (R330). -/
inductive UalOp where
  | read (n : Nat)
  | write (bytes : List Byte)
  | amoAdd (v : Word)
  | amoSwap (v : Word)
  | amoCas (cmp new : Word)
  deriving DecidableEq, Repr

/-- A request arriving over UALink: its port, the sender's package number, the package number it names, the address in that
package's HBM4 (R84, R85, R108). -/
structure UalReq where
  port : Port
  src : BitVec 7
  num : BitVec 7
  addr : BitVec 39
  op : UalOp
  deriving DecidableEq, Repr

/-- An arriving off-chip flit: its port and sequence number, whether its CRC holds and a buffer is free, and the flit count
that it acknowledges of this side's sending (R331). -/
structure Flit where
  port : Port
  seq : Nat
  crcOk : Bool
  bufFree : Bool
  ack : Nat
  deriving DecidableEq, Repr

/-- The rows of spec/opcode_table.json. -/
inductive Instr where
  /-- ADD (R251): Writes x[d] := (x[a] + x[b]) mod 2^64 with the joined label of both sources. -/
  | add (d : BitVec 6) (a : BitVec 6) (b : BitVec 6)
  /-- SUB (R251): Writes x[d] := (x[a] − x[b]) mod 2^64. -/
  | sub (d : BitVec 6) (a : BitVec 6) (b : BitVec 6)
  /-- AND (R251): Writes the bitwise AND of x[a] and x[b] to x[d]. -/
  | and (d : BitVec 6) (a : BitVec 6) (b : BitVec 6)
  /-- OR (R251): Writes the bitwise OR of x[a] and x[b] to x[d]. -/
  | or (d : BitVec 6) (a : BitVec 6) (b : BitVec 6)
  /-- XOR (R251): Writes the bitwise XOR of x[a] and x[b] to x[d]. -/
  | xor (d : BitVec 6) (a : BitVec 6) (b : BitVec 6)
  /-- SLL (R251): Shifts x[a] left by x[b][5:0] into x[d]. -/
  | sll (d : BitVec 6) (a : BitVec 6) (b : BitVec 6)
  /-- SRL (R251): Shifts x[a] right logically by x[b][5:0] into x[d]. -/
  | srl (d : BitVec 6) (a : BitVec 6) (b : BitVec 6)
  /-- SRA (R251): Shifts x[a] right arithmetically by x[b][5:0] into x[d]. -/
  | sra (d : BitVec 6) (a : BitVec 6) (b : BitVec 6)
  /-- SLT (R251): Sets x[d] to 1 if x[a] < x[b] as signed values, else 0. -/
  | slt (d : BitVec 6) (a : BitVec 6) (b : BitVec 6)
  /-- SLTU (R251): Sets x[d] to 1 if x[a] < x[b] as unsigned values, else 0. -/
  | sltu (d : BitVec 6) (a : BitVec 6) (b : BitVec 6)
  /-- MUL (R251): Writes the low 64 bits of x[a] × x[b] to x[d]. -/
  | mul (d : BitVec 6) (a : BitVec 6) (b : BitVec 6)
  /-- MULH (R251): Writes bits [127:64] of the signed product to x[d]. -/
  | mulh (d : BitVec 6) (a : BitVec 6) (b : BitVec 6)
  /-- MULHU (R251): Writes bits [127:64] of the unsigned product to x[d]. -/
  | mulhu (d : BitVec 6) (a : BitVec 6) (b : BitVec 6)
  /-- DIV (R57): Signed division truncated toward zero, with the fixed corner cases for b = 0 and overflow. -/
  | div (d : BitVec 6) (a : BitVec 6) (b : BitVec 6)
  /-- DIVU (R57): Unsigned division; b = 0 gives all ones. -/
  | divu (d : BitVec 6) (a : BitVec 6) (b : BitVec 6)
  /-- REM (R57): Signed remainder with the sign of a; b = 0 gives a. -/
  | rem (d : BitVec 6) (a : BitVec 6) (b : BitVec 6)
  /-- REMU (R57): Unsigned remainder; b = 0 gives a. -/
  | remu (d : BitVec 6) (a : BitVec 6) (b : BitVec 6)
  /-- MIN (R251): Writes the signed minimum of x[a] and x[b] to x[d]. -/
  | min (d : BitVec 6) (a : BitVec 6) (b : BitVec 6)
  /-- MAX (R251): Writes the signed maximum of x[a] and x[b] to x[d]. -/
  | max (d : BitVec 6) (a : BitVec 6) (b : BitVec 6)
  /-- CLZ (R251): Counts the leading zero bits of x[a], 64 for zero. -/
  | clz (d : BitVec 6) (a : BitVec 6)
  /-- CTZ (R251): Counts the trailing zero bits of x[a], 64 for zero. -/
  | ctz (d : BitVec 6) (a : BitVec 6)
  /-- POPC (R251): Counts the one bits of x[a]. -/
  | popc (d : BitVec 6) (a : BitVec 6)
  /-- ADDI (R251): Adds the sign-extended imm14 to x[a] into x[d]. -/
  | addi (d : BitVec 6) (a : BitVec 6) (i : BitVec 14)
  /-- ANDI (R251): ANDs x[a] with the sign-extended imm14 into x[d]. -/
  | andi (d : BitVec 6) (a : BitVec 6) (i : BitVec 14)
  /-- ORI (R251): ORs x[a] with the sign-extended imm14 into x[d]. -/
  | ori (d : BitVec 6) (a : BitVec 6) (i : BitVec 14)
  /-- XORI (R251): XORs x[a] with the sign-extended imm14 into x[d]. -/
  | xori (d : BitVec 6) (a : BitVec 6) (i : BitVec 14)
  /-- SLTI (R251): Sets x[d] to 1 if x[a] is less than the signed immediate. -/
  | slti (d : BitVec 6) (a : BitVec 6) (i : BitVec 14)
  /-- SLLI (R65): Shifts x[a] left by an immediate amount into x[d]. -/
  | slli (d : BitVec 6) (a : BitVec 6) (s : BitVec 6)
  /-- SRLI (R65): Shifts x[a] right logically by an immediate amount. -/
  | srli (d : BitVec 6) (a : BitVec 6) (s : BitVec 6)
  /-- SRAI (R65): Shifts x[a] right arithmetically by an immediate amount. -/
  | srai (d : BitVec 6) (a : BitVec 6) (s : BitVec 6)
  /-- LIH (R65): Sets x[d] := sext(imm20) × 2^14 with label 0. -/
  | lih (d : BitVec 6) (i : BitVec 20)
  /-- ADPC (R65): Sets x[d] to its own address plus sext(imm20) × 2^14. -/
  | adpc (d : BitVec 6) (i : BitVec 20)
  /-- LD (R259): Loads 1, 2, 4 or 8 bytes with translation, checks and label, extending into x[d] which stays pending until the data arrive. -/
  | ld (d : BitVec 6) (b : BitVec 6) (w : BitVec 3) (o : BitVec 11)
  /-- ST (R259): Stores the low bytes of x[s] at x[base] + offset with the register's label. -/
  | st (s : BitVec 6) (b : BitVec 6) (w : BitVec 3) (o : BitVec 11)
  /-- BEQ (R253): Branches after two delay slots if x[a] = x[b], with optional annulment. -/
  | beq (a : BitVec 6) (b : BitVec 6) (n : BitVec 2) (o : BitVec 12)
  /-- BNE (R253): Branches if x[a] ≠ x[b]. -/
  | bne (a : BitVec 6) (b : BitVec 6) (n : BitVec 2) (o : BitVec 12)
  /-- BLT (R253): Branches if x[a] < x[b] signed. -/
  | blt (a : BitVec 6) (b : BitVec 6) (n : BitVec 2) (o : BitVec 12)
  /-- BGE (R253): Branches if x[a] ≥ x[b] signed. -/
  | bge (a : BitVec 6) (b : BitVec 6) (n : BitVec 2) (o : BitVec 12)
  /-- BLTU (R253): Branches if x[a] < x[b] unsigned. -/
  | bltu (a : BitVec 6) (b : BitVec 6) (n : BitVec 2) (o : BitVec 12)
  /-- BGEU (R253): Branches if x[a] ≥ x[b] unsigned. -/
  | bgeu (a : BitVec 6) (b : BitVec 6) (n : BitVec 2) (o : BitVec 12)
  /-- J (R254): Jumps PC-relative after two delay slots without link. -/
  | j (o : BitVec 20)
  /-- JAL (R254): Jumps PC-relative and writes own address + 12 into x[d]. -/
  | jal (d : BitVec 6) (o : BitVec 20)
  /-- JALR (R254): Jumps to x[a] + imm14 and links; a misaligned target traps. -/
  | jalr (d : BitVec 6) (a : BitVec 6) (i : BitVec 14)
  /-- AMO_ADD (R262): Atomically adds x[b] to the 8-byte location at x[a], returning the old value. -/
  | amoAdd (d : BitVec 6) (a : BitVec 6) (b : BitVec 6) (r : BitVec 2) (s : BitVec 3)
  /-- AMO_AND (R262): Atomic bitwise AND at x[a], returning the old value. -/
  | amoAnd (d : BitVec 6) (a : BitVec 6) (b : BitVec 6) (r : BitVec 2) (s : BitVec 3)
  /-- AMO_OR (R262): Atomic bitwise OR at x[a], returning the old value. -/
  | amoOr (d : BitVec 6) (a : BitVec 6) (b : BitVec 6) (r : BitVec 2) (s : BitVec 3)
  /-- AMO_XOR (R262): Atomic bitwise XOR at x[a], returning the old value. -/
  | amoXor (d : BitVec 6) (a : BitVec 6) (b : BitVec 6) (r : BitVec 2) (s : BitVec 3)
  /-- AMO_MIN (R262): Atomic signed minimum at x[a], returning the old value. -/
  | amoMin (d : BitVec 6) (a : BitVec 6) (b : BitVec 6) (r : BitVec 2) (s : BitVec 3)
  /-- AMO_MAX (R262): Atomic signed maximum at x[a], returning the old value. -/
  | amoMax (d : BitVec 6) (a : BitVec 6) (b : BitVec 6) (r : BitVec 2) (s : BitVec 3)
  /-- AMO_SWAP (R262): Atomically writes x[b] at x[a], returning the old value. -/
  | amoSwap (d : BitVec 6) (a : BitVec 6) (b : BitVec 6) (r : BitVec 2) (s : BitVec 3)
  /-- AMO_CAS (R262): Atomically writes x[b] if the old value equals x[d], returning the old value. -/
  | amoCas (d : BitVec 6) (a : BitVec 6) (b : BitVec 6) (r : BitVec 2) (s : BitVec 3)
  /-- AMO_FADD (R262): Atomic FP32 add on a 4-byte location; traps in determinism mode. -/
  | amoFadd (d : BitVec 6) (a : BitVec 6) (b : BitVec 6) (s : BitVec 3) (r : BitVec 2)
  /-- FENCE (R265): Orders the strand's accesses by order and scope under R240. -/
  | fence (r : BitVec 2) (s : BitVec 3)
  /-- CSRR (R266): Reads a CSR zero-extended into x[d] with label 0. -/
  | csrr (d : BitVec 6) (c : BitVec 12)
  /-- CSRW (R266): Writes x[a] to a CSR after checking access and field limits. -/
  | csrw (a : BitVec 6) (c : BitVec 12)
  /-- CSRS (R266): ORs x[a] into a CSR after checking access and field limits. -/
  | csrs (a : BitVec 6) (c : BitVec 12)
  /-- SVC (R356): Completes and then raises SVC with TVAL := k. -/
  | svc (k : BitVec 8)
  /-- TRET (R358): Checks the saved status registers and restores sequence and STAT, restarting a trapped engine strand. -/
  | tret
  /-- WFI (R357): Waits until an asynchronous trap is due or TINTR.PEND is set. -/
  | wfi
  /-- BRK (R356): Completes and then raises BRK with TVAL := k; unhandled inside a handler. -/
  | brk (k : BitVec 8)
  /-- SNAP (R359): Fires the partition's snapshot trigger and completes once the latch has taken place. -/
  | snap
  /-- TCP (R124): Reads one transfer record synchronously and starts its copy in the tcp queue, marking x[d] pending for the status token. -/
  | tcp (d : BitVec 6) (a : BitVec 6)
  /-- CHAN_GO (R125): Starts or resumes a transfer channel by the transitions of R119, as a release. -/
  | chanGo (a : BitVec 6) (c : BitVec 3)
  /-- CHAN_STAT (R126): Returns a channel's state, cursor and cause without stalling. -/
  | chanStat (d : BitVec 6) (c : BitVec 3)
  /-- CHAN_ABORT (R127): Applies the abort events of R119 to a channel and returns without waiting. -/
  | chanAbort (c : BitVec 3)
  /-- LREC_FLUSH (R128): Removes a layout record from every record cache of the partition under the ASID. -/
  | lrecFlush (a : BitVec 6)
  /-- SEM_ACQ (R276): Joins a semaphore's line and waits until first and the count covers x[a], then subtracts it as an acquire. -/
  | semAcq (a : BitVec 6) (p : BitVec 1) (n : BitVec 6)
  /-- SEM_REL (R276): Adds x[a] to a semaphore as a release; overflow raises SEMOVF. -/
  | semRel (a : BitVec 6) (p : BitVec 1) (n : BitVec 6)
  /-- SEM_TRY (R276): Takes x[a] from a semaphore only if no waiter and the count suffices, returning 1 or 0. -/
  | semTry (d : BitVec 6) (a : BitVec 6) (p : BitVec 1) (n : BitVec 6)
  /-- SEM_RD (R276): Reads a semaphore count into x[d]. -/
  | semRd (d : BitVec 6) (p : BitVec 1) (n : BitVec 6)
  /-- TOK_GIVE (R271): Waits for earlier spills and fills and for room, then pushes a token on a queue from C. -/
  | tokGive (q : BitVec 2)
  /-- TOK_WAIT (R271): Waits for and pops a token from a queue to C. -/
  | tokWait (q : BitVec 2)
  /-- FORK (R16): Reads a fork record and starts the named engine strands, once per task. -/
  | fork (a : BitVec 6)
  /-- RDV (R17): Arrives at a rendezvous of the task's started strands with an identifier. -/
  | rdv (k : BitVec 8)
  /-- RDV_END (R18): Final rendezvous; then waits for the task's asynchronous commands and retires the task. -/
  | rdvEnd (k : BitVec 8)
  /-- DOM_SET_SPLIT (R21): Requests a split of the level-3 domain at the end of the current phase. -/
  | domSetSplit
  /-- DOM_SET_JOIN (R21): Requests a join of the subdomains back into level 3. -/
  | domSetJoin
  /-- FLAG_ADD (R279): Posts an increment of a gang flag to its home as a package-scope release. -/
  | flagAdd (a : BitVec 6) (n : BitVec 8)
  /-- FLAG_WAIT (R279): Waits until a flag reaches the target in serial order, then acquires. -/
  | flagWait (a : BitVec 6) (n : BitVec 8)
  /-- PHASE (R20): Arrives at the barrier of the task's current domain. -/
  | phase
  /-- WAITT (R283): Waits until TIME reaches x[a]. -/
  | waitt (a : BitVec 6)
  /-- LAUNCH (R348): Checks a launch packet and writes it into the named device queue, returning a status. -/
  | launch (d : BitVec 6) (a : BitVec 6)
  /-- EST (R349): Sets the job's remaining estimate to x[a] µs. -/
  | est (a : BitVec 6)
  /-- SRKEY (R315): Writes KTID and KSTEP together as one update. -/
  | srkey (a : BitVec 6) (b : BitVec 6)
  /-- LBL_RD_REG (R316): Returns the label id, origin count and lowest origin of x[a]'s label. -/
  | lblRdReg (d : BitVec 6) (a : BitVec 6)
  /-- LBL_RD_MEM (R316): Returns the delivered label of the sector holding address x[a]. -/
  | lblRdMem (d : BitVec 6) (a : BitVec 6)
  /-- SPLICE (R290): Reads a context and splice list, checks staleness and hands the splice to the repair engine with x[d] pending. -/
  | splice (d : BitVec 6) (a : BitVec 6) (b : BitVec 6)
  /-- REP_GO (R295): Latches HTHRESH and asks the repair engine to start check and repair of a context. -/
  | repGo (d : BitVec 6) (a : BitVec 6)
  /-- REP_POLL (R295): Returns a context's state and claims the oldest unclaimed work item atomically. -/
  | repPoll (d : BitVec 6) (a : BitVec 6)
  /-- COLL_GO (R328): Reads a collective program header, steps and peer table and starts the program or returns a status. -/
  | collGo (d : BitVec 6) (a : BitVec 6)
  /-- COLL_POLL (R328): Returns a collective program's state, cause, silent rank and step. -/
  | collPoll (d : BitVec 6) (a : BitVec 6)
  /-- SS_SPILL (R215): Journals and starts a spill of a state slot to an image in memory. -/
  | ssSpill (a : BitVec 6) (n : BitVec 4)
  /-- SS_FILL (R215): Journals and starts a fill of a state slot from an image in memory. -/
  | ssFill (a : BitVec 6) (n : BitVec 4)
  /-- LP_SET_IMM (R135): Sets a loop counter to an immediate count. -/
  | lpSetImm (w : BitVec 3) (g : BitVec 3) (k : BitVec 2) (i : BitVec 15)
  /-- LP_SET_REG (R135): Sets a loop counter from an n register. -/
  | lpSetReg (w : BitVec 3) (g : BitVec 3) (k : BitVec 2) (j : BitVec 4)
  /-- LP_END (R135): Decrements a loop counter and branches back while it exceeds 1. -/
  | lpEnd (w : BitVec 3) (g : BitVec 3) (k : BitVec 2) (o : BitVec 18)
  /-- E_J (R135): Engine-strand relative jump. -/
  | eJ (w : BitVec 3) (g : BitVec 3) (o : BitVec 18)
  /-- E_BNZ (R135): Engine-strand branch if n[J] is non-zero. -/
  | eBnz (w : BitVec 3) (g : BitVec 3) (j : BitVec 4) (o : BitVec 15)
  /-- N_LI (R135): Loads a sign-extended immediate into an n register. -/
  | nLi (w : BitVec 3) (g : BitVec 3) (j : BitVec 4) (i : BitVec 15)
  /-- N_ADD (R135): Adds a signed imm10 to an n register. -/
  | nAdd (w : BitVec 3) (g : BitVec 3) (d : BitVec 4) (a : BitVec 4) (i : BitVec 10)
  /-- E_RDV (R17): Engine-strand arrival at a rendezvous. -/
  | eRdv (w : BitVec 3) (g : BitVec 3) (k : BitVec 8)
  /-- E_RDV_END (R18): Engine-strand arrival at the task's final rendezvous. -/
  | eRdvEnd (w : BitVec 3) (g : BitVec 3) (k : BitVec 8)
  /-- E_NOP (R135): Pops and pushes its mask queues with no other effect. -/
  | eNop (w : BitVec 3) (g : BitVec 3)
  /-- SD_BASE (R139): Writes descriptor quarter Q0 from a literal, or from a layout record, and resets POS. -/
  | sdBase (w : BitVec 3) (g : BitVec 3) (k : BitVec 5) (a : BitVec 4) (o : BitVec 10)
  /-- SD_FMT (R138): Writes descriptor quarter Q1 from a checked literal. -/
  | sdFmt (w : BitVec 3) (g : BitVec 3) (k : BitVec 5) (a : BitVec 4) (o : BitVec 10)
  /-- SD_GEOM (R138): Writes descriptor quarter Q2 from a literal. -/
  | sdGeom (w : BitVec 3) (g : BitVec 3) (k : BitVec 5) (a : BitVec 4) (o : BitVec 10)
  /-- SD_SCALE (R138): Writes descriptor quarter Q3 from a literal. -/
  | sdScale (w : BitVec 3) (g : BitVec 3) (k : BitVec 5) (a : BitVec 4) (o : BitVec 10)
  /-- RG_CFG (R140): Configures a ring from a literal and turns it ON with empty counts. -/
  | rgCfg (w : BitVec 3) (g : BitVec 3) (r : BitVec 4) (a : BitVec 4) (o : BitVec 10)
  /-- RG_RST (R141): Resets an idle ring's head, tail and fill count. -/
  | rgRst (w : BitVec 3) (g : BitVec 3) (r : BitVec 4)
  /-- LD_TILE (R143): Reserves a ring entry and copies a block's codes, scales and zero points into it unconverted. -/
  | ldTile (w : BitVec 3) (g : BitVec 3) (r : BitVec 4) (k : BitVec 5) (h : BitVec 1)
  /-- LD_STRD (R144): Loads a 64 × 16 window block transposed into a tile after a bank-conflict check. -/
  | ldStrd (w : BitVec 3) (g : BitVec 3) (d : BitVec 5) (k : BitVec 5) (h : BitVec 1)
  /-- LD_GATH (R143): Gathers rows of the block indexed by a tile into a tile, widened. -/
  | ldGath (w : BitVec 3) (g : BitVec 3) (d : BitVec 5) (k : BitVec 5) (i : BitVec 5) (h : BitVec 1)
  /-- LD_VT (R143): Loads a block widened into a vector tile. -/
  | ldVt (w : BitVec 3) (g : BitVec 3) (d : BitVec 5) (k : BitVec 5) (h : BitVec 1)
  /-- LD_BCST (R143): Loads block row 0 widened into every tile row. -/
  | ldBcst (w : BitVec 3) (g : BitVec 3) (d : BitVec 5) (k : BitVec 5) (h : BitVec 1)
  /-- NEST_SET_IMM (R146): Writes one field of one level of the shadow nest table from an immediate. -/
  | nestSetImm (w : BitVec 3) (g : BitVec 3) (l : BitVec 3) (f : BitVec 2) (i : BitVec 14)
  /-- NEST_SET_REG (R146): Writes one field of the shadow nest table from an n register. -/
  | nestSetReg (w : BitVec 3) (g : BitVec 3) (l : BitVec 3) (f : BitVec 2) (n : BitVec 4)
  /-- NEST_SWAP (R147): Exchanges the active and shadow nest tables in one step. -/
  | nestSwap (w : BitVec 3) (g : BitVec 3)
  /-- MMA (R153): Checks and starts a nest of floating matrix steps into an accumulator, holding ring entries. -/
  | mma (w : BitVec 3) (g : BitVec 3) (d : BitVec 2) (a : BitVec 4) (b : BitVec 4) (s : BitVec 4)
  /-- MMA_Q (R154): Checks and starts a nest of quantised matrix steps into an accumulator. -/
  | mmaQ (w : BitVec 3) (g : BitVec 3) (d : BitVec 2) (a : BitVec 4) (b : BitVec 4) (s : BitVec 4)
  /-- AC_ZERO (R160): Sets every element of an accumulator to +0 and its label to 0. -/
  | acZero (w : BitVec 3) (g : BitVec 3) (d : BitVec 2)
  /-- AC_MV (R161): Copies a 16 × 64 accumulator region into a vector tile. -/
  | acMv (w : BitVec 3) (g : BitVec 3) (d : BitVec 5) (a : BitVec 2) (j : BitVec 4)
  /-- AC_LD (R161): Copies a vector tile into an accumulator region. -/
  | acLd (w : BitVec 3) (g : BitVec 3) (d : BitVec 2) (a : BitVec 5) (j : BitVec 4)
  /-- AC_LD_ADD (R161): Adds a vector tile into an accumulator region by RNE. -/
  | acLdAdd (w : BitVec 3) (g : BitVec 3) (d : BitVec 2) (a : BitVec 5) (j : BitVec 4)
  /-- MFENCE (R159): Waits for earlier matrix instructions to retire and clears all hazard marks. -/
  | mfence (w : BitVec 3) (g : BitVec 3)
  /-- VADD (R171): Elementwise add of two tiles, FP32 or S32. -/
  | vadd (w : BitVec 3) (g : BitVec 3) (d : BitVec 5) (a : BitVec 5) (b : BitVec 5) (p : BitVec 2) (t : BitVec 3)
  /-- VSUB (R171): Elementwise subtract of two tiles. -/
  | vsub (w : BitVec 3) (g : BitVec 3) (d : BitVec 5) (a : BitVec 5) (b : BitVec 5) (p : BitVec 2) (t : BitVec 3)
  /-- VMUL (R171): Elementwise multiply of two tiles. -/
  | vmul (w : BitVec 3) (g : BitVec 3) (d : BitVec 5) (a : BitVec 5) (b : BitVec 5) (p : BitVec 2) (t : BitVec 3)
  /-- VFMA (R171): Elementwise fused multiply-add into the destination. -/
  | vfma (w : BitVec 3) (g : BitVec 3) (d : BitVec 5) (a : BitVec 5) (b : BitVec 5) (p : BitVec 2) (t : BitVec 3)
  /-- VMAX (R171): Elementwise maximum. -/
  | vmax (w : BitVec 3) (g : BitVec 3) (d : BitVec 5) (a : BitVec 5) (b : BitVec 5) (p : BitVec 2) (t : BitVec 3)
  /-- VMIN (R171): Elementwise minimum. -/
  | vmin (w : BitVec 3) (g : BitVec 3) (d : BitVec 5) (a : BitVec 5) (b : BitVec 5) (p : BitVec 2) (t : BitVec 3)
  /-- VABS (R171): Elementwise absolute value. -/
  | vabs (w : BitVec 3) (g : BitVec 3) (d : BitVec 5) (a : BitVec 5) (p : BitVec 2) (t : BitVec 3)
  /-- VNEG (R171): Elementwise negation. -/
  | vneg (w : BitVec 3) (g : BitVec 3) (d : BitVec 5) (a : BitVec 5) (p : BitVec 2) (t : BitVec 3)
  /-- VAND (R171): Elementwise bitwise AND. -/
  | vand (w : BitVec 3) (g : BitVec 3) (d : BitVec 5) (a : BitVec 5) (b : BitVec 5) (p : BitVec 2)
  /-- VOR (R171): Elementwise bitwise OR. -/
  | vor (w : BitVec 3) (g : BitVec 3) (d : BitVec 5) (a : BitVec 5) (b : BitVec 5) (p : BitVec 2)
  /-- VXOR (R171): Elementwise bitwise XOR. -/
  | vxor (w : BitVec 3) (g : BitVec 3) (d : BitVec 5) (a : BitVec 5) (b : BitVec 5) (p : BitVec 2)
  /-- VSHL (R171): Elementwise left shift by b[7:0]. -/
  | vshl (w : BitVec 3) (g : BitVec 3) (d : BitVec 5) (a : BitVec 5) (b : BitVec 5) (p : BitVec 2)
  /-- VSHR (R171): Elementwise logical or arithmetic right shift. -/
  | vshr (w : BitVec 3) (g : BitVec 3) (d : BitVec 5) (a : BitVec 5) (b : BitVec 5) (p : BitVec 2) (s : BitVec 1)
  /-- VCMP (R172): Compares two tiles lane by lane into a mask. -/
  | vcmp (w : BitVec 3) (g : BitVec 3) (d : BitVec 3) (a : BitVec 5) (b : BitVec 5) (p : BitVec 2) (c : BitVec 3)
  /-- VSEL (R173): Selects lanes from two tiles by a mask. -/
  | vsel (w : BitVec 3) (g : BitVec 3) (d : BitVec 5) (a : BitVec 5) (b : BitVec 5) (p : BitVec 2) (m : BitVec 3)
  /-- VCVT (R174): Converts each lane to a target format under a rounding mode. -/
  | vcvt (w : BitVec 3) (g : BitVec 3) (d : BitVec 5) (a : BitVec 5) (i : BitVec 1) (f : BitVec 4) (p : BitVec 2) (m : BitVec 3)
  /-- VMOV (R173): Copies a tile to a tile. -/
  | vmov (w : BitVec 3) (g : BitVec 3) (d : BitVec 5) (a : BitVec 5) (p : BitVec 2)
  /-- VMOV_MT (R173): Expands a mask into a tile of 0 and 1. -/
  | vmovMt (w : BitVec 3) (g : BitVec 3) (d : BitVec 5) (a : BitVec 3) (p : BitVec 2)
  /-- VMOV_TM (R173): Sets mask bits for non-zero tile lanes. -/
  | vmovTm (w : BitVec 3) (g : BitVec 3) (d : BitVec 3) (a : BitVec 5) (p : BitVec 2)
  /-- VMOV_MM (R173): Copies a mask to a mask. -/
  | vmovMm (w : BitVec 3) (g : BitVec 3) (d : BitVec 3) (a : BitVec 3) (p : BitVec 2)
  /-- VLI (R173): Writes a sign-extended integer immediate to every lane. -/
  | vli (w : BitVec 3) (g : BitVec 3) (d : BitVec 5) (i : BitVec 14)
  /-- VLI_F (R173): Writes an FP32 pattern imm14 << 18 to every lane. -/
  | vliF (w : BitVec 3) (g : BitVec 3) (d : BitVec 5) (i : BitVec 14)
  /-- VEXP2 (R175): Correctly rounded 2^x per lane. -/
  | vexp2 (w : BitVec 3) (g : BitVec 3) (d : BitVec 5) (a : BitVec 5) (p : BitVec 2)
  /-- VLOG2 (R175): Correctly rounded log2 x per lane. -/
  | vlog2 (w : BitVec 3) (g : BitVec 3) (d : BitVec 5) (a : BitVec 5) (p : BitVec 2)
  /-- VRCP (R175): Correctly rounded 1/x per lane. -/
  | vrcp (w : BitVec 3) (g : BitVec 3) (d : BitVec 5) (a : BitVec 5) (p : BitVec 2)
  /-- VRSQRT (R175): Correctly rounded 1/√x per lane. -/
  | vrsqrt (w : BitVec 3) (g : BitVec 3) (d : BitVec 5) (a : BitVec 5) (p : BitVec 2)
  /-- VTANH (R175): Correctly rounded tanh per lane. -/
  | vtanh (w : BitVec 3) (g : BitVec 3) (d : BitVec 5) (a : BitVec 5) (p : BitVec 2)
  /-- VSIGM (R175): Correctly rounded logistic sigmoid per lane. -/
  | vsigm (w : BitVec 3) (g : BitVec 3) (d : BitVec 5) (a : BitVec 5) (p : BitVec 2)
  /-- VSOFTP (R175): Correctly rounded softplus per lane. -/
  | vsoftp (w : BitVec 3) (g : BitVec 3) (d : BitVec 5) (a : BitVec 5) (p : BitVec 2)
  /-- VROTR (R177): Rotates each row of a tile by n[S] columns. -/
  | vrotr (w : BitVec 3) (g : BitVec 3) (d : BitVec 5) (a : BitVec 5) (s : BitVec 4) (p : BitVec 2)
  /-- VROTC (R177): Rotates each column of a tile by n[S] rows. -/
  | vrotc (w : BitVec 3) (g : BitVec 3) (d : BitVec 5) (a : BitVec 5) (s : BitVec 4) (p : BitVec 2)
  /-- VBCR (R177): Broadcasts column k across each row. -/
  | vbcr (w : BitVec 3) (g : BitVec 3) (d : BitVec 5) (a : BitVec 5) (s : BitVec 4) (p : BitVec 2)
  /-- VBCC (R177): Broadcasts row k down each column. -/
  | vbcc (w : BitVec 3) (g : BitVec 3) (d : BitVec 5) (a : BitVec 5) (s : BitVec 4) (p : BitVec 2)
  /-- VREDR (R179): Tree-reduces each row and writes the result to its active lanes. -/
  | vredr (w : BitVec 3) (g : BitVec 3) (d : BitVec 5) (a : BitVec 5) (p : BitVec 2) (o : BitVec 3)
  /-- VREDC (R179): Tree-reduces each column and writes the result to its active lanes. -/
  | vredc (w : BitVec 3) (g : BitVec 3) (d : BitVec 5) (a : BitVec 5) (p : BitVec 2) (o : BitVec 3)
  /-- VSCANR (R180): Inclusive doubling-step prefix of each row. -/
  | vscanr (w : BitVec 3) (g : BitVec 3) (d : BitVec 5) (a : BitVec 5) (p : BitVec 2) (o : BitVec 3)
  /-- VPERM (R177): Permutes each row by indices from a tile. -/
  | vperm (w : BitVec 3) (g : BitVec 3) (d : BitVec 5) (a : BitVec 5) (b : BitVec 5) (p : BitVec 2)
  /-- VTR4 (R181): Transposes four tiles as one 64 × 64 block. -/
  | vtr4 (w : BitVec 3) (g : BitVec 3) (d : BitVec 3) (a : BitVec 3)
  /-- VTREE (R182): Tree-reduces a whole tile and delivers the result to a C-strand register under scoreboard. -/
  | vtree (w : BitVec 3) (g : BitVec 3) (a : BitVec 5) (k : BitVec 1) (m : BitVec 3) (o : BitVec 3) (d : BitVec 6)
  /-- SCAN_CFG (R201): Loads a combine image and scan word, checks them and moves the scan unit to UP. -/
  | scanCfg (w : BitVec 3) (g : BitVec 3) (a : BitVec 5) (s : BitVec 4)
  /-- SCAN_SEG (R199): Binds reset-flag input and output masks for scans. -/
  | scanSeg (w : BitVec 3) (g : BitVec 3) (m : BitVec 3) (f : BitVec 3)
  /-- SCAN_SEG_OFF (R199): Unbinds the segment masks. -/
  | scanSegOff (w : BitVec 3) (g : BitVec 3)
  /-- SCAN_LOC_AGG (R202): Folds one token into the running record without output. -/
  | scanLocAgg (w : BitVec 3) (g : BitVec 3) (a : BitVec 5)
  /-- SCAN_LOC_OUT (R202): Folds one token and outputs the local prefix. -/
  | scanLocOut (w : BitVec 3) (g : BitVec 3) (d : BitVec 5) (a : BitVec 5)
  /-- SCAN_LOC_FIN (R202): Folds one token and outputs it combined with its chunk carry. -/
  | scanLocFin (w : BitVec 3) (g : BitVec 3) (d : BitVec 5) (a : BitVec 5)
  /-- SCAN_NET (R204): Issues the task's part of a network sweep of chunk aggregates. -/
  | scanNet (w : BitVec 3) (g : BitVec 3) (x : BitVec 1)
  /-- SCAN_NET_INIT (R204): Issues a network sweep with an initial carry from a slot. -/
  | scanNetInit (w : BitVec 3) (g : BitVec 3) (i : BitVec 4) (x : BitVec 1)
  /-- SCAN_APP (R203): Applies the chunk carry to a stored local prefix. -/
  | scanApp (w : BitVec 3) (g : BitVec 3) (d : BitVec 5) (a : BitVec 5)
  /-- SCAN_STEP (R205): Decode-mode fold of one element into a state record. -/
  | scanStep (w : BitVec 3) (g : BitVec 3) (d : BitVec 5) (a : BitVec 5) (p : BitVec 4)
  /-- SS_LD (R206): Writes a tile into one block of a state slot. -/
  | ssLd (w : BitVec 3) (g : BitVec 3) (p : BitVec 4) (a : BitVec 5) (b : BitVec 3)
  /-- SS_LD_F (R206): Writes a mask into one flag vector of a state slot. -/
  | ssLdF (w : BitVec 3) (g : BitVec 3) (p : BitVec 4) (a : BitVec 3) (b : BitVec 3)
  /-- SS_ST (R206): Reads one block of a state slot into a tile. -/
  | ssSt (w : BitVec 3) (g : BitVec 3) (d : BitVec 5) (p : BitVec 4) (b : BitVec 3)
  /-- SS_ST_F (R206): Reads one flag vector of a state slot into a mask. -/
  | ssStF (w : BitVec 3) (g : BitVec 3) (d : BitVec 3) (p : BitVec 4) (b : BitVec 3)
  /-- SS_ZERO (R206): Clears a state slot to empty. -/
  | ssZero (w : BitVec 3) (g : BitVec 3) (p : BitVec 4)
  /-- DR_ACC (R222): Drains an accumulator region through a descriptor, converting, counting and storing. -/
  | drAcc (w : BitVec 3) (g : BitVec 3) (k : BitVec 5) (a : BitVec 2) (j : BitVec 4) (h : BitVec 1)
  /-- DR_ACC_ALL (R222): Drains a whole accumulator through a descriptor. -/
  | drAccAll (w : BitVec 3) (g : BitVec 3) (k : BitVec 5) (a : AccRegion) (h : BitVec 1)
  /-- DR_VT (R222): Drains a vector tile through a descriptor under the drain mode. -/
  | drVt (w : BitVec 3) (g : BitVec 3) (k : BitVec 5) (a : BitVec 5) (i : BitVec 1) (h : BitVec 1)
  /-- DR_MODE (R220): Loads DMODE and RECH from a 16-byte literal and latches layout-record fields. -/
  | drMode (w : BitVec 3) (g : BitVec 3) (a : BitVec 4) (o : BitVec 10)
  /-- HIST_CFG (R229): Sets a histogram handle's base and clears its counters and label. -/
  | histCfg (w : BitVec 3) (g : BitVec 3) (h : BitVec 4) (a : BitVec 4)
  /-- HIST_RD (R229): Delivers one histogram counter to a C-strand register under scoreboard. -/
  | histRd (w : BitVec 3) (g : BitVec 3) (h : BitVec 4) (k : BitVec 5) (d : BitVec 6)
  /-- HIST_RD_CLR (R229): Delivers one histogram counter and clears it in the same step. -/
  | histRdClr (w : BitVec 3) (g : BitVec 3) (h : BitVec 4) (k : BitVec 5) (d : BitVec 6)
  /-- HIST_CLR (R229): Clears a histogram handle's counters and label. -/
  | histClr (w : BitVec 3) (g : BitVec 3) (h : BitVec 4)
  /-- ST_TILE (R224): Stores a tile's raw 32-bit patterns through a descriptor. -/
  | stTile (w : BitVec 3) (g : BitVec 3) (k : BitVec 5) (a : BitVec 5) (h : BitVec 1)
  /-- ST_WB (R230): Writes back dirty sectors of a range of stash window pages. -/
  | stWb (w : BitVec 3) (g : BitVec 3) (a : BitVec 4) (b : BitVec 4)
  /-- ST_INV (R230): Discards sectors of a range of stash window pages without writeback. -/
  | stInv (w : BitVec 3) (g : BitVec 3) (a : BitVec 4) (b : BitVec 4)
  /-- TILE_DONE (R232): Waits for earlier stores and sends one chunk-counter increment to the collective engine as a release. -/
  | tileDone (w : BitVec 3) (g : BitVec 3) (a : BitVec 4)
  /-- ANNULLED_POSITION (R252): An annulled delay-slot position takes one issue step without fetch or effect. -/
  | annulledPosition (c : CoreId)
  /-- ASYNC_TRAP_TAKE (R257): Takes a queued asynchronous trap (channel error, spill fault, boundary trap, RELDENY, interrupt) at a step boundary. -/
  | asyncTrapTake (c : CoreId)
  /-- LOAD_DELIVERY (R260): A C-strand load's data arrive and x[d] stops being pending. -/
  | loadDelivery (c : CoreId) (d : BitVec 6)
  /-- VTREE_DELIVERY (R183): A vtree result is written to its C-strand register and the give mask is pushed. -/
  | vtreeDelivery (c : CoreId)
  /-- HIST_RD_DELIVERY (R229): A hist.rd counter value is delivered to its C-strand register. -/
  | histRdDelivery (c : CoreId)
  /-- LD_TILE_ENTRY_WRITE (R141): An ld.tile finishes writing its ring entry, moving it from P to F before its give push. -/
  | ldTileEntryWrite (c : CoreId) (r : BitVec 4)
  /-- MMA_RETIRE (R158): A matrix instruction retires, pops its held ring entries and pushes its give mask. -/
  | mmaRetire (c : CoreId)
  /-- TASK_RETIRE (R18): After rdv.end and completion of all the task's commands, the task retires. -/
  | taskRetire (c : CoreId)
  /-- PHASE_BARRIER_COMPLETE (R20): A domain barrier completes, advancing its phase number and releasing every member. -/
  | phaseBarrierComplete (c : CoreId)
  /-- SEM_WAITER_SERVED (R277): The head waiter of a semaphore is served once the count reaches its demand. -/
  | semWaiterServed (c : CoreId) (n : BitVec 6)
  /-- FLAG_ADD_APPLY (R279): A posted flag increment is applied at the flag's home. -/
  | flagAddApply (j : JobId) (k : Nat)
  /-- WAITT_RESUME (R283): TIME reaches the target of a waiting waitt, which completes. -/
  | waittResume (c : CoreId)
  /-- TRANSFER_RECORD_READ (R120): A channel reads and checks its next transfer record and layout records before the first unit. -/
  | transferRecordRead (cl : ClusterId) (ch : BitVec 3)
  /-- TRANSFER_UNIT (R111): The engine translates, reads and writes one unit of a record. -/
  | transferUnit (src : XferSrc)
  /-- RECORD_COMPLETION (R117): After a record's last unit the engine writes it back, increments the semaphore and moves to NEXT. -/
  | recordCompletion (cl : ClusterId) (ch : BitVec 3)
  /-- TCP_COMPLETION (R124): A tcp copy ends and its status token becomes ready in x[d]. -/
  | tcpCompletion (c : CoreId) (k : Nat)
  /-- DEADLINE_LEAD_REACHED (R116): TIME reaches DEADLINE − 2^(DLEAD+6) and an offload record's remaining units move to the ordinary class. -/
  | deadlineLeadReached (src : XferSrc)
  /-- SPILL_COMPLETION (R215): The state-spill engine finishes a spill or fill. -/
  | spillCompletion (c : CoreId)
  /-- SCAN_NET_SWEEP_END (R204): A network sweep compares digests and either commits carries to every member or aborts. -/
  | scanNetSweepEnd (c : CoreId)
  /-- CARRY_PACKET (R212): An IOC node receives a carry packet and handles it by sweep number. -/
  | carryPacket (p : PartId) (packet : CarryIn)
  /-- SPLICE_SERVICE (R290): The repair engine applies or refuses a queued splice and delivers its status. -/
  | spliceService (k : Nat)
  /-- REP_GO_SERVICE (R297): The repair engine serves a rep.go, issuing CHECK items or a status. -/
  | repGoService (k : Nat)
  /-- WORK_ITEM_RETURN (R297): The engine reads back a work item with OWN = 0 and advances the context. -/
  | workItemReturn (k : Nat) (slot : Nat)
  /-- GUARDED_READ_RESUME (R301): A waiting guarded read completes issue once its block's level reaches the layer. -/
  | guardedReadResume (c : CoreId) (st : Strand)
  /-- COLL_SEND (R320): A collective program's SEND step sends a ready chunk to a peer. -/
  | collSend (h : Nat)
  /-- COLL_RECV (R320): A RECV step takes the next message, reduces, stores and forwards it. -/
  | collRecv (h : Nat)
  /-- COLL_COPY (R320): A COPY step copies a ready chunk unchanged in the data pass. -/
  | collCopy (h : Nat)
  /-- COLL_WAIT (R320): A WAIT step waits for a chunk counter and subtracts from it. -/
  | collWait (h : Nat)
  /-- COLL_LOOP (R320): A LOOP step advances a loop counter and branches back. -/
  | collLoop (h : Nat)
  /-- COLL_END (R325): END starts the data pass or commits the program, copying RSTG into RES. -/
  | collEnd (h : Nat)
  /-- CHUNK_READY (R322): A chunk's store count or chunk counter reaches its target and the waiting step proceeds. -/
  | chunkReady (h : Nat)
  /-- COLL_MESSAGE (R324): A collective message arrives and is matched, held or discarded. -/
  | collMessage (p : PartId) (m : CollMsg)
  /-- COLL_ACK (R320): A receiver's acknowledgement completes a SEND or forward. -/
  | collAck (h : Nat)
  /-- ABORT_NOTICE (R326): An ABORT notice arrives and moves a running program to ABORTING or is held. -/
  | abortNotice (p : PartId) (tag : BitVec 16) (rnd : BitVec 32) (silent : BitVec 7)
  /-- COLL_TIMEOUT (R327): A step waits longer than TMO and the program aborts with TMO. -/
  | collTimeout (h : Nat)
  /-- LABEL_JOIN_MISS (R306): A label join missing the die cache is resolved or allocated at the IOC. -/
  | labelJoinMiss (die : Fin 4) (a b : Label)
  /-- PACKET_FETCH (R335): The fetcher copies the packet at HEAD of a running queue into a fetch slot. -/
  | packetFetch (q : QueueId)
  /-- PROLOGUE_COMPLETE (R339): The job's prologue writes have performed and it becomes resident and ready. -/
  | prologueComplete (j : JobId)
  /-- PREEMPTION_DECISION (R344): The dispatch unit decides whether a newcomer's tokens pre-empt running jobs and by which form. -/
  | preemptionDecision (j : JobId)
  /-- JOB_BIND (R340): A ready job is placed on free clusters, its state set and its C strands started. -/
  | jobBind (j : JobId) (cls : List ClusterId)
  /-- DRAIN (R345): A pre-empted job runs on for its drain window before saving. -/
  | drain (j : JobId)
  /-- DRAIN_WINDOW_EXPIRY (R345): The drain window ends; issue stops, started work completes and the context is saved. -/
  | drainWindowExpiry (j : JobId)
  /-- CHECKPOINT (R362): A job stops at a consistent cut and its engines stop at unit boundaries. -/
  | checkpoint (j : JobId)
  /-- CONTEXT_SAVED (R362): Task images, flag file and counters are written and the clusters are freed. -/
  | contextSaved (j : JobId)
  /-- KILL (R345): A job is abandoned and its completion record takes fate 1. -/
  | kill (j : JobId)
  /-- JOB_RESUME (R364): A pre-empted job rebinds, its images are restored and its journal is replayed. -/
  | jobResume (j : JobId) (cls : List ClusterId)
  /-- BUCKET_REFILL (R343): Every µs each virtual device's bucket gains WEIGHT tokens. -/
  | bucketRefill
  /-- QUANTUM_END (R346): The rotation leaves a virtual device after QEFF and moves to the next. -/
  | quantumEnd (p : PartId)
  /-- RACK_LAUNCH_PACKET (R332): A forwarded launch packet enters the partition's rack queue. -/
  | rackLaunchPacket (q : QueueId) (bytes : List Byte)
  /-- UALINK_REQUEST (R85): A request arriving over UALink is served or answered with an error completion. -/
  | ualinkRequest (r : UalReq)
  /-- FLIT_RECEIVE (R331): An off-chip flit arrives and is accepted or discarded on CRC or buffer failure. -/
  | flitReceive (f : Flit)
  /-- FLIT_REPLAY (R331): The sender replays from the first unacknowledged flit. -/
  | flitReplay (p : Port)
  /-- LINK_DOWN (R331): After 16 replays without progress a link is declared down. -/
  | linkDown (p : Port)
  /-- EPOCH_REWRITE (R89): Sorrel rewrites a slice's side band before its 12-bit epoch would repeat. -/
  | epochRewrite (s : Fin 32)
  /-- HOST_REGISTER_WRITE (R6): A host write to a register with no row of its own, checked and applied or discarded. -/
  | hostRegisterWrite (off : BitVec 26) (size : Nat) (v : Word)
  /-- HOST_MEMORY_READ (R372): A host read through BAR 4 returns data judged by the release gate. -/
  | hostMemoryRead (off : BitVec 39) (n : Nat)
  /-- HOST_MEMORY_WRITE (R372): A host write through BAR 4 reaches HBM labelled with port 0's INLBL. -/
  | hostMemoryWrite (off : BitVec 39) (bytes : List Byte)
  /-- INV_STAGE1_RANGE (R98): INVCMD kind 1 invalidates stage-one translations of an ASID over a page range. -/
  | invStage1Range (p : PartId) (asid : BitVec 16)
  /-- INV_STAGE1_ALL (R98): INVCMD kind 2 invalidates all stage-one translations of an ASID. -/
  | invStage1All (p : PartId) (asid : BitVec 16)
  /-- INV_STAGE2_RANGE (R98): INVCMD kind 3 invalidates stage-two translations of a virtual device over an IPA range. -/
  | invStage2Range (p : PartId) (vd : BitVec 3)
  /-- INV_STAGE2_ALL (R98): INVCMD kind 4 invalidates all stage-two translations of a virtual device. -/
  | invStage2All (p : PartId) (vd : BitVec 3)
  /-- INV_PARTITION_ALL (R98): INVCMD kind 5 invalidates everything in the partition. -/
  | invPartitionAll (p : PartId)
  /-- INVALIDATION_DONE (R99): An invalidation's conditions are met and DONE is set. -/
  | invalidationDone (p : PartId)
  /-- WQKICK (R334): A host kick sets a queue's accepted tail or halts it on a bad tail. -/
  | wqkick (q : QueueId) (tail : Word)
  /-- WQ_ENABLE (R334): WQCMD enable moves an OFF queue to RUN if its configuration is valid. -/
  | wqEnable (q : QueueId)
  /-- WQ_RESUME (R334): WQCMD resume restarts a halted queue at the same packet. -/
  | wqResume (q : QueueId)
  /-- WQ_SKIP (R334): WQCMD skip restarts a halted queue past the failing packet. -/
  | wqSkip (q : QueueId)
  /-- WQ_DESTROY (R336): WQCMD destroy discards the queue's fetched jobs, kills its bound jobs and makes it DEAD. -/
  | wqDestroy (q : QueueId)
  /-- QUEUE_OFF_AFTER_DESTROY (R334): A DEAD queue's last job is gone; the queue becomes OFF with a cause-table entry. -/
  | queueOffAfterDestroy (q : QueueId)
  /-- PSL (R341): A write to PSL configures a partition's slices and enables or disables it. -/
  | psl (p : PartId) (v : Word)
  /-- VDQ (R343): A write to VDQ is judged and sets QEFF and QST for a virtual device. -/
  | vdq (p : PartId) (vd : BitVec 3) (v : Word)
  /-- TINTR (R354): A host write to TINTR raises a task interrupt on a core. -/
  | tintr (c : CoreId) (v : Word)
  /-- TIMESET (R377): A host write sets TIME unless the value would step backwards. -/
  | timeset (v : Word)
  /-- SNAP_HOST_TRIGGER (R369): A host write of SNAPCTL.TRIG fires the snapshot trigger. -/
  | snapHostTrigger (p : PartId)
  /-- SNAP_ARM (R369): A host write of SNAPCTL.ARM arms the snapshot trigger. -/
  | snapArm (p : PartId)
  /-- WSREC_VALID_CLEAR (R108): Clearing WSREC.VALID clears the record and WSOVF. -/
  | wsrecValidClear (s : Fin 32)
  /-- RACEPA_VALID_CLEAR (R248): Clearing RACEPA.VALID clears RACEREC. -/
  | racepaValidClear (c : CoreId)
  /-- HPREC_VALID_CLEAR (R373): Clearing HPREC.VALID clears HPCNT. -/
  | hprecValidClear
  /-- RELREC_VALID_CLEAR (R314): Clearing RELREC.VALID clears the release-drop record. -/
  | relrecValidClear
  /-- FTREC_VALID_CLEAR (R352): Clearing FTREC0.VALID clears all three unhandled-trap registers. -/
  | ftrecValidClear (p : PartId)
  /-- LOST_CLEAR (R347): A write of zero clears a partition's LOST count. -/
  | lostClear (p : PartId)
  /-- CREATE_ORIGIN (R304): Mailbox command 0x01 creates an origin with its key, AUTH and single-origin label. -/
  | createOrigin
  /-- INSTALL_POLICY (R313): Mailbox command 0x02 verifies and installs a signed release policy. -/
  | installPolicy
  /-- REMOVE_POLICY (R313): Mailbox command 0x03 removes a policy signed by one of its origins. -/
  | removePolicy
  /-- ATTEST (R380): Mailbox command 0x04 produces a signed attestation report of a partition. -/
  | attest
  /-- MAILBOX_DONE (R378): Sorrel writes the response visibly and sets DONE. -/
  | mailboxDone
  /-- COLD_RESET (R376): RESET_N low discards all state. -/
  | coldReset
  /-- BRINGUP_START (R375): With PWRGOOD and REFCLK stable, release of RESET_N starts bring-up in RESET. -/
  | bringupStart
  /-- VERIFY (R375): Sorrel's firmware verification ends, moving to MEMINIT or FAILED. -/
  | verify (a : Nat) (b : Nat)
  /-- MEMINIT (R375): HBM4 training ends, moving to READY or FAILED. -/
  | meminit (bad : List (Fin 8))
  /-- FUNCTION_LEVEL_RESET (R376): A PCIe FLR kills every job, empties queues and the cause table and disables partitions. -/
  | functionLevelReset (bad : List (Fin 8))
  /-- PPS_IN (R268): A PPS pulse disciplines the rate of TIME. -/
  | ppsIn
  /-- LOVAGE_GRANT (R381): Every µs Lovage grants clusters equal shares of the power cap. -/
  | lovageGrant (granted : List ClusterId) (mw : Word32)
  /-- THERMAL_TRIP (R381): A thermal trip begins; grants become zero and THERM_N goes low. -/
  | thermalTrip
  /-- THERMAL_TRIP_END (R381): A thermal trip ends and grants resume. -/
  | thermalTripEnd
  /-- ILLEGAL_INSTRUCTION_WORD (R60): A strand fetches a word that is not an instruction and raises the illegal-instruction trap with TVAL := the word. -/
  | illegalInstructionWord (c : CoreId) (st : Strand) (w : Word32)
  /-- INSTRUCTION_FETCH_FAULT (R255): The fetch of a word at a non-annulled position faults on translation, permission or a watchpoint and traps precisely at that position. -/
  | instructionFetchFault (c : CoreId) (st : Strand)
  /-- AMO_DELIVERY (R361): An atomic that has performed at its location delivers its old value into x[d], completing its journal entry. -/
  | amoDelivery (c : CoreId) (d : BitVec 6)
  /-- L1_WRITEBACK (R109): A dirty L1 line is written back to its slice, where it is seen by slice watchpoints as KIND 7 and counted by store-count triggers. -/
  | l1Writeback (c : CoreId) (sector : Nat)
  /-- HOST_LINK_BUDGET_WINDOW (R341): A new 1 µs host-link budget window opens and releases device-initiated UCIe traffic that was held back by HLBUD. -/
  | hostLinkBudgetWindow
  deriving DecidableEq, Repr

/-- Which table decodes an instruction word: a strand's own, or the opcodes 0x01 to 0x08 shared by L, X and S (R73). -/
inductive Tbl where
  | C | E | L | X | S
  /-- a step of another agent, which no strand fetches -/
  | agent
  deriving DecidableEq, Repr

/-- The table of each constructor (R63 to R76). -/
def Instr.tbl : Instr → Tbl
  | .add _ _ _ | .sub _ _ _ | .and _ _ _ | .or _ _ _ | .xor _ _ _ | .sll _ _ _ | .srl _ _ _ | .sra _ _ _
  | .slt _ _ _ | .sltu _ _ _ | .mul _ _ _ | .mulh _ _ _ | .mulhu _ _ _ | .div _ _ _ | .divu _ _ _ | .rem _ _ _
  | .remu _ _ _ | .min _ _ _ | .max _ _ _ | .clz _ _ | .ctz _ _ | .popc _ _ | .addi _ _ _ | .andi _ _ _
  | .ori _ _ _ | .xori _ _ _ | .slti _ _ _ | .slli _ _ _ | .srli _ _ _ | .srai _ _ _ | .lih _ _ | .adpc _ _
  | .ld _ _ _ _ | .st _ _ _ _ | .beq _ _ _ _ | .bne _ _ _ _ | .blt _ _ _ _ | .bge _ _ _ _ | .bltu _ _ _ _
  | .bgeu _ _ _ _ | .j _ | .jal _ _ | .jalr _ _ _ | .amoAdd _ _ _ _ _ | .amoAnd _ _ _ _ _ | .amoOr _ _ _ _ _
  | .amoXor _ _ _ _ _ | .amoMin _ _ _ _ _ | .amoMax _ _ _ _ _ | .amoSwap _ _ _ _ _ | .amoCas _ _ _ _ _
  | .amoFadd _ _ _ _ _ | .fence _ _ | .csrr _ _ | .csrw _ _ | .csrs _ _ | .svc _ | .tret | .wfi | .brk _
  | .snap | .tcp _ _ | .chanGo _ _ | .chanStat _ _ | .chanAbort _ | .lrecFlush _ | .semAcq _ _ _
  | .semRel _ _ _ | .semTry _ _ _ _ | .semRd _ _ _ | .tokGive _ | .tokWait _ | .fork _ | .rdv _ | .rdvEnd _
  | .domSetSplit | .domSetJoin | .flagAdd _ _ | .flagWait _ _ | .phase | .waitt _ | .launch _ _ | .est _
  | .srkey _ _ | .lblRdReg _ _ | .lblRdMem _ _ | .splice _ _ _ | .repGo _ _ | .repPoll _ _ | .collGo _ _
  | .collPoll _ _ | .ssSpill _ _ | .ssFill _ _ => .C
  | .lpSetImm _ _ _ _ | .lpSetReg _ _ _ _ | .lpEnd _ _ _ _ | .eJ _ _ _ | .eBnz _ _ _ _ | .nLi _ _ _ _
  | .nAdd _ _ _ _ _ | .eRdv _ _ _ | .eRdvEnd _ _ _ | .eNop _ _ => .E
  | .sdBase _ _ _ _ _ | .sdFmt _ _ _ _ _ | .sdGeom _ _ _ _ _ | .sdScale _ _ _ _ _ | .rgCfg _ _ _ _ _
  | .rgRst _ _ _ | .ldTile _ _ _ _ _ | .ldStrd _ _ _ _ _ | .ldGath _ _ _ _ _ _ | .ldVt _ _ _ _ _
  | .ldBcst _ _ _ _ _ | .nestSetImm _ _ _ _ _ | .nestSetReg _ _ _ _ _ | .nestSwap _ _ => .L
  | .mma _ _ _ _ _ _ | .mmaQ _ _ _ _ _ _ | .acZero _ _ _ | .acMv _ _ _ _ _ | .acLd _ _ _ _ _
  | .acLdAdd _ _ _ _ _ | .mfence _ _ | .vadd _ _ _ _ _ _ _ | .vsub _ _ _ _ _ _ _ | .vmul _ _ _ _ _ _ _
  | .vfma _ _ _ _ _ _ _ | .vmax _ _ _ _ _ _ _ | .vmin _ _ _ _ _ _ _ | .vabs _ _ _ _ _ _ | .vneg _ _ _ _ _ _
  | .vand _ _ _ _ _ _ | .vor _ _ _ _ _ _ | .vxor _ _ _ _ _ _ | .vshl _ _ _ _ _ _ | .vshr _ _ _ _ _ _ _
  | .vcmp _ _ _ _ _ _ _ | .vsel _ _ _ _ _ _ _ | .vcvt _ _ _ _ _ _ _ _ | .vmov _ _ _ _ _ | .vmovMt _ _ _ _ _
  | .vmovTm _ _ _ _ _ | .vmovMm _ _ _ _ _ | .vli _ _ _ _ | .vliF _ _ _ _ | .vexp2 _ _ _ _ _ | .vlog2 _ _ _ _ _
  | .vrcp _ _ _ _ _ | .vrsqrt _ _ _ _ _ | .vtanh _ _ _ _ _ | .vsigm _ _ _ _ _ | .vsoftp _ _ _ _ _
  | .vrotr _ _ _ _ _ _ | .vrotc _ _ _ _ _ _ | .vbcr _ _ _ _ _ _ | .vbcc _ _ _ _ _ _ | .vredr _ _ _ _ _ _
  | .vredc _ _ _ _ _ _ | .vscanr _ _ _ _ _ _ | .vperm _ _ _ _ _ _ | .vtr4 _ _ _ _ | .vtree _ _ _ _ _ _ _
  | .scanCfg _ _ _ _ | .scanSeg _ _ _ _ | .scanSegOff _ _ | .scanLocAgg _ _ _ | .scanLocOut _ _ _ _
  | .scanLocFin _ _ _ _ | .scanNet _ _ _ | .scanNetInit _ _ _ _ | .scanApp _ _ _ _ | .scanStep _ _ _ _ _
  | .ssLd _ _ _ _ _ | .ssLdF _ _ _ _ _ | .ssSt _ _ _ _ _ | .ssStF _ _ _ _ _ | .ssZero _ _ _ => .X
  | .drAcc _ _ _ _ _ _ | .drAccAll _ _ _ _ _ | .drVt _ _ _ _ _ _ | .drMode _ _ _ _ | .histCfg _ _ _ _
  | .histRd _ _ _ _ _ | .histRdClr _ _ _ _ _ | .histClr _ _ _ | .stTile _ _ _ _ _ | .stWb _ _ _ _
  | .stInv _ _ _ _ | .tileDone _ _ _ => .S
  | .annulledPosition _ | .asyncTrapTake _ | .loadDelivery _ _ | .vtreeDelivery _ | .histRdDelivery _
  | .ldTileEntryWrite _ _ | .mmaRetire _ | .taskRetire _ | .phaseBarrierComplete _ | .semWaiterServed _ _
  | .flagAddApply _ _ | .waittResume _ | .transferRecordRead _ _ | .transferUnit _ | .recordCompletion _ _
  | .tcpCompletion _ _ | .deadlineLeadReached _ | .spillCompletion _ | .scanNetSweepEnd _ | .carryPacket _ _
  | .spliceService _ | .repGoService _ | .workItemReturn _ _ | .guardedReadResume _ _ | .collSend _
  | .collRecv _ | .collCopy _ | .collWait _ | .collLoop _ | .collEnd _ | .chunkReady _ | .collMessage _ _
  | .collAck _ | .abortNotice _ _ _ _ | .collTimeout _ | .labelJoinMiss _ _ _ | .packetFetch _
  | .prologueComplete _ | .preemptionDecision _ | .jobBind _ _ | .drain _ | .drainWindowExpiry _
  | .checkpoint _ | .contextSaved _ | .kill _ | .jobResume _ _ | .bucketRefill | .quantumEnd _
  | .rackLaunchPacket _ _ | .ualinkRequest _ | .flitReceive _ | .flitReplay _ | .linkDown _ | .epochRewrite _
  | .hostRegisterWrite _ _ _ | .hostMemoryRead _ _ | .hostMemoryWrite _ _ | .invStage1Range _ _
  | .invStage1All _ _ | .invStage2Range _ _ | .invStage2All _ _ | .invPartitionAll _ | .invalidationDone _
  | .wqkick _ _ | .wqEnable _ | .wqResume _ | .wqSkip _ | .wqDestroy _ | .queueOffAfterDestroy _ | .psl _ _
  | .vdq _ _ _ | .tintr _ _ | .timeset _ | .snapHostTrigger _ | .snapArm _ | .wsrecValidClear _
  | .racepaValidClear _ | .hprecValidClear | .relrecValidClear | .ftrecValidClear _ | .lostClear _
  | .createOrigin | .installPolicy | .removePolicy | .attest | .mailboxDone | .coldReset | .bringupStart
  | .verify _ _ | .meminit _ | .functionLevelReset _ | .ppsIn | .lovageGrant _ _ | .thermalTrip
  | .thermalTripEnd | .illegalInstructionWord _ _ _ | .instructionFetchFault _ _ | .amoDelivery _ _
  | .l1Writeback _ _ | .hostLinkBudgetWindow => .agent

/-- A strand decodes its own table; L, X and S also the shared one (R59, R73). -/
def Tbl.ofStrand : Tbl → Strand → Bool
  | .C, .C => true
  | .E, .L => true
  | .E, .X => true
  | .E, .S => true
  | .L, .L => true
  | .X, .X => true
  | .S, .S => true
  | _, _ => false

end Sys2Proof
end

