-- ==== Sys2Proof/WellFormed.lean ====
section
/-! DEFINITION. Which instructions are well formed: the reserved codes of modifier fields (R60, R62, R66 to R70) and the
field values that the unit chapters make illegal in the word itself (R146, R171, R174, R179 to R182). A word that decodes
to an ill-formed instruction is not an instruction and raises ILLEGAL (R60). -/

namespace Sys2Proof

/-- The CSR numbers that R68 assigns. -/
def csrAssigned (c : BitVec 12) : Bool :=
  decide (c.toNat ≤ 7 ∨ c.toNat = 0x10 ∨ c.toNat = 0x20 ∨ c.toNat = 0x21 ∨ 0x30 ≤ c.toNat ∧ c.toNat ≤ 0x35 ∨ c.toNat = 0x40)

/-- The CSR numbers whose access is RW (R67, R68). -/
def csrWritable (c : BitVec 12) : Bool :=
  decide (c.toNat ≤ 7 ∨ c.toNat = 0x20 ∨ c.toNat = 0x21 ∨ c.toNat = 0x40)

/-- Well-formedness: every modifier field of the instruction holds a code the maps assign. -/
def Instr.wf : Instr → Bool
  | .ld _ _ w _ => decide (w.toNat ≠ 7)
  | .st _ _ w _ => decide (w.toNat ∈ [1, 3, 5, 6])
  | .beq _ _ n _ => decide (n.toNat ≠ 3)
  | .bne _ _ n _ => decide (n.toNat ≠ 3)
  | .blt _ _ n _ => decide (n.toNat ≠ 3)
  | .bge _ _ n _ => decide (n.toNat ≠ 3)
  | .bltu _ _ n _ => decide (n.toNat ≠ 3)
  | .bgeu _ _ n _ => decide (n.toNat ≠ 3)
  | .amoAdd _ _ _ _ s => decide (s.toNat ≤ 4)
  | .amoAnd _ _ _ _ s => decide (s.toNat ≤ 4)
  | .amoOr _ _ _ _ s => decide (s.toNat ≤ 4)
  | .amoXor _ _ _ _ s => decide (s.toNat ≤ 4)
  | .amoMin _ _ _ _ s => decide (s.toNat ≤ 4)
  | .amoMax _ _ _ _ s => decide (s.toNat ≤ 4)
  | .amoSwap _ _ _ _ s => decide (s.toNat ≤ 4)
  | .amoCas _ _ _ _ s => decide (s.toNat ≤ 4)
  | .amoFadd _ _ _ s _ => decide (s.toNat ≤ 4)
  | .fence r s => decide (r.toNat ≠ 0 ∧ s.toNat ≤ 4)
  | .csrr _ c => csrAssigned c
  | .csrw _ c => csrWritable c
  | .csrs _ c => csrWritable c
  | .tokGive q => decide (q.toNat ≠ 0)
  | .tokWait q => decide (q.toNat ≠ 0)
  | .nestSetImm _ _ l f i => decide (l.toNat ≤ 5 ∧ (f.toNat = 0 → i.toNat ≠ 0))
  | .nestSetReg _ _ l _ _ => decide (l.toNat ≤ 5)
  | .vadd _ _ _ _ _ _ t => decide (t.toNat ≤ 2)
  | .vsub _ _ _ _ _ _ t => decide (t.toNat ≤ 2)
  | .vmul _ _ _ _ _ _ t => decide (t.toNat ≤ 2)
  | .vfma _ _ _ _ _ _ t => decide (t.toNat ≤ 2)
  | .vmax _ _ _ _ _ _ t => decide (t.toNat ≤ 1)
  | .vmin _ _ _ _ _ _ t => decide (t.toNat ≤ 1)
  | .vabs _ _ _ _ _ t => decide (t.toNat ≤ 2)
  | .vneg _ _ _ _ _ t => decide (t.toNat ≤ 2)
  | .vcvt _ _ _ _ i f _ m => decide (m.toNat ≤ 3 ∧ f.toNat ∈ [0, 1, 2, 3, 4, 8] ∧ ¬(i.toNat = 0 ∧ f.toNat = 0) ∧ ¬(i.toNat = 1 ∧ f.toNat = 8))
  | .vredr _ _ _ _ _ o => decide (o.toNat ≠ 7)
  | .vredc _ _ _ _ _ o => decide (o.toNat ≠ 7)
  | .vscanr _ _ _ _ _ o => decide (o.toNat ≠ 7)
  | .vtree _ _ _ k m o _ => decide (o.toNat ≠ 7 ∧ (k.toNat = 0 → m.toNat = 0))
  | .add _ _ _ | .sub _ _ _ | .and _ _ _ | .or _ _ _ | .xor _ _ _ | .sll _ _ _ | .srl _ _ _ | .sra _ _ _
  | .slt _ _ _ | .sltu _ _ _ | .mul _ _ _ | .mulh _ _ _ | .mulhu _ _ _ | .div _ _ _ | .divu _ _ _ | .rem _ _ _
  | .remu _ _ _ | .min _ _ _ | .max _ _ _ | .clz _ _ | .ctz _ _ | .popc _ _ | .addi _ _ _ | .andi _ _ _
  | .ori _ _ _ | .xori _ _ _ | .slti _ _ _ | .slli _ _ _ | .srli _ _ _ | .srai _ _ _ | .lih _ _ | .adpc _ _ | .j _
  | .jal _ _ | .jalr _ _ _ | .svc _ | .tret | .wfi | .brk _ | .snap | .tcp _ _ | .chanGo _ _ | .chanStat _ _
  | .chanAbort _ | .lrecFlush _ | .semAcq _ _ _ | .semRel _ _ _ | .semTry _ _ _ _ | .semRd _ _ _ | .fork _ | .rdv _
  | .rdvEnd _ | .domSetSplit | .domSetJoin | .flagAdd _ _ | .flagWait _ _ | .phase | .waitt _ | .launch _ _
  | .est _ | .srkey _ _ | .lblRdReg _ _ | .lblRdMem _ _ | .splice _ _ _ | .repGo _ _ | .repPoll _ _ | .collGo _ _
  | .collPoll _ _ | .ssSpill _ _ | .ssFill _ _ | .lpSetImm _ _ _ _ | .lpSetReg _ _ _ _ | .lpEnd _ _ _ _ | .eJ _ _ _
  | .eBnz _ _ _ _ | .nLi _ _ _ _ | .nAdd _ _ _ _ _ | .eRdv _ _ _ | .eRdvEnd _ _ _ | .eNop _ _ | .sdBase _ _ _ _ _
  | .sdFmt _ _ _ _ _ | .sdGeom _ _ _ _ _ | .sdScale _ _ _ _ _ | .rgCfg _ _ _ _ _ | .rgRst _ _ _ | .ldTile _ _ _ _ _
  | .ldStrd _ _ _ _ _ | .ldGath _ _ _ _ _ _ | .ldVt _ _ _ _ _ | .ldBcst _ _ _ _ _ | .nestSwap _ _
  | .mma _ _ _ _ _ _ | .mmaQ _ _ _ _ _ _ | .acZero _ _ _ | .acMv _ _ _ _ _ | .acLd _ _ _ _ _ | .acLdAdd _ _ _ _ _
  | .mfence _ _ | .vand _ _ _ _ _ _ | .vor _ _ _ _ _ _ | .vxor _ _ _ _ _ _ | .vshl _ _ _ _ _ _
  | .vshr _ _ _ _ _ _ _ | .vcmp _ _ _ _ _ _ _ | .vsel _ _ _ _ _ _ _ | .vmov _ _ _ _ _ | .vmovMt _ _ _ _ _
  | .vmovTm _ _ _ _ _ | .vmovMm _ _ _ _ _ | .vli _ _ _ _ | .vliF _ _ _ _ | .vexp2 _ _ _ _ _ | .vlog2 _ _ _ _ _
  | .vrcp _ _ _ _ _ | .vrsqrt _ _ _ _ _ | .vtanh _ _ _ _ _ | .vsigm _ _ _ _ _ | .vsoftp _ _ _ _ _
  | .vrotr _ _ _ _ _ _ | .vrotc _ _ _ _ _ _ | .vbcr _ _ _ _ _ _ | .vbcc _ _ _ _ _ _ | .vperm _ _ _ _ _ _
  | .vtr4 _ _ _ _ | .scanCfg _ _ _ _ | .scanSeg _ _ _ _ | .scanSegOff _ _ | .scanLocAgg _ _ _ | .scanLocOut _ _ _ _
  | .scanLocFin _ _ _ _ | .scanNet _ _ _ | .scanNetInit _ _ _ _ | .scanApp _ _ _ _ | .scanStep _ _ _ _ _
  | .ssLd _ _ _ _ _ | .ssLdF _ _ _ _ _ | .ssSt _ _ _ _ _ | .ssStF _ _ _ _ _ | .ssZero _ _ _ | .drAcc _ _ _ _ _ _
  | .drAccAll _ _ _ _ _ | .drVt _ _ _ _ _ _ | .drMode _ _ _ _ | .histCfg _ _ _ _ | .histRd _ _ _ _ _
  | .histRdClr _ _ _ _ _ | .histClr _ _ _ | .stTile _ _ _ _ _ | .stWb _ _ _ _ | .stInv _ _ _ _ | .tileDone _ _ _
  | .annulledPosition _ | .asyncTrapTake _ | .loadDelivery _ _ | .vtreeDelivery _ | .histRdDelivery _
  | .ldTileEntryWrite _ _ | .mmaRetire _ | .taskRetire _ | .phaseBarrierComplete _ | .semWaiterServed _ _
  | .flagAddApply _ _ | .waittResume _ | .transferRecordRead _ _ | .transferUnit _ | .recordCompletion _ _
  | .tcpCompletion _ _ | .deadlineLeadReached _ | .spillCompletion _ | .scanNetSweepEnd _ | .carryPacket _ _
  | .spliceService _ | .repGoService _ | .workItemReturn _ _ | .guardedReadResume _ _ | .collSend _ | .collRecv _
  | .collCopy _ | .collWait _ | .collLoop _ | .collEnd _ | .chunkReady _ | .collMessage _ _ | .collAck _
  | .abortNotice _ _ _ _ | .collTimeout _ | .labelJoinMiss _ _ _ | .packetFetch _ | .prologueComplete _
  | .preemptionDecision _ | .jobBind _ _ | .drain _ | .drainWindowExpiry _ | .checkpoint _ | .contextSaved _
  | .kill _ | .jobResume _ _ | .bucketRefill | .quantumEnd _ | .rackLaunchPacket _ _ | .ualinkRequest _
  | .flitReceive _ | .flitReplay _ | .linkDown _ | .epochRewrite _ | .hostRegisterWrite _ _ _ | .hostMemoryRead _ _
  | .hostMemoryWrite _ _ | .invStage1Range _ _ | .invStage1All _ _ | .invStage2Range _ _ | .invStage2All _ _
  | .invPartitionAll _ | .invalidationDone _ | .wqkick _ _ | .wqEnable _ | .wqResume _ | .wqSkip _ | .wqDestroy _
  | .queueOffAfterDestroy _ | .psl _ _ | .vdq _ _ _ | .tintr _ _ | .timeset _ | .snapHostTrigger _ | .snapArm _
  | .wsrecValidClear _ | .racepaValidClear _ | .hprecValidClear | .relrecValidClear | .ftrecValidClear _
  | .lostClear _ | .createOrigin | .installPolicy | .removePolicy | .attest | .mailboxDone | .coldReset
  | .bringupStart | .verify _ _ | .meminit _ | .functionLevelReset _ | .ppsIn | .lovageGrant _ _ | .thermalTrip
  | .thermalTripEnd | .illegalInstructionWord _ _ _ | .instructionFetchFault _ _ | .amoDelivery _ _
  | .l1Writeback _ _ | .hostLinkBudgetWindow => true

end Sys2Proof
end

