-- ==== Sys2Proof/Decode.lean ====
section
/-! DEFINITION. Decoding and encoding of instruction words (R59 to R76), written from the field tables of
spec/03_encodings_and_assembly.md. Each strand decodes by its own table; a word that a table does not assign, or one with
a non-zero reserved field or a reserved code, is rejected by name and raises ILLEGAL when it is fetched (R60). After the
decoder stands the encoder of well-formed instructions. -/

namespace Sys2Proof

/-- Why a word is not an instruction (R60). -/
inductive Reject where
  /-- the opcode, func value or a reserved field matches no row of the strand's table -/
  | unassigned (w : Nat)
  /-- a row matches, but a modifier or register field holds a reserved code -/
  | illFormed (i : Instr)
  /-- fewer than four bytes were given -/
  | short
  deriving DecidableEq, Repr

/-- Bits [lo + n − 1 : lo] of a word (R3). -/
def bitsAt (w lo n : Nat) : Nat := w / 2 ^ lo % 2 ^ n

/-- The same bits as a field. -/
def fieldAt (n w lo : Nat) : BitVec n := BitVec.ofNat n (w / 2 ^ lo)

/-- Words of the C strand, opcode 0x01: ADD, SUB, AND, OR, XOR, SLL, SRL, SRA, SLT, SLTU, MUL, MULH, MULHU, DIV, DIVU, REM, REMU, MIN, MAX, CLZ, CTZ, POPC. -/
def decodeC01 (w : Nat) : Option Instr :=
  if bitsAt w 0 8 = 0 then some (.add (fieldAt 6 w 20) (fieldAt 6 w 14) (fieldAt 6 w 8))
  else if bitsAt w 0 8 = 1 then some (.sub (fieldAt 6 w 20) (fieldAt 6 w 14) (fieldAt 6 w 8))
  else if bitsAt w 0 8 = 2 then some (.and (fieldAt 6 w 20) (fieldAt 6 w 14) (fieldAt 6 w 8))
  else if bitsAt w 0 8 = 3 then some (.or (fieldAt 6 w 20) (fieldAt 6 w 14) (fieldAt 6 w 8))
  else if bitsAt w 0 8 = 4 then some (.xor (fieldAt 6 w 20) (fieldAt 6 w 14) (fieldAt 6 w 8))
  else if bitsAt w 0 8 = 5 then some (.sll (fieldAt 6 w 20) (fieldAt 6 w 14) (fieldAt 6 w 8))
  else if bitsAt w 0 8 = 6 then some (.srl (fieldAt 6 w 20) (fieldAt 6 w 14) (fieldAt 6 w 8))
  else if bitsAt w 0 8 = 7 then some (.sra (fieldAt 6 w 20) (fieldAt 6 w 14) (fieldAt 6 w 8))
  else if bitsAt w 0 8 = 8 then some (.slt (fieldAt 6 w 20) (fieldAt 6 w 14) (fieldAt 6 w 8))
  else if bitsAt w 0 8 = 9 then some (.sltu (fieldAt 6 w 20) (fieldAt 6 w 14) (fieldAt 6 w 8))
  else if bitsAt w 0 8 = 16 then some (.mul (fieldAt 6 w 20) (fieldAt 6 w 14) (fieldAt 6 w 8))
  else if bitsAt w 0 8 = 17 then some (.mulh (fieldAt 6 w 20) (fieldAt 6 w 14) (fieldAt 6 w 8))
  else if bitsAt w 0 8 = 18 then some (.mulhu (fieldAt 6 w 20) (fieldAt 6 w 14) (fieldAt 6 w 8))
  else if bitsAt w 0 8 = 19 then some (.div (fieldAt 6 w 20) (fieldAt 6 w 14) (fieldAt 6 w 8))
  else if bitsAt w 0 8 = 20 then some (.divu (fieldAt 6 w 20) (fieldAt 6 w 14) (fieldAt 6 w 8))
  else if bitsAt w 0 8 = 21 then some (.rem (fieldAt 6 w 20) (fieldAt 6 w 14) (fieldAt 6 w 8))
  else if bitsAt w 0 8 = 22 then some (.remu (fieldAt 6 w 20) (fieldAt 6 w 14) (fieldAt 6 w 8))
  else if bitsAt w 0 8 = 24 then some (.min (fieldAt 6 w 20) (fieldAt 6 w 14) (fieldAt 6 w 8))
  else if bitsAt w 0 8 = 25 then some (.max (fieldAt 6 w 20) (fieldAt 6 w 14) (fieldAt 6 w 8))
  else if bitsAt w 0 14 = 26 then some (.clz (fieldAt 6 w 20) (fieldAt 6 w 14))
  else if bitsAt w 0 14 = 27 then some (.ctz (fieldAt 6 w 20) (fieldAt 6 w 14))
  else if bitsAt w 0 14 = 28 then some (.popc (fieldAt 6 w 20) (fieldAt 6 w 14))
  else none

/-- Words of the C strand, opcode 0x07: SLLI, SRLI, SRAI. -/
def decodeC07 (w : Nat) : Option Instr :=
  if bitsAt w 6 8 = 0 then some (.slli (fieldAt 6 w 20) (fieldAt 6 w 14) (fieldAt 6 w 0))
  else if bitsAt w 6 8 = 64 then some (.srli (fieldAt 6 w 20) (fieldAt 6 w 14) (fieldAt 6 w 0))
  else if bitsAt w 6 8 = 128 then some (.srai (fieldAt 6 w 20) (fieldAt 6 w 14) (fieldAt 6 w 0))
  else none

/-- Words of the C strand, opcode 0x15: AMO_FADD, AMO_ADD, AMO_AND, AMO_OR, AMO_XOR, AMO_MIN, AMO_MAX, AMO_SWAP, AMO_CAS. -/
def decodeC15 (w : Nat) : Option Instr :=
  if bitsAt w 0 3 = 7 then some (.amoFadd (fieldAt 6 w 20) (fieldAt 6 w 14) (fieldAt 6 w 8) (fieldAt 3 w 5) (fieldAt 2 w 3))
  else if bitsAt w 5 3 = 0 then some (.amoAdd (fieldAt 6 w 20) (fieldAt 6 w 14) (fieldAt 6 w 8) (fieldAt 2 w 3) (fieldAt 3 w 0))
  else if bitsAt w 5 3 = 1 then some (.amoAnd (fieldAt 6 w 20) (fieldAt 6 w 14) (fieldAt 6 w 8) (fieldAt 2 w 3) (fieldAt 3 w 0))
  else if bitsAt w 5 3 = 2 then some (.amoOr (fieldAt 6 w 20) (fieldAt 6 w 14) (fieldAt 6 w 8) (fieldAt 2 w 3) (fieldAt 3 w 0))
  else if bitsAt w 5 3 = 3 then some (.amoXor (fieldAt 6 w 20) (fieldAt 6 w 14) (fieldAt 6 w 8) (fieldAt 2 w 3) (fieldAt 3 w 0))
  else if bitsAt w 5 3 = 4 then some (.amoMin (fieldAt 6 w 20) (fieldAt 6 w 14) (fieldAt 6 w 8) (fieldAt 2 w 3) (fieldAt 3 w 0))
  else if bitsAt w 5 3 = 5 then some (.amoMax (fieldAt 6 w 20) (fieldAt 6 w 14) (fieldAt 6 w 8) (fieldAt 2 w 3) (fieldAt 3 w 0))
  else if bitsAt w 5 3 = 6 then some (.amoSwap (fieldAt 6 w 20) (fieldAt 6 w 14) (fieldAt 6 w 8) (fieldAt 2 w 3) (fieldAt 3 w 0))
  else if bitsAt w 5 3 = 7 then some (.amoCas (fieldAt 6 w 20) (fieldAt 6 w 14) (fieldAt 6 w 8) (fieldAt 2 w 3) (fieldAt 3 w 0))
  else none

/-- Words of the C strand, opcode 0x17: CSRR, CSRW, CSRS. -/
def decodeC17 (w : Nat) : Option Instr :=
  if bitsAt w 12 8 = 0 then some (.csrr (fieldAt 6 w 20) (fieldAt 12 w 0))
  else if bitsAt w 12 2 = 1 ∧ bitsAt w 20 6 = 0 then some (.csrw (fieldAt 6 w 14) (fieldAt 12 w 0))
  else if bitsAt w 12 2 = 2 ∧ bitsAt w 20 6 = 0 then some (.csrs (fieldAt 6 w 14) (fieldAt 12 w 0))
  else none

/-- Words of the C strand, opcode 0x18: SVC, TRET, WFI, BRK, SNAP. -/
def decodeC18 (w : Nat) : Option Instr :=
  if bitsAt w 0 6 = 1 ∧ bitsAt w 14 12 = 0 then some (.svc (fieldAt 8 w 6))
  else if bitsAt w 0 26 = 2 then some (.tret)
  else if bitsAt w 0 26 = 3 then some (.wfi)
  else if bitsAt w 0 6 = 4 ∧ bitsAt w 14 12 = 0 then some (.brk (fieldAt 8 w 6))
  else if bitsAt w 0 26 = 5 then some (.snap)
  else none

/-- Words of the C strand, opcode 0x19: TCP, CHAN_GO, CHAN_STAT, CHAN_ABORT, LREC_FLUSH. -/
def decodeC19 (w : Nat) : Option Instr :=
  if bitsAt w 0 14 = 1 then some (.tcp (fieldAt 6 w 20) (fieldAt 6 w 14))
  else if bitsAt w 0 6 = 2 ∧ bitsAt w 9 5 = 0 ∧ bitsAt w 20 6 = 0 then some (.chanGo (fieldAt 6 w 14) (fieldAt 3 w 6))
  else if bitsAt w 0 6 = 3 ∧ bitsAt w 9 11 = 0 then some (.chanStat (fieldAt 6 w 20) (fieldAt 3 w 6))
  else if bitsAt w 0 6 = 4 ∧ bitsAt w 9 17 = 0 then some (.chanAbort (fieldAt 3 w 6))
  else if bitsAt w 0 14 = 5 ∧ bitsAt w 20 6 = 0 then some (.lrecFlush (fieldAt 6 w 14))
  else none

/-- Words of the C strand, opcode 0x1A: SEM_ACQ, SEM_REL, SEM_TRY, SEM_RD. -/
def decodeC1A (w : Nat) : Option Instr :=
  if bitsAt w 0 6 = 1 ∧ bitsAt w 13 1 = 0 ∧ bitsAt w 20 6 = 0 then some (.semAcq (fieldAt 6 w 14) (fieldAt 1 w 12) (fieldAt 6 w 6))
  else if bitsAt w 0 6 = 2 ∧ bitsAt w 13 1 = 0 ∧ bitsAt w 20 6 = 0 then some (.semRel (fieldAt 6 w 14) (fieldAt 1 w 12) (fieldAt 6 w 6))
  else if bitsAt w 0 6 = 3 ∧ bitsAt w 13 1 = 0 then some (.semTry (fieldAt 6 w 20) (fieldAt 6 w 14) (fieldAt 1 w 12) (fieldAt 6 w 6))
  else if bitsAt w 0 6 = 4 ∧ bitsAt w 13 7 = 0 then some (.semRd (fieldAt 6 w 20) (fieldAt 1 w 12) (fieldAt 6 w 6))
  else none

/-- Words of the C strand, opcode 0x1B: TOK_GIVE, TOK_WAIT. -/
def decodeC1B (w : Nat) : Option Instr :=
  if bitsAt w 0 6 = 1 ∧ bitsAt w 8 18 = 0 then some (.tokGive (fieldAt 2 w 6))
  else if bitsAt w 0 8 = 2 ∧ bitsAt w 10 16 = 0 then some (.tokWait (fieldAt 2 w 8))
  else none

/-- Words of the C strand, opcode 0x1C: FORK, RDV, RDV_END. -/
def decodeC1C (w : Nat) : Option Instr :=
  if bitsAt w 0 14 = 1 ∧ bitsAt w 20 6 = 0 then some (.fork (fieldAt 6 w 14))
  else if bitsAt w 0 6 = 2 ∧ bitsAt w 14 12 = 0 then some (.rdv (fieldAt 8 w 6))
  else if bitsAt w 0 6 = 3 ∧ bitsAt w 14 12 = 0 then some (.rdvEnd (fieldAt 8 w 6))
  else none

/-- Words of the C strand, opcode 0x1D: DOM_SET_SPLIT, DOM_SET_JOIN, FLAG_ADD, FLAG_WAIT, PHASE, WAITT. -/
def decodeC1D (w : Nat) : Option Instr :=
  if bitsAt w 0 26 = 1 then some (.domSetSplit)
  else if bitsAt w 0 26 = 65 then some (.domSetJoin)
  else if bitsAt w 0 6 = 2 ∧ bitsAt w 20 6 = 0 then some (.flagAdd (fieldAt 6 w 14) (fieldAt 8 w 6))
  else if bitsAt w 0 6 = 3 ∧ bitsAt w 20 6 = 0 then some (.flagWait (fieldAt 6 w 14) (fieldAt 8 w 6))
  else if bitsAt w 0 26 = 4 then some (.phase)
  else if bitsAt w 0 14 = 5 ∧ bitsAt w 20 6 = 0 then some (.waitt (fieldAt 6 w 14))
  else none

/-- Words of the C strand, opcode 0x1E: LAUNCH, EST. -/
def decodeC1E (w : Nat) : Option Instr :=
  if bitsAt w 0 14 = 1 then some (.launch (fieldAt 6 w 20) (fieldAt 6 w 14))
  else if bitsAt w 0 14 = 2 ∧ bitsAt w 20 6 = 0 then some (.est (fieldAt 6 w 14))
  else none

/-- Words of the C strand, opcode 0x1F: SRKEY, LBL_RD_REG, LBL_RD_MEM. -/
def decodeC1F (w : Nat) : Option Instr :=
  if bitsAt w 0 6 = 1 ∧ bitsAt w 12 2 = 0 ∧ bitsAt w 20 6 = 0 then some (.srkey (fieldAt 6 w 14) (fieldAt 6 w 6))
  else if bitsAt w 0 14 = 2 then some (.lblRdReg (fieldAt 6 w 20) (fieldAt 6 w 14))
  else if bitsAt w 0 14 = 66 then some (.lblRdMem (fieldAt 6 w 20) (fieldAt 6 w 14))
  else none

/-- Words of the C strand, opcode 0x20: SPLICE, REP_GO, REP_POLL. -/
def decodeC20 (w : Nat) : Option Instr :=
  if bitsAt w 0 6 = 1 ∧ bitsAt w 12 2 = 0 then some (.splice (fieldAt 6 w 20) (fieldAt 6 w 14) (fieldAt 6 w 6))
  else if bitsAt w 0 14 = 2 then some (.repGo (fieldAt 6 w 20) (fieldAt 6 w 14))
  else if bitsAt w 0 14 = 3 then some (.repPoll (fieldAt 6 w 20) (fieldAt 6 w 14))
  else none

/-- Words of the C strand, opcode 0x21: COLL_GO, COLL_POLL. -/
def decodeC21 (w : Nat) : Option Instr :=
  if bitsAt w 0 14 = 1 then some (.collGo (fieldAt 6 w 20) (fieldAt 6 w 14))
  else if bitsAt w 0 14 = 2 then some (.collPoll (fieldAt 6 w 20) (fieldAt 6 w 14))
  else none

/-- Words of the C strand, opcode 0x22: SS_SPILL, SS_FILL. -/
def decodeC22 (w : Nat) : Option Instr :=
  if bitsAt w 0 6 = 1 ∧ bitsAt w 10 4 = 0 ∧ bitsAt w 20 6 = 0 then some (.ssSpill (fieldAt 6 w 14) (fieldAt 4 w 6))
  else if bitsAt w 0 6 = 2 ∧ bitsAt w 10 4 = 0 ∧ bitsAt w 20 6 = 0 then some (.ssFill (fieldAt 6 w 14) (fieldAt 4 w 6))
  else none

/-- Words of the C strand (R63 to R76). -/
def decodeC (w : Nat) : Option Instr :=
  match bitsAt w 26 6 with
  | 0x01 => decodeC01 w
  | 0x02 => some (.addi (fieldAt 6 w 20) (fieldAt 6 w 14) (fieldAt 14 w 0))
  | 0x03 => some (.andi (fieldAt 6 w 20) (fieldAt 6 w 14) (fieldAt 14 w 0))
  | 0x04 => some (.ori (fieldAt 6 w 20) (fieldAt 6 w 14) (fieldAt 14 w 0))
  | 0x05 => some (.xori (fieldAt 6 w 20) (fieldAt 6 w 14) (fieldAt 14 w 0))
  | 0x06 => some (.slti (fieldAt 6 w 20) (fieldAt 6 w 14) (fieldAt 14 w 0))
  | 0x07 => decodeC07 w
  | 0x08 => some (.lih (fieldAt 6 w 20) (fieldAt 20 w 0))
  | 0x09 => some (.adpc (fieldAt 6 w 20) (fieldAt 20 w 0))
  | 0x0A => some (.ld (fieldAt 6 w 20) (fieldAt 6 w 14) (fieldAt 3 w 11) (fieldAt 11 w 0))
  | 0x0B => some (.st (fieldAt 6 w 20) (fieldAt 6 w 14) (fieldAt 3 w 11) (fieldAt 11 w 0))
  | 0x0C => some (.beq (fieldAt 6 w 20) (fieldAt 6 w 14) (fieldAt 2 w 12) (fieldAt 12 w 0))
  | 0x0D => some (.bne (fieldAt 6 w 20) (fieldAt 6 w 14) (fieldAt 2 w 12) (fieldAt 12 w 0))
  | 0x0E => some (.blt (fieldAt 6 w 20) (fieldAt 6 w 14) (fieldAt 2 w 12) (fieldAt 12 w 0))
  | 0x0F => some (.bge (fieldAt 6 w 20) (fieldAt 6 w 14) (fieldAt 2 w 12) (fieldAt 12 w 0))
  | 0x10 => some (.bltu (fieldAt 6 w 20) (fieldAt 6 w 14) (fieldAt 2 w 12) (fieldAt 12 w 0))
  | 0x11 => some (.bgeu (fieldAt 6 w 20) (fieldAt 6 w 14) (fieldAt 2 w 12) (fieldAt 12 w 0))
  | 0x12 => if bitsAt w 20 6 = 0 then some (.j (fieldAt 20 w 0)) else none
  | 0x13 => some (.jal (fieldAt 6 w 20) (fieldAt 20 w 0))
  | 0x14 => some (.jalr (fieldAt 6 w 20) (fieldAt 6 w 14) (fieldAt 14 w 0))
  | 0x15 => decodeC15 w
  | 0x16 => if bitsAt w 5 21 = 0 then some (.fence (fieldAt 2 w 3) (fieldAt 3 w 0)) else none
  | 0x17 => decodeC17 w
  | 0x18 => decodeC18 w
  | 0x19 => decodeC19 w
  | 0x1A => decodeC1A w
  | 0x1B => decodeC1B w
  | 0x1C => decodeC1C w
  | 0x1D => decodeC1D w
  | 0x1E => decodeC1E w
  | 0x1F => decodeC1F w
  | 0x20 => decodeC20 w
  | 0x21 => decodeC21 w
  | 0x22 => decodeC22 w
  | _ => none

/-- Words shared by the L, X and S strands, opcode 0x01: LP_SET_IMM, LP_SET_REG. -/
def decodeE01 (w : Nat) : Option Instr :=
  if bitsAt w 17 3 = 0 then some (.lpSetImm (fieldAt 3 w 29) (fieldAt 3 w 26) (fieldAt 2 w 15) (fieldAt 15 w 0))
  else if bitsAt w 4 11 = 0 ∧ bitsAt w 17 3 = 4 then some (.lpSetReg (fieldAt 3 w 29) (fieldAt 3 w 26) (fieldAt 2 w 15) (fieldAt 4 w 0))
  else none

/-- Words shared by the L, X and S strands, opcode 0x07: E_RDV, E_RDV_END. -/
def decodeE07 (w : Nat) : Option Instr :=
  if bitsAt w 8 12 = 0 then some (.eRdv (fieldAt 3 w 29) (fieldAt 3 w 26) (fieldAt 8 w 0))
  else if bitsAt w 8 12 = 128 then some (.eRdvEnd (fieldAt 3 w 29) (fieldAt 3 w 26) (fieldAt 8 w 0))
  else none

/-- Words shared by the L, X and S strands (R63 to R76). -/
def decodeE (w : Nat) : Option Instr :=
  match bitsAt w 20 6 with
  | 0x01 => decodeE01 w
  | 0x02 => some (.lpEnd (fieldAt 3 w 29) (fieldAt 3 w 26) (fieldAt 2 w 18) (fieldAt 18 w 0))
  | 0x03 => if bitsAt w 18 2 = 0 then some (.eJ (fieldAt 3 w 29) (fieldAt 3 w 26) (fieldAt 18 w 0)) else none
  | 0x04 => if bitsAt w 19 1 = 0 then some (.eBnz (fieldAt 3 w 29) (fieldAt 3 w 26) (fieldAt 4 w 15) (fieldAt 15 w 0)) else none
  | 0x05 => if bitsAt w 19 1 = 0 then some (.nLi (fieldAt 3 w 29) (fieldAt 3 w 26) (fieldAt 4 w 15) (fieldAt 15 w 0)) else none
  | 0x06 => if bitsAt w 14 1 = 0 ∧ bitsAt w 19 1 = 0 then some (.nAdd (fieldAt 3 w 29) (fieldAt 3 w 26) (fieldAt 4 w 15) (fieldAt 4 w 10) (fieldAt 10 w 0)) else none
  | 0x07 => decodeE07 w
  | 0x08 => if bitsAt w 0 20 = 0 then some (.eNop (fieldAt 3 w 29) (fieldAt 3 w 26)) else none
  | _ => none

/-- Words of the L strand, opcode 0x1B: NEST_SET_IMM, NEST_SET_REG. -/
def decodeL1B (w : Nat) : Option Instr :=
  if bitsAt w 14 1 = 0 then some (.nestSetImm (fieldAt 3 w 29) (fieldAt 3 w 26) (fieldAt 3 w 17) (fieldAt 2 w 15) (fieldAt 14 w 0))
  else if bitsAt w 4 11 = 1024 then some (.nestSetReg (fieldAt 3 w 29) (fieldAt 3 w 26) (fieldAt 3 w 17) (fieldAt 2 w 15) (fieldAt 4 w 0))
  else none

/-- Words of the L strand (R63 to R76). -/
def decodeL (w : Nat) : Option Instr :=
  match bitsAt w 20 6 with
  | 0x10 => if bitsAt w 14 1 = 0 then some (.sdBase (fieldAt 3 w 29) (fieldAt 3 w 26) (fieldAt 5 w 15) (fieldAt 4 w 10) (fieldAt 10 w 0)) else none
  | 0x11 => if bitsAt w 14 1 = 0 then some (.sdFmt (fieldAt 3 w 29) (fieldAt 3 w 26) (fieldAt 5 w 15) (fieldAt 4 w 10) (fieldAt 10 w 0)) else none
  | 0x12 => if bitsAt w 14 1 = 0 then some (.sdGeom (fieldAt 3 w 29) (fieldAt 3 w 26) (fieldAt 5 w 15) (fieldAt 4 w 10) (fieldAt 10 w 0)) else none
  | 0x13 => if bitsAt w 14 1 = 0 then some (.sdScale (fieldAt 3 w 29) (fieldAt 3 w 26) (fieldAt 5 w 15) (fieldAt 4 w 10) (fieldAt 10 w 0)) else none
  | 0x14 => if bitsAt w 14 1 = 0 ∧ bitsAt w 19 1 = 0 then some (.rgCfg (fieldAt 3 w 29) (fieldAt 3 w 26) (fieldAt 4 w 15) (fieldAt 4 w 10) (fieldAt 10 w 0)) else none
  | 0x15 => if bitsAt w 0 15 = 0 ∧ bitsAt w 19 1 = 0 then some (.rgRst (fieldAt 3 w 29) (fieldAt 3 w 26) (fieldAt 4 w 15)) else none
  | 0x16 => if bitsAt w 1 9 = 0 ∧ bitsAt w 19 1 = 0 then some (.ldTile (fieldAt 3 w 29) (fieldAt 3 w 26) (fieldAt 4 w 15) (fieldAt 5 w 10) (fieldAt 1 w 0)) else none
  | 0x17 => if bitsAt w 1 9 = 0 then some (.ldStrd (fieldAt 3 w 29) (fieldAt 3 w 26) (fieldAt 5 w 15) (fieldAt 5 w 10) (fieldAt 1 w 0)) else none
  | 0x18 => if bitsAt w 1 4 = 0 then some (.ldGath (fieldAt 3 w 29) (fieldAt 3 w 26) (fieldAt 5 w 15) (fieldAt 5 w 10) (fieldAt 5 w 5) (fieldAt 1 w 0)) else none
  | 0x19 => if bitsAt w 1 9 = 0 then some (.ldVt (fieldAt 3 w 29) (fieldAt 3 w 26) (fieldAt 5 w 15) (fieldAt 5 w 10) (fieldAt 1 w 0)) else none
  | 0x1A => if bitsAt w 1 9 = 0 then some (.ldBcst (fieldAt 3 w 29) (fieldAt 3 w 26) (fieldAt 5 w 15) (fieldAt 5 w 10) (fieldAt 1 w 0)) else none
  | 0x1B => decodeL1B w
  | 0x1C => if bitsAt w 0 20 = 0 then some (.nestSwap (fieldAt 3 w 29) (fieldAt 3 w 26)) else none
  | _ => none

/-- Words of the X strand, opcode 0x14: AC_LD, AC_LD_ADD. -/
def decodeX14 (w : Nat) : Option Instr :=
  if bitsAt w 0 5 = 0 ∧ bitsAt w 9 1 = 0 ∧ bitsAt w 17 3 = 0 then some (.acLd (fieldAt 3 w 29) (fieldAt 3 w 26) (fieldAt 2 w 15) (fieldAt 5 w 10) (fieldAt 4 w 5))
  else if bitsAt w 0 5 = 1 ∧ bitsAt w 9 1 = 0 ∧ bitsAt w 17 3 = 0 then some (.acLdAdd (fieldAt 3 w 29) (fieldAt 3 w 26) (fieldAt 2 w 15) (fieldAt 5 w 10) (fieldAt 4 w 5))
  else none

/-- Words of the X strand, opcode 0x28: VMOV, VMOV_MT, VMOV_TM, VMOV_MM. -/
def decodeX28 (w : Nat) : Option Instr :=
  if bitsAt w 0 3 = 0 ∧ bitsAt w 5 5 = 0 then some (.vmov (fieldAt 3 w 29) (fieldAt 3 w 26) (fieldAt 5 w 15) (fieldAt 5 w 10) (fieldAt 2 w 3))
  else if bitsAt w 0 3 = 1 ∧ bitsAt w 5 5 = 0 ∧ bitsAt w 13 2 = 0 then some (.vmovMt (fieldAt 3 w 29) (fieldAt 3 w 26) (fieldAt 5 w 15) (fieldAt 3 w 10) (fieldAt 2 w 3))
  else if bitsAt w 0 3 = 2 ∧ bitsAt w 5 5 = 0 ∧ bitsAt w 18 2 = 0 then some (.vmovTm (fieldAt 3 w 29) (fieldAt 3 w 26) (fieldAt 3 w 15) (fieldAt 5 w 10) (fieldAt 2 w 3))
  else if bitsAt w 0 3 = 3 ∧ bitsAt w 5 5 = 0 ∧ bitsAt w 13 2 = 0 ∧ bitsAt w 18 2 = 0 then some (.vmovMm (fieldAt 3 w 29) (fieldAt 3 w 26) (fieldAt 3 w 15) (fieldAt 3 w 10) (fieldAt 2 w 3))
  else none

/-- Words of the X strand, opcode 0x29: VLI, VLI_F. -/
def decodeX29 (w : Nat) : Option Instr :=
  if bitsAt w 14 1 = 0 then some (.vli (fieldAt 3 w 29) (fieldAt 3 w 26) (fieldAt 5 w 15) (fieldAt 14 w 0))
  else if bitsAt w 14 1 = 1 then some (.vliF (fieldAt 3 w 29) (fieldAt 3 w 26) (fieldAt 5 w 15) (fieldAt 14 w 0))
  else none

/-- Words of the X strand, opcode 0x2A: VEXP2, VLOG2, VRCP, VRSQRT, VTANH, VSIGM, VSOFTP. -/
def decodeX2A (w : Nat) : Option Instr :=
  if bitsAt w 0 3 = 0 ∧ bitsAt w 5 5 = 0 then some (.vexp2 (fieldAt 3 w 29) (fieldAt 3 w 26) (fieldAt 5 w 15) (fieldAt 5 w 10) (fieldAt 2 w 3))
  else if bitsAt w 0 3 = 1 ∧ bitsAt w 5 5 = 0 then some (.vlog2 (fieldAt 3 w 29) (fieldAt 3 w 26) (fieldAt 5 w 15) (fieldAt 5 w 10) (fieldAt 2 w 3))
  else if bitsAt w 0 3 = 2 ∧ bitsAt w 5 5 = 0 then some (.vrcp (fieldAt 3 w 29) (fieldAt 3 w 26) (fieldAt 5 w 15) (fieldAt 5 w 10) (fieldAt 2 w 3))
  else if bitsAt w 0 3 = 3 ∧ bitsAt w 5 5 = 0 then some (.vrsqrt (fieldAt 3 w 29) (fieldAt 3 w 26) (fieldAt 5 w 15) (fieldAt 5 w 10) (fieldAt 2 w 3))
  else if bitsAt w 0 3 = 4 ∧ bitsAt w 5 5 = 0 then some (.vtanh (fieldAt 3 w 29) (fieldAt 3 w 26) (fieldAt 5 w 15) (fieldAt 5 w 10) (fieldAt 2 w 3))
  else if bitsAt w 0 3 = 5 ∧ bitsAt w 5 5 = 0 then some (.vsigm (fieldAt 3 w 29) (fieldAt 3 w 26) (fieldAt 5 w 15) (fieldAt 5 w 10) (fieldAt 2 w 3))
  else if bitsAt w 0 3 = 6 ∧ bitsAt w 5 5 = 0 then some (.vsoftp (fieldAt 3 w 29) (fieldAt 3 w 26) (fieldAt 5 w 15) (fieldAt 5 w 10) (fieldAt 2 w 3))
  else none

/-- Words of the X strand, opcode 0x36: SCAN_SEG, SCAN_SEG_OFF. -/
def decodeX36 (w : Nat) : Option Instr :=
  if bitsAt w 0 10 = 1 ∧ bitsAt w 13 2 = 0 ∧ bitsAt w 18 2 = 0 then some (.scanSeg (fieldAt 3 w 29) (fieldAt 3 w 26) (fieldAt 3 w 15) (fieldAt 3 w 10))
  else if bitsAt w 0 20 = 0 then some (.scanSegOff (fieldAt 3 w 29) (fieldAt 3 w 26))
  else none

/-- Words of the X strand, opcode 0x37: SCAN_LOC_AGG, SCAN_LOC_OUT, SCAN_LOC_FIN. -/
def decodeX37 (w : Nat) : Option Instr :=
  if bitsAt w 0 10 = 0 ∧ bitsAt w 15 5 = 0 then some (.scanLocAgg (fieldAt 3 w 29) (fieldAt 3 w 26) (fieldAt 5 w 10))
  else if bitsAt w 0 10 = 1 then some (.scanLocOut (fieldAt 3 w 29) (fieldAt 3 w 26) (fieldAt 5 w 15) (fieldAt 5 w 10))
  else if bitsAt w 0 10 = 2 then some (.scanLocFin (fieldAt 3 w 29) (fieldAt 3 w 26) (fieldAt 5 w 15) (fieldAt 5 w 10))
  else none

/-- Words of the X strand, opcode 0x38: SCAN_NET, SCAN_NET_INIT. -/
def decodeX38 (w : Nat) : Option Instr :=
  if bitsAt w 1 19 = 0 then some (.scanNet (fieldAt 3 w 29) (fieldAt 3 w 26) (fieldAt 1 w 0))
  else if bitsAt w 1 14 = 1 ∧ bitsAt w 19 1 = 0 then some (.scanNetInit (fieldAt 3 w 29) (fieldAt 3 w 26) (fieldAt 4 w 15) (fieldAt 1 w 0))
  else none

/-- Words of the X strand, opcode 0x3B: SS_LD, SS_LD_F. -/
def decodeX3B (w : Nat) : Option Instr :=
  if bitsAt w 0 5 = 0 ∧ bitsAt w 8 2 = 0 ∧ bitsAt w 19 1 = 0 then some (.ssLd (fieldAt 3 w 29) (fieldAt 3 w 26) (fieldAt 4 w 15) (fieldAt 5 w 10) (fieldAt 3 w 5))
  else if bitsAt w 0 5 = 1 ∧ bitsAt w 8 2 = 0 ∧ bitsAt w 13 2 = 0 ∧ bitsAt w 19 1 = 0 then some (.ssLdF (fieldAt 3 w 29) (fieldAt 3 w 26) (fieldAt 4 w 15) (fieldAt 3 w 10) (fieldAt 3 w 5))
  else none

/-- Words of the X strand, opcode 0x3C: SS_ST, SS_ST_F. -/
def decodeX3C (w : Nat) : Option Instr :=
  if bitsAt w 0 5 = 0 ∧ bitsAt w 8 2 = 0 ∧ bitsAt w 14 1 = 0 then some (.ssSt (fieldAt 3 w 29) (fieldAt 3 w 26) (fieldAt 5 w 15) (fieldAt 4 w 10) (fieldAt 3 w 5))
  else if bitsAt w 0 5 = 1 ∧ bitsAt w 8 2 = 0 ∧ bitsAt w 14 1 = 0 ∧ bitsAt w 18 2 = 0 then some (.ssStF (fieldAt 3 w 29) (fieldAt 3 w 26) (fieldAt 3 w 15) (fieldAt 4 w 10) (fieldAt 3 w 5))
  else none

/-- Words of the X strand (R63 to R76). -/
def decodeX (w : Nat) : Option Instr :=
  match bitsAt w 20 6 with
  | 0x10 => if bitsAt w 4 1 = 0 ∧ bitsAt w 9 1 = 0 ∧ bitsAt w 14 1 = 0 ∧ bitsAt w 17 3 = 0 then some (.mma (fieldAt 3 w 29) (fieldAt 3 w 26) (fieldAt 2 w 15) (fieldAt 4 w 10) (fieldAt 4 w 5) (fieldAt 4 w 0)) else none
  | 0x11 => if bitsAt w 4 1 = 0 ∧ bitsAt w 9 1 = 0 ∧ bitsAt w 14 1 = 0 ∧ bitsAt w 17 3 = 0 then some (.mmaQ (fieldAt 3 w 29) (fieldAt 3 w 26) (fieldAt 2 w 15) (fieldAt 4 w 10) (fieldAt 4 w 5) (fieldAt 4 w 0)) else none
  | 0x12 => if bitsAt w 0 15 = 0 ∧ bitsAt w 17 3 = 0 then some (.acZero (fieldAt 3 w 29) (fieldAt 3 w 26) (fieldAt 2 w 15)) else none
  | 0x13 => if bitsAt w 0 5 = 0 ∧ bitsAt w 9 1 = 0 ∧ bitsAt w 12 3 = 0 then some (.acMv (fieldAt 3 w 29) (fieldAt 3 w 26) (fieldAt 5 w 15) (fieldAt 2 w 10) (fieldAt 4 w 5)) else none
  | 0x14 => decodeX14 w
  | 0x15 => if bitsAt w 0 20 = 0 then some (.mfence (fieldAt 3 w 29) (fieldAt 3 w 26)) else none
  | 0x18 => some (.vadd (fieldAt 3 w 29) (fieldAt 3 w 26) (fieldAt 5 w 15) (fieldAt 5 w 10) (fieldAt 5 w 5) (fieldAt 2 w 3) (fieldAt 3 w 0))
  | 0x19 => some (.vsub (fieldAt 3 w 29) (fieldAt 3 w 26) (fieldAt 5 w 15) (fieldAt 5 w 10) (fieldAt 5 w 5) (fieldAt 2 w 3) (fieldAt 3 w 0))
  | 0x1A => some (.vmul (fieldAt 3 w 29) (fieldAt 3 w 26) (fieldAt 5 w 15) (fieldAt 5 w 10) (fieldAt 5 w 5) (fieldAt 2 w 3) (fieldAt 3 w 0))
  | 0x1B => some (.vfma (fieldAt 3 w 29) (fieldAt 3 w 26) (fieldAt 5 w 15) (fieldAt 5 w 10) (fieldAt 5 w 5) (fieldAt 2 w 3) (fieldAt 3 w 0))
  | 0x1C => some (.vmax (fieldAt 3 w 29) (fieldAt 3 w 26) (fieldAt 5 w 15) (fieldAt 5 w 10) (fieldAt 5 w 5) (fieldAt 2 w 3) (fieldAt 3 w 0))
  | 0x1D => some (.vmin (fieldAt 3 w 29) (fieldAt 3 w 26) (fieldAt 5 w 15) (fieldAt 5 w 10) (fieldAt 5 w 5) (fieldAt 2 w 3) (fieldAt 3 w 0))
  | 0x1E => if bitsAt w 5 5 = 0 then some (.vabs (fieldAt 3 w 29) (fieldAt 3 w 26) (fieldAt 5 w 15) (fieldAt 5 w 10) (fieldAt 2 w 3) (fieldAt 3 w 0)) else none
  | 0x1F => if bitsAt w 5 5 = 0 then some (.vneg (fieldAt 3 w 29) (fieldAt 3 w 26) (fieldAt 5 w 15) (fieldAt 5 w 10) (fieldAt 2 w 3) (fieldAt 3 w 0)) else none
  | 0x20 => if bitsAt w 0 3 = 0 then some (.vand (fieldAt 3 w 29) (fieldAt 3 w 26) (fieldAt 5 w 15) (fieldAt 5 w 10) (fieldAt 5 w 5) (fieldAt 2 w 3)) else none
  | 0x21 => if bitsAt w 0 3 = 0 then some (.vor (fieldAt 3 w 29) (fieldAt 3 w 26) (fieldAt 5 w 15) (fieldAt 5 w 10) (fieldAt 5 w 5) (fieldAt 2 w 3)) else none
  | 0x22 => if bitsAt w 0 3 = 0 then some (.vxor (fieldAt 3 w 29) (fieldAt 3 w 26) (fieldAt 5 w 15) (fieldAt 5 w 10) (fieldAt 5 w 5) (fieldAt 2 w 3)) else none
  | 0x23 => if bitsAt w 0 3 = 0 then some (.vshl (fieldAt 3 w 29) (fieldAt 3 w 26) (fieldAt 5 w 15) (fieldAt 5 w 10) (fieldAt 5 w 5) (fieldAt 2 w 3)) else none
  | 0x24 => if bitsAt w 1 2 = 0 then some (.vshr (fieldAt 3 w 29) (fieldAt 3 w 26) (fieldAt 5 w 15) (fieldAt 5 w 10) (fieldAt 5 w 5) (fieldAt 2 w 3) (fieldAt 1 w 0)) else none
  | 0x25 => if bitsAt w 18 2 = 0 then some (.vcmp (fieldAt 3 w 29) (fieldAt 3 w 26) (fieldAt 3 w 15) (fieldAt 5 w 10) (fieldAt 5 w 5) (fieldAt 2 w 3) (fieldAt 3 w 0)) else none
  | 0x26 => some (.vsel (fieldAt 3 w 29) (fieldAt 3 w 26) (fieldAt 5 w 15) (fieldAt 5 w 10) (fieldAt 5 w 5) (fieldAt 2 w 3) (fieldAt 3 w 0))
  | 0x27 => some (.vcvt (fieldAt 3 w 29) (fieldAt 3 w 26) (fieldAt 5 w 15) (fieldAt 5 w 10) (fieldAt 1 w 9) (fieldAt 4 w 5) (fieldAt 2 w 3) (fieldAt 3 w 0))
  | 0x28 => decodeX28 w
  | 0x29 => decodeX29 w
  | 0x2A => decodeX2A w
  | 0x2B => if bitsAt w 0 3 = 0 ∧ bitsAt w 9 1 = 0 then some (.vrotr (fieldAt 3 w 29) (fieldAt 3 w 26) (fieldAt 5 w 15) (fieldAt 5 w 10) (fieldAt 4 w 5) (fieldAt 2 w 3)) else none
  | 0x2C => if bitsAt w 0 3 = 0 ∧ bitsAt w 9 1 = 0 then some (.vrotc (fieldAt 3 w 29) (fieldAt 3 w 26) (fieldAt 5 w 15) (fieldAt 5 w 10) (fieldAt 4 w 5) (fieldAt 2 w 3)) else none
  | 0x2D => if bitsAt w 0 3 = 0 ∧ bitsAt w 9 1 = 0 then some (.vbcr (fieldAt 3 w 29) (fieldAt 3 w 26) (fieldAt 5 w 15) (fieldAt 5 w 10) (fieldAt 4 w 5) (fieldAt 2 w 3)) else none
  | 0x2E => if bitsAt w 0 3 = 0 ∧ bitsAt w 9 1 = 0 then some (.vbcc (fieldAt 3 w 29) (fieldAt 3 w 26) (fieldAt 5 w 15) (fieldAt 5 w 10) (fieldAt 4 w 5) (fieldAt 2 w 3)) else none
  | 0x2F => if bitsAt w 5 5 = 0 then some (.vredr (fieldAt 3 w 29) (fieldAt 3 w 26) (fieldAt 5 w 15) (fieldAt 5 w 10) (fieldAt 2 w 3) (fieldAt 3 w 0)) else none
  | 0x30 => if bitsAt w 5 5 = 0 then some (.vredc (fieldAt 3 w 29) (fieldAt 3 w 26) (fieldAt 5 w 15) (fieldAt 5 w 10) (fieldAt 2 w 3) (fieldAt 3 w 0)) else none
  | 0x31 => if bitsAt w 5 5 = 0 then some (.vscanr (fieldAt 3 w 29) (fieldAt 3 w 26) (fieldAt 5 w 15) (fieldAt 5 w 10) (fieldAt 2 w 3) (fieldAt 3 w 0)) else none
  | 0x32 => if bitsAt w 0 3 = 0 then some (.vperm (fieldAt 3 w 29) (fieldAt 3 w 26) (fieldAt 5 w 15) (fieldAt 5 w 10) (fieldAt 5 w 5) (fieldAt 2 w 3)) else none
  | 0x33 => if bitsAt w 0 12 = 0 ∧ bitsAt w 15 2 = 0 then some (.vtr4 (fieldAt 3 w 29) (fieldAt 3 w 26) (fieldAt 3 w 17) (fieldAt 3 w 12)) else none
  | 0x34 => if bitsAt w 13 2 = 0 then some (.vtree (fieldAt 3 w 29) (fieldAt 3 w 26) (fieldAt 5 w 15) (fieldAt 1 w 12) (fieldAt 3 w 9) (fieldAt 3 w 6) (fieldAt 6 w 0)) else none
  | 0x35 => if bitsAt w 0 10 = 0 ∧ bitsAt w 14 1 = 0 then some (.scanCfg (fieldAt 3 w 29) (fieldAt 3 w 26) (fieldAt 5 w 15) (fieldAt 4 w 10)) else none
  | 0x36 => decodeX36 w
  | 0x37 => decodeX37 w
  | 0x38 => decodeX38 w
  | 0x39 => if bitsAt w 0 10 = 0 then some (.scanApp (fieldAt 3 w 29) (fieldAt 3 w 26) (fieldAt 5 w 15) (fieldAt 5 w 10)) else none
  | 0x3A => if bitsAt w 0 5 = 0 ∧ bitsAt w 9 1 = 0 then some (.scanStep (fieldAt 3 w 29) (fieldAt 3 w 26) (fieldAt 5 w 15) (fieldAt 5 w 10) (fieldAt 4 w 5)) else none
  | 0x3B => decodeX3B w
  | 0x3C => decodeX3C w
  | 0x3D => if bitsAt w 0 15 = 0 ∧ bitsAt w 19 1 = 0 then some (.ssZero (fieldAt 3 w 29) (fieldAt 3 w 26) (fieldAt 4 w 15)) else none
  | _ => none

/-- Words of the S strand, opcode 0x10: DR_ACC, DR_ACC_ALL, whose j ≠ 0 is found when it starts (R223). -/
def decodeS10 (w : Nat) : Option Instr :=
  if bitsAt w 1 4 = 0 ∧ bitsAt w 9 1 = 0 ∧ bitsAt w 12 3 = 0 then some (.drAcc (fieldAt 3 w 29) (fieldAt 3 w 26) (fieldAt 5 w 15) (fieldAt 2 w 10) (fieldAt 4 w 5) (fieldAt 1 w 0))
  else if bitsAt w 1 4 = 1 ∧ bitsAt w 9 1 = 0 ∧ bitsAt w 12 3 = 0 then some (.drAccAll (fieldAt 3 w 29) (fieldAt 3 w 26) (fieldAt 5 w 15) ⟨fieldAt 2 w 10, fieldAt 4 w 5⟩ (fieldAt 1 w 0))
  else none

/-- Words of the S strand, opcode 0x14: HIST_RD, HIST_RD_CLR. -/
def decodeS14 (w : Nat) : Option Instr :=
  if bitsAt w 11 4 = 0 ∧ bitsAt w 19 1 = 0 then some (.histRd (fieldAt 3 w 29) (fieldAt 3 w 26) (fieldAt 4 w 15) (fieldAt 5 w 6) (fieldAt 6 w 0))
  else if bitsAt w 11 4 = 0 ∧ bitsAt w 19 1 = 1 then some (.histRdClr (fieldAt 3 w 29) (fieldAt 3 w 26) (fieldAt 4 w 15) (fieldAt 5 w 6) (fieldAt 6 w 0))
  else none

/-- Words of the S strand (R63 to R76). -/
def decodeS (w : Nat) : Option Instr :=
  match bitsAt w 20 6 with
  | 0x10 => decodeS10 w
  | 0x11 => if bitsAt w 2 8 = 0 then some (.drVt (fieldAt 3 w 29) (fieldAt 3 w 26) (fieldAt 5 w 15) (fieldAt 5 w 10) (fieldAt 1 w 1) (fieldAt 1 w 0)) else none
  | 0x12 => if bitsAt w 14 6 = 0 then some (.drMode (fieldAt 3 w 29) (fieldAt 3 w 26) (fieldAt 4 w 10) (fieldAt 10 w 0)) else none
  | 0x13 => if bitsAt w 0 10 = 0 ∧ bitsAt w 14 1 = 0 ∧ bitsAt w 19 1 = 0 then some (.histCfg (fieldAt 3 w 29) (fieldAt 3 w 26) (fieldAt 4 w 15) (fieldAt 4 w 10)) else none
  | 0x14 => decodeS14 w
  | 0x15 => if bitsAt w 0 15 = 0 ∧ bitsAt w 19 1 = 0 then some (.histClr (fieldAt 3 w 29) (fieldAt 3 w 26) (fieldAt 4 w 15)) else none
  | 0x16 => if bitsAt w 1 9 = 0 then some (.stTile (fieldAt 3 w 29) (fieldAt 3 w 26) (fieldAt 5 w 15) (fieldAt 5 w 10) (fieldAt 1 w 0)) else none
  | 0x17 => if bitsAt w 0 10 = 0 ∧ bitsAt w 14 1 = 0 ∧ bitsAt w 19 1 = 0 then some (.stWb (fieldAt 3 w 29) (fieldAt 3 w 26) (fieldAt 4 w 15) (fieldAt 4 w 10)) else none
  | 0x18 => if bitsAt w 0 10 = 0 ∧ bitsAt w 14 1 = 0 ∧ bitsAt w 19 1 = 0 then some (.stInv (fieldAt 3 w 29) (fieldAt 3 w 26) (fieldAt 4 w 15) (fieldAt 4 w 10)) else none
  | 0x19 => if bitsAt w 0 15 = 0 ∧ bitsAt w 19 1 = 0 then some (.tileDone (fieldAt 3 w 29) (fieldAt 3 w 26) (fieldAt 4 w 15)) else none
  | _ => none

/-- The row a strand's table gives a word, before the reserved codes are checked (R59, R73). -/
def decodeRow (st : Strand) (w : Nat) : Option Instr :=
  match st with
  | .C => decodeC w
  | .L => if bitsAt w 20 6 < 16 then decodeE w else decodeL w
  | .X => if bitsAt w 20 6 < 16 then decodeE w else decodeX w
  | .S => if bitsAt w 20 6 < 16 then decodeE w else decodeS w

/-- Decoding of a word by the strand that fetches it (R59, R60). -/
def decode (st : Strand) (w : Word32) : Except Reject Instr :=
  match decodeRow st w.toNat with
  | none => .error (.unassigned w.toNat)
  | some i => if i.wf then .ok i else .error (.illFormed i)

/-- A little-endian word from its four bytes (R4, R59). -/
def wordOfBytes (b0 b1 b2 b3 : Byte) : Word32 :=
  BitVec.ofNat 32 (b0.toNat + 2 ^ 8 * b1.toNat + 2 ^ 16 * b2.toNat + 2 ^ 24 * b3.toNat)

/-- The four bytes of a word, lowest address first (R4). -/
def bytesOfWord (w : Word32) : List Byte :=
  [BitVec.ofNat 8 w.toNat, BitVec.ofNat 8 (w.toNat / 2 ^ 8), BitVec.ofNat 8 (w.toNat / 2 ^ 16),
   BitVec.ofNat 8 (w.toNat / 2 ^ 24)]

/-- Decoding of any bytes: the first four are the word; the rest is returned (R59). -/
def decodeBytes (st : Strand) : List Byte → Except Reject (Instr × List Byte)
  | b0 :: b1 :: b2 :: b3 :: rest => (decode st (wordOfBytes b0 b1 b2 b3)).map (fun i => (i, rest))
  | _ => .error .short

/-- The strand whose table a bare word of the opcode table is read by. The tables of the strands overlap (R59), and a word
of the opcode table comes without its strand: the model takes the first of C, X, L, S that decodes it, the engine tables
only where the major opcode field of the C table does not (log entry 10). -/
def strandOfWord (w : Word32) : Option Strand :=
  if (decode .C w).isOk then some .C
  else if (decode .L w).isOk then some .L
  else if (decode .X w).isOk then some .X
  else if (decode .S w).isOk then some .S
  else none

/-- The instruction the decoder reads from a word given as a number (bits above `nbits` are zero). -/
def decodeTableWord (nbits w : Nat) : Option Instr :=
  let v := BitVec.ofNat 32 (w % 2 ^ nbits)
  match strandOfWord v with
  | none => none
  | some st => (decode st v).toOption

/-! ### The encoder (R61 to R76) -/

/-- A field put at bit `lo` of a word. -/
def put {n : Nat} (x : BitVec n) (lo : Nat) : Nat := x.toNat * 2 ^ lo

set_option maxHeartbeats 2000000 in
/-- The word of an instruction that a strand can fetch; an agent's step has no word and gives 0, which no table decodes (R60). -/
def encodeNat : Instr → Nat
  | .add d a b => 0x04000000 + put d 20 + put a 14 + put b 8
  | .sub d a b => 0x04000001 + put d 20 + put a 14 + put b 8
  | .and d a b => 0x04000002 + put d 20 + put a 14 + put b 8
  | .or d a b => 0x04000003 + put d 20 + put a 14 + put b 8
  | .xor d a b => 0x04000004 + put d 20 + put a 14 + put b 8
  | .sll d a b => 0x04000005 + put d 20 + put a 14 + put b 8
  | .srl d a b => 0x04000006 + put d 20 + put a 14 + put b 8
  | .sra d a b => 0x04000007 + put d 20 + put a 14 + put b 8
  | .slt d a b => 0x04000008 + put d 20 + put a 14 + put b 8
  | .sltu d a b => 0x04000009 + put d 20 + put a 14 + put b 8
  | .mul d a b => 0x04000010 + put d 20 + put a 14 + put b 8
  | .mulh d a b => 0x04000011 + put d 20 + put a 14 + put b 8
  | .mulhu d a b => 0x04000012 + put d 20 + put a 14 + put b 8
  | .div d a b => 0x04000013 + put d 20 + put a 14 + put b 8
  | .divu d a b => 0x04000014 + put d 20 + put a 14 + put b 8
  | .rem d a b => 0x04000015 + put d 20 + put a 14 + put b 8
  | .remu d a b => 0x04000016 + put d 20 + put a 14 + put b 8
  | .min d a b => 0x04000018 + put d 20 + put a 14 + put b 8
  | .max d a b => 0x04000019 + put d 20 + put a 14 + put b 8
  | .clz d a => 0x0400001A + put d 20 + put a 14
  | .ctz d a => 0x0400001B + put d 20 + put a 14
  | .popc d a => 0x0400001C + put d 20 + put a 14
  | .addi d a i => 0x08000000 + put d 20 + put a 14 + put i 0
  | .andi d a i => 0x0C000000 + put d 20 + put a 14 + put i 0
  | .ori d a i => 0x10000000 + put d 20 + put a 14 + put i 0
  | .xori d a i => 0x14000000 + put d 20 + put a 14 + put i 0
  | .slti d a i => 0x18000000 + put d 20 + put a 14 + put i 0
  | .slli d a s => 0x1C000000 + put d 20 + put a 14 + put s 0
  | .srli d a s => 0x1C001000 + put d 20 + put a 14 + put s 0
  | .srai d a s => 0x1C002000 + put d 20 + put a 14 + put s 0
  | .lih d i => 0x20000000 + put d 20 + put i 0
  | .adpc d i => 0x24000000 + put d 20 + put i 0
  | .ld d b w o => 0x28000000 + put d 20 + put b 14 + put w 11 + put o 0
  | .st s b w o => 0x2C000000 + put s 20 + put b 14 + put w 11 + put o 0
  | .beq a b n o => 0x30000000 + put a 20 + put b 14 + put n 12 + put o 0
  | .bne a b n o => 0x34000000 + put a 20 + put b 14 + put n 12 + put o 0
  | .blt a b n o => 0x38000000 + put a 20 + put b 14 + put n 12 + put o 0
  | .bge a b n o => 0x3C000000 + put a 20 + put b 14 + put n 12 + put o 0
  | .bltu a b n o => 0x40000000 + put a 20 + put b 14 + put n 12 + put o 0
  | .bgeu a b n o => 0x44000000 + put a 20 + put b 14 + put n 12 + put o 0
  | .j o => 0x48000000 + put o 0
  | .jal d o => 0x4C000000 + put d 20 + put o 0
  | .jalr d a i => 0x50000000 + put d 20 + put a 14 + put i 0
  | .amoAdd d a b r s => 0x54000000 + put d 20 + put a 14 + put b 8 + put r 3 + put s 0
  | .amoAnd d a b r s => 0x54000020 + put d 20 + put a 14 + put b 8 + put r 3 + put s 0
  | .amoOr d a b r s => 0x54000040 + put d 20 + put a 14 + put b 8 + put r 3 + put s 0
  | .amoXor d a b r s => 0x54000060 + put d 20 + put a 14 + put b 8 + put r 3 + put s 0
  | .amoMin d a b r s => 0x54000080 + put d 20 + put a 14 + put b 8 + put r 3 + put s 0
  | .amoMax d a b r s => 0x540000A0 + put d 20 + put a 14 + put b 8 + put r 3 + put s 0
  | .amoSwap d a b r s => 0x540000C0 + put d 20 + put a 14 + put b 8 + put r 3 + put s 0
  | .amoCas d a b r s => 0x540000E0 + put d 20 + put a 14 + put b 8 + put r 3 + put s 0
  | .amoFadd d a b s r => 0x54000007 + put d 20 + put a 14 + put b 8 + put s 5 + put r 3
  | .fence r s => 0x58000000 + put r 3 + put s 0
  | .csrr d c => 0x5C000000 + put d 20 + put c 0
  | .csrw a c => 0x5C001000 + put a 14 + put c 0
  | .csrs a c => 0x5C002000 + put a 14 + put c 0
  | .svc k => 0x60000001 + put k 6
  | .tret => 0x60000002
  | .wfi => 0x60000003
  | .brk k => 0x60000004 + put k 6
  | .snap => 0x60000005
  | .tcp d a => 0x64000001 + put d 20 + put a 14
  | .chanGo a c => 0x64000002 + put a 14 + put c 6
  | .chanStat d c => 0x64000003 + put d 20 + put c 6
  | .chanAbort c => 0x64000004 + put c 6
  | .lrecFlush a => 0x64000005 + put a 14
  | .semAcq a p n => 0x68000001 + put a 14 + put p 12 + put n 6
  | .semRel a p n => 0x68000002 + put a 14 + put p 12 + put n 6
  | .semTry d a p n => 0x68000003 + put d 20 + put a 14 + put p 12 + put n 6
  | .semRd d p n => 0x68000004 + put d 20 + put p 12 + put n 6
  | .tokGive q => 0x6C000001 + put q 6
  | .tokWait q => 0x6C000002 + put q 8
  | .fork a => 0x70000001 + put a 14
  | .rdv k => 0x70000002 + put k 6
  | .rdvEnd k => 0x70000003 + put k 6
  | .domSetSplit => 0x74000001
  | .domSetJoin => 0x74000041
  | .flagAdd a n => 0x74000002 + put a 14 + put n 6
  | .flagWait a n => 0x74000003 + put a 14 + put n 6
  | .phase => 0x74000004
  | .waitt a => 0x74000005 + put a 14
  | .launch d a => 0x78000001 + put d 20 + put a 14
  | .est a => 0x78000002 + put a 14
  | .srkey a b => 0x7C000001 + put a 14 + put b 6
  | .lblRdReg d a => 0x7C000002 + put d 20 + put a 14
  | .lblRdMem d a => 0x7C000042 + put d 20 + put a 14
  | .splice d a b => 0x80000001 + put d 20 + put a 14 + put b 6
  | .repGo d a => 0x80000002 + put d 20 + put a 14
  | .repPoll d a => 0x80000003 + put d 20 + put a 14
  | .collGo d a => 0x84000001 + put d 20 + put a 14
  | .collPoll d a => 0x84000002 + put d 20 + put a 14
  | .ssSpill a n => 0x88000001 + put a 14 + put n 6
  | .ssFill a n => 0x88000002 + put a 14 + put n 6
  | .lpSetImm w g k i => 0x00100000 + put w 29 + put g 26 + put k 15 + put i 0
  | .lpSetReg w g k j => 0x00180000 + put w 29 + put g 26 + put k 15 + put j 0
  | .lpEnd w g k o => 0x00200000 + put w 29 + put g 26 + put k 18 + put o 0
  | .eJ w g o => 0x00300000 + put w 29 + put g 26 + put o 0
  | .eBnz w g j o => 0x00400000 + put w 29 + put g 26 + put j 15 + put o 0
  | .nLi w g j i => 0x00500000 + put w 29 + put g 26 + put j 15 + put i 0
  | .nAdd w g d a i => 0x00600000 + put w 29 + put g 26 + put d 15 + put a 10 + put i 0
  | .eRdv w g k => 0x00700000 + put w 29 + put g 26 + put k 0
  | .eRdvEnd w g k => 0x00708000 + put w 29 + put g 26 + put k 0
  | .eNop w g => 0x00800000 + put w 29 + put g 26
  | .sdBase w g k a o => 0x01000000 + put w 29 + put g 26 + put k 15 + put a 10 + put o 0
  | .sdFmt w g k a o => 0x01100000 + put w 29 + put g 26 + put k 15 + put a 10 + put o 0
  | .sdGeom w g k a o => 0x01200000 + put w 29 + put g 26 + put k 15 + put a 10 + put o 0
  | .sdScale w g k a o => 0x01300000 + put w 29 + put g 26 + put k 15 + put a 10 + put o 0
  | .rgCfg w g r a o => 0x01400000 + put w 29 + put g 26 + put r 15 + put a 10 + put o 0
  | .rgRst w g r => 0x01500000 + put w 29 + put g 26 + put r 15
  | .ldTile w g r k h => 0x01600000 + put w 29 + put g 26 + put r 15 + put k 10 + put h 0
  | .ldStrd w g d k h => 0x01700000 + put w 29 + put g 26 + put d 15 + put k 10 + put h 0
  | .ldGath w g d k i h => 0x01800000 + put w 29 + put g 26 + put d 15 + put k 10 + put i 5 + put h 0
  | .ldVt w g d k h => 0x01900000 + put w 29 + put g 26 + put d 15 + put k 10 + put h 0
  | .ldBcst w g d k h => 0x01A00000 + put w 29 + put g 26 + put d 15 + put k 10 + put h 0
  | .nestSetImm w g l f i => 0x01B00000 + put w 29 + put g 26 + put l 17 + put f 15 + put i 0
  | .nestSetReg w g l f n => 0x01B04000 + put w 29 + put g 26 + put l 17 + put f 15 + put n 0
  | .nestSwap w g => 0x01C00000 + put w 29 + put g 26
  | .mma w g d a b s => 0x01000000 + put w 29 + put g 26 + put d 15 + put a 10 + put b 5 + put s 0
  | .mmaQ w g d a b s => 0x01100000 + put w 29 + put g 26 + put d 15 + put a 10 + put b 5 + put s 0
  | .acZero w g d => 0x01200000 + put w 29 + put g 26 + put d 15
  | .acMv w g d a j => 0x01300000 + put w 29 + put g 26 + put d 15 + put a 10 + put j 5
  | .acLd w g d a j => 0x01400000 + put w 29 + put g 26 + put d 15 + put a 10 + put j 5
  | .acLdAdd w g d a j => 0x01400001 + put w 29 + put g 26 + put d 15 + put a 10 + put j 5
  | .mfence w g => 0x01500000 + put w 29 + put g 26
  | .vadd w g d a b p t => 0x01800000 + put w 29 + put g 26 + put d 15 + put a 10 + put b 5 + put p 3 + put t 0
  | .vsub w g d a b p t => 0x01900000 + put w 29 + put g 26 + put d 15 + put a 10 + put b 5 + put p 3 + put t 0
  | .vmul w g d a b p t => 0x01A00000 + put w 29 + put g 26 + put d 15 + put a 10 + put b 5 + put p 3 + put t 0
  | .vfma w g d a b p t => 0x01B00000 + put w 29 + put g 26 + put d 15 + put a 10 + put b 5 + put p 3 + put t 0
  | .vmax w g d a b p t => 0x01C00000 + put w 29 + put g 26 + put d 15 + put a 10 + put b 5 + put p 3 + put t 0
  | .vmin w g d a b p t => 0x01D00000 + put w 29 + put g 26 + put d 15 + put a 10 + put b 5 + put p 3 + put t 0
  | .vabs w g d a p t => 0x01E00000 + put w 29 + put g 26 + put d 15 + put a 10 + put p 3 + put t 0
  | .vneg w g d a p t => 0x01F00000 + put w 29 + put g 26 + put d 15 + put a 10 + put p 3 + put t 0
  | .vand w g d a b p => 0x02000000 + put w 29 + put g 26 + put d 15 + put a 10 + put b 5 + put p 3
  | .vor w g d a b p => 0x02100000 + put w 29 + put g 26 + put d 15 + put a 10 + put b 5 + put p 3
  | .vxor w g d a b p => 0x02200000 + put w 29 + put g 26 + put d 15 + put a 10 + put b 5 + put p 3
  | .vshl w g d a b p => 0x02300000 + put w 29 + put g 26 + put d 15 + put a 10 + put b 5 + put p 3
  | .vshr w g d a b p s => 0x02400000 + put w 29 + put g 26 + put d 15 + put a 10 + put b 5 + put p 3 + put s 0
  | .vcmp w g d a b p c => 0x02500000 + put w 29 + put g 26 + put d 15 + put a 10 + put b 5 + put p 3 + put c 0
  | .vsel w g d a b p m => 0x02600000 + put w 29 + put g 26 + put d 15 + put a 10 + put b 5 + put p 3 + put m 0
  | .vcvt w g d a i f p m => 0x02700000 + put w 29 + put g 26 + put d 15 + put a 10 + put i 9 + put f 5 + put p 3 + put m 0
  | .vmov w g d a p => 0x02800000 + put w 29 + put g 26 + put d 15 + put a 10 + put p 3
  | .vmovMt w g d a p => 0x02800001 + put w 29 + put g 26 + put d 15 + put a 10 + put p 3
  | .vmovTm w g d a p => 0x02800002 + put w 29 + put g 26 + put d 15 + put a 10 + put p 3
  | .vmovMm w g d a p => 0x02800003 + put w 29 + put g 26 + put d 15 + put a 10 + put p 3
  | .vli w g d i => 0x02900000 + put w 29 + put g 26 + put d 15 + put i 0
  | .vliF w g d i => 0x02904000 + put w 29 + put g 26 + put d 15 + put i 0
  | .vexp2 w g d a p => 0x02A00000 + put w 29 + put g 26 + put d 15 + put a 10 + put p 3
  | .vlog2 w g d a p => 0x02A00001 + put w 29 + put g 26 + put d 15 + put a 10 + put p 3
  | .vrcp w g d a p => 0x02A00002 + put w 29 + put g 26 + put d 15 + put a 10 + put p 3
  | .vrsqrt w g d a p => 0x02A00003 + put w 29 + put g 26 + put d 15 + put a 10 + put p 3
  | .vtanh w g d a p => 0x02A00004 + put w 29 + put g 26 + put d 15 + put a 10 + put p 3
  | .vsigm w g d a p => 0x02A00005 + put w 29 + put g 26 + put d 15 + put a 10 + put p 3
  | .vsoftp w g d a p => 0x02A00006 + put w 29 + put g 26 + put d 15 + put a 10 + put p 3
  | .vrotr w g d a s p => 0x02B00000 + put w 29 + put g 26 + put d 15 + put a 10 + put s 5 + put p 3
  | .vrotc w g d a s p => 0x02C00000 + put w 29 + put g 26 + put d 15 + put a 10 + put s 5 + put p 3
  | .vbcr w g d a s p => 0x02D00000 + put w 29 + put g 26 + put d 15 + put a 10 + put s 5 + put p 3
  | .vbcc w g d a s p => 0x02E00000 + put w 29 + put g 26 + put d 15 + put a 10 + put s 5 + put p 3
  | .vredr w g d a p o => 0x02F00000 + put w 29 + put g 26 + put d 15 + put a 10 + put p 3 + put o 0
  | .vredc w g d a p o => 0x03000000 + put w 29 + put g 26 + put d 15 + put a 10 + put p 3 + put o 0
  | .vscanr w g d a p o => 0x03100000 + put w 29 + put g 26 + put d 15 + put a 10 + put p 3 + put o 0
  | .vperm w g d a b p => 0x03200000 + put w 29 + put g 26 + put d 15 + put a 10 + put b 5 + put p 3
  | .vtr4 w g d a => 0x03300000 + put w 29 + put g 26 + put d 17 + put a 12
  | .vtree w g a k m o d => 0x03400000 + put w 29 + put g 26 + put a 15 + put k 12 + put m 9 + put o 6 + put d 0
  | .scanCfg w g a s => 0x03500000 + put w 29 + put g 26 + put a 15 + put s 10
  | .scanSeg w g m f => 0x03600001 + put w 29 + put g 26 + put m 15 + put f 10
  | .scanSegOff w g => 0x03600000 + put w 29 + put g 26
  | .scanLocAgg w g a => 0x03700000 + put w 29 + put g 26 + put a 10
  | .scanLocOut w g d a => 0x03700001 + put w 29 + put g 26 + put d 15 + put a 10
  | .scanLocFin w g d a => 0x03700002 + put w 29 + put g 26 + put d 15 + put a 10
  | .scanNet w g x => 0x03800000 + put w 29 + put g 26 + put x 0
  | .scanNetInit w g i x => 0x03800002 + put w 29 + put g 26 + put i 15 + put x 0
  | .scanApp w g d a => 0x03900000 + put w 29 + put g 26 + put d 15 + put a 10
  | .scanStep w g d a p => 0x03A00000 + put w 29 + put g 26 + put d 15 + put a 10 + put p 5
  | .ssLd w g p a b => 0x03B00000 + put w 29 + put g 26 + put p 15 + put a 10 + put b 5
  | .ssLdF w g p a b => 0x03B00001 + put w 29 + put g 26 + put p 15 + put a 10 + put b 5
  | .ssSt w g d p b => 0x03C00000 + put w 29 + put g 26 + put d 15 + put p 10 + put b 5
  | .ssStF w g d p b => 0x03C00001 + put w 29 + put g 26 + put d 15 + put p 10 + put b 5
  | .ssZero w g p => 0x03D00000 + put w 29 + put g 26 + put p 15
  | .drAcc w g k a j h => 0x01000000 + put w 29 + put g 26 + put k 15 + put a 10 + put j 5 + put h 0
  | .drAccAll w g k a h => 0x01000002 + put w 29 + put g 26 + put k 15 + put a.a 10 + put a.j 5 + put h 0
  | .drVt w g k a i h => 0x01100000 + put w 29 + put g 26 + put k 15 + put a 10 + put i 1 + put h 0
  | .drMode w g a o => 0x01200000 + put w 29 + put g 26 + put a 10 + put o 0
  | .histCfg w g h a => 0x01300000 + put w 29 + put g 26 + put h 15 + put a 10
  | .histRd w g h k d => 0x01400000 + put w 29 + put g 26 + put h 15 + put k 6 + put d 0
  | .histRdClr w g h k d => 0x01480000 + put w 29 + put g 26 + put h 15 + put k 6 + put d 0
  | .histClr w g h => 0x01500000 + put w 29 + put g 26 + put h 15
  | .stTile w g k a h => 0x01600000 + put w 29 + put g 26 + put k 15 + put a 10 + put h 0
  | .stWb w g a b => 0x01700000 + put w 29 + put g 26 + put a 15 + put b 10
  | .stInv w g a b => 0x01800000 + put w 29 + put g 26 + put a 15 + put b 10
  | .tileDone w g a => 0x01900000 + put w 29 + put g 26 + put a 15
  | .annulledPosition _ | .asyncTrapTake _ | .loadDelivery _ _ | .vtreeDelivery _ | .histRdDelivery _
  | .ldTileEntryWrite _ _ | .mmaRetire _ | .taskRetire _ | .phaseBarrierComplete _ | .semWaiterServed _ _
  | .flagAddApply _ _ | .waittResume _ | .transferRecordRead _ _ | .transferUnit _ | .recordCompletion _ _
  | .tcpCompletion _ _ | .deadlineLeadReached _ | .spillCompletion _ | .scanNetSweepEnd _ | .carryPacket _ _
  | .spliceService _ | .repGoService _ | .workItemReturn _ _ | .guardedReadResume _ _ | .collSend _ | .collRecv _
  | .collCopy _ | .collWait _ | .collLoop _ | .collEnd _ | .chunkReady _ | .collMessage _ _ | .collAck _
  | .abortNotice _ _ _ _ | .collTimeout _ | .labelJoinMiss _ _ _ | .packetFetch _ | .prologueComplete _
  | .preemptionDecision _ | .jobBind _ _ | .drain _ | .drainWindowExpiry _ | .checkpoint _ | .contextSaved _
  | .kill _ | .jobResume _ _ | .bucketRefill | .quantumEnd _ | .rackLaunchPacket _ _ | .ualinkRequest _
  | .flitReceive _ | .flitReplay _ | .linkDown _ | .epochRewrite _ | .hostRegisterWrite _ _ _ | .hostMemoryRead _ _
  | .hostMemoryWrite _ _ | .invStage1Range _ _ | .invStage1All _ _ | .invStage2Range _ _ | .invStage2All _ _
  | .invPartitionAll _ | .invalidationDone _ | .wqkick _ _ | .wqEnable _ | .wqResume _ | .wqSkip _ | .wqDestroy _
  | .queueOffAfterDestroy _ | .psl _ _ | .vdq _ _ _ | .tintr _ _ | .timeset _ | .snapHostTrigger _ | .snapArm _
  | .wsrecValidClear _ | .racepaValidClear _ | .hprecValidClear | .relrecValidClear | .ftrecValidClear _
  | .lostClear _ | .createOrigin | .installPolicy | .removePolicy | .attest | .mailboxDone | .coldReset
  | .bringupStart | .verify _ _ | .meminit _ | .functionLevelReset _ | .ppsIn | .lovageGrant _ _ | .thermalTrip
  | .thermalTripEnd | .illegalInstructionWord _ _ _ | .instructionFetchFault _ _ | .amoDelivery _ _
  | .l1Writeback _ _ | .hostLinkBudgetWindow => 0

/-- The word of an instruction. -/
def encode (i : Instr) : Word32 := BitVec.ofNat 32 (encodeNat i)

end Sys2Proof
end

