-- ==== Sys2Proof/Machine/State.lean ====
section
/-! DEFINITION. The state of the LH3-512: every register, memory, queue and table that spec/ names (INVENTORY.md lists them
with their rules), as plain data, and the state after cold reset (R376). The fields `freeCtr`, `agenda`, `cur` and `out` are
the model's own (log entries 1, 4, 5). -/

namespace Sys2Proof.Machine

/-! ### The control strand (R250 to R268) -/

/-- The instruction sequence of a C strand (R252). `red1` and `red2` say that n1, n2 was placed by a redirect (R256). -/
structure Seq where
  pc : Word
  n1 : Word
  n2 : Word
  ann : BitVec 2
  red1 : Bool
  red2 : Bool
  deriving DecidableEq, Repr

/-- The trap registers and the other CSRs a C strand writes (R267). -/
structure Csrs where
  stat : Word
  sstat : Word
  spc : Word
  snpc : Word
  sds : Word
  tvec : Word
  tcause : Word
  tval : Word
  ktid : Word32
  kstep : Word32
  hthresh : Word32
  deriving DecidableEq, Repr

/-- The read-only CSRs that bind, `phase` and a regroup set (R267): DMR, JOBID, TASK, PART, ASID, DET. -/
structure Ident where
  phn : BitVec 16
  domLast : BitVec 8
  domFirst : BitVec 8
  hlvl : BitVec 2
  level : BitVec 2
  jobid : JobId
  taskLast : BitVec 8
  slot : BitVec 8
  vd : BitVec 3
  pid : PartId
  asid : BitVec 16
  salign : Bool
  det : Bool
  deriving DecidableEq, Repr

/-- What makes a register pending (R250, R361). -/
inductive PendSrc where
  | load | amo | vtree | histRd
  /-- a copy of the `tcp` queue, by journal number -/
  | tcp (seq : Nat)
  /-- a journalled command with the IOC engines -/
  | cmd (seq : Nat)
  deriving DecidableEq, Repr

/-- A pending register (R250), with the value once the engine has it. -/
structure Pend where
  reg : BitVec 6
  src : PendSrc
  val : Option Word
  lbl : Label
  seq : Option Nat
  deriving DecidableEq, Repr

/-- The state of a strand, in the codes of R369. -/
inductive StrandSt where
  | notStarted | issuing | waiting | stoppedTrap | retired | stoppedPre
  deriving DecidableEq, Repr

/-- One item for each of the four strands of a core (R12). -/
structure Four (α : Type) where
  c : α
  l : α
  x : α
  s : α
  deriving DecidableEq, Repr

/-- An arrival at a rendezvous (R17, R273): the identifier and whether it is the final one. -/
structure Arrival where
  id : BitVec 8
  fin : Bool
  order : Nat
  /-- tokens popped at the arrival, given back if it is withdrawn (R284), and the give mask it pushes on completion -/
  pops : List Nat
  gives : List Nat
  deriving DecidableEq, Repr

/-- Where a waiting asynchronous trap came from (R355, R364). -/
inductive TrapSrc where
  | chan (ch : BitVec 3)
  | strand (st : Strand)
  | spill
  | gate
  | replay (seq : Nat)
  deriving DecidableEq, Repr

/-- An entry of a task's queue of asynchronous traps (R355). -/
structure ATrap where
  cause : Word
  tval : Word
  src : TrapSrc
  deriving DecidableEq, Repr

/-- An entry of the command journal (R360). -/
structure JEntry where
  seq : Nat
  guarded : Bool
  done : Bool
  perf : Bool
  word : Word32
  opa : Word
  opb : Word
  res : Word
  reslbl : Label
  /-- of a `rep.go`: the threshold that it latched as it issued (R295, R364) -/
  thr : Word32 := 0
  deriving DecidableEq, Repr

/-- A semaphore (R274, R245, R277): its count, the stamps of the pair's tasks on core A and core B, its waiters. -/
structure Sem where
  count : BitVec 16
  stampA : BitVec 16
  stampB : BitVec 16
  waiters : List (CoreId × Nat)
  deriving DecidableEq, Repr

/-- A core watchpoint (R105). -/
structure Wp where
  addr : Word
  ctl : Word
  deriving DecidableEq, Repr

/-- An exemption from a watchpoint on a strand's next execution of an instruction (R106). -/
structure WpExempt where
  strand : Strand
  wp : Fin 4
  pc : Word
  armed : Bool
  /-- of the C strand: the handlers that the trap was taken in, before its own -/
  depth : Nat
  deriving DecidableEq, Repr

/-! ### The transfer engine (R110 to R128) -/

/-- A side of a transfer whose layout record has been read (R122): the 192 bytes of the record. -/
abbrev LRec := List Byte

/-- A copy under way: the record's 64 bytes, the layout records of its sides once they are read, the unit it stands at,
whether its checks have passed, whether its deadline lead has been reached (R111, R116, R120), the race sync count of its
issuer at issue (R247), how far a channel's record has gone after its last unit (0 nowhere, 1 written back, 2 the increment made,
R117), and a `tcp`'s end: a cause and an address. -/
structure Copy where
  img : List Byte
  addr : Word
  checked : Bool
  srcL : Option LRec
  dstL : Option LRec
  unit : Nat
  late : Bool
  sync : BitVec 16
  stage : Nat
  ended : Option (Byte × Word)
  deriving DecidableEq, Repr

/-- A copy in a core's `tcp` queue (R124): its token register and journal number. -/
structure TcpCopy where
  reg : BitVec 6
  seq : Nat
  copy : Copy
  deriving DecidableEq, Repr

/-- The states of a channel (R119). -/
inductive ChanSt where
  | idle | run | fault | error | aborting
  deriving DecidableEq, Repr

/-- A transfer-engine channel (R119, R126). -/
structure Chan where
  st : ChanSt
  cause : Byte
  cursor : Word
  count : Nat
  issuer : Option CoreId
  /-- the journal numbers of the `chan.go` commands that are not complete (R361) -/
  seqs : List (CoreId × Nat)
  sync : BitVec 16
  copy : Option Copy
  deriving DecidableEq, Repr

/-! ### The engine strands (R133 to R147) -/

/-- The registers every engine strand has of its own (R133). -/
structure Eng where
  pc : Word
  n : Vector Word32 16
  lc : Vector Word32 4
  deriving DecidableEq, Repr

/-- A stream descriptor (R136). -/
structure SDesc where
  q0 : Word
  q1 : Word
  q2 : Word
  q3 : Word
  pos : Word32
  deriving DecidableEq, Repr

/-- An operand ring (R140, R141): its configuration, head and tail, and the counts F, P and H. -/
structure Ring where
  on : Bool
  baseU : BitVec 16
  esz : BitVec 10
  nent : BitVec 10
  head : Nat
  tail : Nat
  f : Nat
  p : Nat
  h : Nat
  deriving DecidableEq, Repr

/-- One level of a nest table (R145). -/
structure Nest where
  cnt : BitVec 16
  sa : BitVec 16
  sb : BitVec 16
  sc : BitVec 16
  deriving DecidableEq, Repr

/-- The L strand's own state (R133, R136, R140, R145). -/
structure LState where
  sd : Vector SDesc 32
  rg : Vector Ring 16
  nestA : Vector Nest 6
  nestS : Vector Nest 6
  deriving DecidableEq, Repr

/-- A vector tile or a block of a state slot: 1,024 containers of 32 bits, row-major (R166, R196). An accumulator:
16,384 (R148). -/
abbrev Tile := List Word32
/-- A mask or a flag vector: bit of lane i is bit i (R166, R196). -/
abbrev Mask := BitVec 1024

/-- A state slot (R196). -/
structure Slot where
  blocks : Vector Tile 8
  flags : Vector Mask 8
  empty : BitVec 8
  lbl : Label
  deriving DecidableEq, Repr

/-- The scan control state (R198). `segIn`, `segOut`: the bound masks (R199). -/
structure ScanCtl where
  st : BitVec 2
  img : List Byte
  lcc : BitVec 4
  mlog : BitVec 3
  tb : BitVec 4
  rs : BitVec 4
  segOn : Bool
  segIn : BitVec 3
  segOut : BitVec 3
  posI : Nat
  posJ : Nat
  swn : BitVec 16
  clbl : Label
  deriving DecidableEq, Repr

/-- A `scan.net` that waits for its sweep (R204): whether it is `.xp`, its `.init` slot, the queues it pops as it commits
(an aborted sweep has popped nothing, R213) and those it then pushes. -/
structure NetWait where
  xp : Bool
  init : Option (BitVec 4)
  pops : List Nat
  gives : List Nat
  deriving DecidableEq, Repr

/-- The state of the vector, matrix and scan units that the X strand writes (R148, R166, R196, R198). -/
structure XState where
  vt : Vector Tile 32
  vtl : Vector Label 32
  vm : Vector Mask 8
  vml : Vector Label 8
  ac : Vector Tile 4
  acl : Vector Label 4
  hazard : Vector (Option (Nat × Nat)) 4
  ss : Vector Slot 16
  scan : ScanCtl
  net : Option NetWait
  deriving DecidableEq, Repr

/-- A histogram handle (R228). -/
structure Hist where
  base : Word32
  ctr : Vector Word32 32
  lbl : Label
  deriving DecidableEq, Repr

/-- An entry of the key-reuse table (R49, R51). -/
structure SrKey where
  t : Word32
  s : Word32
  base : Word
  deriving DecidableEq, Repr

/-- The S strand's own state (R219, R228, R51). -/
structure SState where
  dmode : Word
  rech : Word
  rtid : Word32
  rd0 : Word32
  rbase : Word
  hist : Vector Hist 16
  keys : List SrKey
  deriving DecidableEq, Repr

/-- A matrix instruction under way (R152, R158, R164): its word, PC and accumulator, the shape word it read, its rings, their entries
at the start of what it holds and how many of each it holds, the nest it read, the number of its next step, the bytes of its entries as
they stood at its start, against which unordered stores are told (R162), and the values that the accumulator held before it and after
each of its group additions, with their labels (R162). -/
structure MatRun where
  word : Word32
  pc : Word
  d : BitVec 2
  shape : Word32
  a : BitVec 4
  b : BitVec 4
  posA : Nat
  posB : Nat
  ka : Nat
  kb : Nat
  nest : Vector Nest 6
  t : Nat
  wasA : List (List Byte)
  wasB : List (List Byte)
  seen : List (Tile × Label)
  deriving DecidableEq, Repr

/-- A tile write that the other strands may still see undone (R185): the tile, what it held, the result, and the label that the tile
has once every open write of it has ended: the join of all their results' labels. -/
structure TornTile where
  d : BitVec 5
  old : Tile
  res : Tile
  newl : Label
  deriving DecidableEq, Repr

/-- The part of an engine instruction that is still under way (R134): what has to happen before its give mask is pushed. -/
inductive Rest where
  /-- only the pushes of the give mask are left (R270) -/
  | push
  /-- an `ld.tile` that has still to write its ring entry (R141): the ring, the entry's index, the runs it writes there, each by its
  offset in the entry, and their label -/
  | entry (r : BitVec 4) (idx : Nat) (runs : List (Nat × List Byte)) (lbl : Label)
  /-- a matrix instruction (R141, R158) -/
  | matrix (m : MatRun)
  /-- another matrix-queue instruction, which retires in order (R158), with its accumulator and what that held before it (R162) -/
  | acOp (word : Word32) (d : BitVec 2) (seen : List (Tile × Label))
  /-- tile writes that other strands may still see undone, container by container (R185) -/
  | tiles (ws : List TornTile)
  /-- a `vtree` result on its way to a C register (R183) -/
  | vtree (d : BitVec 6) (v : Word) (lbl : Label)
  /-- a `hist.rd` result on its way to a C register (R229) -/
  | hist (d : BitVec 6) (v : Word) (lbl : Label)
  deriving DecidableEq, Repr

/-- A page made ready for an access: the combined translation of a virtual page, with the pages that its stage-one leaf maps (R92, R94). -/
structure Page where
  vpage : Nat
  ppage : Nat
  lbl : Label
  cp : BitVec 2
  tso : Bool
  race : Bool
  /-- the stash and the frame that serve the page -/
  stash : Option (ClusterId × Nat)
  r : Bool := true
  w : Bool := true
  x : Bool := true
  leaf : Nat := 0
  span : Nat := 1
  deriving DecidableEq, Repr

/-- An engine instruction that has started and not finished: its strand, what is left, the queues it will push, the pages that it uses
until it ends (R99, R141, R156). -/
structure Flight where
  st : Strand
  rest : Rest
  gives : List Nat
  pages : List Page := []
  deriving DecidableEq, Repr

/-- A command with the state-spill engine (R215): slot, address, direction, journal number, and the slot as it stood at issue, against
which unordered X writes are told (R216), and of a fill the slot that it has read and not yet put in place. -/
structure SpillCmd where
  slot : BitVec 4
  was : Slot
  addr : Word
  fill : Bool
  seq : Nat
  sync : BitVec 16
  got : Option Slot
  deriving DecidableEq, Repr

/-- The state-spill engine of a core (R215, R355). `held`: a fault's trap has not left the queue. -/
structure SpillEng where
  cmds : List SpillCmd
  held : Bool
  deriving DecidableEq, Repr

/-- The debug block of a core (R105, R248, R354, R369). `after`: how many of the queued asynchronous traps arrived before the
pending task interrupt (R257, R352). -/
structure Debug where
  wp : Vector Wp 4
  racerec : Word
  racepa : Word
  pend : Bool
  code : Byte
  after : Nat
  snapPc : Vector Word 4
  snapSt : Word
  snapTq0 : Word
  snapTq1 : Word
  snapJ : Word
  deriving DecidableEq, Repr

/-- A write to KTID, KSTEP or both that the S strand is not ordered after yet (R48): the values before it, whether it wrote both as one
update, and how many tokens of tq.cs the S strand pops before one that was pushed after it. -/
structure KeyWrite where
  ktid : Word32
  kstep : Word32
  both : Bool
  before : Nat
  deriving DecidableEq, Repr

/-- A `dom.set` request of the phase (R21). -/
inductive DomReq where
  | split | join
  deriving DecidableEq, Repr

/-- An instruction whose guarded read waits, by its strand (R301). -/
structure GuardWait where
  st : Strand
  instr : Instr
  deriving DecidableEq, Repr

/-- A core (R11). -/
structure Core where
  /-- the job bound on the core (R15) -/
  job : Option JobId
  x : Vector Word 64
  xl : Vector Label 64
  pend : List Pend
  seq : Seq
  csr : Csrs
  id : Ident
  st : Four StrandSt
  arr : Four (Option Arrival)
  /-- the final rendezvous has completed, so that `rdv.end` only waits for the task's commands (R18, R284) -/
  rdvDone : Bool
  /-- the C strand stands in that wait: no trap has taken it away (R284) -/
  rdvWait : Bool
  forked : Bool
  /-- the L, X and S strands that `fork` started (R16) -/
  started : Four Bool
  atraps : List ATrap
  /-- the trap handlers that have not returned, innermost first, each with the source of its trap where that is an asynchronous one
  (R353, R358, R364) -/
  handlers : List (Option TrapSrc)
  /-- the C strand waits at a `wfi` (R357) -/
  atWfi : Bool
  /-- the TIME a waiting `waitt` waits for (R283) -/
  waitT : Option Word
  wpx : List WpExempt
  journal : List JEntry
  low : Nat
  head : Nat
  /-- journal numbers still to replay after a resume (R364) -/
  replay : List Nat
  /-- the counts of the token queues by their code (R70, R270) -/
  tok : Vector (BitVec 8) 16
  /-- the writes to KTID and KSTEP that a drain may not have seen, oldest first (R48) -/
  keyw : List KeyWrite
  sems : Vector Sem 64
  sync : BitVec 16
  seen : Vector (BitVec 16) 224
  domReq : Option DomReq
  /-- arrived at the barrier of the current phase (R20) -/
  phArr : Bool
  tcps : List TcpCopy
  spill : SpillEng
  l : Eng
  xe : Eng
  s : Eng
  ls : LState
  xs : XState
  ss : SState
  flights : List Flight
  gwait : List GuardWait
  dbg : Debug
  deriving DecidableEq, Repr

/-! ### Clusters and the stash (R129 to R131) -/

/-- A stash frame with a recorded translation (R130): the page it serves, the physical page, the permissions, the pages that the
stage-one leaf maps, and the sectors that are present. Dirty data stand in `State.lines`. -/
structure Frame where
  idx : Nat
  ppage : Nat
  r : Bool
  w : Bool
  x : Bool
  tso : Bool
  lbl : Label
  leaf : Nat := 0
  span : Nat := 1
  present : List Nat
  deriving DecidableEq, Repr

/-- A cluster (R11). -/
structure Cluster where
  /-- the job's j-th cluster, for the job bound (R15, R129) -/
  job : Option (JobId × Nat)
  frames : List Frame
  chans : Vector Chan 8
  /-- the record cache (R123): ASID, handle and the record's 192 bytes, most recent first -/
  recs : List (BitVec 16 × Word × List Byte)
  /-- Lovage's grant (R381) -/
  granted : Bool
  deriving DecidableEq, Repr

/-! ### Memory (R84 to R109) -/

/-- The side band of a sector (R87). `written`, the model's own, says that some write has stamped it: of a sector that none has, the epoch
is the one of the slice's first key (R89; log entry 3). -/
structure Side where
  lbl : Label
  epoch : BitVec 12
  poison : Bool
  written : Bool := true
  deriving DecidableEq, Repr

/-- Who holds a sector: a core's L1 under the virtual page that tags the line, or a frame of a cluster's stash (R90, R129, R131). -/
inductive Owner where
  | l1 (c : CoreId) (asid : BitVec 16) (vpage : Nat)
  | stash (cl : ClusterId) (idx : Nat)
  deriving DecidableEq, Repr

/-- What an L1 line records of the translation that filled it, beside its PA (R90): the address space, the permissions, the page label. -/
structure Tag where
  pid : PartId
  vd : BitVec 3
  r : Bool
  w : Bool
  x : Bool
  tso : Bool
  lbl : Label
  deriving DecidableEq, Repr

/-- A sector that its holder has and its home does not (R109, R131): its number PA / 64, its holder, its bytes, label and poison,
whether it is dirty (a clean one is kept only of a remote package's memory, log entry 22), of the last write into it the task
and the sector's virtual address, for the report of a denied writeback (R312), and of an L1 line its recorded translation (R90). -/
structure Line where
  sector : Nat
  owner : Owner
  bytes : List Byte
  lbl : Label
  poison : Bool
  dirty : Bool
  task : Option (CoreId × JobId)
  va : Word
  tag : Option Tag := none
  deriving DecidableEq, Repr

/-- A combined translation of one 4 KiB page held by a TLB (R90, R94), with the pages that its stage-one leaf maps: the first and
how many (R92, R99). -/
structure Tlb where
  pid : PartId
  vd : BitVec 3
  asid : BitVec 16
  vpage : Nat
  leaf : Nat
  span : Nat
  ppage : Nat
  r : Bool
  w : Bool
  x : Bool
  cp : BitVec 2
  tso : Bool
  race : Bool
  lbl : Label
  deriving DecidableEq, Repr

/-- An L2 slice: its key generation and epoch, error counter and debug registers (R87, R89, R107, R108). -/
structure Slice where
  keyGen : Nat
  epoch : BitVec 12
  errors : Word32
  ws : Vector Wp 8
  wsrec : Word
  wshit : Word
  wsovf : Word32
  deriving DecidableEq, Repr

/-! ### Labels (R304 to R314) -/

/-- An origin slot (R304). -/
structure Origin where
  pid : PartId
  key : List Byte
  auth : BitVec 4
  lbl : Label
  deriving DecidableEq, Repr

/-- An entry of the label-set table (R305): id, mask, the partitions that produced it. -/
structure LblEntry where
  id : Nat
  mask : Word
  makers : BitVec 32
  deriving DecidableEq, Repr

/-- A release policy (R313). -/
structure Policy where
  omask : Word
  cls : BitVec 4
  serial : Word32
  deriving DecidableEq, Repr

/-- The label tables and the gate's registers (R304 to R314). -/
structure LabelSt where
  origins : List (Nat × Origin)
  table : List LblEntry
  caches : Vector (List (Label × Label × Label)) 4
  /-- installed policies, by slot 0 to 63 (R313, R380) -/
  policies : List (Nat × Policy)
  /-- the highest serial accepted for each origin mask -/
  serials : List (Word × Word32)
  relrec : Word
  relcnt : Word32
  lblcnt : Word32
  inlbl : Vector Label 19
  deriving DecidableEq, Repr

/-! ### Jobs and queues (R333 to R340) -/

/-- The states of a work queue (R334). -/
inductive QSt where
  | off | run | halt | dead
  deriving DecidableEq, Repr

/-- A work queue (R333). -/
structure Queue where
  id : QueueId
  base : Word
  cfg : Word
  head : Word32
  tailv : Word32
  st : QSt
  code : Byte
  /-- the place in ready order of the job fetched last, while it is live (R337: ORD) -/
  last : Option Nat
  deriving DecidableEq, Repr

/-- A launch packet's fields (R83, R337). -/
structure Header where
  entry : Word
  est : Word32
  ptok : BitVec 16
  prio : BitVec 4
  kill : Bool
  det : Bool
  salign : Bool
  ncl : Nat
  level : BitVec 2
  npro : Nat
  pro : Word
  arg0 : Word
  arg1 : Word
  crec : Word
  swb : Word
  irq : Bool
  urg : Bool
  ord : Bool
  rply : Word
  deriving DecidableEq, Repr

/-- A packet that has passed its checks and waits in its fetch slot for a job id (R339): its queue, its bytes, its place in fetch order,
and that of the queue's previous job while it is live (R340). -/
structure Slotted where
  queue : QueueId
  bytes : List Byte
  order : Nat
  prev : Option Nat
  deriving DecidableEq, Repr

/-- The states of a job between fetch and end (R339 to R345, R362). -/
inductive JobSt where
  /-- in a fetch slot; the prologue runs -/
  | fetched
  | ready
  | bound
  /-- drains until the given TIME (R345) -/
  | draining (untilT : Word)
  /-- stopped at its cut; the images are being written (R362) -/
  | stopped
  /-- saved, waits to rebind (R364) -/
  | saved
  deriving DecidableEq, Repr

/-- The forms of a pre-emption (R344, R345). -/
inductive PreForm where
  | drain | checkpoint | kill
  deriving DecidableEq, Repr

/-- A flag of a gang (R278, R245). -/
structure Flag where
  val : Word32
  stamps : List (BitVec 8 × BitVec 16)
  waiters : List (CoreId × Word32)
  deriving DecidableEq, Repr

/-- A posted increment on its way to the flag's home (R279). -/
structure FlagPost where
  flag : BitVec 8
  amount : Word32
  slot : BitVec 8
  sync : BitVec 16
  deriving DecidableEq, Repr

/-- A barrier domain's phase numbers of a job (R20, R21, R366): the level-3 domain and the dies' subdomains. -/
structure Phases where
  top : Word32
  die : Vector Word32 4
  deriving DecidableEq, Repr

/-- A task as a context image keeps it (R363, R367, log entry 8). -/
structure TaskImage where
  slot : BitVec 8
  /-- the die it ran on, whose subdomain number it holds (R366) -/
  die : Fin 4
  core : Core
  chans : Vector (Option Chan) 8
  deriving DecidableEq, Repr

/-- A job: its packet, place in ready order, state, clusters and shared structures. -/
structure Job where
  id : JobId
  queue : QueueId
  pid : PartId
  vd : BitVec 3
  asid : BitVec 16
  hdr : Header
  order : Nat
  /-- the place of the queue's previous job, while that job is live (R340) -/
  prev : Option Nat
  st : JobSt
  cls : List ClusterId
  /-- the estimate and the TIME it was set (R344, R349) -/
  est : Word32
  estAt : Word
  spent : BitVec 16
  tbind : Word
  boundAt : Nat
  /-- the fate of an ordered kill (R337, R345) -/
  killDue : Bool
  /-- the form in which the dispatch unit has ordered the job to leave (R344) -/
  form : Option PreForm
  /-- of a newcomer decided upon: the tokens it offered and the clusters it will find (R344) -/
  offer : Option (Nat × List ClusterId)
  flags : Vector Flag 256
  posts : List FlagPost
  /-- chunk counters not at zero, with their overflow marks (R321) -/
  chunks : List (Nat × BitVec 16 × Bool)
  phases : Phases
  split : Bool
  retired : List (BitVec 8)
  /-- the save area range of a saved job (R365) and the images -/
  area : Option (Nat × Nat)
  images : List TaskImage
  deriving DecidableEq, Repr

/-! ### Repair contexts (R285 to R303) and collectives (R317 to R328) -/

/-- The states of a repair context (R285, R297). -/
inductive RepSt where
  | idle | spliced | check | repair | error
  deriving DecidableEq, Repr

/-- A pending block of a context: its table index, data address, tokens, position, level and flagged tokens (R286, R298). -/
structure RepBlk where
  idx : Nat
  addr : Nat
  ntok : Nat
  pos : Nat
  lvl : Nat
  mask : Word
  deriving DecidableEq, Repr

/-- A work item that the engine has issued and not read back (R293, R295): its ring slot, whether a `rep.poll` claimed it, and
whether the round it belongs to still runs (R297). -/
structure RepItem where
  slot : Nat
  claimed : Bool
  live : Bool
  deriving DecidableEq, Repr

/-- A repair context as the engine keeps it (R285, R297, R303): its handle and address space, the descriptor fields held, its
state, the issuer's job (shown as OWNJOB; `owner` is it while its guards apply), the threshold, the round, its pending blocks
in table order, the items of the round that wait for a ring slot, and those issued, oldest first. -/
structure Rep where
  addr : Word
  asid : BitVec 16
  vd : BitVec 3
  pid : PartId
  desc : List Byte
  st : RepSt
  code : Byte
  ownjob : JobId
  /-- the core of the task that issued the last accepted command (R234, R312) -/
  core : CoreId
  owner : Option JobId
  thr : Word32
  round : Nat
  flagged : Nat
  stales : Word32
  blks : List RepBlk
  todo : List (List Byte)
  items : List RepItem
  nextSlot : Nat
  /-- the pages of its guarded regions as they translated when the guards were installed: virtual, physical (R300) -/
  pages : List (Nat × Nat) := []
  deriving DecidableEq, Repr

/-- A command waiting with the IOC engines (R290, R295, R361). -/
structure RepCmd where
  core : CoreId
  seq : Nat
  splice : Bool
  ctx : Word
  /-- of a `splice`: the position P and the entries read at issue -/
  pos : Word32
  list : List Byte
  lbl : Label
  reg : BitVec 6
  hthresh : Word32
  deriving DecidableEq, Repr

/-- The states of a collective program (R326); a handle without a record is IDLE. -/
inductive CollSt where
  | run | aborting | done | aborted | error
  deriving DecidableEq, Repr

/-- A collective program, or the record of an ended one (R317 to R328). -/
structure Coll where
  handle : Word
  job : JobId
  /-- the core of the task that issued `coll.go` -/
  core : CoreId
  pid : PartId
  vd : BitVec 3
  asid : BitVec 16
  hdr : List Byte
  steps : List Word
  /-- the N entries of PTAB, by rank -/
  peers : List (BitVec 8)
  st : CollSt
  cause : Byte
  silent : BitVec 7
  /-- the step at which it stands, and the step recorded by an end or a cause -/
  step : Nat
  rstep : Nat
  lc : Vector Word32 4
  dataPass : Bool
  /-- chunks made ready, as 65,536 × buffer + chunk (R320) -/
  ready : List Nat
  /-- chunks whose block words a STO of the exponent pass wrote (R323) -/
  exps : List Nat
  /-- bytes counted in a chunk's range, and the physical ranges counted: chunk, first byte, length (R322) -/
  bytes : List (Nat × Nat)
  ranges : List (Nat × Nat × Nat)
  /-- the rank whose acknowledgement the step waits for (R320) -/
  ack : Option (BitVec 7)
  /-- the ranks to which messages have been sent, and those that RECV steps have named (R324) -/
  sentTo : List (BitVec 7)
  recvd : List (BitVec 7)
  inbox : List CollMsg
  /-- the TIME since which the step waits (R327) -/
  waitFrom : Word
  deriving DecidableEq, Repr

/-! ### The package -/

/-- An entry of the interrupt cause table (R347). -/
structure CauseEntry where
  w0 : Word
  time : Word
  deriving DecidableEq, Repr

/-- What leaves the package (the model's own record, log entry 5). -/
inductive OutMsg where
  | msi (vector : Nat)
  /-- a host read's answer: the bytes, or an error completion (R312, R372) -/
  | hostRead (data : Option (List Byte))
  /-- the answer to a register read (R371) -/
  | hostReg (v : Word)
  | ualWrite (pkg : Nat) (addr : Nat) (bytes : List Byte) (lbls : List Label)
  | ualAmo (pkg : Nat) (addr : Nat) (op : Nat) (v : Word) (cmp : Word)
  | ualRead (pkg : Nat) (addr : Nat) (n : Nat)
  /-- the answer to a remote request (R85, R330) -/
  | ualResp (port : Port) (data : Option (List Byte))
  /-- a collective message to a peer entry, the acknowledgement of one to its sender's rank, an ABORT notice (R320, R326) -/
  | coll (pid : PartId) (peer : BitVec 8) (m : CollMsg)
  | collAck (pid : PartId) (net : Bool) (rank : BitVec 7) (tag : BitVec 16) (rnd : BitVec 32)
  | abort (pid : PartId) (net : Bool) (peer : BitVec 8) (tag : BitVec 16) (rnd : BitVec 32) (silent : BitVec 7)
  /-- a carry packet toward an Imost port (R212, R330) -/
  | carry (pid : PartId) (port : Nat) (packet : CarryIn) (lbl : Label)
  | flitAck (port : Port) (n : Nat)
  | flitReplay (port : Port) (from_ : Nat)
  | residency (addr : Word) (bytes : List Byte)
  | event (code : Nat)
  deriving DecidableEq, Repr

/-- A virtual device (R342, R343). -/
structure VDev where
  en : Bool
  weight : BitVec 16
  qreq : Word32
  kthr : Word32
  drw : Word32
  root : Word
  bkt : BitVec 16
  qst : BitVec 2
  qeff : Word32
  deriving DecidableEq, Repr

/-- An invalidation command under way (R98, R99). -/
structure InvCmd where
  kind : Nat
  asid : BitVec 16
  vd : BitVec 3
  page : Nat
  count : Nat
  deriving DecidableEq, Repr

/-- A carry packet held at a node: its level and sweep number, the packet with what travels beside its bytes (log entry 19), and its label
on arrival (R212, R310). -/
structure HeldPacket where
  lvl : Nat
  swn : BitVec 16
  packet : CarryIn
  lbl : Label
  deriving DecidableEq, Repr

/-- The state of a gang at the carry-group node of its partition (R211, R212): the gang, none while only packets have come for it; its
TAG; the number of its sweep that is not committed yet; whether the up packet of that sweep has left; the up packets held and the down
packet received. -/
structure NetNode where
  job : Option JobId
  tag : Nat
  swn : BitVec 16
  sentUp : Bool
  ups : List HeldPacket
  down : Option HeldPacket
  deriving DecidableEq, Repr

/-- A down packet of the last committed sweep of its TAG, kept for duplicates, with the bytes of the up packet that it answered (R212). -/
structure KeptDown where
  up : List Byte
  held : HeldPacket
  deriving DecidableEq, Repr

/-- A partition: its register block and its registers of the IOC block (R98, R102, R211, R330, R341, R352, R365, R369). -/
structure Part where
  inv : Option InvCmd
  invaddr : Word
  invcnt : Word32
  invErr : Bool
  invDone : Bool
  rcbase : Word
  rcsize : Word
  rcwin : Word
  cgctl : Word
  imroute : Word
  /-- UEEP entries that are not zero: index, address words and entry word (R330) -/
  ueep : List (Nat × Word × Word × Word)
  hlbud : Word
  /-- units read and written and translation requests made over the host link in the current window, and the window's number -/
  hlUsed : Nat × Nat × Nat
  hlWin : Nat
  astab : Word
  ftrec0 : Word
  ftrec1 : Word
  ftrec2 : Word
  csbase : Word
  cssize : Word32
  /-- allocated image ranges in 64 KiB granules: start and length (R365) -/
  areas : List (Nat × Nat)
  snapArm : Bool
  snapFired : Bool
  snapSrc : BitVec 3
  snaptime : Word
  vdevs : Vector VDev 8
  /-- the rotation: the device at which it holds and since when (R346) -/
  rot : BitVec 3
  rotAt : Word
  pclu0 : Word
  pclu1 : Word
  psl : Word
  /-- the gangs at the carry-group node, the one that used it last first, and the down packets kept -/
  nodes : List NetNode
  kept : List KeptDown
  lost : Word32
  deriving DecidableEq, Repr

/-- An off-chip link (R331). -/
structure Link where
  down : Bool
  rxSeq : Nat
  txSeq : Nat
  window : List Nat
  replays : Nat
  deriving DecidableEq, Repr

/-- Pins and power (R374, R381). -/
structure Power where
  pwrgood : Bool
  resetn : Bool
  refclk : Bool
  thermn : Bool
  pwrcap : BitVec 16
  pwrnow : Word32
  trip : Bool
  deriving DecidableEq, Repr

/-- The states of bring-up (R375). -/
inductive BootState where
  | reset | verify | meminit | ready | failed
  deriving DecidableEq, Repr

/-- Bring-up and the mailbox (R375, R378, R379). -/
structure Boot where
  st : BootState
  code : Byte
  slot : Byte
  /-- the number of the firmware image that runs (R375, R380) -/
  image : Nat
  mbaddr : Word
  mbBusy : Bool
  mbDone : Bool
  mbStatus : Byte
  /-- of the running command: its buffer, its code, the request as it read it at its start (R378) -/
  mbCmd : Option (Nat × Nat × List Byte)
  xmssidx : Word32
  /-- the XMSS index that the running attestation has taken (R379) -/
  mbIdx : Option Word32
  deriving DecidableEq, Repr

/-- The agents that a step can give its turn to (log entry 4). -/
inductive Agent where
  /-- a strand of a core issues -/
  | strand (c : CoreId) (st : Strand)
  /-- a step of another agent -/
  | event (i : Instr)
  /-- n nanoseconds pass (R268) -/
  | tick (n : Nat)
  /-- a TLB lets a translation go (R90) -/
  | tlbEvict (asid : BitVec 16) (vpage : Nat)
  /-- the host die writes its own memory (R84) -/
  | hostLocal (pa : Nat) (bytes : List Byte)
  /-- a soft error of a sector: corrected or not (R87) -/
  | eccError (sector : Nat) (corrected : Bool)
  /-- a host write through BAR 2 (R370): offset, size, value -/
  | barTwo (off : BitVec 25) (size : Nat) (v : Word)
  /-- a host read of BAR 0, or of BAR 2 (R370, R371): offset and size -/
  | barRead (two : Bool) (off : BitVec 26) (size : Nat)
  /-- UCIe has trained: bring-up goes from RESET to VERIFY (R375) -/
  | bootVerify
  /-- a matrix instruction takes a step of its nest (R152) -/
  | matrixStep (c : CoreId)
  /-- a strand takes its turn, and the other strands may see the tiles it writes old or new, container by container, until its next
  (R185) -/
  | torn (c : CoreId) (st : Strand)
  /-- Sorrel writes the ingress label of a fabric: 0 the host port, 1 UALink, 2 Ultra Ethernet, 3 Imost (R314) -/
  | inlbl (fabric : Fin 4) (l : Label)
  /-- an off-chip link sends its next flit (R331) -/
  | flitSend (port : Port)
  /-- PWRGOOD, REFCLK stability (R374) -/
  | pins (pwrgood refclk : Bool)
  deriving DecidableEq, Repr

/-- The machine. -/
structure State where
  cores : Vector Core 224
  clusters : Vector Cluster 112
  /-- stored bytes that differ from 0, by physical address (R84; log entry 3) -/
  mem : List Host.Cell
  /-- side bands that differ from label 0, epoch 0, not poisoned, by sector number (R87) -/
  side : List (Nat × Side)
  lines : List Line
  tlb : List Tlb
  slices : Vector Slice 32
  parts : Vector Part 32
  labels : LabelSt
  queues : List Queue
  slotted : List Slotted
  jobs : List Job
  reps : List Rep
  repq : List RepCmd
  colls : List Coll
  /-- messages and notices that no running program takes (R324, R326) -/
  collHeld : List (PartId × CollMsg)
  abortHeld : List (PartId × BitVec 16 × BitVec 32 × BitVec 7)
  /-- the highest RND accepted with a TAG (R324) -/
  collTop : List (PartId × BitVec 16 × BitVec 32)
  links : Vector Link 19
  time : Word
  /-- the TIME up to which the token buckets are filled (R343) -/
  refillAt : Word
  boot : Boot
  pwr : Power
  hprec : Word
  hpcnt : Word32
  ualnum : Word
  causes : List CauseEntry
  ctprod : Word32
  ctcons : Word32
  /-- snapshot pages: host-port offset and the value latched (R369) -/
  snaps : List (Nat × Word)
  /-- what waits for an off-chip link that is down, by the link's port (R331) -/
  waiting : List (Nat × OutMsg)
  /-- the model's own: numbers free values (log entry 1) -/
  freeCtr : Nat
  /-- the model's own: which agent moves next (log entry 4) -/
  agenda : List Agent
  cur : CoreId × Strand
  /-- the model's own: what has left the package, oldest first (log entry 5) -/
  out : List OutMsg
  deriving DecidableEq, Repr

/-- Why a step stops with a fault. -/
inductive Fault where
  /-- `exec` was given an instruction word for a strand that does not issue (not started, stopped, retired, unbound). Raised by
  the shared entry of every strand instruction; `step` never gives such a word, so no run raises it. Safe. -/
  | notIssuing
  deriving DecidableEq, Repr

/-- Why a step is refused. -/
inductive Refusal where
  /-- the model gives the named instruction no meaning; raised by `exec`'s arm of it. Safe. -/
  | notModelled (mnemonic : String)
  deriving DecidableEq, Repr

/-! ### Reset (R376: cold reset discards all state; bind and fork values where the spec gives no other, log entry 2) -/

def Seq.reset : Seq := { pc := 0, n1 := 0, n2 := 0, ann := 0, red1 := false, red2 := false }

/-- STAT.IE 1, STAT.H 0, HTHRESH +∞ (R267). -/
def Csrs.reset : Csrs :=
  { stat := 2, sstat := 0, spc := 0, snpc := 0, sds := 0, tvec := 0, tcause := 0, tval := 0, ktid := 0, kstep := 0,
    hthresh := 0x7F800000 }

def Ident.reset : Ident :=
  { phn := 0, domLast := 0, domFirst := 0, hlvl := 0, level := 0, jobid := 0, taskLast := 0, slot := 0, vd := 0, pid := 0,
    asid := 0, salign := false, det := false }

def Four.all {α : Type} (a : α) : Four α := { c := a, l := a, x := a, s := a }

def Sem.reset : Sem := { count := 0, stampA := 0, stampB := 0, waiters := [] }

def Chan.reset : Chan :=
  { st := .idle, cause := 0, cursor := 0, count := 0, issuer := none, seqs := [], sync := 0, copy := none }

def Eng.reset : Eng := { pc := 0, n := Vector.replicate 16 0, lc := Vector.replicate 4 0 }

def SDesc.reset : SDesc := { q0 := 0, q1 := 0, q2 := 0, q3 := 0, pos := 0 }

def Ring.reset : Ring :=
  { on := false, baseU := 0, esz := 0, nent := 0, head := 0, tail := 0, f := 0, p := 0, h := 0 }

/-- CNT 1, strides 0 (R133). -/
def Nest.reset : Nest := { cnt := 1, sa := 0, sb := 0, sc := 0 }

def LState.reset : LState :=
  { sd := Vector.replicate 32 SDesc.reset, rg := Vector.replicate 16 Ring.reset, nestA := Vector.replicate 6 Nest.reset,
    nestS := Vector.replicate 6 Nest.reset }

/-- Blocks +0, flags 0, EMPTY 0xFF, label 0 (R196). -/
def Slot.reset : Slot :=
  { blocks := Vector.replicate 8 (List.replicate 1024 0), flags := Vector.replicate 8 0, empty := 0xFF, lbl := 0 }

def ScanCtl.reset : ScanCtl :=
  { st := 0, img := List.replicate 64 0, lcc := 0, mlog := 0, tb := 0, rs := 0, segOn := false, segIn := 0, segOut := 0,
    posI := 0, posJ := 0, swn := 0, clbl := 0 }

/-- Tiles 0, masks all ones, accumulators +0 (R148, R166). -/
def XState.reset : XState :=
  { vt := Vector.replicate 32 (List.replicate 1024 0), vtl := Vector.replicate 32 0,
    vm := Vector.replicate 8 (BitVec.allOnes 1024), vml := Vector.replicate 8 0,
    ac := Vector.replicate 4 (List.replicate 16384 0), acl := Vector.replicate 4 0,
    hazard := Vector.replicate 4 none, ss := Vector.replicate 16 Slot.reset, scan := ScanCtl.reset, net := none }

def Hist.reset : Hist := { base := 0, ctr := Vector.replicate 32 0, lbl := 0 }

def SState.reset : SState :=
  { dmode := 0, rech := 0, rtid := 0, rd0 := 0, rbase := 0, hist := Vector.replicate 16 Hist.reset, keys := [] }

def Wp.reset : Wp := { addr := 0, ctl := 0 }

def Debug.reset : Debug :=
  { wp := Vector.replicate 4 Wp.reset, racerec := 0, racepa := 0, pend := false, code := 0, after := 0,
    snapPc := Vector.replicate 4 0, snapSt := 0, snapTq0 := 0, snapTq1 := 0, snapJ := 0 }

def Core.reset : Core :=
  { job := none, x := Vector.replicate 64 0, xl := Vector.replicate 64 0, pend := [], seq := Seq.reset, csr := Csrs.reset,
    id := Ident.reset, st := Four.all .notStarted, arr := Four.all none, rdvDone := false, rdvWait := false, forked := false,
    started := Four.all false, atraps := [], handlers := [], atWfi := false, waitT := none, wpx := [], journal := [], low := 0, head := 0, replay := [],
    tok := Vector.replicate 16 0, keyw := [], sems := Vector.replicate 64 Sem.reset, sync := 0, seen := Vector.replicate 224 0,
    domReq := none, phArr := false, tcps := [], spill := { cmds := [], held := false }, l := Eng.reset, xe := Eng.reset,
    s := Eng.reset, ls := LState.reset, xs := XState.reset, ss := SState.reset, flights := [], gwait := [],
    dbg := Debug.reset }

def Cluster.reset : Cluster :=
  { job := none, frames := [], chans := Vector.replicate 8 Chan.reset, recs := [], granted := true }

def Slice.reset : Slice :=
  { keyGen := 0, epoch := 0, errors := 0, ws := Vector.replicate 8 Wp.reset, wsrec := 0, wshit := 0, wsovf := 0 }

def LabelSt.reset : LabelSt :=
  { origins := [], table := [], caches := Vector.replicate 4 [], policies := [], serials := [], relrec := 0, relcnt := 0,
    lblcnt := 0, inlbl := Vector.replicate 19 0 }

def VDev.reset : VDev :=
  { en := false, weight := 0, qreq := 0, kthr := 0, drw := 0, root := 0, bkt := 0, qst := 0, qeff := 0 }

def Part.reset : Part :=
  { inv := none, invaddr := 0, invcnt := 0, invErr := false, invDone := false, rcbase := 0, rcsize := 0, rcwin := 0,
    cgctl := 0, imroute := 0, ueep := [], hlbud := 0, hlUsed := (0, 0, 0), hlWin := 0, astab := 0, ftrec0 := 0, ftrec1 := 0,
    ftrec2 := 0, csbase := 0, cssize := 0, areas := [], snapArm := false, snapFired := false, snapSrc := 0, snaptime := 0,
    vdevs := Vector.replicate 8 VDev.reset, rot := 0, rotAt := 0, pclu0 := 0, pclu1 := 0, psl := 0,
    nodes := [], kept := [], lost := 0 }

def Link.reset : Link := { down := false, rxSeq := 0, txSeq := 0, window := [], replays := 0 }

/-- The machine right after cold reset (R376). -/
def State.reset : State :=
  { cores := Vector.replicate 224 Core.reset, clusters := Vector.replicate 112 Cluster.reset, mem := [], side := [],
    lines := [], tlb := [], slices := Vector.replicate 32 Slice.reset, parts := Vector.replicate 32 Part.reset,
    labels := LabelSt.reset, queues := [], slotted := [], jobs := [], reps := [], repq := [], colls := [], collHeld := [],
    abortHeld := [], collTop := [], links := Vector.replicate 19 Link.reset, time := 0, refillAt := 0,
    boot := { st := .reset, code := 0, slot := 0, image := 0, mbaddr := 0, mbBusy := false, mbDone := false, mbStatus := 0,
              mbCmd := none, xmssidx := 0, mbIdx := none },
    pwr := { pwrgood := false, resetn := false, refclk := false, thermn := true, pwrcap := 1600, pwrnow := 0,
             trip := false },
    hprec := 0, hpcnt := 0, ualnum := 0, causes := [], ctprod := 0, ctcons := 0, snaps := [], waiting := [], freeCtr := 0, agenda := [],
    cur := (0, .C), out := [] }

end Sys2Proof.Machine
end

