-- ==== Sys2Proof/Machine/Operands.lean ====
section
/-! DEFINITION. Bit fields, byte order, register files and the operand forms of the C strand's formats (R3, R4, R61, R62). -/

namespace Sys2Proof.Machine

/-- Element i of a register file. -/
def rd {α : Type} {n : Nat} (v : Vector α n) (i : Fin n) : α := v[i.val]'i.isLt
/-- A register file with element i replaced. -/
def wr {α : Type} {n : Nat} (v : Vector α n) (i : Fin n) (a : α) : Vector α n := v.set i.val a i.isLt

/-- Register fields as indices (R61, R72). -/
def i1 (r : BitVec 1) : Fin 2 := ⟨r.toNat, r.isLt⟩
def i2 (r : BitVec 2) : Fin 4 := ⟨r.toNat, r.isLt⟩
def i3 (r : BitVec 3) : Fin 8 := ⟨r.toNat, r.isLt⟩
def i4 (r : BitVec 4) : Fin 16 := ⟨r.toNat, r.isLt⟩
def i5 (r : BitVec 5) : Fin 32 := ⟨r.toNat, r.isLt⟩
def i6 (r : BitVec 6) : Fin 64 := ⟨r.toNat, r.isLt⟩
def i8 (r : BitVec 8) : Fin 256 := ⟨r.toNat, r.isLt⟩

/-- Bits [lo + n − 1 : lo] (R3). -/
def bits (w : Nat) (lo n : Nat) : Nat := w / 2 ^ lo % 2 ^ n

/-- A word's bit. -/
def bit (w : Nat) (i : Nat) : Bool := decide (w / 2 ^ i % 2 = 1)

/-- A field replaced: bits [lo + n − 1 : lo] of w become v. -/
def setBits (w : Nat) (lo n v : Nat) : Nat := w - bits w lo n * 2 ^ lo + v % 2 ^ n * 2 ^ lo

/-- A number from bytes, least significant first (R4). -/
def leNat : List Byte → Nat
  | [] => 0
  | b :: bs => b.toNat + 256 * leNat bs

/-- The n low bytes of a number, least significant first (R4). -/
def natBytes : Nat → Nat → List Byte
  | 0, _ => []
  | n + 1, v => BitVec.ofNat 8 v :: natBytes n (v / 256)

/-- Field of n bytes at an offset of a record (R4). -/
def bytesAt (bs : List Byte) (off n : Nat) : Nat := leNat ((bs.drop off).take n)

/-- Bytes with a run replaced at an offset. -/
def overlay (bs : List Byte) (off : Nat) (new : List Byte) : List Byte :=
  bs.take off ++ new ++ bs.drop (off + new.length)

/-- Two's-complement value of an n-bit number (R62). -/
def sint (n v : Nat) : Int := if v % 2 ^ n < 2 ^ (n - 1) then (v % 2 ^ n : Nat) else (v % 2 ^ n : Nat) - (2 ^ n : Nat)

/-- An integer as a 64-bit word, modulo 2^64. -/
def word (i : Int) : Word := BitVec.ofInt 64 i
/-- A number as a 64-bit word. -/
def wd (n : Nat) : Word := BitVec.ofNat 64 n
/-- An integer as a 32-bit container. -/
def word32 (i : Int) : Word32 := BitVec.ofInt 32 i

/-- An address computed from an integer, modulo 2^64. -/
def vaOf (i : Int) : Nat := (i % 2 ^ 64).toNat

/-- Sign extension of an immediate to 64 bits (R62). -/
def sext64 {n : Nat} (i : BitVec n) : Word := i.signExtend 64
/-- Sign extension of an immediate to 32 bits (R135). -/
def sext32 {n : Nat} (i : BitVec n) : Word32 := i.signExtend 32

/-- The size in bytes of a width code, and whether a load sign-extends (R62). -/
def widthSize (w : BitVec 3) : Nat :=
  match w.toNat with
  | 0 | 1 => 1
  | 2 | 3 => 2
  | 4 | 5 => 4
  | _ => 8

/-- A loaded value extended to 64 bits by its width code (R62, R259). -/
def widthExtend (w : BitVec 3) (v : Nat) : Word :=
  match w.toNat with
  | 0 => word (sint 8 v)
  | 2 => word (sint 16 v)
  | 4 => word (sint 32 v)
  | _ => wd v

/-- CM effective address: x[base] + sext(off11) × size, modulo 2^64 (R62, R259). -/
def cmAddr (base : Word) (o : BitVec 11) (size : Nat) : Word := base + sext64 o * wd size

/-- Branch and jump target: own address + 4 × sext(off) (R62). -/
def pcRel {n : Nat} (pc : Word) (o : BitVec n) : Word := pc + 4 * sext64 o

/-- A core's die and cluster (R2, R15). -/
def clusterOf (c : CoreId) : ClusterId := ⟨c.val / 2, by have := c.isLt; omega⟩
def dieOfCluster (cl : ClusterId) : Fin 4 := ⟨cl.val / 28, by have := cl.isLt; omega⟩
def dieOf (c : CoreId) : Fin 4 := dieOfCluster (clusterOf c)
/-- The other core of the pair (R2). -/
def peerOf (c : CoreId) : CoreId :=
  if h : c.val % 2 = 0 then ⟨c.val + 1, by have := c.isLt; omega⟩ else ⟨c.val - 1, by have := c.isLt; omega⟩
def coreA (cl : ClusterId) : CoreId := ⟨2 * cl.val, by have := cl.isLt; omega⟩
def coreB (cl : ClusterId) : CoreId := ⟨2 * cl.val + 1, by have := cl.isLt; omega⟩

/-! ### A field of the state by its agent -/

def State.core (s : State) (c : CoreId) : Core := rd s.cores c
def State.cluster (s : State) (cl : ClusterId) : Cluster := rd s.clusters cl
def State.part (s : State) (p : PartId) : Part := rd s.parts p
def State.slice (s : State) (k : Fin 32) : Slice := rd s.slices k

/-- A core replaced. -/
def State.setCore (s : State) (c : CoreId) (k : Core) : State := { s with cores := wr s.cores c k }
def State.updCore (s : State) (c : CoreId) (f : Core → Core) : State := s.setCore c (f (s.core c))
def State.setCluster (s : State) (cl : ClusterId) (k : Cluster) : State := { s with clusters := wr s.clusters cl k }
def State.updCluster (s : State) (cl : ClusterId) (f : Cluster → Cluster) : State := s.setCluster cl (f (s.cluster cl))
def State.updPart (s : State) (p : PartId) (f : Part → Part) : State := { s with parts := wr s.parts p (f (s.part p)) }
def State.updSlice (s : State) (k : Fin 32) (f : Slice → Slice) : State :=
  { s with slices := wr s.slices k (f (s.slice k)) }

/-- The job with an id. -/
def State.job? (s : State) (j : JobId) : Option Job := s.jobs.find? (fun k => k.id == j)
/-- The job with an id changed. -/
def State.updJob (s : State) (j : JobId) (f : Job → Job) : State :=
  { s with jobs := s.jobs.map (fun k => if k.id == j then f k else k) }
/-- The job a core is bound to. -/
def State.coreJob (s : State) (c : CoreId) : Option Job := (s.core c).job.bind s.job?
/-- A queue that nothing has written holds its reset values (R333). -/
def Queue.fresh (q : QueueId) : Queue := { id := q, base := 0, cfg := 0, head := 0, tailv := 0, st := .off, code := 0, last := none }
def State.queue (s : State) (q : QueueId) : Queue := (s.queues.find? (fun k => k.id == q)).getD (Queue.fresh q)
def State.setQueue (s : State) (k : Queue) : State :=
  { s with queues := k :: s.queues.filter (fun j => j.id != k.id) }

/-- One item of four. -/
def Four.get {α : Type} (f : Four α) : Strand → α
  | .C => f.c
  | .L => f.l
  | .X => f.x
  | .S => f.s
def Four.set {α : Type} (f : Four α) (st : Strand) (a : α) : Four α :=
  match st with
  | .C => { f with c := a }
  | .L => { f with l := a }
  | .X => { f with x := a }
  | .S => { f with s := a }

/-- The engine registers of a strand (R133). -/
def Core.eng (k : Core) : Strand → Eng
  | .L => k.l
  | .X => k.xe
  | _ => k.s
def Core.setEng (k : Core) (st : Strand) (e : Eng) : Core :=
  match st with
  | .L => { k with l := e }
  | .X => { k with xe := e }
  | _ => { k with s := e }

/-- x0 reads as zero with label 0 (R250). -/
def Core.xval (k : Core) (r : BitVec 6) : Word := if r = 0 then 0 else rd k.x (i6 r)
def Core.xlbl (k : Core) (r : BitVec 6) : Label := if r = 0 then 0 else rd k.xl (i6 r)
/-- A write to x0 is discarded (R250). -/
def Core.setX (k : Core) (r : BitVec 6) (v : Word) (lbl : Label) : Core :=
  if r = 0 then k else { k with x := wr k.x (i6 r) v, xl := wr k.xl (i6 r) lbl }

/-- A register some engine has yet to deliver (R250); x0 never is. -/
def Core.pending (k : Core) (r : BitVec 6) : Bool := decide (r ≠ 0) && k.pend.any (fun p => p.reg == r)

end Sys2Proof.Machine
end

