-- ==== Sys2Proof/Machine/Flags.lean ====
section
/-! DEFINITION. The conditions and status computations of the C strand: comparisons (R251, R253), the STAT bits (R267), the
checks of CSR fields (R6, R267), and the status words of R124. The architecture has no flag register: no scalar operation
sets a flag (R251). -/

namespace Sys2Proof.Machine

/-- Signed and unsigned order of 64-bit patterns (R251, R253). -/
def slt64 (a b : Word) : Bool := a.slt b
def ult64 (a b : Word) : Bool := a.ult b

/-- The six branch conditions (R253). -/
inductive Cond where
  | eq | ne | lt | ge | ltu | geu
  deriving DecidableEq, Repr

def Cond.holds : Cond → Word → Word → Bool
  | .eq, a, b => a == b
  | .ne, a, b => a != b
  | .lt, a, b => slt64 a b
  | .ge, a, b => !slt64 a b
  | .ltu, a, b => ult64 a b
  | .geu, a, b => !ult64 a b

/-- Whether a branch annuls its slots: .at when taken, .an when not (R62, R252). -/
def annuls (n : BitVec 2) (taken : Bool) : Bool :=
  (decide (n.toNat = 1) && taken) || (decide (n.toNat = 2) && !taken)

/-- STAT.H and STAT.IE (R267). -/
def Csrs.inHandler (r : Csrs) : Bool := bit r.stat.toNat 0
def Csrs.intEnabled (r : Csrs) : Bool := bit r.stat.toNat 1
/-- TVEC.VEC ≠ 0 (R352). -/
def Csrs.hasVector (r : Csrs) : Bool := decide (bits r.tvec.toNat 2 50 ≠ 0)

/-- Reserved bits zero, by CSR (R267). -/
def statOk (v : Word) : Bool := decide (v.toNat < 4)
def addrOk (v : Word) : Bool := decide (v.toNat < 2 ^ 52) && decide (v.toNat % 4 = 0)
def sdsOk (v : Word) : Bool :=
  decide (v.toNat < 2 ^ 58) && decide (bits v.toNat 52 2 = 0) && decide (v.toNat % 4 = 0) &&
    decide (bits v.toNat 56 2 ≠ 3) && decide (bits v.toNat 54 2 ≠ 3)
def tcauseOk (v : Word) : Bool := decide (bits v.toNat 16 47 = 0)
def low32Ok (v : Word) : Bool := decide (v.toNat < 2 ^ 32)
/-- HTHRESH: +0, a positive finite value or +∞ (R267). -/
def hthreshOk (v : Word) : Bool := decide (v.toNat ≤ 0x7F800000)

/-- The status of a `tcp` (R124): 0 for no cause, else cause << 56 with va[51:0]. -/
def copyStatus (cause : Byte) (va : Word) : Word :=
  if cause = 0 then 0 else wd (cause.toNat * 2 ^ 56 + va.toNat % 2 ^ 52)

/-- Serial order of 32-bit counts (R279). -/
def flagReached (flag target : Word32) : Bool := decide ((flag - target).toNat < 2 ^ 31)

/-- newer(a, b) of the race detector (R246). -/
def newer (a b : BitVec 16) : Bool := let d := (a - b).toNat; decide (1 ≤ d) && decide (d ≤ 32767)

/-- The race check of one record (R247): the accessor's job, phase, slot and what it has seen of the record's slot. -/
def raceFree (rec : Word) (job : JobId) (phn : BitVec 16) (slot : BitVec 8) (seen : Nat → BitVec 16) : Bool :=
  let r := rec.toNat
  !bit r 52 || decide (bits r 8 12 ≠ job.toNat) || decide (bits r 20 16 ≠ phn.toNat) ||
    decide (bits r 0 8 = slot.toNat) || newer (seen (bits r 0 8)) (BitVec.ofNat 16 (bits r 36 16))

/-- The race record of a writer (R103, R247). -/
def raceRecord (sync phn : BitVec 16) (job : JobId) (slot : BitVec 8) : Word :=
  wd (2 ^ 52 + sync.toNat * 2 ^ 36 + phn.toNat * 2 ^ 20 + job.toNat * 2 ^ 8 + slot.toNat)

end Sys2Proof.Machine
end

