-- ==== Sys2Proof/Machine/Regions.lean ====
section
/-! DEFINITION. A repair context's descriptor and the regions of its blocks that are guarded (R285, R288, R300). -/

namespace Sys2Proof.Machine

/-! ### The descriptor (R285) -/

def ctTbl (d : List Byte) : Nat := bytesAt d 0 8 % 2 ^ 52
def ctNb (d : List Byte) : Nat := bytesAt d 8 2
def ctCap (d : List Byte) : Nat := bytesAt d 10 2
def ctNl (d : List Byte) : Nat := bytesAt d 12 1
def ctKchk (d : List Byte) : Nat := bytesAt d 13 1
def ctElf (d : List Byte) : Nat := bytesAt d 14 1 % 16
def ctStok (d : List Byte) : Bool := bit (bytesAt d 14 1) 4
def ctMhash (d : List Byte) : Nat := bytesAt d 16 4
def ctPeb (d : List Byte) : Nat := bytesAt d 20 4
def ctLstr (d : List Byte) : Nat := bytesAt d 24 4
def ctLbytes (d : List Byte) : Nat := bytesAt d 28 4
def ctWr (d : List Byte) : Nat := bytesAt d 32 8 % 2 ^ 52
def ctWlog (d : List Byte) : Nat := bits (bytesAt d 32 8) 52 4
def ctChk (d : List Byte) : Nat := bytesAt d 40 8 % 2 ^ 52
def ctSsl (d : List Byte) (l : Nat) : Bool := bit (bytesAt d 48 32) l

/-! ### Guarded regions (R288, R300) -/

/-- A run of bytes: virtual address and length. -/
abbrev Run := Nat × Nat

/-- Whether a run touches the region of a layer above the block's level (R288, R300). -/
def blkGuards (d : List Byte) (b : RepBlk) (r : Run) : Bool :=
  (List.range (ctNl d - b.lvl)).any (fun i =>
    let lo := b.addr + (b.lvl + i) * ctLstr d
    decide (r.1 < lo + ctLbytes d) && decide (lo < r.1 + r.2))

/-- A run touches a guarded region of a context of an address space (R300). -/
def Rep.guardsRun (r : Rep) (pid : PartId) (asid : BitVec 16) (run : Run) : Bool :=
  r.owner.isSome && r.pid == pid && r.asid == asid && r.blks.any (fun b => blkGuards r.desc b run)

end Sys2Proof.Machine
end

