-- ==== Sys2Proof/Config.lean ====
section
/-! DEFINITION. What spec/ leaves to the implementation or leaves open, as opaque constants: nothing can evaluate them, so a
statement holds whatever they are (log entry 1). -/

namespace Sys2Proof.Config

/-- The byte that reading an address gives when its sector carries another key epoch (R89): by key generation, address and
the stored byte. -/
opaque staleByte : Nat → Nat → Byte → Byte
/-- A free natural number, for a choice that spec/ leaves open, by its number in the run. -/
opaque freeNat : Nat → Nat
/-- A free byte: data that arrive from outside the package (R330), by its number in the run. -/
opaque freeByte : Nat → Byte
/-- A free word: a value that spec/ states no rule for, by its number in the run. -/
opaque freeWord : Nat → Word
/-- An integer that spec/ states no rule for, by what it stands for. -/
opaque openInt : Nat → Int
/-- Whether a partition is granted the host window (0) or the UALink range (1); R84 names the grant, no rule gives its
register. -/
opaque windowGranted : Nat → Nat → Bool
/-- The KIND that a slice watchpoint records for a write of the IOC's own (completion records, context images, residency
reports), which R108 does not name. -/
opaque iocKind : Nat
/-- DETAIL of an interrupt cause entry whose kind the rules give no value for (R347): by the kind and what it concerns. -/
opaque causeDetail : Nat → Nat → Nat
/-- SHAKE256 of a message, 32 bytes (R313, R380): the function is a public standard that spec/ names and does not give. -/
opaque shake256 : List Byte → List Byte
/-- Whether an XMSS signature verifies: key, message, signature (R313, R378). -/
opaque xmssVerify : List Byte → List Byte → List Byte → Bool
/-- Sorrel's XMSS signature: index, message (R379, R380). -/
opaque xmssSign : Nat → List Byte → List Byte
/-- The package serial (R380). -/
opaque serial : List Byte
/-- Firmware images, by a number (R375): the image's bytes, whether it has the format of an image, its version, the key it is signed with and
its signature; and what is fused: the vendor key's digest and the least version. -/
opaque fwImage : Nat → List Byte
opaque fwFormed : Nat → Bool
opaque fwVersion : Nat → BitVec 32
opaque fwKey : Nat → List Byte
opaque fwSig : Nat → List Byte
opaque fusedDigest : List Byte
opaque fusedVersion : BitVec 32

end Sys2Proof.Config
end

