-- ==== Sys2Proof/Machine/Labels.lean ====
section
/-! DEFINITION. Label sets and their joins (R304 to R308), the release gate's judgement and its drop record (R311 to R314). -/

namespace Sys2Proof.Machine

/-- Plain state steps that cannot stop. -/
abbrev SM := StateM State

/-- The origin mask of a label id (R305): 0 is empty, 1,023 all 64, a free entry counts as 1,023. -/
def maskOf (l : LabelSt) (id : Label) : Word :=
  if id = 0 then 0
  else if id.toNat = 1023 then BitVec.allOnes 64
  else match l.table.find? (fun e => e.id == id.toNat) with
    | some e => e.mask
    | none => BitVec.allOnes 64

/-- A label id as it counts (R305): an id that names a free entry counts as 1,023 wherever it is met. -/
def liveId (l : LabelSt) (id : Label) : Label :=
  if id = 0 || l.table.any (fun e => e.id == id.toNat) then id else 1023

def popcount (n : Nat) (w : Nat) : Nat := ((List.range n).filter (fun i => bit w i)).length

/-- The lowest free id of 1 to 1,022 (R306). -/
def lowestFreeId (l : LabelSt) : Option Nat :=
  ((List.range 1022).map (· + 1)).find? (fun i => !l.table.any (fun e => e.id == i))

/-- The live entry with the fewest origins whose mask contains the union, ties to the lowest id; 1,023 qualifies (R306). -/
def bestSuperset (l : LabelSt) (m : Word) : Nat :=
  let cands := (l.table.filter (fun e => e.mask &&& m == m)).map (fun e => (popcount 64 e.mask.toNat, e.id))
  (cands.foldl (fun b c => if c.1 < b.1 || (c.1 == b.1 && c.2 < b.2) then c else b) (64, 1023)).2

/-- The partition is noted as a producer of the entry (R307). -/
def noteMaker (l : LabelSt) (id : Nat) (p : PartId) : LabelSt :=
  { l with table := l.table.map (fun e => if e.id == id then { e with makers := e.makers ||| BitVec.ofNat 32 (2 ^ p.val) } else e) }

def satInc32 (w : Word32) : Word32 := if w = BitVec.allOnes 32 then w else w + 1

/-- The IOC's resolution of a join (R306, R307): an existing entry, a new one, or a superset with LBLFULL counted. -/
def resolveJoin (p : PartId) (x y : Label) (s : State) : Label × State :=
  let a := liveId s.labels x
  let b := liveId s.labels y
  if a = 0 then (b, s) else if b = 0 then (a, s) else if a = b then (a, s)
  else
    let l := s.labels
    let m := maskOf l a ||| maskOf l b
    if m = BitVec.allOnes 64 then (1023, s)
    else match l.table.find? (fun e => e.mask == m) with
      | some e => (BitVec.ofNat 10 e.id, { s with labels := noteMaker l e.id p })
      | none =>
        match lowestFreeId l with
        | some i =>
          (BitVec.ofNat 10 i, { s with labels := noteMaker { l with table := { id := i, mask := m, makers := 0 } :: l.table } i p })
        | none =>
          let i := bestSuperset l m
          (BitVec.ofNat 10 i,
            { s with labels := { noteMaker l i p with lblcnt := satInc32 l.lblcnt }, out := s.out ++ [.event 0x11] })

/-- A pair in a die's combining cache (R306), in either order. -/
def cached (s : State) (die : Fin 4) (a b : Label) : Option Label :=
  ((rd s.labels.caches die).find? (fun t => (t.1 == a && t.2.1 == b) || (t.1 == b && t.2.1 == a))).map (fun t => t.2.2)

/-- label_join on a die (R306): 512 cached pairs; a miss is resolved at the IOC and cached, the oldest pair leaving. The
partition is a producer of the entry whether the pair hits or misses (R307). -/
def joinAt (die : Fin 4) (p : PartId) (x y : Label) (s : State) : Label × State :=
  let a := liveId s.labels x
  let b := liveId s.labels y
  if a = 0 then (b, s) else if b = 0 then (a, s) else if a = b then (a, s)
  else match cached s die a b with
    | some r => (r, { s with labels := noteMaker s.labels r.toNat p })
    | none =>
      let (r, s1) := resolveJoin p a b s
      (r, { s1 with labels := { s1.labels with
              caches := wr s1.labels.caches die (((a, b, r) :: rd s1.labels.caches die).take 512) } })

/-- label_join for a unit of a core. -/
def joinL (c : CoreId) (a b : Label) : SM Label := fun s => joinAt (dieOf c) (s.core c).id.pid a b s

/-- label_join over a list. -/
def joinAll (die : Fin 4) (p : PartId) (ls : List Label) : SM Label :=
  ls.foldlM (fun acc l => fun s => joinAt die p acc l s) 0

/-! ### The release gate (R311 to R314) -/

/-- Whether one sector's label passes toward a destination class (R311). -/
def sectorPasses (l : LabelSt) (cls : Nat) (id : Label) : Bool :=
  let m := maskOf l id
  decide (id = 0) ||
    (decide (popcount 64 m.toNat = 1) && l.origins.any (fun o => bit m.toNat o.1 && bit o.2.auth.toNat cls)) ||
    l.policies.any (fun p => p.2.omask == m && bit p.2.cls.toNat cls)

/-- A packet passes whole or not at all (R311). -/
def gatePasses (s : State) (cls : Nat) (ids : List Label) : Bool := ids.all (sectorPasses s.labels cls)

/-- The label of the first denied sector. -/
def firstDenied (s : State) (cls : Nat) (ids : List Label) : Label := (ids.find? (fun i => !sectorPasses s.labels cls i)).getD 0

/-- A new entry of the interrupt cause table, with its MSI (R347). -/
def raiseCause (kind : Nat) (pid : PartId) (vd : Nat) (job : Nat) (queue : Nat) (detail : Nat) (s : State) : State :=
  let s : State := { s with out := s.out ++ [OutMsg.msi pid.val] }
  if (s.ctprod - s.ctcons).toNat = 4096 then s.updPart pid (fun p => { p with lost := satInc32 p.lost })
  else
    let w0 := wd (detail % 2 ^ 24 * 2 ^ 40 + queue % 2 ^ 13 * 2 ^ 24 + job % 2 ^ 12 * 2 ^ 12 + vd % 8 * 2 ^ 9 + pid.val * 2 ^ 4 + kind)
    { s with causes := (s.causes ++ [{ w0 := w0, time := s.time }]), ctprod := s.ctprod + 1 }

/-- A dropped packet: RELCNT and the latched RELREC (R312, R314). -/
def gateDrop (cls : Nat) (port : Nat) (job : Nat) (ids : List Label) (s : State) : State :=
  let l := s.labels
  let rec' : Word :=
    if bit l.relrec.toNat 63 then l.relrec
    else wd (2 ^ 63 + (liveId l (firstDenied s cls ids)).toNat * 2 ^ 35 + port % 32 * 2 ^ 30 + cls % 4 * 2 ^ 28 + job % 4096)
  { s with labels := { l with relcnt := satInc32 l.relcnt, relrec := rec' } }

end Sys2Proof.Machine
end

