-- ==== Sys2Proof/Machine/Snapshot.lean ====
section
/-! DEFINITION. What the host reads of the RO and W1C registers, and the snapshot latch that copies them (R105, R369, R371). -/

namespace Sys2Proof.Machine

/-- Offsets of the blocks in BAR 0 (R371). -/
def partBlock (p : PartId) : Nat := 0x400000 + p.val * 0x20000
def coreBlock (c : CoreId) : Nat := 0x1000000 + c.val * 0x20000
def sliceBlock (k : Fin 32) : Nat := 0x3000000 + k.val * 0x20000

/-- BOOTST.STATE (R375). -/
def BootState.code : BootState → Nat
  | .reset => 0 | .verify => 1 | .meminit => 2 | .ready => 3 | .failed => 4

/-- BOOTST (R375). -/
def bootst (b : Boot) : Word := wd (b.slot.toNat % 2 * 2 ^ 12 + b.code.toNat * 16 + b.st.code)

/-- The package clusters of a partition (R341). -/
def Part.clusters (q : Part) : List ClusterId :=
  (List.finRange 112).filter (fun c => if c.val < 64 then bit q.pclu0.toNat c.val else bit q.pclu1.toNat (c.val - 64))

/-- The slices of a partition (R86). -/
def Part.sliceIds (q : Part) : List (Fin 32) :=
  (List.finRange 32).filter (fun k => decide (bits q.psl.toNat 0 5 ≤ k.val) && decide (k.val < bits q.psl.toNat 0 5 + 2 ^ bits q.psl.toNat 8 3))

/-- SAVEWC: ceil(120 × clusters / 112) µs (R341). -/
def Part.savewc (q : Part) : Nat := (120 * q.clusters.length + 111) / 112

/-- VDSTAT (R342). -/
def VDev.vdstat (v : VDev) : Word := wd (v.bkt.toNat * 2 ^ 48 + v.qst.toNat * 2 ^ 32 + v.qeff.toNat)

/-- SNAPCTL as read (R369): TRIG reads zero. -/
def Part.snapctl (q : Part) : Word :=
  wd (q.snapSrc.toNat * 256 + (if q.snapFired then 2 else 0) + (if q.snapArm then 1 else 0))

/-- INVSTAT (R98). -/
def Part.invstat (q : Part) : Word :=
  wd ((if q.invErr then 4 else 0) + (if q.invDone then 2 else 0) + (if q.inv.isSome then 1 else 0))

/-- MBSTAT (R378). -/
def Boot.mbstat (b : Boot) : Word := wd (b.mbStatus.toNat * 256 + (if b.mbDone then 2 else 0) + (if b.mbBusy then 1 else 0))

/-- RO and W1C registers of the IOC block below offset 0x1_0000. -/
def iocRo (s : State) : List (Nat × Word) :=
  [(0x008, bootst s.boot), (0x010, s.hprec), (0x018, s.hpcnt.setWidth 64), (0x200, s.labels.relrec),
   (0x208, s.labels.relcnt.setWidth 64), (0x210, s.labels.lblcnt.setWidth 64)] ++
  (List.finRange 19).map (fun p => (0x240 + 8 * p.val, (rd s.labels.inlbl p).setWidth 64)) ++
  [(0x1010, s.boot.mbstat), (0x1018, s.boot.xmssidx.setWidth 64), (0x3008, s.pwr.pwrnow.setWidth 64),
   (0x3010, if s.pwr.trip then 1 else 0)]

/-- RO and W1C registers of a partition block. -/
def partRo (q : Part) : List (Nat × Word) :=
  [(0x018, q.invstat), (0x088, wd q.savewc), (0x0A0, q.ftrec0), (0x0A8, q.ftrec1), (0x0B0, q.ftrec2), (0x0D0, q.snapctl),
   (0x0D8, q.snaptime)] ++
  (List.finRange 8).map (fun v => (0x118 + 0x20 * v.val, (rd q.vdevs v).vdstat))

/-- RO and W1C registers of a core debug block. -/
def coreRo (d : Debug) : List (Nat × Word) :=
  [(0x100, d.racerec), (0x108, d.racepa)] ++ (List.finRange 4).map (fun i => (0x300 + 8 * i.val, rd d.snapPc i)) ++
  [(0x320, d.snapSt), (0x328, d.snapTq0), (0x330, d.snapTq1), (0x338, d.snapJ)]

/-- RO and W1C registers of a slice debug block. -/
def sliceRo (k : Slice) : List (Nat × Word) := [(0x080, k.wsrec), (0x088, k.wshit), (0x090, k.wsovf.setWidth 64)]

/-- Strand state codes (R369). -/
def StrandSt.code : StrandSt → Nat
  | .notStarted => 0 | .issuing => 1 | .waiting => 2 | .stoppedTrap => 3 | .retired => 4 | .stoppedPre => 5

/-- The next PC of a strand as the snapshot shows it: bits [51:2] (R369). -/
def snapPcOf (k : Core) : Strand → Word
  | .C => wd (bits k.seq.pc.toNat 2 50 * 4)
  | st => wd (bits (k.eng st).pc.toNat 2 50 * 4)

/-- A core's debug block latches the strands' PCs and states, the queue counts and the journal counts (R369). -/
def latchCore (k : Core) : Core :=
  let t (i : Fin 16) : Nat := (rd k.tok i).toNat
  { k with dbg := { k.dbg with
      snapPc := ⟨#[snapPcOf k .C, snapPcOf k .L, snapPcOf k .X, snapPcOf k .S], rfl⟩,
      snapSt := wd (k.st.c.code + 16 * k.st.l.code + 256 * k.st.x.code + 4096 * k.st.s.code),
      snapTq0 := wd (((List.finRange 8).map (fun i => t ⟨i.val, by omega⟩ * 2 ^ (8 * i.val))).sum),
      snapTq1 := wd (((List.finRange 8).map (fun i => t ⟨8 + i.val, by omega⟩ * 2 ^ (8 * i.val))).sum),
      snapJ := wd (k.head % 2 ^ 32 * 2 ^ 32 + k.low % 2 ^ 32) } }

/-- The cores of a partition. -/
def Part.cores (q : Part) : List CoreId := (q.clusters.map (fun cl => [coreA cl, coreB cl])).flatten

/-- The armed trigger fires (R369): ARM clears, FIRED and SRC and SNAPTIME are set, every block of the partition latches at one
TIME, each block's page at block base + 0x1_0000; the pages of other blocks stay. Not armed, it has no effect. -/
def fireSnap (p : PartId) (src : Nat) (s : State) : State :=
  let q := s.part p
  if !q.snapArm then s
  else
    let s1 := q.cores.foldl (fun s c => s.updCore c latchCore) s
    let page (base : Nat) (rs : List (Nat × Word)) := rs.map (fun r => (base + 0x10000 + r.1, r.2))
    let s2 := s1.updPart p (fun q =>
      { q with snapArm := false, snapFired := true, snapSrc := BitVec.ofNat 3 src, snaptime := s.time })
    let all := page 0 (iocRo s1) ++ page (partBlock p) (partRo (s2.part p)) ++
      (q.cores.map (fun c => page (coreBlock c) (coreRo (s1.core c).dbg))).flatten ++
      (q.sliceIds.map (fun k => page (sliceBlock k) (sliceRo (s1.slice k)))).flatten
    { s2 with snaps := all ++ s2.snaps.filter (fun o => !all.any (fun r => r.1 == o.1)) }

end Sys2Proof.Machine
end

