-- ==== Sys2Proof/Machine/Mem.lean ====
section
/-! DEFINITION. Main memory, its side bands, slices and dirty sectors, translation, and one access by any agent (R84 to R109,
R129 to R131, R311). Nothing here raises a trap: an access answers data or the fault that its caller raises. -/

namespace Sys2Proof.Machine

/-! ### Sorted lists as maps in one canonical form -/

/-- The value at a key of a sorted list; an unlisted key reads as `d`. -/
def mapGet {α : Type} (d : α) : List (Nat × α) → Nat → α
  | [], _ => d
  | (k, v) :: t, a => if k = a then v else if a < k then d else mapGet d t a

/-- The list with the value at a key replaced; writing `d` removes the entry. -/
def mapSet {α : Type} [DecidableEq α] (d : α) : List (Nat × α) → Nat → α → List (Nat × α)
  | [], a, v => if v = d then [] else [(a, v)]
  | (k, b) :: t, a, v =>
    if k < a then (k, b) :: mapSet d t a v
    else if k = a then (if v = d then t else (a, v) :: t)
    else if v = d then (k, b) :: t else (a, v) :: (k, b) :: t

/-- Keys above a bound, strictly rising, and no entry equal to `d`. -/
def mapWfFrom {α : Type} [DecidableEq α] (d : α) : Nat → List (Nat × α) → Bool
  | _, [] => true
  | lo, (k, v) :: t => decide (lo ≤ k) && decide (v ≠ d) && mapWfFrom d (k + 1) t

/-- The canonical form of the stored bytes: addresses strictly rising, no entry equal to the byte 0 of an unlisted address. -/
def Memory.wf (m : List Host.Cell) : Bool := mapWfFrom (0 : Byte) 0 m

/-- The stored byte at a physical address (log entry 3: an unlisted byte is 0). -/
def State.byteAt (s : State) (a : Nat) : Byte := mapGet 0 s.mem a

def Side.none : Side := { lbl := 0, epoch := 0, poison := false, written := false }
def State.sideAt (s : State) (sector : Nat) : Side := mapGet Side.none s.side sector

/-- Bytes stored from an address on. -/
def putBytes (m : List Host.Cell) (a : Nat) : List Byte → List Host.Cell
  | [] => m
  | b :: bs => putBytes (mapSet 0 m a b) (a + 1) bs

/-! ### The physical map (R84 to R86) -/

def paLocal (pa : Nat) : Bool := decide (pa < 2 ^ 39)
def paHost (pa : Nat) : Bool := decide (2 ^ 40 ≤ pa) && decide (pa < 2 ^ 41)
def paRemote (pa : Nat) : Bool := decide (2 ^ 47 ≤ pa) && decide (pa < 2 ^ 48)

/-- EN, k and s0 of PSL (R341). -/
def Part.enabled (p : Part) : Bool := bit p.psl.toNat 63
def Part.slices (p : Part) : Nat := 2 ^ bits p.psl.toNat 8 3
def Part.slice0 (p : Part) : Nat := bits p.psl.toNat 0 5
/-- The partition's HBM4 range (R86). -/
def Part.base (p : Part) : Nat := p.slice0 * 2 ^ 34
def Part.inHbm (p : Part) (pa : Nat) : Bool := decide (p.base ≤ pa) && decide (pa < p.base + p.slices * 2 ^ 34)

/-- The enabled partition whose HBM4 holds an address (R86). -/
def partOf (s : State) (pa : Nat) : Option PartId :=
  (List.finRange 32).find? (fun i => (s.part i).enabled && (s.part i).inHbm pa)

/-- The slice of a local address: granules of 512 bytes rotate through the partition's slices (R86); outside every enabled
partition, the slice region of R84. -/
def sliceOf (s : State) (pa : Nat) : Fin 32 :=
  match partOf s pa with
  | some p =>
    let q := s.part p
    Fin.ofNat 32 (q.slice0 + (pa - q.base) / 512 % q.slices)
  | none => Fin.ofNat 32 (pa / 2 ^ 34)

/-- The channel of a local address within its slice (R86). -/
def channelOf (q : Part) (pa : Nat) : Nat := (pa - q.base) / (512 * q.slices) % 8

/-! ### Sectors at their slice (R87 to R89) -/

/-- A sector as read: its 64 bytes, its label, and whether it is poisoned. -/
structure SectorVal where
  bytes : List Byte
  lbl : Label
  poison : Bool
  deriving DecidableEq, Repr

/-- A side band carries the epoch of a slice's current key (R89); one that no write has stamped belongs to the first. -/
def Side.current (sd : Side) (sl : Slice) : Bool := sd.epoch == sl.epoch && (sd.written || decide (sl.keyGen = 0))

/-- A local sector at its slice: of another epoch it reads unrelated bytes with label 0 (R89). -/
def readLocal (s : State) (sector : Nat) : SectorVal :=
  let sd := s.sideAt sector
  let sl := s.slice (sliceOf s (sector * 64))
  let raw := (List.range 64).map (fun i => s.byteAt (sector * 64 + i))
  if sd.current sl then { bytes := raw, lbl := sd.lbl, poison := sd.poison }
  else
    { bytes := (List.range 64).map (fun i => Config.staleByte sl.keyGen (sector * 64 + i) (s.byteAt (sector * 64 + i))),
      lbl := 0, poison := sd.poison }

/-- A fresh free byte run (R330: data that arrive from a remote package). -/
def freshBytes (n : Nat) : SM (List Byte) := fun s =>
  ((List.range n).map (fun i => Config.freeByte (s.freeCtr + i)), { s with freeCtr := s.freeCtr + n })

/-- A fresh free word. -/
def freshWord : SM Word := fun s => (Config.freeWord s.freeCtr, { s with freeCtr := s.freeCtr + 1 })
def freshNat : SM Nat := fun s => (Config.freeNat s.freeCtr, { s with freeCtr := s.freeCtr + 1 })

/-- A write's author, as a slice watchpoint records it (R108): KIND, cluster or package, slot or channel or port, job. -/
structure Author where
  kind : Nat
  clu : Nat
  slot : Nat
  job : Nat
  deriving DecidableEq, Repr

/-- A slice watchpoint's range test (R107): 2^SIZE bytes at PA aligned down. -/
def wpRange (addr size : Nat) : Nat × Nat := let b := addr / 2 ^ size * 2 ^ size; (b, b + 2 ^ size)

/-- A slice watchpoint that a write touches: its index, the first byte of the write within its range, its SNAP bit. -/
structure SliceHit where
  idx : Nat
  first : Nat
  snap : Bool
  deriving DecidableEq, Repr

/-- The slice watchpoints that a write touches, lowest index first (R107). -/
def sliceHits (sl : Slice) (pa len : Nat) : List SliceHit :=
  (List.range 8).filterMap (fun i =>
    let w := sl.ws.toList.getD i Wp.reset
    let c := w.ctl.toNat
    let r := wpRange w.addr.toNat (bits c 1 5)
    if bit c 0 && decide (pa < r.2) && decide (r.1 < pa + len) && decide (0 < len) then
      some { idx := i, first := max pa r.1, snap := bit c 6 } else none)

/-- WSREC of a hit (R108). -/
def wsrecOf (a : Author) (i : Nat) : Word :=
  let slot := if a.kind % 8 = 0 ∨ a.kind % 8 = 1 ∨ a.kind % 8 = 5 then a.slot % 256 else 0
  let job := if a.kind % 8 ≤ 3 then a.job % 4096 else 0
  wd (2 ^ 63 + a.clu % 128 * 2 ^ 28 + slot * 2 ^ 20 + job * 2 ^ 8 + i * 16 + a.kind % 8)

/-- n hits are counted in WSOVF and no more. -/
def countHits (k : Fin 32) (n : Nat) (s : State) : State := s.updSlice k (fun q => { q with wsovf := n.repeat satInc32 q.wsovf })

/-- A write arrives at a slice, whoever issued it (R107, R108). While VALID is set its hits only count. Otherwise the lowest
watchpoint is latched and reported, the others of the same write count, and the snapshot trigger fires if any of them has SNAP
(log entry 46). -/
def watchSlice (a : Author) (pa len : Nat) (s : State) : State :=
  let k := sliceOf s pa
  match sliceHits (s.slice k) pa len with
  | [] => s
  | h :: hs =>
    if bit (s.slice k).wsrec.toNat 63 then countHits k (hs.length + 1) s
    else
      let s1 := countHits k hs.length (s.updSlice k (fun q => { q with wsrec := wsrecOf a h.idx, wshit := wd h.first }))
      match partOf s pa with
      | none => s1
      | some p =>
        let s2 := raiseCause 5 p 0 0 0 (Config.causeDetail 5 k.val) s1
        if (h :: hs).any (fun x => x.snap) then fireSnap p 3 s2 else s2

/-- The bytes of a range that a write of [pa, pa + len) covers. -/
def overlap (pa len a n : Nat) : Nat := min (pa + len) (a + n) - max pa a

/-- The slices count bytes that arrive in the ranges of collective chunks (R322). -/
def countStores (pa len : Nat) (s : State) : State :=
  { s with colls := s.colls.map (fun c =>
      if c.st = .run ∨ c.st = .aborting then
        { c with bytes := c.ranges.foldl (fun m r =>
            let o := overlap pa len r.2.1 r.2.2
            if o = 0 then m else mapSet 0 m r.1 (mapGet 0 m r.1 + o)) c.bytes }
      else c) }

/-- Bytes, label and poison put into a sector at its slice: the epoch is stamped; a sector of another epoch keeps what it reads
as in the bytes not written (R87, R89). -/
def putSector (a : Author) (sector off : Nat) (bs : List Byte) (lbl : Label) (poison : Bool) (s : State) : State :=
  let new := overlay (readLocal s sector).bytes off bs
  let sd : Side := { lbl := lbl, epoch := (s.slice (sliceOf s (sector * 64))).epoch, poison := poison }
  let s1 := { s with mem := putBytes s.mem (sector * 64) new, side := mapSet Side.none s.side sector sd }
  countStores (sector * 64 + off) bs.length (watchSlice a (sector * 64 + off) bs.length s1)

/-- A write that arrives at its slice: only one of all 64 bytes clears poison (R87). -/
def writeLocal (a : Author) (sector off : Nat) (bs : List Byte) (lbl : Label) (s : State) : State :=
  putSector a sector off bs lbl ((readLocal s sector).poison && decide (bs.length < 64)) s

/-! ### Host-link traffic (R341) -/

/-- The three budgets of HLBUD: 64-byte units read and written, translation requests. -/
inductive HlKind where
  | read | write | tr
  deriving DecidableEq, Repr

/-- A kind's limit, 0 for none, and what the current window has used. -/
def hlOf (q : Part) : HlKind → Nat × Nat
  | .read => (bits q.hlbud.toNat 0 16, q.hlUsed.1)
  | .write => (bits q.hlbud.toNat 16 16, q.hlUsed.2.1)
  | .tr => (bits q.hlbud.toNat 32 16, q.hlUsed.2.2)

/-- What a turn has drawn from one count to another goes beyond a window's limit that others have drawn on; a turn that needs more than a
whole window starts in an unused one and counts in the windows that follow (log entry 47). -/
def hlOver (limit was now : Nat) : Bool := decide (limit ≠ 0) && decide (was < now) && decide (limit < now) && decide (0 < was)

/-- Traffic of a partition over the host link is counted in the current window; the agent whose turn exceeds a budget has to wait
(R341; `paced`). -/
def charge (p : PartId) (k : HlKind) (n : Nat) (s : State) : State :=
  if n = 0 then s
  else s.updPart p (fun q => match k with
    | .read => { q with hlUsed := (q.hlUsed.1 + n, q.hlUsed.2.1, q.hlUsed.2.2) }
    | .write => { q with hlUsed := (q.hlUsed.1, q.hlUsed.2.1 + n, q.hlUsed.2.2) }
    | .tr => { q with hlUsed := (q.hlUsed.1, q.hlUsed.2.1, q.hlUsed.2.2 + n) })

/-! ### What leaves the package through the gate (R311, R312) -/

/-- TCAUSE (R267, R351): ASYNC, the strand and SUB, CODE. -/
def causeWord (async : Bool) (st : Nat) (code sub : Nat) : Word :=
  wd ((if async then 2 ^ 63 else 0) + (st % 4 * 64 + sub % 64) * 256 + code % 256)

/-- A task's queue of asynchronous traps takes an entry; a source holds at most one at a time (R355). That a source whose entry still waits
keeps that one, with its cause and TVAL, is the model's choice (log entry 52). -/
def queueTrap (c : CoreId) (t : ATrap) (s : State) : State :=
  if (s.core c).atraps.any (fun q => q.src == t.src) then s else s.updCore c (fun k => { k with atraps := k.atraps ++ [t] })

/-- RELDENY of a task: not queued while an earlier one is (R312, R355). -/
def relDeny (c : CoreId) (tval : Word) (s : State) : State :=
  queueTrap c { cause := causeWord true 0 0x0E 0, tval := tval, src := .gate } s

/-- The ingress label of UALink: ports 1 to 12 hold one (R310, R314). -/
def ualLabel : SM Label := do return rd (← get).labels.inlbl 1

/-- The port index of a packet toward a class: which port of a fabric carries it is left open (R314), a free choice. -/
def freePort (cls : Nat) : SM Nat := do
  if cls = 0 then return 0
  else do
    let k ← freshNat
    return if cls = 1 then 1 + k % 12 else if cls = 2 then 13 + k % 2 else 15 + k % 4

/-- A write that the release gate denies: nothing leaves; the drop is recorded and the caller reports it (R311, R312). A poisoned
sector that a partial write had to read first ends the writer's job (R87, R130). -/
inductive WroteTo where
  | done
  | denied (va : Word)
  | poison
  deriving DecidableEq, Repr

/-- The class of a write that leaves the package (R304). -/
def outClass (pa : Nat) : Nat := if paHost pa then 0 else 1

/-- Whether an off-chip link is down (R331). -/
def State.downAt (s : State) (port : Nat) : Bool := (rd s.links (Fin.ofNat 19 port)).down

/-- A message leaves through a port; traffic for a link that is down waits (R331). -/
def emitAt (port : Nat) (m : OutMsg) (s : State) : State :=
  if s.downAt port then { s with waiting := s.waiting ++ [(port, m)] } else { s with out := s.out ++ [m] }

/-- A message toward a class leaves through a port of its fabric. -/
def emit (cls : Nat) (m : OutMsg) : SM Unit := fun s =>
  let (port, s1) := freePort cls s
  ((), emitAt port m s1)

/-- Bytes written to host memory or to a remote package, where the gate lets them pass (R84, R311, R312). -/
def sendOut (job pa : Nat) (bs : List Byte) (lbl : Label) (va : Word) : SM WroteTo := fun s =>
  if gatePasses s (outClass pa) [lbl] then
    (.done, if paHost pa then { s with mem := putBytes s.mem pa bs }
            else (emit 1 (.ualWrite (bits pa 40 7) (pa % 2 ^ 39) bs [lbl]) s).2)
  else
    let (port, s1) := freePort (outClass pa) s
    (.denied va, gateDrop (outClass pa) port job [lbl] s1)

/-! ### Sectors in an L1 or a stash (R90, R109, R131) -/

def State.line? (s : State) (sector : Nat) : Option Line := s.lines.find? (fun l => l.sector == sector)
def State.dropLine (s : State) (sector : Nat) : State := { s with lines := s.lines.filter (fun l => l.sector != sector) }
/-- The one line of a sector replaced. -/
def State.putLine (s : State) (l : Line) : State := { s with lines := l :: (s.dropLine l.sector).lines }

/-- The cluster that holds a line. -/
def Owner.cluster : Owner → ClusterId
  | .l1 c _ _ => clusterOf c
  | .stash cl _ => cl

/-- The job of the last write into a line. -/
def lineJob (l : Line) : Nat := match l.task with | some (_, j) => j.toNat | none => 0

/-- A dirty sector reaches its slice: KIND 7 and the cluster that held it (R109); its poison goes with it (R87). One of host memory
or of a remote package leaves through the gate, and a drop is reported to the task that wrote it last (R312); of a remote package the
holder keeps a clean copy. -/
def writeback (l : Line) (s : State) : State :=
  let s1 := s.dropLine l.sector
  if paLocal (l.sector * 64) then
    putSector { kind := 7, clu := l.owner.cluster.val, slot := 0, job := 0 } l.sector 0 l.bytes l.lbl l.poison s1
  else
    let s0 := match l.task with
      | some (c, _) => charge (s1.core c).id.pid .write (if l.dirty && paHost (l.sector * 64) then 1 else 0) s1
      | none => s1
    let (r, s2) := if l.dirty then sendOut (lineJob l) (l.sector * 64) l.bytes l.lbl l.va s0 else (.done, s0)
    let s3 := match r, l.task with
      | .denied va, some (c, j) => if (s2.core c).job = some j then relDeny c va s2 else s2
      | _, _ => s2
    if paRemote (l.sector * 64) then s3.putLine { l with dirty := false } else s3

/-- Another agent's access pulls a dirty sector (R109, R131); an access of the same core under another virtual address does so too
(R90). -/
def pull (me : Option Owner) (sector : Nat) (s : State) : State :=
  match s.line? sector with
  | some l => if some l.owner = me then s else writeback l s
  | none => s

/-- A write by another agent makes a stash sector absent (R131). -/
def unpresent (me : Option Owner) (sector : Nat) (s : State) : State :=
  ((List.finRange 112).filter (fun cl => (s.cluster cl).frames.any (fun f => f.ppage == sector / 64))).foldl
    (fun s cl => s.updCluster cl (fun k =>
      { k with frames := k.frames.map (fun f =>
          if f.ppage == sector / 64 && me != some (.stash cl f.idx) then { f with present := f.present.filter (· != sector % 64) } else f) })) s

/-- Another holder's copy of a sector is written back and given up, as before a write by this agent (R131). -/
def claim (me : Option Owner) (sector : Nat) (s : State) : State :=
  let s1 := unpresent me sector (pull me sector s)
  match s1.line? sector with
  | some l => if some l.owner = me then s1 else s1.dropLine sector
  | none => s1

/-- A sector at its home where that is the slice, or host memory with port 0's ingress label (R84, R310). -/
def nearSector (s : State) (sector : Nat) : SectorVal :=
  if paLocal (sector * 64) then readLocal s sector
  else { bytes := (List.range 64).map (fun i => s.byteAt (sector * 64 + i)), lbl := liveId s.labels (rd s.labels.inlbl 0), poison := false }

/-- A sector that no agent holds, from its home: the slice; host memory; the UALink range with free bytes and the label of the port used
(R84, R310, R330). -/
def homeSector (sector : Nat) : SM SectorVal := fun s =>
  let pa := sector * 64
  if paRemote pa then
    let (bs, s1) := freshBytes 64 s
    let (l, s2) := ualLabel s1
    ({ bytes := bs, lbl := liveId s2.labels l, poison := false }, (emit 1 (.ualRead (bits pa 40 7) (pa % 2 ^ 39) 64) s2).2)
  else (nearSector s sector, s)

/-- A coherent read of one sector by an agent: the copy that some agent holds, pulled if it is another's, or the sector's home. A
stash keeps what it fetched from a remote package. -/
def readSector (me : Option Owner) (sector : Nat) : SM SectorVal := fun s =>
  let s1 := pull me sector s
  match s1.line? sector with
  | some l => ({ bytes := l.bytes, lbl := l.lbl, poison := l.poison }, s1)
  | none =>
    let (v, s2) := homeSector sector s1
    match me, paRemote (sector * 64) with
    | some (.stash cl i), true =>
      (v, s2.putLine { sector := sector, owner := .stash cl i, bytes := v.bytes, lbl := v.lbl, poison := false, dirty := false,
                       task := none, va := 0 })
    | _, _ => (v, s2)

/-- A coherent write of a run of one sector: into the agent's own cache as a dirty sector, or, of a local one, to the slice. `lbl`
is the label the sector takes (R94); `old` is what the cached sector held before, or its home (R130). Poison stays unless all 64 bytes are
written. -/
def writeSector (hold : Option Line) (a : Author) (sector off : Nat) (bs : List Byte) (lbl : Label) : SM Unit := fun s =>
  match hold with
  | some l =>
    let s1 := claim (some l.owner) sector s
    let old : SectorVal := match s1.line? sector with
      | some k => { bytes := k.bytes, lbl := k.lbl, poison := k.poison }
      | none => nearSector s1 sector
    ((), s1.putLine { l with sector := sector, bytes := overlay old.bytes off bs, lbl := lbl,
                             poison := old.poison && decide (bs.length < 64), dirty := true })
  | none => ((), writeLocal a sector off bs lbl (claim none sector s))

/-! ### Physical accesses by agents without a cache: walkers, the IOC, the fabrics, the host port (R84, R94, R97, R310) -/

/-- The runs of [pa, pa + n) inside sectors: sector, offset, length. -/
def sectorRuns (pa n : Nat) : List (Nat × Nat × Nat) :=
  if n = 0 then []
  else (List.range ((pa + n - 1) / 64 - pa / 64 + 1)).map (fun i =>
    let lo := max pa ((pa / 64 + i) * 64)
    let hi := min (pa + n) ((pa / 64 + i + 1) * 64)
    (pa / 64 + i, lo % 64, hi - lo))

/-- Physical bytes with the labels of their sectors, and whether one is poisoned. -/
structure PhysGot where
  bytes : List Byte
  lbls : List Label
  poison : Bool
  deriving DecidableEq, Repr

def physRead (pa n : Nat) : SM PhysGot :=
  (sectorRuns pa n).foldlM (fun acc r => do
    let v ← readSector none r.1
    return { bytes := acc.bytes ++ (v.bytes.drop r.2.1).take r.2.2, lbls := acc.lbls ++ [v.lbl], poison := acc.poison || v.poison })
    { bytes := [], lbls := [], poison := false }

/-- A write with an ingress label and page label 0: a whole sector takes it, a part joins the label it had (R94, R310). -/
def physWrite (a : Author) (lbl : Label) (pa : Nat) (bs : List Byte) : SM Unit := do
  let _ ← (sectorRuns pa bs.length).foldlM (fun (rest : List Byte) r => do
    let s : State ← get
    let pid := (partOf s pa).getD 0
    let old : Label ← if r.2.2 = 64 then pure 0 else fun s => let (v, s1) := readSector none r.1 s; (v.lbl, s1)
    let l ← fun s => joinAt 0 pid old lbl s
    writeSector none a r.1 r.2.1 (rest.take r.2.2) l
    return rest.drop r.2.2) bs
  return ()

/-- The 64-byte units of a run of bytes. -/
def unitsIn (pa n : Nat) : Nat := (sectorRuns pa n).length

/-! ### Page tables (R92 to R97) -/

/-- A translation fault: stage, level, kind (R96). With `poison` it is none of R96: a sector that the access must read first is
poisoned, so that it delivers nothing and its job ends (R87). -/
structure PFault where
  stage : Nat
  level : Nat
  kind : Nat
  poison : Bool := false
  deriving DecidableEq, Repr

def PFault.poisoned : PFault := { stage := 0, level := 0, kind := 0, poison := true }

/-- What an access needs (R94). -/
inductive Acc where
  | read | write | atomic | fetch
  deriving DecidableEq, Repr

def Acc.needR : Acc → Bool
  | .read | .atomic => true
  | _ => false
def Acc.needW : Acc → Bool
  | .write | .atomic => true
  | _ => false
def Acc.needX : Acc → Bool
  | .fetch => true
  | _ => false

/-- A malformed entry of a level (R93, R96). -/
def pteMalformed (e lev : Nat) : Bool :=
  decide (bits e 58 6 ≠ 0) || decide (bits e 5 2 ≠ 0) ||
  (if bit e 1 then decide (lev = 3) || decide (bits e 2 10 ≠ 0) || decide (bits e 48 10 ≠ 0)
   else decide (lev = 0) || decide (bits e 8 2 = 3) || (bit e 7 && decide (lev ≠ 3)) ||
     (decide (lev = 2) && decide (bits e 12 9 ≠ 0)) || (decide (lev = 1) && decide (bits e 12 18 ≠ 0)))

/-- The output of a leaf (R92): the page of the level with the offset of the input. -/
def pageOut (e lev inp : Nat) : Nat :=
  let sz := if lev = 1 then 30 else if lev = 2 then 21 else 12
  bits e 12 36 * 2 ^ 12 / 2 ^ sz * 2 ^ sz + inp % 2 ^ sz

/-- The index of a level (R92). -/
def pteIndex (stage lev inp : Nat) : Nat :=
  match lev with
  | 0 => if stage = 1 then bits inp 39 13 else bits inp 39 9
  | 1 => bits inp 30 9
  | 2 => bits inp 21 9
  | _ => bits inp 12 9

/-- The sixteen entries of a 64 KiB page agree but for OA[15:12], which counts (R93). -/
def ctAgree (es : List Nat) : Bool :=
  (List.range 16).all (fun i =>
    let e := es.getD i 0
    decide (setBits e 12 4 0 = setBits (es.getD 0 0) 12 4 0) && decide (bits e 12 4 = i))

/-- A leaf as a walk found it: its output address, the entry, and how many 4 KiB pages it maps (R92). -/
structure Leaf where
  out : Nat
  pte : Nat
  span : Nat
  deriving DecidableEq, Repr

/-- The pages that a leaf of a level maps, without CT (R92). -/
def levelSpan (lev : Nat) : Nat := if lev = 1 then 2 ^ 18 else if lev = 2 then 2 ^ 9 else 1

/-- The sixteen entries of a 64 KiB page's group. -/
def groupOf (bs : List Byte) : List Nat := (List.range 16).map (fun i => bytesAt bs (8 * i) 8)

/-- A level-3 leaf with CT: where the group disagrees, any one of its entries may serve (R93), a free choice; the one taken must
itself be valid and well formed (R96, R97). -/
def ctLeaf (stage : Nat) (es : List Nat) (e inp : Nat) : SM (Except PFault Leaf) := do
  if ctAgree es then return .ok { out := pageOut e 3 inp, pte := e, span := 16 }
  else do
    let k ← freshNat
    let t := es.getD (k % 16) e
    return if !bit t 0 then .error { stage := stage, level := 3, kind := 1 }
      else if pteMalformed t 3 then .error { stage := stage, level := 3, kind := 2 }
      else if bit t 7 then .ok { out := bits t 16 32 * 2 ^ 16 + inp % 2 ^ 16, pte := t, span := 16 }
      else .ok { out := pageOut t 3 inp, pte := t, span := 1 }

/-- What an entry read at a level says (R95, R96): a fault, the next table, or a leaf, of which a 64 KiB one reads its group. -/
def walkEntry (stage lev inp e : Nat) (next : Nat → SM (Except PFault Leaf)) (group : SM (Except PFault (List Byte))) :
    SM (Except PFault Leaf) := do
  if !bit e 0 then return .error { stage := stage, level := lev, kind := 1 }
  else if pteMalformed e lev then return .error { stage := stage, level := lev, kind := 2 }
  else if bit e 1 then next (bits e 12 36 * 2 ^ 12)
  else if bit e 7 then do
    match ← group with
    | .error f => return .error f
    | .ok bs => ctLeaf stage (groupOf bs) e inp
  else return .ok { out := pageOut e lev inp, pte := e, span := levelSpan lev }

/-- Table bytes at a physical address, for a partition; a poisoned sector delivers none (R87), a table in host memory is a translation
request over the host link (R341; log entry 47). -/
def tablePhys (p : PartId) (pa n : Nat) : SM (Except PFault (List Byte)) := do
  if paHost pa then modify (charge p .tr 1)
  let g ← physRead pa n
  return if g.poison then .error PFault.poisoned else .ok g.bytes

/-- Stage two (R95): levels from `lev` on. -/
def walk2 (p : PartId) (inp : Nat) : (fuel lev table : Nat) → SM (Except PFault Leaf)
  | 0, _, _ => return .error { stage := 2, level := 3, kind := 2 }
  | fuel + 1, lev, table => do
    let ea := table + 8 * pteIndex 2 lev inp
    match ← tablePhys p ea 8 with
    | .error f => return .error f
    | .ok bs => walkEntry 2 lev inp (leNat bs) (walk2 p inp fuel (lev + 1)) (tablePhys p (ea / 128 * 128) 128)

/-- Stage two from its root: VDROOT with V clear is a stage-two INVALID fault at level 0 (log entry 11). -/
def walkIpa (p : PartId) (root : Word) (ipa : Nat) : SM (Except PFault Leaf) :=
  if bit root.toNat 0 then walk2 p ipa 4 0 (bits root.toNat 12 36 * 2 ^ 12)
  else return .error { stage := 2, level := 0, kind := 1 }

/-- The output lies where the partition may reach (R84, R85). -/
def inRanges (s : State) (p : PartId) (pa : Nat) : Bool :=
  (paLocal pa && (s.part p).inHbm pa) ||
  (paHost pa && Config.windowGranted p.val 0) ||
  (paRemote pa && Config.windowGranted p.val 1 && !bit pa 39 && bit s.ualnum.toNat 7 &&
    decide (bits pa 40 7 ≠ bits s.ualnum.toNat 0 7))

/-- A stage-one table read: its address passes stage two, needs stage-two R, and lies in a range of the partition, for it is the
output of a translation (R84, R94, R95; log entry 11). -/
def tableRead (p : PartId) (root : Word) (ea n : Nat) : SM (Except PFault (List Byte)) := do
  match ← walkIpa p root ea with
  | .error f => return .error f
  | .ok l =>
    if !bit l.pte 2 then return .error { stage := 2, level := 0, kind := 3 }
    else if !inRanges (← get) p l.out then return .error { stage := 2, level := 0, kind := 5 }
    else tablePhys p l.out n

/-- Stage one (R95). -/
def walk1 (p : PartId) (root : Word) (inp : Nat) : (fuel lev table : Nat) → SM (Except PFault Leaf)
  | 0, _, _ => return .error { stage := 1, level := 3, kind := 2 }
  | fuel + 1, lev, table => do
    let ea := table + 8 * pteIndex 1 lev inp
    match ← tableRead p root ea 8 with
    | .error f => return .error f
    | .ok bs => walkEntry 1 lev inp (leNat bs) (walk1 p root inp fuel (lev + 1)) (tableRead p root (ea / 128 * 128) 128)

/-- The stage-one root of an ASID from the partition's ASTAB (R341). -/
def root1 (p : PartId) (asid : BitVec 16) : SM (Except PFault (Option Nat)) := do
  match ← tablePhys p (bits (((← get).part p).astab).toNat 12 36 * 2 ^ 12 + 8 * asid.toNat) 8 with
  | .error f => return .error f
  | .ok bs => return .ok (if bit (leNat bs) 0 then some (bits (leNat bs) 16 32 * 2 ^ 16) else none)

/-- Two leaves combined (R94). -/
def combineLeaves (p : PartId) (vd : BitVec 3) (asid : BitVec 16) (va : Nat) (a b : Leaf) (lbl : Label) : Tlb :=
  let tso := bit a.pte 10 || bit b.pte 10
  { pid := p, vd := vd, asid := asid, vpage := va / 4096, leaf := va / 4096 / a.span * a.span, span := a.span, ppage := b.out / 4096,
    r := bit a.pte 2 && bit b.pte 2, w := bit a.pte 3 && bit b.pte 3, x := bit a.pte 4 && bit b.pte 4,
    cp := BitVec.ofNat 2 (max (bits a.pte 8 2) (bits b.pte 8 2)), tso := tso,
    race := (bit a.pte 11 || bit b.pte 11) && !tso, lbl := lbl }

/-- The combined translation of the page of a virtual address (R94, R95), before permissions and ranges. -/
def walkBoth (p : PartId) (vd : BitVec 3) (asid : BitVec 16) (va : Nat) : SM (Except PFault Tlb) := do
  let root2 := (rd ((← get).part p).vdevs (i3 vd)).root
  match ← root1 p asid with
  | .error f => return .error f
  | .ok none => return .error { stage := 1, level := 0, kind := 1 }
  | .ok (some r1) =>
    match ← walk1 p root2 va 4 0 r1 with
    | .error f => return .error f
    | .ok a =>
      match ← walkIpa p root2 a.out with
      | .error f => return .error f
      | .ok b => do
        let lbl ← fun s => resolveJoin p (BitVec.ofNat 10 (bits a.pte 48 10)) (BitVec.ofNat 10 (bits b.pte 48 10)) s
        return .ok (combineLeaves p vd asid va a b lbl)

/-- The race window of a partition (R102): start and length; none when the size is 0. -/
def raceWindow (q : Part) : Option (Nat × Nat) :=
  if q.rcsize.toNat = 0 then none else some (q.rcwin.toNat, 8 * q.rcsize.toNat)

/-- A TLB's combined translation, or a walk that fills it (R90, R97: invalid entries are never cached). -/
def lookupPage (p : PartId) (vd : BitVec 3) (asid : BitVec 16) (va : Nat) : SM (Except PFault Tlb) := fun s =>
  if 2 ^ 52 ≤ va then (.error { stage := 1, level := 0, kind := 4 }, s)
  else match s.tlb.find? (fun t => t.pid == p && t.vd == vd && t.asid == asid && t.vpage == va / 4096) with
    | some t => (.ok t, s)
    | none =>
      match walkBoth p vd asid va s with
      | (.error f, s1) => (.error f, s1)
      | (.ok t, s1) => (.ok t, { s1 with tlb := t :: s1.tlb })

/-- Permissions, range and race window of a combined translation (R94 to R96). The stage and the level that these faults name are
the model's choice (log entry 11). -/
def checkPage (s : State) (t : Tlb) (acc : Acc) (raceChecked : Bool) : Option PFault :=
  if (acc.needR && !t.r) || (acc.needW && !t.w) || (acc.needX && !t.x) then some { stage := 1, level := 0, kind := 3 }
  else if !inRanges s t.pid (t.ppage * 4096) then some { stage := 2, level := 0, kind := 5 }
  else if t.race && raceChecked then
    match raceWindow (s.part t.pid) with
    | none => some { stage := 1, level := 0, kind := 6 }
    | some (w, n) =>
      if w ≤ t.ppage * 4096 ∧ t.ppage * 4096 < w + n then none else some { stage := 1, level := 0, kind := 6 }
  else none

/-! ### An agent's access -/

/-- Who makes an access: its address space, its name for slice watchpoints, its task, its L1, its stash window (R129, R234). -/
structure Who where
  pid : PartId
  vd : BitVec 3
  asid : BitVec 16
  author : Author
  /-- the core whose task it works for -/
  core : Option CoreId
  /-- the core whose L1 keeps its dirty data of addresses outside the window -/
  cache : Option CoreId
  /-- the window's first byte and the cluster whose stash serves it -/
  window : Option (Nat × ClusterId)
  die : Fin 4
  deriving DecidableEq, Repr

/-- Whether a page lies in the agent's stash window (R129). -/
def Who.inWindow (w : Who) (vpage : Nat) : Option (ClusterId × Nat) :=
  match w.window with
  | some (b, cl) => if b / 4096 ≤ vpage ∧ vpage < b / 4096 + 1024 then some (cl, vpage - b / 4096) else none
  | none => none

/-- A frame's recorded permissions for an access (R130). The stage of this fault is the model's choice (log entry 11). -/
def framePage (cl : ClusterId) (vpage : Nat) (acc : Acc) (f : Frame) : Except PFault Page :=
  if (acc.needR && !f.r) || (acc.needW && !f.w) || (acc.needX && !f.x) then .error { stage := 1, level := 0, kind := 3 }
  else .ok { vpage := vpage, ppage := f.ppage, lbl := f.lbl, cp := 0, tso := f.tso, race := false, stash := some (cl, f.idx),
             r := f.r, w := f.w, x := f.x, leaf := f.leaf, span := f.span }

/-- The frame that a combined translation fills, with no sector present. -/
def frameOf (idx : Nat) (t : Tlb) : Frame :=
  { idx := idx, ppage := t.ppage, r := t.r, w := t.w, x := t.x, tso := t.tso, lbl := t.lbl, leaf := t.leaf, span := t.span, present := [] }

/-- A window page through the stash: the frame's recorded translation, or one made and recorded now (R130). That a race-checked page is
reported as kind 7 before its permissions, its range and its race window are looked at is the model's choice (log entry 51). -/
def stashPage (w : Who) (cl : ClusterId) (idx vpage : Nat) (acc : Acc) : SM (Except PFault Page) := fun s =>
  match (s.cluster cl).frames.find? (fun f => f.idx == idx) with
  | some f => (framePage cl vpage acc f, s)
  | none =>
    match lookupPage w.pid w.vd w.asid (vpage * 4096) s with
    | (.error f, s1) => (.error f, s1)
    | (.ok t, s1) =>
      if t.race then (.error { stage := 1, level := 0, kind := 7 }, s1)
      else match checkPage s1 t acc false with
        | some f => (.error f, s1)
        | none => (framePage cl vpage acc (frameOf idx t), s1.updCluster cl (fun k => { k with frames := frameOf idx t :: k.frames }))

/-- The page that a combined translation gives outside the window. -/
def pageOf (vpage : Nat) (t : Tlb) : Page :=
  { vpage := vpage, ppage := t.ppage, lbl := t.lbl, cp := t.cp, tso := t.tso, race := t.race, stash := none, r := t.r, w := t.w, x := t.x,
    leaf := t.leaf, span := t.span }

/-- One page of an access (R95, R130). -/
def onePage (w : Who) (vpage : Nat) (acc : Acc) : SM (Except PFault Page) := fun s =>
  match w.inWindow vpage with
  | some (cl, idx) => stashPage w cl idx vpage acc s
  | none =>
    match lookupPage w.pid w.vd w.asid (vpage * 4096) s with
    | (.error f, s1) => (.error f, s1)
    | (.ok t, s1) =>
      match checkPage s1 t acc true with
      | some f => (.error f, s1)
      | none => (.ok (pageOf vpage t), s1)

/-- The pages that [va, va + n) touches. -/
def pageRange (va n : Nat) : List Nat :=
  if n = 0 then [] else (List.range ((va + n - 1) / 4096 - va / 4096 + 1)).map (fun i => va / 4096 + i)

/-- A run of bytes of an access, and what the access needs there. -/
structure Touch where
  va : Nat
  len : Nat
  acc : Acc
  deriving DecidableEq, Repr

/-- A page that an access touches, what it needs there, the access's first byte in it, and its sectors that the access touches. -/
structure PageNeed where
  vpage : Nat
  acc : Acc
  first : Nat
  secs : List Nat
  deriving DecidableEq, Repr

/-- A need put in its place: rising pages, each page and kind of access once with the lowest first byte. Of a page that holds source and
destination bytes the source's need comes first, with the first of its own bytes: the model's choice (log entry 51). -/
def addNeed (n : PageNeed) : List PageNeed → List PageNeed
  | [] => [n]
  | m :: ms =>
    if n.vpage = m.vpage ∧ n.acc = m.acc then { m with first := min m.first n.first, secs := m.secs ++ n.secs } :: ms
    else if n.vpage < m.vpage then n :: m :: ms else m :: addNeed n ms

/-- The need of a run in one of its pages. -/
def Touch.need (t : Touch) (vp : Nat) : PageNeed :=
  let lo := max t.va (vp * 4096)
  let hi := min (t.va + t.len) (vp * 4096 + 4096)
  { vpage := vp, acc := t.acc, first := lo, secs := (List.range ((hi - 1) / 64 - lo / 64 + 1)).map (fun i => lo / 64 % 64 + i) }

/-- Every page that the runs of an access touch, lowest first (R100). -/
def pageNeeds (ts : List Touch) : List PageNeed :=
  ts.foldl (fun l t => (pageRange t.va t.len).foldl (fun l vp => addNeed (t.need vp) l) l) []

/-- The line of an agent's L1 that holds a sector of a virtual page (R90). -/
def Who.l1Line (w : Who) (s : State) (vpage sec : Nat) : Option (Line × Tag) :=
  w.cache.bind (fun c =>
    s.lines.findSome? (fun l =>
      match l.tag with
      | some t => if l.owner = .l1 c w.asid vpage ∧ l.sector % 64 = sec ∧ t.pid = w.pid ∧ t.vd = w.vd then some (l, t) else none
      | none => none))

/-- The page that an L1 line has recorded. -/
def tagPage (vpage : Nat) (l : Line) (t : Tag) : Page :=
  { vpage := vpage, ppage := l.sector / 64, lbl := t.lbl, cp := 0, tso := t.tso, race := false, stash := none, r := t.r, w := t.w, x := t.x,
    leaf := vpage, span := 1 }

/-- An access whose sectors of a page all stand in the agent's L1 hits there: no translation takes place, and the lines' own record serves
(R90). None where it misses. -/
def hitPage (w : Who) (s : State) (n : PageNeed) : Option (Except PFault Page) :=
  match w.inWindow n.vpage, n.secs.map (w.l1Line s n.vpage) with
  | none, some (l, t) :: ls =>
    if ls.all (fun q => q.any (fun q => q.1.sector / 64 == l.sector / 64)) then
      some (if (n.acc.needR && !t.r) || (n.acc.needW && !t.w) || (n.acc.needX && !t.x) then .error { stage := 1, level := 0, kind := 3 }
            else .ok (tagPage n.vpage l t))
    else none
  | _, _ => none

/-- A page that an access needs: as the L1 has it, or through a translation (R90, R95). -/
def needPage (w : Who) (n : PageNeed) : SM (Except PFault Page) := fun s =>
  match hitPage w s n with
  | some r => (r, s)
  | none => onePage w n.vpage n.acc s

/-- Every page of a list, in its order; the fault of the first that fails, with the access's first byte in it (R100). -/
def openPages (w : Who) : List PageNeed → SM (Except (PFault × Word) (List Page))
  | [] => return .ok []
  | n :: ns => fun s =>
    match needPage w n s with
    | (.error f, s1) => (.error (f, wd n.first), s1)
    | (.ok p, s1) =>
      match openPages w ns s1 with
      | (.error f, s2) => (.error f, s2)
      | (.ok ps, s2) => (.ok (p :: ps), s2)

/-- Translation of all the runs of an access before any byte moves: the lowest faulting page is reported (R100, R101). -/
def translateRuns (w : Who) (ts : List Touch) : SM (Except (PFault × Word) (List Page)) := openPages w (pageNeeds ts)

/-- Translation of all of an access of one run (R95, R100). -/
def translate (w : Who) (va n : Nat) (acc : Acc) : SM (Except (PFault × Word) (List Page)) :=
  translateRuns w [{ va := va, len := n, acc := acc }]

/-- A run of an access inside one sector: virtual address, length, page, and whether the other runs of the same instruction write what it
leaves of the sector (R225). -/
structure Piece where
  va : Nat
  len : Nat
  page : Page
  whole : Bool := false
  deriving DecidableEq, Repr

def Piece.pa (p : Piece) : Nat := p.page.ppage * 4096 + p.va % 4096
def Piece.sector (p : Piece) : Nat := p.pa / 64

/-- The sector pieces of [va, va + n), in ascending order. -/
def pieces (pages : List Page) (va n : Nat) : List Piece :=
  if n = 0 then []
  else (List.range ((va + n - 1) / 64 - va / 64 + 1)).filterMap (fun i =>
    let lo := max va ((va / 64 + i) * 64)
    let hi := min (va + n) ((va / 64 + i + 1) * 64)
    (pages.find? (fun p => p.vpage == lo / 4096)).map (fun p => { va := lo, len := hi - lo, page := p }))

/-- The runs of a context's own addresses that a piece's bytes stand for, by the pages of its guarded regions (R300). -/
def Rep.namesOf (r : Rep) (p : Piece) : List Run :=
  (r.pages.filter (fun m => m.2 == p.page.ppage)).map (fun m => (m.1 * 4096 + p.va % 4096, p.len))

/-- A piece's sector lies in a guarded region of a context: under its name in the agent's address space, or under another name of the same
memory (R300). -/
def Who.guarded (w : Who) (s : State) (p : Piece) : Bool :=
  let all : Piece := { p with va := p.va / 64 * 64, len := 64 }
  s.reps.any (fun r => r.guardsRun w.pid w.asid (all.va, 64) || (r.owner.isSome && (r.namesOf all).any (fun q => r.blks.any (fun b => blkGuards r.desc b q))))

/-- The cache a piece is kept in: the frame of a window page, else the agent's L1 under policy 0 on a page of local memory that is
not race-checked (R90, R91, R130; log entry 22). A guarded sector is never allocated (R300). -/
def Who.holder (w : Who) (s : State) (p : Piece) : Option Owner :=
  if w.guarded s p then none
  else match p.page.stash with
    | some (cl, idx) => some (.stash cl idx)
    | none => if p.page.cp = 0 && !p.page.race && paLocal p.pa then w.cache.map (fun c => .l1 c w.asid p.page.vpage) else none

/-- A touched stash sector is present (R130). -/
def markPresent (o : Option Owner) (sector : Nat) (s : State) : State :=
  match o with
  | some (.stash cl idx) => s.updCluster cl (fun k => { k with frames := k.frames.map (fun f =>
      if f.idx == idx && !f.present.contains (sector % 64) then { f with present := (sector % 64) :: f.present } else f) })
  | _ => s

/-- Data read: the bytes, the delivered label (R94), whether some sector was poisoned (R87). -/
structure Got where
  bytes : List Byte
  lbl : Label
  poison : Bool
  deriving DecidableEq, Repr

/-- A read of this piece moves a unit over the host link: no stash has the sector (R130, R341). -/
def fromHost (s : State) (p : Piece) : Bool :=
  paHost p.pa && (s.line? p.sector).isNone &&
  (match p.page.stash with
   | some (cl, idx) => !(s.cluster cl).frames.any (fun f => f.idx == idx && f.present.contains (p.sector % 64))
   | none => true)

/-- Reading the pieces of a translated access (R94). -/
def readPieces (w : Who) (ps : List Piece) : SM Got :=
  ps.foldlM (fun acc p => do
    let o := w.holder (← get) p
    modify (fun s => charge w.pid .read (if fromHost s p then 1 else 0) s)
    let v ← readSector o p.sector
    modify (markPresent o p.sector)
    let l1 ← fun s => joinAt w.die w.pid v.lbl p.page.lbl s
    let l2 ← fun s => joinAt w.die w.pid acc.lbl l1 s
    return { bytes := acc.bytes ++ (v.bytes.drop (p.pa % 64)).take p.len, lbl := l2, poison := acc.poison || v.poison })
    { bytes := [], lbl := 0, poison := false }

/-- A read without traps: translation of all pages, then the data (R95, R100). -/
def readVirt (w : Who) (va n : Nat) : SM (Except (PFault × Word) Got) := do
  match ← translate w va n .read with
  | .error f => return .error f
  | .ok pages => return .ok (← readPieces w (pieces pages va n))

/-- A part of a sector is written: the label joins the one that the sector has (R94, R225). Of a sector that a cache keeps the rest is
read first; if it is poisoned that read delivers nothing (R87, R130). -/
def oldPart (w : Who) (o : Option Owner) (p : Piece) (l : Label) : SM (Option Label) := do
  if p.len = 64 || p.whole then return some l
  else do
    modify (fun s => charge w.pid .read (if o.isSome && fromHost s p then 1 else 0) s)
    let old ← readSector o p.sector
    if o.isSome && old.poison then return none
    else return some (← fun s => joinAt w.die w.pid old.lbl l s)

/-- The line that a write of an agent makes. -/
def Who.line (w : Who) (o : Owner) (p : Piece) : Line :=
  { sector := p.sector, owner := o, bytes := [], lbl := 0, poison := false, dirty := true,
    task := w.core.map (fun c => (c, BitVec.ofNat 12 w.author.job)), va := wd (p.va / 64 * 64),
    tag := match o with
      | .l1 _ _ _ => some { pid := w.pid, vd := w.vd, r := p.page.r, w := p.page.w, x := p.page.x, tso := p.page.tso, lbl := p.page.lbl }
      | .stash _ _ => none }

/-- One piece of a write (R94): a whole sector takes the data and page labels, a part joins the old label too. A piece that no cache
keeps goes to its slice, or through the gate to host memory or the UALink range. -/
def writePiece (w : Who) (p : Piece) (bs : List Byte) (lbl : Label) : SM WroteTo := do
  let l1 ← fun s => joinAt w.die w.pid lbl p.page.lbl s
  let o := w.holder (← get) p
  if o.isNone && !paLocal p.pa then do
    modify (claim none p.sector)
    modify (charge w.pid .write (if paHost p.pa then 1 else 0))
    sendOut w.author.job p.pa bs l1 (wd p.va)
  else do
    match ← oldPart w o p l1 with
    | none => return .poison
    | some l2 => do
      writeSector (o.map (fun o => w.line o p)) w.author p.sector (p.pa % 64) bs l2
      modify (markPresent o p.sector)
      return .done

/-- All pieces of a translated write, in ascending order; the first denied address is kept. -/
def writePieces (w : Who) (ps : List Piece) (bs : List Byte) (lbl : Label) : SM WroteTo := do
  let r ← ps.foldlM (fun (acc : WroteTo × List Byte) p => do
    let d ← writePiece w p (acc.2.take p.len) lbl
    return (if acc.1 = .done then d else acc.1, acc.2.drop p.len)) (.done, bs)
  return r.1

/-- A write without traps. -/
def writeVirt (w : Who) (va : Nat) (bs : List Byte) (lbl : Label) : SM (Except (PFault × Word) WroteTo) := do
  match ← translate w va bs.length .write with
  | .error f => return .error f
  | .ok pages => return .ok (← writePieces w (pieces pages va bs.length) bs lbl)

/-! ### Race records (R102, R103, R247) -/

/-- The address of a sector's race record (R102). -/
def raceAddr (q : Part) (pa : Nat) : Nat := q.rcbase.toNat + (pa / 64 * 64 - q.rcwin.toNat) / 8

/-- The race record of a sector; none where its own sector is poisoned (R87). -/
def readRace (p : PartId) (pa : Nat) : SM (Option Word) := do
  let g ← physRead (raceAddr ((← get).part p) pa) 8
  return if g.poison then none else some (wd (leNat g.bytes))

/-- A race record written through L2 (R104). -/
def writeRace (w : Who) (pa : Nat) (v : Word) : SM Unit := do
  let a := raceAddr ((← get).part w.pid) pa
  let old ← readSector none (a / 64)
  writeSector none w.author (a / 64) (a % 64) (natBytes 8 v.toNat) old.lbl

end Sys2Proof.Machine
end

