-- ==== Sys2Proof/Machine/Ops.lean ====
section
/-! DEFINITION. The named operations that meanings share: how a strand's instruction ends, registers, the taking of a trap and
the return from it (R252, R256, R258, R350 to R358), waits (R284), accesses with their checks (R94 to R106, R247), token
queues (R270, R272), completion of commands (R361). -/

namespace Sys2Proof.Machine

abbrev Out := Host.Outcome State Fault Refusal

/-- How an instruction ends without completing: a trap with its CODE, SUB[5:0] and TVAL, or a wait. Each carries the state at
that point: only work that other agents see as theirs (a pulled sector, a latched record, a place in a line) is in it. -/
inductive Stop where
  | trap (code : Nat) (sub : Nat) (tval : Word) (s : State)
  | wait (s : State)
  deriving DecidableEq, Repr

/-- A meaning's steps. -/
abbrev M := StateT State (Except Stop)

/-- Cause codes (R351). -/
def cILLEGAL : Nat := 0x01
def cSTATUS : Nat := 0x02
def cSVC : Nat := 0x03
def cBRK : Nat := 0x04
def cINTR : Nat := 0x05
def cPF1 : Nat := 0x06
def cPF2 : Nat := 0x07
def cWATCH : Nat := 0x08
def cRACE : Nat := 0x09
def cBANKCONF : Nat := 0x0A
def cSCANALIGN : Nat := 0x0B
def cSRKEY : Nat := 0x0C
def cSTALEBLK : Nat := 0x0D
def cRELDENY : Nat := 0x0E
def cSEMOVF : Nat := 0x0F
def cCHANERR : Nat := 0x10

def trapNow {α : Type} (code : Nat) (tval : Word) (sub : Nat := 0) : M α := fun s => .error (.trap code sub tval s)
def waitNow {α : Type} : M α := fun s => .error (.wait s)
/-- A plain state step inside a meaning. -/
def lift {α : Type} (m : SM α) : M α := fun s => .ok (m s)
def need (b : Bool) (code : Nat) (tval : Word) : M Unit := if b then pure () else trapNow code tval
def waitUnless (b : Bool) : M Unit := if b then pure () else waitNow
def getCore (c : CoreId) : M Core := do return (← get).core c
def modCore (c : CoreId) (f : Core → Core) : M Unit := modify (fun s => s.updCore c f)
/-- The job of a core is to be killed at its next engine-command boundary (R87). -/
def killJobOf (c : CoreId) (s : State) : State :=
  match (s.core c).job with
  | some j => s.updJob j (fun j => { j with killDue := true })
  | none => s
/-- A page fault of R96: the stage's cause, level and kind in SUB. A poisoned table sector delivers nothing and ends the job (R87). -/
def pageFault {α : Type} (c : CoreId) (f : PFault × Word) : M α :=
  if f.1.poison then do
    modify (killJobOf c)
    waitNow
  else trapNow (if f.1.stage = 1 then cPF1 else cPF2) f.2 (f.1.level * 16 + f.1.kind)

/-! ### Registers -/

/-- Reading x[r]; a pending register stalls (R250). -/
def readX (c : CoreId) (r : BitVec 6) : M Word := do
  let k ← getCore c
  waitUnless (!k.pending r)
  return k.xval r
def readXL (c : CoreId) (r : BitVec 6) : M (Word × Label) := do
  let k ← getCore c
  waitUnless (!k.pending r)
  return (k.xval r, k.xlbl r)
/-- Writing x[r]; a pending register stalls; x0 discards (R250). -/
def writeX (c : CoreId) (r : BitVec 6) (v : Word) (lbl : Label) : M Unit := do
  waitUnless (!(← getCore c).pending r)
  modCore c (fun k => k.setX r v lbl)
/-- The destination must not be pending: found before any effect (R250). -/
def needFree (c : CoreId) (r : BitVec 6) : M Unit := do waitUnless (!(← getCore c).pending r)

/-! ### The sequence and traps -/

/-- One step of the sequence (R252). -/
def Seq.advance (q : Seq) (red : Option Word) (ann : Bool) : Seq :=
  { pc := q.n1, n1 := q.n2, n2 := red.getD (q.n2 + 4), ann := if ann then 2 else q.ann, red1 := q.red2, red2 := red.isSome }

/-- SDS.SLOTS at entry (R256). -/
def Seq.slots (q : Seq) : Nat := if q.red2 then 2 else if q.red1 then 1 else 0

/-- A saved sequence register holds bits [51:2] (R267). -/
def pcField (w : Word) : Nat := bits w.toNat 2 50 * 4

/-- Trap entry (R256): the sequence, SLOTS and status are saved; H is set, IE cleared; the sequence continues at TVEC. A wait of
`rdv.end` for the task's commands is left (R284). -/
def enterTrap (k : Core) (src : Option TrapSrc) (cause tval : Word) : Core :=
  let q := k.seq
  { k with
    csr := { k.csr with
      spc := wd (pcField q.pc), snpc := wd (pcField q.n1),
      sds := wd (q.ann.toNat * 2 ^ 56 + q.slots * 2 ^ 54 + pcField q.n2),
      sstat := k.csr.stat, stat := 1, tcause := cause, tval := tval },
    seq := { pc := k.csr.tvec, n1 := k.csr.tvec + 4, n2 := k.csr.tvec + 8, ann := 0, red1 := false, red2 := false },
    st := { k.st with c := .issuing }, handlers := src :: k.handlers, rdvWait := false }

/-- An unhandled trap (R352): the partition's first is latched in FTREC0 to FTREC2, and the job is to be killed (R345). -/
def unhandled (c : CoreId) (cause tval : Word) (s : State) : State :=
  let k := s.core c
  let v := cause.toNat
  let ft (q : Part) : Part :=
    if bit q.ftrec0.toNat 63 then q
    else
      { q with
        ftrec0 := wd (2 ^ 63 + bits v 63 1 * 2 ^ 62 + k.id.jobid.toNat * 2 ^ 32 + k.id.slot.toNat * 2 ^ 24 + bits v 8 8 * 2 ^ 16 + bits v 0 8),
        ftrec1 := tval, ftrec2 := wd (pcField k.seq.pc) }
  (s.updPart k.id.pid ft).updJob k.id.jobid (fun j => { j with killDue := true })

/-- The PC of a strand. -/
def strandPc (k : Core) : Strand → Word
  | .C => k.seq.pc
  | st => (k.eng st).pc

/-- The exemption of R106 lasts one execution of its instruction, the one at the strand's PC. -/
def dropExempt (st : Strand) (k : Core) : Core :=
  { k with wpx := k.wpx.filter (fun e => !(e.strand == st && e.armed && e.pc == strandPc k st)) }

/-- Taking a trap on the C strand, the one operation of every cause (R256, R352): delivered when STAT.H = 0 and TVEC.VEC ≠ 0,
else unhandled. `src` is the source of an asynchronous trap. -/
def takeTrap (c : CoreId) (cause tval : Word) (s : State) (src : Option TrapSrc := none) : State :=
  let k := s.core c
  if !k.csr.inHandler && k.csr.hasVector then s.updCore c (fun k => enterTrap k src cause tval) else unhandled c cause tval s

/-- The return from a trap (R258): sequence and status from the saved registers. -/
def leaveTrap (k : Core) : Core :=
  let r := k.csr
  { k with
    seq := { pc := r.spc, n1 := r.snpc, n2 := wd (pcField r.sds), ann := BitVec.ofNat 2 (bits r.sds.toNat 56 2),
             red1 := decide (bits r.sds.toNat 54 2 = 1), red2 := decide (bits r.sds.toNat 54 2 = 2) },
    csr := { r with stat := r.sstat } }

/-- Whether an asynchronous trap is due at a step boundary (R257, R352). -/
def Core.asyncDue (k : Core) : Bool :=
  !k.csr.inHandler && (!k.atraps.isEmpty || (k.csr.intEnabled && k.dbg.pend))

/-! ### The C strand's instructions -/

/-- A handler of a replay's fault has not returned (R364). -/
def Core.inReplayHandler (k : Core) : Bool := k.handlers.any (fun h => match h with | some (.replay _) => true | _ => false)

/-- A strand may issue: its job is bound and not to be killed, the strand is started and not stopped, the cluster has its
grant (R16, R352, R381). While a replay waits only the C strand does, in the handler of the replay's fault (R364). -/
def mayIssue (s : State) (c : CoreId) (st : Strand) : Bool :=
  let k := s.core c
  (match s.coreJob c with
   | some j => !j.killDue && (match j.st with | .bound => true | .draining _ => true | _ => false)
   | none => false) &&
  (match k.st.get st with | .issuing => true | .waiting => true | _ => false) &&
  (k.replay.isEmpty || (decide (st = .C) && k.inReplayHandler)) && (s.cluster (clusterOf c)).granted

/-- What a completed C instruction does to the sequence. -/
structure Flow where
  red : Option Word := none
  ann : Bool := false
  deriving DecidableEq, Repr

/-- An instruction of the C strand completes: the sequence advances (R252). -/
def finishC (c : CoreId) (f : Flow) (s : State) : State :=
  s.updCore c (fun k =>
    let gw := k.gwait.filter (fun g => g.st != Strand.C)
    { dropExempt .C k with seq := k.seq.advance f.red f.ann, st := { k.st with c := .issuing }, atWfi := false, waitT := none,
                           gwait := gw })

/-- A wait of the C strand: nothing else changes (R24, R284). -/
def parkC (c : CoreId) (s : State) : State := s.updCore c (fun k => { k with st := { k.st with c := .waiting } })

/-! ### Waits abandoned (R284) -/

/-- A waiting C strand leaves every line it stands in: semaphores, flags, its barrier and rendezvous arrivals; a completed final
rendezvous stays so, and only the wait for the task's commands is left. -/
def abandonWaits (c : CoreId) (s : State) : State :=
  let s1 : State := [c, peerOf c].foldl (fun (s : State) d => s.updCore d (fun k : Core =>
    { k with sems := k.sems.map (fun m : Sem => { m with waiters := m.waiters.filter (fun w => w.1 != c) }) })) s
  let s2 := match (s.core c).job with
    | some j => s1.updJob j (fun j =>
        { j with flags := j.flags.map (fun f : Flag => { f with waiters := f.waiters.filter (fun w => w.1 != c) }) })
    | none => s1
  s2.updCore c (fun k =>
    let gw := k.gwait.filter (fun g => g.st != Strand.C)
    { k with phArr := false, arr := { k.arr with c := none }, rdvWait := false, waitT := none, atWfi := false, gwait := gw })

/-- A wait that the C strand is in ends without effect. -/
def leaveWait (c : CoreId) (s : State) : State := if (s.core c).st.c = .waiting then abandonWaits c s else s

/-- A precise trap of the C strand's own instruction (R256, R350): one that waits is abandoned (R284). A watchpoint's is remembered for its
exemption, with the handlers that it is taken in (R106). -/
def trapC (c : CoreId) (code sub : Nat) (tval : Word) (s : State) : State :=
  let s1 := (leaveWait c s).updCore c (fun k =>
    let k1 := dropExempt .C k
    if code = cWATCH then
      { k1 with wpx := { strand := .C, wp := Fin.ofNat 4 sub, pc := k.seq.pc, armed := false, depth := k.handlers.length } :: k1.wpx }
    else k1)
  takeTrap c (causeWord false 0 code sub) tval s1

/-- Running a meaning on the C strand of the current core. -/
def runC (m : CoreId → M Flow) (s : State) : Out :=
  let c := s.cur.1
  if s.cur.2 = .C && mayIssue s c .C then
    match m c s with
    | .ok (f, s1) => .next (finishC c f s1)
    | .error (.trap code sub tval s1) => .next (trapC c code sub tval s1)
    | .error (.wait s1) => .next (parkC c s1)
  else .fault .notIssuing

/-- Running a meaning that replaces the sequence itself. -/
def runRaw (m : CoreId → M Unit) (s : State) : Out :=
  let c := s.cur.1
  if s.cur.2 = .C && mayIssue s c .C then
    match m c s with
    | .ok (_, s1) => .next s1
    | .error (.trap code sub tval s1) => .next (trapC c code sub tval s1)
    | .error (.wait s1) => .next (parkC c s1)
  else .fault .notIssuing

/-- A meaning that only falls through to the next position. -/
def runPlain (m : CoreId → M Unit) : State → Out := runC (fun c => do m c; return {})

/-! ### Agents' accesses -/

/-- The stash window of a bound core (R129). -/
def windowOf (s : State) (c : CoreId) : Option (Nat × ClusterId) :=
  match (s.cluster (clusterOf c)).job with
  | none => none
  | some (j, k) =>
    match s.job? j with
    | none => none
    | some job => if job.hdr.swb = 0 then none else some (job.hdr.swb.toNat + k * 2 ^ 22, clusterOf c)

/-- A strand of a core as an agent (R108, R234). Every access of it to its window goes through the stash, a fetch or the read of a literal or
record as well: R130 does not name those, and this is the model's choice (log entry 22). -/
def strandWho (s : State) (c : CoreId) : Who :=
  let k := s.core c
  { pid := k.id.pid, vd := k.id.vd, asid := k.id.asid,
    author := { kind := 0, clu := (clusterOf c).val, slot := k.id.slot.toNat, job := k.id.jobid.toNat },
    core := some c, cache := some c, window := windowOf s c, die := dieOf c }

/-- An engine that works for the task of a core: transfer engine (KIND 1), state-spill engine (KIND 2). -/
def engineWho (s : State) (c : CoreId) (kind slot : Nat) : Who :=
  let w := strandWho s c
  { w with author := { w.author with kind := kind, slot := slot }, cache := none,
           window := if kind = 1 then w.window else none }

/-- An access of the IOC's own under an address space. It has no cluster: CLU of its writes is 0, the model's choice (log entry 46). -/
def iocWho (pid : PartId) (vd : BitVec 3) (asid : BitVec 16) (kind job : Nat) : Who :=
  { pid := pid, vd := vd, asid := asid, author := { kind := kind, clu := 0, slot := 0, job := job }, core := none, cache := none,
    window := none, die := 0 }

/-- An IOC engine's access that is attributed to the task of a core (R234): repair KIND 3, collective KIND 4. -/
def taskWho (c : CoreId) (pid : PartId) (vd : BitVec 3) (asid : BitVec 16) (kind job : Nat) : Who :=
  let w := iocWho pid vd asid kind job
  { w with author := { w.author with clu := (clusterOf c).val } }

/-- Kinds of access a watchpoint matches (R105). -/
structure WpKind where
  rd : Bool
  wr : Bool
  ex : Bool
  deriving DecidableEq, Repr

/-- The lowest core watchpoint that an access hits and that is not exempt (R105, R106), with its SNAP bit. That of several the lowest is the
one reported, and that only its SNAP fires, is the model's choice (log entry 51). -/
def wpHit (k : Core) (st : Strand) (pc : Word) (va len : Nat) (kd : WpKind) : Option (Nat × Bool) :=
  ((List.range 4).filterMap (fun i =>
    let w := k.dbg.wp.toList.getD i Wp.reset
    let c := w.ctl.toNat
    let r := wpRange w.addr.toNat (bits c 4 5)
    if bit c 0 && ((bit c 1 && kd.rd) || (bit c 2 && kd.wr) || (bit c 3 && kd.ex)) &&
        (!bit c 10 || decide (bits c 16 16 = k.id.asid.toNat)) &&
        decide (va < r.2) && decide (r.1 < va + len) && decide (0 < len) &&
        !k.wpx.any (fun e => e.strand == st && e.armed && e.pc == pc && e.wp.val == i)
    then some (i, bit c 9) else none)).head?

/-- The watchpoint check of an access, before it takes effect (R106). -/
def checkWatch (c : CoreId) (st : Strand) (va len : Nat) (kd : WpKind) : M Unit := do
  let k ← getCore c
  match wpHit k st (strandPc k st) va len kd with
  | none => return ()
  | some (i, snap) => do
    if snap then modify (fireSnap k.id.pid 2)
    trapNow cWATCH (wd va) i

/-- The race check of the sectors of an access (R247, R248), lowest first; RACE latches RACEREC and RACEPA. -/
def checkRace (c : CoreId) (st : Strand) (ps : List Piece) : M Unit :=
  ps.forM (fun p => do
    if p.page.race then do
      let k ← getCore c
      let some rec' ← lift (readRace k.id.pid p.pa) | do modify (killJobOf c); waitNow
      let seen (t : Nat) : BitVec 16 := k.seen.toList.getD t 0
      if raceFree rec' k.id.jobid k.id.phn k.id.slot seen then pure ()
      else do
        let stc := match st with | .C => 0 | .L => 1 | _ => 3
        modCore c (fun k => { k with dbg := { k.dbg with
          racerec := rec', racepa := wd (2 ^ 63 + p.pa / 64 * 64 + stc) } })
        trapNow cRACE (wd (p.va / 64 * 64)))

/-- The writes of race records by a checked write (R247). -/
def stampRace (c : CoreId) (w : Who) (ps : List Piece) : M Unit :=
  ps.forM (fun p => do
    if p.page.race then do
      let k ← getCore c
      lift (writeRace w p.pa (raceRecord k.sync k.id.phn k.id.jobid k.id.slot))
    else pure ())

/-- The translation of an access of a strand, with every check before its effect: pages (R100), watchpoints (R106), races
(R247); in this order (log entry 11). -/
def openAccess (c : CoreId) (st : Strand) (va n : Nat) (acc : Acc) (kd : WpKind) (race : Bool) : M (Who × List Piece) := do
  let w := strandWho (← get) c
  match ← lift (translate w va n acc) with
  | .error f => pageFault c f
  | .ok pages => do
    checkWatch c st va n kd
    let ps := pieces pages va n
    if race then checkRace c st ps
    return (w, ps)

/-- A poisoned sector ends the job at its next engine-command boundary; the read delivers nothing (R87). -/
def poisoned (c : CoreId) (g : Got) : M Unit := do
  if g.poison then do
    modify (killJobOf c)
    waitNow

/-- A strand's read of n bytes with all its checks; the data and the delivered label (R94). -/
def strandRead (c : CoreId) (st : Strand) (va n : Nat) (race : Bool) : M Got := do
  let (w, ps) ← openAccess c st va n .read { rd := true, wr := false, ex := false } race
  let g ← lift (readPieces w ps)
  poisoned c g
  return g

/-- How a write of a task's agent went: a drop by the gate is reported to the task (R312), a poisoned sector ends its job (R87). -/
def wrote (c : CoreId) (r : WroteTo) (s : State) : State :=
  match r with
  | .done => s
  | .denied va => relDeny c va s
  | .poison => killJobOf c s

def reportDrop (c : CoreId) (r : WroteTo) : M Unit := modify (wrote c r)

/-- A strand's write with all its checks (R94, R247). -/
def strandWrite (c : CoreId) (st : Strand) (va : Nat) (bs : List Byte) (lbl : Label) (race : Bool) : M Unit := do
  let (w, ps) ← openAccess c st va bs.length .write { rd := false, wr := true, ex := false } race
  if race then stampRace c w ps
  let r ← lift (writePieces w ps bs lbl)
  reportDrop c r

/-! ### Results and the command journal (R250, R360, R361) -/

/-- x[d] becomes pending (R250). -/
def addPend (c : CoreId) (p : Pend) : M Unit := modCore c (fun k => { k with pend := k.pend ++ [p] })

/-- The journal number n after another: LOW and HEAD are 32-bit counts (R360, R367). -/
def seqAdd (m n : Nat) : Nat := (m + n) % 2 ^ 32

/-- How far a journal number stands past LOW. -/
def Core.past (k : Core) (n : Nat) : Nat := (n + 2 ^ 32 - k.low) % 2 ^ 32

/-- The numbers from LOW up to HEAD (R360): how many, and which. -/
def Core.span (k : Core) : Nat := k.past k.head
def Core.openSeqs (k : Core) : List Nat := (List.range k.span).map (fun i => seqAdd k.low i)

/-- LOW is the lowest number whose DONE is clear (R360). -/
def lowOf (k : Core) : Nat :=
  (k.openSeqs.find? (fun n => !k.journal.any (fun e => e.seq == n && e.done))).getD k.head

/-- With 4,096 commands open, the next one stalls at issue (R360). -/
def jRoom (c : CoreId) : M Unit := do
  let k ← getCore c
  waitUnless (decide (k.span < 4096))

/-- A command takes sequence number HEAD (R360). -/
def jNew (c : CoreId) (guarded : Bool) (i : Instr) (opa opb res : Word) (lbl : Label) : M Nat := do
  jRoom c
  let k ← getCore c
  modCore c (fun k => { k with
    journal := ({ seq := k.head, guarded := guarded, done := false, perf := false, word := encode i, opa := opa, opb := opb,
                  res := res, reslbl := lbl, thr := k.csr.hthresh } :: k.journal).take 4096, head := seqAdd k.head 1 })
  return k.head

def jUpd (seq : Nat) (f : JEntry → JEntry) (k : Core) : Core :=
  { k with journal := k.journal.map (fun e => if e.seq == seq then f e else e) }

/-- The command passes its commit point: RES holds its result (R361). -/
def jPerf (seq : Nat) (res : Word) (lbl : Label) : Core → Core :=
  jUpd seq (fun e => { e with perf := true, res := res, reslbl := lbl })

/-- The command is complete (R361). -/
def jDone (seq : Nat) (k : Core) : Core :=
  let k1 := jUpd seq (fun e => { e with done := true }) k
  { k1 with low := lowOf k1 }

/-- An engine delivers a pending register (R250): the value is written and the journal entry, if any, is complete. -/
def deliverPend (p : Pend) (v : Word) (k : Core) : Core :=
  let k1 := { k.setX p.reg v p.lbl with pend := k.pend.erase p }
  match p.seq with
  | some n => jDone n k1
  | none => k1

/-- A command without a commit point that ends as it issues (R361): its entry is complete in the same step, and x[d] has the value. -/
def jEnds (c : CoreId) (guarded : Bool) (i : Instr) (opa opb : Word) (d : BitVec 6) (v : Word) : M Unit := do
  let k ← getCore c
  let seq ← jNew c guarded i opa opb (k.xval d) (k.xlbl d)
  modCore c (fun k => jDone seq k)
  writeX c d v 0

/-- A command whose result is known as it issues (R361): its entry passes its commit point and is complete in the same step. -/
def jAtOnce (c : CoreId) (guarded : Bool) (i : Instr) (opa opb : Word) (d : BitVec 6) (v : Word) : M Unit := do
  let k ← getCore c
  let seq ← jNew c guarded i opa opb (k.xval d) (k.xlbl d)
  modCore c (fun k => jDone seq (jPerf seq v 0 k))
  writeX c d v 0

/-- The engine behind a pending command has its result (R361). -/
def pendReady (seq : Nat) (v : Word) (k : Core) : Core :=
  { k with pend := k.pend.map (fun p => if p.seq == some seq then { p with val := some v } else p) }

/-! ### Engine strands (R71, R134, R270, R272, R353) -/

def strandNo : Strand → Nat
  | .C => 0 | .L => 1 | .X => 2 | .S => 3

/-- The three other strands in the order C, L, X, S (R71). -/
def othersOf : Strand → List Strand
  | .C => [.L, .X, .S]
  | .L => [.C, .X, .S]
  | .X => [.C, .L, .S]
  | .S => [.C, .L, .X]

/-- The strands a mask names: bit 2 is the first of the three (R71). -/
def maskStrands (st : Strand) (m : BitVec 3) : List Strand :=
  ((othersOf st).zip [2, 1, 0]).filterMap (fun p => if bit m.toNat p.2 then some p.1 else none)

/-- A queue's code: 4 × from + to (R70). -/
def qcode (src dst : Strand) : Nat := 4 * strandNo src + strandNo dst

def waitCodes (st : Strand) (w : BitVec 3) : List Nat := (maskStrands st w).map (fun o => qcode o st)
def giveCodes (st : Strand) (g : BitVec 3) : List Nat := (maskStrands st g).map (fun o => qcode st o)

def Core.tokens (k : Core) (q : Nat) : Nat := (rd k.tok (Fin.ofNat 16 q)).toNat
def Core.addTok (k : Core) (q : Nat) : Core := { k with tok := wr k.tok (Fin.ofNat 16 q) (rd k.tok (Fin.ofNat 16 q) + 1) }
/-- The S strand pops a token of tq.cs: it is ordered after the writes to KTID and KSTEP before that token's push (R48). -/
def popKeys (l : List KeyWrite) : List KeyWrite :=
  (l.dropWhile (fun e => e.before == 0)).map (fun e => { e with before := e.before - 1 })

def Core.popTok (k : Core) (q : Nat) : Core :=
  { k with tok := wr k.tok (Fin.ofNat 16 q) (rd k.tok (Fin.ofNat 16 q) - 1),
           keyw := if q = qcode .C .S then popKeys k.keyw else k.keyw }

/-- The queues to which a strand may not push past an instruction that has not finished: those that the instruction itself pushes (R270), and
every queue where its memory effect is still to come, for a push releases what precedes it (R237). -/
def Flight.holds (f : Flight) : List Nat :=
  match f.rest with
  | .entry _ _ _ _ => ([.C, .L, .X, .S] : List Strand).map (qcode f.st)
  | _ => f.gives

/-- Pushing what finished instructions still owe: in each strand's program order for each queue; a push at 255 waits (R270). -/
def settleFrom : List Flight → List (Strand × Nat) → Core → Core
  | [], _, k => k
  | f :: fs, blocked, k =>
    if f.rest = .push then
      let r := f.gives.foldl (fun (a : List Nat × Core) q =>
        if blocked.contains (f.st, q) || decide (a.2.tokens q = 255) then (a.1 ++ [q], a.2) else (a.1, a.2.addTok q)) ([], k)
      let k1 := settleFrom fs (blocked ++ r.1.map (fun q => (f.st, q))) r.2
      if r.1.isEmpty then k1 else { k1 with flights := { f with gives := r.1 } :: k1.flights }
    else
      let k1 := settleFrom fs (blocked ++ f.holds.map (fun q => (f.st, q))) k
      { k1 with flights := f :: k1.flights }

def settle (k : Core) : Core := settleFrom k.flights [] { k with flights := [] }

/-- A boundary trap of an engine strand: it stops, and the trap is queued for the C strand (R350, R353). An arrival that it stands in is
withdrawn. -/
def trapEng (c : CoreId) (st : Strand) (code sub : Nat) (tval : Word) (s : State) : State :=
  let s1 := s.updCore c (fun k =>
    let gw := k.gwait.filter (fun g => g.st != st)
    let k1 := dropExempt st { k with st := k.st.set st .stoppedTrap, gwait := gw, arr := k.arr.set st none }
    if code = cWATCH then
      { k1 with wpx := { strand := st, wp := Fin.ofNat 4 sub, pc := (k.eng st).pc, armed := false, depth := 0 } :: k1.wpx }
    else k1)
  queueTrap c { cause := causeWord true (strandNo st) code sub, tval := tval, src := .strand st } s1

/-- What a started engine instruction does next: its next PC, and what is left before its give mask is pushed. -/
structure EFlow where
  npc : Option Word := none
  rest : Rest := .push
  pages : List Page := []
  deriving DecidableEq, Repr

/-- A started engine instruction: tokens popped, the strand moves on, what is left is in flight, pushes settle. -/
def finishE (c : CoreId) (st : Strand) (pops gives : List Nat) (f : EFlow) (s : State) : State :=
  s.updCore c (fun k =>
    let k1 := pops.foldl Core.popTok (dropExempt st k)
    let e := k1.eng st
    let k2 := k1.setEng st { e with pc := f.npc.getD (e.pc + 4) }
    let gw := k2.gwait.filter (fun g => g.st != st)
    settle { k2 with st := k2.st.set st .issuing, gwait := gw, flights := k2.flights ++ [{ st := st, rest := f.rest, gives := gives, pages := f.pages }] })

def parkE (c : CoreId) (st : Strand) (s : State) : State := s.updCore c (fun k => { k with st := k.st.set st .waiting })

/-- The strand at the other end of every named queue was started (R272). -/
def masksStarted (k : Core) (st : Strand) (w g : BitVec 3) : Bool :=
  (maskStrands st w ++ maskStrands st g).all (fun o => decide (o = .C) || k.started.get o)

/-- Running a meaning on the current engine strand, if it is one that decodes the word's table: the masks are checked, each
queue of the wait mask must hold a token, and the instruction pops and takes effect in one step (R71, R134, R272). -/
def runE (tbl : Tbl) (i : Instr) (w g : BitVec 3) (m : CoreId → Strand → M EFlow) (s : State) : Out :=
  let c := s.cur.1
  let st := s.cur.2
  if tbl.ofStrand st && mayIssue s c st then
    let k := s.core c
    if !masksStarted k st w g then .next (trapEng c st cILLEGAL 0 ((encode i).setWidth 64) s)
    else if (waitCodes st w).all (fun q => decide (0 < k.tokens q)) then
      match m c st s with
      | .ok (f, s1) => .next (finishE c st (waitCodes st w) (giveCodes st g) f s1)
      | .error (.trap code sub tval s1) => .next (trapEng c st code sub tval s1)
      | .error (.wait s1) => .next (parkE c st s1)
    else .next (parkE c st s)
  else .fault .notIssuing

/-! ### Instruction fetch (R59, R96, R106, R261) -/

/-- The word at a strand's PC, or why the fetch fails. -/
def fetchWord (c : CoreId) (st : Strand) : M Word32 := do
  let k ← getCore c
  let pc := (strandPc k st).toNat
  let w := strandWho (← get) c
  match ← lift (translate w pc 4 .fetch) with
  | .error f => pageFault c f
  | .ok pages => do
    checkWatch c st pc 4 { rd := false, wr := false, ex := true }
    let g ← lift (readPieces w (pieces pages pc 4))
    poisoned c g
    return BitVec.ofNat 32 (leNat g.bytes)

/-- TVAL := the word, for the instruction that runs (R60, R351). -/
def wordOf (i : Instr) : Word := (encode i).setWidth 64

end Sys2Proof.Machine
end

