-- ==== Sys2Proof/Machine/Guard.lean ====
section
/-! DEFINITION. Repair contexts: entries, the engine's accesses and moves to ERROR (R286, R287, R297), and contexts as readers see them:
guarded regions, waits and stale reads (R300 to R302). -/

namespace Sys2Proof.Machine

/-! ### Entries (R286, R287) -/

/-- One block-table entry or list entry: its bytes and their label. -/
structure REnt where
  b : List Byte
  lbl : Label
  deriving DecidableEq, Repr

def REnt.w0 (e : REnt) : Nat := bytesAt e.b 0 8
def REnt.addr (e : REnt) : Nat := e.w0 % 2 ^ 52
def REnt.pend (e : REnt) : Bool := bit e.w0 53
def REnt.ntok (e : REnt) : Nat := bits e.w0 56 6 + 1
def REnt.pos (e : REnt) : Nat := bytesAt e.b 8 4
def REnt.lvl (e : REnt) : Nat := bytesAt e.b 28 1

/-- V, the reserved bits and the alignment of ADDR. -/
def REnt.bad (e : REnt) : Bool :=
  !bit e.w0 52 || bit e.w0 55 || decide (bits e.w0 62 2 ≠ 0) || decide (e.w0 % 64 ≠ 0) || decide (bytesAt e.b 29 3 ≠ 0)

/-- The checks of R287 on an entry that should stand at a position. -/
def REnt.fails (e : REnt) (pos nl : Nat) : Bool := e.bad || decide (e.pos ≠ pos) || (!e.pend && decide (e.lvl ≠ nl))

/-- The entry with a level and PEND. -/
def REnt.levelled (e : REnt) (lvl : Nat) (pend : Bool) : REnt :=
  { e with b := overlay (overlay e.b 0 (natBytes 8 (setBits e.w0 53 1 (if pend then 1 else 0)))) 28 (natBytes 1 lvl) }

/-- The entry with STALE set (R302). -/
def REnt.staled (e : REnt) : REnt := { e with b := overlay e.b 0 (natBytes 8 (setBits e.w0 54 1 1)) }

/-! ### The engine's accesses -/

/-- The engine's accesses for a context, attributed to the task that issued its last command (R108: KIND 3; R234). -/
def repWho (r : Rep) : Who := taskWho r.core r.pid r.vd r.asid 3 r.ownjob.toNat

/-- Steps of the engine; an access fault ends them with a CODE (R297). -/
abbrev RM := ExceptT Byte SM

/-- A plain state step. -/
def rStep {α : Type} (m : SM α) : RM α := ExceptT.mk (do return .ok (← m))

/-- A poisoned sector ends the job, and with it the check or repair (R87, R297). -/
def rPoison {α : Type} (r : Rep) : RM α := do
  rStep (modify (fun s => s.updJob r.ownjob (fun j => { j with killDue := true })))
  throw 0x31

/-- The CODE of a translation fault: 0x10 + kind or 0x20 + kind (R120, R297). -/
def rFault {α : Type} (r : Rep) (f : PFault) : RM α :=
  if f.poison then rPoison r else throw (BitVec.ofNat 8 (f.stage * 16 + f.kind))

def rGet (r : Rep) (va n : Nat) : RM Got := do
  match ← rStep (readVirt (repWho r) va n) with
  | .error f => rFault r f.1
  | .ok g => if g.poison then rPoison r else return g

/-- A write; one that the gate drops is reported to the task that issued the context's last command, while it runs (R312). -/
def rPut (r : Rep) (va : Nat) (bs : List Byte) (lbl : Label) : RM Unit := do
  match ← rStep (writeVirt (repWho r) va bs lbl) with
  | .error f => rFault r f.1
  | .ok .done => return ()
  | .ok .poison => rPoison r
  | .ok (.denied a) => rStep (modify (fun s => if (s.core r.core).job = some r.ownjob then relDeny r.core a s else s))

def entAddr (r : Rep) (i : Nat) : Nat := ctTbl r.desc + 32 * i

def rEnt (r : Rep) (i : Nat) : RM REnt := do
  let g ← rGet r (entAddr r i) 32
  return { b := g.bytes, lbl := g.lbl }

/-- An entry is read again before each write to it; one that fails the checks is not written (R287, R297). -/
def rReEnt (r : Rep) (b : RepBlk) (f : REnt → REnt) : RM Unit := do
  let e ← rEnt r b.idx
  if e.fails b.pos (ctNl r.desc) then throw 0x32
  else rPut r (entAddr r b.idx) (f e).b e.lbl

/-- The codes of STATE (R285). -/
def RepSt.code : RepSt → Nat
  | .idle => 0 | .spliced => 1 | .check => 2 | .repair => 3 | .error => 4

/-- The engine's fields of the descriptor (R285). -/
def rPutDesc (r : Rep) : RM Unit :=
  rPut r (r.addr.toNat + 80) (natBytes 8 (r.st.code + r.round * 8 + r.ownjob.toNat * 2 ^ 12 + r.code.toNat * 2 ^ 24 + r.flagged % 2 ^ 32 * 2 ^ 32) ++
    natBytes 4 r.stales.toNat) 0

/-! ### The contexts' moves (R297) -/

/-- The k-th context changed. -/
def updRep (k : Nat) (f : Rep → Rep) (s : State) : State := { s with reps := s.reps.modify k f }

/-- The k-th context as it stands. -/
def repNow (k : Nat) : RM Rep := do
  match (← rStep get).reps[k]? with
  | some r => return r
  | none => throw 0

/-- A move to ERROR (R297): guards stay as they stand, issued items keep their slots. -/
def rFail (code : Byte) (r : Rep) : Rep :=
  { r with st := .error, code := code, round := 0, todo := [], items := r.items.map (fun i : RepItem => { i with live := false }) }

/-- A cause of R297 meets the k-th context: in CHECK and REPAIR it moves to ERROR; in another state nothing moves. -/
def failRep (k : Nat) (code : Byte) (s : State) : State :=
  match s.reps[k]? with
  | none => s
  | some r =>
    match r.st with
    | .check | .repair => (((rPutDesc (rFail code r)).run (updRep k (rFail code) s))).2
    | _ => s

/-- Steps of the k-th context; what they did before a cause stays done. -/
def runRep (k : Nat) (m : RM Unit) (s : State) : State :=
  if s.reps.length ≤ k then s
  else match m.run s with
    | (.ok _, s1) => s1
    | (.error code, s1) => failRep k code s1

/-! ### Guards (R300 to R302) -/

/-- The guarded blocks of one context that a read touches, and whether its reads proceed stale. -/
structure GuardMark where
  ctx : Nat
  stok : Bool
  blks : List Nat
  deriving DecidableEq, Repr

/-- The runs of a side, each as it is touched. -/
def touches (acc : Acc) (rs : List Run) : List Touch := rs.map (fun r => { va := r.1, len := r.2, acc := acc })

/-- The memory that runs of a strand name, as an access to them would translate now; none of it where that faults. -/
def piecesAt (s : State) (c : CoreId) (runs : List Run) : List Piece :=
  match (translateRuns (strandWho s c) (touches .read runs) s).1 with
  | .ok pages => runs.flatMap (fun r => pieces pages r.1 r.2)
  | .error _ => []

/-- Runs as a context's guards meet them: under their own addresses in its address space, and under other names of the memory of its
guarded regions (R300). -/
def Rep.meets (r : Rep) (s : State) (c : CoreId) (runs : List Run) : List Run :=
  (if r.pid == (s.core c).id.pid && r.asid == (s.core c).id.asid then runs else []) ++
  (if r.pages.isEmpty then [] else (piecesAt s c runs).flatMap r.namesOf)

/-- The guards that a read of a core's task meets (R300): those of the contexts that its job owns (log entry 15). -/
def guardedBy (s : State) (c : CoreId) (runs : List Run) : List GuardMark :=
  (s.reps.zipIdx).filterMap (fun p =>
    let r := p.1
    if r.owner.isSome && r.owner == (s.core c).job then
      let met := r.meets s c runs
      let hit := (r.blks.filter (fun b => met.any (blkGuards r.desc b))).map (fun b => b.idx)
      if hit.isEmpty then none else some { ctx := p.2, stok := ctStok r.desc, blks := hit }
    else none)

/-- The guard check of an instruction's reads: with STOK clear it waits, noted by its strand; with STOK set the stale reads to
be recorded (R301, R302). -/
def guardCheck (c : CoreId) (st : Strand) (i : Instr) (runs : List Run) : M (List GuardMark) := do
  let s ← get
  let marks := guardedBy s c runs
  if marks.any (fun m => !m.stok) then do
    modCore c (fun k => { k with gwait := { st := st, instr := i } :: k.gwait.filter (fun g => g.st != st) })
    waitNow
  else return marks

/-- STALE is set in a block's table entry (R286, R287, R302). -/
def markEntry (k i : Nat) : RM Unit := do
  let r ← repNow k
  match r.blks.find? (fun b => b.idx == i) with
  | some b => rReEnt r b REnt.staled
  | none => return ()

/-- STALES rises by one and stands in the descriptor (R302). -/
def markStales (k : Nat) : RM Unit := do
  rStep (modify (updRep k (fun r => { r with stales := satInc32 r.stales })))
  let r ← repNow k
  rPut r (r.addr.toNat + 88) (natBytes 4 r.stales.toNat) 0

/-- The record of an instruction's or unit's stale reads, by context: one more in STALES, STALE in each block's entry (R302). -/
def staleMark (marks : List GuardMark) : SM Unit := fun s =>
  ((), marks.foldl (fun (s : State) m =>
    m.blks.foldl (fun (s : State) i => runRep m.ctx (markEntry m.ctx i) s) (runRep m.ctx (markStales m.ctx) s)) s)

end Sys2Proof.Machine
end

