-- ==== Sys2Proof/Machine/CMem.lean ====
section
/-! DEFINITION. Loads, stores and fences of the C strand, and the delivery of a load (R259, R260, R265). -/

namespace Sys2Proof.Machine

/-- LD (R259, R260): every fault before the next instruction; x[d] is pending until its delivery. -/
def execLd (d b : BitVec 6) (w : BitVec 3) (o : BitVec 11) : State → Out :=
  runPlain (fun c => do
    needFree c d
    let base ← readX c b
    let n := widthSize w
    let marks ← guardCheck c .C (.ld d b w o) [((cmAddr base o n).toNat, n)]
    let g ← strandRead c .C (cmAddr base o n).toNat n true
    lift (staleMark marks)
    addPend c { reg := d, src := .load, val := some (widthExtend w (leNat g.bytes)), lbl := g.lbl, seq := none })

/-- ST (R259): the low bytes of x[s] with its label. -/
def execSt (s b : BitVec 6) (w : BitVec 3) (o : BitVec 11) : State → Out :=
  runPlain (fun c => do
    let v ← readXL c s
    let base ← readX c b
    let n := widthSize w
    strandWrite c .C (cmAddr base o n).toNat (natBytes n v.1.toNat) v.2 true)

/-- FENCE (R265): whole steps interleave, so every earlier access of the strand has performed and nothing is left to wait for
(log entry 6). -/
def execFence (_r : BitVec 2) (_s : BitVec 3) : State → Out := runPlain (fun _ => pure ())

/-- The delivery of the oldest pending result of a register from a given engine; with none ready nothing happens. -/
def deliverFirst (c : CoreId) (d : BitVec 6) (src : PendSrc) (s : State) : State :=
  match (s.core c).pend.find? (fun p => p.reg == d && p.src == src && p.val.isSome) with
  | some p => s.updCore c (deliverPend p (p.val.getD 0))
  | none => s

/-- LOAD_DELIVERY (R260): the load's data arrive in x[d]. -/
def execLoadDelivery (c : CoreId) (d : BitVec 6) (s : State) : Out := .next (deliverFirst c d .load s)

end Sys2Proof.Machine
end

