-- ==== Sys2Proof/Machine/Formats.lean ====
section
/-! DEFINITION. Number formats, rounding, the random bits, fixed orders of summation and the special functions (R28 to R58):
exact arithmetic on sign, magnitude and a power of two, narrowed once at the end. -/

namespace Sys2Proof.Machine

/-! ### Exact values -/

/-- An exact value: NaN, an infinity, or ± m × 2^e, where m = 0 is a signed zero (R29, R37). -/
inductive FVal where
  | nan
  | inf (neg : Bool)
  | fin (neg : Bool) (m : Nat) (e : Int)
  deriving DecidableEq, Repr

/-- A floating format: exponent and fraction bits (R29). -/
structure FFmt where
  eb : Nat
  fb : Nat
  deriving DecidableEq, Repr

def fp32 : FFmt := { eb := 8, fb := 23 }
def bf16 : FFmt := { eb := 8, fb := 7 }
def fp16 : FFmt := { eb := 5, fb := 10 }
def e4m3 : FFmt := { eb := 4, fb := 3 }
def e5m2 : FFmt := { eb := 5, fb := 2 }

/-- The floating format of a code (R28). -/
def ffmtOf (f : Nat) : Option FFmt :=
  match f with
  | 0 => some fp32 | 1 => some bf16 | 2 => some fp16 | 3 => some e4m3 | 4 => some e5m2 | _ => none

def FFmt.width (f : FFmt) : Nat := 1 + f.eb + f.fb
def FFmt.bias (f : FFmt) : Int := (2 ^ (f.eb - 1) - 1 : Nat)
/-- The exponent of the subnormal step. -/
def FFmt.qmin (f : FFmt) : Int := 1 - f.bias - f.fb
/-- Only E4M3 has no infinity (R29). -/
def FFmt.hasInf (f : FFmt) : Bool := decide (f ≠ e4m3)
/-- The pattern of the all-ones exponent with fraction 0. -/
def FFmt.infPat (f : FFmt) : Nat := (2 ^ f.eb - 1) * 2 ^ f.fb
def FFmt.maxPat (f : FFmt) : Nat := if f.hasInf then f.infPat - 1 else 2 ^ (f.eb + f.fb) - 2
/-- canon_nan (R29, R30). -/
def FFmt.nanPat (f : FFmt) : Nat := if f.hasInf then f.infPat + 2 ^ (f.fb - 1) else 2 ^ (f.eb + f.fb) - 1
def FFmt.signBit (f : FFmt) : Nat := 2 ^ (f.eb + f.fb)

/-- The value of a pattern (R29, R30). -/
def FFmt.decode (f : FFmt) (p : Nat) : FVal :=
  let neg := bit p (f.eb + f.fb)
  let mag := p % f.signBit
  let ex := mag / 2 ^ f.fb
  let fr := mag % 2 ^ f.fb
  if f.maxPat < mag then (if f.hasInf && decide (fr = 0) then .inf neg else .nan)
  else if ex = 0 then .fin neg fr f.qmin
  else .fin neg (2 ^ f.fb + fr) (f.qmin + (ex - 1 : Nat))

/-- A rounding mode; SR with its random word (R36, R43). -/
inductive Mode where
  | rne | rz | rd | ru
  | sr (r : Nat)
  deriving DecidableEq, Repr

/-- The modes of the codes 0 to 3 (R36). -/
def modeOf (c : Nat) : Mode :=
  match c with
  | 0 => .rne | 1 => .rz | 2 => .rd | _ => .ru

/-- Rounding of m × 2^e to a multiple of 2^q, as that multiple (R37); SR by the discarded bits of the source's own spacing
2^e (R42, R43). -/
def roundAt (mode : Mode) (neg : Bool) (m : Nat) (e q : Int) : Nat :=
  if q ≤ e then m * 2 ^ (e - q).toNat
  else
    let s := (q - e).toNat
    let lo := m / 2 ^ s
    let rem := m % 2 ^ s
    let up := match mode with
      | .rne => decide (2 ^ s < 2 * rem) || (decide (2 ^ s = 2 * rem) && decide (lo % 2 = 1))
      | .rz => false
      | .rd => neg && decide (rem ≠ 0)
      | .ru => !neg && decide (rem ≠ 0)
      | .sr r => decide (2 ^ 16 ≤ (if s ≤ 16 then rem * 2 ^ (16 - s) else rem / 2 ^ (s - 16)) + r)
    if up then lo + 1 else lo

/-- The exponent of the spacing of a format at m × 2^e, m > 0: unbounded above, the subnormal step below (R37). -/
def FFmt.ulpExp (f : FFmt) (m : Nat) (e : Int) : Int := max (e + Nat.log2 m - f.fb) f.qmin

/-- What an overflow gives in a format with infinities: true for ∞, false for the largest finite value (R38). -/
def overflowInf (mode : Mode) (neg : Bool) : Bool :=
  match mode with
  | .rne => true
  | .rz => false
  | .rd => neg
  | .ru => !neg
  | .sr _ => true

/-- The pattern of a value in a format (R37 to R39): `e4nan` is the drain mode's E4NAN. Under SR the magnitude that overflows
was rounded up, or lies at or above the next value already, where the truncated one is the largest finite value. -/
def FFmt.encode (f : FFmt) (mode : Mode) (e4nan : Bool) (v : FVal) : Nat :=
  let sg (neg : Bool) (p : Nat) : Nat := if neg then f.signBit + p else p
  match v with
  | .nan => f.nanPat
  | .inf neg => if f.hasInf then sg neg f.infPat else if e4nan then f.nanPat else sg neg f.maxPat
  | .fin neg m e =>
    if m = 0 then sg neg 0
    else
      let q := f.ulpExp m e
      let r := roundAt mode neg m e q
      let p := (q - f.qmin).toNat * 2 ^ f.fb + r
      if p ≤ f.maxPat then sg neg p
      else if !f.hasInf then (if e4nan then f.nanPat else sg neg f.maxPat)
      else
        let up := match mode with
          | .sr _ => decide (roundAt .rz neg m e q < r)
          | mode => overflowInf mode neg
        if up then sg neg f.infPat else sg neg f.maxPat

/-- FP32 containers. -/
def f32 (w : Word32) : FVal := fp32.decode w.toNat
def toF32 (v : FVal) : Word32 := BitVec.ofNat 32 (fp32.encode .rne false v)
/-- round_rne(v, FP32) as a value. -/
def rne32 (v : FVal) : FVal := fp32.decode (fp32.encode .rne false v)
def nan32 : Word32 := 0x7FC00000

/-! ### Exact operations (R30, R37) -/

/-- ± m × 2^e with an integer signed mantissa. -/
def sgn (neg : Bool) (m : Nat) : Int := if neg then -(m : Int) else m

/-- The exact sum; an exact zero sum of operands of opposite sign is +0 (R37). -/
def FVal.add (a b : FVal) : FVal :=
  match a, b with
  | .nan, _ => .nan
  | _, .nan => .nan
  | .inf x, .inf y => if x = y then .inf x else .nan
  | .inf x, _ => .inf x
  | _, .inf y => .inf y
  | .fin x m e, .fin y n d =>
    let k := min e d
    let t := sgn x (m * 2 ^ (e - k).toNat) + sgn y (n * 2 ^ (d - k).toNat)
    if t = 0 then .fin (x && y) 0 k else .fin (decide (t < 0)) t.natAbs k

/-- The exact product. -/
def FVal.mul (a b : FVal) : FVal :=
  match a, b with
  | .nan, _ => .nan
  | _, .nan => .nan
  | .inf x, .inf y => .inf (x != y)
  | .inf x, .fin y n _ => if n = 0 then .nan else .inf (x != y)
  | .fin x m _, .inf y => if m = 0 then .nan else .inf (x != y)
  | .fin x m e, .fin y n d => .fin (x != y) (m * n) (e + d)

def FVal.neg : FVal → FVal
  | .nan => .nan
  | .inf x => .inf (!x)
  | .fin x m e => .fin (!x) m e

/-- An integer as an exact value; zero is +0. -/
def ofInt (i : Int) : FVal := .fin (decide (i < 0)) i.natAbs 0

/-- Order of two values that are not NaN; the zeros are equal. -/
def FVal.lt (a b : FVal) : Bool :=
  match a, b with
  | .nan, _ => false
  | _, .nan => false
  | .inf x, .inf y => x && !y
  | .inf x, _ => x
  | _, .inf y => !y
  | .fin x m e, .fin y n d =>
    let k := min e d
    decide (sgn x (m * 2 ^ (e - k).toNat) < sgn y (n * 2 ^ (d - k).toNat))

def FVal.isNan (a : FVal) : Bool := decide (a = .nan)

/-- Equal as numbers. -/
def FVal.same (a b : FVal) : Bool := !a.isNan && !b.isNan && !a.lt b && !b.lt a

/-- FP32 operations by RNE. -/
def fadd (a b : Word32) : Word32 := toF32 ((f32 a).add (f32 b))
def fmul (a b : Word32) : Word32 := toF32 ((f32 a).mul (f32 b))

/-! ### Integers (R31, R40, R58) -/

def i32 (w : Word32) : Int := w.toInt
/-- Limits of S32 (R40, R58). -/
def sat32 (i : Int) : Int := max (-(2 ^ 31)) (min (2 ^ 31 - 1) i)

/-- A value rounded to an integer (R40); none for NaN and infinities. -/
def FVal.toInt (mode : Mode) : FVal → Option Int
  | .fin neg m e => some (sgn neg (roundAt mode neg m e 0))
  | _ => none

/-- Conversion to S32 (R40). -/
def toS32 (mode : Mode) (v : FVal) : Word32 :=
  match v with
  | .nan => 0
  | .inf neg => word32 (if neg then -(2 ^ 31) else 2 ^ 31 - 1)
  | v => word32 (sat32 ((v.toInt mode).getD 0))

/-- Conversion of a scaled value to a quantised code of w bits (R40). -/
def toQuant (w zp : Nat) (mode : Mode) (v : FVal) : Nat :=
  match v with
  | .nan => zp
  | .inf neg => if neg then 0 else 2 ^ w - 1
  | v => (max 0 (min (2 ^ w - 1 : Int) ((v.toInt mode).getD 0 + zp))).toNat

/-- A quantised element's value: scale × (q − zp) (R31). -/
def quantVal (q zp scale : Nat) : FVal :=
  (fp16.decode scale).mul (ofInt ((q : Int) - zp))

/-- The code of element j of a packed row (R33): bits [jw + w − 1 : jw] of its bytes as one string. -/
def codeAt (bs : List Byte) (w j : Nat) : Nat :=
  leNat ((bs.drop (j * w / 8)).take 5) / 2 ^ (j * w % 8) % 2 ^ w

/-- An element widened to a 32-bit container (R30, R41, R143): FP32 and S32 patterns as they are. -/
def widen (f : Nat) (code zp scale : Nat) : Word32 :=
  match f with
  | 0 | 8 => BitVec.ofNat 32 code
  | 5 | 6 | 7 => toF32 (quantVal code zp scale)
  | f => match ffmtOf f with
    | some x => toF32 (x.decode code)
    | none => 0

/-! ### The random word (R44) -/

def mix64 (v : Word) (sh : Nat) (k : Word) : Word := (v ^^^ (v >>> sh)) * k

/-- srgen(T, S, C) (R44). -/
def srgen (t s : Word32) (c : Nat) : Nat :=
  let key := wd (t.toNat * 2 ^ 32 + s.toNat)
  let v := key ^^^ (wd c * 0x9E3779B97F4A7C15)
  let v := mix64 v 30 0xBF58476D1CE4E5B9
  let v := mix64 v 27 0x94D049BB133111EB
  let v := v ^^^ (v >>> 31)
  v.toNat / 2 ^ 48

/-! ### Fixed orders of summation (R52 to R54) -/

/-- The exact sum of a group of exact products (R52); +0 for an exact zero unless every product is −0. -/
def sumExact (ps : List FVal) : FVal :=
  let pos := ps.any (fun p => p == .inf false)
  let neg := ps.any (fun p => p == .inf true)
  if ps.any FVal.isNan || (pos && neg) then .nan
  else if pos then .inf false
  else if neg then .inf true
  else
    let s := ps.foldl FVal.add (.fin true 0 0)
    match s with
    | .fin _ 0 e => .fin (ps.all (fun p => match p with | .fin n 0 _ => n | _ => false) && !ps.isEmpty) 0 e
    | s => s

/-- acc := round_rne(acc + round_rne(g)) (R52). -/
def accStep (acc : Word32) (g : FVal) : Word32 := toF32 ((f32 acc).add (rne32 g))

/-- The contribution of a quantised group: I × (scale_a × scale_b); an exact zero is +0 (R52, R53; log entry 18). -/
def quantGroup (i : Int) (sa sb : Nat) : FVal :=
  let sab := (fp16.decode sa).mul (fp16.decode sb)
  match sab with
  | .nan => .nan
  | .inf n => if i = 0 then .nan else .inf (n != decide (i < 0))
  | .fin n m e => .fin ((n != decide (i < 0)) && decide (m * i.natAbs ≠ 0)) (m * i.natAbs) e

/-- One level of a fixed binary tree over lanes that may be empty (R54). -/
def treeLevel {α : Type} (op : α → α → α) : List (Option α) → List (Option α)
  | a :: b :: t =>
    (match a, b with
     | none, none => none
     | some x, none => some x
     | none, some y => some y
     | some x, some y => some (op x y)) :: treeLevel op t
  | l => l

/-- n levels of the tree: the value of node (n, 0) (R54). -/
def treeReduce {α : Type} (op : α → α → α) : Nat → List (Option α) → Option α
  | 0, l => (l.head?).join
  | n + 1, l => treeReduce op n (treeLevel op l)

/-! ### Special functions (R55, R56) -/

/-- Fraction bits of the fixed-point numbers that the transcendental functions are computed in (log entry 7). -/
def fxBits : Nat := 320
def fxOne : Int := 2 ^ fxBits
def fxMul (a b : Int) : Int := a * b / fxOne
def fxDiv (a b : Int) : Int := a * fxOne / b

/-- 2 atanh z = ln((1 + z)/(1 − z)), |z| ≤ 1/3, 120 terms. -/
def fxAtanh2 (z : Int) : Int :=
  let z2 := fxMul z z
  ((List.range 120).foldl (fun (a : Int × Int) k => (a.1 + a.2 / (2 * (k : Int) + 1), fxMul a.2 z2)) (0, 2 * z)).1

def fxLn2 : Int := fxAtanh2 (fxOne / 3)

/-- e^y for |y| ≤ 1, 90 terms. -/
def fxExpSmall (y : Int) : Int :=
  ((List.range 90).foldl (fun (a : Int × Int) (k : Nat) => let t := fxMul a.2 y / ((k : Int) + 1); (a.1 + t, t)) (fxOne, fxOne)).1

/-- m × 2^e as fixed point, truncated. -/
def fxOf (neg : Bool) (m : Nat) (e : Int) : Int :=
  let x := e + fxBits
  sgn neg (if 0 ≤ x then m * 2 ^ x.toNat else m / 2 ^ (-x).toNat)

/-- A fixed-point number times 2^n as an exact value. -/
def fxVal (x : Int) (n : Int) : FVal := .fin (decide (x < 0)) x.natAbs (n - fxBits)

/-- 2^x as a fixed-point fraction in [1, 2) and an exponent. -/
def fxExp2 (x : Int) : Int × Int :=
  let n := Int.fdiv x fxOne
  (fxExpSmall (fxMul (x - n * fxOne) fxLn2), n)

/-- e^x as a fixed-point number. -/
def fxExp (x : Int) : Int :=
  let (f, n) := fxExp2 (fxDiv x fxLn2)
  if 0 ≤ n then f * 2 ^ n.toNat else f / 2 ^ (-n).toNat

/-- ln of a positive fixed-point number: its fraction in [1, 2) and exponent. -/
def fxLn (x : Int) : Int :=
  let n : Int := (Nat.log2 x.natAbs : Int) - fxBits
  let f := if 0 ≤ n then x / 2 ^ n.toNat else x * 2 ^ (-n).toNat
  n * fxLn2 + fxAtanh2 (fxDiv (f - fxOne) (f + fxOne))

/-- A positive value too small to be a result other than zero. -/
def tinyPos : FVal := .fin false 1 (-400)
/-- A value that rounds to the given nonzero one without being it. -/
def almost (neg : Bool) (m : Nat) (e : Int) (below : Bool) : FVal :=
  .fin neg (if below then m * 2 ^ 100 - 1 else m * 2 ^ 100 + 1) (e - 100)

/-- Whether |m × 2^e| ≥ k. -/
def magGe (m : Nat) (e : Int) (k : Nat) : Bool :=
  if 0 ≤ e then decide (k ≤ m * 2 ^ e.toNat) else decide (k * 2 ^ (-e).toNat ≤ m)

/-- The seven functions (R55). -/
inductive SpFun where
  | exp2 | log2 | rcp | rsqrt | tanh | sigm | softp
  deriving DecidableEq, Repr

/-- 1 / (m × 2^e), with a low bit for what division leaves. -/
def recipVal (neg : Bool) (m : Nat) (e : Int) : FVal :=
  let q := 2 ^ 80 / m
  if q * m = 2 ^ 80 then .fin neg q (-80 - e) else .fin neg (2 * q + 1) (-81 - e)

/-- 1 / √(m × 2^e), with a low bit for what the root leaves. -/
def rsqrtVal (m : Nat) (e : Int) : FVal :=
  let odd := decide (e % 2 ≠ 0)
  let m1 := if odd then 2 * m else m
  let e1 := if odd then e - 1 else e
  let q := Nat.sqrt (2 ^ 160 / m1)
  if q * q * m1 = 2 ^ 160 then .fin false q (-80 - e1 / 2) else .fin false (2 * q + 1) (-81 - e1 / 2)

/-- f(x) of a finite non-zero x = ± m × 2^e. -/
def spFin (f : SpFun) (neg : Bool) (m : Nat) (e : Int) : FVal :=
  let x := fxOf neg m e
  match f with
  | .exp2 =>
    if magGe m e 256 then (if neg then tinyPos else .inf false)
    else let (v, n) := fxExp2 x; fxVal v n
  | .log2 =>
    if neg then .nan
    else
      let n := (Nat.log2 m : Int) + e
      let fr := fxOf false m (-(Nat.log2 m : Int))
      let l := fxDiv (fxAtanh2 (fxDiv (fr - fxOne) (fr + fxOne))) fxLn2
      fxVal (n * fxOne + l) 0
  | .rcp => recipVal neg m e
  | .rsqrt => if neg then .nan else rsqrtVal m e
  | .tanh =>
    if magGe m e 64 then almost neg 1 0 true
    else if !magGe m (e + 60) 1 then almost neg m e true
    else
      let t := fxExp (2 * fxOf false m e)
      let v := fxDiv (t - fxOne) (t + fxOne)
      .fin neg v.natAbs (-fxBits)
  | .sigm =>
    if magGe m e 128 then (if neg then tinyPos else almost false 1 0 true)
    else
      let t := fxExp x
      fxVal (fxDiv t (fxOne + t)) 0
  | .softp =>
    if magGe m e 128 then (if neg then tinyPos else almost false m e false)
    else fxVal (fxLn (fxOne + fxExp x)) 0

/-- f(x) with the fixed cases of R56. -/
def spVal (f : SpFun) (v : FVal) : FVal :=
  match v with
  | .nan => .nan
  | .inf neg =>
    (match f with
     | .exp2 => if neg then .fin false 0 0 else .inf false
     | .log2 => if neg then .nan else .inf false
     | .rcp => .fin neg 0 0
     | .rsqrt => if neg then .nan else .fin false 0 0
     | .tanh => .fin neg 1 0
     | .sigm => if neg then .fin false 0 0 else .fin false 1 0
     | .softp => if neg then .fin false 0 0 else .inf false)
  | .fin neg m e =>
    if m = 0 then
      (match f with
       | .exp2 => .fin false 1 0
       | .log2 => .inf true
       | .rcp => .inf neg
       | .rsqrt => .inf neg
       | .tanh => .fin neg 0 0
       | .sigm => .fin false 1 (-1)
       | .softp => fxVal fxLn2 0)
    else spFin f neg m e

/-- A special function on an FP32 container (R55). -/
def spFun (f : SpFun) (w : Word32) : Word32 := toF32 (spVal f (f32 w))

end Sys2Proof.Machine
end

