-- ==== Sys2Proof/Machine/Amo.lean ====
section
/-! DEFINITION. Atomics of the C strand and their delivery (R66, R262 to R264, R330, R361). -/

namespace Sys2Proof.Machine

/-- What an atomic writes from the old value, x[b] and x[d]; none where `cas` fails (R262). -/
abbrev AmoFun := Word → Word → Word → Option Word

def amoPlain (f : Word → Word → Word) : AmoFun := fun old b _ => some (f old b)
def amoCasFun : AmoFun := fun old b d => if old = d then some b else none
/-- FP32 addition on the low 32 bits, by RNE (R262). -/
def amoFaddFun : AmoFun := fun old b _ => some ((fadd (old.setWidth 32) (b.setWidth 32)).setWidth 64)

/-- Operations that the UALink domain supports (R330). -/
def amoRemoteOk (op : Nat) : Bool := decide (op = 0 ∨ op = 6 ∨ op = 7)

/-- An atomic at a remote slice (R330): the gate judges every register that leaves, of a `cas` the comparand too (R311); a copy that a
stash holds goes back first (R131); the old value comes from outside the package. -/
def amoRemote (c : CoreId) (op : Nat) (p : Piece) (b : Word × Label) (d : Word × Label) : M (Word × Label) := do
  modify (claim none p.sector)
  let lb ← lift (joinL c b.2 p.page.lbl)
  let ld ← lift (joinL c d.2 p.page.lbl)
  let sent := if op = 7 then [lb, ld] else [lb]
  if gatePasses (← get) 1 sent then lift (emit 1 (.ualAmo (bits p.pa 40 7) (p.pa % 2 ^ 39) op b.1 (if op = 7 then d.1 else 0)))
  else do
    let port ← lift (freePort 1)
    modify (fun s => relDeny c (wd p.va) (gateDrop 1 port (s.core c).id.jobid.toNat sent s))
  let v ← lift freshWord
  let lin ← lift ualLabel
  return (v, ← lift (joinL c lin p.page.lbl))

/-- An atomic in local or host memory: read, combined and written in one step (R262, R263). -/
def amoHere (c : CoreId) (w : Who) (f : AmoFun) (ps : List Piece) (n : Nat) (b : Word × Label) (d : Word) : M (Word × Label) := do
  let g ← lift (readPieces w ps)
  poisoned c g
  let old := wd (leNat g.bytes)
  match f old b.1 d with
  | none => return (old, g.lbl)
  | some v => do
    let r ← lift (writePieces w ps (natBytes n v.toNat) b.2)
    reportDrop c r
    return (old, g.lbl)

/-- The one body of every atomic (R262, R330, R361): alignment, the determinism rule, translation with R and W, the remote
rules, then the access, which is the command's commit point; x[d] is pending until its delivery. -/
def amoRun (i : Instr) (op n : Nat) (f : AmoFun) (d a b : BitVec 6) (scope : BitVec 3) : State → Out :=
  runPlain (fun c => do
    needFree c d
    let va ← readX c a
    let vb ← readXL c b
    let k ← getCore c
    need (decide (va.toNat % n = 0)) cILLEGAL va
    need (!(decide (op = 8) && k.id.det)) cILLEGAL (wordOf i)
    let marks ← guardCheck c .C i [(va.toNat, n)]
    let (w, ps) ← openAccess c .C va.toNat n .atomic { rd := true, wr := true, ex := false } false
    let remote := ps.find? (fun p => paRemote p.pa)
    need (remote.isNone || (decide (scope.toNat = 4) && amoRemoteOk op)) cILLEGAL va
    jRoom c
    let (old, lbl) ← match remote with
      | some p => amoRemote c op p vb (k.xval d, k.xlbl d)
      | none => amoHere c { w with cache := none } f ps n vb (k.xval d)
    lift (staleMark marks)
    let seq ← jNew c true i va vb.1 (k.xval d) (k.xlbl d)
    modCore c (jPerf seq old lbl)
    addPend c { reg := d, src := .amo, val := some old, lbl := lbl, seq := some seq })

/-- AMO_ADD (R262). -/
def execAmoAdd (d a b : BitVec 6) (r : BitVec 2) (s : BitVec 3) : State → Out :=
  amoRun (.amoAdd d a b r s) 0 8 (amoPlain (· + ·)) d a b s

/-- AMO_AND (R262). -/
def execAmoAnd (d a b : BitVec 6) (r : BitVec 2) (s : BitVec 3) : State → Out :=
  amoRun (.amoAnd d a b r s) 1 8 (amoPlain (· &&& ·)) d a b s

/-- AMO_OR (R262). -/
def execAmoOr (d a b : BitVec 6) (r : BitVec 2) (s : BitVec 3) : State → Out :=
  amoRun (.amoOr d a b r s) 2 8 (amoPlain (· ||| ·)) d a b s

/-- AMO_XOR (R262). -/
def execAmoXor (d a b : BitVec 6) (r : BitVec 2) (s : BitVec 3) : State → Out :=
  amoRun (.amoXor d a b r s) 3 8 (amoPlain (· ^^^ ·)) d a b s

/-- AMO_MIN (R262): signed. -/
def execAmoMin (d a b : BitVec 6) (r : BitVec 2) (s : BitVec 3) : State → Out :=
  amoRun (.amoMin d a b r s) 4 8 (amoPlain (fun x y => if slt64 y x then y else x)) d a b s

/-- AMO_MAX (R262): signed. -/
def execAmoMax (d a b : BitVec 6) (r : BitVec 2) (s : BitVec 3) : State → Out :=
  amoRun (.amoMax d a b r s) 5 8 (amoPlain (fun x y => if slt64 x y then y else x)) d a b s

/-- AMO_SWAP (R262). -/
def execAmoSwap (d a b : BitVec 6) (r : BitVec 2) (s : BitVec 3) : State → Out :=
  amoRun (.amoSwap d a b r s) 6 8 (amoPlain (fun _ y => y)) d a b s

/-- AMO_CAS (R262): compares with x[d]; with d = 0 it compares with 0. -/
def execAmoCas (d a b : BitVec 6) (r : BitVec 2) (s : BitVec 3) : State → Out :=
  amoRun (.amoCas d a b r s) 7 8 amoCasFun d a b s

/-- AMO_FADD (R262, R264): illegal in determinism mode. -/
def execAmoFadd (d a b : BitVec 6) (s : BitVec 3) (r : BitVec 2) : State → Out :=
  amoRun (.amoFadd d a b s r) 8 4 amoFaddFun d a b s

/-- AMO_DELIVERY (R361): x[d] takes the old value and the journal entry is complete. -/
def execAmoDelivery (c : CoreId) (d : BitVec 6) (s : State) : Out := .next (deliverFirst c d .amo s)

end Sys2Proof.Machine
end

