-- ==== Sys2Proof/Machine/Branch.lean ====
section
/-! DEFINITION. Branches and jumps of the C strand (R252 to R255). -/

namespace Sys2Proof.Machine

/-- A branch: own address + 4 × sext(off12) when taken, its slots annulled by the annul field; no register is written (R253). -/
def branchOn (cnd : Cond) (a b : BitVec 6) (n : BitVec 2) (o : BitVec 12) : State → Out :=
  runC (fun c => do
    let x ← readX c a
    let y ← readX c b
    let taken := cnd.holds x y
    let pc := (← getCore c).seq.pc
    return { red := if taken then some (pcRel pc o) else none, ann := annuls n taken })

/-- BEQ (R253). -/
def execBeq (a b : BitVec 6) (n : BitVec 2) (o : BitVec 12) : State → Out := branchOn .eq a b n o

/-- BNE (R253). -/
def execBne (a b : BitVec 6) (n : BitVec 2) (o : BitVec 12) : State → Out := branchOn .ne a b n o

/-- BLT (R253). -/
def execBlt (a b : BitVec 6) (n : BitVec 2) (o : BitVec 12) : State → Out := branchOn .lt a b n o

/-- BGE (R253). -/
def execBge (a b : BitVec 6) (n : BitVec 2) (o : BitVec 12) : State → Out := branchOn .ge a b n o

/-- BLTU (R253). -/
def execBltu (a b : BitVec 6) (n : BitVec 2) (o : BitVec 12) : State → Out := branchOn .ltu a b n o

/-- BGEU (R253). -/
def execBgeu (a b : BitVec 6) (n : BitVec 2) (o : BitVec 12) : State → Out := branchOn .geu a b n o

/-- J (R254). -/
def execJ (o : BitVec 20) : State → Out :=
  runC (fun c => do return { red := some (pcRel (← getCore c).seq.pc o) })

/-- JAL (R254): the link is own address + 12 with label 0. -/
def execJal (d : BitVec 6) (o : BitVec 20) : State → Out :=
  runC (fun c => do
    needFree c d
    let pc := (← getCore c).seq.pc
    writeX c d (pc + 12) 0
    return { red := some (pcRel pc o) })

/-- JALR (R254): x[a] is read before the link is written; a misaligned target traps with TVAL := the target. -/
def execJalr (d a : BitVec 6) (i : BitVec 14) : State → Out :=
  runC (fun c => do
    needFree c d
    let t := (← readX c a) + sext64 i
    need (decide (t.toNat % 4 = 0)) cILLEGAL t
    writeX c d ((← getCore c).seq.pc + 12) 0
    return { red := some t })

end Sys2Proof.Machine
end

