-- ==== Sys2Proof/Machine/Sync.lean ====
section
/-! DEFINITION. Token queues, fork and rendezvous, semaphores, flags, waiting on time (R16 to R18, R270 to R284). -/

namespace Sys2Proof.Machine

/-! ### Token queues (R271, R272) -/

/-- A queue's partner strand by its two low or high code bits (R70). -/
def strandOf (n : BitVec 2) : Strand :=
  match n.toNat with
  | 0 => .C | 1 => .L | 2 => .X | _ => .S

/-- TOK_GIVE (R271): after every earlier spill and fill, and while the count is below 255. -/
def execTokGive (q : BitVec 2) : State → Out :=
  runPlain (fun c => do
    let k ← getCore c
    need (k.started.get (strandOf q)) cILLEGAL (wordOf (.tokGive q))
    waitUnless k.spill.cmds.isEmpty
    waitUnless (decide (k.tokens (qcode .C (strandOf q)) < 255))
    modCore c (fun k => k.addTok (qcode .C (strandOf q))))

/-- TOK_WAIT (R271). -/
def execTokWait (q : BitVec 2) : State → Out :=
  runPlain (fun c => do
    let k ← getCore c
    need (k.started.get (strandOf q)) cILLEGAL (wordOf (.tokWait q))
    waitUnless (decide (0 < k.tokens (qcode (strandOf q) .C)))
    modCore c (fun k => settle (k.popTok (qcode (strandOf q) .C))))

/-! ### Fork and rendezvous (R16 to R18, R82, R133, R273) -/

/-- An engine strand's state at its start (R133). -/
def startStrand (st : Strand) (entry : Word) (k : Core) : Core :=
  let k1 := k.setEng st { Eng.reset with pc := entry }
  let k2 := { k1 with st := k1.st.set st .issuing, started := k1.started.set st true }
  match st with
  | .L => { k2 with ls := LState.reset }
  | .S => { k2 with ss := { SState.reset with keys := k.ss.keys } }
  | _ => k2

/-- FORK (R16, R82): the record's reads and checks come first; a second `fork` of the task traps. -/
def execFork (a : BitVec 6) : State → Out :=
  runPlain (fun c => do
    let p ← readX c a
    need (!(← getCore c).forked && decide (p.toNat % 16 = 0)) cILLEGAL (wordOf (.fork a))
    let g ← strandRead c .C p.toNat 16 false
    let m := bytesAt g.bytes 12 4
    need (decide (m < 8)) cILLEGAL (wordOf (.fork a))
    let entry (off : Nat) : Word := p + 4 * word (sint 32 (bytesAt g.bytes off 4))
    modCore c (fun k =>
      let k1 := { k with forked := true }
      let k2 := if bit m 0 then startStrand .L (entry 0) k1 else k1
      let k3 := if bit m 1 then startStrand .X (entry 4) k2 else k2
      if bit m 2 then startStrand .S (entry 8) k3 else k3))

/-- The strands of a core, and whether they take part in a rendezvous (R17). -/
def allStrands : List Strand := [.C, .L, .X, .S]
def Core.takesPart (k : Core) (st : Strand) : Bool := decide (st = .C) || k.started.get st

/-- The earliest arrival still waiting (R17, R284). -/
def Core.firstArrival (k : Core) : Option Arrival :=
  (allStrands.filterMap (fun st => k.arr.get st)).foldl (fun b a =>
    match b with
    | none => some a
    | some x => if a.order < x.order then some a else some x) none

/-- The last strand has arrived: every strand passes in one step, and an engine strand pops and pushes as its `e.rdv` takes effect
(R17, R134, R273). An `rdv` moves on; a final rendezvous retires the engine strands and leaves the C strand to wait for the task's
commands (R18). -/
def passRendezvous (c : CoreId) (fin : Bool) (s : State) : State :=
  let k := s.core c
  let eng (st : Strand) (k : Core) : Core :=
    match k.arr.get st with
    | none => k
    | some a =>
      let e := k.eng st
      let k1 := (a.pops.foldl Core.popTok k).setEng st { e with pc := e.pc + 4 }
      { k1 with st := k1.st.set st (if fin then .retired else .issuing),
                flights := k1.flights ++ [{ st := st, rest := .push, gives := a.gives }] }
  let k1 := settle (eng .S (eng .X (eng .L k)))
  let s1 := s.setCore c { k1 with arr := Four.all none, rdvDone := fin, rdvWait := fin }
  if fin then s1 else finishC c {} s1

/-- A strand arrives (R17): an identifier or kind that differs from the first's traps; the last arrival passes all. The
answer says whether the rendezvous has completed. -/
def arrive (c : CoreId) (st : Strand) (a : Arrival) (w : Word) : M Bool := do
  let k ← getCore c
  if (k.arr.get st).isSome then waitNow
  else do
    (match k.firstArrival with
     | some f => need (f.id == a.id && f.fin == a.fin) cILLEGAL w
     | none => pure ())
    let order := (allStrands.filterMap (fun st => k.arr.get st)).foldl (fun m x => max m (x.order + 1)) 0
    modCore c (fun k => { k with arr := k.arr.set st (some { a with order := order }) })
    let k2 ← getCore c
    if allStrands.all (fun s => !k2.takesPart s || (k2.arr.get s).isSome) then do
      modify (passRendezvous c a.fin)
      return true
    else return false

/-- The C strand's arrival: the rendezvous itself moves every strand on (R17). Once the final one has completed, `rdv.end` goes straight
to its wait for the task's commands (R284); a `rdv` that a handler runs then has no rendezvous left to complete, and waits: the model's
choice (log entry 53). -/
def rdvC (k : BitVec 8) (fin : Bool) (i : Instr) : State → Out :=
  runRaw (fun c => do
    if (← getCore c).rdvDone then do
      modCore c (fun k => { k with rdvWait := fin })
      waitNow
    else do
      let done ← arrive c .C { id := k, fin := fin, order := 0, pops := [], gives := [] } (wordOf i)
      if done && !fin then pure () else waitNow)

/-- RDV (R17). -/
def execRdv (k : BitVec 8) : State → Out := rdvC k false (.rdv k)

/-- RDV_END (R18): after the final rendezvous the C strand waits for the task's commands; TASK_RETIRE ends it. -/
def execRdvEnd (k : BitVec 8) : State → Out := rdvC k true (.rdvEnd k)

/-- A strand has an instruction under way that is more than pushes (R134). -/
def Core.unfinished (k : Core) (st : Strand) : Bool := k.flights.any (fun f => f.st == st && f.rest != .push)

/-- An engine strand's arrival (R17, R134), once what it started before has had its effect (R237). -/
def rdvE (w g : BitVec 3) (k : BitVec 8) (fin : Bool) (i : Instr) (s : State) : Out :=
  let c := s.cur.1
  let st := s.cur.2
  if Tbl.E.ofStrand st && mayIssue s c st then
    let kk := s.core c
    if !masksStarted kk st w g then .next (trapEng c st cILLEGAL 0 (wordOf i) s)
    else if (kk.arr.get st).isSome || kk.unfinished st || !(waitCodes st w).all (fun q => decide (0 < kk.tokens q)) then .next (parkE c st s)
    else
      match arrive c st { id := k, fin := fin, order := 0, pops := waitCodes st w, gives := giveCodes st g } (wordOf i) s with
      | .ok (true, s1) => .next s1
      | .ok (false, s1) => .next (parkE c st s1)
      | .error (.trap code sub tval s1) => .next (trapEng c st code sub tval s1)
      | .error (.wait s1) => .next (parkE c st s1)
  else .fault .notIssuing

/-! ### Semaphores (R274 to R277, R246) -/

/-- The core whose semaphore is named (R274). -/
def semCore (c : CoreId) (p : BitVec 1) : CoreId := if p = 1 then peerOf c else c

def Core.sem (k : Core) (n : BitVec 6) : Sem := rd k.sems (i6 n)
def Core.setSem (k : Core) (n : BitVec 6) (m : Sem) : Core := { k with sems := wr k.sems (i6 n) m }

/-- The stamp of a task on a semaphore: the pair's core A or core B (R245). -/
def Sem.stamp (m : Sem) (c : CoreId) (v : BitVec 16) : Sem :=
  if c.val % 2 = 0 then { m with stampA := v } else { m with stampB := v }

/-- A detector release through a semaphore: the task's SYNC rises and stamps it (R246). -/
def semRelease (task holder : CoreId) (n : BitVec 6) (v : Nat) (s : State) : State :=
  let sy := (s.core task).sync + 1
  let s1 := s.updCore task (fun k => { k with sync := sy })
  s1.updCore holder (fun k =>
    let m := k.sem n
    k.setSem n ({ m with count := m.count + BitVec.ofNat 16 v }.stamp task sy))

/-- A detector acquire: SEEN rises to each newer stamp (R246). -/
def seenUpdate (task : CoreId) (st : List (Nat × BitVec 16)) (s : State) : State :=
  s.updCore task (fun k => { k with
    seen := st.foldl (fun v p =>
      if h : p.1 < 224 then (if newer p.2 (rd v ⟨p.1, h⟩) then wr v ⟨p.1, h⟩ p.2 else v) else v) k.seen })

/-- The stamps of a semaphore as (task slot, count), for the pair of its holder. -/
def Sem.stamps (m : Sem) (s : State) (holder : CoreId) : List (Nat × BitVec 16) :=
  let cl := clusterOf holder
  [((s.core (coreA cl)).id.slot.toNat, m.stampA), ((s.core (coreB cl)).id.slot.toNat, m.stampB)]

/-- Taking v from a semaphore, as an acquire (R276). -/
def semTake (task holder : CoreId) (n : BitVec 6) (v : Nat) (s : State) : State :=
  let m := (s.core holder).sem n
  let s1 := seenUpdate task (m.stamps s holder) s
  s1.updCore holder (fun k =>
    let m := k.sem n
    k.setSem n { m with count := m.count - BitVec.ofNat 16 v, waiters := m.waiters.filter (fun w => w.1 != task) })

/-- SEM_ACQ (R276, R277): joins the line; first in line and covered, it takes the count. -/
def execSemAcq (a : BitVec 6) (p : BitVec 1) (n : BitVec 6) : State → Out :=
  runPlain (fun c => do
    let v ← readX c a
    need (decide (v.toNat ≤ 65535)) cILLEGAL (wordOf (.semAcq a p n))
    let h := semCore c p
    modCore h (fun k =>
      let m := k.sem n
      if m.waiters.any (fun w => w.1 == c) then k else k.setSem n { m with waiters := m.waiters ++ [(c, v.toNat)] })
    let m := (← getCore h).sem n
    waitUnless (decide (m.waiters.head?.map (·.1) = some c) && decide (v.toNat ≤ m.count.toNat))
    modify (semTake c h n v.toNat))

/-- SEM_REL (R276): a count past 65,535 traps with TVAL := (peer << 6) or N. -/
def execSemRel (a : BitVec 6) (p : BitVec 1) (n : BitVec 6) : State → Out :=
  runPlain (fun c => do
    let v ← readX c a
    need (decide (v.toNat ≤ 65535)) cILLEGAL (wordOf (.semRel a p n))
    let h := semCore c p
    let m := (← getCore h).sem n
    need (decide (m.count.toNat + v.toNat ≤ 65535)) cSEMOVF (wd (p.toNat * 64 + n.toNat))
    modify (semRelease c h n v.toNat))

/-- SEM_TRY (R276): only with no waiter; 1 or 0 into x[d]. -/
def execSemTry (d a : BitVec 6) (p : BitVec 1) (n : BitVec 6) : State → Out :=
  runPlain (fun c => do
    needFree c d
    let v ← readX c a
    need (decide (v.toNat ≤ 65535)) cILLEGAL (wordOf (.semTry d a p n))
    let h := semCore c p
    let m := (← getCore h).sem n
    if m.waiters.isEmpty && decide (v.toNat ≤ m.count.toNat) then do
      modify (semTake c h n v.toNat)
      writeX c d 1 0
    else writeX c d 0 0)

/-- SEM_RD (R276). -/
def execSemRd (d : BitVec 6) (p : BitVec 1) (n : BitVec 6) : State → Out :=
  runPlain (fun c => do
    needFree c d
    writeX c d (((← getCore (semCore c p)).sem n).count.setWidth 64) 0)

/-- A waiting C instruction completes because another agent acted (R24). -/
def resumeC (c : CoreId) (s : State) : State := finishC c {} s

/-- SEM_WAITER_SERVED (R277): the head waiter of core c's semaphore n, once the count reaches its demand. -/
def execSemWaiterServed (c : CoreId) (n : BitVec 6) (s : State) : Out :=
  let m := (s.core c).sem n
  match m.waiters with
  | (t, v) :: _ => if v ≤ m.count.toNat then .next (resumeC t (semTake t c n v s)) else .next s
  | [] => .next s

/-! ### Flags (R278 to R280) -/

/-- The level of a core's job and its flag file (R278). -/
def needGang (c : CoreId) (w : Word) : M JobId := do
  let k ← getCore c
  need (decide (2 ≤ k.id.hlvl.toNat)) cILLEGAL w
  return k.id.jobid

/-- FLAG_ADD (R279): posted to the flag's home with the task's new sync count (R246). -/
def execFlagAdd (a : BitVec 6) (n : BitVec 8) : State → Out :=
  runPlain (fun c => do
    let v ← readX c a
    let j ← needGang c (wordOf (.flagAdd a n))
    need (low32Ok v) cILLEGAL (wordOf (.flagAdd a n))
    modCore c (fun k => { k with sync := k.sync + 1 })
    let k ← getCore c
    modify (fun s => s.updJob j (fun j =>
      { j with posts := j.posts ++ [{ flag := n, amount := v.setWidth 32, slot := k.id.slot, sync := k.sync }] })))

/-- A completed `flag.wait` acquires the flag's stamps (R246). -/
def flagAcquire (c : CoreId) (f : Flag) (s : State) : State := seenUpdate c (f.stamps.map (fun p => (p.1.toNat, p.2))) s

/-- FLAG_WAIT (R279): serial order; a waiter keeps its place in arrival order. -/
def execFlagWait (a : BitVec 6) (n : BitVec 8) : State → Out :=
  runPlain (fun c => do
    let v ← readX c a
    let j ← needGang c (wordOf (.flagWait a n))
    need (low32Ok v) cILLEGAL (wordOf (.flagWait a n))
    match (← get).job? j with
    | none => waitNow
    | some job => do
      let f := rd job.flags (i8 n)
      if flagReached f.val (v.setWidth 32) then do
        modify (fun s => s.updJob j (fun j => { j with
          flags := wr j.flags (i8 n) { (rd j.flags (i8 n)) with waiters := (rd j.flags (i8 n)).waiters.filter (fun w => w.1 != c) } }))
        modify (flagAcquire c f)
      else do
        modify (fun s => s.updJob j (fun j =>
          let f := rd j.flags (i8 n)
          { j with flags := wr j.flags (i8 n) { f with waiters := if f.waiters.any (fun w => w.1 == c) then f.waiters else f.waiters ++ [(c, v.setWidth 32)] } }))
        waitNow)

/-- The stamp of an adder: its own entry, or else the oldest of eight gives way (R245, R246). -/
def flagStamp (slot : BitVec 8) (sync : BitVec 16) (l : List (BitVec 8 × BitVec 16)) : List (BitVec 8 × BitVec 16) :=
  ((slot, sync) :: l.filter (fun p => p.1 != slot)).take 8

/-- The first posted increment of the k-th place may apply: no earlier post of the same task to the same flag (R279). -/
def postReady (posts : List FlagPost) (k : Nat) : Option FlagPost :=
  match posts[k]? with
  | none => none
  | some p => if (posts.take k).any (fun q => q.flag == p.flag && q.slot == p.slot) then none else some p

/-- An increment applies at its home (R279). -/
def applyPost (j : JobId) (k : Nat) (p : FlagPost) (s : State) : State :=
  s.updJob j (fun j =>
    let f := rd j.flags (i8 p.flag)
    { j with posts := j.posts.eraseIdx k,
             flags := wr j.flags (i8 p.flag) { f with val := f.val + p.amount, stamps := flagStamp p.slot p.sync f.stamps } })

/-- The waiters whose target is reached complete in arrival order (R279). -/
def serveFlag (j : JobId) (n : BitVec 8) (s : State) : State :=
  match s.job? j with
  | none => s
  | some job =>
    let f := rd job.flags (i8 n)
    let due := f.waiters.filter (fun w => flagReached f.val w.2)
    let s1 := s.updJob j (fun j =>
      { j with flags := wr j.flags (i8 n) { f with waiters := f.waiters.filter (fun w => !flagReached f.val w.2) } })
    due.foldl (fun s w => resumeC w.1 (flagAcquire w.1 f s)) s1

/-- FLAG_ADD_APPLY (R279): the k-th posted increment of a job is applied at its home. -/
def execFlagAddApply (j : JobId) (k : Nat) (s : State) : Out :=
  match s.job? j with
  | none => .next s
  | some job =>
    match postReady job.posts k with
    | none => .next s
    | some p => .next (serveFlag j p.flag (applyPost j k p s))

/-! ### Time (R283) -/

/-- WAITT (R283): TIME ≥ x[a], unsigned. -/
def execWaitt (a : BitVec 6) : State → Out :=
  runPlain (fun c => do
    let v ← readX c a
    if v.toNat ≤ (← get).time.toNat then pure ()
    else do
      modCore c (fun k => { k with waitT := some v })
      waitNow)

/-- WAITT_RESUME (R283): a waiting `waitt` completes once TIME has reached its value. -/
def execWaittResume (c : CoreId) (s : State) : Out :=
  match (s.core c).waitT with
  | some v => if v.toNat ≤ s.time.toNat then .next (resumeC c s) else .next s
  | none => .next s

end Sys2Proof.Machine
end

