-- ==== Sys2Proof/Machine/EngineCtl.lean ====
section
/-! DEFINITION. The control instructions that the L, X and S strands share (R135) and the engine side of a rendezvous (R17). -/

namespace Sys2Proof.Machine

def Eng.nreg (e : Eng) (j : BitVec 4) : Word32 := rd e.n (i4 j)
def Eng.setN (e : Eng) (j : BitVec 4) (v : Word32) : Eng := { e with n := wr e.n (i4 j) v }
def Eng.setLc (e : Eng) (k : BitVec 2) (v : Word32) : Eng := { e with lc := wr e.lc (i2 k) v }
def modEng (c : CoreId) (st : Strand) (f : Eng → Eng) : M Unit := modCore c (fun k => k.setEng st (f (k.eng st)))

/-- LP_SET with an immediate count (R135). -/
def execLpSetImm (w g : BitVec 3) (k : BitVec 2) (i : BitVec 15) : State → Out :=
  runE .E (.lpSetImm w g k i) w g (fun c st => do
    modEng c st (fun e => e.setLc k (i.setWidth 32))
    return {})

/-- LP_SET with n[J] (R135). -/
def execLpSetReg (w g : BitVec 3) (k : BitVec 2) (j : BitVec 4) : State → Out :=
  runE .E (.lpSetReg w g k j) w g (fun c st => do
    modEng c st (fun e => e.setLc k (e.nreg j))
    return {})

/-- LP_END (R135). -/
def execLpEnd (w g : BitVec 3) (k : BitVec 2) (o : BitVec 18) : State → Out :=
  runE .E (.lpEnd w g k o) w g (fun c st => do
    let e := (← getCore c).eng st
    let n := rd e.lc (i2 k)
    if 1 < n.toNat then do
      modEng c st (fun e => e.setLc k (n - 1))
      return { npc := some (pcRel e.pc o) }
    else do
      modEng c st (fun e => e.setLc k 0)
      return {})

/-- E_J (R135). -/
def execEJ (w g : BitVec 3) (o : BitVec 18) : State → Out :=
  runE .E (.eJ w g o) w g (fun c st => do
    let e := (← getCore c).eng st
    return { npc := some (pcRel e.pc o) })

/-- E_BNZ (R135). -/
def execEBnz (w g : BitVec 3) (j : BitVec 4) (o : BitVec 15) : State → Out :=
  runE .E (.eBnz w g j o) w g (fun c st => do
    let e := (← getCore c).eng st
    return { npc := if e.nreg j ≠ 0 then some (pcRel e.pc o) else none })

/-- N_LI (R135). -/
def execNLi (w g : BitVec 3) (j : BitVec 4) (i : BitVec 15) : State → Out :=
  runE .E (.nLi w g j i) w g (fun c st => do
    modEng c st (fun e => e.setN j (sext32 i))
    return {})

/-- N_ADD (R135). -/
def execNAdd (w g : BitVec 3) (d a : BitVec 4) (i : BitVec 10) : State → Out :=
  runE .E (.nAdd w g d a i) w g (fun c st => do
    modEng c st (fun e => e.setN d (e.nreg a + sext32 i))
    return {})

/-- E_RDV (R17). -/
def execERdv (w g : BitVec 3) (k : BitVec 8) : State → Out := rdvE w g k false (.eRdv w g k)

/-- E_RDV_END (R18). -/
def execERdvEnd (w g : BitVec 3) (k : BitVec 8) : State → Out := rdvE w g k true (.eRdvEnd w g k)

/-- E_NOP (R135): pops and pushes only. -/
def execENop (w g : BitVec 3) : State → Out := runE .E (.eNop w g) w g (fun _ _ => return {})

end Sys2Proof.Machine
end

