-- ==== Sys2Proof/Machine/Xfer.lean ====
section
/-! DEFINITION. The transfer engine, layout records and the copy group (R110 to R128). -/

namespace Sys2Proof.Machine

/-! ### Formats by code (R28) -/

/-- Element bits of a format code; 0 for a reserved code (R28). -/
def fmtBits (f : Nat) : Nat :=
  match f with
  | 0 | 8 => 32 | 1 | 2 => 16 | 3 | 4 | 5 => 8 | 6 => 6 | 7 => 4 | _ => 0
def fmtQuant (f : Nat) : Bool := decide (f = 5 ∨ f = 6 ∨ f = 7)
/-- Group size by GSZ (R122, R136). -/
def groupSize (g : Nat) : Nat := match g with | 1 => 32 | 2 => 64 | 3 => 128 | _ => 0

/-! ### The transfer record (R113) -/

/-- The fields of a transfer record. -/
structure XRec where
  next : Nat
  own : Bool
  srcl : Bool
  dstl : Bool
  trans : Bool
  wid : Nat
  offl : Bool
  cmpl : Bool
  sem : Nat
  peer : Bool
  dlead : Nat
  src : Nat
  dst : Nat
  e0 : Nat
  e1 : Nat
  sstr : Nat
  dstr : Nat
  deadline : Nat
  spos : Nat
  dpos : Nat
  deriving DecidableEq, Repr

def parseRec (b : List Byte) : XRec :=
  let w := bytesAt b 8 8
  { next := bytesAt b 0 8, own := bit w 0, srcl := bit w 1, dstl := bit w 2, trans := bit w 3, wid := bits w 4 3,
    offl := bit w 7, cmpl := bit w 8, sem := bits w 9 6, peer := bit w 15, dlead := bits w 16 4,
    src := bytesAt b 16 8, dst := bytesAt b 24 8, e0 := bytesAt b 32 4 % 2 ^ 24, e1 := bytesAt b 36 4 % 2 ^ 24,
    sstr := bytesAt b 40 4, dstr := bytesAt b 44 4, deadline := bytesAt b 48 8, spos := bytesAt b 56 4, dpos := bytesAt b 60 4 }

/-- RECBAD (R113, R120); NEXT is not looked at where it is ignored (R124, R339). -/
def recBad (b : List Byte) (useNext : Bool) : Bool :=
  let r := parseRec b
  let w := bytesAt b 8 8
  (useNext && (decide (r.next % 64 ≠ 0) || decide (2 ^ 52 ≤ r.next))) ||
  decide (bits w 20 4 ≠ 0) || decide (bits w 32 32 ≠ 0) || decide (4 < r.wid) || decide (2 ^ 52 ≤ r.src) || decide (2 ^ 52 ≤ r.dst) ||
  decide (2 ^ 24 ≤ bytesAt b 32 4) || decide (2 ^ 24 ≤ bytesAt b 36 4) ||
  (!r.srcl && decide (r.spos ≠ 0)) || (!r.dstl && decide (r.dpos ≠ 0))

/-- Element width in bits (R113). -/
def XRec.w (r : XRec) : Nat := match r.wid with | 0 => 4 | 1 => 6 | 2 => 8 | 3 => 16 | _ => 32

/-! ### Layout records (R122, R123) -/

def lFmt (l : LRec) : Nat := bytesAt l 12 1 % 16
def lRank (l : LRec) : Nat := bits (bytesAt l 12 1) 4 3
def lGsz (l : LRec) : Nat := bytesAt l 13 1 % 4
def lBase (l : LRec) : Nat := bytesAt l 0 8
def lTid (l : LRec) : Nat := bytesAt l 8 4
/-- Extent of dimension k. -/
def lDim (l : LRec) (k : Nat) : Nat := bytesAt l (16 + 4 * k) 4
/-- Signed byte stride of dimension k ≥ 1. -/
def lStr (l : LRec) (k : Nat) : Int := sint 64 (bytesAt l (32 + 8 * k) 8)
def lSbase (l : LRec) : Nat := bytesAt l 80 8
def lZbase (l : LRec) : Nat := bytesAt l 88 8
def lSstr (l : LRec) : Nat := bytesAt l 96 4
def lZstr (l : LRec) : Nat := bytesAt l 100 4
def lCount (l : LRec) : Nat := ((List.range 6).map (lDim l)).foldl (· * ·) 1

/-- Malformed (R122). -/
def lrecBad (l : LRec) : Bool :=
  decide (2 ^ 52 ≤ lBase l) || bit (bytesAt l 12 1) 7 || decide (4 ≤ bytesAt l 13 1) || decide (bytesAt l 14 2 ≠ 0) ||
  decide (bytesAt l 104 88 ≠ 0) || decide (8 < lFmt l) || decide (lRank l = 0) || decide (lRank l = 7) ||
  (List.range 6).any (fun k => decide (lDim l k = 0) || (decide (lRank l ≤ k) && decide (lDim l k ≠ 1))) ||
  decide (2 ^ 48 < lCount l) || (fmtQuant (lFmt l) != decide (lGsz l ≠ 0)) ||
  (decide (lGsz l ≠ 0) && decide (lDim l 0 % groupSize (lGsz l) ≠ 0))

/-- Row ρ's first byte: i1 runs fastest (R122). -/
def lRow (l : LRec) (row : Nat) : Int :=
  let step (k : Nat) (a : Nat × Int) : Nat × Int := (a.1 / lDim l k, a.2 + ((a.1 % lDim l k : Nat) : Int) * lStr l k)
  ((([1, 2, 3, 4, 5] : List Nat).foldl (fun a k => step k a) (row, (lBase l : Int)))).2

/-- Rows of the tensor. -/
def lRows (l : LRec) : Nat := lDim l 1 * lDim l 2 * lDim l 3 * lDim l 4 * lDim l 5

/-- The image of a record that a cluster's record cache holds. -/
def heldRec (w : Who) (cl : Option ClusterId) (h : Nat) (s : State) : Option LRec :=
  (cl.bind (fun cl => (s.cluster cl).recs.find? (fun e => e.1 == w.asid && e.2.1 == wd h))).map (fun e => e.2.2)

/-- A layout record through a cluster's record cache: a cached image of the whole record, or a fresh read (R123). The IOC reads
afresh, without a cache. A poisoned record delivers nothing (R87). How the cache replaces its entries is the model's choice (log
entry 48): a held image is used, and a read beyond 32 entries drops the oldest. -/
def readLRec (w : Who) (cl : Option ClusterId) (h : Nat) : SM (Except (PFault × Word) LRec) := do
  match heldRec w cl h (← get) with
  | some l => return .ok l
  | none =>
    match ← readVirt w h 192 with
    | .error f => return .error f
    | .ok g =>
      if g.poison then return .error (PFault.poisoned, wd h)
      else do
        modify (fun s => match cl with
          | none => s
          | some cl => s.updCluster cl (fun k => { k with recs := ((w.asid, wd h, g.bytes) :: k.recs).take 32 }))
        return .ok g.bytes

/-! ### Shape and units (R111, R114, R122) -/

/-- A side's row starts: bytes of row i, with the bit offset of its first element. -/
def sideRow (l : Option LRec) (addr str pos i w : Nat) : Int × Nat :=
  match l with
  | none => ((addr : Int) + (i : Int) * sint 32 str, 0)
  | some l => (lRow l (pos + i), str * w)

/-- Every row that a side uses starts at a multiple of the element size, for widths of 16 and 32 bits (R114). -/
def rowsFit (l : Option LRec) (addr str pos rows w : Nat) : Bool :=
  decide (w < 16) || (List.range rows).all (fun i => decide ((sideRow l addr str pos i w).1 % ((w / 8 : Nat) : Int) = 0))

/-- A side breaks the range and shape rules of R114 and R122. -/
def sideBad (l : Option LRec) (addr str pos rows cols w : Nat) : Bool :=
  !rowsFit l addr str pos rows w ||
  (match l with
   | none => false
   | some l =>
     (decide (rows ≠ 0) && decide (lRows l < pos + rows)) || (decide (cols ≠ 0) && decide (lDim l 0 < str + cols)) ||
     decide (fmtBits (lFmt l) ≠ w) || (fmtQuant (lFmt l) && decide (str % groupSize (lGsz l) ≠ 0)))

/-- SHAPE (R114, R122). -/
def shapeBad (r : XRec) (sl dl : Option LRec) : Bool :=
  let dr := if r.trans then r.e0 else r.e1
  let dc := if r.trans then r.e1 else r.e0
  decide (r.e0 * r.w % 8 ≠ 0) || (r.trans && decide (r.e1 * r.w % 8 ≠ 0)) ||
  sideBad sl r.src r.sstr r.spos r.e1 r.e0 r.w || sideBad dl r.dst r.dstr r.dpos dr dc r.w

/-- Units of a record (R111); none when it moves no data. -/
def unitsOf (r : XRec) : Nat :=
  if r.e0 = 0 ∨ r.e1 = 0 then 0
  else if r.trans then ((r.e1 + 63) / 64) * ((r.e0 + 63) / 64)
  else r.e1 * ((r.e0 + 127) / 128)

/-- A row's run: element `c0` and `n` elements from the row start. -/
def rowRun (start : Int × Nat) (c0 n w : Nat) : Run := (vaOf (start.1 + ((start.2 + c0 * w) / 8 : Nat)), n * w / 8)

/-- The source and destination runs of unit k (R111, R114). -/
def unitRuns (r : XRec) (sl dl : Option LRec) (k : Nat) : List Run × List Run :=
  let w := r.w
  if r.trans then
    let cbs := (r.e0 + 63) / 64
    let r0 := k / cbs * 64
    let c0 := k % cbs * 64
    let nr := min 64 (r.e1 - r0)
    let nc := min 64 (r.e0 - c0)
    ((List.range nr).map (fun i => rowRun (sideRow sl r.src r.sstr r.spos (r0 + i) w) c0 nc w),
     (List.range nc).map (fun j => rowRun (sideRow dl r.dst r.dstr r.dpos (c0 + j) w) r0 nr w))
  else
    let upr := (r.e0 + 127) / 128
    let i := k / upr
    let c0 := k % upr * 128
    let n := min 128 (r.e0 - c0)
    ([rowRun (sideRow sl r.src r.sstr r.spos i w) c0 n w], [rowRun (sideRow dl r.dst r.dstr r.dpos i w) c0 n w])

/-- Rows and columns exchanged, codes moved bit-exactly; element j of a row is bits [jw + w − 1 : jw] of its string (R33, R115). -/
def transposeRows (rows : List (List Byte)) (w nOut : Nat) : List (List Byte) :=
  (List.range nOut).map (fun j =>
    let v := (rows.zipIdx).foldl (fun acc p => acc + bits (leNat p.1) (j * w) w * 2 ^ (p.2 * w)) 0
    natBytes (rows.length * w / 8) v)

/-- How a unit went: done, a fault of R96, a poisoned sector (R87), or a destination the gate denied (R312). -/
inductive UnitEnd where
  | done
  | fault (f : PFault) (va : Word)
  | poison
  | denied (va : Word)
  /-- a guarded read waits: the unit has not started (R301) -/
  | waits
  deriving DecidableEq, Repr

/-- A fault, or why there is none of R96. -/
def unitFault (f : PFault × Word) : UnitEnd :=
  if f.1.poison then .poison else .fault f.1 f.2

/-- The cause of a translation fault (R120). -/
def faultCause (f : PFault) : Byte := BitVec.ofNat 8 (f.stage * 16 + f.kind)

/-- How the writes of a unit went, together. -/
def unitWrote (e : UnitEnd) (d : WroteTo) : UnitEnd :=
  match e, d with
  | _, .poison => .poison
  | .done, .denied va => .denied va
  | e, _ => e

/-- The race records of what an engine writes: the issuer's slot and its SYNC at issue (R247). -/
def engineRace (c : CoreId) (w : Who) (sync : BitVec 16) (ps : List Piece) : SM Unit :=
  ps.forM (fun p => do
    if p.page.race then do
      let k := (← get).core c
      writeRace w p.pa (raceRecord sync k.id.phn k.id.jobid k.id.slot)
    else pure ())

/-- The destination bytes of a unit, row by row, whose race records `stamp` writes. -/
def putRows (w : Who) (stamp : List Piece → SM Unit) (dps : List (List Piece)) (rows : List (List Byte)) (lbl : Label) : SM UnitEnd :=
  (dps.zip rows).foldlM (fun (acc : UnitEnd) p => do
    stamp p.1
    return unitWrote acc (← writePieces w p.1 p.2 lbl)) .done

/-- One unit (R111): every page of its source and destination, of which the lowest that faults is reported (R100), then every source
byte, then the destination bytes. The data take the joined label of the unit's source sectors (log entry 13). -/
def moveUnit (w : Who) (stamp : List Piece → SM Unit) (r : XRec) (sl dl : Option LRec) (k : Nat) : SM UnitEnd := do
  let (src, dst) := unitRuns r sl dl k
  match ← translateRuns w (touches .read src ++ touches .write dst) with
  | .error f => return unitFault f
  | .ok pages => do
    let sps := src.map (fun q => pieces pages q.1 q.2)
    let dps := dst.map (fun q => pieces pages q.1 q.2)
    let rows ← sps.mapM (readPieces w)
    if rows.any (fun g => g.poison) then return .poison
    else do
      let lbl ← joinAll w.die w.pid (rows.map (fun g => g.lbl))
      let data := rows.map (fun g => g.bytes)
      putRows w stamp dps (if r.trans then transposeRows data r.w dst.length else data) lbl

/-- One unit for a task (R111): a guarded read waits before the unit starts, or is recorded as stale (R301, R302). -/
def doUnit (c : CoreId) (w : Who) (sync : BitVec 16) (r : XRec) (sl dl : Option LRec) (k : Nat) : SM UnitEnd := fun s =>
  let marks := guardedBy s c (unitRuns r sl dl k).1
  if marks.any (fun m => !m.stok) then (.waits, s)
  else
    let (e, s1) := moveUnit w (engineRace c w sync) r sl dl k s
    match e with
    | .done | .denied _ => (e, (staleMark marks s1).2)
    | _ => (e, s1)

/-! ### Record checks (R120, R124) -/

/-- Why a record's checks stop: a cause with its address (R120), or a poisoned sector (R87). -/
inductive ChkEnd where
  | bad (cause : Byte) (va : Word)
  | poison
  deriving DecidableEq, Repr

def chkFault (f : PFault × Word) : ChkEnd := if f.1.poison then .poison else .bad (faultCause f.1) f.2

/-- The layout record of a side that has one. -/
def readSide (w : Who) (cl : Option ClusterId) (use : Bool) (h : Nat) : SM (Except ChkEnd (Option LRec)) := do
  if !use then return .ok none
  else match ← readLRec w cl h with
    | .error f => return .error (chkFault f)
    | .ok l => return .ok (some l)

/-- The layout records of a record's sides (R120, R124): MISALIGN of a handle of either side, then a fault in reading either record,
the source's first, then LRECBAD of either. -/
def readSides (w : Who) (cl : Option ClusterId) (addr : Word) (r : XRec) : SM (Except ChkEnd (Option LRec × Option LRec)) := do
  if (r.srcl && decide (r.src % 64 ≠ 0)) || (r.dstl && decide (r.dst % 64 ≠ 0)) then return .error (.bad 0x02 addr)
  else match ← readSide w cl r.srcl r.src with
    | .error e => return .error e
    | .ok a =>
      match ← readSide w cl r.dstl r.dst with
      | .error e => return .error e
      | .ok b => return if a.any lrecBad || b.any lrecBad then .error (.bad 0x05 addr) else .ok (a, b)

/-- The bytes of layout records that the checks of a copy read from memory: those of its sides' handles that the record cache does not hold
(R123). -/
def sideReads (w : Who) (cl : Option ClusterId) (r : XRec) (s : State) : List Run :=
  let one (use : Bool) (h : Nat) : List Run := if use && decide (h % 64 = 0) && (heldRec w cl h s).isNone then [(h, 192)] else []
  one r.srcl r.src ++ one r.dstl r.dst

/-- A read of the transfer engine for a task that a guard holds up: it has not started (R301). -/
def guardHolds (s : State) (c : CoreId) (runs : List Run) : Bool := (guardedBy s c runs).any (fun m => !m.stok)

/-- The byte span of a side, lowest to highest byte (R124). -/
def spanOf (rs : List Run) : Nat × Nat :=
  rs.foldl (fun a r => (min a.1 r.1, max a.2 (r.1 + r.2))) (2 ^ 64, 0)

/-- The row runs of a whole side. -/
def sideRuns (l : Option LRec) (addr str pos rows cols w : Nat) : List Run :=
  (List.range rows).map (fun i => rowRun (sideRow l addr str pos i w) 0 cols w)

def overlaps (r : XRec) (sl dl : Option LRec) : Bool :=
  if unitsOf r = 0 then false
  else
    let a := spanOf (sideRuns sl r.src r.sstr r.spos r.e1 r.e0 r.w)
    let b := spanOf (sideRuns dl r.dst r.dstr r.dpos (if r.trans then r.e0 else r.e1) (if r.trans then r.e1 else r.e0) r.w)
    decide (a.1 < b.2) && decide (b.1 < a.2)

/-- The checks of a copy before its first unit (R120, R124, R339): RECBAD, in which NEXT counts for a channel, the layout records,
SHAPE, and for a `tcp` the spans. -/
def checkCopy (w : Who) (cl : Option ClusterId) (useNext spans : Bool) (k : Copy) : SM (Except ChkEnd Copy) := do
  let r := parseRec k.img
  if recBad k.img useNext then return .error (.bad 0x04 k.addr)
  else match ← readSides w cl k.addr r with
    | .error e => return .error e
    | .ok (a, b) =>
      return if shapeBad r a b then .error (.bad 0x06 k.addr)
        else if spans && overlaps r a b then .error (.bad 0x07 k.addr)
        else .ok { k with checked := true, srcL := a, dstL := b }

def Copy.fresh (img : List Byte) (addr : Word) (sync : BitVec 16) : Copy :=
  { img := img, addr := addr, checked := false, srcL := none, dstL := none, unit := 0, late := false, sync := sync, stage := 0,
    ended := none }

/-- The engines of a core's task work on a command: its job is bound, drains, or has stopped only its issue (R345); at a checkpoint
they stop at the boundary they have reached (R119, R362). While a replay waits at an earlier command, later ones wait (R364). -/
def engineLive (s : State) (c : CoreId) (seqs : List Nat) : Bool :=
  (match s.coreJob c with
   | some j => (match j.st with | .bound => true | .draining _ => true | .stopped => j.form == some .drain | _ => false)
   | none => false) &&
  (match (s.core c).replay with | [] => true | n :: _ => seqs.all (fun m => decide ((s.core c).past m < (s.core c).past n)))

/-! ### Channels (R119 to R121) -/

def chanAt (s : State) (cl : ClusterId) (ch : BitVec 3) : Chan := rd (s.cluster cl).chans (i3 ch)
def updChan (cl : ClusterId) (ch : BitVec 3) (f : Chan → Chan) (s : State) : State :=
  s.updCluster cl (fun k => { k with chans := wr k.chans (i3 ch) (f (rd k.chans (i3 ch))) })

/-- A channel whose commands are complete: IDLE or ERROR (R361). -/
def chanDone (cl : ClusterId) (ch : BitVec 3) (s : State) : State :=
  let k := chanAt s cl ch
  let s1 := k.seqs.foldl (fun s p => s.updCore p.1 (jDone p.2)) s
  updChan cl ch (fun k => { k with seqs := [] }) s1

/-- A channel enters FAULT or ERROR: the cause is recorded and its issuer takes the channel-error trap (R119, R121). -/
def chanFail (cl : ClusterId) (ch : BitVec 3) (st : ChanSt) (cause : Byte) (va : Word) (s : State) : State :=
  let k := chanAt s cl ch
  let s1 := updChan cl ch (fun k => { k with st := st, cause := cause }) s
  let s2 := match k.issuer with
    | some c => queueTrap c { cause := causeWord true 0 cCHANERR cause.toNat, tval := va, src := .chan ch } s1
    | none => s1
  if st = .error then chanDone cl ch s2 else s2

/-- An aborting channel stops at the end of its unit (R119). -/
def chanAborted (cl : ClusterId) (ch : BitVec 3) (s : State) : State :=
  chanDone cl ch (updChan cl ch (fun k => { k with st := .idle, cause := 0x0F, copy := none }) s)

/-- Starting a chain (R119). -/
def chanStart (c : CoreId) (seq : Nat) (head : Word) (sync : BitVec 16) (k : Chan) : Chan :=
  { st := .run, cause := 0, cursor := head, count := 0, issuer := some c, seqs := k.seqs ++ [(c, seq)], sync := sync, copy := none }

/-- The commands of a core that a channel works on. -/
def Chan.seqsOf (k : Chan) (c : CoreId) : List Nat := (k.seqs.filter (fun p => p.1 == c)).map (fun p => p.2)

/-- CHAN_GO (R119, R125): a `chan.go` of 0 resumes the kept unit for its own task, whose SYNC now stamps it (R247). -/
def execChanGo (a : BitVec 6) (ch : BitVec 3) : State → Out :=
  runPlain (fun c => do
    let v ← readX c a
    let cl := clusterOf c
    let k := chanAt (← get) cl ch
    let w := wordOf (.chanGo a ch)
    match k.st with
    | .run | .aborting => trapNow cILLEGAL w
    | .idle | .error | .fault => do
      need (decide (v ≠ 0) || decide (k.st = .fault)) cILLEGAL w
      let kk ← getCore c
      let seq ← jNew c false (.chanGo a ch) v 0 0 0
      if v = 0 then
        modify (updChan cl ch (fun k => { k with
          st := .run, issuer := some c, seqs := k.seqs ++ [(c, seq)], sync := kk.sync, copy := k.copy.map (fun p => { p with sync := kk.sync }) }))
      else modify (updChan cl ch (chanStart c seq v kk.sync)))

/-- The state codes of `chan.stat` (R119). -/
def ChanSt.code : ChanSt → Nat
  | .idle => 0 | .run => 1 | .fault => 2 | .error => 3 | .aborting => 4

/-- CHAN_STAT (R126). -/
def execChanStat (d : BitVec 6) (ch : BitVec 3) : State → Out :=
  runPlain (fun c => do
    needFree c d
    let k := chanAt (← get) (clusterOf c) ch
    writeX c d (wd (k.st.code + bits k.cursor.toNat 6 46 * 64 + k.cause.toNat * 2 ^ 56)) 0)

/-- CHAN_ABORT (R119, R127). -/
def execChanAbort (ch : BitVec 3) : State → Out :=
  runPlain (fun c => do
    let cl := clusterOf c
    match (chanAt (← get) cl ch).st with
    | .run => modify (updChan cl ch (fun k => { k with st := .aborting }))
    | .fault | .error => modify (fun s => chanDone cl ch (updChan cl ch (fun k => { k with st := .idle, copy := none }) s))
    | .idle | .aborting => pure ())

/-- LREC_FLUSH (R128): every record cache of the partition, under the current ASID. -/
def execLrecFlush (a : BitVec 6) : State → Out :=
  runPlain (fun c => do
    let v ← readX c a
    let k ← getCore c
    if v.toNat < 2 ^ 52 then
      modify (fun s => ((s.part k.id.pid).clusters ++ [clusterOf c]).foldl (fun (s : State) cl =>
        s.updCluster cl (fun q => { q with recs := q.recs.filter (fun e => !(e.1 == k.id.asid && e.2.1.toNat == v.toNat / 64 * 64)) })) s)
    else pure ())

/-- TCP (R124): the record is read at issue; at most eight copies of a core are in flight. -/
def execTcp (d a : BitVec 6) : State → Out :=
  runPlain (fun c => do
    needFree c d
    let v ← readX c a
    if v.toNat % 64 ≠ 0 then jEnds c false (.tcp d a) v 0 d (copyStatus 0x02 v)
    else do
      let marks ← guardCheck c .C (.tcp d a) [(v.toNat, 64)]
      let g ← strandRead c .C v.toNat 64 false
      let k ← getCore c
      waitUnless (decide (k.tcps.length < 8))
      jRoom c
      lift (staleMark marks)
      let seq ← jNew c false (.tcp d a) v 0 (k.xval d) (k.xlbl d)
      addPend c { reg := d, src := .tcp seq, val := none, lbl := 0, seq := some seq }
      modCore c (fun k => { k with tcps := k.tcps ++ [{ reg := d, seq := seq, copy := Copy.fresh g.bytes v k.sync }] }))

/-- A channel's record checks have stopped. -/
def chanChk (cl : ClusterId) (ch : BitVec 3) (c : CoreId) (e : ChkEnd) (s : State) : State :=
  match e with
  | .bad cause va => chanFail cl ch .error cause va s
  | .poison => killJobOf c s

/-- A record's layout records are read and its checks made, once no guard holds the reads up; those of a record that a restore has brought
back are read again before its next unit (log entry 8). -/
def chanSides (cl : ClusterId) (ch : BitVec 3) (c : CoreId) (w : Who) (cp : Copy) (s : State) : State :=
  let runs := sideReads w (some cl) (parseRec cp.img) s
  if guardHolds s c runs then updChan cl ch (fun k => { k with copy := some cp }) s
  else
    match checkCopy w (some cl) true false cp s with
    | (.error e, s1) => chanChk cl ch c e s1
    | (.ok cp1, s1) => updChan cl ch (fun k => { k with copy := some cp1 }) (staleMark (guardedBy s c runs) s1).2

/-- TRANSFER_RECORD_READ (R118, R120): a running channel reads its next record and makes the record checks in order. -/
def execTransferRecordRead (cl : ClusterId) (ch : BitVec 3) (s : State) : Out :=
  let k := chanAt s cl ch
  if k.st = .aborting && k.copy.isNone then .next (chanAborted cl ch s)
  else if k.st ≠ .run || k.copy.any (fun p => p.checked) then .next s
  else match k.issuer with
    | none => .next s
    | some c =>
      let w := engineWho s c 1 ch.toNat
      if !engineLive s c (k.seqsOf c) then .next s
      else if let some cp := k.copy then .next (chanSides cl ch c w cp s)
      else if 2 ^ 20 ≤ k.count + 1 then .next (chanFail cl ch .error 0x03 k.cursor s)
      else if k.cursor.toNat % 64 ≠ 0 then .next (chanFail cl ch .error 0x02 k.cursor s)
      else if guardHolds s c [(k.cursor.toNat, 64)] then .next s
      else match readVirt w k.cursor.toNat 64 s with
        | (.error f, s1) => .next (chanChk cl ch c (chkFault f) s1)
        | (.ok g, s1) =>
          let s2 := (staleMark (guardedBy s c [(k.cursor.toNat, 64)]) s1).2
          if g.poison then .next (killJobOf c s1)
          else if !(parseRec g.bytes).own then .next (chanFail cl ch .error 0x01 k.cursor s2)
          else .next (chanSides cl ch c w (Copy.fresh g.bytes k.cursor k.sync) s2)

/-- The next unit of a channel's record. -/
def chanUnit (cl : ClusterId) (ch : BitVec 3) (s : State) : State :=
  let k := chanAt s cl ch
  match k.st, k.issuer, k.copy with
    | .aborting, _, some cp => if cp.stage = 0 then chanAborted cl ch s else s
    | .aborting, _, none => chanAborted cl ch s
    | .run, some c, some cp =>
      let r := parseRec cp.img
      if !cp.checked || decide (unitsOf r ≤ cp.unit) || !engineLive s c (k.seqsOf c) then s
      else
        let w := engineWho s c 1 ch.toNat
        let (e, s1) := doUnit c w cp.sync r cp.srcL cp.dstL cp.unit s
        let go (s : State) := updChan cl ch (fun k => { k with copy := some { cp with unit := cp.unit + 1 } }) s
        match e with
        | .done => go s1
        | .denied va => go (relDeny c va s1)
        | .fault f va => chanFail cl ch .fault (faultCause f) va s1
        | .poison => killJobOf c s1
        | .waits => s1
    | _, _, _ => s

def updTcp (c : CoreId) (n : Nat) (f : TcpCopy → TcpCopy) (s : State) : State :=
  s.updCore c (fun k => { k with tcps := k.tcps.modify n f })

/-- The next unit of a `tcp` copy, its checks before the first (R124). A `tcp` has no channel: slice watchpoints record channel 0 for
its writes, the model's choice (log entry 46). -/
def tcpUnit (c : CoreId) (n : Nat) (s : State) : State :=
  match (s.core c).tcps[n]? with
  | none => s
  | some t =>
    if t.copy.ended.isSome || !engineLive s c [t.seq] then s
    else
      let w := engineWho s c 1 0
      let r := parseRec t.copy.img
      let runs := if t.copy.checked then [] else sideReads w (some (clusterOf c)) r s
      if guardHolds s c runs then s
      else
      let (chk, s1) := if t.copy.checked then (Except.ok t.copy, s) else checkCopy w (some (clusterOf c)) false true t.copy s
      match chk with
      | .error (.bad cause va) => updTcp c n (fun t => { t with copy := { t.copy with ended := some (cause, va) } }) s1
      | .error .poison => killJobOf c s1
      | .ok cp =>
        let s1 := (staleMark (guardedBy s c runs) s1).2
        let set (k : Copy) (s : State) := updTcp c n (fun t => { t with copy := k }) s
        let fin (k : Copy) : Copy := if unitsOf r ≤ k.unit then { k with ended := some (0, k.addr) } else k
        if unitsOf r ≤ cp.unit then set (fin cp) s1
        else
          let (e, s2) := doUnit c w cp.sync r cp.srcL cp.dstL cp.unit s1
          match e with
          | .done => set (fin { cp with unit := cp.unit + 1 }) s2
          | .denied va => set (fin { cp with unit := cp.unit + 1 }) (relDeny c va s2)
          | .fault f va => set { cp with ended := some (faultCause f, va) } s2
          | .poison => killJobOf c s2
          | .waits => s2

/-- TRANSFER_UNIT (R111). -/
def execTransferUnit (src : XferSrc) (s : State) : Out :=
  match src with
  | .chan cl ch => .next (chanUnit cl ch s)
  | .tcp c n => .next (tcpUnit c n s)

/-- The completion increment (R117): as `sem.rel` of one; at 65,535 it is not applied. -/
def completeSem (c : CoreId) (r : XRec) (s : State) : Bool × State :=
  if !r.cmpl then (true, s)
  else
    let h := if r.peer then peerOf c else c
    let n := BitVec.ofNat 6 r.sem
    if ((s.core h).sem n).count.toNat = 65535 then (false, s) else (true, semRelease c h n 1 s)

/-- A write of an engine for a task: its pages, its race records, its bytes (R247). -/
def engineWrite (c : CoreId) (w : Who) (sync : BitVec 16) (va : Nat) (bs : List Byte) (lbl : Label) :
    SM (Except (PFault × Word) WroteTo) := do
  match ← translate w va bs.length .write with
  | .error f => return .error f
  | .ok pages => do
    let ps := pieces pages va bs.length
    engineRace c w sync ps
    return .ok (← writePieces w ps bs lbl)

/-- Bytes 8 to 15 of a finished record: OWN = 0, CAUSE = 0x00, every other bit as read (R117). -/
def doneWord (img : List Byte) : Nat := setBits (setBits (bytesAt img 8 8) 0 1 0) 24 8 0

/-- The first step of a record's completion: its write-back (R117). -/
def chanWriteBack (cl : ClusterId) (ch : BitVec 3) (c : CoreId) (k : Chan) (cp : Copy) (s : State) : State :=
  match engineWrite c (engineWho s c 1 ch.toNat) cp.sync (k.cursor.toNat + 8) (natBytes 8 (doneWord cp.img)) 0 s with
  | (.error f, s1) => chanChk cl ch c (chkFault f) s1
  | (.ok d, s1) => updChan cl ch (fun k => { k with copy := some { cp with stage := 1 } }) (wrote c d s1)

/-- The second: the increment; a count at 65,535 stops the channel (R117). -/
def chanIncrement (cl : ClusterId) (ch : BitVec 3) (c : CoreId) (k : Chan) (cp : Copy) (s : State) : State :=
  let (ok, s1) := completeSem c (parseRec cp.img) s
  if ok then updChan cl ch (fun k => { k with copy := some { cp with stage := 2 } }) s1 else chanFail cl ch .error 0x08 k.cursor s1

/-- The third: NEXT, or the end of the chain (R117); an abort that came meanwhile ends it (R119, log entry 48). -/
def chanAdvance (cl : ClusterId) (ch : BitVec 3) (cp : Copy) (s : State) : State :=
  let r := parseRec cp.img
  if (chanAt s cl ch).st = .aborting then chanAborted cl ch s
  else if r.next = 0 then chanDone cl ch (updChan cl ch (fun k => { k with st := .idle, copy := none }) s)
  else updChan cl ch (fun k => { k with cursor := wd r.next, count := k.count + 1, copy := none }) s

/-- The next step of the completion of a channel's record, once its last unit has performed. -/
def chanComplete (cl : ClusterId) (ch : BitVec 3) (s : State) : State :=
  let k := chanAt s cl ch
  match k.issuer, k.copy with
  | some c, some cp =>
    if cp.stage = 0 then chanWriteBack cl ch c k cp s
    else if cp.stage = 1 then chanIncrement cl ch c k cp s
    else chanAdvance cl ch cp s
  | _, _ => s

/-- RECORD_COMPLETION (R117): write-back with OWN = 0 and CAUSE = 0, the increment, then NEXT, each a step of its own (R387, R389). -/
def execRecordCompletion (cl : ClusterId) (ch : BitVec 3) (s : State) : Out :=
  let k := chanAt s cl ch
  match k.st, k.issuer, k.copy with
  | .aborting, some _, some cp => .next (if cp.stage = 0 then chanAborted cl ch s else chanComplete cl ch s)
  | .aborting, _, _ => .next (chanAborted cl ch s)
  | .run, some c, some cp =>
    if !cp.checked || decide (cp.unit < unitsOf (parseRec cp.img)) || !engineLive s c (k.seqsOf c) then .next s
    else .next (chanComplete cl ch s)
  | _, _, _ => .next s

/-- A completion that has begun is ended, as at a checkpoint (R119, R362). -/
def chanSettle (cl : ClusterId) (ch : BitVec 3) (s : State) : State :=
  let go (s : State) : State :=
    match (chanAt s cl ch).st, (chanAt s cl ch).copy with
    | .run, some cp => if cp.stage = 0 then s else chanComplete cl ch s
    | .aborting, some cp => if cp.stage = 0 then s else chanComplete cl ch s
    | _, _ => s
  go (go s)

/-- TCP_COMPLETION (R124): the completion increment, then the token's status in x[d]. -/
def execTcpCompletion (c : CoreId) (n : Nat) (s : State) : Out :=
  match (s.core c).tcps[n]? with
  | none => .next s
  | some t =>
    match t.copy.ended with
    | none => .next s
    | some (cause, va) =>
      if !engineLive s c [t.seq] then .next s else
      let (ok, s1) := if cause = 0 then completeSem c (parseRec t.copy.img) s else (true, s)
      let v := if ok then copyStatus cause va else copyStatus 0x08 t.copy.addr
      .next (s1.updCore c (fun k =>
        let k1 := { k with tcps := k.tcps.eraseIdx n }
        match k1.pend.find? (fun p => p.src == .tcp t.seq) with
        | some p => deliverPend p v k1
        | none => jDone t.seq k1))

/-- Whether the lead of an offload record's deadline has been reached (R116). -/
def leadReached (r : XRec) (now : Word) : Bool :=
  r.offl && decide (r.deadline ≠ 0) && decide (r.deadline - 2 ^ (r.dlead + 6) ≤ now.toNat)

/-- DEADLINE_LEAD_REACHED (R116): the remaining units travel in the ordinary class; no data change. -/
def execDeadlineLeadReached (src : XferSrc) (s : State) : Out :=
  let mark (k : Copy) : Copy := if leadReached (parseRec k.img) s.time then { k with late := true } else k
  match src with
  | .chan cl ch => .next (updChan cl ch (fun k => { k with copy := k.copy.map mark }) s)
  | .tcp c n => .next (updTcp c n (fun t => { t with copy := mark t.copy }) s)

end Sys2Proof.Machine
end

