-- ==== Sys2Proof/Machine/Stream.lean ====
section
/-! DEFINITION. Stream descriptors and the accesses of the L and S strands through them (R100, R136, R137, R142). -/

namespace Sys2Proof.Machine

/-! ### Fields of a descriptor (R136) -/

def SDesc.base (d : SDesc) : Nat := bits d.q0.toNat 0 52
def SDesc.lr (d : SDesc) : Bool := bit d.q0.toNat 52
def SDesc.fmt (d : SDesc) : Nat := bits d.q1.toNat 0 4
def SDesc.gsz (d : SDesc) : Nat := bits d.q1.toNat 4 2
def SDesc.brows (d : SDesc) : Nat := bits d.q1.toNat 8 8
def SDesc.bcols (d : SDesc) : Nat := bits d.q1.toNat 16 10
def SDesc.ncb (d : SDesc) : Nat := bits d.q1.toNat 32 16
def SDesc.nbr (d : SDesc) : Nat := bits d.q1.toNat 48 16
def SDesc.rstr (d : SDesc) : Int := sint 32 (bits d.q2.toNat 0 32)
def SDesc.brstr (d : SDesc) : Int := sint 32 (bits d.q2.toNat 32 32)
def SDesc.soff (d : SDesc) : Int := sint 20 (bits d.q3.toNat 0 20)
def SDesc.zoff (d : SDesc) : Int := sint 20 (bits d.q3.toNat 20 20)
def SDesc.sstr (d : SDesc) : Nat := bits d.q3.toNat 40 13
def SDesc.zstr (d : SDesc) : Nat := bits d.q3.toNat 53 11
/-- Element width and group size. -/
def SDesc.w (d : SDesc) : Nat := fmtBits d.fmt
def SDesc.g (d : SDesc) : Nat := groupSize d.gsz

/-! ### The block at POS (R137) -/

def SDesc.bc (d : SDesc) : Nat := d.pos.toNat % d.ncb
def SDesc.br (d : SDesc) : Nat := d.pos.toNat / d.ncb
/-- The block's first byte. -/
def SDesc.start (d : SDesc) : Int := d.base + d.br * d.brstr + (d.bc * d.bcols * d.w / 8 : Nat)
/-- POS after the block. -/
def SDesc.advance (d : SDesc) : SDesc :=
  let p := d.pos + 1
  { d with pos := if d.nbr ≠ 0 ∧ p.toNat = d.ncb * d.nbr then 0 else p }

/-- The codes of a row r of the block. -/
def SDesc.codeRun (d : SDesc) (r : Int) : Run := (vaOf (d.start + r * d.rstr), (d.bcols * d.w + 7) / 8)

/-- The first group of the block's columns and the number of groups; none for a format without groups. Of a block that does not end with a
group, which `sd.fmt` refuses and a later `sd.base` can make, the groups that it touches: the model's choice (log entry 50). -/
def SDesc.groups (d : SDesc) : Nat × Nat :=
  if d.g = 0 then (0, 0) else let u := d.bc * d.bcols; (u / d.g, (u + d.bcols - 1) / d.g - u / d.g + 1)

/-- The scales of row number q. -/
def SDesc.scaleRun (d : SDesc) (q : Int) : Run :=
  (vaOf (d.base + 64 * d.soff + q * d.sstr + (2 * d.groups.1 : Nat)), 2 * d.groups.2)

/-- The bit of the zero-point string at which row number q's first entry stands. -/
def SDesc.zpBit (d : SDesc) (q : Int) : Int := (q * d.zstr + d.groups.1) * d.w
def SDesc.zpRun (d : SDesc) (q : Int) : Run :=
  let b := d.zpBit q
  let sh := (b % 8).toNat
  (vaOf (d.base + 64 * d.zoff + b / 8), (sh + d.groups.2 * d.w + 7) / 8)

/-- Every byte run of the rows (r, q): codes, then scales, then zero points. -/
def SDesc.runs (d : SDesc) (rows : List (Int × Int)) : List Run :=
  rows.map (fun p => d.codeRun p.1) ++
  (if d.g = 0 then [] else rows.map (fun p => d.scaleRun p.2) ++ rows.map (fun p => d.zpRun p.2))

/-- Rows 0 to BROWS − 1 with their row numbers. -/
def SDesc.blockRows (d : SDesc) : List (Int × Int) :=
  (List.range d.brows).map (fun (r : Nat) => ((r : Int), ((d.br * d.brows + r : Nat) : Int)))

/-- Scale entries must be 2-byte aligned (R137). -/
def SDesc.scalesOk (d : SDesc) (rows : List (Int × Int)) : Bool :=
  decide (d.g = 0) || rows.all (fun p => decide ((d.scaleRun p.2).1 % 2 = 0))

/-! ### Accesses of several runs (R100, R106, R247) -/

/-- Pieces in rising virtual address. -/
def insertPiece (p : Piece) : List Piece → List Piece
  | [] => [p]
  | q :: t => if p.va ≤ q.va then p :: q :: t else q :: insertPiece p t

/-- The watchpoint check of an access of several runs; TVAL is the access's first byte (log entry 16). -/
def checkWatchRuns (c : CoreId) (st : Strand) (rs : List Run) (kd : WpKind) : M Unit := do
  let k ← getCore c
  let hits := rs.filterMap (fun r => wpHit k st (strandPc k st) r.1 r.2 kd)
  match hits with
  | [] => return ()
  | h :: t => do
    let (i, snap) := t.foldl (fun a b => if b.1 < a.1 then b else a) h
    if snap then modify (fireSnap k.id.pid 2)
    trapNow cWATCH (wd ((rs.headD (0, 0)).1)) i

/-- The virtual address of a ring entry (R140). -/
def entryVa (s : State) (c : CoreId) (q : Ring) (idx : Nat) : Nat :=
  ((windowOf s c).map (fun p => p.1)).getD 0 + 64 * (q.baseU.toNat + idx * q.esz.toNat)

/-- Runs of physical memory. -/
def physRuns (ps : List Piece) : List Run := ps.map (fun p => (p.pa, p.len))

/-- The memory that an instruction in flight has still to write into its ring entry (R141). -/
def entryRuns (s : State) (c : CoreId) (f : Flight) : List Run :=
  match f.rest with
  | .entry r idx runs _ =>
    let va := entryVa s c (rd (s.core c).ls.rg (i4 r)) idx
    physRuns (runs.flatMap (fun p => pieces f.pages (va + p.1) p.2.length))
  | _ => []

/-- Two lists of runs share a byte. -/
def runsMeet (xs ys : List Run) : Bool :=
  xs.any (fun x => ys.any (fun y => decide (x.1 < y.1 + y.2) && decide (y.1 < x.1 + x.2)))

/-- The agent of an engine strand's access: what the S strand writes lands at its slice (R226). -/
def engWho (s : State) (c : CoreId) (kd : WpKind) : Who :=
  let w := strandWho s c
  if kd.wr then { w with cache := none } else w

/-- A strand has still to write bytes that it would read now, under whatever address (R90, R235). -/
def writeAhead (s : State) (c : CoreId) (st : Strand) (rs : List Run) : Bool :=
  let mine := (s.core c).flights.filter (fun f => f.st == st)
  mine.any (fun f => match f.rest with | .entry _ _ _ _ => runsMeet (entryRuns s c f) (physRuns (piecesAt s c rs)) | _ => false)

/-- An access of several runs by an engine strand, with every check before any byte moves. `more` is translated with it (R100). -/
def openRunsE (c : CoreId) (st : Strand) (rs : List Run) (acc : Acc) (kd : WpKind) (more : List Touch := []) :
    M (Who × List Page × List (List Piece)) := do
  let w := engWho (← get) c kd
  let rs := rs.filter (fun r => decide (r.2 ≠ 0))
  match ← lift (translateRuns w (touches acc rs ++ more)) with
  | .error f => pageFault c f
  | .ok pages => do
    checkWatchRuns c st rs kd
    let ps := rs.map (fun r => pieces pages r.1 r.2)
    checkRace c st (ps.flatten.foldr insertPiece [])
    return (w, pages, ps)

/-- What the runs of a read deliver: one string of bytes a run, the joined label of every sector, the stale reads to record, and the pages
that were translated. -/
structure RunData where
  bytes : List (List Byte)
  lbl : Label
  marks : List GuardMark
  pages : List Page
  deriving DecidableEq, Repr

/-- Reading runs (R142): after the bytes that the strand has still to write where it reads (R235), and after guards (R301). The
instruction that goes on records the stale reads (R302). -/
def fetchRuns (c : CoreId) (st : Strand) (i : Instr) (rs : List Run) (more : List Touch := []) : M RunData := do
  let s ← get
  waitUnless (!writeAhead s c st rs)
  let marks ← guardCheck c st i rs
  let (w, pages, ps) ← openRunsE c st rs .read { rd := true, wr := false, ex := false } more
  let gs ← lift (ps.mapM (readPieces w))
  gs.forM (poisoned c)
  let lbl ← lift (joinAll w.die w.pid (gs.map (fun g => g.lbl)))
  return { bytes := gs.map (fun g => g.bytes), lbl := lbl, marks := marks, pages := pages }

/-- One row of a block: its codes, scales and zero points. -/
structure RowData where
  codes : List Nat
  scales : List Nat
  zps : List Nat
  deriving DecidableEq, Repr

/-- Rows of a block from the bytes of `SDesc.runs`. -/
def rowsOf (d : SDesc) (rows : List (Int × Int)) (bs : List (List Byte)) : List RowData :=
  let n := rows.length
  (rows.zipIdx).map (fun p =>
    let k := p.2
    { codes := (List.range d.bcols).map (codeAt (bs.getD k []) d.w),
      scales := (List.range d.groups.2).map (fun j => bytesAt (bs.getD (n + k) []) (2 * j) 2),
      zps :=
        let v := leNat (bs.getD (2 * n + k) []) / 2 ^ ((d.zpBit p.1.2) % 8).toNat
        (List.range d.groups.2).map (fun j => bits v (j * d.w) d.w) })

/-- Reading the rows (r, q) of the block at POS, and the pages translated; `more` is translated with them. Nothing after it traps. -/
def readRowsWith (c : CoreId) (i : Instr) (d : SDesc) (rows : List (Int × Int)) (more : List Touch) : M (List RowData × Label × List Page) := do
  need (d.scalesOk rows) cILLEGAL (wordOf i)
  let g ← fetchRuns c .L i (d.runs rows) more
  lift (staleMark g.marks)
  return (rowsOf d rows g.bytes, g.lbl, g.pages)

/-- Reading the rows (r, q) of the block at POS. -/
def readRows (c : CoreId) (i : Instr) (d : SDesc) (rows : List (Int × Int)) : M (List RowData × Label) := do
  let (data, lbl, _) ← readRowsWith c i d rows []
  return (data, lbl)

/-- A row widened (R143). -/
def widenRow (d : SDesc) (r : RowData) : List Word32 :=
  let u0 := d.bc * d.bcols
  (r.codes.zipIdx).map (fun p =>
    let gi := if d.g = 0 then 0 else (u0 + p.2) / d.g - d.groups.1
    widen d.fmt p.1 (r.zps.getD gi 0) (r.scales.getD gi 0))

/-- Codes packed into bytes (R33); the bits of the last byte that no code fills are 0, the model's choice (log entry 50). -/
def packCodes (w : Nat) (codes : List Nat) : List Byte :=
  natBytes ((codes.length * w + 7) / 8) ((codes.zipIdx).foldl (fun a p => a + p.1 % 2 ^ w * 2 ^ (p.2 * w)) 0)

/-- A tile from rows of up to 64 containers; the others are 0 (R143). -/
def tileOfRows (rows : List (List Word32)) : Tile :=
  ((List.range 16).map (fun r => let l := rows.getD r []; l.take 64 ++ List.replicate (64 - l.length) 0)).flatten

/-- A tile written with its label, in one step; a turn that tears the write apart is `tornStep` (R185). -/
def XState.setTile (x : XState) (d : BitVec 5) (t : Tile) (lbl : Label) : XState :=
  { x with vt := wr x.vt (i5 d) t, vtl := wr x.vtl (i5 d) lbl }
def XState.tile (x : XState) (d : BitVec 5) : Tile := rd x.vt (i5 d)
def XState.tlbl (x : XState) (d : BitVec 5) : Label := rd x.vtl (i5 d)

end Sys2Proof.Machine
end

