-- ==== Sys2Proof/Machine/LStrand.lean ====
section
/-! DEFINITION. The L strand: descriptors, operand rings, loads, the nest table (R136 to R147). -/

namespace Sys2Proof.Machine

def modLs (c : CoreId) (f : LState → LState) : M Unit := modCore c (fun k => { k with ls := f k.ls })
def modXs (c : CoreId) (f : XState → XState) : M Unit := modCore c (fun k => { k with xs := f k.xs })
def LState.desc (l : LState) (k : BitVec 5) : SDesc := rd l.sd (i5 k)
def LState.setDesc (l : LState) (k : BitVec 5) (d : SDesc) : LState := { l with sd := wr l.sd (i5 k) d }
def LState.ring (l : LState) (r : BitVec 4) : Ring := rd l.rg (i4 r)
def LState.setRing (l : LState) (r : BitVec 4) (g : Ring) : LState := { l with rg := wr l.rg (i4 r) g }

/-! ### Literal-form instructions (R138 to R140) -/

/-- The literal: an L-strand load of 8 bytes at pc + 4 × off10 + 8 × n[A] (R138), and the stale reads to record once the instruction
goes on. -/
def readLit (c : CoreId) (st : Strand) (i : Instr) (a : BitVec 4) (o : BitVec 10) : M (Nat × List GuardMark) := do
  let e := (← getCore c).eng st
  let ea := e.pc + 4 * sext64 o + 8 * (e.nreg a).setWidth 64
  let g ← fetchRuns c st i [(ea.toNat, 8)]
  return (leNat g.bytes.flatten, g.marks)

/-- A literal-form instruction's effect, with the record of its literal's stale reads (R138, R302). -/
def litDone (c : CoreId) (marks : List GuardMark) (f : LState → LState) : M EFlow := do
  lift (staleMark marks)
  modLs c f
  return {}

/-- The checks of `sd.fmt` (R138). -/
def fmtOk (v : Nat) : Bool :=
  let d : SDesc := { SDesc.reset with q1 := wd v }
  decide (bits v 6 2 = 0) && decide (bits v 26 6 = 0) && decide (d.w ≠ 0) && (fmtQuant d.fmt == decide (d.gsz ≠ 0)) &&
  decide (1 ≤ d.brows) && decide (d.brows ≤ 128) && decide (1 ≤ d.bcols) && decide (d.bcols ≤ 512) &&
  decide (d.bcols * d.w % 8 = 0) && (decide (d.g = 0) || decide (d.bcols % d.g = 0)) && decide (d.ncb ≠ 0)

/-- Whether an integer fits a signed field of n bits. -/
def fitsS (n : Nat) (v : Int) : Bool := decide (-(2 ^ (n - 1) : Nat) ≤ v) && decide (v < (2 ^ (n - 1) : Nat))

/-- A two's-complement field of n bits. -/
def fieldS (n : Nat) (v : Int) : Nat := (v % (2 ^ n : Nat)).toNat

/-- Rows evenly spaced: each Dk > 1, k ≥ 2, has STk = D(k−1) × ST(k−1) (R139). -/
def evenRows (l : LRec) : Bool :=
  ([2, 3, 4, 5] : List Nat).all (fun k => decide (lDim l k ≤ 1) || decide (lStr l k = (lDim l (k - 1) : Int) * lStr l (k - 1)))

/-- The descriptor that a layout record gives (R139); none where a field does not fit or the record does not suit. -/
def descOfLRec (l : LRec) (d : SDesc) : Option SDesc :=
  let q := fmtQuant (lFmt l)
  let ds : Int := (lSbase l : Int) - lBase l
  let dz : Int := (lZbase l : Int) - lBase l
  let soff := if q then ds / 64 else 0
  let zoff := if q then dz / 64 else 0
  let brstr := lStr l 1 * d.brows
  if lrecBad l || !evenRows l || decide (ds % 64 ≠ 0) || decide (dz % 64 ≠ 0) || !fitsS 32 (lStr l 1) ||
      !fitsS 32 brstr || !fitsS 20 soff || !fitsS 20 zoff || decide (2 ^ 13 ≤ lSstr l) || decide (2 ^ 11 ≤ lZstr l) then none
  else
    some { q0 := wd (2 ^ 52 + lBase l),
           q1 := wd (setBits (setBits d.q1.toNat 0 4 (lFmt l)) 4 2 (lGsz l)),
           q2 := wd (fieldS 32 (lStr l 1) + fieldS 32 brstr * 2 ^ 32),
           q3 := wd (fieldS 20 soff + fieldS 20 zoff * 2 ^ 20 + lSstr l * 2 ^ 40 + lZstr l * 2 ^ 53),
           pos := 0 }

/-- The stale reads of one instruction, of which another read met more blocks: a context counts them once (R302). -/
def alsoMark (a b : List GuardMark) : List GuardMark :=
  a.map (fun m => { m with blks := m.blks ++ ((b.filter (fun n => n.ctx == m.ctx)).flatMap (fun n => n.blks)).filter (fun i => !m.blks.contains i) }) ++
  b.filter (fun n => !a.any (fun m => m.ctx == n.ctx))

/-- SD_BASE (R138, R139): the literal, and with LR set the layout record that it names, after the bytes of it that the strand has still to
write (R235) and after guards (R301). -/
def execSdBase (w g : BitVec 3) (k : BitVec 5) (a : BitVec 4) (o : BitVec 10) : State → Out :=
  let i := Instr.sdBase w g k a o
  runE .L i w g (fun c st => do
    let (v, marks) ← readLit c st i a o
    need (decide (v < 2 ^ 53)) cILLEGAL (wordOf i)
    if bit v 52 then do
      let h := bits v 0 52
      need (decide (h % 64 = 0)) cILLEGAL (wordOf i)
      let s ← get
      let runs := if (heldRec (strandWho s c) (some (clusterOf c)) h s).isNone then [(h, 192)] else []
      waitUnless (!writeAhead s c st runs)
      let more ← guardCheck c st i runs
      match ← lift (readLRec (strandWho (← get) c) (some (clusterOf c)) h) with
      | .error f => pageFault c f
      | .ok l =>
        match descOfLRec l ((← getCore c).ls.desc k) with
        | none => trapNow cILLEGAL (wd h)
        | some d => litDone c (alsoMark marks more) (fun l => l.setDesc k d)
    else litDone c marks (fun l => l.setDesc k { l.desc k with q0 := wd v, pos := 0 }))

/-- SD_FMT (R138). -/
def execSdFmt (w g : BitVec 3) (k : BitVec 5) (a : BitVec 4) (o : BitVec 10) : State → Out :=
  let i := Instr.sdFmt w g k a o
  runE .L i w g (fun c st => do
    let (v, marks) ← readLit c st i a o
    need (fmtOk v) cILLEGAL (wordOf i)
    litDone c marks (fun l => l.setDesc k { l.desc k with q1 := wd v }))

/-- SD_GEOM (R138). -/
def execSdGeom (w g : BitVec 3) (k : BitVec 5) (a : BitVec 4) (o : BitVec 10) : State → Out :=
  let i := Instr.sdGeom w g k a o
  runE .L i w g (fun c st => do
    let (v, marks) ← readLit c st i a o
    litDone c marks (fun l => l.setDesc k { l.desc k with q2 := wd v }))

/-- SD_SCALE (R138). -/
def execSdScale (w g : BitVec 3) (k : BitVec 5) (a : BitVec 4) (o : BitVec 10) : State → Out :=
  let i := Instr.sdScale w g k a o
  runE .L i w g (fun c st => do
    let (v, marks) ← readLit c st i a o
    litDone c marks (fun l => l.setDesc k { l.desc k with q3 := wd v }))

/-! ### Operand rings (R140, R141) -/

/-- RG_CFG (R140, R141). -/
def execRgCfg (w g : BitVec 3) (r : BitVec 4) (a : BitVec 4) (o : BitVec 10) : State → Out :=
  let i := Instr.rgCfg w g r a o
  runE .L i w g (fun c st => do
    let (v, marks) ← readLit c st i a o
    let baseU := bits v 0 16
    let esz := bits v 16 10
    let nent := bits v 32 10
    need (decide (bits v 26 6 = 0) && decide (bits v 42 22 = 0) && decide (1 ≤ esz) && decide (1 ≤ nent) &&
          decide (64 * (baseU + esz * nent) ≤ 2 ^ 22) && (windowOf (← get) c).isSome) cILLEGAL (wordOf i)
    let q := (← getCore c).ls.ring r
    need (decide (q.h = 0) && decide (q.p = 0)) cILLEGAL (wordOf i)
    litDone c marks (fun l => l.setRing r
      { on := true, baseU := BitVec.ofNat 16 baseU, esz := BitVec.ofNat 10 esz, nent := BitVec.ofNat 10 nent,
        head := 0, tail := 0, f := 0, p := 0, h := 0 }))

/-- RG_RST (R141). -/
def execRgRst (w g : BitVec 3) (r : BitVec 4) : State → Out :=
  let i := Instr.rgRst w g r
  runE .L i w g (fun c _ => do
    let q := (← getCore c).ls.ring r
    need (q.on && decide (q.h = 0) && decide (q.p = 0)) cILLEGAL (wordOf i)
    modLs c (fun l => l.setRing r { q with head := 0, tail := 0, f := 0 })
    return {})

/-! ### Loads (R142 to R144) -/

/-- The next multiple of 64. -/
def up64 (n : Nat) : Nat := (n + 63) / 64 * 64

/-- The offsets in a ring entry of a block's scales and zero points, and the bytes that the entry needs (R140, R143). That a row of codes
that ends inside a byte takes that byte is the model's choice (log entry 50). -/
def entryParts (d : SDesc) : Nat × Nat × Nat :=
  let codes := d.brows * ((d.bcols * d.w + 7) / 8)
  if d.g = 0 then (codes, codes, codes)
  else
    let s := up64 codes
    let z := up64 (s + 2 * d.brows * d.groups.2)
    (s, z, z + (d.brows * d.groups.2 * d.w + 7) / 8)

/-- What `ld.tile` writes into its entry (R140, R143): the codes; for a quantised format the scales and the zero points, each at its
offset. -/
def entryData (d : SDesc) (rows : List RowData) : List (Nat × List Byte) :=
  let codes := (rows.map (fun r => packCodes d.w r.codes)).flatten
  if d.g = 0 then [(0, codes)]
  else [(0, codes), ((entryParts d).1, (rows.map (fun r => (r.scales.map (natBytes 2)).flatten)).flatten),
        ((entryParts d).2.1, packCodes d.w (rows.map (fun r => r.zps)).flatten)]

/-- The runs that a block's data take in an entry at an address. -/
def entryTouches (d : SDesc) (va : Nat) : List Touch :=
  let p := entryParts d
  let codes := d.brows * ((d.bcols * d.w + 7) / 8)
  { va := va, len := codes, acc := .write } ::
  (if d.g = 0 then [] else
    [{ va := va + p.1, len := 2 * d.brows * d.groups.2, acc := .write }, { va := va + p.2.1, len := p.2.2 - p.2.1, acc := .write }])

/-- POS moves on unless the instruction holds it (R142). -/
def advanceDesc (c : CoreId) (k : BitVec 5) (hold : BitVec 1) : M Unit :=
  if hold = 1 then pure () else modLs c (fun l => l.setDesc k (l.desc k).advance)

/-- LD_TILE (R141, R143): the entry is reserved, and its pages are translated with the source's before any byte moves (log entry
17); LD_TILE_ENTRY_WRITE fills it. -/
def execLdTile (w g : BitVec 3) (r : BitVec 4) (k : BitVec 5) (h : BitVec 1) : State → Out :=
  let i := Instr.ldTile w g r k h
  runE .L i w g (fun c _ => do
    let l := (← getCore c).ls
    let d := l.desc k
    let q := l.ring r
    need (decide (d.brows ≠ 0) && q.on && decide (q.f + q.p < q.nent.toNat) && decide ((entryParts d).2.2 ≤ 64 * q.esz.toNat))
      cILLEGAL (wordOf i)
    let (rows, lbl, pages) ← readRowsWith c i d d.blockRows (entryTouches d (entryVa (← get) c q q.tail))
    modLs c (fun l => l.setRing r { q with tail := (q.tail + 1) % q.nent.toNat, p := q.p + 1 })
    advanceDesc c k h
    return { rest := .entry r q.tail (entryData d rows) lbl, pages := pages })

/-- An entry's runs written, to the pages that the `ld.tile` translated. -/
def writeEntry (w : Who) (pages : List Page) (va : Nat) (runs : List (Nat × List Byte)) (lbl : Label) : SM WroteTo :=
  runs.foldlM (fun acc p => do
    let d ← writePieces w (pieces pages (va + p.1) p.2.length) p.2 lbl
    return if acc = .done then d else acc) .done

/-- The pages of an instruction in flight, on the cluster that its core belongs to now. -/
def Flight.pagesOn (f : Flight) (c : CoreId) : List Page :=
  f.pages.map (fun p => { p with stash := p.stash.map (fun q => (clusterOf c, q.2)) })

/-- A flight that writes an entry of a ring. -/
def Flight.fills (f : Flight) (r : BitVec 4) : Bool := match f.rest with | .entry r' _ _ _ => r' == r | _ => false

/-- The oldest `ld.tile` of a ring has written its entry, which moves from P to F; then its give mask is pushed (R141). -/
def entryFilled (r : BitVec 4) (k : Core) : Core :=
  let q := k.ls.ring r
  let n := k.flights.findIdx (fun f => f.fills r)
  settle { k with ls := k.ls.setRing r { q with p := q.p - 1, f := q.f + 1 },
                  flights := k.flights.modify n (fun f : Flight => { f with rest := .push }) }

/-- The write of an earlier flight comes before that of a later one: their entries share bytes (R235), or a push of the strand, which
releases the earlier write, stands between them (R237, R241). `fs` are the flights before the later one. -/
def entryFirst (s : State) (c : CoreId) (f : Flight) : List Flight → Bool
  | [] => false
  | e :: fs =>
    (match e.rest with
     | .entry _ _ _ _ => runsMeet (entryRuns s c e) (entryRuns s c f) || (e :: fs).any (fun g => g.st == e.st && !g.gives.isEmpty)
     | _ => false) || entryFirst s c f fs

/-- A core's job stands stopped at a checkpoint, so that its engines take no further step (R362). -/
def stoppedAt (s : State) (c : CoreId) : Bool := (s.coreJob c).any (fun j => j.st == .stopped && j.form != some .drain)

/-- LD_TILE_ENTRY_WRITE (R141): the oldest `ld.tile` of a ring writes its entry, after every earlier one that has to come first. -/
def execLdTileEntryWrite (c : CoreId) (r : BitVec 4) (s : State) : Out :=
  let k := s.core c
  let n := k.flights.findIdx (fun f => f.fills r)
  match k.flights[n]? with
  | some f =>
    if entryFirst s c f (k.flights.take n) then .next s
    else (match f.rest with
      | .entry _ idx runs lbl =>
        let (d, s1) := writeEntry (strandWho s c) (f.pagesOn c) (entryVa s c (k.ls.ring r) idx) runs lbl s
        .next ((wrote c d s1).updCore c (entryFilled r))
      | _ => .next s)
  | none => .next s

/-- LD_VT (R143). -/
def execLdVt (w g : BitVec 3) (d k : BitVec 5) (h : BitVec 1) : State → Out :=
  let i := Instr.ldVt w g d k h
  runE .L i w g (fun c _ => do
    let sd := (← getCore c).ls.desc k
    need (decide (1 ≤ sd.brows) && decide (sd.brows ≤ 16) && decide (sd.bcols ≤ 64)) cILLEGAL (wordOf i)
    let (rows, lbl) ← readRows c i sd sd.blockRows
    modXs c (fun x => x.setTile d (tileOfRows (rows.map (widenRow sd))) lbl)
    advanceDesc c k h
    return {})

/-- LD_BCST (R143). -/
def execLdBcst (w g : BitVec 3) (d k : BitVec 5) (h : BitVec 1) : State → Out :=
  let i := Instr.ldBcst w g d k h
  runE .L i w g (fun c _ => do
    let sd := (← getCore c).ls.desc k
    need (decide (sd.brows = 1) && decide (sd.bcols ≤ 64)) cILLEGAL (wordOf i)
    let (rows, lbl) ← readRows c i sd sd.blockRows
    modXs c (fun x => x.setTile d (tileOfRows (List.replicate 16 ((rows.map (widenRow sd)).headD []))) lbl)
    advanceDesc c k h
    return {})

/-- LD_GATH (R143): rows named by row 0 of the index tile; a negative index gives a zero row and reads nothing. -/
def execLdGath (w g : BitVec 3) (d k x : BitVec 5) (h : BitVec 1) : State → Out :=
  let i := Instr.ldGath w g d k x h
  runE .L i w g (fun c _ => do
    let kk ← getCore c
    let sd := kk.ls.desc k
    need (decide (1 ≤ sd.brows) && decide (sd.bcols ≤ 64)) cILLEGAL (wordOf i)
    let idx := ((kk.xs.tile x).take 16).map i32
    let rows := (idx.filter (fun v => decide (0 ≤ v))).map (fun v => (v, ((sd.br * sd.brows : Nat) : Int) + v))
    let (data, lbl) ← readRows c i sd rows
    let out := idx.foldl (fun (a : List (List Word32) × List RowData) v =>
      if v < 0 then (a.1 ++ [[]], a.2) else (a.1 ++ [widenRow sd (a.2.headD { codes := [], scales := [], zps := [] })], a.2.drop 1))
      ([], data)
    let l ← lift (joinL c lbl (kk.xs.tlbl x))
    modXs c (fun x => x.setTile d (tileOfRows out.1) l)
    advanceDesc c k h
    return {})

/-- The words that lane k of a beat touches (R132, R144). -/
def laneWords (d : SDesc) (t k : Nat) : List Nat :=
  let a := vaOf (d.start + (k : Int) * d.rstr + (t * d.w / 8 : Nat))
  (List.range ((a + d.w / 8 - 1) / 4 - a / 4 + 1)).map (fun j => a / 4 + j)

/-- Two lanes read different words in one bank. -/
def lanesClash (x y : List Nat) : Bool := x.any (fun a => y.any (fun b => decide (a ≠ b) && decide (a % 64 = b % 64)))

/-- The lane address that BANKCONF reports: the higher lane of the lowest conflicting pair of the first beat with one (R144). -/
def bankConflict (d : SDesc) : Option Nat :=
  (List.range 16).findSome? (fun t =>
    let ws := (List.range 64).map (laneWords d t)
    (List.range 64).findSome? (fun k1 =>
      ((List.range 64).find? (fun k2 => decide (k1 < k2) && lanesClash (ws.getD k1 []) (ws.getD k2 []))).map
        (fun k2 => vaOf (d.start + (k2 : Int) * d.rstr + (t * d.w / 8 : Nat)))))

/-- LD_STRD (R144): the requirements and the bank check come before any translation. -/
def execLdStrd (w g : BitVec 3) (d k : BitVec 5) (h : BitVec 1) : State → Out :=
  let i := Instr.ldStrd w g d k h
  runE .L i w g (fun c _ => do
    let sd := (← getCore c).ls.desc k
    let runs := sd.blockRows.map (fun p => sd.codeRun p.1)
    let inWin := match windowOf (← get) c with
      | none => false
      | some (b, _) => runs.all (fun r => decide (b ≤ r.1) && decide (r.1 + r.2 ≤ b + 2 ^ 22))
    need (decide (sd.brows = 64) && decide (sd.bcols = 16) && decide (sd.fmt = 0 ∨ sd.fmt = 8 ∨ sd.fmt = 1 ∨ sd.fmt = 2) && inWin)
      cILLEGAL (wordOf i)
    match bankConflict sd with
    | some a => trapNow cBANKCONF (wd a)
    | none => do
      let (rows, lbl) ← readRows c i sd sd.blockRows
      let vals := rows.map (widenRow sd)
      modXs c (fun x => x.setTile d (tileOfRows ((List.range 16).map (fun t => vals.map (fun v => v.getD t 0)))) lbl)
      advanceDesc c k h
      return {})

/-! ### The nest table (R145 to R147) -/

/-- A field of a level: CNT, SA, SB, SC (R145). -/
def Nest.setField (n : Nest) (f : BitVec 2) (v : BitVec 16) : Nest :=
  match f.toNat with
  | 0 => { n with cnt := v }
  | 1 => { n with sa := v }
  | 2 => { n with sb := v }
  | _ => { n with sc := v }

/-- A shadow level; the encodings of levels 6 and 7 are illegal. -/
def LState.setNest (l : LState) (lv : BitVec 3) (f : BitVec 2) (v : BitVec 16) : LState :=
  if h : lv.toNat < 6 then { l with nestS := wr l.nestS ⟨lv.toNat, h⟩ ((rd l.nestS ⟨lv.toNat, h⟩).setField f v) } else l

/-- NEST_SET with an immediate (R146): unsigned for CNT, signed for the strides. -/
def execNestSetImm (w g : BitVec 3) (l : BitVec 3) (f : BitVec 2) (v : BitVec 14) : State → Out :=
  let i := Instr.nestSetImm w g l f v
  runE .L i w g (fun c _ => do
    need (decide (f ≠ 0) || decide (v ≠ 0)) cILLEGAL (wordOf i)
    modLs c (fun s => s.setNest l f (if f = 0 then v.setWidth 16 else v.signExtend 16))
    return {})

/-- NEST_SET with an n register (R146). -/
def execNestSetReg (w g : BitVec 3) (l : BitVec 3) (f : BitVec 2) (n : BitVec 4) : State → Out :=
  let i := Instr.nestSetReg w g l f n
  runE .L i w g (fun c st => do
    let v := ((← getCore c).eng st).nreg n
    need (if f = 0 then decide (1 ≤ v.toNat) && decide (v.toNat ≤ 65535) else fitsS 16 v.toInt) cILLEGAL (wordOf i)
    modLs c (fun s => s.setNest l f (v.setWidth 16))
    return {})

/-- NEST_SWAP (R147). -/
def execNestSwap (w g : BitVec 3) : State → Out :=
  let i := Instr.nestSwap w g
  runE .L i w g (fun c _ => do
    modLs c (fun l => { l with nestA := l.nestS, nestS := l.nestA })
    return {})

end Sys2Proof.Machine
end

