-- ==== Sys2Proof/Machine/Matrix.lean ====
section
/-! DEFINITION. The matrix unit: shapes, ring entries, nests, accumulators, hazards and retirement (R148 to R164). -/

namespace Sys2Proof.Machine

def XState.acc (x : XState) (d : BitVec 2) : Tile := rd x.ac (i2 d)
def XState.accl (x : XState) (d : BitVec 2) : Label := rd x.acl (i2 d)
def XState.setAcc (x : XState) (d : BitVec 2) (t : Tile) (lbl : Label) : XState :=
  { x with ac := wr x.ac (i2 d) t, acl := wr x.acl (i2 d) lbl }

/-! ### Shapes (R150, R151) -/

/-- A matrix instruction's shape: M, N, KE, the element formats and the group size (0 for `mma`). -/
structure Shape where
  m : Nat
  n : Nat
  ke : Nat
  fa : Nat
  fb : Nat
  g : Nat
  deriving DecidableEq, Repr

/-- The shape word's fields, or none where it is illegal (R150, R156). -/
def shapeOf (q : Bool) (v : Nat) : Option Shape :=
  let kc := bits v 6 3
  let fa := bits v 9 2
  let fb := bits v 11 2
  let gq := bits v 13 2
  let ke := 32 * 2 ^ kc
  let g := if q then 32 * 2 ^ gq else 0
  if decide (5 ≤ kc) || (q && (decide (fa = 3) || decide (fb = 3) || decide (gq = 3) || decide (ke < g))) || (!q && decide (gq ≠ 0)) then none
  else some { m := 16 * (bits v 0 3 + 1), n := 16 * (bits v 3 3 + 1), ke := ke, fa := fa + (if q then 5 else 1),
              fb := fb + (if q then 5 else 1), g := g }

/-- Offsets of the scales and zero points in an entry, and its required size (R151). -/
def entryLayout (rows ke w g : Nat) : Nat × Nat × Nat :=
  let up (n : Nat) : Nat := (n + 63) / 64 * 64
  let codes := rows * ke * w / 8
  if g = 0 then (codes, codes, codes)
  else
    let s := up codes
    let z := up (s + 2 * rows * (ke / g))
    (s, z, z + (rows * (ke / g) * w + 7) / 8)

/-! ### The nest (R145, R152) -/

/-- The levels of a nest, innermost first: CNT and the three strides. -/
def nestLevels (n : Vector Nest 6) : List (Nat × Int × Int × Int) :=
  n.toList.map (fun (l : Nest) => (l.cnt.toNat, l.sa.toInt, l.sb.toInt, l.sc.toInt))

/-- Steps of the nest. -/
def nestSteps (ls : List (Nat × Int × Int × Int)) : Nat := ls.foldl (fun p l => p * l.1) 1

/-- (oA, oB, oC before its modulus) of step t, i0 fastest. -/
def nestOffsets (ls : List (Nat × Int × Int × Int)) (t : Nat) : Int × Int × Int :=
  (ls.foldl (fun (a : Nat × Int × Int × Int) l =>
    let i : Int := ((a.1 % l.1 : Nat) : Int)
    (a.1 / l.1, a.2.1 + i * l.2.1, a.2.2.1 + i * l.2.2.1, a.2.2.2 + i * l.2.2.2)) (t, 0, 0, 0)).2

/-- Entries that a side needs (R152), and its most negative offset (R156). -/
def nestSpan (f : Int × Int × Int → Int) (ls : List (Nat × Int × Int × Int)) : Nat × Int :=
  let d (l : Nat × Int × Int × Int) : Int := ((l.1 : Int) - 1) * f l.2
  (1 + (ls.foldl (fun a l => a + max 0 (d l)) 0).toNat, ls.foldl (fun a l => a + min 0 (d l)) 0)

/-! ### Entries and sums (R151 to R154) -/

/-- An operand row's group of 32 codes, with the scale and zero point of its quantisation group. -/
structure OpGroup where
  codes : List Nat
  scale : Nat
  zp : Nat
  deriving DecidableEq, Repr

/-- Group j of a row of an entry. -/
def opGroup (bs : List Byte) (rows ke w g row j : Nat) : OpGroup :=
  let lay := entryLayout rows ke w g
  let idx := if g = 0 then 0 else row * (ke / g) + 32 * j / g
  { codes := (List.range 32).map (fun k => codeAt bs w (row * ke + 32 * j + k)),
    scale := if g = 0 then 0 else bytesAt bs (lay.1 + 2 * idx) 2,
    zp := if g = 0 then 0 else codeAt (bs.drop lay.2.1) w idx }

/-- The contribution of one group (R52, R53). -/
def groupSum (sh : Shape) (a b : OpGroup) : FVal :=
  if sh.g = 0 then
    let v (f : Nat) (c : Nat) : FVal := match ffmtOf f with | some x => x.decode c | none => .nan
    sumExact ((a.codes.zip b.codes).map (fun p => (v sh.fa p.1).mul (v sh.fb p.2)))
  else
    let i := (a.codes.zip b.codes).foldl (fun (t : Int) p => t + ((p.1 : Int) - a.zp) * ((p.2 : Int) - b.zp)) 0
    quantGroup i a.scale b.scale

/-- The output element (m, n) of a step at an accumulator position, if the position takes one (R149, R152). -/
def outElem (sh : Shape) (oc pos : Nat) : Option (Nat × Nat) :=
  let row := pos / 128
  let col := pos % 128
  let d := (8 * (row / 16) + col / 16 + 64 - oc % 64) % 64
  if d / 8 < sh.m / 16 ∧ d % 8 < sh.n / 16 then some (16 * (d / 8) + row % 16, 16 * (d % 8) + col % 16) else none

/-- Group j of a step added to every output element (R153, R154). -/
def mmaGroup (sh : Shape) (ea eb : List Byte) (oc j : Nat) (acc : Tile) : Tile :=
  (acc.zipIdx).map (fun p =>
    match outElem sh oc p.2 with
    | none => p.1
    | some (m, n) =>
      accStep p.1 (groupSum sh (opGroup ea sh.m sh.ke (fmtBits sh.fa) sh.g m j) (opGroup eb sh.n sh.ke (fmtBits sh.fb) sh.g n j)))

/-- One step over the whole accumulator, with what the accumulator held before it and after each group: the groups in ascending
order (R153, R154, R162). -/
def mmaGroups (sh : Shape) (ea eb : List Byte) (oc : Nat) (acc : Tile) : List Tile × Tile :=
  (List.range (sh.ke / 32)).foldl (fun a j => (a.1 ++ [a.2], mmaGroup sh ea eb oc j a.2)) ([], acc)

/-- The accumulator after one step. -/
def mmaStep (sh : Shape) (ea eb : List Byte) (oc : Nat) (acc : Tile) : Tile := (mmaGroups sh ea eb oc acc).2

/-! ### Instructions -/

/-- The accumulator is not open (R158). -/
def needClosed (k : Core) (d : BitVec 2) (i : Instr) : M Unit := need (rd k.xs.hazard (i2 d)).isNone cILLEGAL (wordOf i)

/-- The bytes of an entry that a shape needs, of each side (R151). -/
def Shape.needs (sh : Shape) : Nat × Nat :=
  ((entryLayout sh.m sh.ke (fmtBits sh.fa) sh.g).2.2, (entryLayout sh.n sh.ke (fmtBits sh.fb) sh.g).2.2)

/-- The required bytes of entry number `pos` + i of a ring (R152). -/
def heldRun (s : State) (c : CoreId) (q : Ring) (need pos i : Nat) : Run := (entryVa s c q ((pos + i) % q.nent.toNat), need)

/-- The required bytes of the entries held from `pos` on (R155). -/
def heldRuns (s : State) (c : CoreId) (q : Ring) (k need pos : Nat) : List Run := (List.range k).map (heldRun s c q need pos)

/-- An entry that an unordered store reached: each 4-byte word old or new (R162). -/
def mixWords (old new : List Byte) : SM (List Byte) := fun s =>
  if old = new ∨ old.length ≠ new.length then (new, s)
  else
    ((new.zip old).zipIdx.map (fun p => if Config.freeNat (s.freeCtr + p.2 / 4) % 2 = 0 then p.1.1 else p.1.2),
     { s with freeCtr := s.freeCtr + (new.length + 3) / 4 })

/-- An entry as a step reads it, through the pages that the start translated (R156); none where a sector is poisoned, which ends the job
(R87). -/
def readEntry (c : CoreId) (pages : List Page) (r : Run) (old : List Byte) : SM (Option (List Byte)) := fun s =>
  let (g, s1) := readPieces (strandWho s c) (pieces pages r.1 r.2) s
  if g.poison then (none, killJobOf c s1)
  else
    let (bs, s2) := mixWords old g.bytes s1
    (some bs, s2)

/-- A matrix instruction's shape, as its start read it. -/
def MatRun.form (m : MatRun) : Option Shape := shapeOf (decide (bits m.word.toNat 20 6 = 0x11)) m.shape.toNat

/-- The number of steps of a matrix instruction (R152). -/
def MatRun.steps (m : MatRun) : Nat := nestSteps (nestLevels m.nest)

/-- The matrix instruction that has steps to take, with its flight. At most one has: the next one starts after its steps. -/
def Core.matFlight (k : Core) : Option (MatRun × Flight) :=
  k.flights.findSome? (fun f => match f.rest with | .matrix m => if m.t < m.steps then some (m, f) else none | _ => none)

def Core.matDue (k : Core) : Option MatRun := k.matFlight.map (fun p => p.1)

/-- The entries that a step reads: the runs of both sides, and the output's block (R152). -/
def MatRun.reads (m : MatRun) (s : State) (c : CoreId) (sh : Shape) : Run × Run × Nat :=
  let o := nestOffsets (nestLevels m.nest) m.t
  let l := (s.core c).ls
  (heldRun s c (l.ring m.a) sh.needs.1 m.posA o.1.toNat, heldRun s c (l.ring m.b) sh.needs.2 m.posB o.2.1.toNat, (o.2.2 % 64).toNat)

/-- The accumulator and the instruction after a step's additions; the values in between may still be seen (R162). -/
def matAdd (m : MatRun) (sh : Shape) (ea eb : List Byte) (oc : Nat) (k : Core) : Core :=
  let r := mmaGroups sh ea eb oc (k.xs.acc m.d)
  let lbl := k.xs.accl m.d
  let m1 := { m with t := m.t + 1, seen := m.seen ++ r.1.map (fun t => (t, lbl)) }
  { k with xs := k.xs.setAcc m.d r.2 lbl,
           flights := k.flights.map (fun f : Flight => if f.rest = .matrix m then { f with rest := .matrix m1 } else f) }

/-- The next step of the matrix instruction under way (R152 to R154), while the core's job is not stopped at a checkpoint (R164). An entry
that cannot be read leaves it where it is. -/
def matStep (c : CoreId) (s : State) : State :=
  match if stoppedAt s c then none else (s.core c).matFlight with
  | none => s
  | some (m, f) =>
    match m.form with
    | none => s
    | some sh =>
      let o := nestOffsets (nestLevels m.nest) m.t
      let rs := m.reads s c sh
      match readEntry c (f.pagesOn c) rs.1 (m.wasA.getD o.1.toNat []) s with
      | (none, s1) => s1
      | (some ea, s1) =>
        match readEntry c (f.pagesOn c) rs.2.1 (m.wasB.getD o.2.1.toNat []) s1 with
        | (none, s2) => s2
        | (some eb, s2) => s2.updCore c (matAdd m sh ea eb rs.2.2)

/-- All the steps that are left. -/
def matFinish (c : CoreId) (s : State) : State :=
  match (s.core c).matDue with
  | none => s
  | some m => (m.steps - m.t).repeat (matStep c) s

/-- A matrix-queue instruction starts after the steps of those before it (R158). -/
def matAfter (c : CoreId) : M Unit := do
  modify (matFinish c)
  waitUnless (← getCore c).matDue.isNone

/-- The start of a matrix instruction: the checks of R156 in order, the entries held, the label joined, the hazard mark set. Its
steps follow, and then its retirement. That the pages of a held entry are those of its required bytes is the model's choice (log entry
51). -/
def mmaStart (q : Bool) (i : Instr) (d : BitVec 2) (ra rb : BitVec 4) (sreg : BitVec 4) (c : CoreId) (st : Strand) : M EFlow := do
  matAfter c
  let w := wordOf i
  let k ← getCore c
  let shw := (k.eng st).nreg sreg
  match shapeOf q shw.toNat with
  | none => trapNow cILLEGAL w
  | some sh => do
    need (decide (ra ≠ rb)) cILLEGAL w
    need (match rd k.xs.hazard (i2 d) with | none => true | some p => p == (sh.m, sh.n)) cILLEGAL w
    let ls := nestLevels k.ls.nestA
    let sa := nestSpan (fun o => o.1) ls
    let sb := nestSpan (fun o => o.2.1) ls
    need (decide (0 ≤ sa.2) && decide (0 ≤ sb.2)) cILLEGAL w
    let qa := k.ls.ring ra
    let qb := k.ls.ring rb
    need (qa.on && qb.on && decide (qa.h + sa.1 ≤ qa.f) && decide (qb.h + sb.1 ≤ qb.f)) cILLEGAL w
    let n := sh.needs
    need (decide (n.1 ≤ 64 * qa.esz.toNat) && decide (n.2 ≤ 64 * qb.esz.toNat)) cILLEGAL w
    let s ← get
    let posA := qa.head + qa.h
    let posB := qb.head + qb.h
    let rsA := heldRuns s c qa sa.1 n.1 posA
    let rsB := heldRuns s c qb sb.1 n.2 posB
    let who := strandWho s c
    match ← lift (translateRuns who (touches .read (rsA ++ rsB))) with
    | .error f => pageFault c f
    | .ok pages => do
      let ga ← lift (rsA.mapM (fun r => readPieces who (pieces pages r.1 r.2)))
      let gb ← lift (rsB.mapM (fun r => readPieces who (pieces pages r.1 r.2)))
      (ga ++ gb).forM (poisoned c)
      let lbl ← lift (joinAll who.die who.pid (k.xs.accl d :: (ga ++ gb).map (fun g => g.lbl)))
      modLs c (fun l => (l.setRing ra { qa with h := qa.h + sa.1 }).setRing rb { qb with h := qb.h + sb.1 })
      modXs c (fun x => { x.setAcc d (x.acc d) lbl with hazard := wr x.hazard (i2 d) (some (sh.m, sh.n)) })
      let m : MatRun := { word := encode i, pc := (k.eng st).pc, d := d, shape := shw, a := ra, b := rb, posA := posA, posB := posB, ka := sa.1,
                          kb := sb.1, nest := k.ls.nestA, t := 0, wasA := ga.map (fun g => g.bytes), wasB := gb.map (fun g => g.bytes),
                          seen := [(k.xs.acc d, k.xs.accl d)] }
      return { rest := .matrix m, pages := pages }

/-- MMA (R153). -/
def execMma (w g : BitVec 3) (d : BitVec 2) (a b s : BitVec 4) : State → Out :=
  let i := Instr.mma w g d a b s
  runE .X i w g (mmaStart false i d a b s)

/-- MMA_Q (R154). -/
def execMmaQ (w g : BitVec 3) (d : BitVec 2) (a b s : BitVec 4) : State → Out :=
  let i := Instr.mmaQ w g d a b s
  runE .X i w g (mmaStart true i d a b s)

/-- The other matrix-queue instructions: after the steps of earlier ones, on an accumulator that is not open (R158). -/
def acStart (c : CoreId) (d : BitVec 2) (i : Instr) : M Core := do
  matAfter c
  let k ← getCore c
  needClosed k d i
  return k

/-- An instruction that writes an accumulator retires later; until then its old value may still be seen (R162). -/
def acFlight (i : Instr) (d : BitVec 2) (k : Core) : EFlow := { rest := .acOp (encode i) d [(k.xs.acc d, k.xs.accl d)] }

/-- AC_ZERO (R160). -/
def execAcZero (w g : BitVec 3) (d : BitVec 2) : State → Out :=
  let i := Instr.acZero w g d
  runE .X i w g (fun c _ => do
    let k ← acStart c d i
    modXs c (fun x => x.setAcc d (List.replicate 16384 0) 0)
    return acFlight i d k)

/-- Position in the accumulator of container p of region j (R161). -/
def regionPos (j : BitVec 4) (p : Nat) : Nat := (16 * (j.toNat / 2) + p / 64) * 128 + 64 * (j.toNat % 2) + p % 64

/-- AC_MV (R161). -/
def execAcMv (w g : BitVec 3) (d : BitVec 5) (a : BitVec 2) (j : BitVec 4) : State → Out :=
  let i := Instr.acMv w g d a j
  runE .X i w g (fun c _ => do
    let k ← acStart c a i
    let acc := k.xs.acc a
    modXs c (fun x => x.setTile d ((List.range 1024).map (fun p => acc.getD (regionPos j p) 0)) (x.accl a))
    return { rest := .acOp (encode i) a [] })

/-- The container of region j that an accumulator position holds (R161). -/
def regionIdx (j : BitVec 4) (pos : Nat) : Option Nat :=
  let row := pos / 128
  let col := pos % 128
  if row / 16 = j.toNat / 2 ∧ col / 64 = j.toNat % 2 then some (row % 16 * 64 + col % 64) else none

/-- The accumulator with region j combined with a tile. -/
def putRegion (f : Word32 → Word32 → Word32) (j : BitVec 4) (t : Tile) (acc : Tile) : Tile :=
  (acc.zipIdx).map (fun p => match regionIdx j p.2 with | some k => f p.1 (t.getD k 0) | none => p.1)

/-- Both `ac.ld` forms (R161). -/
def acLoad (i : Instr) (f : Word32 → Word32 → Word32) (d : BitVec 2) (a : BitVec 5) (j : BitVec 4) (c : CoreId) : M EFlow := do
  let k ← acStart c d i
  let lbl ← lift (joinL c (k.xs.accl d) (k.xs.tlbl a))
  modXs c (fun x => x.setAcc d (putRegion f j (x.tile a) (x.acc d)) lbl)
  return acFlight i d k

/-- AC_LD (R161). -/
def execAcLd (w g : BitVec 3) (d : BitVec 2) (a : BitVec 5) (j : BitVec 4) : State → Out :=
  let i := Instr.acLd w g d a j
  runE .X i w g (fun c _ => acLoad i (fun _ n => n) d a j c)

/-- AC_LD_ADD (R161): FP32 addition by RNE. -/
def execAcLdAdd (w g : BitVec 3) (d : BitVec 2) (a : BitVec 5) (j : BitVec 4) : State → Out :=
  let i := Instr.acLdAdd w g d a j
  runE .X i w g (fun c _ => acLoad i fadd d a j c)

/-- A matrix-queue instruction in flight (R158). -/
def isMatrix (f : Flight) : Bool := match f.rest with | .matrix _ => true | .acOp _ _ _ => true | _ => false

/-- MFENCE (R159): after every earlier matrix instruction has retired; then the hazard marks clear. -/
def execMfence (w g : BitVec 3) : State → Out :=
  let i := Instr.mfence w g
  runE .X i w g (fun c _ => do
    waitUnless (!(← getCore c).flights.any isMatrix)
    modXs c (fun x => { x with hazard := Vector.replicate 4 none })
    return {})

/-- A ring's held entries popped (R141). -/
def Ring.pop (q : Ring) (k : Nat) : Ring := { q with head := (q.head + k) % q.nent.toNat, f := q.f - k, h := q.h - k }

/-- A matrix-queue instruction has taken its steps. -/
def Flight.matDone (f : Flight) : Bool := match f.rest with | .matrix m => decide (m.steps ≤ m.t) | _ => true

/-- The oldest matrix-queue instruction retires: its held entries are popped, then its give mask is pushed (R141, R158). -/
def matRetire (f : Flight) (k : Core) : Core :=
  let ls := match f.rest with
    | .matrix m => (k.ls.setRing m.a ((k.ls.ring m.a).pop m.ka)).setRing m.b ((k.ls.ring m.b).pop m.kb)
    | _ => k.ls
  settle { k with ls := ls, flights := k.flights.modify (k.flights.findIdx isMatrix) (fun f : Flight => { f with rest := .push }) }

/-- MMA_RETIRE (R158, R162): the oldest matrix instruction in flight takes the steps it has left and retires; none does at a checkpoint
(R164). -/
def execMmaRetire (c : CoreId) (s : State) : Out :=
  let s1 := matFinish c s
  match if stoppedAt s c then none else (s1.core c).flights.find? isMatrix with
  | none => .next s1
  | some f => .next (if f.matDone then s1.updCore c (matRetire f) else s1)

/-! ### What another strand sees of an accumulator (R162) -/

/-- The values that an accumulator's writers in flight leave to be seen. -/
def accSeen (k : Core) (d : BitVec 2) : List (Tile × Label) :=
  k.flights.flatMap (fun f => match f.rest with
    | .matrix m => if m.d = d then m.seen else []
    | .acOp _ e seen => if e = d then seen else []
    | _ => [])

/-- An accumulator as the S strand reads it before its writers have retired: each element is some value that it has held, a free
choice, and the label is the join of all. -/
def accView (c : CoreId) (d : BitVec 2) : SM (Tile × Label) := fun s =>
  let k := s.core c
  match accSeen k d with
  | [] => ((k.xs.acc d, k.xs.accl d), s)
  | seen =>
    let all := seen.map (fun p => p.1) ++ [k.xs.acc d]
    let t := (k.xs.acc d).zipIdx.map (fun p => (all.getD (Config.freeNat (s.freeCtr + p.2) % all.length) []).getD p.2 0)
    let (l, s1) := joinAll (dieOf c) k.id.pid (k.xs.accl d :: seen.map (fun p => p.2)) { s with freeCtr := s.freeCtr + 16384 }
    ((t, l), s1)

end Sys2Proof.Machine
end

