-- ==== Sys2Proof/Machine/Vector.lean ====
section
/-! DEFINITION. The vector unit (R166 to R186): elementwise work under a predicate, special functions, movement, reductions and
scans, and the tree unit with its delivery. -/

namespace Sys2Proof.Machine

/-! ### Lanes, predicates and labels (R166 to R169) -/

def XState.mask (x : XState) (m : BitVec 3) : Mask := rd x.vm (i3 m)
def XState.mlbl (x : XState) (m : BitVec 3) : Label := rd x.vml (i3 m)
def XState.setMask (x : XState) (m : BitVec 3) (v : Mask) (lbl : Label) : XState :=
  { x with vm := wr x.vm (i3 m) v, vml := wr x.vml (i3 m) lbl }

/-- A mask from its bits. -/
def maskOfFn (f : Nat → Bool) : Mask := BitVec.ofNat 1024 ((List.range 1024).foldl (fun a i => if f i then a + 2 ^ i else a) 0)
/-- A mask from a list of lane bits. -/
def maskOfList (l : List Bool) : Mask := BitVec.ofNat 1024 (l.foldr (fun b a => (if b then 1 else 0) + 2 * a) 0)
/-- The bits of a mask by lane. -/
def laneBits (m : Mask) : List Bool := (List.range 1024).map (fun i => m.getLsbD i)

/-- The active lanes of a predicate field: all, or the bits of vm1 to vm3 (R168). -/
def XState.active (x : XState) (p : BitVec 2) : List Bool :=
  if p = 0 then List.replicate 1024 true else laneBits (x.mask (p.setWidth 3))

/-- Lanes written where active; the others keep their contents (R168). -/
def blend {α : Type} (act : List Bool) (old new : List α) : List α :=
  (act.zip (old.zip new)).map (fun p => if p.1 then p.2.2 else p.2.1)

/-- The labels that a predicate adds: the mask's and the destination's old one (R169). -/
def XState.predLbls (x : XState) (p : BitVec 2) (old : Label) : List Label := if p = 0 then [] else [x.mlbl (p.setWidth 3), old]

/-- Writing a tile under a predicate (R168, R169): `extra` are the labels of what the instruction reads. -/
def writeTile (c : CoreId) (d : BitVec 5) (p : BitVec 2) (extra : List Label) (new : Tile) : M EFlow := do
  let k ← getCore c
  let x := k.xs
  let lbl ← lift (joinAll (dieOf c) k.id.pid (extra ++ x.predLbls p (x.tlbl d)))
  modXs c (fun x => x.setTile d (blend (x.active p) (x.tile d) new) lbl)
  return {}

/-- Writing a mask under a predicate (R168, R169). -/
def writeMask (c : CoreId) (d : BitVec 3) (p : BitVec 2) (extra : List Label) (new : List Bool) : M EFlow := do
  let k ← getCore c
  let x := k.xs
  let lbl ← lift (joinAll (dieOf c) k.id.pid (extra ++ x.predLbls p (x.mlbl d)))
  modXs c (fun x => x.setMask d (maskOfList (blend (x.active p) (laneBits (x.mask d)) new)) lbl)
  return {}

/-! ### Arithmetic on containers (R58, R171) -/

/-- The result of an exact integer operation under `.i` and `.sat`. -/
def intRes (t : BitVec 3) (v : Int) : Word32 := if t = 2 then word32 (sat32 v) else word32 v

/-- An operation by its type field: on FP32 values, or on S32 values. -/
def byType (t : BitVec 3) (f : FVal → FVal → FVal) (n : Int → Int → Int) (a b : Word32) : Word32 :=
  if t = 0 then toF32 (f (f32 a) (f32 b)) else intRes t (n (i32 a) (i32 b))

/-- `vmax` and `vmin` on FP32: NaN is canonical, of two zeros the larger is +0 and the smaller −0 (R171). -/
def fmax (a b : Word32) : Word32 :=
  if (f32 a).isNan || (f32 b).isNan then nan32 else if (f32 a).lt (f32 b) then b else if (f32 b).lt (f32 a) then a else a &&& b
def fmin (a b : Word32) : Word32 :=
  if (f32 a).isNan || (f32 b).isNan then nan32 else if (f32 a).lt (f32 b) then a else if (f32 b).lt (f32 a) then b else a ||| b

/-- An elementwise instruction of two tiles. -/
def elem2 (i : Instr) (w g : BitVec 3) (d a b : BitVec 5) (p : BitVec 2) (f : Word32 → Word32 → Word32) : State → Out :=
  runE .X i w g (fun c _ => do
    let x := (← getCore c).xs
    writeTile c d p [x.tlbl a, x.tlbl b] (((x.tile a).zip (x.tile b)).map (fun q => f q.1 q.2)))

/-- An elementwise instruction of one tile. -/
def elem1 (i : Instr) (w g : BitVec 3) (d a : BitVec 5) (p : BitVec 2) (f : Word32 → Word32) : State → Out :=
  runE .X i w g (fun c _ => do
    let x := (← getCore c).xs
    writeTile c d p [x.tlbl a] ((x.tile a).map f))

/-- VADD (R171). -/
def execVadd (w g : BitVec 3) (d a b : BitVec 5) (p : BitVec 2) (t : BitVec 3) : State → Out :=
  elem2 (.vadd w g d a b p t) w g d a b p (byType t FVal.add (· + ·))

/-- VSUB (R171). -/
def execVsub (w g : BitVec 3) (d a b : BitVec 5) (p : BitVec 2) (t : BitVec 3) : State → Out :=
  elem2 (.vsub w g d a b p t) w g d a b p (byType t (fun x y => x.add y.neg) (· - ·))

/-- VMUL (R171). -/
def execVmul (w g : BitVec 3) (d a b : BitVec 5) (p : BitVec 2) (t : BitVec 3) : State → Out :=
  elem2 (.vmul w g d a b p t) w g d a b p (byType t FVal.mul (· * ·))

/-- VFMA (R169, R171): a × b + c with one rounding; the destination's old label is joined. -/
def execVfma (w g : BitVec 3) (d a b : BitVec 5) (p : BitVec 2) (t : BitVec 3) : State → Out :=
  runE .X (.vfma w g d a b p t) w g (fun c _ => do
    let x := (← getCore c).xs
    let f (a b o : Word32) : Word32 :=
      if t = 0 then toF32 (((f32 a).mul (f32 b)).add (f32 o)) else intRes t (i32 a * i32 b + i32 o)
    writeTile c d p [x.tlbl a, x.tlbl b, x.tlbl d]
      (((x.tile a).zip ((x.tile b).zip (x.tile d))).map (fun q => f q.1 q.2.1 q.2.2)))

/-- VMAX (R171). -/
def execVmax (w g : BitVec 3) (d a b : BitVec 5) (p : BitVec 2) (t : BitVec 3) : State → Out :=
  elem2 (.vmax w g d a b p t) w g d a b p (fun x y => if t = 0 then fmax x y else word32 (max (i32 x) (i32 y)))

/-- VMIN (R171). -/
def execVmin (w g : BitVec 3) (d a b : BitVec 5) (p : BitVec 2) (t : BitVec 3) : State → Out :=
  elem2 (.vmin w g d a b p t) w g d a b p (fun x y => if t = 0 then fmin x y else word32 (min (i32 x) (i32 y)))

/-- VABS (R171). -/
def execVabs (w g : BitVec 3) (d a : BitVec 5) (p : BitVec 2) (t : BitVec 3) : State → Out :=
  elem1 (.vabs w g d a p t) w g d a p (fun x =>
    if t = 0 then (if (f32 x).isNan then nan32 else x &&& 0x7FFFFFFF) else intRes t ((i32 x).natAbs : Int))

/-- VNEG (R171). -/
def execVneg (w g : BitVec 3) (d a : BitVec 5) (p : BitVec 2) (t : BitVec 3) : State → Out :=
  elem1 (.vneg w g d a p t) w g d a p (fun x =>
    if t = 0 then (if (f32 x).isNan then nan32 else x ^^^ 0x80000000) else intRes t (-(i32 x)))

/-- VAND (R171). -/
def execVand (w g : BitVec 3) (d a b : BitVec 5) (p : BitVec 2) : State → Out :=
  elem2 (.vand w g d a b p) w g d a b p (· &&& ·)

/-- VOR (R171). -/
def execVor (w g : BitVec 3) (d a b : BitVec 5) (p : BitVec 2) : State → Out :=
  elem2 (.vor w g d a b p) w g d a b p (· ||| ·)

/-- VXOR (R171). -/
def execVxor (w g : BitVec 3) (d a b : BitVec 5) (p : BitVec 2) : State → Out :=
  elem2 (.vxor w g d a b p) w g d a b p (· ^^^ ·)

/-- A shift amount: b[7:0] unsigned (R171). -/
def shAmt (b : Word32) : Nat := b.toNat % 256

/-- VSHL (R171): 0 when the amount is 32 or more. -/
def execVshl (w g : BitVec 3) (d a b : BitVec 5) (p : BitVec 2) : State → Out :=
  elem2 (.vshl w g d a b p) w g d a b p (fun x y => x <<< shAmt y)

/-- VSHR (R171): logical, or arithmetic with `.a`. -/
def execVshr (w g : BitVec 3) (d a b : BitVec 5) (p : BitVec 2) (s : BitVec 1) : State → Out :=
  elem2 (.vshr w g d a b p s) w g d a b p (fun x y => if s = 1 then x.sshiftRight (shAmt y) else x >>> shAmt y)

/-- The conditions of `vcmp` (R172). -/
def vcond (c : BitVec 3) (a b : Word32) : Bool :=
  match c.toNat with
  | 0 => (f32 a).same (f32 b)
  | 1 => !(f32 a).same (f32 b)
  | 2 => (f32 a).lt (f32 b)
  | 3 => (f32 a).lt (f32 b) || (f32 a).same (f32 b)
  | 4 => a == b
  | 5 => a != b
  | 6 => decide (i32 a < i32 b)
  | _ => decide (i32 a ≤ i32 b)

/-- VCMP (R172). -/
def execVcmp (w g : BitVec 3) (d : BitVec 3) (a b : BitVec 5) (p : BitVec 2) (cc : BitVec 3) : State → Out :=
  runE .X (.vcmp w g d a b p cc) w g (fun c _ => do
    let x := (← getCore c).xs
    writeMask c d p [x.tlbl a, x.tlbl b] (((x.tile a).zip (x.tile b)).map (fun q => vcond cc q.1 q.2)))

/-- VSEL (R173). -/
def execVsel (w g : BitVec 3) (d a b : BitVec 5) (p : BitVec 2) (m : BitVec 3) : State → Out :=
  runE .X (.vsel w g d a b p m) w g (fun c _ => do
    let x := (← getCore c).xs
    writeTile c d p [x.tlbl a, x.tlbl b, x.mlbl m] (blend (laneBits (x.mask m)) (x.tile b) (x.tile a)))

/-- One lane of `vcvt` (R174): R40 for S32, else one rounding and the exact widening back. -/
def vcvtLane (i : BitVec 1) (f : BitVec 4) (m : BitVec 3) (a : Word32) : Word32 :=
  let v := if i = 1 then ofInt (i32 a) else f32 a
  let mode := modeOf m.toNat
  match ffmtOf f.toNat with
  | some ft => toF32 (ft.decode (ft.encode mode false v))
  | none => toS32 mode v

/-- VCVT (R174). -/
def execVcvt (w g : BitVec 3) (d a : BitVec 5) (i : BitVec 1) (f : BitVec 4) (p : BitVec 2) (m : BitVec 3) : State → Out :=
  elem1 (.vcvt w g d a i f p m) w g d a p (vcvtLane i f m)

/-- VMOV (R173). -/
def execVmov (w g : BitVec 3) (d a : BitVec 5) (p : BitVec 2) : State → Out := elem1 (.vmov w g d a p) w g d a p id

/-- VMOV_MT (R173). -/
def execVmovMt (w g : BitVec 3) (d : BitVec 5) (a : BitVec 3) (p : BitVec 2) : State → Out :=
  runE .X (.vmovMt w g d a p) w g (fun c _ => do
    let x := (← getCore c).xs
    writeTile c d p [x.mlbl a] ((laneBits (x.mask a)).map (fun b => if b then 1 else 0)))

/-- VMOV_TM (R173). -/
def execVmovTm (w g : BitVec 3) (d : BitVec 3) (a : BitVec 5) (p : BitVec 2) : State → Out :=
  runE .X (.vmovTm w g d a p) w g (fun c _ => do
    let x := (← getCore c).xs
    writeMask c d p [x.tlbl a] ((x.tile a).map (fun v => v != 0)))

/-- VMOV_MM (R173). -/
def execVmovMm (w g : BitVec 3) (d a : BitVec 3) (p : BitVec 2) : State → Out :=
  runE .X (.vmovMm w g d a p) w g (fun c _ => do
    let x := (← getCore c).xs
    writeMask c d p [x.mlbl a] (laneBits (x.mask a)))

/-- VLI (R169, R173): every lane, label 0. -/
def execVli (w g : BitVec 3) (d : BitVec 5) (i : BitVec 14) : State → Out :=
  runE .X (.vli w g d i) w g (fun c _ => writeTile c d 0 [] (List.replicate 1024 (sext32 i)))

/-- VLI_F (R173): the FP32 pattern imm14 << 18. -/
def execVliF (w g : BitVec 3) (d : BitVec 5) (i : BitVec 14) : State → Out :=
  runE .X (.vliF w g d i) w g (fun c _ => writeTile c d 0 [] (List.replicate 1024 (i.setWidth 32 <<< 18)))

/-! ### Special functions (R175) -/

/-- VEXP2 (R175). -/
def execVexp2 (w g : BitVec 3) (d a : BitVec 5) (p : BitVec 2) : State → Out := elem1 (.vexp2 w g d a p) w g d a p (spFun .exp2)

/-- VLOG2 (R175). -/
def execVlog2 (w g : BitVec 3) (d a : BitVec 5) (p : BitVec 2) : State → Out := elem1 (.vlog2 w g d a p) w g d a p (spFun .log2)

/-- VRCP (R175). -/
def execVrcp (w g : BitVec 3) (d a : BitVec 5) (p : BitVec 2) : State → Out := elem1 (.vrcp w g d a p) w g d a p (spFun .rcp)

/-- VRSQRT (R175). -/
def execVrsqrt (w g : BitVec 3) (d a : BitVec 5) (p : BitVec 2) : State → Out := elem1 (.vrsqrt w g d a p) w g d a p (spFun .rsqrt)

/-- VTANH (R175). -/
def execVtanh (w g : BitVec 3) (d a : BitVec 5) (p : BitVec 2) : State → Out := elem1 (.vtanh w g d a p) w g d a p (spFun .tanh)

/-- VSIGM (R175). -/
def execVsigm (w g : BitVec 3) (d a : BitVec 5) (p : BitVec 2) : State → Out := elem1 (.vsigm w g d a p) w g d a p (spFun .sigm)

/-- VSOFTP (R175). -/
def execVsoftp (w g : BitVec 3) (d a : BitVec 5) (p : BitVec 2) : State → Out := elem1 (.vsoftp w g d a p) w g d a p (spFun .softp)

/-! ### Rows and columns (R176 to R181) -/

/-- Lane (r, c) of a tile. -/
def lane (t : Tile) (r c : Nat) : Word32 := t.getD (64 * r + c) 0
/-- A tile by its lanes. -/
def tileOfFn (f : Nat → Nat → Word32) : Tile := (List.range 1024).map (fun i => f (i / 64) (i % 64))

/-- A movement by n[S] (R176, R177). -/
def moveBy (i : Instr) (w g : BitVec 3) (d a : BitVec 5) (s : BitVec 4) (p : BitVec 2) (f : Tile → Nat → Nat → Nat → Word32) :
    State → Out :=
  runE .X i w g (fun c st => do
    let k ← getCore c
    let n := ((k.eng st).nreg s).toNat
    writeTile c d p [k.xs.tlbl a] (tileOfFn (f (k.xs.tile a) n)))

/-- VROTR (R177). -/
def execVrotr (w g : BitVec 3) (d a : BitVec 5) (s : BitVec 4) (p : BitVec 2) : State → Out :=
  moveBy (.vrotr w g d a s p) w g d a s p (fun t n r c => lane t r ((c + n) % 64))

/-- VROTC (R177). -/
def execVrotc (w g : BitVec 3) (d a : BitVec 5) (s : BitVec 4) (p : BitVec 2) : State → Out :=
  moveBy (.vrotc w g d a s p) w g d a s p (fun t n r c => lane t ((r + n) % 16) c)

/-- VBCR (R177). -/
def execVbcr (w g : BitVec 3) (d a : BitVec 5) (s : BitVec 4) (p : BitVec 2) : State → Out :=
  moveBy (.vbcr w g d a s p) w g d a s p (fun t n r _ => lane t r (n % 64))

/-- VBCC (R177). -/
def execVbcc (w g : BitVec 3) (d a : BitVec 5) (s : BitVec 4) (p : BitVec 2) : State → Out :=
  moveBy (.vbcc w g d a s p) w g d a s p (fun t n _ c => lane t (n % 16) c)

/-- The reduction operations (R178). -/
def redOp (o : BitVec 3) (a b : Word32) : Word32 :=
  match o.toNat with
  | 0 => fadd a b
  | 1 => fmax a b
  | 2 => fmin a b
  | 3 => a + b
  | 4 => word32 (max (i32 a) (i32 b))
  | 5 => word32 (min (i32 a) (i32 b))
  | _ => word32 (sat32 (i32 a + i32 b))

/-- Their identities (R54, R178). -/
def redId (o : BitVec 3) : Word32 :=
  match o.toNat with
  | 1 => 0xFF800000
  | 2 => 0x7F800000
  | 4 => 0x80000000
  | 5 => 0x7FFFFFFF
  | _ => 0

/-- Lanes with the inactive ones empty. -/
def activeLanes (act : List Bool) (t : Tile) : List (Option Word32) := (act.zip t).map (fun p => if p.1 then some p.2 else none)

/-- VREDR (R179): each row in 6 levels. -/
def execVredr (w g : BitVec 3) (d a : BitVec 5) (p : BitVec 2) (o : BitVec 3) : State → Out :=
  runE .X (.vredr w g d a p o) w g (fun c _ => do
    let x := (← getCore c).xs
    let ls := activeLanes (x.active p) (x.tile a)
    let res := (List.range 16).map (fun r => (treeReduce (redOp o) 6 ((ls.drop (64 * r)).take 64)).getD 0)
    writeTile c d p [x.tlbl a] (tileOfFn (fun r _ => res.getD r 0)))

/-- VREDC (R179): each column in 4 levels. -/
def execVredc (w g : BitVec 3) (d a : BitVec 5) (p : BitVec 2) (o : BitVec 3) : State → Out :=
  runE .X (.vredc w g d a p o) w g (fun c _ => do
    let x := (← getCore c).xs
    let ls := activeLanes (x.active p) (x.tile a)
    let res := (List.range 64).map (fun cc =>
      (treeReduce (redOp o) 4 ((List.range 16).map (fun r => ls.getD (64 * r + cc) none))).getD 0)
    writeTile c d p [x.tlbl a] (tileOfFn (fun _ cc => res.getD cc 0)))

/-- One doubling step of a row (R180): a shifted copy combined as the earlier operand. -/
def scanStepRow (op : Word32 → Word32 → Word32) (k : Nat) (y : List (Option Word32)) : List (Option Word32) :=
  ((List.replicate (2 ^ k) none ++ y).zip y).map (fun (p : Option Word32 × Option Word32) =>
    match p.1, p.2 with
    | none, b => b
    | some a, none => some a
    | some a, some b => some (op a b))

/-- VSCANR (R180): six doubling steps. -/
def execVscanr (w g : BitVec 3) (d a : BitVec 5) (p : BitVec 2) (o : BitVec 3) : State → Out :=
  runE .X (.vscanr w g d a p o) w g (fun c _ => do
    let x := (← getCore c).xs
    let ls := activeLanes (x.active p) (x.tile a)
    let rows := (List.range 16).map (fun r =>
      (List.range 6).foldl (fun y k => scanStepRow (redOp o) k y) ((ls.drop (64 * r)).take 64))
    writeTile c d p [x.tlbl a] ((rows.flatten).map (fun v => v.getD 0)))

/-- VPERM (R177): row lanes by S32 index; out of range gives 0. -/
def execVperm (w g : BitVec 3) (d a b : BitVec 5) (p : BitVec 2) : State → Out :=
  runE .X (.vperm w g d a b p) w g (fun c _ => do
    let x := (← getCore c).xs
    let ta := x.tile a
    let tb := x.tile b
    writeTile c d p [x.tlbl a, x.tlbl b] (tileOfFn (fun r cc =>
      let j := i32 (lane tb r cc)
      if 0 ≤ j ∧ j ≤ 63 then lane ta r j.toNat else 0)))

/-- Tile 4k + t. -/
def quadTile (k : BitVec 3) (t : Nat) : BitVec 5 := BitVec.ofNat 5 (4 * k.toNat + t)

/-- VTR4 (R181): four tiles as one 64 × 64 block, transposed. -/
def execVtr4 (w g : BitVec 3) (d a : BitVec 3) : State → Out :=
  runE .X (.vtr4 w g d a) w g (fun c _ => do
    let k ← getCore c
    let x := k.xs
    let src := (List.range 4).map (fun t => x.tile (quadTile a t))
    let lbl ← lift (joinAll (dieOf c) k.id.pid ((List.range 4).map (fun t => x.tlbl (quadTile a t))))
    let out (t : Nat) : Tile := tileOfFn (fun r cc => lane (src.getD (cc / 16) []) (cc % 16) (16 * t + r))
    modXs c (fun x => (List.range 4).foldl (fun (x : XState) t => x.setTile (quadTile d t) (out t) lbl) x)
    return {})

/-! ### The tree unit (R182, R183) -/

/-- The value that `vtree` delivers: FP32 zero-extended, S32 sign-extended (R182). -/
def treeWord (o : BitVec 3) (v : Word32) : Word := if o.toNat < 3 then v.setWidth 64 else v.signExtend 64

/-- VTREE (R182, R183): the result is computed at the start; x[d] is pending until its delivery. -/
def execVtree (w g : BitVec 3) (a : BitVec 5) (k : BitVec 1) (m : BitVec 3) (o : BitVec 3) (d : BitVec 6) : State → Out :=
  runE .X (.vtree w g a k m o d) w g (fun c _ => do
    let kk ← getCore c
    let x := kk.xs
    let act := if k = 1 then laneBits (x.mask m) else List.replicate 1024 true
    let v := (treeReduce (redOp o) 10 (activeLanes act (x.tile a))).getD (redId o)
    let lbl ← lift (joinAll (dieOf c) kk.id.pid (x.tlbl a :: (if k = 1 then [x.mlbl m] else [])))
    if d = 0 then pure () else addPend c { reg := d, src := .vtree, val := none, lbl := lbl, seq := none }
    return { rest := .vtree d (treeWord o v) lbl })

/-- The oldest flight of a kind is finished and its queues pushed. -/
def finishFlight (p : Flight → Bool) (k : Core) : Core :=
  let n := k.flights.findIdx p
  let fl := k.flights.modify n (fun f : Flight => { f with rest := .push })
  settle { k with flights := fl }

/-- A result delivered to a C register: written, and one pending mark of its unit removed (R183). -/
def deliverTo (src : PendSrc) (d : BitVec 6) (v : Word) (lbl : Label) (k : Core) : Core :=
  let k1 := k.setX d v lbl
  match k.pend.find? (fun p => p.reg == d && p.src == src) with
  | some p => { k1 with pend := k.pend.erase p }
  | none => k1

/-- VTREE_DELIVERY (R183): the oldest `vtree` in flight delivers; then its give mask is pushed. -/
def execVtreeDelivery (c : CoreId) (s : State) : Out :=
  let k := s.core c
  let mine (f : Flight) : Bool := match f.rest with | .vtree _ _ _ => true | _ => false
  match k.flights.find? mine with
  | some { st := _, rest := .vtree d v lbl, gives := _, pages := _ } => .next (s.setCore c (finishFlight mine (deliverTo .vtree d v lbl k)))
  | _ => .next s

end Sys2Proof.Machine
end

