-- ==== Sys2Proof/Machine/Drain.lean ====
section
/-! DEFINITION. The S strand (R45 to R51, R219 to R232): the drain mode, drains and raw stores, histograms, stash writeback and
discard, the finishing of a tile. -/

namespace Sys2Proof.Machine

def modSs (c : CoreId) (f : SState → SState) : M Unit := modCore c (fun k => { k with ss := f k.ss })

/-! ### The drain mode (R219, R220) -/

def SState.fmt (x : SState) : Nat := bits x.dmode.toNat 0 4
def SState.rm (x : SState) : Nat := bits x.dmode.toNat 4 3
def SState.e4nan (x : SState) : Bool := bit x.dmode.toNat 7
def SState.hh (x : SState) : BitVec 4 := BitVec.ofNat 4 (bits x.dmode.toNat 8 4)
def SState.hen (x : SState) : Bool := bit x.dmode.toNat 12
def SState.zp (x : SState) : Nat := bits x.dmode.toNat 16 8

/-- The images that `dr.mode` accepts (R219). -/
def modeOk (m h : Nat) : Bool :=
  let f := bits m 0 4
  decide (m < 2 ^ 24) && decide (bits m 13 3 = 0) && decide (f ≤ 8) && decide (bits m 4 3 ≤ 4) &&
  (if fmtQuant f then decide (bits m 16 8 < 2 ^ fmtBits f) else decide (bits m 16 8 = 0)) &&
  decide (h < 2 ^ 52) && decide (h % 64 = 0)

/-- A literal's read that core watchpoints do not see (R106, R220). -/
def readQuiet (c : CoreId) (va n : Nat) : M (List Byte) := do
  let w := strandWho (← get) c
  match ← lift (translate w va n .read) with
  | .error f => pageFault c f
  | .ok pages => do
    let g ← lift (readPieces w (pieces pages va n))
    poisoned c g
    return g.bytes

/-- DR_MODE (R220). -/
def execDrMode (w g : BitVec 3) (a : BitVec 4) (o : BitVec 10) : State → Out :=
  let i := Instr.drMode w g a o
  runE .S i w g (fun c st => do
    let e := (← getCore c).eng st
    let ea := (e.pc + 4 * sext64 o + 16 * (e.nreg a).setWidth 64).toNat
    need (decide (ea % 16 = 0)) cILLEGAL (wordOf i)
    let bs ← readQuiet c ea 16
    let m := bytesAt bs 0 8
    let h := bytesAt bs 8 8
    need (modeOk m h) cILLEGAL (wordOf i)
    if h = 0 then modSs c (fun x => { x with dmode := wd m, rech := 0 })
    else do
      match ← lift (readLRec (strandWho (← get) c) (some (clusterOf c)) h) with
      | .error f => pageFault c f
      | .ok l => do
        need (!lrecBad l && decide (lFmt l = bits m 0 4)) cILLEGAL (wd h)
        modSs c (fun x => { x with
          dmode := wd m, rech := wd h, rtid := BitVec.ofNat 32 (lTid l), rd0 := BitVec.ofNat 32 (lDim l 0), rbase := wd (lBase l) })
    return {})

/-! ### The key-reuse table (R49, R50) -/

/-- A lookup: the table afterwards, and the base that was replaced; the first entry is the most recently used. -/
def keyLookup (keys : List SrKey) (t s : Word32) (base : Word) : List SrKey × Option Word :=
  let hit (k : SrKey) : Bool := k.t == t && k.s == s
  let new := { t := t, s := s, base := base : SrKey } :: keys.filter (fun k => !hit k)
  match keys.find? hit with
  | some k => (new, if k.base = base then none else some k.base)
  | none => (new.take 64, none)

/-! ### Conversion and counting (R40 to R46, R222, R228) -/

/-- conv: a source value to a code of the drain's format. -/
def drainConv (x : SState) (mode : Mode) (v : FVal) : Nat :=
  match x.fmt with
  | 8 => (toS32 mode v).toNat
  | 5 | 6 | 7 => toQuant (fmtBits x.fmt) x.zp mode v
  | f => match ffmtOf f with
    | some ff => ff.encode mode x.e4nan v
    | none => 0

/-- The bin of a delivered value (R228). -/
def histBin (f zp : Nat) (base : Word32) (code : Nat) : Nat :=
  let v := match f with
    | 8 => ofInt (sint 32 code)
    | 5 | 6 | 7 => ofInt ((code : Int) - zp)
    | f => match ffmtOf f with
      | some ff => ff.decode code
      | none => .nan
  match v with
  | .fin _ m e => if m = 0 then 0 else (max 1 (min 30 (Nat.log2 m + e - base.toInt + 15))).toNat
  | _ => 31

/-- A counter stays at 2^32 − 1 once it reaches it. -/
def Hist.count (h : Hist) (b : Nat) : Hist :=
  { h with ctr := wr h.ctr (Fin.ofNat 32 b) (satInc32 (rd h.ctr (Fin.ofNat 32 b))) }

def SState.handle (x : SState) (h : BitVec 4) : Hist := rd x.hist (i4 h)
def SState.setHandle (x : SState) (h : BitVec 4) (v : Hist) : SState := { x with hist := wr x.hist (i4 h) v }

/-! ### Drains and raw stores (R221 to R227) -/

/-- A row start is aligned for 16-bit and 32-bit formats (R223). -/
def rowsAligned (d : SDesc) : Bool :=
  (List.range d.brows).all (fun r =>
    let a := (d.codeRun r).1
    if d.w = 16 then decide (a % 2 = 0) else if d.w = 32 then decide (a % 4 = 0) else true)

/-- The accesses of a store through a descriptor, with every check, before any byte moves (R100, R106, R222, R247). -/
def openBlock (c : CoreId) (d : SDesc) : M (Who × List (List Piece)) := do
  let (w, _, ps) ← openRunsE c .S ((List.range d.brows).map (fun (r : Nat) => d.codeRun r)) .write { rd := false, wr := true, ex := false }
  return (w, ps)

/-- The pieces of an instruction cover a sector whole. -/
def coversSector (ps : List Piece) (sector : Nat) : Bool :=
  let mine := ps.filter (fun p => p.sector == sector)
  decide (64 ≤ (mine.map (fun p => p.len)).sum) && (List.range 64).all (fun o => mine.any (fun p => decide (p.pa % 64 ≤ o) && decide (o < p.pa % 64 + p.len)))

/-- The rows of an instruction, each piece with whether they write its sector in part (R225). -/
def wholeRows (rows : List (List Piece × List Byte)) : List (List Piece × List Byte) :=
  let all := rows.flatMap (fun r => r.1)
  rows.map (fun r => (r.1.map (fun p => { p with whole := coversSector all p.sector }), r.2))

/-- The rows stored in order: race records, then packed codes with the data label, which the old one joins only in a sector that they write
in part (R33, R94, R225, R247; log entry 42). -/
def storeRows (c : CoreId) (w : Who) (rows : List (List Piece × List Byte)) (lbl : Label) : M Unit :=
  (wholeRows rows).forM (fun p => do
    stampRace c w p.1
    let r ← lift (writePieces w p.1 p.2 lbl)
    reportDrop c r)

/-- C of an element (R46, R222), 48 bits. -/
def elemC (x : SState) (d : SDesc) (r j : Nat) : Nat :=
  let q := d.br * d.brows + r
  let u := d.bc * d.bcols + j
  (q * (if x.rech ≠ 0 then x.rd0.toNat else d.ncb * d.bcols) + u) % 2 ^ 48

/-- The pairs (KTID, KSTEP) that a drain may see (R48): of each register the value before or after each write that the S strand is not ordered
after, but no half of a write that set both. -/
def keyPairs (k : Core) : List (Word32 × Word32) :=
  let n := k.keyw.length
  let ts := k.keyw.map (fun e => e.ktid) ++ [k.csr.ktid]
  let ss := k.keyw.map (fun e => e.kstep) ++ [k.csr.kstep]
  let split (i j : Nat) : Bool := k.keyw.zipIdx.any (fun e => e.1.both && (decide (e.2 < i) != decide (e.2 < j)))
  (List.range (n + 1)).flatMap (fun i => (List.range (n + 1)).filterMap (fun j =>
    if split i j then none else some (ts.getD i 0, ss.getD j 0)))

/-- The pair as a drain reads it, once, when it issues (R48). -/
def readKeys (c : CoreId) : SM (Word32 × Word32) := fun s =>
  let k := s.core c
  if k.keyw.isEmpty then ((k.csr.ktid, k.csr.kstep), s)
  else
    let (n, s1) := freshNat s
    let ps := keyPairs k
    (ps.getD (n % ps.length) (k.csr.ktid, k.csr.kstep), s1)

/-- What a drain reads: each element as an exact value, and the label. -/
structure DrainSrc where
  elem : Nat → Nat → FVal
  lbl : Label

/-- A drain (R222): checks, translation, the SR lookup, then conversion, stores and counting. `ok` is what the form requires
besides. -/
def drain (i : Instr) (w g : BitVec 3) (k : BitVec 5) (h : BitVec 1) (ok : Bool) (maxR maxC : Nat) (src : CoreId → SM DrainSrc) :
    State → Out :=
  runE .S i w g (fun c _ => do
    let kk ← getCore c
    let d := kk.ls.desc k
    let x := kk.ss
    need (ok && decide (1 ≤ d.brows) && decide (d.brows ≤ maxR) && decide (d.bcols ≤ maxC) && decide (x.fmt = d.fmt) &&
          rowsAligned d) cILLEGAL (wordOf i)
    let (wh, ps) ← openBlock c d
    let (kt, s) ← lift (readKeys c)
    let t := if x.rech ≠ 0 && decide (x.rtid ≠ 0) then x.rtid else kt
    if x.rm = 4 then do
      let (keys, old) := keyLookup x.keys t s (if x.rech ≠ 0 then x.rbase else wd d.base)
      modSs c (fun x => { x with keys := keys })
      match old with
      | some b => trapNow cSRKEY b
      | none => pure ()
    let mode (r j : Nat) : Mode := if x.rm = 4 then .sr (srgen t s (elemC x d r j)) else modeOf x.rm
    let v ← lift (src c)
    let codes := (List.range d.brows).map (fun r =>
      (List.range d.bcols).map (fun j => drainConv x (mode r j) (v.elem r j)))
    storeRows c wh (ps.zip (codes.map (packCodes d.w))) v.lbl
    if x.hen then do
      let hd := x.handle x.hh
      let l ← lift (joinL c hd.lbl v.lbl)
      let hd1 := (codes.flatten).foldl (fun (hd : Hist) v => hd.count (histBin x.fmt x.zp hd.base v)) hd
      modSs c (fun x => x.setHandle x.hh { hd1 with lbl := l })
    advanceDesc c k h
    return {})

/-- Container (r, j) of a tile or an accumulator region. -/
def cell (t : List Word32) (cols r j : Nat) : Word32 := t.getD (r * cols + j) 0

/-- A rectangle of an accumulator, as FP32, with its first row and column. -/
def accSrc (a : BitVec 2) (row col : Nat) (c : CoreId) : SM DrainSrc := do
  let v ← accView c a
  return { elem := fun r cc => f32 (cell v.1 128 (row + r) (col + cc)), lbl := v.2 }

/-- DR_ACC (R221, R222): region J of an accumulator. -/
def execDrAcc (w g : BitVec 3) (k : BitVec 5) (a : BitVec 2) (j : BitVec 4) (h : BitVec 1) : State → Out :=
  drain (.drAcc w g k a j h) w g k h true 16 64 (accSrc a (16 * (j.toNat / 2)) (64 * (j.toNat % 2)))

/-- DR_ACC_ALL (R221, R222): the whole accumulator; a J that is not 0 is illegal at the start (R223). -/
def execDrAccAll (w g : BitVec 3) (k : BitVec 5) (a : AccRegion) (h : BitVec 1) : State → Out :=
  drain (.drAccAll w g k a h) w g k h (decide (a.j = 0)) 128 128 (accSrc a.a 0 0)

/-- DR_VT (R221, R222): a tile as FP32, or with `.i` as S32. -/
def execDrVt (w g : BitVec 3) (k a : BitVec 5) (n : BitVec 1) (h : BitVec 1) : State → Out :=
  drain (.drVt w g k a n h) w g k h true 16 64 (fun c => do
    let x := ((← get).core c).xs
    return { elem := fun r cc => let v := cell (x.tile a) 64 r cc; if n = 1 then ofInt (i32 v) else f32 v, lbl := x.tlbl a })

/-- ST_TILE (R224): raw 32-bit patterns. -/
def execStTile (w g : BitVec 3) (k a : BitVec 5) (h : BitVec 1) : State → Out :=
  let i := Instr.stTile w g k a h
  runE .S i w g (fun c _ => do
    let kk ← getCore c
    let d := kk.ls.desc k
    need (decide (1 ≤ d.brows) && decide (d.brows ≤ 16) && decide (d.bcols ≤ 64) && decide (d.fmt = 0 ∨ d.fmt = 8) && rowsAligned d)
      cILLEGAL (wordOf i)
    let (wh, ps) ← openBlock c d
    let t := kk.xs.tile a
    let rows := (List.range d.brows).map (fun r => packCodes 32 ((List.range d.bcols).map (fun j => (cell t 64 r j).toNat)))
    storeRows c wh (ps.zip rows) (kk.xs.tlbl a)
    advanceDesc c k h
    return {})

/-! ### Histogram handles (R228, R229) -/

/-- HIST_CFG (R229). -/
def execHistCfg (w g : BitVec 3) (h a : BitVec 4) : State → Out :=
  let i := Instr.histCfg w g h a
  runE .S i w g (fun c st => do
    let v := ((← getCore c).eng st).nreg a
    need (decide (-256 ≤ v.toInt) && decide (v.toInt ≤ 255)) cILLEGAL (wordOf i)
    modSs c (fun x => x.setHandle h { Hist.reset with base := v })
    return {})

/-- HIST_CLR (R229). -/
def execHistClr (w g : BitVec 3) (h : BitVec 4) : State → Out :=
  runE .S (.histClr w g h) w g (fun c _ => do
    modSs c (fun x => x.setHandle h { Hist.reset with base := (x.handle h).base })
    return {})

/-- The read of a counter: x[d] is pending until its delivery, which the give mask follows (R183, R229). -/
def histRead (c : CoreId) (h : BitVec 4) (k : BitVec 5) (d : BitVec 6) : M EFlow := do
  let hd := (← getCore c).ss.handle h
  if d = 0 then pure () else addPend c { reg := d, src := .histRd, val := none, lbl := hd.lbl, seq := none }
  return { rest := .hist d ((rd hd.ctr (i5 k)).setWidth 64) hd.lbl }

/-- HIST_RD (R229). -/
def execHistRd (w g : BitVec 3) (h : BitVec 4) (k : BitVec 5) (d : BitVec 6) : State → Out :=
  runE .S (.histRd w g h k d) w g (fun c _ => histRead c h k d)

/-- HIST_RD_CLR (R229): read and zeroed in one step. -/
def execHistRdClr (w g : BitVec 3) (h : BitVec 4) (k : BitVec 5) (d : BitVec 6) : State → Out :=
  runE .S (.histRdClr w g h k d) w g (fun c _ => do
    let f ← histRead c h k d
    modSs c (fun x => let hd := x.handle h; x.setHandle h { hd with ctr := wr hd.ctr (i5 k) 0 })
    return f)

/-- HIST_RD_DELIVERY (R229): the oldest `hist.rd` in flight delivers; then its give mask is pushed. -/
def execHistRdDelivery (c : CoreId) (s : State) : Out :=
  let k := s.core c
  let mine (f : Flight) : Bool := match f.rest with | .hist _ _ _ => true | _ => false
  match k.flights.find? mine with
  | some { st := _, rest := .hist d v lbl, gives := _, pages := _ } => .next (s.setCore c (finishFlight mine (deliverTo .histRd d v lbl k)))
  | _ => .next s

/-! ### Stash writeback and discard (R230, R231) -/

/-- Pages n[A] to n[A] + n[B] − 1 of the window, checked: the window first (R230). -/
def windowPages (i : Instr) (c : CoreId) (a b : BitVec 4) : M (Nat × Nat) := do
  need (windowOf (← get) c).isSome cILLEGAL (wordOf i)
  let e := (← getCore c).s
  let lo := (e.nreg a).toNat
  let n := (e.nreg b).toNat
  need (decide (lo + n ≤ 1024)) cILLEGAL (wordOf i)
  return (lo, n)

/-- The sectors that the frames of a range of window pages hold and their homes do not. -/
def stashLines (s : State) (cl : ClusterId) (lo n : Nat) : List Line :=
  s.lines.filter (fun l => match l.owner with
    | .stash d idx => decide (d = cl) && decide (lo ≤ idx) && decide (idx < lo + n)
    | _ => false)

/-- ST_WB (R230). -/
def execStWb (w g : BitVec 3) (a b : BitVec 4) : State → Out :=
  let i := Instr.stWb w g a b
  runE .S i w g (fun c _ => do
    let (lo, n) ← windowPages i c a b
    let cl := clusterOf c
    modify (fun s => (stashLines s cl lo n).foldl (fun (s : State) l => writeback l s) s)
    return {})

/-- ST_INV (R230): sectors become absent with no writeback; the recorded translations are dropped. -/
def execStInv (w g : BitVec 3) (a b : BitVec 4) : State → Out :=
  let i := Instr.stInv w g a b
  runE .S i w g (fun c _ => do
    let (lo, n) ← windowPages i c a b
    let cl := clusterOf c
    modify (fun s =>
      let gone := stashLines s cl lo n
      let s1 : State := { s with lines := s.lines.filter (fun l => !gone.contains l) }
      s1.updCluster cl (fun k => { k with frames := k.frames.filter (fun f => !(decide (lo ≤ f.idx) && decide (f.idx < lo + n))) }))
    return {})

/-! ### Finishing a tile (R232, R321) -/

/-- A chunk counter and its overflow mark; one not listed is 0 (R321). -/
def Job.chunk (j : Job) (n : Nat) : BitVec 16 × Bool := mapGet (0, false) j.chunks n
def Job.setChunk (j : Job) (n : Nat) (v : BitVec 16 × Bool) : Job := { j with chunks := mapSet (0, false) j.chunks n v }

/-- One increment; past 65,535 the counter stays and is marked (R321). -/
def Job.bumpChunk (j : Job) (n : Nat) : Job :=
  let v := j.chunk n
  j.setChunk n (if v.1 = BitVec.allOnes 16 then (v.1, true) else (v.1 + 1, v.2))

/-- TILE_DONE (R232): every earlier store of the strand has performed; the engine accepts the increment. -/
def execTileDone (w g : BitVec 3) (a : BitVec 4) : State → Out :=
  let i := Instr.tileDone w g a
  runE .S i w g (fun c st => do
    let k ← getCore c
    let v := ((k.eng st).nreg a).toNat
    need (decide (v < 4096)) cILLEGAL (wordOf i)
    modify (fun s => s.updJob k.id.jobid (fun j => j.bumpChunk v))
    return {})

end Sys2Proof.Machine
end

