-- ==== Sys2Proof/Machine/Job.lean ====
section
/-! DEFINITION. Launch packets and the job group (R14, R83, R337, R338, R348, R349). -/

namespace Sys2Proof.Machine

/-! ### The packet (R83, R337) -/

/-- The fields of a launch packet's 128 bytes. -/
def parseHeader (b : List Byte) : Header :=
  { entry := wd (bytesAt b 0 8), est := BitVec.ofNat 32 (bytesAt b 8 4), ptok := BitVec.ofNat 16 (bytesAt b 12 2),
    prio := BitVec.ofNat 4 (bytesAt b 14 1), kill := bit (bytesAt b 15 1) 0, det := bit (bytesAt b 15 1) 1,
    salign := bit (bytesAt b 15 1) 2, ncl := bytesAt b 16 1 % 128, level := BitVec.ofNat 2 (bytesAt b 17 1),
    npro := bytesAt b 18 1 % 16, pro := wd (bytesAt b 24 8), arg0 := wd (bytesAt b 32 8), arg1 := wd (bytesAt b 40 8),
    crec := wd (bytesAt b 64 8 % 2 ^ 52), swb := wd (bits (bytesAt b 72 8) 22 30 * 2 ^ 22),
    irq := bit (bytesAt b 80 1) 0, urg := bit (bytesAt b 80 1) 1, ord := bit (bytesAt b 80 1) 2,
    rply := wd (bytesAt b 88 8) }

/-- QID (R337). -/
def packetQid (b : List Byte) : Nat := bytesAt b 82 2 % 2 ^ 13

/-- A reserved bit is set (R83, R337): code 0x01. -/
def packetRsvd (b : List Byte) : Bool :=
  decide (16 ≤ bytesAt b 14 1) || decide (8 ≤ bytesAt b 15 1) || decide (128 ≤ bytesAt b 16 1) || decide (4 ≤ bytesAt b 17 1) ||
  decide (16 ≤ bytesAt b 18 1) || decide (bytesAt b 19 5 ≠ 0) || decide (bytesAt b 48 16 ≠ 0) ||
  decide (2 ^ 52 ≤ bytesAt b 64 8) || decide (bytesAt b 72 8 % 2 ^ 22 ≠ 0) || decide (2 ^ 52 ≤ bytesAt b 72 8) ||
  decide (8 ≤ bytesAt b 80 1) || decide (bytesAt b 81 1 ≠ 0) || decide (2 ^ 13 ≤ bytesAt b 82 2) ||
  decide (bytesAt b 84 4 ≠ 0) || decide (bytesAt b 96 32 ≠ 0)

/-- A limit is broken (R14, R83, R337): code 0x02. The completion record's address is 32-byte aligned. -/
def packetLimits (b : List Byte) : Bool :=
  let n := bytesAt b 16 1 % 128
  let lv := bytesAt b 17 1 % 4
  decide (bytesAt b 0 8 % 4 ≠ 0) || decide (2 ^ 52 ≤ bytesAt b 0 8) || decide (n = 0) ||
  decide ((if lv = 3 then 112 else 28) < n) || decide (bytesAt b 64 8 % 32 ≠ 0)

/-- The starts of contiguous ranges of n clusters of a partition within one die (R22). -/
def dieRuns (q : Part) (n : Nat) : List Nat :=
  (List.range 112).filter (fun c => decide (c % 28 + n ≤ 28) && (List.range n).all (fun i => q.clusters.any (fun k => k.val == c + i)))

/-- The partition can hold the job (R22): code 0x03 otherwise. -/
def partFits (q : Part) (n : Nat) (level : BitVec 2) : Bool :=
  decide (n ≤ q.clusters.length) && (decide (level = 3) || !(dieRuns q n).isEmpty)

/-- A prologue record malformed by causes 0x02, 0x04, 0x05 or 0x06 (R338); a fault in a layout record's read does not count
here, for it is met when the prologue runs (R339). -/
def proBad (w : Who) (img : List Byte) : SM Bool := fun s =>
  match checkCopy w none false false (Copy.fresh img 0 0) s with
  | (.error (.bad c _), s1) => (decide (c = 0x02 ∨ c = 0x04 ∨ c = 0x05 ∨ c = 0x06), s1)
  | (.error .poison, s1) => (false, s1)
  | (.ok _, s1) => (false, s1)

/-- The checks of R338 on a packet whose prologue records have been read: 0 or the failure's code. -/
def packetCode (w : Who) (q : Part) (b pro : List Byte) : SM Nat := do
  let h := parseHeader b
  if packetRsvd b then return 0x01
  else if packetLimits b then return 0x02
  else if !partFits q h.ncl h.level then return 0x03
  else if h.npro ≠ 0 && decide (h.pro.toNat % 64 ≠ 0) then return 0x04
  else do
    let bad ← (List.range h.npro).foldlM (fun acc i => do
      let x ← proBad w ((pro.drop (64 * i)).take 64)
      return acc || x) false
    if bad then return 0x04
    else if h.swb ≠ 0 && decide (2 ^ 52 < h.swb.toNat + h.ncl * 2 ^ 22) then return 0x05
    else return 0

/-! ### Queue fields (R333) -/

def Queue.log2n (q : Queue) : Nat := bits q.cfg.toNat 0 4
def Queue.dev (q : Queue) : Bool := bit q.cfg.toNat 4
def Queue.rack (q : Queue) : Bool := bit q.cfg.toNat 5
def Queue.pid (q : Queue) : PartId := Fin.ofNat 32 (bits q.cfg.toNat 8 5)
def Queue.vd (q : Queue) : BitVec 3 := BitVec.ofNat 3 (bits q.cfg.toNat 13 3)
def Queue.asid (q : Queue) : BitVec 16 := BitVec.ofNat 16 (bits q.cfg.toNat 16 16)
/-- The ring slot of a packet count (R333). -/
def Queue.slotVa (q : Queue) (i : Word32) : Nat := q.base.toNat + 128 * (i.toNat % 2 ^ q.log2n)

/-- The agent that fetches for a queue. -/
def queueWho (q : Queue) : Who := iocWho q.pid q.vd q.asid Config.iocKind 0

/-! ### `launch` and `est` -/

/-- The reads and checks of `launch` (R348): the status and, for 0, the packet and its queue. -/
def launchCheck (c : CoreId) (a : Word) (i : Instr) : M (Nat × Got × Queue) := do
  need (decide (a.toNat % 128 = 0)) cILLEGAL (wordOf i)
  let p ← strandRead c .C a.toNat 128 false
  let k ← getCore c
  let q := (← get).queue (BitVec.ofNat 13 (packetQid p.bytes))
  if !q.dev || decide (q.st ≠ .run) || decide (q.pid ≠ k.id.pid) || decide (q.vd ≠ k.id.vd) then return (2, p, q)
  else do
    let h := parseHeader p.bytes
    let pro ← if h.npro ≠ 0 then do let g ← strandRead c .C h.pro.toNat (64 * h.npro) false; pure g.bytes else pure []
    let code ← lift (packetCode (strandWho (← get) c) ((← get).part k.id.pid) p.bytes pro)
    if code ≠ 0 then return (3, p, q)
    else if (q.tailv - q.head).toNat = 2 ^ q.log2n then return (1, p, q)
    else return (0, p, q)

/-- The packet is written at ring slot TAILV, with the label it was read with, and TAILV rises (R348); under the queue's address
space, as a write of the issuing strand. -/
def launchWrite (c : CoreId) (p : Got) (q : Queue) : M Unit := do
  let w := { queueWho q with author := (strandWho (← get) c).author }
  match ← lift (writeVirt w (q.slotVa q.tailv) p.bytes p.lbl) with
  | .error f => pageFault c f
  | .ok d => modify (fun s => wrote c d (s.setQueue { q with tailv := q.tailv + 1 }))

/-- LAUNCH (R348): the status is known as it issues; for 0 the packet has been written, which is the commit point (R361). -/
def execLaunch (d a : BitVec 6) : State → Out :=
  runPlain (fun c => do
    needFree c d
    let v ← readX c a
    let (st, p, q) ← launchCheck c v (.launch d a)
    jRoom c
    if st = 0 then launchWrite c p q
    jAtOnce c true (.launch d a) v 0 d (wd st))

/-- EST (R349): the job's remaining estimate, counted from now (R344). -/
def execEst (a : BitVec 6) : State → Out :=
  runPlain (fun c => do
    let v ← readX c a
    need (low32Ok v) cILLEGAL (wordOf (.est a))
    let k ← getCore c
    modify (fun s => s.updJob k.id.jobid (fun j => { j with est := v.setWidth 32, estAt := s.time })))

end Sys2Proof.Machine
end

