-- ==== Sys2Proof/Machine/Coll.lean ====
section
/-! DEFINITION. The collective engine (R317 to R328): programs, triggers, the block-integer reduction, aborts. -/

namespace Sys2Proof.Machine

/-! ### The header (R318) -/

def chSteps (h : List Byte) : Nat := bytesAt h 0 8 % 2 ^ 52
def chNstep (h : List Byte) : Nat := bytesAt h 8 2 % 2 ^ 11
def chAbt (h : List Byte) : Nat := bytesAt h 10 2 % 2 ^ 10
def chRank (h : List Byte) : Nat := bytesAt h 12 1 % 2 ^ 7
def chN (h : List Byte) : Nat := bytesAt h 13 1
def chFmt (h : List Byte) : Nat := bytesAt h 14 1 % 16
def chComp (h : List Byte) : Bool := bit (bytesAt h 14 1) 4
def chTrig (h : List Byte) : Bool := bit (bytesAt h 14 1) 5
def chNet (h : List Byte) : Bool := bit (bytesAt h 14 1) 6
def chChk (h : List Byte) : Nat := bytesAt h 16 4
/-- NCHK′ (R320). -/
def chNchk (h : List Byte) : Nat := if bytesAt h 20 2 = 0 then chN h else bytesAt h 20 2
def chCbase (h : List Byte) : Nat := bytesAt h 22 2 % 2 ^ 12
def chTgt (h : List Byte) : Nat := bytesAt h 24 2
def chTag (h : List Byte) : BitVec 16 := BitVec.ofNat 16 (bytesAt h 26 2)
def chTmo (h : List Byte) : Nat := bytesAt h 28 4
def chRnd (h : List Byte) : BitVec 32 := BitVec.ofNat 32 (bytesAt h 32 4)
def chBuf (h : List Byte) (k : Nat) : Nat := bytesAt h (40 + 8 * k) 8 % 2 ^ 52
def chPtab (h : List Byte) : Nat := bytesAt h 72 8 % 2 ^ 52
def chExpb (h : List Byte) : Nat := bytesAt h 80 8 % 2 ^ 52
def chRes (h : List Byte) : Nat := bytesAt h 88 8 % 2 ^ 52
def chRstg (h : List Byte) : Nat := bytesAt h 96 8 % 2 ^ 52
/-- The element size. -/
def chEs (h : List Byte) : Nat := if chFmt h = 1 ∨ chFmt h = 2 then 2 else 4
def chFloat (h : List Byte) : Bool := decide (chFmt h ≠ 8)

/-- A limit of R318 is broken or a reserved bit is set. -/
def headerBad (h : List Byte) : Bool :=
  let f := chFmt h
  decide (2 ^ 52 ≤ bytesAt h 0 8) || decide (chSteps h % 8 ≠ 0) || decide (2 ^ 11 ≤ bytesAt h 8 2) || decide (chNstep h = 0) ||
  decide (1024 < chNstep h) || decide (2 ^ 10 ≤ bytesAt h 10 2) || decide (chNstep h ≤ chAbt h) || decide (2 ^ 7 ≤ bytesAt h 12 1) ||
  decide (chN h = 0) || decide (128 < chN h) || decide (chN h ≤ chRank h) || !(decide (f = 0 ∨ f = 1 ∨ f = 2 ∨ f = 8)) ||
  (chComp h && !chFloat h) || bit (bytesAt h 14 1) 7 || decide (bytesAt h 15 1 ≠ 0) || decide (chChk h % 32 ≠ 0) ||
  decide (chChk h < 32) || decide (65536 < chChk h) || decide (2 ^ 12 ≤ bytesAt h 22 2) || decide (chTgt h = 0) ||
  (chTrig h && decide (4095 < chCbase h + chNchk h - 1)) || decide (chTmo h = 0) || decide (bytesAt h 36 4 ≠ 0) ||
  (List.range 4).any (fun k => decide (2 ^ 52 ≤ bytesAt h (40 + 8 * k) 8) || decide (chBuf h k % chEs h ≠ 0)) ||
  decide (2 ^ 52 ≤ bytesAt h 72 8) || decide (2 ^ 52 ≤ bytesAt h 80 8) || decide (2 ^ 52 ≤ bytesAt h 88 8) ||
  decide (2 ^ 52 ≤ bytesAt h 96 8) || decide (bytesAt h 104 24 ≠ 0)

/-- A peer entry that breaks R318 (R330). -/
def peerBad (q : Part) (net : Bool) (e : Nat) : Bool :=
  decide (256 ≤ e) ||
  (if net then !(q.ueep.any (fun t => decide (t.1 = e) && bit t.2.2.2.toNat 63)) else decide (128 ≤ e))

/-! ### Steps (R319) -/

def csOp (w : Word) : Nat := bits w.toNat 60 4
def csKa (w : Word) : Int := sint 7 (bits w.toNat 53 7)
def csKb (w : Word) : Int := sint 7 (bits w.toNat 46 7)
def csRed (w : Word) : Bool := bit w.toNat 45
def csFwd (w : Word) : Bool := bit w.toNat 44
def csSto (w : Word) : Bool := bit w.toNat 43
def csSb (w : Word) : Nat := bits w.toNat 41 2
def csDb (w : Word) : Nat := bits w.toNat 39 2
def csL (w : Word) : BitVec 2 := BitVec.ofNat 2 (bits w.toNat 37 2)
/-- The codes of CR and CL. -/
def csSign (c : Nat) : Int := match c with | 1 => 1 | 2 => -1 | _ => 0

/-- A step that breaks R319. -/
def stepBad (w : Word) (i : Nat) : Bool :=
  let n := w.toNat
  match csOp w with
  | 0 => decide (n ≠ 0)
  | 1 | 2 | 3 =>
    decide (bits n 0 17 ≠ 0) || decide (bits n 35 2 = 3) || decide (bits n 33 2 = 3) ||
    (decide (csOp w = 1) && (csFwd w || csSto w)) || (decide (csOp w = 3) && (csRed w || csFwd w || csSto w)) ||
    (!csFwd w && decide (bits n 46 7 ≠ 0))
  | 4 => decide (bits n 0 32 ≠ 0) || decide (bits n 32 16 = 0)
  | 5 => decide (bits n 10 38 ≠ 0) || decide (i ≤ bits n 0 10) || (!bit n 57 && decide (bits n 48 9 = 0))
  | _ => true

/-! ### A program's own view -/

def Coll.live (p : Coll) : Bool := decide (p.st = .run ∨ p.st = .aborting)
def Coll.word? (p : Coll) : Option Word := p.steps[p.step]?
def Coll.rank (p : Coll) : BitVec 7 := BitVec.ofNat 7 (chRank p.hdr)
/-- peer(k) (R320). -/
def Coll.peer (p : Coll) (k : Int) : BitVec 7 := BitVec.ofInt 7 ((chRank p.hdr + k) % (chN p.hdr : Int))
/-- chunk() (R320). -/
def Coll.chunkOf (p : Coll) (w : Word) : Nat :=
  ((sint 16 (bits w.toNat 17 16) + csSign (bits w.toNat 35 2) * chRank p.hdr +
    csSign (bits w.toNat 33 2) * ((rd p.lc (i2 (csL w))).toNat : Int)) % (chNchk p.hdr : Int)).toNat
/-- The engine's accesses, attributed to the task that issued `coll.go` (R108: KIND 4; R317). -/
def Coll.who (p : Coll) : Who := taskWho p.core p.pid p.vd p.asid 4 p.job.toNat
def Coll.chunkBytes (p : Coll) : Nat := chChk p.hdr * chEs p.hdr
def Coll.chunkVa (p : Coll) (k c : Nat) : Nat := chBuf p.hdr k + c * p.chunkBytes
def readyKey (k c : Nat) : Nat := 65536 * k + c
/-- The chunk that the current step makes ready first, if any (R320, R323). -/
def Coll.needsReady (p : Coll) (w : Word) : Bool :=
  match csOp w with
  | 1 => true
  | 2 => csRed w
  | 3 => p.dataPass
  | _ => false
/-- How often a rank is named in a list: the number of the next message to or from it (R324). -/
def timesNamed (r : BitVec 7) (l : List (BitVec 7)) : Nat := (l.filter (· == r)).length
/-- The message of a RECV: the k-th one that its peer sent here, for the k-th RECV that names the peer (R324). -/
def Coll.nextMsg (p : Coll) (w : Word) : Option CollMsg :=
  let r := p.peer (csKa w)
  p.inbox.find? (fun m => m.src == r && m.num == timesNamed r p.recvd)
/-- The step is done: the next one waits from now on. -/
def Coll.next (p : Coll) (now : Word) : Coll := { p with step := p.step + 1, ack := none, waitFrom := now }

/-! ### The engine's steps: a cause with its SILENT ends one -/

abbrev CM := ExceptT (Byte × BitVec 7) SM

/-- A plain state step. -/
def cStep {α : Type} (m : SM α) : CM α := ExceptT.mk (do return .ok (← m))

/-- A poisoned sector ends the job, and with it the program (R87). -/
def cPoison {α : Type} (p : Coll) : CM α := do
  cStep (modify (fun s => s.updJob p.job (fun j => { j with killDue := true })))
  throw (0x05, p.rank)

/-- The cause of a translation fault (R327). -/
def cFault {α : Type} (p : Coll) (f : PFault) : CM α :=
  if f.poison then cPoison p else throw (BitVec.ofNat 8 (f.stage * 16 + f.kind), p.rank)

def cJoin (p : Coll) (ls : List Label) : CM Label := cStep (joinAll 0 p.pid ls)

/-- Bytes read, each with the label of its sector. -/
structure CBytes where
  bytes : List Byte
  lbls : List Label
  deriving DecidableEq, Repr

def cReadPieces (p : Coll) (ps : List Piece) : CM CBytes :=
  ps.foldlM (fun acc q => do
    let g ← cStep (readPieces p.who [q])
    if g.poison then cPoison p
    else return { bytes := acc.bytes ++ g.bytes, lbls := acc.lbls ++ List.replicate g.bytes.length g.lbl }) { bytes := [], lbls := [] }

/-- A read. -/
def cGet (p : Coll) (va n : Nat) : CM CBytes := do
  match ← cStep (translate p.who va n .read) with
  | .error f => cFault p f.1
  | .ok pages => cReadPieces p (pieces pages va n)

/-- A write that the gate drops is reported to the issuing task, while it runs (R312). -/
def cDenied (p : Coll) (va : Word) (s : State) : State := if (s.core p.core).job = some p.job then relDeny p.core va s else s

/-- Bytes written, sector by sector; each sector's data label is the join of its bytes' labels. -/
def cWritePieces (p : Coll) (ps : List Piece) (d : CBytes) : CM Unit := do
  let _ ← ps.foldlM (fun (r : CBytes) q => do
    let l ← cJoin p (r.lbls.take q.len)
    match ← cStep (writePiece p.who q (r.bytes.take q.len) l) with
    | .denied a => cStep (modify (cDenied p a))
    | .poison => cPoison p
    | .done => pure ()
    return { bytes := r.bytes.drop q.len, lbls := r.lbls.drop q.len : CBytes }) d
  return ()

/-- A write. -/
def cPut (p : Coll) (va : Nat) (d : CBytes) : CM Unit := do
  match ← cStep (translate p.who va d.bytes.length .write) with
  | .error f => cFault p f.1
  | .ok pages => cWritePieces p (pieces pages va d.bytes.length) d

/-- The labels of n fields of a size: of the first and the last byte of each. -/
def fieldLbls (p : Coll) (size n : Nat) (g : CBytes) : CM (List Label) :=
  (List.range n).mapM (fun i => cJoin p [g.lbls.getD (i * size) 0, g.lbls.getD (i * size + size - 1) 0])

/-- Fields of a size as bytes with their labels. -/
def fieldBytes (size : Nat) (vs : List Nat) (ls : List Label) : CBytes :=
  { bytes := (vs.map (natBytes size)).flatten, lbls := (ls.map (List.replicate size)).flatten }

/-! ### The reduction (R323) -/

/-- What moves between ranks: block words, and in the data pass one value an element. The labels are those of the values, in the
exponent pass those of the words. -/
structure CVal where
  isPartial : Bool
  words : List (BitVec 16)
  vals : List Word
  negz : List Bool
  lbls : List Label
  deriving DecidableEq, Repr

def wordEb (w : BitVec 16) : Nat := bits w.toNat 0 9
def wordSp (w : BitVec 16) : Nat := bits w.toNat 9 2

/-- The block word of a rank's contributions. -/
def blockWord (cs : List FVal) : BitVec 16 :=
  cs.foldl (fun (w : BitVec 16) c =>
    match c with
    | .nan => w ||| 0x600
    | .inf neg => w ||| (if neg then 0x400 else 0x200)
    | .fin _ m e =>
      if m = 0 then w
      else BitVec.ofNat 16 (max (wordEb w) ((Nat.log2 m + e + 256).toNat) + wordSp w * 2 ^ 9)) 0

/-- Block words combine by the maximum of EB and the OR of SP. -/
def wordJoin (a b : BitVec 16) : BitVec 16 := BitVec.ofNat 16 (max (wordEb a) (wordEb b) + (wordSp a ||| wordSp b) * 2 ^ 9)

/-- round_rne(c × 2^k) as an integer; of a value that is not finite R323 states none, and it is free (log entry 30). -/
def scaledInt (c : FVal) (k : Int) : Int :=
  match c with
  | .fin neg m e => sgn neg (roundAt .rne neg m (e + k) 0)
  | .inf neg => Config.openInt (if neg then 1 else 0)
  | .nan => Config.openInt 2

def wordE (w : BitVec 16) : Int := (wordEb w : Int) - 256

def isZero : FVal → Bool
  | .fin _ m _ => decide (m = 0)
  | _ => false
/-- A rank's own integer; 0 of a zero, whatever E. -/
def ownInt (w : BitVec 16) (c : FVal) : Int := if isZero c then 0 else scaledInt c (45 - wordE w)
/-- The code q of a compressed contribution; an infinity clamps to ±127. -/
def compCode (w : BitVec 16) (c : FVal) : Int :=
  match c with
  | .inf neg => if neg then -127 else 127
  | c => if isZero c then 0 else max (-127) (min 127 (scaledInt c (6 - wordE w)))
/-- The residual c − q × 2^(E − 6). -/
def compRest (w : BitVec 16) (c : FVal) : Word32 :=
  let q := compCode w c
  toF32 (c.add (FVal.fin (decide (q < 0)) q.natAbs (wordE w - 6)).neg)
def isNegZero : FVal → Bool
  | .fin neg m _ => neg && decide (m = 0)
  | _ => false

/-- final: a sum and its block word to an element pattern. -/
def finalPat (h : List Byte) (w : BitVec 16) (v : Word) (nz : Bool) : Nat :=
  match ffmtOf (chFmt h) with
  | none => (word32 (sat32 v.toInt)).toNat
  | some f =>
    let x : FVal :=
      match wordSp w with
      | 1 => .inf false
      | 2 => .inf true
      | 3 => .nan
      | _ => if wordEb w = 0 ∨ v = 0 then .fin nz 0 0 else .fin (decide (v.toInt < 0)) v.toInt.natAbs (wordE w - 45)
    f.encode .rne false x

/-- The elements of a chunk of a buffer, with their labels. -/
def cElems (p : Coll) (k c : Nat) : CM (List Nat × List Label) := do
  let n := chChk p.hdr
  let g ← cGet p (p.chunkVa k c) p.chunkBytes
  return ((List.range n).map (fun i => bytesAt g.bytes (i * chEs p.hdr) (chEs p.hdr)), ← fieldLbls p (chEs p.hdr) n g)

def elemVal (h : List Byte) (x : Nat) : FVal :=
  match ffmtOf (chFmt h) with
  | some f => f.decode x
  | none => ofInt (sint 32 x)

/-- The address of a chunk's first word in an FP32 array indexed as the source buffer, and of its block words. -/
def resVa (p : Coll) (base c : Nat) : Nat := base + 4 * (c * chChk p.hdr)
def expVa (p : Coll) (c : Nat) : Nat := chExpb p.hdr + 2 * (c * chChk p.hdr / 32)

/-- Labels joined in pairs. -/
def cJoinZip (p : Coll) (a b : List Label) : CM (List Label) := (b.zipIdx).mapM (fun q => cJoin p [a.getD q.2 0, q.1])

/-- A rank's contributions to a chunk: its elements, with COMP each plus its residual, rounded (R323). -/
def contributions (p : Coll) (k c : Nat) : CM (List FVal × List Label) := do
  let n := chChk p.hdr
  let (xs, l) ← cElems p k c
  let vs := xs.map (elemVal p.hdr)
  if !chComp p.hdr then return (vs, l)
  else do
    let g ← cGet p (resVa p (chRes p.hdr) c) (4 * n)
    let lr ← fieldLbls p 4 n g
    return ((vs.zipIdx).map (fun (q : FVal × Nat) => rne32 (q.1.add (f32 (BitVec.ofNat 32 (bytesAt g.bytes (4 * q.2) 4))))),
            ← cJoinZip p lr l)

/-- The blocks of 32 elements. -/
def blocksOf {α : Type} (l : List α) : List (List α) := (List.range (l.length / 32)).map (fun i => (l.drop (32 * i)).take 32)

/-- The block words in EXPB of a chunk, with their labels. -/
def storedWords (p : Coll) (c : Nat) : CM (List (BitVec 16) × List Label) := do
  let n := chChk p.hdr / 32
  let g ← cGet p (expVa p c) (2 * n)
  return ((List.range n).map (fun i => BitVec.ofNat 16 (bytesAt g.bytes (2 * i) 2)), ← fieldLbls p 2 n g)

/-- The block words of contributions, each with the joined label of its block. -/
def wordsVal (p : Coll) (isPartial : Bool) (cs : List FVal) (ls : List Label) : CM CVal := do
  return { isPartial := isPartial, words := (blocksOf cs).map blockWord, vals := [], negz := [], lbls := ← (blocksOf ls).mapM (cJoin p) }

/-- A chunk unchanged (R320); in the exponent pass the block words that a STO of the pass has written, or its elements' own (R323). -/
def plainValue (p : Coll) (k c : Nat) : CM CVal := do
  if !p.dataPass && p.exps.contains c then do
    let (ws, l) ← storedWords p c
    return { isPartial := false, words := ws, vals := [], negz := [], lbls := l }
  else do
    let (xs, l) ← cElems p k c
    if p.dataPass then return { isPartial := false, words := [], vals := xs.map wd, negz := [], lbls := l }
    else wordsVal p false (xs.map (elemVal p.hdr)) l

/-- The residuals of a chunk, staged (R323). -/
def stageRest (p : Coll) (c : Nat) (ws : List (BitVec 16)) (cs : List FVal) (lbls : List Label) : CM Unit :=
  cPut p (resVa p (chRstg p.hdr) c) (fieldBytes 4 ((cs.zipIdx).map (fun q => (compRest (ws.getD (q.2 / 32) 0) q.1).toNat)) lbls)

/-- A chunk as this rank adds it, and the COMP codes that travel in its place. -/
def partialValue (p : Coll) (k c : Nat) : CM (CVal × Option (List Word)) := do
  if !chFloat p.hdr then do
    let (xs, l) ← cElems p k c
    return ({ isPartial := true, words := [], vals := xs.map (fun x => word (sint 32 x)), negz := [], lbls := l }, none)
  else do
    let (cs, l) ← contributions p k c
    if !p.dataPass then return (← wordsVal p true cs l, none)
    else do
      let (ws, lw) ← storedWords p c
      let lbls ← (l.zipIdx).mapM (fun q => cJoin p [q.1, lw.getD (q.2 / 32) 0])
      let each (f : BitVec 16 → FVal → Int) : List Word := (cs.zipIdx).map (fun q => word (f (ws.getD (q.2 / 32) 0) q.1))
      let v (xs : List Word) : CVal := { isPartial := true, words := ws, vals := xs, negz := cs.map isNegZero, lbls := lbls }
      if !chComp p.hdr then return (v (each ownInt), none)
      else do
        stageRest p c ws cs lbls
        return (v (each (fun w x => compCode w x * 2 ^ 39)), some (each compCode))

/-- A chunk as this rank sends it or adds it (R320, R323): a partial, or its elements unchanged. With COMP the residuals are
staged. The second value is the COMP codes. -/
def ownValue (p : Coll) (k c : Nat) (red : Bool) : CM (CVal × Option (List Word)) := do
  if red then partialValue p k c else return (← plainValue p k c, none)

/-- An arriving message as a value: codes stand for q × 2^39 (R323); the label is the port's ingress label (R310, R324). -/
def arrived (p : Coll) (m : CollMsg) : CM CVal := do
  let l := rd (← cStep get).labels.inlbl (if chNet p.hdr then 13 else 1)
  return { isPartial := m.isPartial, words := m.words, vals := if m.codes then m.vals.map (fun q : Word => q <<< 39) else m.vals,
           negz := m.negz, lbls := List.replicate (if m.dataPass then m.vals.length else m.words.length) l }

/-- m ⊕ own: exact 64-bit sums, block words combined. -/
def plusVal (p : Coll) (a b : CVal) : CM CVal := do
  return { isPartial := true, words := (a.words.zip b.words).map (fun q => wordJoin q.1 q.2),
           vals := (b.vals.zipIdx).map (fun q => a.vals.getD q.2 0 + q.1),
           negz := (b.negz.zipIdx).map (fun q => q.1 && a.negz.getD q.2 false), lbls := ← cJoinZip p a.lbls b.lbls }

/-- A message that RED adds is a partial whose block exponents are this rank's own (R320). -/
def kindFits (p : Coll) (a own : CVal) : Bool :=
  a.isPartial && (!(p.dataPass && chFloat p.hdr) || decide (a.words.map wordEb = own.words.map wordEb))

/-- final(v); a final is itself. -/
def finalVal (p : Coll) (v : CVal) : CVal :=
  if !v.isPartial then v
  else
    let vals := if p.dataPass then (v.vals.zipIdx).map (fun q => wd (finalPat p.hdr (v.words.getD (q.2 / 32) 0) q.1 (v.negz.getD q.2 false))) else []
    { v with isPartial := false, vals := vals, negz := [] }

/-- STO: finals into DB, or block words into EXPB. -/
def storeVal (p : Coll) (db c : Nat) (v : CVal) : CM Coll := do
  if p.dataPass then do
    cPut p (p.chunkVa db c) (fieldBytes (chEs p.hdr) ((List.range (chChk p.hdr)).map (fun i => (v.vals.getD i 0).toNat)) v.lbls)
    return p
  else do
    cPut p (expVa p c) (fieldBytes 2 ((List.range (chChk p.hdr / 32)).map (fun i => (v.words.getD i 0).toNat)) v.lbls)
    return { p with exps := c :: p.exps }

/-- The bytes that one value of a message takes: a block word 2, a COMP code 1, a partial sum 8, a final its element's. -/
def valueBytes (p : Coll) (v : CVal) (codes : Bool) : Nat :=
  if !p.dataPass then 2 else if codes then 1 else if v.isPartial then 8 else chEs p.hdr

/-- The labels of a message's 64-byte sectors, which the gate judges one by one (R311). -/
def sectorLbls (p : Coll) (v : CVal) (codes : Bool) : CM (List Label) :=
  let n := 64 / valueBytes p v codes
  (List.range ((v.lbls.length + n - 1) / n)).mapM (fun i => cJoin p ((v.lbls.drop (n * i)).take n))

/-- A message to a rank; one that the gate drops ends the program (R312, R327). -/
def cSend (p : Coll) (to_ : BitVec 7) (v : CVal) (codes : Option (List Word)) : CM Coll := do
  let cls := if chNet p.hdr then 2 else 1
  let ls ← sectorLbls p v codes.isSome
  if gatePasses (← cStep get) cls ls then do
    let m : CollMsg :=
      { net := chNet p.hdr, tag := chTag p.hdr, rnd := chRnd p.hdr, dataPass := p.dataPass, src := p.rank,
        num := timesNamed to_ p.sentTo, isPartial := v.isPartial, words := v.words, codes := codes.isSome, vals := codes.getD v.vals,
        negz := v.negz }
    cStep (emit cls (OutMsg.coll p.pid (p.peers.getD to_.toNat 0) m))
    return { p with ack := some to_, sentTo := to_ :: p.sentTo }
  else do
    let port ← cStep (freePort cls)
    cStep (modify (gateDrop cls port p.job.toNat ls))
    throw (0x03, to_)

/-! ### Aborts (R326, R327) -/

/-- ABORT notices to every rank of PTAB but RANK and SILENT. -/
def notices (p : Coll) (silent : BitVec 7) (s : State) : State :=
  let msgs := (p.peers.zipIdx).filterMap (fun q =>
    if q.2 = chRank p.hdr ∨ q.2 = silent.toNat then none
    else some (OutMsg.abort p.pid (chNet p.hdr) q.1 (chTag p.hdr) (chRnd p.hdr) silent))
  msgs.foldl (fun (s : State) m => (emit (if chNet p.hdr then 2 else 1) m s).2) s

def setColl (h : Nat) (p : Coll) (s : State) : State := { s with colls := s.colls.set h p }

/-- The h-th program as its steps leave it; bytes that the slices counted meanwhile stay counted (R322). -/
def putColl (h : Nat) (p : Coll) (s : State) : State := { s with colls := s.colls.modify h (fun q => { p with bytes := q.bytes }) }

/-- A message taken for the next RECV that names its sender (R324). -/
def Coll.took (p : Coll) (m : CollMsg) : Coll := { p with inbox := p.inbox.erase m, recvd := m.src :: p.recvd }

/-- A RECV that a cause ends before it has its message is still the next that names its peer: the message of its number is no later
RECV's (R324). -/
def Coll.passRecv (p : Coll) : Coll :=
  match p.word? with
  | none => p
  | some w =>
    if csOp w = 2 && p.ack.isNone then
      (match p.nextMsg w with
       | some m => p.took m
       | none => { p with recvd := p.peer (csKa w) :: p.recvd })
    else p

/-- A cause meets the h-th program (R326). -/
def collCause (h : Nat) (cause : Byte) (silent : BitVec 7) (s : State) : State :=
  match s.colls[h]? with
  | none => s
  | some p =>
    let rec' (st : CollSt) (sil : BitVec 7) : Coll := { p with st := st, cause := cause, silent := sil, rstep := p.step, ack := none }
    if !p.live then s
    else if cause = 0x04 ∨ cause = 0x05 then notices p p.rank (setColl h (rec' .aborted p.rank) s)
    else if p.st = .aborting then setColl h { p with st := .aborted, ack := none } s
    else if cause = 0x06 then notices p silent (setColl h (rec' .error silent) s)
    else
      let p1 := { rec' .aborting silent with recvd := p.passRecv.recvd, inbox := p.passRecv.inbox, step := chAbt p.hdr, waitFrom := s.time }
      let s1 := setColl h p1 s
      if cause = 0x02 then s1 else notices p silent s1

/-- The programs of a job end ABORTED at a checkpoint or a kill (R326). -/
def collEndAll (j : JobId) (cause : Byte) (s : State) : State :=
  (List.range s.colls.length).foldl (fun (s : State) h =>
    match s.colls[h]? with
    | some p => if p.job = j then collCause h cause 0 s else s
    | none => s) s

/-! ### Triggers (R320 to R322) -/

/-- Counter CTR ≥ v, and v taken from it; an overflowed counter is CTROVF (R321). None while it waits. -/
def takeChunk (p : Coll) (n v : Nat) : CM Bool := ExceptT.mk (do
  let s : State ← get
  match s.job? p.job with
  | none => return .ok false
  | some j =>
    let k := j.chunk n
    if k.2 then return .error (0x07, p.rank)
    else if k.1.toNat < v then return .ok false
    else do
      set (s.updJob p.job (fun j => j.setChunk n (k.1 - BitVec.ofNat 16 v, k.2)))
      return .ok true)

/-- ready(SB, c): the first time the program names the chunk it waits for its trigger (R320). The program afterwards, or none
while it waits. -/
def makeReady (p : Coll) (k c : Nat) : CM (Option Coll) := do
  if p.ready.contains (readyKey k c) then return some p
  else do
    let ok ← if chTrig p.hdr then takeChunk p (chCbase p.hdr + c) (chTgt p.hdr)
             else pure (decide (p.chunkBytes ≤ mapGet 0 p.bytes (readyKey k c)))
    return if ok then some { p with ready := readyKey k c :: p.ready } else none

/-- Steps of the h-th program: it waits, goes on, or meets a cause. -/
def runColl (h : Nat) (m : Coll → CM (Option Coll)) (s : State) : State :=
  match s.colls[h]? with
  | none => s
  | some p =>
    if !p.live then s
    else match (m p).run s with
      | (.ok (some p1), s1) => putColl h p1 s1
      | (.ok none, s1) => s1
      | (.error (cause, silent), s1) => collCause h cause silent s1

/-- The current step's chunk is made ready if its trigger has been reached. -/
def readyStep (h : Nat) (s : State) : State :=
  runColl h (fun p => do
    match p.word? with
    | none => return none
    | some w => if p.needsReady w && p.ack.isNone then makeReady p (csSb w) (p.chunkOf w) else return none) s

/-- The current step's chunk needs no trigger, or has been made ready. -/
def Coll.isReady (p : Coll) (w : Word) : Bool := !p.needsReady w || p.ready.contains (readyKey (csSb w) (p.chunkOf w))

/-- A step with one OP: its message first, then its chunk, then its work (R320). -/
def collStep (h op : Nat) (work : Word → Coll → CM (Option Coll)) (s : State) : Out :=
  let mine (p : Coll) : Bool :=
    match p.word? with
    | none => false
    | some w => decide (csOp w = op) && p.ack.isNone && (decide (op ≠ 2) || (p.nextMsg w).isSome)
  if !((s.colls[h]?).any mine) then .next s
  else
    .next (runColl h (fun p => do
      match p.word? with
      | none => return none
      | some w => if mine p && p.isReady w then work w p else return none) (readyStep h s))

/-- COLL_SEND (R320, R323): the step completes with its acknowledgement. -/
def execCollSend (h : Nat) (s : State) : Out :=
  collStep h 1 (fun w p => do
    let (v, codes) ← ownValue p (csSb w) (p.chunkOf w) (csRed w)
    return some (← cSend p (p.peer (csKa w)) v codes)) s

/-- What a RECV has: the message, with RED added to its own partial (R320); one of the other pass is of the wrong kind (R327, log
entry 30). -/
def recvValue (p : Coll) (w : Word) (m : CollMsg) : CM CVal := do
  if m.dataPass != p.dataPass then throw (0x06, m.src)
  else do
    let a ← arrived p m
    if csRed w then do
      let (own, _) ← ownValue p (csSb w) (p.chunkOf w) true
      if kindFits p a own then plusVal p a own else throw (0x06, m.src)
    else return a

/-- COLL_RECV (R320, R323, R324): the wait for a forward's acknowledgement goes on with the step's clock. -/
def execCollRecv (h : Nat) (s : State) : Out :=
  collStep h 2 (fun w p => do
    match p.nextMsg w with
    | none => return none
    | some m => do
      let p1 := p.took m
      let v ← recvValue p1 w m
      let v1 := if csSto w then finalVal p1 v else v
      let p2 ← (if csSto w then storeVal p1 (csDb w) (p1.chunkOf w) v1 else pure p1)
      let v2 := if p2.dataPass || csRed w then v1 else { v1 with isPartial := false }
      if csFwd w then return some (← cSend p2 (p2.peer (csKb w)) v2 none)
      else return some (p2.next (← cStep get).time)) s

/-- COLL_COPY (R320, R323): only in the data pass. -/
def execCollCopy (h : Nat) (s : State) : Out :=
  collStep h 3 (fun w p => do
    let c := p.chunkOf w
    if p.dataPass then do
      let g ← cGet p (p.chunkVa (csSb w) c) p.chunkBytes
      cPut p (p.chunkVa (csDb w) c) g
    return some (p.next (← cStep get).time)) s

/-- COLL_WAIT (R320, R321). -/
def execCollWait (h : Nat) (s : State) : Out :=
  collStep h 4 (fun w p => do
    if ← takeChunk p (bits w.toNat 48 12) (bits w.toNat 32 16) then return some (p.next (← cStep get).time) else return none) s

/-- The count of a LOOP (R319). -/
def loopCount (p : Coll) (w : Word) : Int :=
  if bit w.toNat 57 then chN p.hdr + sint 9 (bits w.toNat 48 9) else (bits w.toNat 48 9 : Nat)

/-- COLL_LOOP (R320). -/
def execCollLoop (h : Nat) (s : State) : Out :=
  collStep h 5 (fun w p => do
    let l := i2 (BitVec.ofNat 2 (bits w.toNat 58 2))
    let n := rd p.lc l + 1
    let now := (← cStep get).time
    if (n.toNat : Int) < loopCount p w then
      return some { p with lc := wr p.lc l n, step := bits w.toNat 0 10, waitFrom := now }
    else return some ({ p with lc := wr p.lc l 0 }.next now)) s

/-- The commit: RSTG into RES, once, after every page of both: a fault leaves RES as it was (R325). -/
def commitRes (p : Coll) : CM Unit := do
  let n := 4 * chChk p.hdr * chNchk p.hdr
  match ← cStep (translateRuns p.who [{ va := chRstg p.hdr, len := n, acc := .read }, { va := chRes p.hdr, len := n, acc := .write }]) with
  | .error f => cFault p f.1
  | .ok pages => do
    let g ← cReadPieces p (pieces pages (chRstg p.hdr) n)
    cWritePieces p (pieces pages (chRes p.hdr) n) g

/-- COLL_END (R323, R325, R326): from the exponent pass to the data pass; the commit; or the end of an aborted program. -/
def execCollEnd (h : Nat) (s : State) : Out :=
  collStep h 0 (fun _ p => do
    if p.st = .aborting then return some { p with st := .aborted }
    else if !p.dataPass then
      return some { p with dataPass := true, step := 0, lc := Vector.replicate 4 0, waitFrom := (← cStep get).time }
    else do
      if chComp p.hdr then commitRes p
      return some { p with st := .done, rstep := p.step }) s

/-- CHUNK_READY (R321, R322): the trigger of the chunk that the current step waits for has been reached. -/
def execChunkReady (h : Nat) (s : State) : Out :=
  let waits (p : Coll) : Bool := match p.word? with
    | some w => decide (csOp w ≠ 2) || (p.nextMsg w).isSome
    | none => false
  if (s.colls[h]?).any waits then .next (readyStep h s) else .next s

/-! ### Messages, acknowledgements, notices, time-outs (R324 to R327) -/

/-- The highest RND accepted with a TAG. -/
def topRnd (s : State) (p : PartId) (tag : BitVec 16) : Option (BitVec 32) :=
  (s.collTop.find? (fun t => t.1 == p && t.2.1 == tag)).map (fun t => t.2.2)

def isOld (s : State) (p : PartId) (tag : BitVec 16) (rnd : BitVec 32) : Bool :=
  match topRnd s p tag with
  | some r => decide (rnd.toNat < r.toNat)
  | none => false

/-- The running program of a TAG and RND in a partition. -/
def collFor (s : State) (p : PartId) (tag : BitVec 16) (rnd : BitVec 32) : Option Nat :=
  s.colls.findIdx? (fun c => c.pid == p && c.live && chTag c.hdr == tag && chRnd c.hdr == rnd)

/-- The bytes that a message takes in the chunk buffers; R324 gives no size of a held one, and a final counts 4 bytes an element (log
entry 30). -/
def msgBytes (m : CollMsg) : Nat := 2 * m.words.length + (if m.codes then 1 else if m.isPartial then 8 else 4) * m.vals.length

/-- The bytes of the chunk buffers in use: messages of running programs, held messages, held notices of 64 bytes (R317, R324, R326). -/
def bufferUsed (s : State) : Nat :=
  (((s.colls.filter (fun p => p.live)).flatMap (fun p => p.inbox) ++ s.collHeld.map (fun m => m.2)).map msgBytes).foldl (· + ·)
    (64 * s.abortHeld.length)

/-- The 32 MiB of chunk buffers have room; what finds none is replayed by its link (R317, R324, R331). -/
def bufferRoom (s : State) (n : Nat) : Bool := decide (bufferUsed s + n ≤ 2 ^ 25)

/-- COLL_MESSAGE (R320, R324): acknowledged once it lies in the chunk buffers; an older RND is discarded. -/
def execCollMessage (p : PartId) (m : CollMsg) (s : State) : Out :=
  if isOld s p m.tag m.rnd || !bufferRoom s (msgBytes m) then .next s
  else
    let s1 : State := (emit (if m.net then 2 else 1) (OutMsg.collAck p m.net m.src m.tag m.rnd) s).2
    match collFor s p m.tag m.rnd with
    | some h => .next { s1 with colls := s1.colls.modify h (fun c : Coll => { c with inbox := c.inbox ++ [m] }) }
    | none => .next { s1 with collHeld := s1.collHeld ++ [(p, m)] }

/-- COLL_ACK (R320): the step that waits for it completes. -/
def execCollAck (h : Nat) (s : State) : Out :=
  .next (runColl h (fun p => do
    if p.ack.isSome then return some (p.next (← cStep get).time) else return none) s)

/-- ABORT_NOTICE (R326): to the running program, held when there is none, discarded when old. -/
def execAbortNotice (p : PartId) (tag : BitVec 16) (rnd : BitVec 32) (silent : BitVec 7) (s : State) : Out :=
  match collFor s p tag rnd with
  | some h =>
    if (s.colls[h]?).any (fun c => c.st == .aborting) then .next s else .next (collCause h 0x02 silent s)
  | none => if isOld s p tag rnd || !bufferRoom s 64 then .next s else .next { s with abortHeld := s.abortHeld ++ [(p, tag, rnd, silent)] }

/-- The rank that a waiting step waits for (R327); none when it does not wait. -/
def waitsFor (s : State) (p : Coll) : Option (BitVec 7) :=
  match p.ack, p.word? with
  | some r, _ => some r
  | none, none => none
  | none, some w =>
    if csOp w = 2 && (p.nextMsg w).isNone then some (p.peer (csKa w))
    else if csOp w = 4 then
      (match s.job? p.job with
       | some j => if (j.chunk (bits w.toNat 48 12)).1.toNat < bits w.toNat 32 16 then some p.rank else none
       | none => some p.rank)
    else if !p.isReady w then some p.rank
    else none

/-- COLL_TIMEOUT (R327): the step has waited longer than TMO µs. -/
def execCollTimeout (h : Nat) (s : State) : Out :=
  match s.colls[h]? with
  | none => .next s
  | some p =>
    if !p.live || decide ((s.time - p.waitFrom).toNat ≤ chTmo p.hdr * 1000) then .next s
    else match waitsFor s p with
      | some r => .next (collCause h 0x01 r s)
      | none => .next s

/-! ### `coll.go` and `coll.poll` (R328) -/

/-- The records of a job, oldest first. -/
def jobColls (s : State) (j : JobId) : List (Coll × Nat) := (s.colls.zipIdx).filter (fun p => p.1.job == j)

/-- The physical ranges that the slices count for the chunks the program makes ready (R322). -/
def chunkRanges (p : Coll) : SM (List (Nat × Nat × Nat)) := do
  if chTrig p.hdr then return []
  else do
    let bufs := (List.range 4).filter (fun k => p.steps.any (fun w =>
      decide (csSb w = k) && (decide (csOp w = 1 ∨ csOp w = 3) || (decide (csOp w = 2) && csRed w))))
    bufs.foldlM (fun acc k => (List.range (chNchk p.hdr)).foldlM (fun acc c => do
      let va := p.chunkVa k c
      let n := p.chunkBytes
      (pageRange va n).foldlM (fun acc vp => do
        match ← onePage p.who vp .read with
        | .error _ => return acc
        | .ok pg =>
          let lo := max va (vp * 4096)
          return acc ++ [(readyKey k c, pg.ppage * 4096 + lo % 4096, min (va + n) (vp * 4096 + 4096) - lo)]) acc) acc) []

/-- An accepted program starts: older messages and notices of its TAG are discarded, its own are taken (R324, R326). -/
def startColl (p : Coll) : SM Unit := do
  let rs ← chunkRanges p
  let tag := chTag p.hdr
  let rnd := chRnd p.hdr
  modify (fun s =>
    let top := match topRnd s p.pid tag with
      | some r => if r.toNat < rnd.toNat then rnd else r
      | none => rnd
    let mine (m : PartId × CollMsg) : Bool := m.1 == p.pid && m.2.tag == tag
    let inbox := (s.collHeld.filter (fun m => mine m && m.2.rnd == rnd)).map (fun m => m.2)
    let held := s.abortHeld.find? (fun a => a.1 == p.pid && a.2.1 == tag && a.2.2.1 == rnd)
    let p1 := { p with ranges := rs, inbox := inbox, waitFrom := s.time }
    let s1 : State := { s with
      colls := s.colls ++ [p1],
      collHeld := s.collHeld.filter (fun m => !(mine m && decide (m.2.rnd.toNat ≤ rnd.toNat))),
      abortHeld := s.abortHeld.filter (fun a => !(a.1 == p.pid && a.2.1 == tag && decide (a.2.2.1.toNat ≤ rnd.toNat))),
      collTop := (p.pid, tag, top) :: s.collTop.filter (fun t => !(t.1 == p.pid && t.2.1 == tag)) }
    match held with
    | some a => collCause (s1.colls.length - 1) 0x02 a.2.2.2 s1
    | none => s1)

/-- COLL_GO (R328): reads, then the first status that applies; the acceptance or refusal is its commit point (R361). -/
def execCollGo (d a : BitVec 6) : State → Out :=
  let i := Instr.collGo d a
  runPlain (fun c => do
    needFree c d
    let va ← readX c a
    need (decide (va.toNat % 128 = 0)) cILLEGAL (wordOf i)
    let h ← strandRead c .C va.toNat 128 false
    let st ← strandRead c .C (chSteps h.bytes) (8 * chNstep h.bytes) false
    let pt ← strandRead c .C (chPtab h.bytes) (8 * chN h.bytes) false
    jRoom c
    let k ← getCore c
    let s ← get
    let steps := (List.range (chNstep h.bytes)).map (fun n => wd (bytesAt st.bytes (8 * n) 8))
    let peers := (List.range (chN h.bytes)).map (fun n => bytesAt pt.bytes (8 * n) 8)
    let mine := jobColls s k.id.jobid
    let own := mine.find? (fun p => p.1.handle == va)
    let oldest := mine.find? (fun p => !p.1.live)
    let status : Nat :=
      if own.any (fun p => p.1.live) then 1
      else if decide (64 ≤ (s.colls.filter (fun p => p.live)).length) || (own.isNone && decide (8 ≤ mine.length) && oldest.isNone) then 2
      else if headerBad h.bytes || peers.any (peerBad (s.part k.id.pid) (chNet h.bytes)) then 3
      else if (steps.zipIdx).any (fun p => stepBad p.1 p.2) then 4
      else 0
    if status = 0 then do
      let gone := match own with
        | some p => some p.2
        | none => if 8 ≤ mine.length then oldest.map (fun p => p.2) else none
      modify (fun s => match gone with
        | some n => { s with colls := s.colls.eraseIdx n }
        | none => s)
      let reducing := steps.any (fun w => decide (csOp w = 1 ∨ csOp w = 2) && csRed w)
      lift (startColl
        { handle := va, job := k.id.jobid, core := c, pid := k.id.pid, vd := k.id.vd, asid := k.id.asid, hdr := h.bytes, steps := steps,
          peers := peers.map (BitVec.ofNat 8), st := .run, cause := 0, silent := 0, step := 0, rstep := 0, lc := Vector.replicate 4 0,
          dataPass := !(reducing && chFloat h.bytes), ready := [], exps := [], bytes := [], ranges := [], ack := none, sentTo := [], recvd := [], inbox := [],
          waitFrom := 0 })
    jAtOnce c true i va 0 d (wd status))

/-- The codes of STATE (R326). -/
def CollSt.code : CollSt → Nat
  | .run => 1 | .done => 2 | .aborted => 3 | .error => 4 | .aborting => 5

/-- COLL_POLL (R328): a handle without a record reads 0. -/
def execCollPoll (d a : BitVec 6) : State → Out :=
  runPlain (fun c => do
    needFree c d
    let va ← readX c a
    let k ← getCore c
    match (jobColls (← get) k.id.jobid).find? (fun p => p.1.handle == va) with
    | none => writeX c d 0 0
    | some (p, _) =>
      let st := if p.st = .run then p.step else p.rstep
      writeX c d (wd (p.st.code + p.cause.toNat * 2 ^ 8 + p.silent.toNat * 2 ^ 16 + st % 1024 * 2 ^ 24)) 0)

/-- A task's programs that still run (R18, R328). -/
def collBusy (s : State) (c : CoreId) : Bool := s.colls.any (fun p => p.core == c && p.live && (s.core c).job == some p.job)

end Sys2Proof.Machine
end

