-- ==== Sys2Proof/Machine/Csr.lean ====
section
/-! DEFINITION. The CSRs and their instructions (R266 to R268), `srkey` (R315). -/

namespace Sys2Proof.Machine

/-- DMR, TASK, PART, ASID, DET as read (R267). -/
def Ident.dmr (i : Ident) : Word :=
  wd (i.phn.toNat * 2 ^ 32 + i.domLast.toNat * 2 ^ 16 + i.domFirst.toNat * 2 ^ 8 + i.hlvl.toNat * 4 + i.level.toNat)
def Ident.task (i : Ident) : Word := wd (i.taskLast.toNat * 256 + i.slot.toNat)
def Ident.partWord (i : Ident) : Word := wd (i.vd.toNat * 32 + i.pid.val)
def Ident.detWord (i : Ident) : Word := wd ((if i.salign then 2 else 0) + (if i.det then 1 else 0))

/-- A CSR's value (R68, R267); TIME is the package's (R268). A reserved bit that a restored image has brought into a saved register reads
as zero (R6). -/
def readCsr (s : State) (c : CoreId) (n : Nat) : Word :=
  let k := s.core c
  let r := k.csr
  match n with
  | 0x000 => r.stat &&& 3
  | 0x001 => r.sstat &&& 3
  | 0x002 => wd (pcField r.spc)
  | 0x003 => wd (pcField r.snpc)
  | 0x004 => wd (bits r.sds.toNat 54 4 * 2 ^ 54 + pcField r.sds)
  | 0x005 => r.tvec
  | 0x006 => r.tcause
  | 0x007 => r.tval
  | 0x010 => s.time
  | 0x020 => r.ktid.setWidth 64
  | 0x021 => r.kstep.setWidth 64
  | 0x030 => k.id.dmr
  | 0x031 => k.id.jobid.setWidth 64
  | 0x032 => k.id.task
  | 0x033 => k.id.partWord
  | 0x034 => k.id.asid.setWidth 64
  | 0x035 => k.id.detWord
  | 0x040 => r.hthresh.setWidth 64
  | _ => 0

/-- The numbers whose writes need STAT.H (R68). -/
def csrHandlerOnly (n : Nat) : Bool := decide (n ≤ 4) || decide (n = 6) || decide (n = 7)

/-- The reserved bits and field limits of a CSR write (R6, R267). -/
def csrValueOk (n : Nat) (v : Word) : Bool :=
  match n with
  | 0x000 | 0x001 => statOk v
  | 0x002 | 0x003 | 0x005 => addrOk v
  | 0x004 => sdsOk v
  | 0x006 => tcauseOk v
  | 0x007 => true
  | 0x020 | 0x021 => low32Ok v
  | 0x040 => hthreshOk v
  | _ => false

/-- A CSR's new value (R266). -/
def writeCsr (n : Nat) (v : Word) (r : Csrs) : Csrs :=
  match n with
  | 0x000 => { r with stat := v }
  | 0x001 => { r with sstat := v }
  | 0x002 => { r with spc := v }
  | 0x003 => { r with snpc := v }
  | 0x004 => { r with sds := v }
  | 0x005 => { r with tvec := v }
  | 0x006 => { r with tcause := v }
  | 0x007 => { r with tval := v }
  | 0x020 => { r with ktid := v.setWidth 32 }
  | 0x021 => { r with kstep := v.setWidth 32 }
  | 0x040 => { r with hthresh := v.setWidth 32 }
  | _ => r

/-- A write to KTID or KSTEP is noted for the S strand, if it is started, until a token that the C strand pushes after it has been popped
(R48). -/
def noteKeys (both : Bool) (k : Core) : Core :=
  if k.started.s then
    { k with keyw := k.keyw ++ [{ ktid := k.csr.ktid, kstep := k.csr.kstep, both := both, before := k.tokens (qcode .C .S) }] }
  else k

/-- CSRR (R266): zero-extended, label 0. -/
def execCsrr (d : BitVec 6) (n : BitVec 12) : State → Out :=
  runPlain (fun c => do
    needFree c d
    writeX c d (readCsr (← get) c n.toNat) 0)

/-- The shared write of `csrw` and `csrs`: handler-only numbers need STAT.H, then the limits (R67, R266). -/
def csrWriteWith (f : Word → Word → Word) (i : Instr) (a : BitVec 6) (n : BitVec 12) : State → Out :=
  runPlain (fun c => do
    let x ← readX c a
    let s ← get
    need (!csrHandlerOnly n.toNat || (s.core c).csr.inHandler) cILLEGAL (wordOf i)
    let v := f (readCsr s c n.toNat) x
    need (csrValueOk n.toNat v) cILLEGAL (wordOf i)
    modCore c (fun k =>
      let k1 := if n.toNat = 0x020 ∨ n.toNat = 0x021 then noteKeys false k else k
      { k1 with csr := writeCsr n.toNat v k.csr }))

/-- CSRW (R266). -/
def execCsrw (a : BitVec 6) (n : BitVec 12) : State → Out := csrWriteWith (fun _ x => x) (.csrw a n) a n

/-- CSRS (R266). -/
def execCsrs (a : BitVec 6) (n : BitVec 12) : State → Out := csrWriteWith (fun v x => v ||| x) (.csrs a n) a n

/-- SRKEY (R315): KTID and KSTEP as one update; high bits set are illegal. -/
def execSrkey (a b : BitVec 6) : State → Out :=
  runPlain (fun c => do
    let x ← readX c a
    let y ← readX c b
    need (low32Ok x && low32Ok y) cILLEGAL (wordOf (.srkey a b))
    modCore c (fun k => { noteKeys true k with csr := { k.csr with ktid := x.setWidth 32, kstep := y.setWidth 32 } }))

end Sys2Proof.Machine
end

