-- ==== Sys2Proof/Machine/Domain.lean ====
section
/-! DEFINITION. Domains and phases (R19 to R21, R281): requests, barriers, regroups. -/

namespace Sys2Proof.Machine

/-- DOM_SET_SPLIT (R21, R281): level 3 only, once in a phase. -/
def execDomSetSplit : State → Out :=
  runPlain (fun c => do
    let k ← getCore c
    need (decide (k.id.level = 3) && k.domReq.isNone) cILLEGAL (wordOf .domSetSplit)
    modCore c (fun k => { k with domReq := some .split }))

/-- DOM_SET_JOIN (R21, R281): level 2 of a job of header level 3, once in a phase. -/
def execDomSetJoin : State → Out :=
  runPlain (fun c => do
    let k ← getCore c
    need (decide (k.id.level = 2) && decide (k.id.hlvl = 3) && k.domReq.isNone) cILLEGAL (wordOf .domSetJoin)
    modCore c (fun k => { k with domReq := some .join }))

/-- The cores of a job in task slot order (R15). -/
def Job.cores (j : Job) : List CoreId := (j.cls.map (fun cl => [coreA cl, coreB cl])).flatten

/-- A live member: its task has not retired (R21, R281). -/
def liveMember (s : State) (c : CoreId) : Bool := decide ((s.core c).st.c ≠ .retired) && (s.core c).job.isSome

/-- The live members of a core's domain at its current level (R19): the slots between DMR's FIRST and LAST, on the core's own
die for level 2. -/
def domainOf (s : State) (j : Job) (c : CoreId) : List CoreId :=
  let k := s.core c
  j.cores.filter (fun d =>
    let i := (s.core d).id
    liveMember s d && decide (k.id.domFirst.toNat ≤ i.slot.toNat) && decide (i.slot.toNat ≤ k.id.domLast.toNat))

/-- The range of task slots of a job's tasks on a die (R19, R21). That it spans the slots of retired tasks too is the model's choice (log
entry 34). -/
def dieRange (s : State) (j : Job) (die : Fin 4) : Nat × Nat :=
  let sl := (j.cores.filter (fun d => dieOf d == die)).map (fun d => (s.core d).id.slot.toNat)
  (sl.foldl min 255, sl.foldl max 0)

/-- The phase numbers rise with a barrier (R20, R366). -/
def bumpPhase (top : Bool) (die : Fin 4) (p : Phases) : Phases :=
  if top then { p with top := p.top + 1 } else { p with die := wr p.die die (rd p.die die + 1) }

/-- A member passes its `phase`: PHN rises, its request is spent, its C strand moves on (R20, R245). -/
def passPhase (c : CoreId) (s : State) : State :=
  finishC c {} (s.updCore c (fun k => { k with id := { k.id with phn := k.id.phn + 1 }, phArr := false, domReq := none }))

/-- A failed regroup's trap, taken after the `phase` has completed, TVAL := the word of the `phase` (R21). -/
def regroupTrap (c : CoreId) (s : State) : State :=
  takeTrap c (causeWord false 0 cILLEGAL 0) ((encode .phase).setWidth 64) s

/-- A barrier ends as an ordinary barrier of its own domain; those that made a request take the regroup trap (R21). -/
def plainBarrier (j : JobId) (ms : List CoreId) (lvl : BitVec 2) (die : Fin 4) (s : State) : State :=
  let s1 := s.updJob j (fun j => { j with phases := if 2 ≤ lvl.toNat then bumpPhase (decide (lvl = 3)) die j.phases else j.phases })
  ms.foldl (fun s c => let req := (s.core c).domReq.isSome; let s2 := passPhase c s; if req then regroupTrap c s2 else s2) s1

/-- Level 3 divides into one level-2 domain for each die (R21); each keeps the phase number the domain had (R281). -/
def doSplit (j : JobId) (ms : List CoreId) (s : State) : State :=
  match s.job? j with
  | none => s
  | some job =>
    let s1 := s.updJob j (fun q =>
      let n := q.phases.top + 1
      { q with split := true, phases := { top := n, die := Vector.replicate 4 n } })
    ms.foldl (fun s c =>
      let r := dieRange s job (dieOf c)
      (passPhase c s).updCore c (fun k => { k with id := { k.id with
        level := 2, domFirst := BitVec.ofNat 8 r.1, domLast := BitVec.ofNat 8 r.2 } })) s1

/-- The subdomains become one level-3 domain again; its number is the highest that they reach (R21, R281). -/
def doJoin (j : JobId) (dies : List (Fin 4)) (ms : List CoreId) (s : State) : State :=
  let s1 := s.updJob j (fun q =>
    let n := (dies.map (fun d => (rd q.phases.die d).toNat + 1)).foldl max 0
    { q with split := false, phases := { q.phases with top := BitVec.ofNat 32 n } })
  ms.foldl (fun s c => (passPhase c s).updCore c (fun k => { k with id := { k.id with
    level := 3, domFirst := 0, domLast := k.id.taskLast } })) s1

/-- Every live member of a set waits at its barrier. -/
def allArrived (s : State) (ms : List CoreId) : Bool := !ms.isEmpty && ms.all (fun c => (s.core c).phArr)

/-- A subdomain whose barrier ends a phase in which every live member asked to join (R21). -/
def joinPending (s : State) (ms : List CoreId) : Bool :=
  allArrived s ms && ms.all (fun c => (s.core c).domReq == some .join)

/-- A barrier of the domain of core c completes if all its live members have arrived (R20, R21): a unanimous split divides the
domain; a join waits until every live subdomain is join-pending; a mixed request, or another subdomain's barrier without any
`join` while one is pending, completes ordinarily and traps the requesters. -/
def tryBarrier (c : CoreId) (s : State) : State :=
  match s.coreJob c with
  | none => s
  | some j =>
    let ms := domainOf s j c
    let k := s.core c
    if !allArrived s ms then s
    else if k.id.level = 3 then
      if ms.all (fun d => (s.core d).domReq == some .split) then doSplit j.id ms s
      else plainBarrier j.id ms 3 0 s
    else if k.id.level = 2 && k.id.hlvl = 3 then
      let dies := (List.finRange 4).filter (fun d => j.cores.any (fun m => dieOf m == d && liveMember s m))
      let sub (d : Fin 4) : List CoreId := j.cores.filter (fun m => dieOf m == d && liveMember s m)
      if joinPending s ms then
        if dies.all (fun d => joinPending s (sub d)) then doJoin j.id dies (dies.map sub).flatten s else s
      else
        let mine := ms.any (fun d => (s.core d).domReq == some .join)
        let s1 := plainBarrier j.id ms 2 (dieOf c) s
        -- a pending subdomain's barrier completes too, as an ordinary one, when the join has failed
        if mine || dies.any (fun d => d != dieOf c && joinPending s (sub d)) then
          dies.foldl (fun s d => if d != dieOf c && joinPending s (sub d) then plainBarrier j.id (sub d) 2 d s else s) s1
        else s1
    else plainBarrier j.id ms k.id.level (dieOf c) s

/-- PHASE (R20): the member arrives and waits; the barrier's completion moves every member on. A level-0 `phase` completes at
once (R281). -/
def execPhase : State → Out :=
  runRaw (fun c => do
    let k ← getCore c
    if k.id.level = 0 then do
      modify (passPhase c)
    else do
      modCore c (fun k => { k with phArr := true })
      waitNow)

/-- PHASE_BARRIER_COMPLETE (R20): the barrier of core c's domain, once every live member has arrived. -/
def execPhaseBarrierComplete (c : CoreId) (s : State) : Out := .next (tryBarrier c s)

end Sys2Proof.Machine
end

