-- ==== Sys2Proof/Machine/Scan.lean ====
section
/-! DEFINITION. The scan unit: combine programs, records in state slots, local scans, network sweeps, spills (R188 to R216). -/

namespace Sys2Proof.Machine

/-! ### The combine program (R189 to R192) -/

/-- A combine program: identity components, W and its micro-ops (op, d, a, b). -/
structure Prog where
  ids : List Word32
  w : Nat
  len : Nat
  ops : List (Nat × Nat × Nat × Nat)
  deriving DecidableEq, Repr

/-- A micro-op's fields and whether it is legal (R190). -/
def microOp (v : Nat) : Nat × Nat × Nat × Nat := (bits v 12 4, bits v 8 4, bits v 4 4, bits v 0 4)
def microOk (m : Nat × Nat × Nat × Nat) : Bool :=
  decide (m.1 ≤ 9) && decide (8 ≤ m.2.1) && (decide (m.1 < 8) || decide (m.2.1 % 4 ≠ 3)) &&
  (decide (m.1 ≠ 7) || decide (m.2.2.2 = 0))

/-- The program of a combine image, or none where the image breaks R189 or R190. -/
def parseImg (img : List Byte) : Option Prog :=
  let wd32 (i : Nat) : Nat := bytesAt img (4 * i) 4
  let c := wd32 12
  let len := bits c 0 5
  let wc := bits c 5 2
  let us := (List.range 16).map (fun u => bytesAt img (16 + 2 * u) 2)
  let ops := (us.take len).map microOp
  if decide (bits c 7 25 ≠ 0) || decide (wd32 13 ≠ 0) || decide (wd32 14 ≠ 0) || decide (wd32 15 ≠ 0) || decide (len = 0) ||
      decide (16 < len) || decide (wc = 3) || (us.drop len).any (fun u => decide (u ≠ 0)) || !ops.all microOk then none
  else some { ids := (List.range 4).map (fun i => BitVec.ofNat 32 (wd32 i)), w := 2 ^ wc, len := len, ops := ops }

/-- Register r of a lane's sixteen. -/
abbrev LaneRegs := Vector Word32 16
def LaneRegs.at (r : LaneRegs) (i : Nat) : Word32 := rd r (Fin.ofNat 16 i)
def LaneRegs.put (r : LaneRegs) (i : Nat) (v : Word32) : LaneRegs := wr r (Fin.ofNat 16 i) v

/-- The low part of `two.s` and `two.p`: canonical NaN with a NaN high part, +0 with an infinite one (R190). -/
def lowPart (exact : FVal) (hi : Word32) : Word32 :=
  match f32 hi with
  | .nan => nan32
  | .inf _ => 0
  | h => toF32 (exact.add h.neg)

/-- One micro-op (R190). -/
def applyOp (r : LaneRegs) (m : Nat × Nat × Nat × Nat) : LaneRegs :=
  let (op, d, a, b) := m
  let x := r.at a
  let y := r.at b
  match op with
  | 0 => r.put d (fadd x y)
  | 1 => r.put d (toF32 ((f32 x).add (f32 y).neg))
  | 2 => r.put d (fmul x y)
  | 3 => r.put d (toF32 (((f32 x).mul (f32 y)).add (f32 (r.at d))))
  | 4 => r.put d (fmax x y)
  | 5 => r.put d (fmin x y)
  | 6 => r.put d (if (FVal.fin false 0 0).lt (f32 (r.at d)) then x else y)
  | 7 => r.put d x
  | 8 => let e := (f32 x).add (f32 y); (r.put d (toF32 e)).put (d + 1) (lowPart e (toF32 e))
  | _ => let e := (f32 x).mul (f32 y); (r.put d (toF32 e)).put (d + 1) (lowPart e (toF32 e))

/-- prog(x, y) on the W components of one lane (R191). -/
def Prog.run (p : Prog) (x y : List Word32) : List Word32 :=
  let put4 (r : LaneRegs) (base : Nat) (v : List Word32) : LaneRegs :=
    ((v.take p.w).zipIdx).foldl (fun (r : LaneRegs) q => r.put (base + q.2) q.1) r
  let r0 : LaneRegs := put4 (put4 (Vector.replicate 16 0) 0 x) 4 y
  let r := p.ops.foldl applyOp r0
  (List.range p.w).map (fun k => r.at (12 + k))

/-- A record: empty, or W components of 1,024 lanes with their reset flags (R188, R196). -/
abbrev ScanRec := Option (List Tile × Mask)

/-- comb(x, y), lane by lane (R192). -/
def comb (p : Prog) (x y : ScanRec) : ScanRec :=
  match x, y with
  | none, y => y
  | x, none => x
  | some (xc, xf), some (yc, yf) =>
    let lanes := (List.range 1024).map (fun i =>
      if yf.getLsbD i then yc.map (fun t => t.getD i 0)
      else p.run (xc.map (fun t => t.getD i 0)) (yc.map (fun t => t.getD i 0)))
    some ((List.range p.w).map (fun k => lanes.map (fun l => l.getD k 0)), xf ||| yf)

/-! ### Records in slots (R196, R197) -/

def XState.slot (x : XState) (n : BitVec 4) : Slot := rd x.ss (i4 n)
def XState.setSlot (x : XState) (n : BitVec 4) (s : Slot) : XState := { x with ss := wr x.ss (i4 n) s }

/-- The record of W blocks from block b. -/
def Slot.get (s : Slot) (b w : Nat) : ScanRec :=
  if s.empty.getLsbD b then none
  else some ((List.range w).map (fun k => rd s.blocks (Fin.ofNat 8 (b + k))), rd s.flags (Fin.ofNat 8 b))

/-- EMPTY bits of W blocks from b. -/
def emptyBits (b w : Nat) : BitVec 8 := BitVec.ofNat 8 ((2 ^ w - 1) * 2 ^ b)

/-- A record written, or emptied (R196). -/
def Slot.put (s : Slot) (b w : Nat) (r : ScanRec) : Slot :=
  match r with
  | none => { s with empty := s.empty ||| emptyBits b w }
  | some (cs, f) =>
    { s with
      blocks := ((cs.take w).zipIdx).foldl (fun (v : Vector Tile 8) p => wr v (Fin.ofNat 8 (b + p.2)) p.1) s.blocks,
      flags := wr s.flags (Fin.ofNat 8 b) f, empty := s.empty &&& ~~~(emptyBits b w) }

/-- The slot and block of tree record r (R197). -/
def treeAt (k : ScanCtl) (w r : Nat) : BitVec 4 × Nat := (BitVec.ofNat 4 (k.tb.toNat + r * w / 8), r * w % 8)

/-- A record written to a slot with a label that joins the slot's old one (R207). -/
def putRec (c : CoreId) (n : BitVec 4) (b w : Nat) (r : ScanRec) (lbl : Label) : M Unit := do
  let old := ((← getCore c).xs.slot n).lbl
  let l ← lift (joinL c old lbl)
  modXs c (fun x => x.setSlot n { (x.slot n).put b w r with lbl := l })

/-- A record emptied. -/
def clearRec (c : CoreId) (n : BitVec 4) (b w : Nat) : M Unit := modXs c (fun x => x.setSlot n ((x.slot n).put b w none))

def ScanCtl.m (k : ScanCtl) : Nat := 2 ^ k.mlog.toNat
def ScanCtl.lc (k : ScanCtl) : Nat := 2 ^ (k.lcc.toNat + 4)

/-- The states of R199: 0 OFF, 1 UP, 2 DOWN. -/
def stOff : BitVec 2 := 0
def stUp : BitVec 2 := 1
def stDown : BitVec 2 := 2

/-! ### Configuration (R199, R201) -/

/-- SCAN_CFG (R201). -/
def execScanCfg (w g : BitVec 3) (a : BitVec 5) (s : BitVec 4) : State → Out :=
  let i := Instr.scanCfg w g a s
  runE .X i w g (fun c st => do
    let k ← getCore c
    let img := (((k.xs.tile a).take 16).map (fun v => natBytes 4 v.toNat)).flatten
    let v := ((k.eng st).nreg s).toNat
    let lcc := bits v 0 4
    let mlog := bits v 4 3
    let tb := bits v 7 4
    let rs := bits v 11 4
    match parseImg img with
    | none => trapNow cILLEGAL (wordOf i)
    | some p => do
      let span := (2 ^ mlog * p.w + 7) / 8
      need (decide (lcc ≤ 8) && decide (mlog ≠ 7) && decide (tb + span ≤ 16) && !(decide (tb ≤ rs) && decide (rs < tb + span)))
        cILLEGAL (wordOf i)
      modXs c (fun x =>
        let sc : ScanCtl := { x.scan with
          st := stUp, img := img, lcc := BitVec.ofNat 4 lcc, mlog := BitVec.ofNat 3 mlog, tb := BitVec.ofNat 4 tb,
          rs := BitVec.ofNat 4 rs, posI := 0, posJ := 0, clbl := x.tlbl a }
        { x with scan := sc })
      let sc := (← getCore c).xs.scan
      clearRec c sc.rs 0 p.w
      (List.range sc.m).forM (fun r => let q := treeAt sc p.w r; clearRec c q.1 q.2 p.w)
      return {})

/-- SCAN_SEG (R199). -/
def execScanSeg (w g : BitVec 3) (m f : BitVec 3) : State → Out :=
  runE .X (.scanSeg w g m f) w g (fun c _ => do
    modXs c (fun x => { x with scan := { x.scan with segOn := true, segIn := m, segOut := f } })
    return {})

/-- SCAN_SEG_OFF (R199). -/
def execScanSegOff (w g : BitVec 3) : State → Out :=
  runE .X (.scanSegOff w g) w g (fun c _ => do
    modXs c (fun x => { x with scan := { x.scan with segOn := false, segIn := 0, segOut := 0 } })
    return {})

/-! ### Local scans (R200, R202, R203, R205) -/

/-- The configured program; OFF traps (R199). -/
def needProg (c : CoreId) (i : Instr) : M Prog := do
  let sc := (← getCore c).xs.scan
  need (decide (sc.st ≠ stOff)) cILLEGAL (wordOf i)
  match parseImg sc.img with
  | some p => return p
  | none => trapNow cILLEGAL (wordOf i)

/-- The operand rules of R200. -/
def needRegs (p : Prog) (i : Instr) (rs : List (BitVec 5)) : M Unit :=
  need (rs.all (fun r => decide (r.toNat % p.w = 0) && decide (r.toNat + p.w ≤ 32))) cILLEGAL (wordOf i)

/-- The token in W tiles from A, its flags from a mask where SEG is bound (R202). -/
def tokenOf (x : XState) (p : Prog) (a : BitVec 5) (m : BitVec 3) : ScanRec :=
  some ((List.range p.w).map (fun k => x.tile (a + BitVec.ofNat 5 k)), if x.scan.segOn then x.mask m else 0)

/-- The labels of a token, and the configuration's (R207). -/
def tokenLbls (x : XState) (p : Prog) (a : BitVec 5) (m : BitVec 3) : List Label :=
  (List.range p.w).map (fun k => x.tlbl (a + BitVec.ofNat 5 k)) ++ (if x.scan.segOn then [x.mlbl m] else []) ++ [x.scan.clbl]

/-- The W components of a record written to tiles from D. -/
def putToken (c : CoreId) (p : Prog) (d : BitVec 5) (r : ScanRec) (lbl : Label) : M Unit :=
  match r with
  | none => pure ()
  | some (cs, _) => modXs c (fun x => ((cs.take p.w).zipIdx).foldl (fun (x : XState) q => x.setTile (d + BitVec.ofNat 5 q.2) q.1 lbl) x)

/-- The end of a token (R202, R203): at a chunk's end, with `run`, the running record becomes the tree record in UP and empties. -/
def tick (c : CoreId) (p : Prog) (run : Bool) : M Unit := do
  let x := (← getCore c).xs
  let sc := x.scan
  if sc.posI + 1 < sc.lc then
    modXs c (fun x => { x with scan := { x.scan with posI := sc.posI + 1 } })
  else do
    if run then do
      if sc.st = stUp then do
        let q := treeAt sc p.w sc.posJ
        putRec c q.1 q.2 p.w ((x.slot sc.rs).get 0 p.w) (x.slot sc.rs).lbl
      clearRec c sc.rs 0 p.w
    modXs c (fun x => { x with scan := { x.scan with posI := 0, posJ := sc.posJ + 1 } })

/-- `scan.loc` in the state its mode needs (R199, R202): the running record folds the token; `out` says what is written. -/
def locFold (i : Instr) (need' : BitVec 2) (a : BitVec 5) (d : Option (BitVec 5)) (fin : Bool) (c : CoreId) : M EFlow := do
  let p ← needProg c i
  let k ← getCore c
  let x := k.xs
  let sc := x.scan
  need (decide (sc.st = need') && decide (sc.posJ < sc.m)) cILLEGAL (wordOf i)
  needRegs p i (a :: d.toList)
  let run := comb p ((x.slot sc.rs).get 0 p.w) (tokenOf x p a sc.segIn)
  let q := treeAt sc p.w sc.posJ
  let out := if fin then comb p ((x.slot q.1).get q.2 p.w) run else run
  let lbl ← lift (joinAll (dieOf c) k.id.pid
    (tokenLbls x p a sc.segIn ++ [(x.slot sc.rs).lbl] ++ (if fin then [(x.slot q.1).lbl] else [])))
  putRec c sc.rs 0 p.w run lbl
  match d with
  | none => pure ()
  | some d => do
    putToken c p d out lbl
    if !fin && sc.segOn then modXs c (fun x => x.setMask sc.segOut ((run.map (fun r => r.2)).getD 0) lbl) else pure ()
  tick c p true
  return {}

/-- SCAN_LOC_AGG (R202). -/
def execScanLocAgg (w g : BitVec 3) (a : BitVec 5) : State → Out :=
  let i := Instr.scanLocAgg w g a
  runE .X i w g (fun c _ => locFold i stUp a none false c)

/-- SCAN_LOC_OUT (R202). -/
def execScanLocOut (w g : BitVec 3) (d a : BitVec 5) : State → Out :=
  let i := Instr.scanLocOut w g d a
  runE .X i w g (fun c _ => locFold i stUp a (some d) false c)

/-- SCAN_LOC_FIN (R202). -/
def execScanLocFin (w g : BitVec 3) (d a : BitVec 5) : State → Out :=
  let i := Instr.scanLocFin w g d a
  runE .X i w g (fun c _ => locFold i stDown a (some d) true c)

/-- SCAN_APP (R203): the chunk's carry applied to a stored prefix, whose flags stand in vm[F]. -/
def execScanApp (w g : BitVec 3) (d a : BitVec 5) : State → Out :=
  let i := Instr.scanApp w g d a
  runE .X i w g (fun c _ => do
    let p ← needProg c i
    let k ← getCore c
    let x := k.xs
    let sc := x.scan
    need (decide (sc.st = stDown) && decide (sc.posJ < sc.m)) cILLEGAL (wordOf i)
    needRegs p i [a, d]
    let q := treeAt sc p.w sc.posJ
    let out := comb p ((x.slot q.1).get q.2 p.w) (tokenOf x p a sc.segOut)
    let lbl ← lift (joinAll (dieOf c) k.id.pid (tokenLbls x p a sc.segOut ++ [(x.slot q.1).lbl]))
    putToken c p d out lbl
    tick c p false
    return {})

/-- SCAN_STEP (R205): a fold into the state record of a slot. -/
def execScanStep (w g : BitVec 3) (d a : BitVec 5) (n : BitVec 4) : State → Out :=
  let i := Instr.scanStep w g d a n
  runE .X i w g (fun c _ => do
    let p ← needProg c i
    let k ← getCore c
    let x := k.xs
    needRegs p i [a, d]
    let st := comb p ((x.slot n).get 0 p.w) (tokenOf x p a x.scan.segIn)
    let lbl ← lift (joinAll (dieOf c) k.id.pid (tokenLbls x p a x.scan.segIn ++ [(x.slot n).lbl]))
    putRec c n 0 p.w st lbl
    putToken c p d st lbl
    return {})

/-! ### Slot movement (R206) -/

/-- SS_LD (R206). -/
def execSsLd (w g : BitVec 3) (n : BitVec 4) (a : BitVec 5) (b : BitVec 3) : State → Out :=
  runE .X (.ssLd w g n a b) w g (fun c _ => do
    let x := (← getCore c).xs
    let l ← lift (joinL c (x.slot n).lbl (x.tlbl a))
    modXs c (fun x =>
      let s := x.slot n
      let e := s.empty &&& ~~~(emptyBits b.toNat 1)
      x.setSlot n { s with blocks := wr s.blocks (i3 b) (x.tile a), empty := e, lbl := l })
    return {})

/-- SS_LD_F (R206). -/
def execSsLdF (w g : BitVec 3) (n : BitVec 4) (a b : BitVec 3) : State → Out :=
  runE .X (.ssLdF w g n a b) w g (fun c _ => do
    let x := (← getCore c).xs
    let l ← lift (joinL c (x.slot n).lbl (x.mlbl a))
    modXs c (fun x => let s := x.slot n; x.setSlot n { s with flags := wr s.flags (i3 b) (x.mask a), lbl := l })
    return {})

/-- What an empty block reads as: the identity component of its place, +0 in OFF (R206). -/
def emptyRead (sc : ScanCtl) (b : BitVec 3) : Word32 :=
  if sc.st = stOff then 0
  else match parseImg sc.img with
    | some p => p.ids.getD (b.toNat % p.w) 0
    | none => 0

/-- SS_ST (R206). -/
def execSsSt (w g : BitVec 3) (d : BitVec 5) (n : BitVec 4) (b : BitVec 3) : State → Out :=
  runE .X (.ssSt w g d n b) w g (fun c _ => do
    let x := (← getCore c).xs
    let s := x.slot n
    let l ← lift (joinL c s.lbl x.scan.clbl)
    modXs c (fun x => x.setTile d
      (if s.empty.getLsbD b.toNat then List.replicate 1024 (emptyRead x.scan b) else rd s.blocks (i3 b)) l)
    return {})

/-- SS_ST_F (R206). -/
def execSsStF (w g : BitVec 3) (d : BitVec 3) (n : BitVec 4) (b : BitVec 3) : State → Out :=
  runE .X (.ssStF w g d n b) w g (fun c _ => do
    let x := (← getCore c).xs
    let s := x.slot n
    let l ← lift (joinL c s.lbl x.scan.clbl)
    modXs c (fun x => x.setMask d (if s.empty.getLsbD b.toNat then 0 else rd s.flags (i3 b)) l)
    return {})

/-- SS_ZERO (R206). -/
def execSsZero (w g : BitVec 3) (n : BitVec 4) : State → Out :=
  runE .X (.ssZero w g n) w g (fun c _ => do
    modXs c (fun x => x.setSlot n Slot.reset)
    return {})

/-! ### The sweep (R194, R204) -/

/-- The local up-sweep in doubling strides. -/
def upSweep (p : Prog) (m : Nat) (x : List ScanRec) : List ScanRec :=
  (List.range m.log2).foldl (fun (x : List ScanRec) l =>
    let s := 2 ^ l
    (List.range (m / (2 * s))).foldl (fun (x : List ScanRec) j =>
      let k := 2 * s * j
      x.set (k + 2 * s - 1) (comb p (x.getD (k + s - 1) none) (x.getD (k + 2 * s - 1) none))) x) x

/-- The local down-sweep. -/
def downSweep (p : Prog) (m : Nat) (x : List ScanRec) : List ScanRec :=
  (List.range m.log2).foldr (fun l (x : List ScanRec) =>
    let s := 2 ^ l
    (List.range (m / (2 * s))).foldl (fun (x : List ScanRec) j =>
      let k := 2 * s * j
      let t := x.getD (k + s - 1) none
      (x.set (k + s - 1) (x.getD (k + 2 * s - 1) none)).set (k + 2 * s - 1) (comb p (x.getD (k + 2 * s - 1) none) t)) x) x

/-- A member's records before the network (R204): its tree records with a partial chunk closed, after the local up-sweep. -/
def memberRecs (p : Prog) (x : XState) : List ScanRec :=
  let sc := x.scan
  let r0 := (List.range sc.m).map (fun r => let q := treeAt sc p.w r; (x.slot q.1).get q.2 p.w)
  let r1 := if 0 < sc.posI then r0.set sc.posJ ((x.slot sc.rs).get 0 p.w) else r0
  upSweep p sc.m r1

/-- The labels that a member contributes (R207): the slots its sweep reads, and CLBL. -/
def memberLbls (p : Prog) (x : XState) : List Label :=
  let sc := x.scan
  x.scan.clbl :: (List.range sc.m).map (fun r => (x.slot (treeAt sc p.w r).1).lbl) ++ (if 0 < sc.posI then [(x.slot sc.rs).lbl] else [])

/-- The values of a level of the task tree from the level below (R194). -/
def pairUp (p : Prog) : List ScanRec → List ScanRec
  | a :: b :: t => comb p a b :: pairUp p t
  | l => l

/-- The root value of 2^n leaves. -/
def rootValue (p : Prog) : Nat → List ScanRec → ScanRec
  | 0, l => (l.head?).getD none
  | n + 1, l => rootValue p n (pairUp p l)

/-- The carries of 2^n leaves from the root's (R194). -/
def carries (p : Prog) : Nat → List ScanRec → ScanRec → List ScanRec
  | 0, _, c => [c]
  | n + 1, l, c =>
    let left := l.take (2 ^ n)
    carries p n left c ++ carries p n (l.drop (2 ^ n)) (comb p c (rootValue p n left))

/-- The exponent of the least power of two that reaches n. -/
def ceilLog (n : Nat) : Nat := if n ≤ 1 then 0 else (n - 1).log2 + 1

/-- The digest of a member (R210). -/
def digest (p : Prog) (sc : ScanCtl) (init : Bool) : Nat :=
  let h := (List.range 16).foldl (fun a i => a ^^^ bytesAt sc.img (4 * i) 4) 0
  let x := (h / 2 ^ 16) ^^^ (h % 2 ^ 16)
  x + sc.lcc.toNat * 2 ^ 16 + sc.mlog.toNat * 2 ^ 20 + p.w.log2 * 2 ^ 23 + (p.len - 1) * 2 ^ 25 + (if init then 2 ^ 29 else 0)

/-- The reason code of two digests: 0 none, 1 the program, 2 LCC or MLOG under salign (R210). -/
def digestReason (salign : Bool) (a b : Nat) : Nat :=
  if decide (bits a 0 16 ≠ bits b 0 16) || decide (bits a 23 7 ≠ bits b 23 7) then 1
  else if salign && decide (bits a 16 7 ≠ bits b 16 7) then 2
  else 0

/-- The lowest code that is not 0, or 0. -/
def leastReason (l : List Nat) : Nat := l.foldl (fun a r => if r = 0 then a else if a = 0 then r else min a r) 0

/-! ### `scan.net` (R199, R204, R210, R213, R330) -/

def cgEn (q : Part) : Bool := bit q.cgctl.toNat 0
def cgRank (q : Part) : Nat := bits q.cgctl.toNat 1 7
def cgLog (q : Part) : Nat := bits q.cgctl.toNat 8 3
def cgTag (q : Part) : Nat := bits q.cgctl.toNat 12 12
/-- The Imost port of a level, if IMROUTE has a route (R330). -/
def imRoute (q : Part) (l : Nat) : Option Nat := if bit q.imroute.toNat (3 * l + 2) then some (bits q.imroute.toNat (3 * l) 2) else none

/-- The checks of a `scan.net` (R199, R210, R330). -/
def netChecks (i : Instr) (xp : Bool) (c : CoreId) : M Unit := do
  let k ← getCore c
  need (decide (k.xs.scan.st = stUp)) cILLEGAL (wordOf i)
  if xp then do
    let q := (← get).part k.id.pid
    need (decide (k.id.level = 3) && cgEn q && (List.range (cgLog q)).all (fun l => (imRoute q l).isSome)) cILLEGAL (wordOf i)
  else pure ()

/-- A `scan.net` starts: it waits for its sweep, and its tokens are popped as it commits; the X strand issues nothing more (R204, R213;
log entry 43). -/
def netStart (i : Instr) (w g : BitVec 3) (xp : Bool) (init : Option (BitVec 4)) (s : State) : Out :=
  let c := s.cur.1
  if s.cur.2 = .X && mayIssue s c .X then
    let k := s.core c
    if !masksStarted k .X w g then .next (trapEng c .X cILLEGAL 0 (wordOf i) s)
    else if k.xs.net.isSome || !(waitCodes .X w).all (fun q => decide (0 < k.tokens q)) then .next (parkE c .X s)
    else match netChecks i xp c s with
      | .ok (_, s1) =>
        .next (parkE c .X (s1.updCore c (fun k =>
          { k with xs := { k.xs with net := some { xp := xp, init := init, pops := waitCodes .X w, gives := giveCodes .X g } } })))
      | .error (.trap code sub tval s1) => .next (trapEng c .X code sub tval s1)
      | .error (.wait s1) => .next (parkE c .X s1)
  else .fault .notIssuing

/-- SCAN_NET (R204). -/
def execScanNet (w g : BitVec 3) (x : BitVec 1) : State → Out := netStart (.scanNet w g x) w g (decide (x = 1)) none

/-- SCAN_NET_INIT (R204): the initial carry is record 0 of slot I of the domain's lowest task. -/
def execScanNetInit (w g : BitVec 3) (n : BitVec 4) (x : BitVec 1) : State → Out :=
  netStart (.scanNetInit w g n x) w g (decide (x = 1)) (some n)

/-- The gang of a job at its partition's carry-group node changed, if the node has it (R212). -/
def updNode (pid : PartId) (j : JobId) (f : NetNode → NetNode) (s : State) : State :=
  s.updPart pid (fun q => { q with nodes := q.nodes.map (fun n => if n.job = some j then f n else n) })

/-- A `scan.net` is withdrawn: it has popped nothing, and it issues afresh (R213, R284). -/
def withdrawNet (c : CoreId) (s : State) : State :=
  let k := s.core c
  let s1 := s.updCore c (fun k => { k with xs := { k.xs with net := none } })
  if k.xs.net.any (fun n => n.xp) then updNode k.id.pid k.id.jobid (fun n => { n with sentUp := false }) s1 else s1

/-- A member's `scan.net` commits (R204): its tree records and carries, the labels, DOWN, and the strand moves on. -/
def commitNet (p : Prog) (c : CoreId) (carry : ScanRec) (lbl : Label) (s : State) : State :=
  let x := (s.core c).xs
  let sc := x.scan
  let recs := downSweep p sc.m ((memberRecs p x).set (sc.m - 1) carry)
  let gives := (x.net.map (fun n => n.gives)).getD []
  let pops := (x.net.map (fun n => n.pops)).getD []
  let put : SM Unit := (recs.zipIdx).forM (fun r => do
    let q := treeAt sc p.w r.2
    let old := (((← get).core c).xs.slot q.1).lbl
    let l ← joinL c old lbl
    modify (fun s => s.updCore c (fun k => { k with xs := k.xs.setSlot q.1 { (k.xs.slot q.1).put q.2 p.w r.1 with lbl := l } })))
  ((put s).2).updCore c (fun k =>
    let x1 := k.xs.setSlot sc.rs ((k.xs.slot sc.rs).put 0 p.w none)
    let sc1 : ScanCtl := { x1.scan with st := stDown, posI := 0, posJ := 0, swn := sc.swn + 1 }
    let k1 := pops.foldl Core.popTok { k with xs := { x1 with scan := sc1, net := none } }
    let e := k1.eng .X
    let k2 := k1.setEng .X { e with pc := e.pc + 4 }
    settle { k2 with st := k2.st.set .X .issuing, flights := k2.flights ++ [{ st := .X, rest := .push, gives := gives }] })

/-- Every member traps at its `scan.net`, which is withdrawn (R210, R312). -/
def trapNet (code : Nat) (tval : Word) (ms : List CoreId) (s : State) : State :=
  ms.foldl (fun s c => trapEng c .X code 0 tval (withdrawNet c s)) s

/-! ### Carry packets (R211, R212) -/

/-- A carry packet's bytes (R212). -/
def carryBytes (q : Part) (swn : BitVec 16) (lvl : Nat) (down : Bool) (p : Prog) (dig : Nat) (r : ScanRec) : List Byte :=
  let h := natBytes 2 (cgTag q) ++ natBytes 2 swn.toNat ++ natBytes 1 (cgRank q) ++
    natBytes 1 (lvl + (if down then 8 else 0) + (if r.isNone then 16 else 0) + p.w.log2 * 32) ++ natBytes 2 0 ++
    natBytes 4 dig ++ natBytes 52 0
  match r with
  | none => h
  | some (cs, f) => h ++ (cs.map (fun t => (t.map (fun v => natBytes 4 v.toNat)).flatten)).flatten ++ natBytes 128 f.toNat

def cpTag (b : List Byte) : Nat := bytesAt b 0 2
def cpSwn (b : List Byte) : BitVec 16 := BitVec.ofNat 16 (bytesAt b 2 2)
def cpSrc (b : List Byte) : Nat := bytesAt b 4 1
def cpLvl (b : List Byte) : Nat := bytesAt b 5 1 % 8
def cpDown (b : List Byte) : Bool := bit (bytesAt b 5 1) 3
def cpEmp (b : List Byte) : Bool := bit (bytesAt b 5 1) 4
def cpWc (b : List Byte) : Nat := bits (bytesAt b 5 1) 5 2
def cpDig (b : List Byte) : Nat := bytesAt b 8 4

/-- The record that a packet carries. -/
def cpRec (b : List Byte) : ScanRec :=
  if cpEmp b then none
  else
    let w := 2 ^ cpWc b
    let f := 64 + 4096 * w
    some ((List.range w).map (fun k => (List.range 1024).map (fun i => BitVec.ofNat 32 (bytesAt b (64 + 4096 * k + 4 * i) 4))),
          BitVec.ofNat 1024 (bytesAt b f 128))

/-- The port of the carry link toward the partner at a level (R330). -/
def carryPort (q : Part) (lvl : Nat) : Nat := (imRoute q lvl).getD 0

/-- The gate lets a carry packet pass (R311, class 3); one with no element has nothing to judge. -/
def carryPasses (s : State) (k : CarryIn) (lbl : Label) : Bool := cpEmp k.bytes || gatePasses s 3 [lbl]

/-- A carry packet leaves toward a level's port. -/
def sendCarry (pid : PartId) (lvl : Nat) (k : CarryIn) (lbl : Label) (s : State) : State :=
  emitAt (15 + carryPort (s.part pid) lvl) (.carry pid (carryPort (s.part pid) lvl) k lbl) s

/-- Packets of one step of a sweep, by level: all of them leave, or the gate denies one and none leaves; the drop is recorded (R312,
R314). -/
def sendCarries (pid : PartId) (job : JobId) (ps : List (Nat × CarryIn)) (lbl : Label) (s : State) : Bool × State :=
  match ps.find? (fun p => !carryPasses s p.2 lbl) with
  | some p => (false, gateDrop 3 (15 + carryPort (s.part pid) p.1) job.toNat [lbl] s)
  | none => (true, ps.foldl (fun s p => sendCarry pid p.1 p.2 lbl s) s)

/-- The level at which a rank sends up: the number of its trailing zeros; the whole group for rank 0. -/
def rankLevel (q : Part) : Nat :=
  ((List.range (cgLog q)).find? (fun l => bit (cgRank q) l)).getD (cgLog q)

/-- A held up packet of the current sweep. -/
def NetNode.up? (n : NetNode) (lvl : Nat) : Option HeldPacket := n.ups.find? (fun h => h.lvl == lvl && h.swn == n.swn)

/-- How a sweep stands between packages: packets are still awaited, a digest differs, the gate dropped a packet, or the carry of
this package is known, with the labels that arrived and the down packets to keep. -/
inductive XpEnd where
  | wait (s : State)
  | bad (reason : Nat) (s : State)
  | denied (s : State)
  | carry (r : ScanRec) (lbls : List Label) (s : State)
  deriving DecidableEq, Repr

/-- Levels 0 to rankLevel − 1 of the up-sweep: the value of this package's subtree, and each level's left value (R211). -/
def xpUp (p : Prog) (n : NetNode) : (lvl fuel : Nat) → ScanRec → List ScanRec → Option (ScanRec × List ScanRec)
  | _, 0, v, ls => some (v, ls)
  | l, f + 1, v, ls =>
    match n.up? l with
    | none => none
    | some h => xpUp p n (l + 1) f (comb p v (cpRec h.packet.bytes)) (ls ++ [v])

/-- A sweep of a gang is over: its packets are used up. -/
def NetNode.close (swn : BitVec 16) (n : NetNode) : NetNode :=
  { n with sentUp := false, down := none, ups := n.ups.filter (fun h => h.swn != swn) }

/-- The node of a gang that takes up a sweep number: packets of that sweep and of the next stay (R212). -/
def NetNode.reach (swn : BitVec 16) (n : NetNode) : NetNode :=
  if n.swn = swn then n
  else { n with swn := swn, sentUp := false, down := none, ups := n.ups.filter (fun h => h.swn == swn || h.swn == swn + 1) }

/-- What the node knows of a gang under a TAG: its own state there; for a gang that is new to it, what has come for the TAG while no gang
was there, from sweep 0 on (R198). -/
def Part.nodeOf (q : Part) (j : JobId) (tag : Nat) : NetNode :=
  let early := match q.nodes.find? (fun n => n.job.isNone && n.tag == tag) with
    | some n => n.ups
    | none => []
  match q.nodes.find? (fun n => n.job == some j) with
  | some n => if n.tag = tag then n else { n with tag := tag, sentUp := false, ups := early, down := none }
  | none => { job := some j, tag := tag, swn := 0, sentUp := false, ups := early, down := none }

/-- A gang stands at its partition's node, with the sweep number of its tasks, before the others. -/
def placeNode (pid : PartId) (j : JobId) (swn : BitVec 16) (s : State) : State :=
  s.updPart pid (fun q =>
    let n := q.nodeOf j (cgTag q)
    let rest := q.nodes.filter (fun m => m.job != some j && !(m.job.isNone && m.tag == n.tag))
    { q with nodes := n.reach swn :: rest })

/-- A gang that has ended leaves the node; the down packets of its last committed sweep stay (R212). -/
def dropNode (pid : PartId) (j : JobId) (s : State) : State :=
  s.updPart pid (fun q => { q with nodes := q.nodes.filter (fun m => m.job != some j) })

/-- The reason to trap that an arriving packet gives: the code it hands on, its digest against this package's, its T′ and LOG2N
(R210). -/
def heldReason (salign : Bool) (dig shape : Nat) (h : HeldPacket) : Nat :=
  leastReason [h.packet.why, digestReason salign dig (cpDig h.packet.bytes), if h.packet.shape = shape then 0 else 4]

/-- The element that a packet carries: none once there is a reason to trap. -/
def unlessBad (why : Nat) (r : ScanRec) : ScanRec := if why = 0 then r else none

/-- The down packets of levels below the rank's own (R211). -/
def downPackets (q : Part) (p : Prog) (swn : BitVec 16) (dig shape why : Nat) (carry : ScanRec) (ls : List ScanRec) : List (Nat × CarryIn) :=
  (ls.zipIdx).map (fun v =>
    (v.2, { bytes := carryBytes q swn v.2 true p dig (unlessBad why (comb p carry v.1)), shape := shape, why := why : CarryIn }))

/-- The down packets kept for duplicates: those of the last committed sweep of each TAG, with the up packets that they answer (R212). -/
def keepDown (n : NetNode) (lbl : Label) (ps : List (Nat × CarryIn)) (q : Part) : Part :=
  { q with kept := ps.map (fun v =>
      { up := ((n.up? v.1).map (fun h => h.packet.bytes)).getD [], held := { lvl := v.1, swn := n.swn, packet := v.2, lbl := lbl } : KeptDown }) ++
      q.kept.filter (fun h => decide (cpTag h.held.packet.bytes ≠ n.tag)) }

/-- One sweep of a package, as its node meets it: digest, T′ and LOG2N, the package's own reason to trap, its root value, the initial
carry of rank 0, and the joined label. -/
structure XpSweep where
  pid : PartId
  job : JobId
  p : Prog
  salign : Bool
  dig : Nat
  shape : Nat
  why : Nat
  value : ScanRec
  c0 : ScanRec
  lbl : Label
  deriving DecidableEq, Repr

/-- The root's verdict and carry are known: the down packets leave, and every member commits or traps (R204, R210). -/
def xpFinish (x : XpSweep) (why : Nat) (carry : ScanRec) (lbls ins : List Label) (ls : List ScanRec) (s0 : State) : XpEnd :=
  let q := s0.part x.pid
  let n := q.nodeOf x.job (cgTag q)
  let (l, s) := joinAll 0 x.pid lbls s0
  let ps := downPackets q x.p n.swn x.dig x.shape why carry ls
  match sendCarries x.pid x.job ps l s with
  | (false, s1) => .denied s1
  | (true, s1) => if why ≠ 0 then .bad why (updNode x.pid x.job (NetNode.close n.swn) s1)
                  else .carry carry ins (s1.updPart x.pid (keepDown n l ps))

/-- The exchange of one sweep of a partition (R211, R212). -/
def xpSweep (x : XpSweep) (s : State) : XpEnd :=
  let q := s.part x.pid
  let n := q.nodeOf x.job (cgTag q)
  let lv := rankLevel q
  match xpUp x.p n 0 lv x.value [] with
  | none => .wait s
  | some (v, ls) =>
    let held := (List.range lv).filterMap n.up?
    let why := leastReason (x.why :: held.map (heldReason x.salign x.dig x.shape))
    let ins := held.map (fun h => h.lbl)
    if lv = cgLog q then xpFinish x why x.c0 (x.lbl :: ins) ins ls s
    else if !n.sentUp then
      let (l, s1) := joinAll 0 x.pid (x.lbl :: ins) s
      let up : CarryIn := { bytes := carryBytes q n.swn lv false x.p x.dig (unlessBad why v), shape := x.shape, why := why }
      match sendCarries x.pid x.job [(lv, up)] l s1 with
      | (false, s2) => .denied s2
      | (true, s2) => .wait (updNode x.pid x.job (fun n => { n with sentUp := true }) s2)
    else match n.down with
      | none => .wait s
      | some h =>
        xpFinish x (leastReason [why, heldReason x.salign x.dig x.shape h]) (cpRec h.packet.bytes) (x.lbl :: h.lbl :: ins) (h.lbl :: ins) ls s

/-- The digest of a member as its `scan.net` stands (R210). -/
def memberDigest (x : XState) : Nat :=
  match parseImg x.scan.img with
  | some p => digest p x.scan ((x.net.map (fun n => n.init.isSome)).getD false)
  | none => 0

/-- The reason to trap within a package: digests, then SWN (R210). -/
def packageReason (salign : Bool) (x0 : XState) (xs : List XState) : Nat :=
  leastReason (xs.map (fun x => digestReason salign (memberDigest x0) (memberDigest x)) ++
    xs.map (fun x => if x.scan.swn = x0.scan.swn then 0 else 3))

/-- The initial carry and its label: of the domain's lowest task, which with `.xp` counts at rank 0 only (R204, R207). -/
def initCarry (p : Prog) (q : Part) (x0 : XState) : ScanRec × List Label :=
  match x0.net with
  | none => (none, [])
  | some n =>
    match n.init with
    | none => (none, [])
    | some i => if n.xp && decide (cgRank q ≠ 0) then (none, []) else ((x0.slot i).get 0 p.w, [(x0.slot i).lbl])

/-- The leaves of the task tree: the last record of each member after its up-sweep, empty where no task stands (R204). -/
def sweepLeaves (p : Prog) (s : State) (ms : List CoreId) (first n : Nat) : List ScanRec :=
  (List.range (2 ^ n)).map (fun g =>
    match ms.find? (fun m => decide ((s.core m).id.slot.toNat = first + g)) with
    | some m => let r := memberRecs p (s.core m).xs; r.getD (r.length - 1) none
    | none => none)

/-- Every member commits, and the node moves to the gang's next sweep (R204, R212). -/
def commitAll (p : Prog) (j : Job) (ms : List CoreId) (first n : Nat) (leaves : List ScanRec) (swn : BitVec 16) (root : ScanRec) (lbl : Label)
    (s : State) : State :=
  let cs := carries p n leaves root
  let s1 := ms.foldl (fun s m => commitNet p m (cs.getD ((s.core m).id.slot.toNat - first) none) lbl s) s
  updNode j.pid j.id (fun n => (n.close swn).reach (swn + 1)) s1

/-- SCAN_NET_SWEEP_END (R204, R210): the domain of core c, once every member has issued its `scan.net`: digests are compared, then
every member commits or every member traps. A sweep of a carry group goes as far as its packets allow. -/
def execScanNetSweepEnd (c : CoreId) (s : State) : Out :=
  match s.coreJob c with
  | none => .next s
  | some j =>
    let ms := domainOf s j c
    let k := s.core c
    let nets := ms.filterMap (fun m => (s.core m).xs.net)
    match ms, k.xs.net, parseImg k.xs.scan.img with
    | m0 :: _, some n0, some p =>
      if nets.length ≠ ms.length || nets.any (fun n => n.xp != n0.xp) then .next s
      else
        let x0 := (s.core m0).xs
        let why := packageReason k.id.salign x0 (ms.map (fun m => (s.core m).xs))
        if why ≠ 0 && !n0.xp then .next (trapNet cSCANALIGN (wd why) ms s)
        else
          let q := s.part k.id.pid
          let (c0, il) := initCarry p q x0
          let first := k.id.domFirst.toNat
          let n := ceilLog (k.id.domLast.toNat - first + 1)
          let leaves := sweepLeaves p s ms first n
          let swn := x0.scan.swn
          let (lbl, s1) := joinAll (dieOf c) k.id.pid ((ms.map (fun m => memberLbls p (s.core m).xs)).flatten ++ il) s
          if !n0.xp then .next (commitAll p j ms first n leaves swn c0 lbl s1)
          else
            let s2 := placeNode k.id.pid j.id swn s1
            let x : XpSweep := { pid := k.id.pid, job := j.id, p := p, salign := k.id.salign, dig := memberDigest x0,
                                 shape := 2 ^ n * 8 + cgLog q, why := why, value := rootValue p n leaves, c0 := c0, lbl := lbl }
            match xpSweep x s2 with
            | .wait s3 => .next s3
            | .bad why s3 => .next (trapNet cSCANALIGN (wd why) ms s3)
            | .denied s3 => .next (trapNet cRELDENY 0 ms (updNode k.id.pid j.id (fun n => { n with sentUp := false }) s3))
            | .carry root ls s3 =>
              let (l2, s4) := joinAll (dieOf c) k.id.pid (lbl :: ls) s3
              .next (commitAll p j ms first n leaves swn root l2 s4)
    | _, _, _ => .next s

/-- A packet comes from the partner of its level, and its direction is one that the partner may send in: up packets from levels below
the rank's own, a down packet at it (R211, R330). -/
def cpExpected (q : Part) (b : List Byte) : Bool :=
  decide (cpSrc b = cgRank q ^^^ 2 ^ cpLvl b) &&
  (if cpDown b then decide (cpLvl b = rankLevel q) else decide (cpLvl b < rankLevel q))

/-- The gang that a packet of a TAG is for: one of a job that is bound before one that is saved; else what stands for the TAG while no gang
is there, which the node holds packets for under the TAG that it has now. -/
def tagNode (s : State) (q : Part) (tag : Nat) : Option NetNode :=
  let mine := q.nodes.filter (fun n => n.tag == tag)
  let bound (n : NetNode) : Bool := (n.job.bind s.job?).any (fun j => j.st != .saved)
  match mine.find? bound, mine.head? with
  | some n, _ => some n
  | none, some n => some n
  | none, none => if tag = cgTag q then some { job := none, tag := tag, swn := 0, sentUp := false, ups := [], down := none } else none

/-- A gang's state at the node put back in its place. -/
def putNode (pid : PartId) (n : NetNode) (s : State) : State :=
  s.updPart pid (fun q =>
    let same (m : NetNode) : Bool := m.job == n.job && m.tag == n.tag
    { q with nodes := if q.nodes.any same then q.nodes.map (fun m => if same m then n else m) else q.nodes ++ [n] })

/-- A kept down packet that answers an up packet of its sweep; with `same` only one that has come before, byte for byte (R212). -/
def Part.answer (q : Part) (same : Bool) (b : List Byte) : Option HeldPacket :=
  (q.kept.find? (fun u =>
    u.held.lvl == cpLvl b && u.held.swn == cpSwn b && decide (cpTag u.held.packet.bytes = cpTag b) && (!same || u.up == b))).map (fun u => u.held)

/-- The kept down packet is sent again, as far as the gate lets it pass (R212, R312). -/
def sendKept (pid : PartId) (u : HeldPacket) (s : State) : State :=
  if carryPasses s u.packet u.lbl then sendCarry pid u.lvl u.packet u.lbl s
  else gateDrop 3 (15 + carryPort (s.part pid) u.lvl) 0 [u.lbl] s

/-- An up packet: a duplicate of the last committed sweep of its TAG is answered, one of the gang's current or next sweep is held, others
are discarded (R212; log entry 19). -/
def upArrives (pid : PartId) (h : HeldPacket) (s : State) : State :=
  let q := s.part pid
  let b := h.packet.bytes
  match q.answer true b with
  | some u => sendKept pid u s
  | none =>
    match tagNode s q (cpTag b) with
    | some n =>
      if h.swn = n.swn ∨ h.swn = n.swn + 1 then
        if n.ups.any (fun u => u.lvl == h.lvl && u.swn == h.swn) then s else putNode pid { n with ups := h :: n.ups } s
      else match q.answer false b with
        | some u => sendKept pid u s
        | none => s
    | none => match q.answer false b with
      | some u => sendKept pid u s
      | none => s

/-- A down packet: taken by the sweep in progress, once (R212). -/
def downArrives (pid : PartId) (h : HeldPacket) (s : State) : State :=
  match tagNode s (s.part pid) (cpTag h.packet.bytes) with
  | some n => if h.swn = n.swn ∧ n.down.isNone then putNode pid { n with down := some h } s else s
  | none => s

/-- CARRY_PACKET (R212, R310, R330): from the partner of its level, under the ingress label of its port. -/
def execCarryPacket (pid : PartId) (packet : CarryIn) (s : State) : Out :=
  let b := packet.bytes
  let q := s.part pid
  let l := cpLvl b
  if !cgEn q || !cpExpected q b || decide (cgLog q ≤ l) then .next s
  else
    let h : HeldPacket := { lvl := l, swn := cpSwn b, packet := packet,
                            lbl := liveId s.labels (rd s.labels.inlbl (Fin.ofNat 19 (15 + carryPort q l))) }
    .next (if cpDown b then downArrives pid h s else upArrives pid h s)

/-! ### Spills and fills (R214, R215) -/

/-- The command is journalled and given to the state-spill engine (R215). -/
def spillIssue (i : Instr) (a : BitVec 6) (n : BitVec 4) (fill : Bool) : State → Out :=
  runPlain (fun c => do
    let v ← readX c a
    need (decide (v.toNat % 64 = 0)) cILLEGAL v
    let seq ← jNew c false i v 0 0 0
    modCore c (fun k => { k with spill := { k.spill with
      cmds := k.spill.cmds ++ [{ slot := n, was := k.xs.slot n, addr := v, fill := fill, seq := seq, sync := k.sync, got := none }] } }))

/-- SS_SPILL (R214, R215). -/
def execSsSpill (a : BitVec 6) (n : BitVec 4) : State → Out := spillIssue (.ssSpill a n) a n false

/-- SS_FILL (R214, R215). -/
def execSsFill (a : BitVec 6) (n : BitVec 4) : State → Out := spillIssue (.ssFill a n) a n true

/-- A slot's image (R214). -/
def slotBytes (s : Slot) : List Byte :=
  (s.blocks.toList.map (fun (t : Tile) => (t.map (fun v => natBytes 4 v.toNat)).flatten)).flatten ++
  (s.flags.toList.map (fun (m : Mask) => natBytes 128 m.toNat)).flatten ++ natBytes 1 s.empty.toNat ++ natBytes 63 0

/-- The slot of an image (R214, R215). -/
def slotOfBytes (b : List Byte) (lbl : Label) : Slot :=
  { blocks := Vector.ofFn (fun (k : Fin 8) => (List.range 1024).map (fun i => BitVec.ofNat 32 (bytesAt b (4096 * k.val + 4 * i) 4))),
    flags := Vector.ofFn (fun (k : Fin 8) => BitVec.ofNat 1024 (bytesAt b (32768 + 128 * k.val) 128)),
    empty := BitVec.ofNat 8 (bytesAt b 33792 1), lbl := lbl }

/-- Two slots of which each 4-byte word, flag bit and EMPTY bit is one or the other, with the label of both (R216). -/
def mixSlot (c : CoreId) (a b : Slot) : SM Slot := fun s =>
  if a = b then (a, s)
  else
    let n := s.freeCtr
    let bitsOf (w i : Nat) : BitVec w := BitVec.ofNat w (Config.freeNat (n + 8192 + i))
    let (l, s1) := joinL c a.lbl b.lbl { s with freeCtr := n + 8201 }
    ({ blocks := Vector.ofFn (fun (k : Fin 8) => (rd a.blocks k).zipIdx.map (fun p =>
         if Config.freeNat (n + 1024 * k.val + p.2) % 2 = 0 then p.1 else (rd b.blocks k).getD p.2 0)),
       flags := Vector.ofFn (fun (k : Fin 8) => let m := bitsOf 1024 k.val; (rd a.flags k &&& m) ||| (rd b.flags k &&& ~~~m)),
       empty := (let m := bitsOf 8 8; (a.empty &&& m) ||| (b.empty &&& ~~~m)), lbl := l }, s1)

/-- What X instructions have written into a slot since `was`, over another content. -/
def laterWrites (was cur new : Slot) : Slot :=
  let pick (x y z : Mask) : Mask := let d := x ^^^ y; (y &&& d) ||| (z &&& ~~~d)
  { blocks := Vector.ofFn (fun (k : Fin 8) => (rd new.blocks k).zipIdx.map (fun p =>
      let v := (rd cur.blocks k).getD p.2 0
      if v = (rd was.blocks k).getD p.2 0 then p.1 else v)),
    flags := Vector.ofFn (fun (k : Fin 8) => pick (rd was.flags k) (rd cur.flags k) (rd new.flags k)),
    empty := (let d := was.empty ^^^ cur.empty; (cur.empty &&& d) ||| (new.empty &&& ~~~d)), lbl := cur.lbl }

/-- The head command leaves the engine, complete. -/
def spillPop (c : CoreId) (q : SpillCmd) (s : State) : State :=
  s.updCore c (fun k => jDone q.seq { k with spill := { k.spill with cmds := k.spill.cmds.drop 1 } })

/-- The head command's trap is queued; until it has left the queue the engine does nothing more for the task (R355). -/
def spillTrap (c : CoreId) (code sub : Nat) (tval : Word) (s : State) : State :=
  queueTrap c { cause := causeWord true 0 code sub, tval := tval, src := .spill }
    (s.updCore c (fun k => { k with spill := { k.spill with held := true } }))

/-- A translation fault of the head command, which moves nothing and stays incomplete: once its trap has left the queue it is
translated again (R215, R345, R362; log entry 20). -/
def spillFault (c : CoreId) (f : PFault × Word) (s : State) : State :=
  if f.1.poison then killJobOf c s
  else spillTrap c (if f.1.stage = 1 then cPF1 else cPF2) (f.1.level * 16 + f.1.kind) f.2 s

/-- A fill has its image: the slot is held ready. A reserved bit in the header ends the command with its trap (log entry 20). -/
def fillRead (c : CoreId) (q : SpillCmd) (g : Got) (s : State) : State :=
  if g.poison then killJobOf c s
  else if bytesAt g.bytes 33793 63 ≠ 0 then spillTrap c cCHANERR 0 q.addr (spillPop c q s)
  else s.updCore c (fun k => { k with spill := { k.spill with
    cmds := { q with got := some (slotOfBytes g.bytes g.lbl) } :: k.spill.cmds.drop 1 } })

/-- A fill's slot takes its place, around what X instructions have written since its issue (R216). -/
def fillEnd (c : CoreId) (q : SpillCmd) (new : Slot) (s : State) : State :=
  let cur := (s.core c).xs.slot q.slot
  let (v, s1) := if cur = q.was then (new, s) else mixSlot c new (laterWrites q.was cur new) s
  spillPop c q (s1.updCore c (fun k => { k with xs := k.xs.setSlot q.slot v }))

/-- A spill writes the slot, as it was at issue or as it is, with its label, and is a detector release (R216, R246, R247). -/
def spillWrite (c : CoreId) (w : Who) (q : SpillCmd) (ps : List Piece) (s : State) : State :=
  let (sl, s1) := mixSlot c ((s.core c).xs.slot q.slot) q.was s
  let (_, s2) := engineRace c w q.sync ps s1
  let (r, s3) := writePieces w ps (slotBytes sl) sl.lbl s2
  spillPop c q ((wrote c r s3).updCore c (fun k => { k with sync := k.sync + 1 }))

/-- SPILL_COMPLETION (R215): the engine translates the whole image of its oldest command, then moves it; a fill first reads, then puts
its slot in place. -/
def execSpillCompletion (c : CoreId) (s : State) : Out :=
  match (s.core c).spill.cmds with
  | [] => .next s
  | q :: _ =>
    if (s.core c).spill.held || !engineLive s c [q.seq] then .next s
    else match q.got with
      | some new => .next (fillEnd c q new s)
      | none =>
        let w := engineWho s c 2 0
        match translate w q.addr.toNat 33856 (if q.fill then .read else .write) s with
        | (.error f, s1) => .next (spillFault c f s1)
        | (.ok pages, s1) =>
          let ps := pieces pages q.addr.toNat 33856
          if q.fill then
            let (g, s2) := readPieces w ps s1
            .next (fillRead c q g s2)
          else .next (spillWrite c w q ps s1)

end Sys2Proof.Machine
end

