-- ==== Sys2Proof/Machine/Image.lean ====
section
/-! DEFINITION. The context image in memory: its bytes when a job is saved, and what a restore checks and reads back (R363,
R365 to R368). Where R367 names what an area holds and not how, the layout inside the area is the model's; what the image has no
place for travels with the task's copy (log entry 8). -/

namespace Sys2Proof.Machine

/-! ### Laying out (R366, R367) -/

/-- An image from its areas in rising order; every byte not listed is zero. -/
def assemble (total : Nat) : Nat → List (Nat × List Byte) → List Byte
  | pos, [] => List.replicate (total - pos) 0
  | pos, (o, b) :: t => List.replicate (o - pos) 0 ++ b ++ assemble total (o + b.length) t

/-- Numbers as fields of n bytes. -/
def fields (n : Nat) (l : List Nat) : List Byte := (l.map (natBytes n)).flatten

/-- k fields of n bytes. -/
def unfields (n : Nat) : Nat → List Byte → List Nat
  | 0, _ => []
  | k + 1, b => leNat (b.take n) :: unfields n k (b.drop n)

/-- k fields of n bytes at an offset. -/
def fieldsAt (b : List Byte) (off n k : Nat) : List Nat := unfields n k (b.drop off)

/-- Lists of m items each. -/
def groups {α : Type} (m : Nat) : Nat → List α → List (List α)
  | 0, _ => []
  | k + 1, l => l.take m :: groups m k (l.drop m)

/-- A vector from a list, with a default past its end. -/
def vecOf {α : Type} {n : Nat} (d : α) (l : List α) : Vector α n := Vector.ofFn (fun i : Fin n => l.getD i.val d)

def jobImageSize : Nat := 0x10000
def taskImageSize : Nat := 0x110000

/-! ### A task image (R360, R363, R367) -/

/-- Commands of the IOC command queue (R361, R363). -/
def isIocWord (w : Word32) : Bool :=
  match decode .C w with
  | .ok (.splice _ _ _) => true
  | .ok (.repGo _ _) => true
  | .ok (.repPoll _ _) => true
  | .ok (.launch _ _) => true
  | .ok (.collGo _ _) => true
  | _ => false

/-- The entries of commands that are not complete, oldest first (R360). -/
def openJournal (k : Core) : List JEntry := k.journal.reverse.filter (fun e => !e.done && decide (k.past e.seq < k.span))

/-- A task's incomplete commands on a channel, oldest first (R361). -/
def openChanSeqs (k : Core) (ch : Nat) : List Nat :=
  (openJournal k).filterMap (fun e =>
    match decode .C e.word with
    | .ok (.chanGo _ n) => if n.toNat = ch then some e.seq else none
    | _ => none)

/-- The lowest incomplete number of each engine queue: `tcp`, channels 0 to 7, the state-spill engine, the IOC queue; of a queue that is
idle for the task HEAD (R363, R392). -/
def queueLows (im : TaskImage) : List Nat :=
  let k := im.core
  ([(k.tcps.map (fun t => t.seq)).head?] ++ (List.range 8).map (fun ch => (openChanSeqs k ch).head?) ++
    [(k.spill.cmds.map (fun q => q.seq)).head?, (((openJournal k).filter (fun e => isIocWord e.word)).map (fun e => e.seq)).head?]).map
    (fun n => n.getD k.head)

/-- A journal entry's 32 bytes (R360). -/
def journalBytes (e : JEntry) : List Byte :=
  natBytes 4 (e.seq % 2 ^ 24 + (if e.guarded then 2 ^ 24 else 0) + (if e.done then 2 ^ 25 else 0) + (if e.perf then 2 ^ 26 else 0)) ++
  fields 4 [e.word.toNat] ++ fields 8 [e.opa.toNat, e.opb.toNat, e.res.toNat]

/-- The entry at a place of the journal. -/
def entryAt (k : Core) (i : Nat) : Option JEntry := k.journal.find? (fun e => decide (e.seq % 4096 = i))

/-- A register that waits for a copy of the `tcp` queue, which holds its number (R367, R392). -/
def Pend.ofTcp (p : Pend) : Bool := match p.src with | .tcp _ => true | _ => false

/-- The bitmap of pending registers; those of the `tcp` queue stand there (R250, R392). -/
def pendMap (k : Core) : Nat :=
  ((List.range 64).filter (fun r => k.pend.any (fun p => p.reg.toNat == r && !p.ofTcp))).foldl (fun m r => m + 2 ^ r) 0

def tintrOf (d : Debug) : Nat := (if d.pend then 256 else 0) + d.code.toNat

def semWord (m : Sem) : Nat := m.count.toNat + m.stampA.toNat * 2 ^ 16 + m.stampB.toNat * 2 ^ 32

def sdWords (d : SDesc) : List Nat := [d.q0.toNat, d.q1.toNat, d.q2.toNat, d.q3.toNat, d.pos.toNat, 0, 0, 0]
def nestWords (n : Nest) : List Nat := [n.cnt.toNat, n.sa.toNat, n.sb.toNat, n.sc.toNat]
def histBytes (h : Hist) : List Byte := fields 8 [h.base.toNat, h.lbl.toNat] ++ fields 4 (h.ctr.toList.map (fun v => v.toNat))
def keyBytes (k : SrKey) : List Byte := fields 4 [k.t.toNat, k.s.toNat] ++ fields 8 [k.base.toNat]

/-- The labels of vt, vm, ac, ss and CLBL (R367). -/
def stateLabels (x : XState) : List Label := x.vtl.toList ++ x.vml.toList ++ x.acl.toList ++ x.ss.toList.map (fun q => q.lbl) ++ [x.scan.clbl]

def tileBytes (t : Tile) : List Byte := fields 4 (t.map (fun v => v.toNat))

/-! The layouts inside these areas are the model's own: R367 gives only what each holds (log entry 8). -/

/-- The instruction that a strand's exemption is for: an engine strand's next; the C strand's, from a handler that at SPC (R106). -/
def exemptPc (k : Core) (st : Strand) : Word := if st = .C ∧ k.csr.inHandler then k.csr.spc else strandPc k st

/-- Strand s's exemptions from its watchpoints, at bits 8 s + 3 to 8 s, armed ones also at 8 s + 7 to 8 s + 4 (R106). -/
def exemptWord (k : Core) : Nat :=
  (k.wpx.filter (fun e => e.pc == exemptPc k e.strand)).foldl (fun m e =>
    let b := 8 * strandNo e.strand + e.wp.val
    let set (m i : Nat) : Nat := if bit m i then m else m + 2 ^ i
    if e.armed then set (set m b) (b + 4) else set m b) 0

/-- An engine strand's record: PC, stop state in the codes of R369, n0 to n15, lc0 to lc3. -/
def engBytes (st : StrandSt) (e : Eng) : List Byte :=
  fields 8 [e.pc.toNat, st.code] ++ fields 4 (e.n.toList.map (fun v => v.toNat) ++ e.lc.toList.map (fun v => v.toNat)) ++ List.replicate 32 0

/-- A ring: the configuration literal of R140 (0 while it is OFF), head, tail, F, P, H. -/
def ringBytes (q : Ring) : List Byte :=
  fields 8 [if q.on then q.baseU.toNat + q.esz.toNat * 2 ^ 16 + q.nent.toNat * 2 ^ 32 else 0] ++
    fields 4 [q.head, q.tail, q.f, q.p, q.h, 0]

/-- The index of each level of a nest at step t, innermost first (R152). -/
def nestIndex (n : Vector Nest 6) (t : Nat) : List Nat :=
  (n.toList.foldl (fun (a : Nat × List Nat) l => (a.1 / l.cnt.toNat, a.2 ++ [a.1 % l.cnt.toNat])) (t, [])).2

/-- The step that has these indices. -/
def nestStep (n : Vector Nest 6) (ix : List Nat) : Nat :=
  ((n.toList.zip ix).foldl (fun (a : Nat × Nat) p => (a.1 + p.2 * a.2, a.2 * p.1.cnt.toNat)) (0, 1)).1

/-- The matrix instruction under way: whether there is one, its word, PC and shape word, the ring positions and how many entries it
holds, the index vector of its next step, its copy of the nest (R164); then the hazard marks, M and N, 0 where there is none (R158). -/
def matBytes (k : Core) : List Byte :=
  (match k.matDue with
   | none => List.replicate 96 0
   | some m =>
     fields 4 [1, m.word.toNat] ++ fields 8 [m.pc.toNat] ++ fields 4 [m.shape.toNat] ++ fields 2 [m.posA, m.posB, m.ka, m.kb] ++
       natBytes 4 0 ++ fields 2 (nestIndex m.nest m.t) ++ natBytes 4 0 ++ fields 2 ((m.nest.toList.map nestWords).flatten)) ++
  fields 2 ((k.xs.hazard.toList.map (fun h : Option (Nat × Nat) => match h with | none => [0, 0] | some p => [p.1, p.2])).flatten)

/-- The scan control state (R198); CLBL stands with the labels. -/
def scanBytes (c : ScanCtl) : List Byte :=
  c.img ++ fields 1 [c.st.toNat, c.lcc.toNat, c.mlog.toNat, c.tb.toNat, c.rs.toNat, if c.segOn then 1 else 0, c.segIn.toNat, c.segOut.toNat] ++
    fields 2 [c.posI, c.posJ, c.swn.toNat]

/-- The drain mode and its record (R219). -/
def drainBytes (x : SState) : List Byte := fields 8 [x.dmode.toNat, x.rech.toNat, x.rtid.toNat, x.rd0.toNat, x.rbase.toNat]

/-- A copy of the `tcp` queue: its record's image, its unit, its record's address, the address and cause of an end that is not yet
reported, its journal number, the issuer's SYNC, its token register, flags (present, deadline lead reached, ended). -/
def tcpBytes (t : TcpCopy) : List Byte :=
  let e := t.copy.ended.getD (0, 0)
  t.copy.img ++ fields 8 [t.copy.unit, t.copy.addr.toNat, e.2.toNat] ++ fields 4 [t.seq] ++ fields 2 [t.copy.sync.toNat] ++
    fields 1 [t.reg.toNat, 1 + (if t.copy.late then 2 else 0) + (if t.copy.ended.isSome then 4 else 0), e.1.toNat] ++ List.replicate 31 0

/-- A channel that this task issued last: its record's image, unit, cursor, count, the issuer's SYNC, state, cause, flags (the channel is
this task's, a record is under way, its deadline lead is reached). -/
def chanBytes (ch : Option Chan) : List Byte :=
  match ch with
  | none => List.replicate 128 0
  | some q =>
    (match q.copy with | some p => p.img | none => List.replicate 64 0) ++
      fields 8 [(q.copy.map (fun p => p.unit)).getD 0, q.cursor.toNat] ++ fields 4 [q.count] ++ fields 2 [q.sync.toNat] ++
      fields 1 [q.st.code, q.cause.toNat, 1 + (if q.copy.isSome then 2 else 0) + (if q.copy.any (fun p => p.late) then 4 else 0)] ++
      List.replicate 39 0

/-- The areas of a task image. -/
def taskAreas (im : TaskImage) (drained : Bool) (now : Word) : List (Nat × List Byte) :=
  let k := im.core
  let r := k.csr
  [(0x00000, natBytes 8 (1 + k.id.jobid.toNat * 2 ^ 16 + im.slot.toNat * 2 ^ 28 + (if drained then 2 ^ 36 else 0))),
   (0x00008, natBytes 8 now.toNat),
   (0x00010, fields 8 [k.seq.pc.toNat, k.seq.n1.toNat, k.seq.n2.toNat] ++ natBytes 1 k.seq.ann.toNat),
   (0x00030, fields 4 [k.low, k.head]),
   (0x00038, fields 4 (queueLows im)),
   (0x00100, fields 8 (k.x.toList.map (fun v => v.toNat))),
   (0x00300, fields 2 (k.xl.toList.map (fun l => l.toNat))),
   (0x00380, fields 8 [r.stat.toNat, r.sstat.toNat, r.spc.toNat, r.snpc.toNat, r.sds.toNat, r.tvec.toNat, r.tcause.toNat, r.tval.toNat]),
   (0x003C0, fields 8 [r.ktid.toNat, r.kstep.toNat, r.hthresh.toNat, pendMap k, exemptWord k]),
   (0x003E8, natBytes 8 (tintrOf k.dbg)),
   (0x00400, engBytes k.st.l k.l ++ engBytes k.st.x k.xe ++ engBytes k.st.s k.s),
   (0x00580, fields 1 (k.tok.toList.map (fun v => v.toNat))),
   (0x00600, fields 8 ((k.atraps.map (fun t => [t.cause.toNat, t.tval.toNat])).flatten.take 32)),
   (0x00800, fields 8 (k.sems.toList.map semWord)),
   (0x01000, fields 8 ((k.ls.sd.toList.map sdWords).flatten)),
   (0x01800, (k.ls.rg.toList.map ringBytes).flatten),
   (0x01A00, fields 2 ((k.ls.nestA.toList.map nestWords).flatten ++ (k.ls.nestS.toList.map nestWords).flatten)),
   (0x01A60, matBytes k),
   (0x01B00, scanBytes k.xs.scan),
   (0x01B80, drainBytes k.ss),
   (0x01C00, (k.ss.hist.toList.map histBytes).flatten),
   (0x02800, ((k.ss.keys.take 64).map keyBytes).flatten),
   (0x02C00, fields 2 ([k.sync.toNat, k.id.phn.toNat] ++ k.seen.toList.map (fun v => v.toNat))),
   (0x02E00, fields 2 ((stateLabels k.xs).map (fun l => l.toNat))),
   (0x03000, ((k.tcps.take 8).map tcpBytes).flatten),
   (0x03400, (im.chans.toList.map chanBytes).flatten),
   (0x03800, (k.xs.vm.toList.map (fun m => natBytes 128 m.toNat)).flatten),
   (0x04000, (k.xs.vt.toList.map tileBytes).flatten),
   (0x24000, (k.xs.ac.toList.map tileBytes).flatten),
   (0x64000, (k.xs.ss.toList.map slotBytes).flatten),
   (0xE8400, ((List.range 4096).map (fun i => match entryAt k i with | some e => journalBytes e | none => natBytes 32 0)).flatten),
   (0x108400, fields 2 ((List.range 4096).map (fun i => match entryAt k i with | some e => e.reslbl.toNat | none => 0)))]

/-! ### A job image (R366) -/

/-- A flag's stamps: eight words (R245, R366). -/
def stampWords (f : Flag) : List Nat := (List.range 8).map (fun i =>
  match f.stamps[i]? with
  | some p => 2 ^ 31 + p.2.toNat * 2 ^ 8 + p.1.toNat
  | none => 0)

/-- The state word of a program, in the layout of `coll.poll` (R328). -/
def collState (p : Coll) : Nat :=
  p.st.code + p.cause.toNat * 2 ^ 8 + p.silent.toNat * 2 ^ 16 + (if p.st = .run then p.step else p.rstep) % 1024 * 2 ^ 24

def collRecord (p : Coll) : List Byte := fields 8 [p.handle.toNat, collState p, 0, 0]

/-- The current level: that of the tasks' domains (R19, R21). -/
def levelNow (j : Job) : Nat := if j.split then 2 else j.hdr.level.toNat

def jobAreas (j : Job) (left : Nat) (recs : List Coll) : List (Nat × List Byte) :=
  [(0x0000, fields 2 [1, j.id.toNat]),
   (0x0004, fields 1 [2 * j.hdr.ncl, levelNow j + (if j.split then 4 else 0)]),
   (0x0008, natBytes 4 left),
   (0x000C, natBytes 2 j.spent.toNat),
   (0x0020, fields 4 (j.phases.top.toNat :: j.phases.die.toList.map (fun n => n.toNat))),
   (0x0100, ((recs.take 8).map collRecord).flatten),
   (0x0400, fields 4 (j.flags.toList.map (fun f => f.val.toNat))),
   (0x0800, fields 4 ((j.flags.toList.map stampWords).flatten)),
   (0x2800, fields 2 ((List.range 4096).map (fun n => (j.chunk n).1.toNat)))]

/-! ### Saving -/

/-- The author of the IOC's own writes for a job. -/
def iocAuthor (j : Job) : Author := { kind := Config.iocKind, clu := 0, slot := 0, job := j.id.toNat }

/-- The byte address of a job's range (R365). -/
def areaBase (q : Part) (a : Nat × Nat) : Nat := q.csbase.toNat + a.1 * 2 ^ 16

/-- One task image written. -/
def saveTask (j : Job) (base : Nat) (drained : Bool) (im : TaskImage) (s : State) : State :=
  (physWrite (iocAuthor j) 0 (base + jobImageSize + im.slot.toNat * taskImageSize) (assemble taskImageSize 0 (taskAreas im drained s.time)) s).2

/-- The job image and its task images written at the range. -/
def saveImages (j : Job) (base left : Nat) (drained : Bool) (imgs : List TaskImage) (s : State) : State :=
  let recs := s.colls.filter (fun p => p.job == j.id)
  let s1 := (physWrite (iocAuthor j) 0 base (assemble jobImageSize 0 (jobAreas j left recs)) s).2
  imgs.foldl (fun (s : State) im => saveTask j base drained im s) s1

/-! ### Restoring (R368) -/

/-- The offset of the first check that fails. -/
def firstBad (l : List (Nat × Bool)) : Option Nat := (l.find? (fun p => !p.2)).map (fun p => p.1)

/-- Fields of an array, each with its own test. -/
def checkEach (off n : Nat) (l : List Nat) (ok : Nat → Bool) : List (Nat × Bool) := l.zipIdx.map (fun p => (off + n * p.2, ok p.1))

def isLabel (v : Nat) : Bool := decide (v < 1024)

/-- A run of bytes that is not listed. -/
def zeroRun (b : List Byte) (off stop : Nat) : List (Nat × Bool) := [(off, ((b.drop off).take (stop - off)).all (fun x => x == 0))]

/-- The records of an area: k of n bytes each, with their offsets. -/
def recordsAt (b : List Byte) (off n k : Nat) : List (Nat × List Byte) :=
  (groups n k (b.drop off)).zipIdx.map (fun p => (off + n * p.2, p.1))

/-- Every record of an area passes its checks. -/
def checkRecords (b : List Byte) (off n k : Nat) (ok : List Byte → Bool) : List (Nat × Bool) := (recordsAt b off n k).map (fun p => (p.1, ok p.2))

def allZero (b : List Byte) : Bool := b.all (fun x => x == 0)

/-- An engine strand's record (R133, R369). -/
def engOk (g : List Byte) : Bool := addrOk (wd (bytesAt g 0 8)) && decide (bytesAt g 8 8 ≤ 5) && allZero (g.drop 96)

/-- A descriptor (R136): reserved bits, and the limits of R138 on the fields that `sd.fmt` writes; a format alone is what `sd.base` sets
before it (R139). -/
def sdOk (g : List Byte) : Bool :=
  let v := bytesAt g 8 8
  let d : SDesc := { SDesc.reset with q1 := wd v }
  decide (bytesAt g 0 8 < 2 ^ 53) && allZero (g.drop 36) && decide (bits v 6 2 = 0) && decide (d.w ≠ 0) &&
    (fmtQuant d.fmt == decide (d.gsz ≠ 0)) &&
    (decide (v < 2 ^ 8) ||
      (decide (bits v 26 6 = 0) && decide (1 ≤ d.brows) && decide (d.brows ≤ 128) && decide (1 ≤ d.bcols) && decide (d.bcols ≤ 512) &&
        decide (d.ncb ≠ 0)))

/-- A combine image (R189, R199): none, or one that `scan.cfg` accepts. -/
def scanImgOk (g : List Byte) : Bool := allZero g || (parseImg g).isSome

/-- A ring (R140, R141). -/
def ringOk (g : List Byte) : Bool :=
  let v := bytesAt g 0 8
  let nent := bits v 32 10
  let n (i : Nat) : Nat := bytesAt g (8 + 4 * i) 4
  allZero (g.drop 28) &&
  (allZero g ||
    (decide (bits v 26 6 = 0) && decide (bits v 42 22 = 0) && decide (bits v 16 10 ≠ 0) && decide (nent ≠ 0) &&
      decide (64 * (bits v 0 16 + bits v 16 10 * nent) ≤ 2 ^ 22) && decide (n 0 < nent) && decide (n 1 < nent) &&
      decide (n 2 + n 3 ≤ nent) && decide (n 4 ≤ n 2)))

/-- The matrix record (R164). -/
def matOk (g : List Byte) : Bool :=
  allZero (g.take 96) ||
    (decide (bytesAt g 0 4 = 1) && addrOk (wd (bytesAt g 8 8)) && decide (bytesAt g 28 4 = 0) && decide (bytesAt g 44 4 = 0) &&
      (List.range 6).all (fun i => decide (bytesAt g (48 + 8 * i) 2 ≠ 0) && decide (bytesAt g (32 + 2 * i) 2 < bytesAt g (48 + 8 * i) 2)))

/-- A hazard mark: a shape of R150, or none. -/
def hazardOk (g : List Byte) : Bool :=
  let ok (v : Nat) : Bool := decide (v % 16 = 0) && decide (v ≤ 128)
  allZero g || (ok (bytesAt g 0 2) && ok (bytesAt g 2 2) && decide (bytesAt g 0 2 ≠ 0) && decide (bytesAt g 2 2 ≠ 0))

/-- The scan control state after its image (R198). -/
def scanOk (g : List Byte) : Bool :=
  (((g.take 8).map (fun x => x.toNat)).zip [3, 16, 8, 16, 16, 2, 8, 8]).all (fun p => decide (p.1 < p.2)) &&
    decide (bytesAt g 8 2 < 2 ^ 12) && decide (bytesAt g 10 2 < 2 ^ 7) && allZero (g.drop 14)

/-- A copy of the `tcp` queue. -/
def tcpOk (g : List Byte) : Bool :=
  allZero g || (decide (bytesAt g 94 1 < 64) && decide (bytesAt g 95 1 % 2 = 1) && decide (bytesAt g 95 1 < 8) && allZero (g.drop 97))

/-- A channel (R119). -/
def chanOk (g : List Byte) : Bool :=
  allZero g || (decide (bytesAt g 86 1 ≤ 4) && decide (bytesAt g 88 1 % 2 = 1) && decide (bytesAt g 88 1 < 8) && allZero (g.drop 89))

/-- A journal entry at its place: reserved bits (R360). -/
def entryOk (g : List Byte) : Bool := decide (bytesAt g 0 4 < 2 ^ 27)

/-- The header and reserved fields of a task image against their limits; SSTAT, SPC, SNPC and SDS are left to `tret`. -/
def taskChecks (b : List Byte) (job : JobId) (slot : BitVec 8) : List (Nat × Bool) :=
  let hd := bytesAt b 0 8
  let csr (i : Nat) : Word := wd (bytesAt b (0x380 + 8 * i) 8)
  let w (off : Nat) : Word := wd (bytesAt b off 8)
  let low := bytesAt b 0x30 4
  let head := bytesAt b 0x34 4
  [(0x0, decide (bits hd 0 16 = 1)), (0x2, decide (bits hd 16 12 = job.toNat)), (0x3, decide (bits hd 28 8 = slot.toNat)), (0x4, decide (bits hd 37 27 = 0)),
   (0x10, addrOk (w 0x10)), (0x18, addrOk (w 0x18)), (0x20, addrOk (w 0x20)), (0x28, decide (bytesAt b 0x28 1 ≤ 2))] ++
  zeroRun b 0x29 0x30 ++ [(0x30, decide ((head + 2 ^ 32 - low) % 2 ^ 32 ≤ 4096))] ++ zeroRun b 0x64 0x100 ++
  checkEach 0x300 2 (fieldsAt b 0x300 2 64) isLabel ++
  [(0x380, statOk (csr 0)), (0x3A8, addrOk (csr 5)), (0x3B0, tcauseOk (csr 6)), (0x3C0, low32Ok (w 0x3C0)), (0x3C8, low32Ok (w 0x3C8)),
   (0x3D0, hthreshOk (w 0x3D0)), (0x3E0, low32Ok (w 0x3E0)), (0x3E8, decide (bytesAt b 0x3E8 8 < 512))] ++
  zeroRun b 0x3F0 0x400 ++ checkRecords b 0x400 128 3 engOk ++
  [(0x580, [0, 5, 10, 15].all (fun q => decide (bytesAt b (0x580 + q) 1 = 0)))] ++ zeroRun b 0x590 0x600 ++
  checkRecords b 0x600 16 16 (fun g => tcauseOk (wd (bytesAt g 0 8))) ++ zeroRun b 0x700 0x800 ++
  checkEach 0x800 8 (fieldsAt b 0x800 8 64) (fun v => decide (v < 2 ^ 48)) ++ zeroRun b 0xA00 0x1000 ++
  checkRecords b 0x1000 64 32 sdOk ++ checkRecords b 0x1800 32 16 ringOk ++
  checkRecords b 0x1A00 8 12 (fun g => decide (bytesAt g 0 2 ≠ 0)) ++ checkRecords b 0x1A60 96 1 matOk ++
  checkRecords b 0x1AC0 4 4 hazardOk ++ zeroRun b 0x1AD0 0x1B00 ++ checkRecords b 0x1B00 64 1 scanImgOk ++
  checkRecords b 0x1B40 64 1 scanOk ++
  [(0x1B80, modeOk (bytesAt b 0x1B80 8) (bytesAt b 0x1B88 8)), (0x1B90, low32Ok (w 0x1B90)), (0x1B98, low32Ok (w 0x1B98)),
   (0x1BA0, decide (bytesAt b 0x1BA0 8 < 2 ^ 52))] ++ zeroRun b 0x1BA8 0x1C00 ++
  checkRecords b 0x1C00 144 16 (fun g => low32Ok (wd (bytesAt g 0 8)) && isLabel (bytesAt g 8 8)) ++ zeroRun b 0x2500 0x2800 ++
  zeroRun b 0x2DC4 0x2E00 ++ checkEach 0x2E00 2 (fieldsAt b 0x2E00 2 61) isLabel ++ zeroRun b 0x2E7A 0x3000 ++
  checkRecords b 0x3000 128 8 tcpOk ++ checkRecords b 0x3400 128 8 chanOk ++
  (List.range 16).map (fun i => (0x64000 + 33856 * i + 33793, decide (bytesAt b (0x64000 + 33856 * i + 33793) 63 = 0))) ++
  checkRecords b 0xE8400 32 4096 entryOk ++ checkEach 0x108400 2 (fieldsAt b 0x108400 2 4096) isLabel ++ zeroRun b 0x10A400 0x110000

/-- A collective record (R328, R366): the `coll.poll` layout, and nothing after it. -/
def collOk (g : List Byte) : Bool :=
  let v := bytesAt g 8 8
  decide (bytesAt g 0 8 < 2 ^ 52) && decide (bits v 0 8 ≤ 5) && !bit v 23 && decide (v < 2 ^ 34) && allZero (g.drop 16)

def jobChecks (b : List Byte) (j : Job) : List (Nat × Bool) :=
  [(0x0, decide (bytesAt b 0 2 = 1)), (0x2, decide (bytesAt b 2 2 = j.id.toNat)), (0x4, decide (bytesAt b 4 1 = 2 * j.hdr.ncl)),
   (0x5, decide (bytesAt b 5 1 < 8))] ++ zeroRun b 0x6 0x8 ++ zeroRun b 0xE 0x20 ++ zeroRun b 0x34 0x100 ++
  checkRecords b 0x100 32 8 collOk ++ zeroRun b 0x200 0x400 ++
  checkEach 0x800 4 (fieldsAt b 0x800 4 2048) (fun v => decide (bits v 24 7 = 0)) ++ zeroRun b 0x4800 0x10000

/-- The journal entry with a number, read back from its place. -/
def restoreEntry (b : List Byte) (seq : Nat) : JEntry :=
  let o := 0xE8400 + 32 * (seq % 4096)
  let h := bytesAt b o 4
  { seq := seq, guarded := bit h 24, done := bit h 25, perf := bit h 26, word := BitVec.ofNat 32 (bytesAt b (o + 4) 4),
    opa := wd (bytesAt b (o + 8) 8), opb := wd (bytesAt b (o + 16) 8), res := wd (bytesAt b (o + 24) 8),
    reslbl := BitVec.ofNat 10 (bytesAt b (0x108400 + 2 * (seq % 4096)) 2) }

/-- The journal read back: the last numbers below HEAD, newest first, as many as the task had; the thresholds that its `rep.go` commands
latched have no place in the image (R364, log entry 8). -/
def restoreJournal (b : List Byte) (head : Nat) (l : List JEntry) : List JEntry :=
  (List.range l.length).map (fun i =>
    let e := restoreEntry b ((head + 2 ^ 32 - 1 - i) % 2 ^ 32)
    { e with thr := ((l.find? (fun o => o.seq == e.seq)).map (fun o => o.thr)).getD 0 })

def restoreSem (v : Nat) (m : Sem) : Sem :=
  { m with count := BitVec.ofNat 16 v, stampA := BitVec.ofNat 16 (v / 2 ^ 16), stampB := BitVec.ofNat 16 (v / 2 ^ 32) }

def restoreSd (g : List Nat) : SDesc :=
  { q0 := wd (g.getD 0 0), q1 := wd (g.getD 1 0), q2 := wd (g.getD 2 0), q3 := wd (g.getD 3 0), pos := BitVec.ofNat 32 (g.getD 4 0) }

def restoreNest (g : List Nat) : Nest :=
  { cnt := BitVec.ofNat 16 (g.getD 0 0), sa := BitVec.ofNat 16 (g.getD 1 0), sb := BitVec.ofNat 16 (g.getD 2 0), sc := BitVec.ofNat 16 (g.getD 3 0) }

def restoreHist (g : List Byte) : Hist :=
  { base := BitVec.ofNat 32 (bytesAt g 0 8), ctr := vecOf 0 ((fieldsAt g 16 4 32).map (BitVec.ofNat 32)), lbl := BitVec.ofNat 10 (bytesAt g 8 8) }

def restoreKey (g : List Byte) : SrKey :=
  { t := BitVec.ofNat 32 (bytesAt g 0 4), s := BitVec.ofNat 32 (bytesAt g 4 4), base := wd (bytesAt g 8 8) }

/-- Tiles of n containers read back. -/
def restoreTiles (b : List Byte) (off n k : Nat) : List Tile := groups n k ((fieldsAt b off 4 (n * k)).map (BitVec.ofNat 32))

/-- The trap queue read back: the entries that were saved. -/
def restoreTraps (l : List ATrap) (b : List Byte) : List ATrap :=
  l.zipIdx.map (fun p => { p.1 with cause := wd (bytesAt b (0x600 + 16 * p.2) 8), tval := wd (bytesAt b (0x608 + 16 * p.2) 8) })

def restoreHazard (g : List Nat) : Option (Nat × Nat) := if g.getD 0 0 = 0 then none else some (g.getD 0 0, g.getD 1 0)

def restoreScan (b : List Byte) (clbl : Label) : ScanCtl :=
  let n (i : Nat) : Nat := bytesAt b (0x1B40 + i) 1
  { st := BitVec.ofNat 2 (n 0), img := (b.drop 0x1B00).take 64, lcc := BitVec.ofNat 4 (n 1), mlog := BitVec.ofNat 3 (n 2),
    tb := BitVec.ofNat 4 (n 3), rs := BitVec.ofNat 4 (n 4), segOn := decide (n 5 = 1), segIn := BitVec.ofNat 3 (n 6),
    segOut := BitVec.ofNat 3 (n 7), posI := bytesAt b 0x1B48 2, posJ := bytesAt b 0x1B4A 2, swn := BitVec.ofNat 16 (bytesAt b 0x1B4C 2),
    clbl := clbl }

/-- The vector, matrix and scan state read back. -/
def restoreX (b : List Byte) (x : XState) : XState :=
  let lb : List Label := (fieldsAt b 0x2E00 2 61).map (BitVec.ofNat 10)
  { x with
    vt := vecOf [] (restoreTiles b 0x4000 1024 32), vtl := vecOf 0 lb,
    vm := vecOf 0 ((fieldsAt b 0x3800 128 8).map (BitVec.ofNat 1024)), vml := vecOf 0 (lb.drop 32),
    ac := vecOf [] (restoreTiles b 0x24000 16384 4), acl := vecOf 0 (lb.drop 40),
    ss := Vector.ofFn (fun i : Fin 16 => slotOfBytes ((b.drop (0x64000 + 33856 * i.val)).take 33856) (lb.getD (44 + i.val) 0)),
    hazard := vecOf none ((groups 2 4 (fieldsAt b 0x1AC0 2 8)).map restoreHazard), scan := restoreScan b (lb.getD 60 0) }

/-- The strand states of R369's codes. -/
def strandStOf (v : Nat) : StrandSt :=
  match v with
  | 1 => .issuing | 2 => .waiting | 3 => .stoppedTrap | 4 => .retired | 5 => .stoppedPre | _ => .notStarted

def restoreEng (b : List Byte) (off : Nat) : Eng :=
  { pc := wd (bytesAt b off 8), n := vecOf 0 ((fieldsAt b (off + 16) 4 16).map (BitVec.ofNat 32)),
    lc := vecOf 0 ((fieldsAt b (off + 80) 4 4).map (BitVec.ofNat 32)) }

def restoreRing (g : List Byte) : Ring :=
  let v := bytesAt g 0 8
  { on := decide (v ≠ 0), baseU := BitVec.ofNat 16 v, esz := BitVec.ofNat 10 (bits v 16 10), nent := BitVec.ofNat 10 (bits v 32 10),
    head := bytesAt g 8 4, tail := bytesAt g 12 4, f := bytesAt g 16 4, p := bytesAt g 20 4, h := bytesAt g 24 4 }

/-- The matrix instruction under way read back: it goes on with the step, entries, shape and nest recorded (R164). -/
def restoreMat (b : List Byte) (f : Flight) : Flight :=
  let g := b.drop 0x1A60
  match f.rest with
  | .matrix m =>
    let nest : Vector Nest 6 := vecOf Nest.reset ((groups 4 6 (fieldsAt g 48 2 24)).map restoreNest)
    { f with rest := .matrix { m with
        word := BitVec.ofNat 32 (bytesAt g 4 4), pc := wd (bytesAt g 8 8), shape := BitVec.ofNat 32 (bytesAt g 16 4), posA := bytesAt g 20 2,
        posB := bytesAt g 22 2, ka := bytesAt g 24 2, kb := bytesAt g 26 2, nest := nest, t := nestStep nest (fieldsAt g 32 2 6) } }
  | _ => f

/-- A copy read back: its layout records are read again before its next unit (R119, log entry 8). -/
def restoreCopy (g : List Byte) (addr : Word) (unit : Nat) (late : Bool) (sync : Nat) : Copy :=
  { Copy.fresh (g.take 64) addr (BitVec.ofNat 16 sync) with unit := unit, late := late }

def restoreTcp (g : List Byte) : TcpCopy :=
  let fl := bytesAt g 95 1
  { reg := BitVec.ofNat 6 (bytesAt g 94 1), seq := bytesAt g 88 4,
    copy := { restoreCopy g (wd (bytesAt g 72 8)) (bytesAt g 64 8) (bit fl 1) (bytesAt g 92 2) with
      ended := if bit fl 2 then some (BitVec.ofNat 8 (bytesAt g 96 1), wd (bytesAt g 80 8)) else none } }

def chanStOf (v : Nat) : ChanSt := match v with | 1 => .run | 2 => .fault | 3 => .error | 4 => .aborting | _ => .idle

/-- A channel of the task's, read back; the core that it comes to is put in as the issuer, and its commands come from the journals. -/
def restoreChan (g : List Byte) : Option Chan :=
  let fl := bytesAt g 88 1
  if !bit fl 0 then none
  else
    let cursor := wd (bytesAt g 72 8)
    some { st := chanStOf (bytesAt g 86 1), cause := BitVec.ofNat 8 (bytesAt g 87 1), cursor := cursor, count := bytesAt g 80 4, issuer := none,
           seqs := [], sync := BitVec.ofNat 16 (bytesAt g 84 2),
           copy := if bit fl 1 then some (restoreCopy g cursor (bytesAt g 64 8) (bit fl 2) (bytesAt g 84 2)) else none }

/-- A task's exemptions read back (R106). One of the C strand that is not armed yet is for the instruction whose handler runs. -/
def restoreExempt (v : Nat) (k : Core) : List WpExempt :=
  [Strand.C, .L, .X, .S].flatMap (fun st => (List.finRange 4).filterMap (fun i =>
    let b := 8 * strandNo st + i.val
    if bit v b then some { strand := st, wp := i, pc := exemptPc k st, armed := bit v (b + 4), depth := k.handlers.length - 1 } else none))

/-- The spills and fills that are not complete: they are issued again, whole, from OPA (R364). -/
def restoreSpills (k : Core) : List SpillCmd :=
  let again (e : JEntry) (n : BitVec 4) (fill : Bool) : SpillCmd :=
    { slot := n, was := k.xs.slot n, addr := e.opa, fill := fill, seq := e.seq, sync := k.sync, got := none }
  (openJournal k).filterMap (fun e =>
    match decode .C e.word with
    | .ok (.ssSpill _ n) => some (again e n false)
    | .ok (.ssFill _ n) => some (again e n true)
    | _ => none)

/-- A task's registers, counts and tables read back from its image. -/
def restoreRegs (b : List Byte) (k : Core) : Core :=
  let w (off : Nat) : Word := wd (bytesAt b off 8)
  let sy := fieldsAt b 0x2C00 2 226
  let ns := groups 4 12 (fieldsAt b 0x1A00 2 48)
  let pm := bytesAt b 0x3D8 8
  let eng (i : Nat) : Nat := 0x400 + 128 * i
  let st (i : Nat) : StrandSt := strandStOf (bytesAt b (eng i + 8) 8)
  let head := bytesAt b 0x34 4
  { k with
    seq := { k.seq with pc := w 0x10, n1 := w 0x18, n2 := w 0x20, ann := BitVec.ofNat 2 (bytesAt b 0x28 1) },
    low := bytesAt b 0x30 4, head := head, journal := restoreJournal b head k.journal,
    x := vecOf 0 ((fieldsAt b 0x100 8 64).map wd), xl := vecOf 0 ((fieldsAt b 0x300 2 64).map (BitVec.ofNat 10)),
    pend := k.pend.filter (fun p => p.ofTcp || bit pm p.reg.toNat),
    csr := { stat := w 0x380, sstat := w 0x388, spc := w 0x390, snpc := w 0x398, sds := w 0x3A0, tvec := w 0x3A8, tcause := w 0x3B0,
             tval := w 0x3B8, ktid := BitVec.ofNat 32 (bytesAt b 0x3C0 8), kstep := BitVec.ofNat 32 (bytesAt b 0x3C8 8),
             hthresh := BitVec.ofNat 32 (bytesAt b 0x3D0 8) },
    dbg := { k.dbg with pend := bit (bytesAt b 0x3E8 8) 8, code := BitVec.ofNat 8 (bytesAt b 0x3E8 1) },
    st := { k.st with l := st 0, x := st 1, s := st 2 }, l := restoreEng b (eng 0), xe := restoreEng b (eng 1), s := restoreEng b (eng 2),
    tok := vecOf 0 ((fieldsAt b 0x580 1 16).map (BitVec.ofNat 8)),
    atraps := restoreTraps k.atraps b,
    sems := Vector.ofFn (fun i : Fin 64 => restoreSem (bytesAt b (0x800 + 8 * i.val) 8) (rd k.sems i)),
    ls := { sd := vecOf SDesc.reset ((groups 8 32 (fieldsAt b 0x1000 8 256)).map restoreSd),
            rg := vecOf Ring.reset ((groups 32 16 (b.drop 0x1800)).map restoreRing),
            nestA := vecOf Nest.reset (ns.map restoreNest), nestS := vecOf Nest.reset ((ns.drop 6).map restoreNest) },
    ss := { dmode := w 0x1B80, rech := w 0x1B88, rtid := BitVec.ofNat 32 (bytesAt b 0x1B90 8), rd0 := BitVec.ofNat 32 (bytesAt b 0x1B98 8),
            rbase := w 0x1BA0, hist := vecOf Hist.reset ((groups 144 16 (b.drop 0x1C00)).map restoreHist),
            keys := (groups 16 k.ss.keys.length (b.drop 0x2800)).map restoreKey },
    sync := BitVec.ofNat 16 (sy.getD 0 0), id := { k.id with phn := BitVec.ofNat 16 (sy.getD 1 0) },
    seen := vecOf 0 ((sy.drop 2).map (BitVec.ofNat 16)),
    xs := restoreX b k.xs,
    tcps := ((groups 128 8 (b.drop 0x3000)).filter (fun g => bit (bytesAt g 95 1) 0)).map restoreTcp,
    flights := k.flights.map (restoreMat b) }

/-- A task read back from its image: what the image holds comes from it, the rest from the task's copy (log entry 8). -/
def restoreCore (b : List Byte) (k : Core) : Core :=
  let k1 := restoreRegs b k
  { k1 with wpx := restoreExempt (bytesAt b 0x3E0 8) k1 ++ k.wpx.filter (fun e => e.pc != exemptPc k e.strand),
            spill := { cmds := restoreSpills k1, held := k1.atraps.any (fun t => t.src == .spill) } }

/-- A task's channels read back. -/
def restoreTaskChans (b : List Byte) : Vector (Option Chan) 8 := vecOf none ((groups 128 8 (b.drop 0x3400)).map restoreChan)

/-- A flag read back. -/
def restoreFlag (v : Nat) (st : List Nat) (f : Flag) : Flag :=
  { f with val := BitVec.ofNat 32 v,
           stamps := (st.filter (fun w => bit w 31)).map (fun w => (BitVec.ofNat 8 w, BitVec.ofNat 16 (w / 2 ^ 8))) }

/-- A job read back from its image. -/
def restoreJob (b : List Byte) (j : Job) : Job :=
  let vals := fieldsAt b 0x400 4 256
  let sts := groups 8 256 (fieldsAt b 0x800 4 2048)
  let ph := (fieldsAt b 0x20 4 5).map (BitVec.ofNat 32)
  let j1 : Job := { j with
    split := bit (bytesAt b 5 1) 2, est := BitVec.ofNat 32 (bytesAt b 8 4),
    phases := { top := ph.getD 0 0, die := vecOf 0 (ph.drop 1) },
    flags := Vector.ofFn (fun i : Fin 256 => restoreFlag (vals.getD i.val 0) (sts.getD i.val []) (rd j.flags i)) }
  (fieldsAt b 0x2800 2 4096).zipIdx.foldl (fun (j : Job) p => j.setChunk p.2 (BitVec.ofNat 16 p.1, (j.chunk p.2).2)) j1

/-- The states of R328's codes. -/
def collStOf (v : Nat) : CollSt := match v with | 1 => .run | 2 => .done | 3 => .aborted | 4 => .error | _ => .aborting

/-- A job's collective records read back, in the order in which they were saved (R328, R366). -/
def restoreColls (b : List Byte) (j : JobId) (s : State) : State :=
  let recs := (s.colls.filter (fun p => p.job == j)).take 8
  let put (p : Coll × Nat) : Coll :=
    let v := bytesAt b (0x108 + 32 * p.2) 8
    { p.1 with handle := wd (bytesAt b (0x100 + 32 * p.2) 8), st := collStOf (bits v 0 3), cause := BitVec.ofNat 8 (bits v 8 8),
               silent := BitVec.ofNat 7 (bits v 16 7), rstep := bits v 24 10 }
  { s with colls := s.colls.filter (fun p => p.job != j) ++ recs.zipIdx.map put }

/-- Why a restore fails: the task slot, its PC, and the offset of the bad field in its image. -/
structure BadImage where
  slot : BitVec 8
  pc : Word
  off : Nat
  deriving DecidableEq, Repr

/-- What a restore answers: the job read back, the bytes of the job image. -/
structure Restored where
  job : Job
  head : List Byte
  bad : Option BadImage
  poison : Bool
  deriving DecidableEq, Repr

/-- The images read at a range: every task checked, then read back. -/
def readImages (j : Job) (base : Nat) : SM Restored := do
  let g ← physRead base jobImageSize
  let bad0 : Option BadImage := (firstBad (jobChecks g.bytes j)).map (fun o => { slot := 0, pc := 0, off := o })
  j.images.foldlM (fun (acc : Restored) im => do
    let t ← physRead (base + jobImageSize + im.slot.toNat * taskImageSize) taskImageSize
    let bad : Option BadImage := (firstBad (taskChecks t.bytes j.id im.slot)).map (fun o => { slot := im.slot, pc := im.core.seq.pc, off := o })
    let im1 : TaskImage := { im with core := restoreCore t.bytes im.core, chans := restoreTaskChans t.bytes }
    return { acc with
             job := { acc.job with images := acc.job.images ++ [im1] },
             bad := match acc.bad with | some x => some x | none => bad, poison := acc.poison || t.poison })
    { job := { restoreJob g.bytes j with images := [] }, head := g.bytes, bad := bad0, poison := g.poison }

/-- A restore that fails: FTREC takes CODE STATUS and the offset, unless one is latched; the job is to be killed (R352, R368). -/
def badRestore (j : Job) (x : BadImage) (s : State) : State :=
  let ft (q : Part) : Part :=
    if bit q.ftrec0.toNat 63 then q
    else { q with ftrec0 := wd (2 ^ 63 + j.id.toNat * 2 ^ 32 + x.slot.toNat * 2 ^ 24 + cSTATUS), ftrec1 := wd x.off, ftrec2 := wd (pcField x.pc) }
  (s.updPart j.pid ft).updJob j.id (fun k => { k with killDue := true })

end Sys2Proof.Machine
end

