-- ==== Sys2Proof/Machine/Repair.lean ====
section
/-! DEFINITION. Splicing and the repair engine (R285 to R299, R303, R413), and the end of a guarded wait (R301). -/

namespace Sys2Proof.Machine

/-! ### Contexts as the engine keeps them (R285) -/

/-- The state that STATE shows; 5 to 7 name none. -/
def RepSt.ofCode (n : Nat) : Option RepSt :=
  match n with
  | 0 => some .idle | 1 => some .spliced | 2 => some .check | 3 => some .repair | 4 => some .error | _ => none

/-- A limit of R285 is broken or a reserved bit is set. -/
def ctBad (d : List Byte) : Bool :=
  let es := if ctElf d = 0 then 4 else 2
  decide (2 ^ 52 ≤ bytesAt d 0 8) || decide (ctTbl d % 32 ≠ 0) || decide (ctCap d = 0) || decide (ctCap d < ctNb d) ||
  decide (ctNl d = 0) || decide (ctKchk d = 0) || decide (ctNl d < ctKchk d) || decide (2 < ctElf d) ||
  decide (bits (bytesAt d 14 2) 5 11 ≠ 0) || decide (ctLstr d % 64 ≠ 0) || decide (ctLstr d < ctLbytes d) ||
  decide (ctLbytes d = 0) || decide (ctLbytes d % 64 ≠ 0) || decide (ctLbytes d / 64 % es ≠ 0) ||
  decide (2 ^ 56 ≤ bytesAt d 32 8) || decide (ctWr d % 32 ≠ 0) || decide (ctWlog d < 4) || decide (12 < ctWlog d) ||
  decide (2 ^ 52 ≤ bytesAt d 40 8) || decide (ctChk d % 64 ≠ 0) || ctSsl d 0 ||
  decide (2 ^ (ctNl d + 1) ≤ bytesAt d 48 32) || decide (bytesAt d 92 36 ≠ 0) ||
  decide (4 < bytesAt d 80 8 % 8) || decide (bits (bytesAt d 80 8) 11 1 ≠ 0)

/-- A context whose descriptor the engine has not seen, in the state that STATE shows. -/
def Rep.fresh (addr : Word) (asid : BitVec 16) (vd : BitVec 3) (pid : PartId) (d : List Byte) (st : RepSt) (c : CoreId) : Rep :=
  { addr := addr, asid := asid, vd := vd, pid := pid, desc := d, st := st, code := 0, ownjob := 0, core := c, owner := none, thr := 0x7F800000,
    round := 0, flagged := 0, stales := 0, blks := [], todo := [], items := [], nextSlot := 0 }

/-- Where a context of an address space stands in the engine's list. -/
def repIdx (s : State) (pid : PartId) (vd : BitVec 3) (asid : BitVec 16) (addr : Word) : Option Nat :=
  s.reps.findIdx? (fun r => r.addr == addr && r.pid == pid && r.vd == vd && r.asid == asid)

/-! ### Entries of a table or a list (R286, R287) -/

/-- The entry with POS set, PEND := 1, LVL := 0 (R290). -/
def REnt.moved (e : REnt) (pos : Nat) : REnt :=
  { e with b := overlay (overlay (overlay e.b 0 (natBytes 8 (setBits e.w0 53 1 1))) 8 (natBytes 4 (pos % 2 ^ 32))) 28 [0] }

/-- Entries in order whose POS run without gaps from a position. -/
def tableFails (nl : Nat) : Nat → List REnt → Bool
  | _, [] => false
  | pos, e :: es => e.fails pos nl || tableFails nl ((pos + e.ntok) % 2 ^ 32) es

/-- The end position (R286). -/
def endPos (es : List REnt) : Nat := (es.map REnt.ntok).sum % 2 ^ 32

/-- The pending entries as the engine holds them. -/
def pendingOf (es : List REnt) : List RepBlk :=
  (es.zipIdx).filterMap (fun p =>
    if p.1.pend then some { idx := p.2, addr := p.1.addr, ntok := p.1.ntok, pos := p.1.pos, lvl := p.1.lvl, mask := 0 } else none)

/-- Every sector of a guarded region is pulled from every L1 and stash (R300). Pages without a translation hold none. -/
def pullRegion (r : Rep) (va n : Nat) (s : State) : State :=
  (pageRange va n).foldl (fun (s : State) vp =>
    match onePage (repWho r) vp .read s with
    | (.error _, s1) => s1
    | (.ok p, s1) => (pieces [p] (max va (vp * 4096)) (min (va + n) (vp * 4096 + 4096) - max va (vp * 4096))).foldl
        (fun (s : State) q => claim none q.sector s) s1) s

/-- The guards of a context's pending blocks (R300). -/
def installGuards (r : Rep) (s : State) : State :=
  r.blks.foldl (fun (s : State) b =>
    (List.range (ctNl r.desc - b.lvl)).foldl (fun (s : State) i =>
      pullRegion r (b.addr + (b.lvl + i) * ctLstr r.desc) (ctLbytes r.desc) s) s) s

/-- The pages of a context's guarded regions as they translate (R300). -/
def guardPages (r : Rep) : SM (List (Nat × Nat)) := fun s =>
  let vps := (r.blks.flatMap (fun b => (List.range (ctNl r.desc - b.lvl)).flatMap (fun i =>
    pageRange (b.addr + (b.lvl + i) * ctLstr r.desc) (ctLbytes r.desc)))).eraseDups
  vps.foldl (fun (a : List (Nat × Nat) × State) vp =>
    match onePage (repWho r) vp .read a.2 with
    | (.ok p, s1) => (a.1 ++ [(vp, p.ppage)], s1)
    | (.error _, s1) => (a.1, s1)) ([], s)

/-! ### Items (R293) -/

/-- An item's 32 bytes. -/
def itemBytes (kind layer blk tmask nblk pos0 dst : Nat) : List Byte :=
  natBytes 8 (1 + kind * 4 + layer * 16 + blk * 2 ^ 32) ++ natBytes 8 tmask ++ natBytes 4 nblk ++ natBytes 4 pos0 ++ natBytes 8 dst

/-- Waiting items of the k-th context go out while the next slot of the ring is free. -/
def issueItems (k : Nat) : (fuel : Nat) → RM Unit
  | 0 => return ()
  | fuel + 1 => do
    let r ← repNow k
    match r.todo with
    | [] => return ()
    | t :: ts => do
      let slot := r.nextSlot % 2 ^ ctWlog r.desc
      if r.items.any (fun i => i.slot == slot) then return ()
      else do
        rPut r (ctWr r.desc + 32 * slot) t 0
        rStep (modify (updRep k (fun r => { r with
          todo := ts, items := r.items ++ [{ slot := slot, claimed := false, live := true }], nextSlot := (r.nextSlot + 1) % 2 ^ ctWlog r.desc })))
        issueItems k fuel

/-! ### The check (R298) -/

/-- One accumulator step: round_rne(acc + x × x) with one rounding. -/
def sqAcc (acc x : Word32) : Word32 := toF32 (((f32 x).mul (f32 x)).add (f32 acc))

/-- The sums e and s2 over the elements of the rows of one token: new ones, stored ones. -/
def rowSums (elf : Nat) (es : Nat) (acc : Word32 × Word32) (new old : List Byte) : Word32 × Word32 :=
  (List.range (new.length / es)).foldl (fun a i =>
    let n := widen elf (bytesAt new (i * es) es) 0 0
    let o := widen elf (bytesAt old (i * es) es) 0 0
    let df := toF32 ((f32 n).add (f32 o).neg)
    (sqAcc a.1 df, sqAcc a.2 o)) acc

/-- Whether a token is flagged. -/
def tokenFlagged (thr e s2 : Word32) : Bool :=
  let b := fmul (fmul thr thr) s2
  let bound := if (f32 b).isNan then 0 else b
  decide (thr ≠ 0x7F800000) && ((f32 e).isNan || (f32 s2).isNan || (f32 bound).lt (f32 e))

/-- The check of one block, by its ordinal q: its flagged tokens, whose rows of layers 1 to KCHK are copied. -/
def checkBlock (r : Rep) (q : Nat) (b : RepBlk) : RM Nat := do
  let d := r.desc
  let tb := ctLbytes d / 64
  let es := if ctElf d = 0 then 4 else 2
  let new (l j : Nat) : Nat := ctChk d + q * ctKchk d * ctLbytes d + l * ctLbytes d + j * tb
  let old (l j : Nat) : Nat := b.addr + l * ctLstr d + j * tb
  (List.range b.ntok).foldlM (fun mask j => do
    let (e, s2) ← (List.range (ctKchk d)).foldlM (fun acc l => do
      let n ← rGet r (new l j) tb
      let o ← rGet r (old l j) tb
      return rowSums (ctElf d) es acc n.bytes o.bytes) ((0 : Word32), (0 : Word32))
    if tokenFlagged r.thr e s2 then do
      (List.range (ctKchk d)).forM (fun l => do
        let n ← rGet r (new l j) tb
        rPut r (old l j) n.bytes n.lbl)
      return mask + 2 ^ j
    else return mask) 0

/-! ### Levels and rounds (R299) -/

/-- Whether an SSL bit lies above a layer. -/
def sslAbove (d : List Byte) (l : Nat) : Bool := (List.range 256).any (fun i => decide (l < i) && ctSsl d i)

/-- A pending block's entry takes a level, and PEND or none; the guards follow each entry as it is written (R299, R301). -/
def rLevel (k : Nat) (b : RepBlk) (lvl : Nat) (pend : Bool) : RM Unit := do
  rReEnt (← repNow k) b (fun e => e.levelled lvl pend)
  rStep (modify (updRep k (fun r => { r with
    blks := if pend then r.blks.map (fun c : RepBlk => if c.idx = b.idx then { c with lvl := lvl } else c)
            else r.blks.filter (fun c => c.idx != b.idx) })))

/-- Every pending block takes a level. -/
def levelAll (k l : Nat) (pend : Bool) : RM Unit := do (← repNow k).blks.forM (fun b => rLevel k b l pend)

/-- The levels after the check. -/
def levelAfterCheck (k : Nat) : RM Unit := do
  let r ← repNow k
  r.blks.forM (fun b =>
    if b.mask ≠ 0 || sslAbove r.desc (ctKchk r.desc) then rLevel k b (ctKchk r.desc) true else rLevel k b (ctNl r.desc) false)

/-- The items of round l. -/
def roundItems (r : Rep) (l : Nat) : List (List Byte) :=
  if ctSsl r.desc l then
    match r.blks with
    | [] => []
    | b :: _ => [itemBytes 2 l b.idx 0 (ctNb r.desc - b.idx) b.pos (b.addr + (l - 1) * ctLstr r.desc)]
  else
    (r.blks.filter (fun b => b.mask ≠ 0)).map (fun b => itemBytes 1 l b.idx b.mask.toNat 1 b.pos (b.addr + (l - 1) * ctLstr r.desc))

/-- The k-th context changed, and the engine's fields of its descriptor written (R285). -/
def rMove (k : Nat) (f : Rep → Rep) : RM Unit := do
  rStep (modify (updRep k f))
  rPutDesc (← repNow k)

/-- Rounds from layer l on: the first with items is issued; after NL the context is IDLE. -/
def startRounds (k : Nat) : (fuel l : Nat) → RM Unit
  | 0, _ => return ()
  | fuel + 1, l => do
    let r ← repNow k
    if ctNl r.desc < l then do
      levelAll k (l - 1) false
      rMove k (fun r => { r with st := .idle, round := 0, blks := [] })
    else
      match roundItems r l with
      | [] => do
        levelAll k l true
        startRounds k fuel (l + 1)
      | its => do
        rMove k (fun r => { r with st := .repair, round := l, todo := its })
        issueItems k its.length

/-- The check of every pending block, by its ordinal. -/
def checkAll (r : Rep) : RM (List RepBlk) :=
  (r.blks.zipIdx).foldlM (fun (ms : List RepBlk) p => do
    let m ← checkBlock r p.2 p.1
    return ms ++ [{ p.1 with mask := wd m }]) []

/-- Every item of the check or of the round has returned (R297 to R299). -/
def advanceRep (k : Nat) : RM Unit := do
  let r ← repNow k
  match r.st with
  | .check => do
    let masks ← checkAll r
    rStep (modify (updRep k (fun r => { r with blks := masks, flagged := (masks.map (fun b => popcount 64 b.mask.toNat)).sum })))
    levelAfterCheck k
    startRounds k 257 (ctKchk r.desc + 1)
  | .repair => do
    levelAll k r.round true
    startRounds k 257 (r.round + 1)
  | _ => return ()

/-- The round goes on, or ends with its last item. -/
def settleRep (k : Nat) : RM Unit := do
  issueItems k (← repNow k).todo.length
  let r ← repNow k
  if r.todo.isEmpty && !r.items.any (fun i => i.live) then advanceRep k else return ()

/-! ### Commands (R290, R295, R413) -/

/-- A status word; for 9 with the cause (R413). -/
def status9 (f : PFault) : Word := wd (9 + (faultCause f).toNat * 256)

/-- How a command's steps before its transition end: a status; or none, where a poisoned sector ends the job (R87). -/
abbrev QM := ExceptT (Option Word) SM

def qStep {α : Type} (m : SM α) : QM α := ExceptT.mk (do return .ok (← m))

/-- A status ends the command. -/
def qEnd {α : Type} (v : Word) : QM α := throw (some v)
def qNeed (b : Bool) (v : Word) : QM Unit := if b then pure () else qEnd v

/-- A poisoned sector ends the issuer's job. -/
def qPoison {α : Type} (c : CoreId) : QM α := do
  qStep (modify (killJobOf c))
  throw none

/-- Translation of pages that the command will use (R413). -/
def qPages (w : Who) (c : CoreId) (ts : List Touch) : QM (List Page) := do
  match ← qStep (translateRuns w ts) with
  | .ok pages => return pages
  | .error f => if f.1.poison then qPoison c else qEnd (status9 f.1)

/-- Bytes of translated pages. -/
def qRead (w : Who) (c : CoreId) (pages : List Page) (va n : Nat) : QM Got := do
  let g ← qStep (readPieces w (pieces pages va n))
  if g.poison then qPoison c else return g

/-- The context of a command: its place in the engine's list, or where it will stand, and what the engine knows of it. -/
structure Met where
  k : Nat
  known : Option Rep
  deriving DecidableEq, Repr

def meet (id : Ident) (addr : Word) (s : State) : Met :=
  match repIdx s id.pid id.vd id.asid addr with
  | some k => { k := k, known := s.reps[k]? }
  | none => { k := s.reps.length, known := none }

/-- The context with its descriptor as read, in the state that the engine knows or, of one it has not seen, that STATE shows
(R285). -/
def Met.rep (m : Met) (q : RepCmd) (id : Ident) (d : List Byte) : Rep :=
  let r := m.known.getD (Rep.fresh q.ctx id.asid id.vd id.pid d ((RepSt.ofCode (bytesAt d 80 8 % 8)).getD .idle) q.core)
  { r with desc := d, ownjob := id.jobid, core := q.core }

/-- The runs of a command in the descriptor, which it reads and writes, and in the table: entries that it reads, and entries that it
writes (R413). -/
def tableTouches (r : Rep) (reads : Nat) (wFrom wTo : Nat) : List Touch :=
  [{ va := r.addr.toNat, len := 128, acc := .atomic }, { va := entAddr r 0, len := 32 * reads, acc := .read },
   { va := entAddr r wFrom, len := 32 * (wTo - wFrom), acc := .write }]

/-- Entries 0 to NB − 1, which must pass R287: status 8. -/
def qTable (r : Rep) (pages : List Page) : QM (List REnt) := do
  let es ← (List.range (ctNb r.desc)).mapM (fun i => do
    let g ← qRead (repWho r) r.core pages (entAddr r i) 32
    return { b := g.bytes, lbl := g.lbl : REnt })
  qNeed (!tableFails (ctNl r.desc) 0 es) 8
  return es

/-- The transition of a command: the context stands in the engine's list. -/
def acceptRep (k : Nat) (r : Rep) : SM Unit :=
  modify (fun s => { s with reps := if k < s.reps.length then s.reps.set k r else s.reps ++ [r] })

/-- The guards of the k-th context as it stands. -/
def guardNow (k : Nat) : RM Unit := do
  let r ← repNow k
  let pages ← rStep (fun s => guardPages r (installGuards r s))
  rStep (modify (updRep k (fun r => { r with pages := pages })))

/-- List entries at their positions (R290). -/
def placed : Nat → List REnt → List REnt
  | _, [] => []
  | p, e :: es => e.moved p :: placed (p + e.ntok) es

/-- A list's entries. -/
def listEnts (bs : List Byte) (lbl : Label) : List REnt :=
  (List.range (bs.length / 32)).map (fun j => { b := (bs.drop (32 * j)).take 32, lbl := lbl })

/-- The table after a `splice` at entry i (R290): the rewritten entries. -/
def spliced (q : RepCmd) (es : List REnt) (i : Nat) : List REnt :=
  let new := listEnts q.list q.lbl
  let t := (new.map REnt.ntok).sum
  placed q.pos.toNat new ++ (es.drop i).map (fun e => e.moved (e.pos + t))

/-- The writes of a `splice`, then its guards (R290). -/
def writeSplice (k i : Nat) (tail : List REnt) : RM Unit := do
  let r ← repNow k
  (tail.zipIdx).forM (fun p => rPut r (entAddr r (i + p.2)) p.1.b p.1.lbl)
  rPut r (r.addr.toNat + 8) ((r.desc.drop 8).take 2) 0
  guardNow k
  rPutDesc r

/-- The engine's part of a `splice` (R290): the statuses in their order, then the transition. -/
def serveSplice (q : RepCmd) (id : Ident) : QM Unit := do
  let m := meet id q.ctx (← qStep get)
  let busy (st : RepSt) : QM Unit := match st with
    | .check | .repair => qEnd 1
    | .error => qEnd 6
    | _ => pure ()
  m.known.forM (fun r => busy r.st)
  let w := taskWho q.core id.pid id.vd id.asid 3 id.jobid.toNat
  let p0 ← qPages w q.core [{ va := q.ctx.toNat, len := 128, acc := .read }]
  let d := (← qRead w q.core p0 q.ctx.toNat 128).bytes
  qNeed (!ctBad d) 5
  let r := m.rep q id d
  busy r.st
  let n := q.list.length / 32
  let nb := ctNb d
  let pages ← qPages w q.core (tableTouches r nb nb (min (nb + n) (ctCap d)))
  let es ← qTable r pages
  qNeed (decide (nb + n ≤ ctCap d)) 4
  match (if q.pos.toNat = endPos es then some es.length else es.findIdx? (fun e => e.pos == q.pos.toNat)) with
  | none => qEnd 3
  | some i => do
    let _ ← qPages w q.core (tableTouches r nb i (nb + n))
    let tail := spliced q es i
    qStep (acceptRep m.k { r with
      desc := overlay d 8 (natBytes 2 (nb + n)), st := .spliced, owner := some id.jobid, blks := pendingOf (es.take i ++ tail) })
    qStep (modify (runRep m.k (writeSplice m.k i tail)))

/-- A `rep.go` has been accepted (R297): from ERROR every pending block goes back to level 0; then the guards and the items. -/
def startCheck (k : Nat) (again : Bool) : RM Unit := do
  if again then levelAll k 0 true else pure ()
  guardNow k
  rPutDesc (← repNow k)
  settleRep k

/-- The CHECK items of the pending blocks, in table order (R293, R297). -/
def checkItems (d : List Byte) (blks : List RepBlk) : List (List Byte) :=
  (blks.zipIdx).map (fun p => itemBytes 0 0 p.1.idx (2 ^ p.1.ntok - 1) 1 p.1.pos (ctChk d + p.2 * ctKchk d * ctLbytes d))

/-- The descriptor of a `rep.go`; where it cannot be read, what the engine knows of the context decides first (R295). -/
def goDesc (q : RepCmd) (id : Ident) (m : Met) : QM (List Byte) := do
  let w := taskWho q.core id.pid id.vd id.asid 3 id.jobid.toNat
  match ← qStep (translate w q.ctx.toNat 128 .read) with
  | .ok pages => return (← qRead w q.core pages q.ctx.toNat 128).bytes
  | .error f =>
    if f.1.poison then qPoison q.core
    else match m.known.map (fun r : Rep => r.st) with
      | some .check | some .repair => qEnd 1
      | some .idle => qEnd 2
      | _ => qEnd (status9 f.1)

/-- The engine's part of a `rep.go` (R295): the statuses in their order, then the transition. -/
def serveGo (q : RepCmd) (id : Ident) : QM Unit := do
  let m := meet id q.ctx (← qStep get)
  let d ← goDesc q id m
  qNeed (!ctBad d) 5
  let r := m.rep q id d
  match r.st with
  | .check | .repair => qEnd 1
  | .idle => qEnd 2
  | st => do
    let w := repWho r
    let pages ← qPages w q.core (tableTouches r (ctNb d) 0 0)
    let es ← qTable r pages
    let blks := pendingOf es
    if st = .error then do
      let _ ← qPages w q.core (blks.map (fun b => { va := entAddr r b.idx, len := 32, acc := .atomic }))
    else pure ()
    qStep (acceptRep m.k { r with
      st := .check, owner := some id.jobid, thr := q.hthresh, round := 0, blks := blks, todo := checkItems d blks })
    qStep (modify (runRep m.k (startCheck m.k (decide (st = .error)))))

/-- The status of a command is its commit point and is delivered (R361). -/
def repStatus (q : RepCmd) (v : Word) (c : Core) : Core :=
  let c1 := jPerf q.seq v 0 c
  match c1.pend.find? (fun p => p.src == .cmd q.seq) with
  | some p => deliverPend p v c1
  | none => jDone q.seq c1

/-- Commands of one context. -/
def sameContext (s : State) (p q : RepCmd) : Bool :=
  let a := (s.core p.core).id
  let b := (s.core q.core).id
  p.ctx == q.ctx && a.pid == b.pid && a.vd == b.vd && a.asid == b.asid

/-- The k-th waiting command is served, the oldest of its context first (R290, R292). -/
def serveRep (splice : Bool) (k : Nat) (s : State) : State :=
  match s.repq[k]? with
  | none => s
  | some q =>
    if q.splice != splice || (s.repq.take k).any (sameContext s q) || !engineLive s q.core [q.seq] then s
    else
      let (r, s1) := ((if q.splice then serveSplice else serveGo) q (s.core q.core).id).run s
      match (match r with | .ok _ => some 0 | .error v => v) with
      | none => s1
      | some v => { s1 with repq := s1.repq.eraseIdx k }.updCore q.core (repStatus q v)

/-- SPLICE_SERVICE (R290). -/
def execSpliceService (k : Nat) (s : State) : Out := .next (serveRep true k s)

/-- REP_GO_SERVICE (R295, R297). -/
def execRepGoService (k : Nat) (s : State) : Out := .next (serveRep false k s)

/-- An item read back with OWN = 0 leaves its slot: in the round it belongs to its ERR counts, and then the round goes on (R297). -/
def itemBack (k slot : Nat) (it : RepItem) : RM Unit := do
  let r ← repNow k
  let g ← rGet r (ctWr r.desc + 32 * slot) 8
  let w := leNat g.bytes
  if bit w 0 then return ()
  else do
    rStep (modify (updRep k (fun r => { r with items := r.items.filter (fun i => i.slot != slot) })))
    if it.live && bit w 1 then throw 0x30
    else match r.st with
      | .check | .repair => settleRep k
      | _ => return ()

/-- WORK_ITEM_RETURN (R293, R294, R297): the item of a ring slot is read back; with OWN still 1 nothing happens. -/
def execWorkItemReturn (k : Nat) (slot : Nat) (s : State) : Out :=
  match (s.reps[k]?).bind (fun r => r.items.find? (fun i => i.slot == slot)) with
  | none => .next s
  | some it => .next (runRep k (itemBack k slot it) s)

/-! ### The C strand's instructions -/

/-- Issue of a `splice` (R290, R291): the reads and checks; a status known at issue, or the command for the engine. -/
def spliceIssue (c : CoreId) (i : Instr) (va vb : Word) : M (Sum Word RepCmd) := do
  need (decide (va.toNat % 64 = 0) && decide (vb.toNat % 64 = 0)) cILLEGAL (wordOf i)
  let ctx ← strandRead c .C va.toNat 128 false
  let hdr ← strandRead c .C vb.toNat 32 false
  let n := bytesAt hdr.bytes 4 2
  if ctBad ctx.bytes then return .inl 5
  else if n = 0 || decide (64 < n) || decide (bytesAt hdr.bytes 6 26 ≠ 0) then return .inl 7
  else do
    let lst ← strandRead c .C (vb + 32).toNat (32 * n) false
    let lbl ← lift (joinL c hdr.lbl lst.lbl)
    let bad (e : REnt) : Bool := e.bad || e.pend || bit e.w0 54 || decide (e.pos ≠ 0) || decide (e.lvl ≠ 0)
    let stale (e : REnt) : Nat :=
      if bytesAt e.b 12 4 ≠ ctMhash ctx.bytes then 1
      else if bytesAt e.b 24 4 ≠ ctPeb ctx.bytes then 2
      else if bytesAt e.b 22 1 ≠ 1 ∨ bytesAt e.b 23 1 ≠ ctNl ctx.bytes then 3 else 0
    match ((listEnts lst.bytes lbl).zipIdx).find? (fun p => bad p.1 || decide (stale p.1 ≠ 0)) with
    | some (e, j) =>
      if bad e then return .inl 7
      else trapNow cSTALEBLK (vb + 32 + 32 * wd j) (stale e)
    | none =>
      return .inr { core := c, seq := 0, splice := true, ctx := va, pos := BitVec.ofNat 32 (bytesAt hdr.bytes 0 4), list := lst.bytes,
                    lbl := lbl, reg := 0, hthresh := 0 }

/-- Issue of a `rep.go` (R295): HTHRESH is latched. -/
def repGoIssue (c : CoreId) (i : Instr) (va : Word) : M RepCmd := do
  need (decide (va.toNat % 64 = 0)) cILLEGAL (wordOf i)
  return { core := c, seq := 0, splice := false, ctx := va, pos := 0, list := [], lbl := 0, reg := 0,
           hthresh := (← getCore c).csr.hthresh }

/-- A command goes to the repair engine; x[d] is pending (R290, R295, R361). -/
def repSend (c : CoreId) (i : Instr) (d : BitVec 6) (va vb : Word) (q : RepCmd) : M Unit := do
  let k ← getCore c
  let seq ← jNew c true i va vb (k.xval d) (k.xlbl d)
  addPend c { reg := d, src := .cmd seq, val := none, lbl := 0, seq := some seq }
  modify (fun s => { s with repq := s.repq ++ [{ q with seq := seq, reg := d }] })

/-- SPLICE (R290). -/
def execSplice (d a b : BitVec 6) : State → Out :=
  runPlain (fun c => do
    needFree c d
    let va ← readX c a
    let vb ← readX c b
    match ← spliceIssue c (.splice d a b) va vb with
    | .inl v => jAtOnce c true (.splice d a b) va vb d v
    | .inr q => repSend c (.splice d a b) d va vb q)

/-- REP_GO (R295). -/
def execRepGo (d a : BitVec 6) : State → Out :=
  runPlain (fun c => do
    needFree c d
    let va ← readX c a
    let q ← repGoIssue c (.repGo d a) va
    repSend c (.repGo d a) d va 0 q)

/-- The state that a `rep.poll` finds: the engine's, or the one that an unseen descriptor shows (R285; log entry 21). -/
def pollContext (c : CoreId) (va : Word) : M Rep := do
  let id := (← getCore c).id
  let s ← get
  match (repIdx s id.pid id.vd id.asid va).bind (fun k => s.reps[k]?) with
  | some r => return r
  | none => do
    let g ← strandRead c .C (va + 80).toNat 8 false
    return Rep.fresh va id.asid id.vd id.pid [] ((RepSt.ofCode (leNat g.bytes % 8)).getD .idle) c

/-- REP_POLL (R295): the state, and the oldest unclaimed item, claimed. -/
def execRepPoll (d a : BitVec 6) : State → Out :=
  runPlain (fun c => do
    needFree c d
    let va ← readX c a
    need (decide (va.toNat % 64 = 0)) cILLEGAL (wordOf (.repPoll d a))
    jRoom c
    let r ← pollContext c va
    let id := (← getCore c).id
    let base := r.st.code + r.code.toNat * 2 ^ 56
    match r.items.find? (fun i => !i.claimed) with
    | none => jAtOnce c true (.repPoll d a) va 0 d (wd base)
    | some it => do
      modify (fun s => match repIdx s id.pid id.vd id.asid va with
        | some k => { s with reps := s.reps.modify k (fun q : Rep =>
            { q with items := q.items.map (fun i : RepItem => if i.slot = it.slot then { i with claimed := true } else i) }) }
        | none => s)
      jAtOnce c true (.repPoll d a) va 0 d (wd (base + 16 + (ctWr r.desc + 32 * it.slot))))

/-! ### The owner's end (R303) -/

/-- The job that owns contexts has ended: their guards apply to no running job (R303). -/
def repairEnd (j : JobId) (s : State) : State :=
  { s with reps := s.reps.map (fun r : Rep => if r.owner = some j then { r with owner := none } else r) }

/-- The job that owns contexts is killed (R297, R303): CHECK and REPAIR move to ERROR with CODE 0x31. -/
def repairKill (j : JobId) (s : State) : State :=
  repairEnd j ((List.range s.reps.length).foldl (fun (s : State) k =>
    if (s.reps[k]?).any (fun r => r.owner == some j) then failRep k 0x31 s else s) s)

/-- A job's commands that the engine has not served leave its queue: they are replayed, or abandoned (R345, R364). -/
def repairDrop (j : JobId) (s : State) : State :=
  { s with repq := s.repq.filter (fun q => (s.core q.core).job != some j) }

end Sys2Proof.Machine
end

