-- ==== Sys2Proof/Machine/System.lean ====
section
/-! DEFINITION. The system group but for `tret`, the steps of the sequence that fetch nothing, and the taking of an
asynchronous trap (R252, R255 to R257, R350 to R359). -/

namespace Sys2Proof.Machine

/-- A trap taken after its instruction's step: the saved state is the sequence after the step (R256, R356). -/
def trapAfter (code : Nat) (k : BitVec 8) (s : State) : Out :=
  let c := s.cur.1
  if s.cur.2 = .C && mayIssue s c .C then
    .next (takeTrap c (causeWord false 0 code 0) (k.setWidth 64) (finishC c {} s))
  else .fault .notIssuing

/-- SVC (R356). -/
def execSvc (k : BitVec 8) (s : State) : Out := trapAfter cSVC k s

/-- BRK (R356): inside a handler it is unhandled and ends the job. -/
def execBrk (k : BitVec 8) (s : State) : Out := trapAfter cBRK k s

/-- WFI (R357): completes once an asynchronous trap is due or TINTR.PEND is set. -/
def execWfi : State → Out :=
  runPlain (fun c => do
    let k ← getCore c
    if k.asyncDue || k.dbg.pend then pure ()
    else do
      modCore c (fun k => { k with atWfi := true })
      waitNow)

/-- SNAP (R359): fires the partition's trigger; not armed, it has no effect. -/
def execSnap : State → Out := runPlain (fun c => do modify (fireSnap (← getCore c).id.pid 0))

/-- ANNULLED_POSITION (R252): not fetched, no effect; ANN falls by one. -/
def execAnnulledPosition (c : CoreId) (s : State) : Out :=
  if (s.core c).seq.ann = 0 || !mayIssue s c .C then .next s
  else .next (s.updCore c (fun k => { k with seq := { k.seq with ann := k.seq.ann - 1 }.advance none false }))

/-- ILLEGAL_INSTRUCTION_WORD (R60): precise on the C strand, at the boundary on an engine strand, TVAL := the word. -/
def execIllegalInstructionWord (c : CoreId) (st : Strand) (w : Word32) (s : State) : Out :=
  if !mayIssue s c st then .next s
  else match st with
    | .C => .next (trapC c cILLEGAL 0 (w.setWidth 64) s)
    | st => .next (trapEng c st cILLEGAL 0 (w.setWidth 64) s)

/-- INSTRUCTION_FETCH_FAULT (R255): the fault of the fetch at the strand's position; with none nothing happens. -/
def execInstructionFetchFault (c : CoreId) (st : Strand) (s : State) : Out :=
  if !mayIssue s c st then .next s
  else match fetchWord c st s with
    | .error (.trap code sub tval s1) =>
      (match st with
       | .C => .next (trapC c code sub tval s1)
       | st => .next (trapEng c st code sub tval s1))
    | .error (.wait s1) => .next s1
    | .ok _ => .next s

/-- A trap reaches a waiting C strand: a waiting `wfi` completes first (R357); the other waits are abandoned (R284). -/
def leaveWaits (c : CoreId) (s : State) : State :=
  if (s.core c).atWfi then finishC c {} s else abandonWaits c s

/-- The task interrupt is the next asynchronous trap: enabled, and every queued trap that arrived before it has been taken (R257,
R352, R354). -/
def Core.intrNext (k : Core) : Bool := k.csr.intEnabled && k.dbg.pend && (k.atraps.isEmpty || decide (k.dbg.after = 0))

/-- A warning that is dropped: SRKEY_REUSE with VEC = 0 (R352). -/
def Core.drops (k : Core) (t : ATrap) : Bool := decide (bits t.cause.toNat 0 8 = cSRKEY) && !k.csr.hasVector

/-- The head of the queue leaves it; the state-spill engine goes on once its fault's trap has left (R215, R355). -/
def popTrap (t : ATrap) (k : Core) : Core :=
  { k with atraps := k.atraps.tail, dbg := { k.dbg with after := k.dbg.after - 1 },
           spill := if t.src = .spill then { k.spill with held := false } else k.spill }

/-- ASYNC_TRAP_TAKE (R257, R352, R354, R355): the asynchronous traps are taken in arrival order, a task interrupt among them where IE is
set. A dropped SRKEY_REUSE disturbs nothing; its strand issues again. -/
def execAsyncTrapTake (c : CoreId) (s : State) : Out :=
  let k := s.core c
  if !k.asyncDue || !(match k.st.c with | .issuing => true | .waiting => true | _ => false) then .next s
  else if k.intrNext then
    .next (takeTrap c (causeWord true 0 cINTR 0) (k.dbg.code.setWidth 64)
      ((leaveWaits c s).updCore c (fun k => { k with dbg := { k.dbg with pend := false } })))
  else match k.atraps with
    | [] => .next s
    | t :: _ =>
      if k.drops t then
        .next ((s.updCore c (popTrap t)).updCore c (fun k =>
          match t.src with | .strand st => { k with st := k.st.set st .issuing } | _ => k))
      else .next (takeTrap c t.cause t.tval ((leaveWaits c s).updCore c (popTrap t)) (some t.src))

end Sys2Proof.Machine
end

