-- ==== Sys2Proof/Machine/Sched.lean ====
section
/-! DEFINITION. From packet to end of job: fetch, prologue, bind, pre-emption, retirement and kill, and the return from a trap
with its replay (R15 to R19, R22, R333 to R346, R358, R362 to R365). An event whose condition does not hold changes nothing. -/

namespace Sys2Proof.Machine

/-! ### Partitions and placement (R22, R341) -/

/-- The virtual device of a job. -/
def jobDev (s : State) (j : Job) : VDev := rd (s.part j.pid).vdevs (i3 j.vd)

/-- Clusters that no job holds (R340). -/
def freeIn (s : State) (p : PartId) : List ClusterId := (s.part p).clusters.filter (fun cl => (s.cluster cl).job.isNone)

/-- A placement of n clusters: ascending; at level ≤ 2 contiguous within one die (R22). -/
def shapeOk (n : Nat) (level : BitVec 2) (cls : List ClusterId) : Bool :=
  decide (cls.length = n) && (cls.zip (cls.drop 1)).all (fun p => decide (p.1.val < p.2.val)) &&
  (decide (level = 3) ||
    ((cls.zip (cls.drop 1)).all (fun p => decide (p.2.val = p.1.val + 1)) && cls.all (fun c => cls.all (fun d => dieOfCluster c == dieOfCluster d))))

/-- The first cluster of a run within one die that the given clusters hold whole. -/
def runAt (n : Nat) (avail : List ClusterId) : Option Nat :=
  (List.range 112).find? (fun c => decide (c % 28 + n ≤ 28) && (List.range n).all (fun i => avail.any (fun k => k.val == c + i)))

/-- Some placement exists among the given clusters (R22). -/
def fits (h : Header) (avail : List ClusterId) : Bool :=
  if h.level = 3 then decide (h.ncl ≤ avail.length) else (runAt h.ncl avail).isSome

/-- The placement that a newcomer is promised, where one exists: the first run, or at level 3 the first clusters (log entry 4). -/
def placeIn (h : Header) (avail : List ClusterId) : List ClusterId :=
  if h.level = 3 then avail.take h.ncl
  else match runAt h.ncl avail with
    | some c => avail.filter (fun k => decide (c ≤ k.val) && decide (k.val < c + h.ncl))
    | none => []

/-! ### Ready order (R340, R343, R344) -/

/-- Ready, or saved and so ready again in its old place (R340, R345). -/
def Job.waits (j : Job) : Bool :=
  match j.st with
  | .ready => !(j.hdr.ord && j.prev.isSome) && !j.killDue
  | .saved => !j.killDue
  | _ => false

/-- prio, highest first, then fetch order (R340). -/
def Job.before (a b : Job) : Bool :=
  decide (b.hdr.prio.toNat < a.hdr.prio.toNat) || (decide (a.hdr.prio = b.hdr.prio) && decide (a.order < b.order))

/-- A job of an idle-class virtual device binds only while no positive-weight one has a ready job (R343). -/
def idleHolds (s : State) (j : Job) : Bool :=
  decide ((jobDev s j).weight = 0) &&
    s.jobs.any (fun k => k.waits && k.pid == j.pid && decide ((jobDev s k).weight ≠ 0))

/-- Another job of the partition that waits and comes before a job in ready order. -/
def isAhead (s : State) (j k : Job) : Bool := k.id != j.id && k.pid == j.pid && k.waits && k.before j && !idleHolds s k

/-- The free clusters that a job may have: none that was promised to a newcomer before it in ready order (R340, R344). -/
def roomFor (s : State) (j : Job) : List ClusterId :=
  (freeIn s j.pid).filter (fun c => !s.jobs.any (fun k => isAhead s j k && (match k.offer with | some (_, cl) => cl.contains c | none => false)))

/-- The dispatch unit may place a waiting job on these clusters now (R22, R340, R344): it may have them, and no job before it in ready
order could take a place. -/
def mayPlace (s : State) (j : Job) (cls : List ClusterId) : Bool :=
  let room := roomFor s j
  j.waits && !idleHolds s j && shapeOk j.hdr.ncl j.hdr.level cls && cls.all (fun c => room.contains c) &&
  !s.jobs.any (fun k => isAhead s j k && fits k.hdr (roomFor s k))

/-- The tokens that a bind spends: what a newcomer offered, else what the job offers now (R344). -/
def bindTokens (s : State) (j : Job) : Nat :=
  let v := jobDev s j
  if v.weight = 0 then 0
  else match j.offer with
    | some (t, _) => t
    | none => min j.hdr.ptok.toNat v.bkt.toNat

/-- The remaining estimate in µs (R344). -/
def remaining (s : State) (j : Job) : Nat := j.est.toNat - (s.time.toNat - j.estAt.toNat) / 1000

/-! ### Reports, records and the end of a job (R332, R337, R339) -/

/-- The residency report on a packet of a rack queue: 0 queued, 1 bound, 2 retired, 3 refused; a refusal raises an interrupt of kind 7
(R332, R347). -/
def reportTo (q : Queue) (id : JobId) (rply : Word) (state status : Nat) (s : State) : State :=
  if q.rack then
    let m := OutMsg.residency rply (natBytes 8 (id.toNat + state * 2 ^ 12 + status * 2 ^ 16) ++ natBytes 8 s.time.toNat ++ natBytes 16 0)
    let s1 := (emit 1 m s).2
    if state = 3 then raiseCause 7 q.pid q.vd.toNat id.toNat q.id.toNat (Config.causeDetail 7 status) s1 else s1
  else s

/-- The report at a job's change of state. -/
def report (j : Job) (state status : Nat) (s : State) : State := reportTo (s.queue j.queue) j.id j.hdr.rply state status s

/-- The IOC's own accesses under a job's ASID. -/
def Job.who (j : Job) : Who := iocWho j.pid j.vd j.asid Config.iocKind j.id.toNat

/-- The completion record (R337). -/
def recordBytes (j : Job) (fate status : Nat) (now : Word) : List Byte :=
  natBytes 2 (j.id.toNat + fate * 2 ^ 12) ++ natBytes 1 status ++ natBytes 5 0 ++ natBytes 8 j.tbind.toNat ++
    natBytes 8 now.toNat ++ natBytes 8 0

/-- The record is written, then the interrupt is raised (R18, R337). -/
def writeRecord (j : Job) (fate status : Nat) (s : State) : State :=
  let s1 :=
    if j.hdr.crec = 0 then s
    else match writeVirt j.who j.hdr.crec.toNat (recordBytes j fate status s.time) 0 s with
      | (.error f, s1) => raiseCause 2 j.pid j.vd.toNat j.id.toNat j.queue.toNat (f.1.stage * 16 + f.1.kind) s1
      | (.ok _, s1) => s1
  if j.hdr.irq then raiseCause 1 j.pid j.vd.toNat j.id.toNat j.queue.toNat (Config.causeDetail 1 j.id.toNat) s1 else s1

/-- A job ends: its record, its interrupt; its id, its collective records and its guards are free, a job behind it in its queue may go
on (R300, R328, R337, R339, R340). -/
def endJob (j : Job) (fate status : Nat) (s : State) : State :=
  let s1 := repairEnd j.id (report j (if fate = 2 then 3 else 2) status (writeRecord j fate status s))
  { s1 with
    slotted := s1.slotted.map (fun x : Slotted => if x.queue == j.queue && x.prev == some j.order then { x with prev := none } else x),
    jobs := (s1.jobs.filter (fun k => k.id != j.id)).map (fun k : Job =>
      if k.queue == j.queue && k.prev == some j.order then { k with prev := none } else k),
    queues := s1.queues.map (fun q : Queue => if q.id == j.queue && q.last == some j.order then { q with last := none } else q),
    colls := s1.colls.filter (fun p => p.job != j.id) }

/-! ### PACKET_FETCH (R335, R338, R339) -/

/-- A queue halts with a code (R334). -/
def haltQueue (q : Queue) (code : Nat) (s : State) : State :=
  raiseCause 2 q.pid q.vd.toNat 0 q.id.toNat (Config.causeDetail 2 code)
    (s.setQueue { q with st := .halt, code := BitVec.ofNat 8 code })

/-- Occupied fetch slots: packets that wait for an id, and jobs that have not been bound yet. -/
def slotsUsed (s : State) : Nat :=
  s.slotted.length + (s.jobs.filter (fun j => match j.st with | .fetched => true | .ready => true | _ => false)).length

/-- The next place in fetch order. -/
def nextOrder (s : State) : Nat := (s.jobs.map (fun j : Job => j.order + 1) ++ s.slotted.map (fun x : Slotted => x.order + 1)).foldl max 0

/-- The lowest free job id (R339). -/
def freeId (s : State) : Option JobId :=
  ((List.range 4096).find? (fun i => !s.jobs.any (fun j => j.id.toNat == i))).map (BitVec.ofNat 12)

def Phases.reset : Phases := { top := 0, die := Vector.replicate 4 0 }

/-- A packet that passed its checks becomes a job. -/
def newJob (id : JobId) (q : Queue) (h : Header) (order : Nat) (prev : Option Nat) : Job :=
  { id := id, queue := q.id, pid := q.pid, vd := q.vd, asid := q.asid, hdr := h, order := order, prev := prev, st := .fetched,
    cls := [], est := h.est, estAt := 0, spent := 0, tbind := 0, boundAt := 0, killDue := false, form := none, offer := none,
    flags := Vector.replicate 256 { val := 0, stamps := [], waiters := [] }, posts := [], chunks := [],
    phases := Phases.reset, split := false, retired := [], area := none, images := [] }

/-- The whole packet is read before any byte is kept; the prologue's records are read for the check of code 0x04. A fault in reading
those is met when the prologue runs (R339). -/
def readPacket (q : Queue) : SM (Except (PFault × Word) (Got × List Byte)) := fun s =>
  match readVirt (queueWho q) (q.slotVa q.head) 128 s with
  | (.error f, s1) => (.error f, s1)
  | (.ok g, s1) =>
    let h := parseHeader g.bytes
    if h.npro = 0 || decide (h.pro.toNat % 64 ≠ 0) || packetRsvd g.bytes || packetLimits g.bytes then (.ok (g, []), s1)
    else match readVirt (queueWho q) h.pro.toNat (64 * h.npro) s1 with
      | (.error _, s2) => (.ok (g, []), s2)
      | (.ok p, s2) => (.ok (g, if p.poison then [] else p.bytes), s2)

/-- A packet in its slot takes the lowest free id (R339). -/
def takeIn (id : JobId) (x : Slotted) (s : State) : State :=
  let j := newJob id (s.queue x.queue) (parseHeader x.bytes) x.order x.prev
  report j 0 0 { s with jobs := s.jobs ++ [j] }

/-- A packet that fails its checks halts its queue; the sender of a forwarded one is answered (R332, R338). -/
def refusePacket (k : Queue) (code : Nat) (b : List Byte) (s : State) : State :=
  haltQueue k code (reportTo k 0 (parseHeader b).rply 3 code s)

/-- The packet at HEAD is copied into a slot and checked; it takes an id, or waits in the slot for one. One that lies in a poisoned
sector is not delivered (R87, log entry 21). -/
def fetchPacket (k : Queue) (s : State) : State :=
  match readPacket k s with
  | (.error f, s1) => if f.1.poison then s1 else haltQueue k (f.1.stage * 16 + f.1.kind) s1
  | (.ok (g, pro), s1) =>
    if g.poison then s1
    else
      let (code, s2) := packetCode (queueWho k) (s1.part k.pid) g.bytes pro s1
      if code ≠ 0 then refusePacket k code g.bytes s2
      else
        let x : Slotted := { queue := k.id, bytes := g.bytes, order := nextOrder s2, prev := k.last }
        let s3 := s2.setQueue { k with head := k.head + 1, last := some x.order }
        match freeId s3 with
        | some id => takeIn id x s3
        | none => { s3 with slotted := s3.slotted ++ [x] }

/-- PACKET_FETCH (R335, R339): a packet of the queue that waits in its slot takes a free id; else, where a slot is free and the queue
holds a packet, that is fetched. -/
def execPacketFetch (q : QueueId) (s : State) : Out :=
  let k := s.queue q
  match s.slotted.find? (fun x => x.queue == q), freeId s with
  | some x, some id => .next (takeIn id x { s with slotted := s.slotted.erase x })
  | _, _ =>
    if k.st ≠ .run || k.head = k.tailv || decide (256 ≤ slotsUsed s) then .next s else .next (fetchPacket k s)

/-! ### PROLOGUE_COMPLETE (R339) -/

/-- A poisoned sector met by the prologue ends the job (R87). -/
def killWho (w : Who) (s : State) : State := s.updJob (BitVec.ofNat 12 w.author.job) (fun j => { j with killDue := true })

/-- Units of a prologue record from `k` on; the cause of a fault. -/
def runUnits (w : Who) (r : XRec) (a b : Option LRec) : (fuel k : Nat) → SM (Option Nat)
  | 0, _ => return none
  | fuel + 1, k => do
    match ← moveUnit w (fun _ => return ()) r a b k with
    | .fault f _ => return some (f.stage * 16 + f.kind)
    | .poison => do
      modify (killWho w)
      return none
    | _ => runUnits w r a b fuel (k + 1)

/-- A prologue record: NEXT, OWN and CMPL are ignored; the cause that refuses the job (R120, R339). -/
def runRecord (w : Who) (img : List Byte) : SM (Option Nat) := do
  match ← checkCopy w none false false (Copy.fresh img 0 0) with
  | .error (.bad cause _) => return some cause.toNat
  | .error .poison => do
    modify (killWho w)
    return none
  | .ok c => runUnits w (parseRec img) c.srcL c.dstL (unitsOf (parseRec img)) 0

/-- The prologue's records in list order. -/
def runPrologue (w : Who) (j : Job) : SM (Option Nat) :=
  (List.range j.hdr.npro).foldlM (fun (bad : Option Nat) i => do
    match bad with
    | some c => return some c
    | none =>
      match ← readVirt w (j.hdr.pro.toNat + 64 * i) 64 with
      | .error f =>
        if f.1.poison then
          modify (killWho w)
          return none
        else return some (f.1.stage * 16 + f.1.kind)
      | .ok g =>
        if g.poison then
          modify (killWho w)
          return none
        else runRecord w g.bytes) none

/-- PROLOGUE_COMPLETE (R339): every prologue write performs and the job is ready; a cause refuses it with fate 2. -/
def execPrologueComplete (j : JobId) (s : State) : Out :=
  match s.job? j with
  | none => .next s
  | some job =>
    if job.st ≠ .fetched then .next s
    else match runPrologue { job.who with author := { job.who.author with kind := 1 } } job s with
      | (some c, s1) => .next (endJob job 2 c s1)
      | (none, s1) => .next (s1.updJob j (fun j => { j with st := .ready }))

/-! ### Bind (R15, R16, R19, R83, R119, R340) -/

/-- The slots of a task's domain at bind (R19): itself, its pair, or every slot. -/
def bindRange (level : BitVec 2) (slot n : Nat) : Nat × Nat :=
  match level.toNat with
  | 0 => (slot, slot)
  | 1 => (slot / 2 * 2, slot / 2 * 2 + 1)
  | _ => (0, 2 * n - 1)

/-- The read-only CSRs at bind (R267, R340). -/
def bindIdent (j : Job) (slot : Nat) : Ident :=
  let r := bindRange j.hdr.level slot j.hdr.ncl
  { phn := 0, domLast := BitVec.ofNat 8 r.2, domFirst := BitVec.ofNat 8 r.1, hlvl := j.hdr.level, level := j.hdr.level,
    jobid := j.id, taskLast := BitVec.ofNat 8 (2 * j.hdr.ncl - 1), slot := BitVec.ofNat 8 slot, vd := j.vd, pid := j.pid,
    asid := j.asid, salign := j.hdr.salign, det := j.hdr.det }

def Seq.at_ (pc : Word) : Seq := { pc := pc, n1 := pc + 4, n2 := pc + 8, ann := 0, red1 := false, red2 := false }

/-- The debug block stays with the core; its TINTR holds nothing for the next task (R105, R354). -/
def Debug.left (d : Debug) : Debug := { d with pend := false, code := 0, after := 0 }

/-- A task's state at bind: every register 0 but x1 and x2, the C strand at the entry PC, the others not started (R16, R83). -/
def bindTask (j : Job) (slot : Nat) (k : Core) : Core :=
  { Core.reset with
    job := some j.id,
    x := wr (wr Core.reset.x 1 j.hdr.arg0) 2 j.hdr.arg1,
    seq := Seq.at_ j.hdr.entry,
    id := bindIdent j slot,
    st := { Core.reset.st with c := .issuing },
    dbg := k.dbg.left }

/-- A cluster takes a job: sectors absent, channels IDLE (R119, R130). -/
def takeCluster (j : Job) (k : Nat) (cl : ClusterId) (s : State) : State :=
  s.updCluster cl (fun q => { Cluster.reset with job := some (j.id, k), granted := q.granted })

/-- A gang takes its place at its partition's carry-group node: a new job from sweep 0 on, a resumed one with its own sweep, and its up
packet of the sweep under way leaves again (R212, R213). -/
def bindNode (j : Job) (s : State) : State :=
  if j.hdr.level ≠ 3 then s
  else updNode j.pid j.id (fun n => { n with sentUp := false })
    (placeNode j.pid j.id (((j.images.head?).map (fun im => im.core.xs.scan.swn)).getD 0) s)

/-- A newcomer that an earlier job has taken promised clusters from is decided upon again (R340, R344). -/
def loseOffer (cls : List ClusterId) (k : Job) : Job :=
  match k.offer with
  | some (_, cl) => if cl.any (fun c => cls.contains c) then { k with offer := none } else k
  | none => k

/-- The device's tokens fall, the job is bound (R344). A bucket that other binds have lowered since the offer goes to 0 (log entry 4). -/
def placeJob (j : Job) (cls : List ClusterId) (s : State) : State :=
  let t := bindTokens s j
  let s1 := s.updPart j.pid (fun q =>
    let v := rd q.vdevs (i3 j.vd)
    { q with vdevs := wr q.vdevs (i3 j.vd) { v with bkt := BitVec.ofNat 16 (v.bkt.toNat - t) } })
  let n := (s1.jobs.map (fun k => k.boundAt + 1)).foldl max 0
  let s2 := s1.updJob j.id (fun j => { j with
    st := .bound, cls := cls, spent := BitVec.ofNat 16 t, tbind := if j.st = .ready then s.time else j.tbind, estAt := s.time, boundAt := n, form := none, offer := none })
  let s2 := { s2 with jobs := s2.jobs.map (loseOffer cls) }
  let s3 := (cls.zipIdx).foldl (fun (s : State) p => takeCluster j p.2 p.1 s) s2
  bindNode j s3

/-- JOB_BIND (R340). -/
def execJobBind (j : JobId) (cls : List ClusterId) (s : State) : Out :=
  match s.job? j with
  | none => .next s
  | some job =>
    if job.st ≠ .ready || !mayPlace s job cls then .next s
    else
      let s1 := placeJob job cls s
      let s2 := (cls.zipIdx).foldl (fun (s : State) p =>
        (s.updCore (coreA p.1) (bindTask job (2 * p.2))).updCore (coreB p.1) (bindTask job (2 * p.2 + 1))) s1
      .next (report job 1 0 s2)

/-! ### Leaving clusters (R131, R354, R362) -/

/-- A cluster's dirty stash sectors are written back and its sectors dropped (R131). -/
def flushStash (cl : ClusterId) (s : State) : State :=
  let mine (l : Line) : Bool := match l.owner with | .stash k _ => k == cl | .l1 _ _ _ => false
  (s.lines.filter mine).foldl (fun (s : State) l => (writeback l s).dropLine l.sector) s

/-- A job leaves a cluster: dirty stash sectors are written back; its cores hold nothing of the task. -/
def leaveCluster (cl : ClusterId) (s : State) : State :=
  let s2 := (flushStash cl s).updCluster cl (fun q => { Cluster.reset with granted := q.granted })
  [coreA cl, coreB cl].foldl (fun (s : State) c => s.updCore c (fun k => { Core.reset with dbg := k.dbg.left })) s2

def freeClusters (j : Job) (s : State) : State := j.cls.foldl (fun (s : State) cl => leaveCluster cl s) s

/-- The save-area range of a job is free again (R336, R365). -/
def freeArea (j : Job) (s : State) : State :=
  match j.area with
  | none => s
  | some a => s.updPart j.pid (fun q => { q with areas := q.areas.erase a })

/-! ### TASK_RETIRE (R18) -/

/-- Every asynchronous command of the task has completed. -/
def commandsDone (s : State) (c : CoreId) : Bool :=
  let k := s.core c
  decide (k.low = k.head) && k.tcps.isEmpty && k.spill.cmds.isEmpty && k.pend.isEmpty && !collBusy s c

/-- A task's strands stop, and the tokens left in its queues are discarded (R18, R270). -/
def retireTask (k : Core) : Core :=
  let ends (st : StrandSt) : StrandSt := match st with | .notStarted => .notStarted | _ => .retired
  { k with st := { c := .retired, l := ends k.st.l, x := ends k.st.x, s := ends k.st.s }, tok := Vector.replicate 16 0, flights := [],
           rdvWait := false }

/-- TASK_RETIRE (R18): the task whose C strand stands in the last wait of `rdv.end` retires; with the last one the job does: stash written
back, record, interrupt. -/
def execTaskRetire (c : CoreId) (s : State) : Out :=
  let k := s.core c
  match s.coreJob c with
  | none => .next s
  | some j =>
    if !k.rdvWait || decide (k.st.c = .retired) || j.killDue || !commandsDone s c ||
        !(match j.st with | .bound => true | .draining _ => true | _ => false) then .next s
    else
      let s1 := s.updCore c retireTask
      let s2 := s1.updJob j.id (fun j => { j with retired := k.id.slot :: j.retired })
      if j.retired.length + 1 < 2 * j.hdr.ncl then .next s2
      else .next (endJob j 0 0 (dropNode j.pid j.id (freeArea j (freeClusters j s2))))

/-! ### KILL (R303, R326, R345) -/

/-- A job is abandoned: its collectives end with KILL, its contexts fail, its clusters and its save area are free, its record
takes fate 1. -/
def abandonJob (j : Job) (record : Bool) (s : State) : State :=
  let s1 := collEndAll j.id 0x05 (repairKill j.id (repairDrop j.id s))
  let s2 := dropNode j.pid j.id (freeArea j (freeClusters j s1))
  if record then endJob j 1 0 s2
  else { s2 with jobs := s2.jobs.filter (fun k => k.id != j.id), colls := s2.colls.filter (fun p => p.job != j.id) }

/-- KILL (R345): of a job that an unhandled trap, a poisoned sector, a destroy or the dispatch unit has ordered killed. -/
def execKill (j : JobId) (s : State) : Out :=
  match s.job? j with
  | some job => if job.killDue then .next (abandonJob job true s) else .next s
  | none => .next s

/-! ### PREEMPTION_DECISION (R344, R346, R365) -/

/-- 64 KiB granules of a job image: 0x1_0000 bytes and 0x11_0000 for each task (R366). -/
def imageGranules (j : Job) : Nat := 1 + 17 * (2 * j.hdr.ncl)

/-- First fit from the lowest address among ranges taken (R365). -/
def firstFit (size n : Nat) (taken : List (Nat × Nat)) : Option (Nat × Nat) :=
  let starts := 0 :: taken.map (fun a => a.1 + a.2)
  let ok (b : Nat) : Bool := decide (b + n ≤ size) && taken.all (fun a => decide (b + n ≤ a.1) || decide (a.1 + a.2 ≤ b))
  ((starts.filter ok).foldl (fun (m : Option Nat) b => match m with | none => some b | some a => some (min a b)) none).map (fun b => (b, n))

/-- The form of a job's pre-emption (R344). -/
def formOf (s : State) (j : Job) (urg : Bool) : PreForm :=
  let v := jobDev s j
  if remaining s j ≤ v.drw.toNat then .drain
  else if j.hdr.kill && decide (v.kthr.toNat < remaining s j) && urg then .kill
  else .checkpoint

/-- A job that may be chosen, its form, and the range that a checkpoint will take. -/
structure Victim where
  job : Job
  form : PreForm
  area : Option (Nat × Nat)
  deriving DecidableEq, Repr

/-- Ascending tokens spent, among equals the latest bound first (R344). -/
def leavesFirst (a b : Job) : Bool :=
  decide (a.spent.toNat < b.spent.toNat) || (decide (a.spent = b.spent) && decide (b.boundAt < a.boundAt))

def insertVictim (j : Job) : List Job → List Job
  | [] => [j]
  | k :: ks => if leavesFirst j k then j :: k :: ks else k :: insertVictim j ks

/-- The partition's running jobs that are not leaving, in the order of R344. -/
def victimOrder (s : State) (p : PartId) : List Job :=
  (s.jobs.filter (fun j => j.pid == p && decide (j.st = .bound) && j.form.isNone && !j.killDue)).foldr insertVictim []

/-- The jobs in order; one whose checkpoint finds no range is left out (R365). -/
def victims (s : State) (urg : Bool) (size : Nat) : List Job → List (Nat × Nat) → List Victim
  | [], _ => []
  | j :: js, taken =>
    match formOf s j urg with
    | .checkpoint =>
      (match firstFit size (imageGranules j) taken with
       | none => victims s urg size js taken
       | some a => { job := j, form := .checkpoint, area := some a } :: victims s urg size js (a :: taken))
    | f => { job := j, form := f, area := none } :: victims s urg size js taken

/-- The shortest prefix whose clusters, with the free ones, place the newcomer. -/
def prefixFor (h : Header) : List Victim → List ClusterId → Option (List Victim)
  | [], avail => if fits h avail then some [] else none
  | v :: vs, avail => if fits h avail then some [] else (prefixFor h vs (avail ++ v.job.cls)).map (fun l => v :: l)

/-- The rotation holds at the newcomer's device and it is that device's front ready job (R346). -/
def rotationFavours (s : State) (j : Job) : Bool :=
  let q := s.part j.pid
  decide (q.rot = j.vd) && decide ((jobDev s j).weight ≠ 0) && (jobDev s j).en &&
    s.jobs.all (fun k => k.id == j.id || k.pid != j.pid || k.vd != j.vd || !k.waits || j.before k)

/-- The newcomer's offer exceeds a running job's spent tokens (R343, R344, R346). -/
def exceeds (s : State) (j : Job) (t : Nat) (v : Job) : Bool :=
  decide (v.spent.toNat < t) || (decide ((jobDev s v).weight = 0) && decide ((jobDev s j).weight ≠ 0)) ||
    (rotationFavours s j && v.vd != j.vd)

/-- What a newcomer would offer, and whom its arrival would pre-empt; none where it has to wait (R344). -/
def newcomerPlan (s : State) (j : Job) : Option (Nat × List Victim) :=
  let t := min j.hdr.ptok.toNat (jobDev s j).bkt.toNat
  let q := s.part j.pid
  match prefixFor j.hdr (victims s j.hdr.urg q.cssize.toNat (victimOrder s j.pid) q.areas) (roomFor s j) with
  | none => none
  | some vs => if vs.all (fun v => exceeds s j t v.job) then some (t, vs) else none

/-- Newcomers are decided one at a time in ready order: none before it can bind, or is still to be decided upon with effect (R344). -/
def isNext (s : State) (j : Job) : Bool :=
  !s.jobs.any (fun k => isAhead s j k && k.offer.isNone && (fits k.hdr (roomFor s k) || (newcomerPlan s k).isSome))

/-- PREEMPTION_DECISION (R344): of a newcomer, a ready job that finds no place and has not been decided upon. Jobs before it in
ready order are decided first. -/
def execPreemptionDecision (j : JobId) (s : State) : Out :=
  match s.job? j with
  | none => .next s
  | some job =>
    let room := roomFor s job
    if !job.waits || job.offer.isSome || idleHolds s job || fits job.hdr room || !isNext s job then .next s
    else match newcomerPlan s job with
      | none => .next s
      | some (t, vs) =>
        let s1 := vs.foldl (fun (s : State) v =>
          (s.updPart job.pid (fun q => { q with areas := v.area.toList ++ q.areas })).updJob v.job.id (fun k =>
            { k with form := some v.form, area := v.area, killDue := k.killDue || decide (v.form = .kill) })) s
        .next (s1.updJob j (fun k => { k with offer := some (t, placeIn job.hdr (room ++ (vs.map (fun v => v.job.cls)).flatten)) }))

/-! ### Stopping (R284, R345, R362) -/

/-- The state that a meaning of another agent ends in. -/
def afterOut (f : State → Out) (s : State) : State :=
  match f s with
  | .next s1 => s1
  | _ => s

/-- An engine strand's arrival at a rendezvous that has not completed is withdrawn: it has popped nothing (R284). -/
def withdrawArrival (st : Strand) (k : Core) : Core := { k with arr := k.arr.set st none }

/-- The open tile writes of an instruction. -/
def Flight.torn (f : Flight) : List TornTile := match f.rest with | .tiles ws => ws | _ => []

def Flight.mapTorn (g : TornTile → TornTile) (f : Flight) : Flight :=
  match f.rest with
  | .tiles ws => { f with rest := .tiles (ws.map g) }
  | _ => f

/-- Once a write has ended, another open write of the tile has its result, and no more what was there before it, in place of its own
old containers. -/
def TornTile.after (w e : TornTile) : TornTile :=
  if e.d ≠ w.d then e
  else { e with old := (e.old.zip (w.old.zip w.res)).map (fun p => if p.2.1 = p.2.2 then p.1 else p.2.2) }

/-- A tile write that others could see undone is seen whole; the last open one of a tile leaves the label of the results (R185). -/
def endTile (k : Core) (w : TornTile) : Core :=
  let fs := k.flights.map (Flight.mapTorn w.after)
  { k with
    flights := fs,
    xs := if (fs.flatMap Flight.torn).any (fun e => e.d == w.d) then k.xs else { k.xs with vtl := wr k.xs.vtl (i5 w.d) w.newl } }

/-- The open tile writes of a strand, or of all, end; what was pushed behind them settles. -/
def endTorn (who : Strand → Bool) (k : Core) : Core :=
  let isOpen (f : Flight) : Bool := match f.rest with | .tiles _ => who f.st | _ => false
  if k.flights.any isOpen then
    settle ((k.flights.filter isOpen).foldl (fun (k : Core) f =>
      f.torn.foldl endTile { k with flights := k.flights.filter (fun g => !(isOpen g && g.st == f.st)) }) k)
  else k

def stopSt (st : StrandSt) : StrandSt := match st with | .issuing => .stoppedPre | .waiting => .stoppedPre | s => s

/-- Every strand of a task stops; its waits are abandoned (R284, R362). -/
def stopTask (c : CoreId) (s : State) : State :=
  (abandonWaits c s).updCore c (fun k =>
    let k1 := endTorn (fun _ => true) (withdrawArrival .S (withdrawArrival .X (withdrawArrival .L k)))
    { k1 with st := { c := stopSt k1.st.c, l := stopSt k1.st.l, x := stopSt k1.st.x, s := stopSt k1.st.s }, atWfi := false, gwait := [] })

/-- The matrix instruction in flight that is oldest retires, if it has taken its steps; one that has not stands at its next step, where
a restore goes on (R164). -/
def retireDone (c : CoreId) (s : State) : State :=
  match (s.core c).flights.find? isMatrix with
  | some f => if f.matDone then s.updCore c (matRetire f) else s
  | none => s

/-- Started engine instructions finish (R164, R186, R227, R232). -/
def finishStarted (c : CoreId) (s : State) : State :=
  ((s.core c).flights).foldl (fun (s : State) f =>
    match f.rest with
    | .entry r _ _ _ => afterOut (execLdTileEntryWrite c r) s
    | .matrix _ => retireDone c s
    | .acOp _ _ _ => retireDone c s
    | .vtree _ _ _ => afterOut (execVtreeDelivery c) s
    | .hist _ _ _ => afterOut (execHistRdDelivery c) s
    | .tiles _ => s
    | .push => s) s

/-- A channel stands at its unit: a completion that has begun ends, an abort that was asked for takes effect (R119, R362). -/
def settleChan (cl : ClusterId) (ch : BitVec 3) (s : State) : State :=
  let s1 := chanSettle cl ch s
  if (chanAt s1 cl ch).st = .aborting then chanAborted cl ch s1 else s1

/-- Loads already issued deliver (R362). -/
def finishLoads (c : CoreId) (s : State) : State :=
  s.updCore c (fun k => (k.pend.filter (fun p => p.src == .load)).foldl (fun (k : Core) p => deliverPend p (p.val.getD 0) k) k)

/-- Posted increments are applied at their home (R280). -/
def applyPosts (j : JobId) (s : State) : State :=
  match s.job? j with
  | none => s
  | some job => job.posts.foldl (fun (s : State) p => applyPost j 0 p s) s

/-- DRAIN (R345): a job ordered to drain runs on for its window. -/
def execDrain (j : JobId) (s : State) : Out :=
  match s.job? j with
  | none => .next s
  | some job =>
    if job.st ≠ .bound || job.form ≠ some .drain then .next s
    else .next (s.updJob j (fun k => { k with st := .draining (s.time + wd ((jobDev s job).drw.toNat * 1000)) }))

/-- DRAIN_WINDOW_EXPIRY (R345): issue stops; started work goes on until CONTEXT_SAVED finds it complete. -/
def execDrainWindowExpiry (j : JobId) (s : State) : Out :=
  match s.job? j with
  | none => .next s
  | some job =>
    match job.st with
    | .draining t =>
      if s.time.toNat < t.toNat then .next s
      else .next (applyPosts j ((job.cores.foldl (fun (s : State) c => finishLoads c (stopTask c s)) s).updJob j (fun k => { k with st := .stopped })))
    | _ => .next s

/-- CHECKPOINT (R362, steps 1 to 4): strands stop, started instructions finish, sweeps abort, loads deliver, posted increments
apply, copies stand at their unit, collective programs end ABORTED. -/
def execCheckpoint (j : JobId) (s : State) : Out :=
  match s.job? j with
  | none => .next s
  | some job =>
    if job.st ≠ .bound || job.form ≠ some .checkpoint then .next s
    else
      let s1 := job.cores.foldl (fun (s : State) c => finishLoads c (finishStarted c (withdrawNet c (stopTask c s)))) s
      let s2 := applyPosts j s1
      let s3 := job.cls.foldl (fun (s : State) cl =>
        (List.finRange 8).foldl (fun (s : State) ch => settleChan cl (BitVec.ofNat 3 ch.val) s) s) s2
      .next ((repairDrop j (collEndAll j 0x04 s3)).updJob j (fun k => { k with st := .stopped }))

/-! ### CONTEXT_SAVED (R345, R362, R363, R365 to R367) -/

/-- Every member of a core's domain has issued its `scan.net`, so the sweep can commit. -/
def sweepDue (s : State) (j : Job) (c : CoreId) : Bool :=
  (s.core c).xs.net.isSome && (domainOf s j c).all (fun m => (s.core m).xs.net.isSome)

/-- A drained task's started work is complete but for what its handler must end: a channel in FAULT, held spills (R345). -/
def taskQuiet (s : State) (j : Job) (c : CoreId) : Bool :=
  let k := s.core c
  k.tcps.isEmpty && k.pend.isEmpty && (k.spill.cmds.isEmpty || k.spill.held) && !collBusy s c && !sweepDue s j c &&
    k.flights.all (fun f => decide (f.rest = .push))

def clusterQuiet (s : State) (cl : ClusterId) : Bool :=
  (s.cluster cl).chans.toList.all (fun ch => match ch.st with | .run => false | .aborting => false | _ => true)

/-- A task as it is saved: a replay that was under way begins again at the resume, with its trap (R364). -/
def savedCore (k : Core) : Core :=
  let own (t : ATrap) : Bool := match t.src with | .replay _ => false | _ => true
  { k with replay := [], atraps := k.atraps.filter own, dbg := { k.dbg with after := ((k.atraps.take k.dbg.after).filter own).length } }

/-- The images of a job's tasks, in slot order (log entry 8). -/
def imagesOf (s : State) (j : Job) : List TaskImage :=
  j.cores.map (fun c =>
    { slot := (s.core c).id.slot, die := dieOf c, core := savedCore (s.core c),
      chans := (s.cluster (clusterOf c)).chans.map (fun ch : Chan => if ch.issuer == some c then some ch else none) })

/-- CONTEXT_SAVED (R362, step 5): dirty stash sectors are written back, and a line that the gate denies reports to its task (R312);
images, flag file and counters are kept and the clusters are free; the job waits in its old place. A drained job takes its range now. -/
def execContextSaved (j : JobId) (s : State) : Out :=
  match s.job? j with
  | none => .next s
  | some job =>
    let q := s.part job.pid
    let area := match job.area with
      | some a => some a
      | none => firstFit q.cssize.toNat (imageGranules job) q.areas
    let quiet := job.form == some .checkpoint || (job.cores.all (taskQuiet s job) && job.cls.all (clusterQuiet s))
    match job.st, area with
    | .stopped, some a =>
      if job.killDue || !quiet then .next s
      else
        let s1 := job.cls.foldl (fun (s : State) cl => flushStash cl s) (job.cores.foldl (fun (s : State) c => stopTask c (withdrawNet c s)) s)
        let imgs := imagesOf s1 job
        let left := BitVec.ofNat 32 (remaining s job)
        let s2 := freeClusters job (saveImages job (areaBase q a) left.toNat (job.form == some .drain) imgs s1)
        let s3 := s2.updPart job.pid (fun q => if q.areas.contains a then q else { q with areas := a :: q.areas })
        .next (report job 0 0 (s3.updJob j (fun k => { k with
          st := .saved, cls := [], est := left, estAt := s.time, area := some a, images := imgs, form := none, offer := none })))
    | _, _ => .next s

/-! ### Replay (R364) -/

/-- The journal's entries not complete, in ascending order. -/
def openEntries (k : Core) : List Nat := k.openSeqs.filter (fun n => k.journal.any (fun e => e.seq == n && !e.done))

/-- A replayed command's result is delivered into x[d] (R364). -/
def replayResult (n : Nat) (v : Word) (lbl : Label) (k : Core) : Core :=
  match k.pend.find? (fun p => p.seq == some n) with
  | some p => { deliverPend p v k with xl := if p.reg = 0 then k.xl else wr k.xl (i6 p.reg) lbl }
  | none => jDone n k

/-- The reissue of a guarded command from what its entry holds, the threshold of its issue among it (R364, R400): a status known at issue,
or the command for the engine. -/
def reissue (c : CoreId) (e : JEntry) : M Unit := do
  match decode .C e.word with
  | .ok (.splice d a b) =>
    match ← spliceIssue c (.splice d a b) e.opa e.opb with
    | .inl v => modCore c (fun k => replayResult e.seq v 0 (jPerf e.seq v 0 k))
    | .inr q => modify (fun s => { s with repq := s.repq ++ [{ q with seq := e.seq, reg := d }] })
  | .ok (.repGo d a) =>
    let q ← repGoIssue c (.repGo d a) e.opa
    modify (fun s => { s with repq := s.repq ++ [{ q with seq := e.seq, reg := d, hthresh := e.thr }] })
  | _ => return ()

/-- A fault of a reissue (R364): an asynchronous trap before any other; in a handler it is unhandled (R352). -/
def replayFault (c : CoreId) (n : Nat) (rest : List Nat) (cause tval : Word) (s : State) : State :=
  if (s.core c).csr.inHandler then unhandled c cause tval s
  else s.updCore c (fun k =>
    { k with replay := n :: rest, atraps := { cause := cause, tval := tval, src := .replay n } :: k.atraps,
             dbg := { k.dbg with after := k.dbg.after + 1 } })

/-- Replay from an entry on. -/
def replayFrom (c : CoreId) : List Nat → State → State
  | [], s => s.updCore c (fun k => { k with replay := [] })
  | n :: ns, s =>
    match (s.core c).journal.find? (fun e => e.seq == n) with
    | none => replayFrom c ns s
    | some e =>
      if e.done then replayFrom c ns s
      else if e.perf then replayFrom c ns (s.updCore c (replayResult n e.res e.reslbl))
      else if e.guarded then
        match reissue c e s with
        | .ok (_, s1) => replayFrom c ns s1
        | .error (.trap code sub tval s1) => replayFault c n ns (causeWord true 0 code sub) tval s1
        | .error (.wait s1) => s1.updCore c (fun k => { k with replay := n :: ns })
      else replayFrom c ns s

/-- A replay that waits goes on. -/
def continueReplay (c : CoreId) (s : State) : State :=
  let k := s.core c
  if k.replay.isEmpty || k.inReplayHandler || k.atraps.any (fun t => match t.src with | .replay _ => true | _ => false) then s
  else replayFrom c k.replay s

/-! ### JOB_RESUME (R364) -/

/-- The channels of a cluster from the images of its two tasks: their commands that are not complete come from the two journals. -/
def restoreChans (cl : ClusterId) (a b : TaskImage) : Vector Chan 8 :=
  Vector.ofFn (fun i : Fin 8 =>
    let seqs := (openChanSeqs a.core i.val).map (fun n => (coreA cl, n)) ++ (openChanSeqs b.core i.val).map (fun n => (coreB cl, n))
    match rd a.chans i, rd b.chans i with
    | some ch, _ => { ch with issuer := some (coreA cl), seqs := seqs }
    | none, some ch => { ch with issuer := some (coreB cl), seqs := seqs }
    | none, none => Chan.reset)

def resumeSt (st : StrandSt) : StrandSt := match st with | .stoppedPre => .issuing | s => s

/-- A task restored on a core: strands that were stopped for the pre-emption issue again; the pending task interrupt travels. -/
def restoreTask (img : TaskImage) (k : Core) : Core :=
  let m := img.core
  { m with
    st := { c := resumeSt m.st.c, l := resumeSt m.st.l, x := resumeSt m.st.x, s := resumeSt m.st.s },
    dbg := { k.dbg with pend := m.dbg.pend, code := m.dbg.code, after := m.dbg.after } }

/-- The slot ranges of subdomains follow the dies of the new placement (R19, R21, R340), and each takes the phase number that
its tasks had reached. -/
def regroup (j : JobId) (s : State) : State :=
  match s.job? j with
  | none => s
  | some job =>
    let num (d : Fin 4) : Word32 :=
      let old := (job.images.zip job.cores).filterMap (fun p => if dieOf p.2 == d then some (rd job.phases.die p.1.die).toNat else none)
      BitVec.ofNat 32 (old.foldl max 0)
    let s1 := s.updJob j (fun k => { k with phases := { k.phases with die := Vector.ofFn num } })
    if !job.split then s1
    else job.cores.foldl (fun (s : State) c =>
      let r := dieRange s job (dieOf c)
      s.updCore c (fun k => { k with id := { k.id with domFirst := BitVec.ofNat 8 r.1, domLast := BitVec.ofNat 8 r.2 } })) s1

/-- A saved job, its images read back, binds: they are restored, the journals are replayed, and its range is free. -/
def resumeOn (job : Job) (cls : List ClusterId) (s : State) : State :=
  let s1 := placeJob job cls s
  let s2 := (cls.zipIdx).foldl (fun (s : State) p =>
    match job.images[2 * p.2]?, job.images[2 * p.2 + 1]? with
    | some a, some b =>
      let s' := s.updCluster p.1 (fun q => { q with chans := restoreChans p.1 a b })
      (s'.updCore (coreA p.1) (restoreTask a)).updCore (coreB p.1) (restoreTask b)
    | _, _ => s) s1
  let s3 := (freeArea job (regroup job.id s2)).updJob job.id (fun k => { k with area := none, images := [] })
  ((cls.map (fun cl => [coreA cl, coreB cl])).flatten).foldl (fun (s : State) c => replayFrom c (openEntries (s.core c)) s) s3

/-- JOB_RESUME (R340, R364, R368): a saved job binds again, its images are checked and restored before any strand issues. A bad
image kills the job (R368), as a poisoned one does (R87). Of a bound job whose replay waits, the replay goes on. -/
def execJobResume (j : JobId) (cls : List ClusterId) (s : State) : Out :=
  match s.job? j with
  | none => .next s
  | some job =>
    match job.st, job.area with
    | .bound, _ => .next (job.cores.foldl (fun (s : State) c => continueReplay c s) s)
    | .saved, some a =>
      if !mayPlace s job cls then .next s
      else
        let (r, s1) := readImages job (areaBase (s.part job.pid) a) s
        match r.bad with
        | some x => .next (badRestore job x s1)
        | none =>
          if r.poison then .next (s1.updJob j (fun k => { k with killDue := true }))
          else .next (report job 1 0 (resumeOn r.job cls (restoreColls r.head j (s1.updJob j (fun _ => r.job)))))
    | _, _ => .next s

/-! ### Tokens and the rotation (R343, R346) -/

/-- BUCKET_REFILL (R343): every virtual device's bucket gains WEIGHT for each µs of TIME since the last refill. -/
def execBucketRefill (s : State) : Out :=
  let n := (s.time.toNat - s.refillAt.toNat) / 1000
  .next { s with
    refillAt := s.refillAt + wd (1000 * n),
    parts := s.parts.map (fun q : Part => { q with vdevs := q.vdevs.map (fun v : VDev =>
      { v with bkt := BitVec.ofNat 16 (min (v.bkt.toNat + n * v.weight.toNat) 65535) }) }) }

/-- The rotation's members (R346). -/
def Part.rotation (q : Part) : List (BitVec 3) :=
  ((List.range 8).map (BitVec.ofNat 3)).filter (fun v => (rd q.vdevs (i3 v)).en && decide ((rd q.vdevs (i3 v)).weight ≠ 0))

/-- QUANTUM_END (R346): after QEFF at a device, or where it holds at none, the rotation moves to the next member. -/
def execQuantumEnd (p : PartId) (s : State) : Out :=
  let q := s.part p
  let ms := q.rotation
  let due := !ms.contains q.rot || decide (q.rotAt.toNat + (rd q.vdevs (i3 q.rot)).qeff.toNat * 1000 ≤ s.time.toNat)
  let nxt := match ms.find? (fun v => decide (q.rot.toNat < v.toNat)) with
    | some v => some v
    | none => ms.head?
  match due, nxt with
  | true, some v => .next (s.updPart p (fun q => { q with rot := v, rotAt := s.time }))
  | _, _ => .next s

/-! ### TRET (R258, R353, R358, R364) -/

/-- The first of SSTAT, SPC, SNPC, SDS with a reserved bit set or an SDS field of 3: its CSR number (R358). -/
def tretBad (r : Csrs) : Option Nat :=
  if !statOk r.sstat then some 0x001
  else if !addrOk r.spc then some 0x002
  else if !addrOk r.snpc then some 0x003
  else if !sdsOk r.sds then some 0x004
  else none

/-- The exemption of the trapped access holds from the return on: of the C strand's instruction, if the handler of its trap returns to it, or
of the engine strand whose trap it took (R106). -/
def armExempt (src : Option TrapSrc) (k : Core) : Core :=
  let mine (e : WpExempt) : Bool := e.strand == .C && !e.armed && decide (e.depth + 1 = k.handlers.length)
  let due (e : WpExempt) : Bool := match e.strand with
    | .C => mine e && e.pc == k.csr.spc
    | st => src == some (.strand st)
  { k with wpx := (k.wpx.filter (fun e => !mine e || due e)).map (fun e : WpExempt => if due e then { e with armed := true } else e) }

/-- The innermost handler ends: the engine strand whose trap it took issues afresh (R353). -/
def endHandler (k : Core) : Core :=
  let src := k.handlers.head?.join
  let k1 := leaveTrap (armExempt src k)
  let k2 := { k1 with st := { k1.st with c := .issuing }, handlers := k.handlers.tail }
  match src with
  | some (.strand st) => { k2 with st := k2.st.set st .issuing }
  | _ => k2

/-- TRET (R358): sequence and STAT from the saved registers; the engine strand whose trap this handler took issues afresh; a
replay that the handler interrupted goes on. -/
def execTret : State → Out :=
  runRaw (fun c => do
    let k ← getCore c
    need k.csr.inHandler cILLEGAL (wordOf .tret)
    match tretBad k.csr with
    | some n => trapNow cSTATUS (wd n)
    | none => do
      modCore c endHandler
      match k.handlers.head?.join with
      | some (.replay _) => modify (continueReplay c)
      | _ => return ())

end Sys2Proof.Machine
end

