-- ==== Sys2Proof/Machine/Fabric.lean ====
section
/-! DEFINITION. What arrives from outside over the fabrics: requests, flits and forwarded launch packets (R84, R85, R310 to R312,
R330 to R332), and the background work of the memory side (R87, R89, R109, R341). -/

namespace Sys2Proof.Machine

/-! ### The answer to a read from outside (R311, R312) -/

/-- A read response that the gate judges (R311, R312): the data, or an error completion with the drop recorded and reported. -/
def respond (cls port : Nat) (pa : Nat) (g : PhysGot) (answer : Option (List Byte) → OutMsg) (s : State) : State :=
  if g.poison then emitAt port (answer none) s
  else if gatePasses s cls g.lbls then emitAt port (answer (some g.bytes)) s
  else
    let s1 := gateDrop cls port 0 g.lbls s
    let s2 := match partOf s1 pa with
      | some p => raiseCause 6 p 0 0 0 (Config.causeDetail 6 port) s1
      | none => s1
    emitAt port (answer none) s2

/-! ### UALINK_REQUEST (R84, R85, R108, R310, R330) -/

/-- UALNUM is valid and the request names it. -/
def ualServed (s : State) (r : UalReq) : Bool :=
  bit s.ualnum.toNat 7 && decide (bits s.ualnum.toNat 0 7 = r.num.toNat)

/-- Bytes that an operation covers. -/
def ualSize : UalOp → Nat
  | .read n => n
  | .write bs => bs.length
  | _ => 8

/-- An atomic of the load-store domain: what it writes from the old value. -/
def ualNext (old : Word) : UalOp → Option Word
  | .amoAdd v => some (old + v)
  | .amoSwap v => some v
  | .amoCas c n => if old = c then some n else none
  | _ => none

def ualIsAmo : UalOp → Bool
  | .amoAdd _ | .amoSwap _ | .amoCas _ _ => true
  | _ => false

/-- UALINK_REQUEST (R85): served, or answered with an error completion that changes nothing. -/
def execUalinkRequest (r : UalReq) (s : State) : Out :=
  let pa := r.addr.toNat
  let err (s : State) : State := emitAt r.port.val (OutMsg.ualResp r.port none) s
  let a : Author := { kind := 5, clu := r.src.toNat, slot := r.port.val, job := 0 }
  let lbl := rd s.labels.inlbl r.port
  if !ualServed s r || decide (2 ^ 39 < pa + ualSize r.op) || (ualIsAmo r.op && decide (pa % 8 ≠ 0)) then .next (err s)
  else match r.op with
    | .read n =>
      let (g, s1) := physRead pa n s
      .next (respond 1 r.port.val pa g (OutMsg.ualResp r.port) s1)
    | .write bs =>
      let s1 := (physWrite a lbl pa bs s).2
      .next (emitAt r.port.val (OutMsg.ualResp r.port (some [])) s1)
    | op =>
      let (g, s1) := physRead pa 8 s
      let s2 := match if g.poison then none else ualNext (wd (leNat g.bytes)) op with
        | some v => (physWrite a lbl pa (natBytes 8 v.toNat) s1).2
        | none => s1
      .next (respond 1 r.port.val pa g (OutMsg.ualResp r.port) s2)

/-! ### RACK_LAUNCH_PACKET (R332) -/

/-- A rack queue that takes packets: RUN or HALT, not a device queue, with a free ring slot. -/
def rackTakes (q : Queue) : Bool :=
  q.rack && !q.dev && decide (q.st = .run ∨ q.st = .halt) && decide ((q.tailv - q.head).toNat < 2 ^ q.log2n)

/-- RACK_LAUNCH_PACKET (R332): the packet enters the ring under the queue's address space, with the ingress label of the fabric it
came over (R310); a fault of that write halts the queue as a fetch fault would (R334). -/
def execRackLaunchPacket (q : QueueId) (bytes : List Byte) (s : State) : Out :=
  let k := s.queue q
  if !rackTakes k || decide (bytes.length ≠ 128) then .next s
  else
    let (n, s1) := freshNat s
    let lbl := rd s1.labels.inlbl (if n % 2 = 0 then 1 else 13)
    match writeVirt (queueWho k) (k.slotVa k.tailv) bytes lbl s1 with
    | (.error f, s2) => .next (if f.1.poison then s2 else haltQueue k (f.1.stage * 16 + f.1.kind) s2)
    | (.ok _, s2) => .next (s2.setQueue { k with tailv := k.tailv + 1 })

/-! ### Links (R331) -/

def State.link (s : State) (p : Port) : Link := rd s.links p
def State.updLink (s : State) (p : Port) (f : Link → Link) : State := { s with links := wr s.links p (f (s.link p)) }

/-- A link sends a flit: the replay window holds 256. -/
def sendFlit (p : Port) (s : State) : State :=
  s.updLink p (fun l =>
    if l.down || decide (256 ≤ l.window.length) then l else { l with window := l.window ++ [l.txSeq], txSeq := l.txSeq + 1 })

/-- FLIT_RECEIVE (R331): accepted in order with a good CRC and a free buffer, else discarded; what it acknowledges leaves the
window, which is progress. -/
def execFlitReceive (f : Flit) (s : State) : Out :=
  let l := s.link f.port
  if !f.crcOk then .next s
  else
    let rest := l.window.filter (fun n => decide (f.ack ≤ n))
    let l1 := if rest.length < l.window.length then { l with window := rest, replays := 0 } else l
    let s1 := s.updLink f.port (fun _ => l1)
    if f.bufFree && decide (f.seq = l1.rxSeq) then
      let s2 := s1.updLink f.port (fun l => { l with rxSeq := l.rxSeq + 1 })
      .next { s2 with out := s2.out ++ [OutMsg.flitAck f.port (l1.rxSeq + 1)] }
    else .next s1

/-- FLIT_REPLAY (R331): the window is sent again from the first flit not acknowledged. -/
def execFlitReplay (p : Port) (s : State) : Out :=
  match (s.link p).window with
  | [] => .next s
  | n :: _ =>
    if (s.link p).down then .next s
    else
      let s1 := s.updLink p (fun l => { l with replays := l.replays + 1 })
      .next { s1 with out := s1.out ++ [OutMsg.flitReplay p n] }

/-- LINK_DOWN (R331): after 16 replays without progress. -/
def execLinkDown (p : Port) (s : State) : Out :=
  if 16 ≤ (s.link p).replays then .next (s.updLink p (fun l => { l with down := true })) else .next s

/-! ### Slices and caches (R87, R89, R109) -/

/-- Sectors of a slice with stored bytes or a side band. -/
def heldSectors (s : State) (k : Fin 32) : List Nat :=
  ((s.mem.map (fun c : Host.Cell => c.1 / 64)) ++ s.side.map (fun p : Nat × Side => p.1)).eraseDups.filter (fun n => paLocal (n * 64) && sliceOf s (n * 64) == k)

/-- EPOCH_REWRITE (R89): the side bands of other epochs take the last epoch before the current one and label 0, so that none
repeats when the 12-bit count comes round; what a read returns does not change. -/
def rewriteEpochs (k : Fin 32) (s : State) : State :=
  let e := (s.slice k).epoch
  (heldSectors s k).foldl (fun (s : State) n =>
    let sd := s.sideAt n
    if sd.epoch = e then s else { s with side := mapSet Side.none s.side n { sd with lbl := 0, epoch := e - 1 } }) s

def execEpochRewrite (k : Fin 32) (s : State) : Out := .next (rewriteEpochs k s)

/-- A new key and a new epoch on a slice (R89), the side bands rewritten first. -/
def installKey (k : Fin 32) (s : State) : State :=
  (rewriteEpochs k s).updSlice k (fun q => { q with keyGen := q.keyGen + 1, epoch := q.epoch + 1 })

/-- L1_WRITEBACK (R109): a dirty line of a core's L1 reaches its slice, or the host or remote memory that is its home. -/
def execL1Writeback (c : CoreId) (sector : Nat) (s : State) : Out :=
  match s.line? sector with
  | some l => match l.owner with
    | .l1 d _ _ => .next (if d = c then writeback l s else s)
    | .stash _ _ => .next s
  | none => .next s

/-- A soft error of a sector (R87): repaired and counted, or the sector is poisoned and the slice reports it. That the count has 32 bits
and stays at its top is the model's choice (log entry 49). -/
def eccError (sector : Nat) (corrected : Bool) (s : State) : State :=
  if !paLocal (sector * 64) then s
  else
    let k := sliceOf s (sector * 64)
    if corrected then s.updSlice k (fun q => { q with errors := satInc32 q.errors })
    else
      let sd := s.sideAt sector
      let s1 : State := { s with side := mapSet Side.none s.side sector { sd with poison := true } }
      match partOf s1 (sector * 64) with
      | some p => raiseCause 4 p 0 0 0 (Config.causeDetail 4 k.val) s1
      | none => s1

/-! ### Budgets (R341) -/

/-- What windows that have passed leave of a count: each takes its limit off; with no limit nothing stays. -/
def hlLeft (limit windows used : Nat) : Nat := if limit = 0 then 0 else used - windows * limit

/-- A partition's counts in window w, after its last one. -/
def Part.hlOpen (w : Nat) (q : Part) : Part :=
  let left (k : HlKind) : Nat := hlLeft (hlOf q k).1 (w - q.hlWin) (hlOf q k).2
  { q with hlUsed := (left .read, left .write, left .tr), hlWin := w }

/-- HOST_LINK_BUDGET_WINDOW (R341): when a µs of TIME has passed a new window opens; what a turn used beyond its own window counts in this
one (log entry 47). -/
def execHostLinkBudgetWindow (s : State) : Out :=
  .next { s with parts := s.parts.map (fun q : Part => q.hlOpen (s.time.toNat / 1000)) }

end Sys2Proof.Machine
end

