-- ==== Sys2Proof/Machine/Guarded.lean ====
section
/-! DEFINITION. The end of a guarded read's wait (R301). -/

namespace Sys2Proof.Machine

/-- The meaning of an instruction whose reads the guards check (R300); another instruction never waits there. -/
def guardedMeaning (i : Instr) (s : State) : Out :=
  match i with
  | .ld d b w o => execLd d b w o s
  | .tcp d a => execTcp d a s
  | .amoAdd d a b r sc => execAmoAdd d a b r sc s
  | .amoAnd d a b r sc => execAmoAnd d a b r sc s
  | .amoOr d a b r sc => execAmoOr d a b r sc s
  | .amoXor d a b r sc => execAmoXor d a b r sc s
  | .amoMin d a b r sc => execAmoMin d a b r sc s
  | .amoMax d a b r sc => execAmoMax d a b r sc s
  | .amoSwap d a b r sc => execAmoSwap d a b r sc s
  | .amoCas d a b r sc => execAmoCas d a b r sc s
  | .amoFadd d a b sc r => execAmoFadd d a b sc r s
  | .sdBase w g k a o => execSdBase w g k a o s
  | .sdFmt w g k a o => execSdFmt w g k a o s
  | .sdGeom w g k a o => execSdGeom w g k a o s
  | .sdScale w g k a o => execSdScale w g k a o s
  | .rgCfg w g r a o => execRgCfg w g r a o s
  | .ldTile w g r k h => execLdTile w g r k h s
  | .ldStrd w g d k h => execLdStrd w g d k h s
  | .ldGath w g d k x h => execLdGath w g d k x h s
  | .ldVt w g d k h => execLdVt w g d k h s
  | .ldBcst w g d k h => execLdBcst w g d k h s
  | _ => .next s

/-- GUARDED_READ_RESUME (R301): the waiting read issues afresh; it completes issue if the level has been reached. -/
def execGuardedReadResume (c : CoreId) (st : Strand) (s : State) : Out :=
  match (s.core c).gwait.find? (fun g => g.st == st) with
  | none => .next s
  | some g =>
    match guardedMeaning g.instr { s with cur := (c, st) } with
    | .next s1 => .next { s1 with cur := s.cur }
    | _ => .next s

end Sys2Proof.Machine
end

