-- ==== Sys2Proof/Machine/Sorrel.lean ====
section
/-! DEFINITION. Sorrel's mailbox: origins, release policies, attestation (R304, R307, R313, R378 to R380). -/

namespace Sys2Proof.Machine

/-- Exactly n bytes. -/
def fixLen (n : Nat) (b : List Byte) : List Byte := (b ++ List.replicate n 0).take n

/-- Bytes of the host's buffer, what another agent holds of them written back first (R109, R131). -/
def mbRead (pa n : Nat) : SM (List Byte) := fun s =>
  let s1 := (sectorRuns pa n).foldl (fun (s : State) r => pull none r.1 s) s
  ((List.range n).map (fun i => s1.byteAt (pa + i)), s1)

/-- Bytes put into host memory by the host die or by Sorrel: no cache of the device keeps a copy (R84, R131). -/
def hostStore (pa : Nat) (bytes : List Byte) (s : State) : State :=
  let s1 := (sectorRuns pa bytes.length).foldl (fun (s : State) r => claim none r.1 s) s
  { s1 with mem := putBytes s1.mem pa bytes }

/-- An XMSS signature's bytes (R380). -/
def sigLen : Nat := 2820

/-! ### Origins (R304, R305, R307) -/

/-- The lowest free origin slot: it holds no origin, and no entry of an earlier origin of the slot is still live. -/
def freeOrigin (l : LabelSt) : Option Nat :=
  (List.range 64).find? (fun i => !l.origins.any (fun o => o.1 == i) && !l.table.any (fun e => e.mask == wd (2 ^ i)))

/-- What a command answers: its status and response; a refused one changes nothing. -/
structure MbEnd where
  status : Byte
  resp : List Byte
  deriving DecidableEq, Repr

/-- Create origin (R304, R378). -/
def createOrigin (b : List Byte) (s : State) : MbEnd × State :=
  let pid := bytesAt b 0 1
  let auth := bytesAt b 1 1
  if 32 ≤ pid ∨ 16 ≤ auth then ({ status := 1, resp := [] }, s)
  else match freeOrigin s.labels, lowestFreeId s.labels with
    | some slot, some id =>
      let p : PartId := Fin.ofNat 32 pid
      let o : Origin := { pid := p, key := (b.drop 4).take 68, auth := BitVec.ofNat 4 auth, lbl := BitVec.ofNat 10 id }
      let e : LblEntry := { id := id, mask := wd (2 ^ slot), makers := BitVec.ofNat 32 (2 ^ p.val) }
      ({ status := 0, resp := [BitVec.ofNat 8 slot] },
        { s with labels := { s.labels with origins := (slot, o) :: s.labels.origins, table := e :: s.labels.table } })
    | _, _ => ({ status := 3, resp := [] }, s)

/-- A disabled partition's origins are free (R376). -/
def freeOrigins (p : PartId) (l : LabelSt) : LabelSt := { l with origins := l.origins.filter (fun o => o.2.pid != p) }

/-- A partition is reassigned: an entry that no other partition has produced since its own reassignment is free; no combining
cache still names it (R307). -/
def reassign (p : PartId) (l : LabelSt) : LabelSt :=
  let t := l.table.map (fun e : LblEntry => { e with makers := e.makers &&& ~~~(BitVec.ofNat 32 (2 ^ p.val)) })
  let dead := (t.filter (fun e => decide (e.makers = 0))).map (fun e : LblEntry => e.id)
  let has (x : Label) : Bool := dead.contains x.toNat
  let caches := l.caches.map (fun c : List (Label × Label × Label) => c.filter (fun e => !(has e.1 || has e.2.1 || has e.2.2)))
  { l with table := t.filter (fun e => decide (e.makers ≠ 0)), caches := caches }

/-! ### Policies (R313) -/

/-- The key of an origin slot. -/
def originKey (l : LabelSt) (i : Nat) : Option (List Byte) := (l.origins.find? (fun o => o.1 == i)).map (fun o => o.2.key)

def maskSlots (m : Word) : List Nat := (List.range 64).filter (fun i => bit m.toNat i)

/-- The highest serial accepted for an origin mask. -/
def topSerial (l : LabelSt) (m : Word) : Option Word32 := (l.serials.find? (fun t => t.1 == m)).map (fun t => t.2)

/-- The slot that an accepted policy takes: that of the installed policy of its origins, else the lowest free one (R313, R380, log entry
37). -/
def policySlot (l : LabelSt) (m : Word) : Option Nat :=
  match l.policies.find? (fun p => p.2.omask == m) with
  | some p => some p.1
  | none => (List.range 64).find? (fun i => !l.policies.any (fun p => p.1 == i))

/-- The policies in slot order. -/
def policyList (l : LabelSt) : List Policy :=
  (List.range 64).filterMap (fun i => (l.policies.find? (fun p => p.1 == i)).map (fun p => p.2))

/-- Install policy: fields, then every signature, then serial and room. -/
def installPolicy (b : List Byte) (s : State) : MbEnd × State :=
  let l := s.labels
  let r := b.take 16
  let m := wd (bytesAt r 0 8)
  let slots := maskSlots m
  let serial := BitVec.ofNat 32 (bytesAt r 12 4)
  let answer (n : Byte) : MbEnd := { status := n, resp := [n] }
  if slots.length < 2 || decide (16 ≤ bytesAt r 8 1) || decide (bytesAt r 9 3 ≠ 0) || slots.any (fun i => (originKey l i).isNone) then (answer 1, s)
  else if !(slots.zipIdx).all (fun p => match originKey l p.1 with
      | some k => Config.xmssVerify k (Config.shake256 r) ((b.drop (16 + sigLen * p.2)).take sigLen)
      | none => false) then (answer 2, s)
  else
    let low := match topSerial l m with | some t => decide (serial.toNat ≤ t.toNat) | none => false
    match (if low then none else policySlot l m) with
    | none => (answer 3, s)
    | some i =>
      let p : Policy := { omask := m, cls := BitVec.ofNat 4 (bytesAt r 8 1), serial := serial }
      let ps := (i, p) :: l.policies.filter (fun q => q.1 != i)
      (answer 0, { s with labels := { l with policies := ps, serials := (m, serial) :: l.serials.filter (fun t => t.1 != m) } })

/-- Remove policy: the OMASK of an installed policy, signed by one origin of its set over SHAKE256 of bytes 0–7. -/
def removePolicy (b : List Byte) (s : State) : MbEnd × State :=
  let l := s.labels
  let r := b.take 8
  let m := wd (leNat r)
  let sig := (b.drop 8).take sigLen
  let answer (n : Byte) : MbEnd := { status := n, resp := [n] }
  if !l.policies.any (fun p => p.2.omask == m) then (answer 1, s)
  else if !(maskSlots m).any (fun i => match originKey l i with
      | some k => Config.xmssVerify k (Config.shake256 r) sig
      | none => false) then (answer 2, s)
  else (answer 0, { s with labels := { l with policies := l.policies.filter (fun p => p.2.omask != m) } })

/-! ### Attestation (R379, R380) -/

def policyBytes (p : Policy) : List Byte := natBytes 8 p.omask.toNat ++ natBytes 1 p.cls.toNat ++ natBytes 3 0 ++ natBytes 4 p.serial.toNat

/-- The mask of the origins that a partition owns. -/
def ownedMask (l : LabelSt) (p : PartId) : Nat := ((l.origins.filter (fun o => o.2.pid == p)).map (fun o => 2 ^ o.1)).sum

/-- The report of a partition (R380). -/
def attestReport (s : State) (p : PartId) (nonce : List Byte) (idx : Word32) : List Byte :=
  let q := s.part p
  let own := ownedMask s.labels p
  let pols := ((policyList s.labels).filter (fun t => decide (t.omask.toNat &&& own ≠ 0))).map policyBytes
  fixLen 32 nonce ++ fixLen 16 Config.serial ++ fixLen 32 (Config.shake256 (Config.fwImage s.boot.image)) ++
    natBytes 4 (Config.fwVersion s.boot.image).toNat ++ natBytes 4 idx.toNat ++ natBytes 1 p.val ++ natBytes 7 0 ++
    natBytes 8 q.pclu0.toNat ++ natBytes 8 q.pclu1.toNat ++ natBytes 8 q.psl.toNat ++ natBytes 8 own ++
    fixLen 32 (Config.shake256 pols.flatten) ++ natBytes 8 s.time.toNat ++ natBytes 88 0

/-- An attestation takes its leaf index when it starts, and the counter advances then: a reset before the signature leaves wastes the index
(R379; that it is the start is the model's choice, log entry 37). None where the request is bad or no leaf is left. -/
def takeLeaf (b : List Byte) (s : State) : State :=
  if 32 ≤ bytesAt b 0 1 ∨ 2 ^ 20 ≤ s.boot.xmssidx.toNat then s
  else { s with boot := { s.boot with mbIdx := some s.boot.xmssidx, xmssidx := s.boot.xmssidx + 1 } }

/-- Attest: the report and its signature with the leaf taken. -/
def attest (b : List Byte) (s : State) : MbEnd × State :=
  if 32 ≤ bytesAt b 0 1 then ({ status := 1, resp := [] }, s)
  else match s.boot.mbIdx with
    | none => ({ status := 4, resp := [] }, s)
    | some i =>
      let rep := attestReport s (Fin.ofNat 32 (bytesAt b 0 1)) (b.drop 32) i
      let sig := natBytes 4 i.toNat ++ fixLen (sigLen - 4) (Config.xmssSign i.toNat (Config.shake256 rep))
      ({ status := 0, resp := rep ++ sig }, { s with boot := { s.boot with mbIdx := none } })

/-! ### The mailbox (R378) -/

/-- The bytes of a command's request. -/
def mbLen (cmd : Nat) (omask : Word) : Nat :=
  match cmd with
  | 1 => 72
  | 2 => 16 + sigLen * (maskSlots omask).length
  | 3 => 8 + sigLen
  | 4 => 64
  | _ => 0

/-- A command starts: its request is read at MBADDR, and BUSY stands until MAILBOX_DONE. -/
def mbStart (cmd : Nat) (s : State) : State :=
  let pa := s.boot.mbaddr.toNat
  let busy (req : List Byte) (s : State) : State := { s with boot := { s.boot with mbBusy := true, mbCmd := some (pa, cmd, req) } }
  if !paHost pa then busy [] s
  else
    let (m, s1) := mbRead pa 8 s
    let (req, s2) := mbRead pa (mbLen cmd (wd (leNat m))) s1
    busy req (if cmd = 4 then takeLeaf req s2 else s2)

/-- A command is carried out on its request. Any other CMD, and a buffer outside host memory, ends with status 1. -/
def mbRun (pa cmd : Nat) (req : List Byte) (s : State) : MbEnd × State :=
  if !paHost pa then ({ status := 1, resp := [] }, s)
  else match cmd with
    | 1 => createOrigin req s
    | 2 => installPolicy req s
    | 3 => removePolicy req s
    | 4 => attest req s
    | _ => ({ status := 1, resp := [] }, s)

/-- MAILBOX_DONE (R313, R378): the command takes effect, its response is written visibly, then DONE is set. -/
def execMailboxDone (s : State) : Out :=
  match s.boot.mbCmd with
  | none => .next s
  | some (pa, cmd, req) =>
    let (e, s1) := mbRun pa cmd req s
    let s2 := hostStore pa e.resp s1
    .next { s2 with boot := { s2.boot with mbBusy := false, mbDone := true, mbStatus := e.status, mbCmd := none } }

end Sys2Proof.Machine
end

