-- ==== Sys2Proof/Machine/HostRegs.lean ====
section
/-! DEFINITION. The registers of BAR 0 and what a host write and a host read of each does (R6, R85, R98, R102, R105, R107, R211,
R314, R330, R333, R334, R336, R341 to R343, R347, R352, R354, R365, R369 to R381), and the discard record (R373). -/

namespace Sys2Proof.Machine

/-! ### The discard record (R373) -/

/-- A discarded host access: the first is latched, all count. -/
def discard (kind bar off : Nat) (s : State) : State :=
  { s with
    hprec := if bit s.hprec.toNat 63 then s.hprec else wd (2 ^ 63 + kind * 2 ^ 60 + bar * 2 ^ 39 + off % 2 ^ 39),
    hpcnt := satInc32 s.hpcnt }

/-! ### One register write -/

/-- A write as a register sees it: the bits of its 64 that the access covers, and their values (R371). -/
structure RegWrite where
  mask : Word
  val : Word
  deriving DecidableEq, Repr

/-- A field after a write: the covered bits change (R6: RW). -/
def RegWrite.rw (w : RegWrite) (old : Word) : Word := (old &&& ~~~w.mask) ||| (w.val &&& w.mask)
/-- A 1 written to a bit (R6: W1C, W1S, WO). -/
def RegWrite.one (w : RegWrite) (i : Nat) : Bool := bit (w.val &&& w.mask).toNat i
/-- The write covers the register's low half. -/
def RegWrite.low (w : RegWrite) : Bool := bit w.mask.toNat 0

/-- Bits lo to lo + n − 1. -/
def span (lo n : Nat) : Word := wd ((2 ^ n - 1) * 2 ^ lo)

/-- What a write does: the discard kind of R373, or the next state. -/
abbrev RegEnd := Except Nat State

/-- A register with its defined bits: a reserved bit set discards the write (R6). -/
def guardBits (defined : Word) (w : RegWrite) (f : RegEnd) : RegEnd := if w.val &&& w.mask &&& ~~~defined ≠ 0 then .error 1 else f

/-- KIND 2 unless a condition holds (R373). -/
def limit (b : Bool) (s : State) : RegEnd := if b then .ok s else .error 2

/-! ### The IOC block (R85, R314, R341, R347, R373, R375, R377, R378, R381) -/

/-- A partition's configuration as PCLU0, PCLU1 and PSL would give it is refused (R341, R86). That a write which moves the partition's HBM4
range off its carve-out or its window is none of the refused ones is the model's choice (log entry 37). -/
def partRefused (s : State) (p : PartId) (q : Part) : Bool :=
  s.jobs.any (fun j => j.pid == p && (match j.st with | .fetched => false | .ready => false | _ => true)) ||
  s.queues.any (fun k => k.pid == p && decide (k.st ≠ .off)) ||
  (List.finRange 32).any (fun o => o != p && (s.part o).enabled &&
    (q.clusters.any (fun c => (s.part o).clusters.contains c) || q.sliceIds.any (fun k => (s.part o).sliceIds.contains k))) ||
  decide (5 < bits q.psl.toNat 8 3) || decide (q.slice0 % q.slices ≠ 0) || (q.enabled && q.clusters.isEmpty)

/-- Dirty sectors of a partition's memory reach their slices. -/
def flushPart (q : Part) (s : State) : State :=
  (s.lines.filter (fun l => q.inHbm (l.sector * 64))).foldl (fun (s : State) l => writeback l s) s

/-- The write takes effect: disabling frees the origins; enabling, or other slices, is a reassignment with a new key and epoch
on each slice (R89, R304, R307, R341, R376). -/
def applyPart (p : PartId) (q : Part) (s : State) : State :=
  let old := s.part p
  let s1 := (flushPart old s).updPart p (fun x => { x with pclu0 := q.pclu0, pclu1 := q.pclu1, psl := q.psl })
  if q.enabled && (!old.enabled || decide (old.sliceIds ≠ q.sliceIds)) then
    let s2 := q.sliceIds.foldl (fun (s : State) k => installKey k s) (flushPart q s1)
    { s2 with labels := reassign p s2.labels }
  else if !q.enabled && old.enabled then { s1 with labels := freeOrigins p s1.labels }
  else s1

def setPart (p : PartId) (f : Part → Part) (s : State) : RegEnd :=
  let q := f (s.part p)
  if partRefused s p q then .error 2 else .ok (applyPart p q s)

/-- Registers 0x4000 + 0x20·p (R341). -/
def writePartIoc (p : PartId) (o : Nat) (w : RegWrite) (s : State) : Option RegEnd :=
  match o with
  | 0x00 => some (setPart p (fun q => { q with pclu0 := w.rw q.pclu0 }) s)
  | 0x08 => some (guardBits (span 0 48) w (setPart p (fun q => { q with pclu1 := w.rw q.pclu1 }) s))
  | 0x10 => some (guardBits (span 63 1 ||| span 8 3 ||| span 0 5) w (setPart p (fun q => { q with psl := w.rw q.psl }) s))
  | _ => none

/-- Registers of the IOC block; offsets are multiples of 8. Here and in the other blocks the bits that a register's map neither names nor
marks rsvd are treated as reserved, the model's choice (log entry 49). A jump of TIME is no passing of time for the token buckets (R343, R377, log
entry 4). -/
def writeIoc (o : Nat) (w : RegWrite) (s : State) : Option RegEnd :=
  let b := s.boot
  if 0x4000 ≤ o ∧ o < 0x4400 then writePartIoc (Fin.ofNat 32 ((o - 0x4000) / 0x20)) ((o - 0x4000) % 0x20) w s
  else if 0x240 ≤ o ∧ o < 0x240 + 8 * 19 then some (guardBits (span 0 10) w (.error 4))
  else if 0x7FE00 ≤ o ∧ o < 0x7FF00 then
    some (guardBits (span 0 32) w (.ok (if w.low && decide ((w.val &&& w.mask &&& span 0 32) = 0) then
      s.updPart (Fin.ofNat 32 ((o - 0x7FE00) / 8)) (fun q => { q with lost := 0 }) else s)))
  else if 0x80000 ≤ o ∧ o < 0x90000 then some (guardBits (if o % 16 = 0 then ~~~(span 37 3) else BitVec.allOnes 64) w (.ok s))
  else match o with
    | 0x008 => some (guardBits (span 0 13) w (.ok s))
    | 0x010 => some (guardBits (span 60 4 ||| span 0 41) w (.ok (if w.one 63 then { s with hprec := s.hprec &&& ~~~(span 63 1), hpcnt := 0 } else s)))
    | 0x018 => some (guardBits (span 0 32) w (.ok s))
    | 0x020 => some (let v := w.rw s.time
        limit (decide (s.time.toNat ≤ v.toNat)) { s with time := v, refillAt := s.refillAt + (v - s.time) })
    | 0x028 => some (guardBits (span 0 8) w (limit (!(List.finRange 32).any (fun p => (s.part p).enabled)) { s with ualnum := w.rw s.ualnum }))
    | 0x200 => some (guardBits (span 63 1 ||| span 28 17 ||| span 0 12) w
        (.ok (if w.one 63 then { s with labels := { s.labels with relrec := 0 } } else s)))
    | 0x208 => some (guardBits (span 0 32) w (.ok s))
    | 0x210 => some (guardBits (span 0 32) w (.ok s))
    | 0x1000 => some (guardBits (span 12 36) w (.ok { s with boot := { b with mbaddr := w.rw b.mbaddr } }))
    | 0x1008 => some (guardBits (span 0 8) w
        (if w.low then (if b.mbBusy then .error 2 else .ok (mbStart (bits w.val.toNat 0 8) s)) else .ok s))
    | 0x1010 => some (guardBits (span 8 8 ||| span 0 2) w (.ok (if w.one 1 then { s with boot := { b with mbDone := false } } else s)))
    | 0x1018 => some (guardBits (span 0 32) w (.ok s))
    | 0x3000 => some (guardBits (span 0 16) w (let v := (w.rw (s.pwr.pwrcap.setWidth 64)).toNat
        limit (decide (400 ≤ v) && decide (v ≤ 1600)) { s with pwr := { s.pwr with pwrcap := BitVec.ofNat 16 v } }))
    | 0x3008 => some (guardBits (span 0 32) w (.ok s))
    | 0x3010 => some (guardBits (span 0 1) w (.ok s))
    | 0x7FFF0 => some (guardBits (span 0 32) w (.ok s))
    | 0x7FFF8 => some (guardBits (span 0 32) w (.ok { s with ctcons := (w.rw (s.ctcons.setWidth 64)).setWidth 32 }))
    | _ => none

/-! ### Work queues (R333, R334, R336) -/

/-- The conditions of enable (R334). -/
def queueReady (s : State) (q : Queue) : Bool :=
  let p := s.part q.pid
  p.enabled && (rd p.vdevs (i3 q.vd)).en && decide (1 ≤ q.log2n) && decide (q.log2n ≤ 15)

/-- A kick (R334). -/
def kick (q : Queue) (tail : Word32) (s : State) : RegEnd :=
  let fitsRing := decide ((tail - q.head).toNat ≤ 2 ^ q.log2n)
  if q.dev then .error 2
  else match q.st with
    | .run => if fitsRing then .ok (s.setQueue { q with tailv := tail }) else .ok (haltQueue q 0x08 s)
    | .halt => limit fitsRing (s.setQueue { q with tailv := tail })
    | _ => .error 2

/-- Destroy (R336): jobs never bound are discarded with fate 3, the others are to be killed; the queue is DEAD. -/
def destroyQueue (q : Queue) (s : State) : State :=
  let mine := s.jobs.filter (fun j => j.queue == q.id)
  let never (j : Job) : Bool := match j.st with | .fetched => true | .ready => true | _ => false
  let s0 : State := { s.setQueue { q with st := .dead, last := none } with slotted := s.slotted.filter (fun x => x.queue != q.id) }
  let s1 := (mine.filter never).foldl (fun (s : State) j => endJob j 3 0 s) s0
  (mine.filter (fun j => !never j)).foldl (fun (s : State) j => s.updJob j.id (fun j => { j with killDue := true })) s1

/-- A queue command (R334). -/
def queueCmd (q : Queue) (cmd : Nat) (s : State) : RegEnd :=
  match cmd, q.st with
  | 1, .off => limit (queueReady s q) (s.setQueue { q with st := .run, head := 0, tailv := 0, code := 0 })
  | 2, .halt => .ok (s.setQueue { q with st := .run, code := 0 })
  | 3, .halt => .ok (s.setQueue { q with st := .run, code := 0, head := q.head + 1 })
  | 4, .run => .ok (destroyQueue q s)
  | 4, .halt => .ok (destroyQueue q s)
  | _, _ => .error 2

def writeQueue (q : QueueId) (o : Nat) (w : RegWrite) (s : State) : Option RegEnd :=
  let k := s.queue q
  match o with
  | 0x00 => some (guardBits (span 7 45) w (limit (decide (k.st = .off)) (s.setQueue { k with base := w.rw k.base })))
  | 0x08 => some (guardBits (span 8 24 ||| span 0 6) w (limit (decide (k.st = .off)) (s.setQueue { k with cfg := w.rw k.cfg })))
  | 0x10 => some (guardBits (span 0 32) w (if w.low then kick k (w.val.setWidth 32) s else .ok s))
  | 0x18 => some (.ok s)
  | 0x20 => some (guardBits (span 8 8 ||| span 0 2) w (.ok s))
  | 0x28 => some (guardBits (span 0 3) w (if w.low then queueCmd k (bits w.val.toNat 0 3) s else .ok s))
  | _ => none

/-! ### Partition register blocks -/

/-- A range inside the partition's HBM4; an empty one lies anywhere. -/
def inPart (q : Part) (base len : Nat) : Bool :=
  decide (len = 0) || (decide (q.base ≤ base) && decide (base + len ≤ q.base + q.slices * 2 ^ 34))

def disjoint (a n b m : Nat) : Bool := decide (n = 0) || decide (m = 0) || decide (a + n ≤ b) || decide (b + m ≤ a)

/-- The constraints of R102. -/
def raceOk (q : Part) : Bool :=
  let n := q.rcsize.toNat
  inPart q q.rcbase.toNat n && inPart q q.rcwin.toNat (8 * n) && disjoint q.rcbase.toNat n q.rcwin.toNat (8 * n) &&
    decide (8 * n ≤ q.slices * 2 ^ 34)

/-- The constraints of R365. -/
def saveOk (q : Part) : Bool :=
  let n := q.cssize.toNat * 2 ^ 16
  inPart q q.csbase.toNat n && disjoint q.csbase.toNat n q.rcbase.toNat q.rcsize.toNat

def setChecked (p : PartId) (ok : Part → Bool) (f : Part → Part) (s : State) : RegEnd :=
  let q := f (s.part p)
  limit (ok q) (s.updPart p (fun _ => q))

/-- VDQ is judged (R343). -/
def judgeVdq (savewc : Nat) (v : Word) (d : VDev) : VDev :=
  let en := bit v.toNat 63
  let qreq := bits v.toNat 0 32
  let d1 := { d with weight := BitVec.ofNat 16 (bits v.toNat 32 16), qreq := BitVec.ofNat 32 qreq }
  if !en then { d1 with en := false, qeff := 0, qst := 0 }
  else if qreq = 0 then { d1 with en := false, qst := 1 }
  else if qreq < savewc then { d1 with en := true, qeff := BitVec.ofNat 32 (savewc + 10), qst := 2 }
  else { d1 with en := true, qeff := BitVec.ofNat 32 qreq, qst := 0 }

/-- VDQ as read (R342). -/
def VDev.vdq (v : VDev) : Word := wd ((if v.en then 2 ^ 63 else 0) + v.weight.toNat * 2 ^ 32 + v.qreq.toNat)
def VDev.vdp (v : VDev) : Word := wd (v.kthr.toNat * 2 ^ 32 + v.drw.toNat)

def writeVdev (p : PartId) (v : Fin 8) (o : Nat) (w : RegWrite) (s : State) : Option RegEnd :=
  let upd (f : VDev → VDev) : RegEnd := .ok (s.updPart p (fun q => { q with vdevs := wr q.vdevs v (f (rd q.vdevs v)) }))
  match o with
  | 0x00 => some (guardBits (span 63 1 ||| span 0 48) w (upd (fun d => judgeVdq (s.part p).savewc (w.rw d.vdq) d)))
  | 0x08 => some (upd (fun d =>
      let n := w.rw d.vdp
      { d with kthr := BitVec.ofNat 32 (bits n.toNat 32 32), drw := BitVec.ofNat 32 (bits n.toNat 0 32) }))
  | 0x10 => some (guardBits (span 12 36 ||| span 0 1) w (upd (fun d => { d with root := w.rw d.root })))
  | 0x18 => some (guardBits (span 48 16 ||| span 0 34) w (.ok s))
  | _ => none

/-- A UEEP entry's three words; an entry never written is zero (R330). -/
def Part.endpoint (q : Part) (e : Nat) : Word × Word × Word := mapGet (0, 0, 0) q.ueep e

/-- A program of the partition in RUN or ABORTING names the entry. -/
def endpointBusy (s : State) (p : PartId) (e : Nat) : Bool :=
  s.colls.any (fun c => c.pid == p && chNet c.hdr && c.live && c.peers.any (fun x => decide (x.toNat = e)))

def writeEndpoint (p : PartId) (e o : Nat) (w : RegWrite) (s : State) : Option RegEnd :=
  let x := (s.part p).endpoint e
  let put (y : Word × Word × Word) : RegEnd := limit (!endpointBusy s p e) (s.updPart p (fun q => { q with ueep := mapSet (0, 0, 0) q.ueep e y }))
  match o with
  | 0x00 => some (put (w.rw x.1, x.2.1, x.2.2))
  | 0x08 => some (put (x.1, w.rw x.2.1, x.2.2))
  | 0x10 => some (guardBits (span 63 1 ||| span 0 24) w (put (x.1, x.2.1, w.rw x.2.2)))
  | 0x18 => some (guardBits 0 w (limit (!endpointBusy s p e) s))
  | _ => none

/-- A write of INVCMD (R98, R99): a bad KIND sets ERR; while BUSY it is discarded and sets ERR; a count of 0 completes a command that
has a range at once. That COUNT does not count for the kinds without a range is the model's choice (log entry 11). -/
def invStart (p : PartId) (v : Nat) (s : State) : State :=
  let q := s.part p
  let kind := bits v 0 3
  if kind = 0 ∨ 5 < kind then s.updPart p (fun q => { q with invErr := true })
  else if (kind = 1 ∨ kind = 3) ∧ q.invcnt = 0 then s.updPart p (fun q => { q with invDone := true })
  else
    let c : InvCmd :=
      { kind := kind, asid := BitVec.ofNat 16 (bits v 6 16), vd := BitVec.ofNat 3 (bits v 3 3),
        page := q.invaddr.toNat / 4096, count := q.invcnt.toNat }
    s.updPart p (fun q => { q with inv := some c })

/-- SNAPCTL (R369): FIRED clears, a trigger fires while ARM is set, then ARM is set. -/
def writeSnapctl (p : PartId) (w : RegWrite) (s : State) : State :=
  let s1 := if w.one 1 then s.updPart p (fun q => { q with snapFired := false }) else s
  let s2 := if w.one 2 then fireSnap p 1 s1 else s1
  if w.one 0 then s2.updPart p (fun q => { q with snapArm := true }) else s2

def writePart (p : PartId) (o : Nat) (w : RegWrite) (s : State) : Option RegEnd :=
  let upd (f : Part → Part) : RegEnd := .ok (s.updPart p f)
  if 0x100 ≤ o ∧ o < 0x200 then writeVdev p (Fin.ofNat 8 ((o - 0x100) / 0x20)) ((o - 0x100) % 0x20) w s
  else if 0x1000 ≤ o ∧ o < 0x3000 then writeEndpoint p ((o - 0x1000) / 32) ((o - 0x1000) % 32) w s
  else match o with
    | 0x000 => some (guardBits (span 0 22) w (if w.low then .ok (invStart p w.val.toNat s) else .ok s))
    | 0x008 => some (guardBits (span 12 40) w (upd (fun q => { q with invaddr := w.rw q.invaddr })))
    | 0x010 => some (guardBits (span 0 32) w (upd (fun q => { q with invcnt := (w.rw (q.invcnt.setWidth 64)).setWidth 32 })))
    | 0x018 => some (guardBits (span 0 3) w (upd (fun q => { q with invErr := q.invErr && !w.one 2, invDone := q.invDone && !w.one 1 })))
    | 0x040 => some (guardBits (span 12 36) w (setChecked p raceOk (fun q => { q with rcbase := w.rw q.rcbase }) s))
    | 0x048 => some (guardBits (span 12 28) w (setChecked p raceOk (fun q => { q with rcsize := w.rw q.rcsize }) s))
    | 0x050 => some (guardBits (span 15 33) w (setChecked p raceOk (fun q => { q with rcwin := w.rw q.rcwin }) s))
    | 0x060 => some (guardBits (span 12 12 ||| span 0 11) w (setChecked p (fun q => decide (cgRank q < 2 ^ cgLog q))
        (fun q => { q with cgctl := w.rw q.cgctl }) s))
    | 0x068 => some (guardBits (span 0 21) w (upd (fun q => { q with imroute := w.rw q.imroute })))
    | 0x080 => some (guardBits (span 0 48) w (upd (fun q => { q with hlbud := w.rw q.hlbud })))
    | 0x088 => some (guardBits (span 0 32) w (.ok s))
    | 0x090 => some (guardBits (span 12 36) w (upd (fun q => { q with astab := w.rw q.astab })))
    | 0x0A0 => some (guardBits (span 62 2 ||| span 16 28 ||| span 0 8) w
        (if w.one 63 then upd (fun q => { q with ftrec0 := 0, ftrec1 := 0, ftrec2 := 0 }) else .ok s))
    | 0x0A8 => some (.ok s)
    | 0x0B0 => some (guardBits (span 2 50) w (.ok s))
    | 0x0C0 => some (guardBits (span 16 32) w (setChecked p saveOk (fun q => { q with csbase := w.rw q.csbase }) s))
    | 0x0C8 => some (guardBits (span 0 32) w (setChecked p saveOk (fun q => { q with cssize := (w.rw (q.cssize.setWidth 64)).setWidth 32 }) s))
    | 0x0D0 => some (guardBits (span 8 3 ||| span 0 3) w (.ok (writeSnapctl p w s)))
    | 0x0D8 => some (.ok s)
    | _ => none

/-! ### Core and slice debug blocks (R105, R107, R108, R248, R354, R369) -/

/-- TINTR (R354). -/
def writeTintr (c : CoreId) (w : RegWrite) (s : State) : RegEnd :=
  let k := s.core c
  if k.job.isNone then .error 2
  else if !w.low then .ok s
  else if w.one 8 && k.dbg.pend then .error 2
  else .ok (s.updCore c (fun k =>
    let d : Debug := { k.dbg with pend := k.dbg.pend || w.one 8, code := BitVec.ofNat 8 (bits w.val.toNat 0 8),
                                  after := if w.one 8 then k.atraps.length else k.dbg.after }
    { k with dbg := d }))

/-- Registers of a core's debug block. A SIZE of 31, reserved by R105, discards the write as KIND 2, the model's choice (log entry 49). -/
def writeCore (c : CoreId) (o : Nat) (w : RegWrite) (s : State) : Option RegEnd :=
  if o < 0x40 then
    let n : Fin 4 := Fin.ofNat 4 (o / 16)
    let p := rd (s.core c).dbg.wp n
    let put (p : Wp) : State := s.updCore c (fun k => { k with dbg := { k.dbg with wp := wr k.dbg.wp n p } })
    if o % 16 = 0 then some (guardBits (span 0 52) w (.ok (put { p with addr := w.rw p.addr })))
    else some (guardBits (span 16 16 ||| span 0 11) w (let v := w.rw p.ctl; limit (decide (bits v.toNat 4 5 ≠ 31)) (put { p with ctl := v })))
  else if 0x300 ≤ o ∧ o < 0x320 then some (guardBits (span 2 50) w (.ok s))
  else match o with
    | 0x100 => some (.ok s)
    | 0x108 => some (guardBits (span 63 1 ||| span 6 42 ||| span 0 2) w
        (.ok (if w.one 63 then s.updCore c (fun k => { k with dbg := { k.dbg with racerec := 0, racepa := k.dbg.racepa &&& ~~~(span 63 1) } }) else s)))
    | 0x180 => some (guardBits (span 0 9) w (writeTintr c w s))
    | 0x320 => some (guardBits (span 0 16) w (.ok s))
    | 0x328 => some (.ok s)
    | 0x330 => some (.ok s)
    | 0x338 => some (.ok s)
    | _ => none

/-- Registers of a slice's debug block; clearing WSREC.VALID clears WSOVF too, and the other fields stay (R108). A SIZE of 31, reserved by
R107, discards the write as KIND 2, the model's choice (log entry 49). -/
def writeSlice (k : Fin 32) (o : Nat) (w : RegWrite) (s : State) : Option RegEnd :=
  if o < 0x80 then
    let n : Fin 8 := Fin.ofNat 8 (o / 16)
    let p := rd (s.slice k).ws n
    let put (p : Wp) : State := s.updSlice k (fun q => { q with ws := wr q.ws n p })
    if o % 16 = 0 then some (guardBits (span 0 48) w (.ok (put { p with addr := w.rw p.addr })))
    else some (guardBits (span 0 7) w (let v := w.rw p.ctl; limit (decide (bits v.toNat 1 5 ≠ 31)) (put { p with ctl := v })))
  else match o with
    | 0x080 => some (guardBits (span 63 1 ||| span 8 27 ||| span 4 3 ||| span 0 3) w
        (.ok (if w.one 63 then s.updSlice k (fun q => { q with wsrec := q.wsrec &&& ~~~(span 63 1), wsovf := 0 }) else s)))
    | 0x088 => some (guardBits (span 0 48) w (.ok s))
    | 0x090 => some (guardBits (span 0 32) w (.ok s))
    | _ => none

/-! ### BAR 0 (R371) -/

/-- A write to a snapshot page, which holds copies of the RO and W1C registers `ro` of its block at their offsets (R369): it changes
nothing; a reserved bit of the register set, or an offset without a register, discards it (log entry 49). `e` is what the block's own
register makes of the write. -/
def pageWrite (ro : List (Nat × Word)) (r : Nat) (e : Option RegEnd) (s : State) : Option RegEnd :=
  if !ro.any (fun p => p.1 == r) then none
  else match e with
    | some (.error 1) => some (.error 1)
    | _ => some (.ok s)

/-- A register of BAR 0 by its offset, a multiple of 8. -/
def writeAt (o : Nat) (w : RegWrite) (s : State) : Option RegEnd :=
  if o < 0x100000 then
    (if 0x10000 ≤ o ∧ o < 0x20000 then pageWrite (iocRo s) (o - 0x10000) (writeIoc (o - 0x10000) w s) s else writeIoc o w s)
  else if o < 0x180000 then writeQueue (BitVec.ofNat 13 ((o - 0x100000) / 0x40)) ((o - 0x100000) % 0x40) w s
  else if o < 0x400000 then none
  else
    let page (b : Nat) (ro : List (Nat × Word)) (f : Nat → Option RegEnd) : Option RegEnd :=
      let r := (o - b) % 0x20000
      if 0x10000 ≤ r then pageWrite ro (r - 0x10000) (f (r - 0x10000)) s else f r
    if o < 0x800000 then
      let p : PartId := Fin.ofNat 32 ((o - 0x400000) / 0x20000)
      page 0x400000 (partRo (s.part p)) (fun r => writePart p r w s)
    else if o < 0x1000000 then none
    else if o < 0x1000000 + 224 * 0x20000 then
      let c : CoreId := Fin.ofNat 224 ((o - 0x1000000) / 0x20000)
      page 0x1000000 (coreRo (s.core c).dbg) (fun r => writeCore c r w s)
    else if o < 0x3000000 then none
    else if o < 0x3000000 + 32 * 0x20000 then
      let k : Fin 32 := Fin.ofNat 32 ((o - 0x3000000) / 0x20000)
      page 0x3000000 (sliceRo (s.slice k)) (fun r => writeSlice k r w s)
    else none

/-- INVCMD while BUSY also sets ERR (R98). -/
def invBusy (o : Nat) (s : State) : Option PartId :=
  if 0x400000 ≤ o ∧ o < 0x800000 ∧ (o - 0x400000) % 0x20000 = 0 then
    let p : PartId := Fin.ofNat 32 ((o - 0x400000) / 0x20000)
    if (s.part p).inv.isSome then some p else none
  else none

/-- A host write of BAR 0: naturally aligned, 4 or 8 bytes; before READY only HPREC takes a write (R371, R375). -/
def hostWrite (off size : Nat) (v : Word) (s : State) : State :=
  if !(decide (size = 4) || decide (size = 8)) || decide (off % size ≠ 0) then discard 3 0 off s
  else
    let sh := off % 8 * 8
    let w : RegWrite := { mask := span sh (8 * size), val := wd (v.toNat % 2 ^ (8 * size) * 2 ^ sh) }
    let o := off / 8 * 8
    match writeAt o w s with
    | none => discard 3 0 off s
    | some r =>
      if s.boot.st ≠ .ready ∧ o ≠ 0x010 ∧ o ≠ 0x008 then discard 2 0 off s
      else match invBusy o s, r with
        | some p, .ok _ => if w.low then discard 2 0 off (s.updPart p (fun q => { q with invErr := true })) else s
        | _, .ok s1 => s1
        | _, .error kind => discard kind 0 off s

/-- A host write through BAR 2 (R370): offset 0 of page q kicks queue q; anything else is discarded. -/
def hostWrite2 (off size : Nat) (v : Word) (s : State) : State :=
  if off % 4096 ≠ 0 ∨ !(decide (size = 4) || decide (size = 8)) then discard 3 1 off s
  else if s.boot.st ≠ .ready then discard 2 1 off s
  else
    let w : RegWrite := { mask := span 0 (8 * size), val := wd (v.toNat % 2 ^ (8 * size)) }
    match writeQueue (BitVec.ofNat 13 (off / 4096)) 0x10 w s with
    | some (.ok s1) => s1
    | some (.error kind) => discard kind 1 off s
    | none => discard 3 1 off s

end Sys2Proof.Machine
end

