-- ==== Sys2Proof/Machine/Host.lean ====
section
/-! DEFINITION. What the host, the pins and the management processors do to the package: register and memory accesses through the
port, invalidation, bring-up, function-level reset, power (R84, R98, R99, R334, R336, R370 to R378, R381). -/

namespace Sys2Proof.Machine

/-! ### Register reads (R6, R370, R371) -/

/-- The value that a list of registers gives an offset; zero where it names none. -/
def look (rs : List (Nat × Word)) (o : Nat) : Word := ((rs.find? (fun r => r.1 == o)).map (fun r => r.2)).getD 0

/-- A word of the cause table (R347): the last entry written at its place. -/
def causeWordAt (s : State) (o : Nat) : Word :=
  let i := (o - 0x80000) / 16
  match ((s.causes.zipIdx).filter (fun e => decide (e.2 % 4096 = i))).getLast? with
  | none => 0
  | some e => if o % 16 = 0 then e.1.w0 else e.1.time

def readIoc (s : State) (o : Nat) : Word :=
  if 0x4000 ≤ o ∧ o < 0x4400 then
    let q := s.part (Fin.ofNat 32 ((o - 0x4000) / 0x20))
    look [(0x00, q.pclu0), (0x08, q.pclu1), (0x10, q.psl)] ((o - 0x4000) % 0x20)
  else if 0x7FE00 ≤ o ∧ o < 0x7FF00 then (s.part (Fin.ofNat 32 ((o - 0x7FE00) / 8))).lost.setWidth 64
  else if 0x80000 ≤ o ∧ o < 0x90000 then causeWordAt s o
  else look (iocRo s ++ [(0x028, s.ualnum), (0x1000, s.boot.mbaddr), (0x3000, s.pwr.pwrcap.setWidth 64),
    (0x7FFF0, s.ctprod.setWidth 64), (0x7FFF8, s.ctcons.setWidth 64)]) o

/-- WQSTAT.STATE (R333). -/
def QSt.num : QSt → Nat
  | .off => 0 | .run => 1 | .halt => 2 | .dead => 3

def readQueue (q : Queue) (o : Nat) : Word :=
  look [(0x00, q.base), (0x08, q.cfg), (0x18, wd (q.tailv.toNat * 2 ^ 32 + q.head.toNat)), (0x20, wd (q.code.toNat * 256 + q.st.num))] o

def readPart (q : Part) (o : Nat) : Word :=
  if 0x100 ≤ o ∧ o < 0x200 then
    let v := rd q.vdevs (Fin.ofNat 8 ((o - 0x100) / 0x20))
    look [(0x00, v.vdq), (0x08, v.vdp), (0x10, v.root), (0x18, v.vdstat)] ((o - 0x100) % 0x20)
  else if 0x1000 ≤ o ∧ o < 0x3000 then
    let e := q.endpoint ((o - 0x1000) / 32)
    look [(0x00, e.1), (0x08, e.2.1), (0x10, e.2.2)] ((o - 0x1000) % 32)
  else look (partRo q ++ [(0x008, q.invaddr), (0x010, q.invcnt.setWidth 64), (0x040, q.rcbase), (0x048, q.rcsize), (0x050, q.rcwin),
    (0x060, q.cgctl), (0x068, q.imroute), (0x080, q.hlbud), (0x090, q.astab), (0x0C0, q.csbase), (0x0C8, q.cssize.setWidth 64)]) o

/-- A block's watchpoint pairs. -/
def wpRegs {n : Nat} (w : Vector Wp n) : List (Nat × Word) :=
  ((w.toList.zipIdx).map (fun p => [(16 * p.2, p.1.addr), (16 * p.2 + 8, p.1.ctl)])).flatten

def readCore (k : Core) (o : Nat) : Word :=
  look (coreRo k.dbg ++ wpRegs k.dbg.wp ++ [(0x180, wd ((if k.dbg.pend then 256 else 0) + k.dbg.code.toNat))]) o

def readSlice (k : Slice) (o : Nat) : Word := look (sliceRo k ++ wpRegs k.ws) o

/-- A register of BAR 0 as read; a snapshot page shows what was latched (R369, R371). -/
def readAt (s : State) (o : Nat) : Word :=
  let block (b n : Nat) : Bool := decide (b ≤ o) && decide (o < b + n * 0x20000)
  let page (b : Nat) (f : Nat → Word) : Word := if 0x10000 ≤ (o - b) % 0x20000 then look s.snaps o else f ((o - b) % 0x20000)
  if o < 0x100000 then (if 0x10000 ≤ o ∧ o < 0x20000 then look s.snaps o else readIoc s o)
  else if o < 0x180000 then readQueue (s.queue (BitVec.ofNat 13 ((o - 0x100000) / 0x40))) ((o - 0x100000) % 0x40)
  else if block 0x400000 32 then page 0x400000 (readPart (s.part (Fin.ofNat 32 ((o - 0x400000) / 0x20000))))
  else if block 0x1000000 224 then page 0x1000000 (readCore (s.core (Fin.ofNat 224 ((o - 0x1000000) / 0x20000))))
  else if block 0x3000000 32 then page 0x3000000 (readSlice (s.slice (Fin.ofNat 32 ((o - 0x3000000) / 0x20000))))
  else 0

/-- The boot states in which only BOOTST and HPREC are readable (R375). -/
def readable (s : State) (o : Nat) : Bool :=
  match s.boot.st with
  | .ready => true
  | .failed => true
  | _ => o == 0x008 || o == 0x010

/-- A register stands at an offset of BAR 0 (R371). -/
def namesReg (s : State) (o : Nat) : Bool := (writeAt o { mask := 0, val := 0 } s).isSome

/-- A host read of a register: of a bad size or alignment it gives zero; every read of BAR 2 is discarded (R370, R371). -/
def hostReadReg (two : Bool) (off size : Nat) (s : State) : State :=
  let answer (v : Word) (s : State) : State := { s with out := s.out ++ [OutMsg.hostReg v] }
  if two then answer 0 (discard 3 1 off s)
  else if !(decide (size = 4) || decide (size = 8)) || decide (off % size ≠ 0) then answer 0 s
  else
    let o := off / 8 * 8
    let (v, s1) : Word × State := if readable s o || !namesReg s o then (readAt s o, s) else freshWord s
    answer (wd (bits v.toNat (off % 8 * 8) (8 * size))) s1

/-! ### HOST_REGISTER_WRITE and the named register writes (R371, R373) -/

/-- HOST_REGISTER_WRITE (R371). -/
def execHostRegisterWrite (off : BitVec 26) (size : Nat) (v : Word) (s : State) : Out := .next (hostWrite off.toNat size v s)

/-- Registers of queue q. -/
def queueReg (q : QueueId) : Nat := 0x100000 + 0x40 * q.toNat

/-- A command of INVCMD (R98). -/
def invWrite (p : PartId) (kind asid vd : Nat) (s : State) : State := hostWrite (partBlock p) 8 (wd (asid * 64 + vd * 8 + kind)) s

/-- INV_STAGE1_RANGE (R98). -/
def execInvStage1Range (p : PartId) (asid : BitVec 16) (s : State) : Out := .next (invWrite p 1 asid.toNat 0 s)
/-- INV_STAGE1_ALL (R98). -/
def execInvStage1All (p : PartId) (asid : BitVec 16) (s : State) : Out := .next (invWrite p 2 asid.toNat 0 s)
/-- INV_STAGE2_RANGE (R98). -/
def execInvStage2Range (p : PartId) (vd : BitVec 3) (s : State) : Out := .next (invWrite p 3 0 vd.toNat s)
/-- INV_STAGE2_ALL (R98). -/
def execInvStage2All (p : PartId) (vd : BitVec 3) (s : State) : Out := .next (invWrite p 4 0 vd.toNat s)
/-- INV_PARTITION_ALL (R98). -/
def execInvPartitionAll (p : PartId) (s : State) : Out := .next (invWrite p 5 0 0 s)

/-- WQKICK (R334). -/
def execWqkick (q : QueueId) (tail : Word) (s : State) : Out := .next (hostWrite (queueReg q + 0x10) 8 tail s)
/-- WQ_ENABLE (R334). -/
def execWqEnable (q : QueueId) (s : State) : Out := .next (hostWrite (queueReg q + 0x28) 8 1 s)
/-- WQ_RESUME (R334). -/
def execWqResume (q : QueueId) (s : State) : Out := .next (hostWrite (queueReg q + 0x28) 8 2 s)
/-- WQ_SKIP (R334). -/
def execWqSkip (q : QueueId) (s : State) : Out := .next (hostWrite (queueReg q + 0x28) 8 3 s)
/-- WQ_DESTROY (R336). -/
def execWqDestroy (q : QueueId) (s : State) : Out := .next (hostWrite (queueReg q + 0x28) 8 4 s)

/-- QUEUE_OFF_AFTER_DESTROY (R334): the last job of a DEAD queue has gone. -/
def execQueueOffAfterDestroy (q : QueueId) (s : State) : Out :=
  let k := s.queue q
  if k.st ≠ .dead || s.jobs.any (fun j => j.queue == q) then .next s
  else .next (raiseCause 3 k.pid k.vd.toNat 0 q.toNat (Config.causeDetail 3 q.toNat) (s.setQueue { k with st := .off }))

/-- PSL (R341). -/
def execPsl (p : PartId) (v : Word) (s : State) : Out := .next (hostWrite (0x4010 + 0x20 * p.val) 8 v s)
/-- VDQ (R343). -/
def execVdq (p : PartId) (vd : BitVec 3) (v : Word) (s : State) : Out := .next (hostWrite (partBlock p + 0x100 + 0x20 * vd.toNat) 8 v s)
/-- TINTR (R354). -/
def execTintr (c : CoreId) (v : Word) (s : State) : Out := .next (hostWrite (coreBlock c + 0x180) 8 v s)
/-- TIMESET (R377). -/
def execTimeset (v : Word) (s : State) : Out := .next (hostWrite 0x020 8 v s)
/-- SNAP_HOST_TRIGGER (R369). -/
def execSnapHostTrigger (p : PartId) (s : State) : Out := .next (hostWrite (partBlock p + 0x0D0) 8 4 s)
/-- SNAP_ARM (R369). -/
def execSnapArm (p : PartId) (s : State) : Out := .next (hostWrite (partBlock p + 0x0D0) 8 1 s)

/-- A VALID bit, bit 63 of a record. -/
def validBit : Word := span 63 1

/-- WSREC_VALID_CLEAR (R108). -/
def execWsrecValidClear (k : Fin 32) (s : State) : Out := .next (hostWrite (sliceBlock k + 0x080) 8 validBit s)
/-- RACEPA_VALID_CLEAR (R248). -/
def execRacepaValidClear (c : CoreId) (s : State) : Out := .next (hostWrite (coreBlock c + 0x108) 8 validBit s)
/-- HPREC_VALID_CLEAR (R373). -/
def execHprecValidClear (s : State) : Out := .next (hostWrite 0x010 8 validBit s)
/-- RELREC_VALID_CLEAR (R314). -/
def execRelrecValidClear (s : State) : Out := .next (hostWrite 0x200 8 validBit s)
/-- FTREC_VALID_CLEAR (R352). -/
def execFtrecValidClear (p : PartId) (s : State) : Out := .next (hostWrite (partBlock p + 0x0A0) 8 validBit s)
/-- LOST_CLEAR (R347). -/
def execLostClear (p : PartId) (s : State) : Out := .next (hostWrite (0x7FE00 + 8 * p.val) 8 0 s)

/-- CREATE_ORIGIN (R304, R378). -/
def execCreateOrigin (s : State) : Out := .next (hostWrite 0x1008 8 1 s)
/-- INSTALL_POLICY (R313, R378). -/
def execInstallPolicy (s : State) : Out := .next (hostWrite 0x1008 8 2 s)
/-- REMOVE_POLICY (R313, R378). -/
def execRemovePolicy (s : State) : Out := .next (hostWrite 0x1008 8 3 s)
/-- ATTEST (R378 to R380). -/
def execAttest (s : State) : Out := .next (hostWrite 0x1008 8 4 s)

/-! ### Memory through BAR 4 (R372) -/

/-- Every byte of [pa, pa + n) lies in an enabled partition. -/
def inPartitions (s : State) (pa n : Nat) : Bool := decide (pa + n ≤ 2 ^ 39) && (sectorRuns pa n).all (fun r => (partOf s (r.1 * 64)).isSome)

/-- HOST_MEMORY_READ (R372): gated, or an Unsupported Request outside every partition. -/
def execHostMemoryRead (off : BitVec 39) (n : Nat) (s : State) : Out :=
  let pa := off.toNat
  if !inPartitions s pa n then .next { s with out := s.out ++ [OutMsg.hostRead none] }
  else
    let (g, s1) := physRead pa n s
    .next (respond 0 0 pa g OutMsg.hostRead s1)

/-- HOST_MEMORY_WRITE (R372): label INLBL of port 0; discarded outside every partition. A slice watchpoint records CLU 0 for it, the
model's choice (log entry 46). -/
def execHostMemoryWrite (off : BitVec 39) (bytes : List Byte) (s : State) : Out :=
  let pa := off.toNat
  if !inPartitions s pa bytes.length then .next (discard 5 2 pa s)
  else .next (physWrite { kind := 6, clu := 0, slot := 0, job := 0 } (rd s.labels.inlbl 0) pa bytes s).2

/-- The host die writes its own memory (R84, R312); the device sees it at its next read. -/
def hostLocal (pa : Nat) (bytes : List Byte) (s : State) : State :=
  if paHost pa && decide (pa + bytes.length ≤ 2 ^ 41) then
    hostStore pa bytes s
  else s

/-! ### INVALIDATION_DONE (R99) -/

/-- A command covers an address space of a virtual device, and the page in it. Stage-two commands take the whole device. -/
def InvCmd.covers (i : InvCmd) (asid : BitVec 16) (vd : BitVec 3) (page : Nat) : Bool :=
  match i.kind with
  | 1 => decide (i.asid = asid) && decide (i.page ≤ page) && decide (page < i.page + i.count)
  | 2 => decide (i.asid = asid)
  | 3 => decide (i.vd = vd)
  | 4 => decide (i.vd = vd)
  | _ => true

/-- A translation of a page uses an affected entry: for stage one, one whose leaf, the pages from `leaf` on, maps a page of the range
(R92, R99). -/
def InvCmd.uses (i : InvCmd) (asid : BitVec 16) (vd : BitVec 3) (page leaf span : Nat) : Bool :=
  match i.kind with
  | 1 => decide (i.asid = asid) && decide (i.page < leaf + span) && decide (leaf < i.page + i.count)
  | _ => i.covers asid vd page

/-- The pages whose translations an engine instruction in flight uses until its accesses have performed: of the entries that it holds, or
fills (R141, R156). -/
def Flight.usedPages (f : Flight) : List Page :=
  match f.rest with
  | .entry _ _ _ _ => f.pages
  | .matrix _ => if f.matDone then [] else f.pages
  | _ => []

/-- Some access that uses an affected translation has not performed yet (R99, item 3). -/
def InvCmd.waits (i : InvCmd) (s : State) (c : CoreId) : Bool :=
  let k := s.core c
  k.flights.any (fun f => f.usedPages.any (fun p => i.uses k.id.asid k.id.vd p.vpage p.leaf p.span))

/-- Affected stash pages of a cluster are written back and become absent (R99, R131). -/
def invStash (i : InvCmd) (cl : ClusterId) (s : State) : State :=
  match (s.cluster cl).job with
  | none => s
  | some (jid, k) =>
    match s.job? jid with
    | none => s
    | some j =>
      let hit (f : Frame) : Bool := i.covers j.asid j.vd ((j.hdr.swb.toNat + k * 2 ^ 22) / 4096 + f.idx)
      let mine (l : Line) : Bool := (s.cluster cl).frames.any (fun f => hit f && decide (l.owner = .stash cl f.idx))
      let s1 := (s.lines.filter mine).foldl (fun (s : State) l => (writeback l s).dropLine l.sector) s
      s1.updCluster cl (fun c => { c with frames := c.frames.filter (fun f => !hit f) })

/-- INVALIDATION_DONE (R99): once the accesses that use affected translations have performed, those translations are gone, the affected
lines, by what they record of theirs, and stash pages are written back and given up, and DONE is set. -/
def execInvalidationDone (p : PartId) (s : State) : Out :=
  let q := s.part p
  match q.inv with
  | none => .next s
  | some i =>
    if q.cores.any (i.waits s) then .next s
    else
      let s1 : State := { s with tlb := s.tlb.filter (fun t => !(t.pid == p && i.uses t.asid t.vd t.vpage t.leaf t.span)) }
      let mine (l : Line) : Bool := match l.owner with
        | .l1 _ asid v => l.tag.all (fun t => t.pid == p && i.covers asid t.vd v)
        | .stash _ _ => false
      let s2 := (s1.lines.filter mine).foldl (fun (s : State) l => (writeback l s).dropLine l.sector) s1
      let s3 := q.clusters.foldl (fun (s : State) cl => invStash i cl s) s2
      .next (s3.updPart p (fun q => { q with inv := none, invDone := true }))

/-! ### Pins and bring-up (R374 to R376) -/

/-- COLD_RESET (R376): RESET_N is low; all state is discarded but what is not the package's volatile state: the host's memory,
the fused and flash contents, Sorrel's counter, the pins. -/
def execColdReset (s : State) : Out :=
  let r := State.reset
  .next { r with
    mem := s.mem.filter (fun c : Host.Cell => paHost c.1),
    boot := { r.boot with xmssidx := s.boot.xmssidx },
    pwr := { r.pwr with pwrgood := s.pwr.pwrgood, refclk := s.pwr.refclk },
    freeCtr := s.freeCtr, agenda := s.agenda, cur := s.cur, out := s.out }

/-- BRINGUP_START (R375): PWRGOOD high, REFCLK stable, RESET_N released. -/
def execBringupStart (s : State) : Out :=
  if s.pwr.pwrgood && s.pwr.refclk && !s.pwr.resetn then .next { s with pwr := { s.pwr with resetn := true } } else .next s

/-- UCIe has trained: RESET is over (R375). -/
def bootVerify (s : State) : State :=
  if s.pwr.resetn && decide (s.boot.st = .reset) then { s with boot := { s.boot with st := .verify } } else s

/-- The verdict on a boot-flash slot (R375): 0, or the code of the first check that fails: the format, the signature by the key whose
digest is fused over SHAKE256 of the image, the version against the fused minimum. -/
def slotCode (n : Nat) : Byte :=
  if !Config.fwFormed n then 0x03
  else if !(decide (Config.shake256 (Config.fwKey n) = Config.fusedDigest) &&
      Config.xmssVerify (Config.fwKey n) (Config.shake256 (Config.fwImage n)) (Config.fwSig n)) then 0x01
  else if (Config.fwVersion n).toNat < Config.fusedVersion.toNat then 0x02
  else 0

/-- VERIFY (R375): slot A, then slot B, which hold the images of these numbers. Which slot SLOT names after both failed is open. -/
def execVerify (a b : Nat) (s : State) : Out :=
  if !s.pwr.resetn || !(decide (s.boot.st = .verify) || decide (s.boot.st = .reset)) then .next s
  else if slotCode a = 0 then .next { s with boot := { s.boot with st := .meminit, slot := 0, image := a } }
  else if slotCode b = 0 then .next { s with boot := { s.boot with st := .meminit, slot := 1, image := b } }
  else
    let (w, s1) := freshNat s
    .next { s1 with boot := { s1.boot with st := .failed, code := slotCode b, slot := BitVec.ofNat 8 (w % 2) } }

/-- A partition without EN; its origins are free (R341, R376). -/
def disablePart (p : PartId) (s : State) : State :=
  let s1 := (flushPart (s.part p) s).updPart p (fun q => { q with psl := q.psl &&& ~~~validBit })
  { s1 with labels := freeOrigins p s1.labels }

def disableAll (s : State) : State := (List.finRange 32).foldl (fun (s : State) p => disablePart p s) s

/-- HBM4 training ends: READY, or FAILED with the lowest stack that failed. -/
def trained (bad : List (Fin 8)) (s : State) : State :=
  match (List.finRange 8).find? (fun n => bad.contains n) with
  | none => { s with boot := { s.boot with st := .ready, code := 0 } }
  | some n => { s with boot := { s.boot with st := .failed, code := BitVec.ofNat 8 (0x10 + n.val) } }

/-- MEMINIT (R375): partitions disabled, TIME from 0. -/
def execMeminit (bad : List (Fin 8)) (s : State) : Out :=
  if s.boot.st ≠ .meminit then .next s else .next (trained bad { disableAll s with time := 0, refillAt := 0 })

/-- FUNCTION_LEVEL_RESET (R376). -/
def execFunctionLevelReset (bad : List (Fin 8)) (s : State) : Out :=
  if !(decide (s.boot.st = .ready) || (decide (s.boot.st = .failed) && decide (0x10 ≤ s.boot.code.toNat))) then .next s
  else
    let s1 := s.jobs.foldl (fun (s : State) j => match s.job? j.id with | some k => abandonJob k false s | none => s) s
    let s2 := disableAll s1
    .next (trained bad { s2 with
      queues := s2.queues.map (fun q : Queue => { q with st := .off, last := none }), slotted := [], causes := [], ctprod := 0, ctcons := 0 })

/-- PPS_IN (R268, R374): slews only the rate at which TIME advances; the length of a tick is the agenda's (log entry 4). -/
def execPpsIn (s : State) : Out := .next s

/-! ### Power (R381) -/

/-- Clusters that a grant covers. -/
def grantAll (f : ClusterId → Bool) (s : State) : State :=
  (List.finRange 112).foldl (fun (s : State) cl => s.updCluster cl (fun k => { k with granted := f cl })) s

/-- LOVAGE_GRANT (R381): the clusters that may issue until the next grant, and the mean power; none during a trip. -/
def execLovageGrant (granted : List ClusterId) (mw : Word32) (s : State) : Out :=
  .next (grantAll (fun cl => granted.contains cl && !s.pwr.trip) { s with pwr := { s.pwr with pwrnow := mw } })

/-- THERMAL_TRIP (R381): every grant is zero, THERM_N is low. -/
def execThermalTrip (s : State) : Out :=
  .next (grantAll (fun _ => false) { s with pwr := { s.pwr with trip := true, thermn := false } })

/-- THERMAL_TRIP_END (R381). -/
def execThermalTripEnd (s : State) : Out :=
  if !s.pwr.trip then .next s
  else .next (grantAll (fun _ => true) { s with pwr := { s.pwr with trip := false, thermn := true } })

end Sys2Proof.Machine
end

