-- ==== Sys2Proof/Machine/Scalar.lean ====
section
/-! DEFINITION. Scalar integer instructions of the C strand (R57, R65, R250, R251). -/

namespace Sys2Proof.Machine

/-- The two-register form: the joined label of both sources (R251). -/
def oprRR (f : Word → Word → Word) (d a b : BitVec 6) : State → Out :=
  runPlain (fun c => do
    needFree c d
    let x ← readXL c a
    let y ← readXL c b
    let l ← lift (joinL c x.2 y.2)
    writeX c d (f x.1 y.1) l)

/-- The immediate and unary forms: the label of the source (R251). -/
def oprRI (f : Word → Word) (d a : BitVec 6) : State → Out :=
  runPlain (fun c => do
    needFree c d
    let x ← readXL c a
    writeX c d (f x.1) x.2)

/-- `lih` and `adpc`: label 0 (R251). -/
def oprPc (f : Word → Word) (d : BitVec 6) : State → Out :=
  runPlain (fun c => do
    needFree c d
    writeX c d (f (← getCore c).seq.pc) 0)

/-! ### The operations (R57, R251) -/

def boolWord (b : Bool) : Word := if b then 1 else 0
/-- Shift amounts b[5:0] (R251). -/
def shiftOf (b : Word) : Nat := b.toNat % 64
def mulHigh (a b : Word) : Word := word (a.toInt * b.toInt / 2 ^ 64)
def mulHighU (a b : Word) : Word := wd (a.toNat * b.toNat / 2 ^ 64)
/-- Signed division truncates toward zero; by 0 it gives −1, and −2^63 / −1 gives −2^63 (R57). -/
def divS (a b : Word) : Word := if b = 0 then BitVec.allOnes 64 else word (Int.tdiv a.toInt b.toInt)
def divU (a b : Word) : Word := if b = 0 then BitVec.allOnes 64 else wd (a.toNat / b.toNat)
/-- The remainder takes the sign of a; by 0 it gives a (R57). -/
def remS (a b : Word) : Word := if b = 0 then a else word (Int.tmod a.toInt b.toInt)
def remU (a b : Word) : Word := if b = 0 then a else wd (a.toNat % b.toNat)
def minS (a b : Word) : Word := if slt64 b a then b else a
def maxS (a b : Word) : Word := if slt64 a b then b else a
/-- Leading zeros: 64 for 0 (R251). -/
def clz64 (a : Word) : Word := if a = 0 then 64 else wd (63 - Nat.log2 a.toNat)
/-- Trailing zeros: 64 for 0 (R251). -/
def ctzFrom : Nat → Nat → Nat
  | 0, _ => 0
  | n + 1, v => if v % 2 = 1 then 0 else 1 + ctzFrom n (v / 2)
def ctz64 (a : Word) : Word := wd (ctzFrom 64 a.toNat)
def popc64 (a : Word) : Word := wd (popcount 64 a.toNat)
def sra64 (a : Word) (n : Nat) : Word := a.sshiftRight n

/-! ### The instructions -/

/-- ADD (R251). -/
def execAdd (d a b : BitVec 6) : State → Out := oprRR (fun a b => a + b) d a b

/-- SUB (R251). -/
def execSub (d a b : BitVec 6) : State → Out := oprRR (fun a b => a - b) d a b

/-- AND (R251). -/
def execAnd (d a b : BitVec 6) : State → Out := oprRR (fun a b => a &&& b) d a b

/-- OR (R251). -/
def execOr (d a b : BitVec 6) : State → Out := oprRR (fun a b => a ||| b) d a b

/-- XOR (R251). -/
def execXor (d a b : BitVec 6) : State → Out := oprRR (fun a b => a ^^^ b) d a b

/-- SLL (R251). -/
def execSll (d a b : BitVec 6) : State → Out := oprRR (fun a b => a <<< shiftOf b) d a b

/-- SRL (R251). -/
def execSrl (d a b : BitVec 6) : State → Out := oprRR (fun a b => a >>> shiftOf b) d a b

/-- SRA (R251). -/
def execSra (d a b : BitVec 6) : State → Out := oprRR (fun a b => sra64 a (shiftOf b)) d a b

/-- SLT (R251). -/
def execSlt (d a b : BitVec 6) : State → Out := oprRR (fun a b => boolWord (slt64 a b)) d a b

/-- SLTU (R251). -/
def execSltu (d a b : BitVec 6) : State → Out := oprRR (fun a b => boolWord (ult64 a b)) d a b

/-- MUL (R251). -/
def execMul (d a b : BitVec 6) : State → Out := oprRR (fun a b => a * b) d a b

/-- MULH (R251). -/
def execMulh (d a b : BitVec 6) : State → Out := oprRR mulHigh d a b

/-- MULHU (R251). -/
def execMulhu (d a b : BitVec 6) : State → Out := oprRR mulHighU d a b

/-- DIV (R57). -/
def execDiv (d a b : BitVec 6) : State → Out := oprRR divS d a b

/-- DIVU (R57). -/
def execDivu (d a b : BitVec 6) : State → Out := oprRR divU d a b

/-- REM (R57). -/
def execRem (d a b : BitVec 6) : State → Out := oprRR remS d a b

/-- REMU (R57). -/
def execRemu (d a b : BitVec 6) : State → Out := oprRR remU d a b

/-- MIN (R251). -/
def execMin (d a b : BitVec 6) : State → Out := oprRR minS d a b

/-- MAX (R251). -/
def execMax (d a b : BitVec 6) : State → Out := oprRR maxS d a b

/-- CLZ (R251). -/
def execClz (d a : BitVec 6) : State → Out := oprRI clz64 d a

/-- CTZ (R251). -/
def execCtz (d a : BitVec 6) : State → Out := oprRI ctz64 d a

/-- POPC (R251). -/
def execPopc (d a : BitVec 6) : State → Out := oprRI popc64 d a

/-- ADDI (R251). -/
def execAddi (d a : BitVec 6) (i : BitVec 14) : State → Out := oprRI (fun a => a + sext64 i) d a

/-- ANDI (R251). -/
def execAndi (d a : BitVec 6) (i : BitVec 14) : State → Out := oprRI (fun a => a &&& sext64 i) d a

/-- ORI (R251). -/
def execOri (d a : BitVec 6) (i : BitVec 14) : State → Out := oprRI (fun a => a ||| sext64 i) d a

/-- XORI (R251). -/
def execXori (d a : BitVec 6) (i : BitVec 14) : State → Out := oprRI (fun a => a ^^^ sext64 i) d a

/-- SLTI (R251). -/
def execSlti (d a : BitVec 6) (i : BitVec 14) : State → Out := oprRI (fun a => boolWord (slt64 a (sext64 i))) d a

/-- SLLI (R65, R251). -/
def execSlli (d a : BitVec 6) (k : BitVec 6) : State → Out := oprRI (fun a => a <<< k.toNat) d a

/-- SRLI (R65, R251). -/
def execSrli (d a : BitVec 6) (k : BitVec 6) : State → Out := oprRI (fun a => a >>> k.toNat) d a

/-- SRAI (R65, R251). -/
def execSrai (d a : BitVec 6) (k : BitVec 6) : State → Out := oprRI (fun a => sra64 a k.toNat) d a

/-- LIH (R65): sext(imm20) × 2^14, label 0. -/
def execLih (d : BitVec 6) (i : BitVec 20) : State → Out := oprPc (fun _ => sext64 i <<< 14) d

/-- ADPC (R65): own address plus sext(imm20) × 2^14, label 0. -/
def execAdpc (d : BitVec 6) (i : BitVec 20) : State → Out := oprPc (fun pc => pc + sext64 i <<< 14) d

end Sys2Proof.Machine
end

