-- ==== Sys2Proof/Machine/Security.lean ====
section
/-! DEFINITION. Reading labels, and a join that misses a die's cache (R306, R316). -/

namespace Sys2Proof.Machine

/-- The lowest origin slot of a mask, 0 for none. -/
def lowestOrigin (m : Word) : Nat := ((List.range 64).find? (fun i => bit m.toNat i)).getD 0

/-- The value of `lbl.rd` (R316): id, origin count, lowest origin. -/
def labelWord (l : LabelSt) (id : Label) : Word :=
  let m := maskOf l id
  wd ((liveId l id).toNat + popcount 64 m.toNat * 2 ^ 10 + lowestOrigin m * 2 ^ 17)

/-- LBL_RD_REG (R316). -/
def execLblRdReg (d a : BitVec 6) : State → Out :=
  runPlain (fun c => do
    needFree c d
    let x ← readXL c a
    writeX c d (labelWord (← get).labels x.2) 0)

/-- LBL_RD_MEM (R316): the delivered label of the sector; faults as `ld`, with neither race check nor watchpoint. -/
def execLblRdMem (d a : BitVec 6) : State → Out :=
  runPlain (fun c => do
    needFree c d
    let x ← readX c a
    let w := strandWho (← get) c
    match ← lift (translate w x.toNat 1 .read) with
    | .error f => pageFault c f
    | .ok pages => do
      let g ← lift (readPieces w (pieces pages x.toNat 1))
      poisoned c g
      writeX c d (labelWord (← get).labels g.lbl) 0)

/-- LABEL_JOIN_MISS (R306): a pair that misses a die's combining cache is resolved or allocated at the IOC and cached. The
producing partition is unknown to this step alone; every partition with clusters on the die is noted (R307, log entry 14). -/
def execLabelJoinMiss (die : Fin 4) (a b : Label) (s : State) : Out :=
  match cached s die a b with
  | some _ => .next s
  | none =>
    let ps := (List.finRange 32).filter (fun p => (s.part p).enabled && (s.part p).clusters.any (fun cl => dieOfCluster cl == die))
    let (r, s1) := joinAt die (ps.headD 0) a b s
    .next { s1 with labels := ps.foldl (fun l p => noteMaker l r.toNat p) s1.labels }

end Sys2Proof.Machine
end

