-- ==== Sys2Proof/Machine/Dispatch.lean ====
section
/-! DEFINITION. One arm for each constructor of Instr: the meaning it calls. -/

namespace Sys2Proof.Machine

/-- What an instruction, or a step of another agent, does. -/
def exec (i : Instr) (s : State) : Host.Outcome State Fault Refusal :=
  match i with
  | .add d a b => Sys2Proof.Machine.execAdd d a b s
  | .sub d a b => Sys2Proof.Machine.execSub d a b s
  | .and d a b => Sys2Proof.Machine.execAnd d a b s
  | .or d a b => Sys2Proof.Machine.execOr d a b s
  | .xor d a b => Sys2Proof.Machine.execXor d a b s
  | .sll d a b => Sys2Proof.Machine.execSll d a b s
  | .srl d a b => Sys2Proof.Machine.execSrl d a b s
  | .sra d a b => Sys2Proof.Machine.execSra d a b s
  | .slt d a b => Sys2Proof.Machine.execSlt d a b s
  | .sltu d a b => Sys2Proof.Machine.execSltu d a b s
  | .mul d a b => Sys2Proof.Machine.execMul d a b s
  | .mulh d a b => Sys2Proof.Machine.execMulh d a b s
  | .mulhu d a b => Sys2Proof.Machine.execMulhu d a b s
  | .div d a b => Sys2Proof.Machine.execDiv d a b s
  | .divu d a b => Sys2Proof.Machine.execDivu d a b s
  | .rem d a b => Sys2Proof.Machine.execRem d a b s
  | .remu d a b => Sys2Proof.Machine.execRemu d a b s
  | .min d a b => Sys2Proof.Machine.execMin d a b s
  | .max d a b => Sys2Proof.Machine.execMax d a b s
  | .clz d a => Sys2Proof.Machine.execClz d a s
  | .ctz d a => Sys2Proof.Machine.execCtz d a s
  | .popc d a => Sys2Proof.Machine.execPopc d a s
  | .addi d a im => Sys2Proof.Machine.execAddi d a im s
  | .andi d a im => Sys2Proof.Machine.execAndi d a im s
  | .ori d a im => Sys2Proof.Machine.execOri d a im s
  | .xori d a im => Sys2Proof.Machine.execXori d a im s
  | .slti d a im => Sys2Proof.Machine.execSlti d a im s
  | .slli d a u => Sys2Proof.Machine.execSlli d a u s
  | .srli d a u => Sys2Proof.Machine.execSrli d a u s
  | .srai d a u => Sys2Proof.Machine.execSrai d a u s
  | .lih d im => Sys2Proof.Machine.execLih d im s
  | .adpc d im => Sys2Proof.Machine.execAdpc d im s
  | .ld d b w o => Sys2Proof.Machine.execLd d b w o s
  | .st u b w o => Sys2Proof.Machine.execSt u b w o s
  | .beq a b n o => Sys2Proof.Machine.execBeq a b n o s
  | .bne a b n o => Sys2Proof.Machine.execBne a b n o s
  | .blt a b n o => Sys2Proof.Machine.execBlt a b n o s
  | .bge a b n o => Sys2Proof.Machine.execBge a b n o s
  | .bltu a b n o => Sys2Proof.Machine.execBltu a b n o s
  | .bgeu a b n o => Sys2Proof.Machine.execBgeu a b n o s
  | .j o => Sys2Proof.Machine.execJ o s
  | .jal d o => Sys2Proof.Machine.execJal d o s
  | .jalr d a im => Sys2Proof.Machine.execJalr d a im s
  | .amoAdd d a b r u => Sys2Proof.Machine.execAmoAdd d a b r u s
  | .amoAnd d a b r u => Sys2Proof.Machine.execAmoAnd d a b r u s
  | .amoOr d a b r u => Sys2Proof.Machine.execAmoOr d a b r u s
  | .amoXor d a b r u => Sys2Proof.Machine.execAmoXor d a b r u s
  | .amoMin d a b r u => Sys2Proof.Machine.execAmoMin d a b r u s
  | .amoMax d a b r u => Sys2Proof.Machine.execAmoMax d a b r u s
  | .amoSwap d a b r u => Sys2Proof.Machine.execAmoSwap d a b r u s
  | .amoCas d a b r u => Sys2Proof.Machine.execAmoCas d a b r u s
  | .amoFadd d a b u r => Sys2Proof.Machine.execAmoFadd d a b u r s
  | .fence r u => Sys2Proof.Machine.execFence r u s
  | .csrr d c => Sys2Proof.Machine.execCsrr d c s
  | .csrw a c => Sys2Proof.Machine.execCsrw a c s
  | .csrs a c => Sys2Proof.Machine.execCsrs a c s
  | .svc k => Sys2Proof.Machine.execSvc k s
  | .tret => Sys2Proof.Machine.execTret s
  | .wfi => Sys2Proof.Machine.execWfi s
  | .brk k => Sys2Proof.Machine.execBrk k s
  | .snap => Sys2Proof.Machine.execSnap s
  | .tcp d a => Sys2Proof.Machine.execTcp d a s
  | .chanGo a c => Sys2Proof.Machine.execChanGo a c s
  | .chanStat d c => Sys2Proof.Machine.execChanStat d c s
  | .chanAbort c => Sys2Proof.Machine.execChanAbort c s
  | .lrecFlush a => Sys2Proof.Machine.execLrecFlush a s
  | .semAcq a p n => Sys2Proof.Machine.execSemAcq a p n s
  | .semRel a p n => Sys2Proof.Machine.execSemRel a p n s
  | .semTry d a p n => Sys2Proof.Machine.execSemTry d a p n s
  | .semRd d p n => Sys2Proof.Machine.execSemRd d p n s
  | .tokGive q => Sys2Proof.Machine.execTokGive q s
  | .tokWait q => Sys2Proof.Machine.execTokWait q s
  | .fork a => Sys2Proof.Machine.execFork a s
  | .rdv k => Sys2Proof.Machine.execRdv k s
  | .rdvEnd k => Sys2Proof.Machine.execRdvEnd k s
  | .domSetSplit => Sys2Proof.Machine.execDomSetSplit s
  | .domSetJoin => Sys2Proof.Machine.execDomSetJoin s
  | .flagAdd a n => Sys2Proof.Machine.execFlagAdd a n s
  | .flagWait a n => Sys2Proof.Machine.execFlagWait a n s
  | .phase => Sys2Proof.Machine.execPhase s
  | .waitt a => Sys2Proof.Machine.execWaitt a s
  | .launch d a => Sys2Proof.Machine.execLaunch d a s
  | .est a => Sys2Proof.Machine.execEst a s
  | .srkey a b => Sys2Proof.Machine.execSrkey a b s
  | .lblRdReg d a => Sys2Proof.Machine.execLblRdReg d a s
  | .lblRdMem d a => Sys2Proof.Machine.execLblRdMem d a s
  | .splice d a b => Sys2Proof.Machine.execSplice d a b s
  | .repGo d a => Sys2Proof.Machine.execRepGo d a s
  | .repPoll d a => Sys2Proof.Machine.execRepPoll d a s
  | .collGo d a => Sys2Proof.Machine.execCollGo d a s
  | .collPoll d a => Sys2Proof.Machine.execCollPoll d a s
  | .ssSpill a n => Sys2Proof.Machine.execSsSpill a n s
  | .ssFill a n => Sys2Proof.Machine.execSsFill a n s
  | .lpSetImm w g k im => Sys2Proof.Machine.execLpSetImm w g k im s
  | .lpSetReg w g k j => Sys2Proof.Machine.execLpSetReg w g k j s
  | .lpEnd w g k o => Sys2Proof.Machine.execLpEnd w g k o s
  | .eJ w g o => Sys2Proof.Machine.execEJ w g o s
  | .eBnz w g j o => Sys2Proof.Machine.execEBnz w g j o s
  | .nLi w g j im => Sys2Proof.Machine.execNLi w g j im s
  | .nAdd w g d a im => Sys2Proof.Machine.execNAdd w g d a im s
  | .eRdv w g k => Sys2Proof.Machine.execERdv w g k s
  | .eRdvEnd w g k => Sys2Proof.Machine.execERdvEnd w g k s
  | .eNop w g => Sys2Proof.Machine.execENop w g s
  | .sdBase w g k a o => Sys2Proof.Machine.execSdBase w g k a o s
  | .sdFmt w g k a o => Sys2Proof.Machine.execSdFmt w g k a o s
  | .sdGeom w g k a o => Sys2Proof.Machine.execSdGeom w g k a o s
  | .sdScale w g k a o => Sys2Proof.Machine.execSdScale w g k a o s
  | .rgCfg w g r a o => Sys2Proof.Machine.execRgCfg w g r a o s
  | .rgRst w g r => Sys2Proof.Machine.execRgRst w g r s
  | .ldTile w g r k h => Sys2Proof.Machine.execLdTile w g r k h s
  | .ldStrd w g d k h => Sys2Proof.Machine.execLdStrd w g d k h s
  | .ldGath w g d k im h => Sys2Proof.Machine.execLdGath w g d k im h s
  | .ldVt w g d k h => Sys2Proof.Machine.execLdVt w g d k h s
  | .ldBcst w g d k h => Sys2Proof.Machine.execLdBcst w g d k h s
  | .nestSetImm w g l f im => Sys2Proof.Machine.execNestSetImm w g l f im s
  | .nestSetReg w g l f n => Sys2Proof.Machine.execNestSetReg w g l f n s
  | .nestSwap w g => Sys2Proof.Machine.execNestSwap w g s
  | .mma w g d a b u => Sys2Proof.Machine.execMma w g d a b u s
  | .mmaQ w g d a b u => Sys2Proof.Machine.execMmaQ w g d a b u s
  | .acZero w g d => Sys2Proof.Machine.execAcZero w g d s
  | .acMv w g d a j => Sys2Proof.Machine.execAcMv w g d a j s
  | .acLd w g d a j => Sys2Proof.Machine.execAcLd w g d a j s
  | .acLdAdd w g d a j => Sys2Proof.Machine.execAcLdAdd w g d a j s
  | .mfence w g => Sys2Proof.Machine.execMfence w g s
  | .vadd w g d a b p t => Sys2Proof.Machine.execVadd w g d a b p t s
  | .vsub w g d a b p t => Sys2Proof.Machine.execVsub w g d a b p t s
  | .vmul w g d a b p t => Sys2Proof.Machine.execVmul w g d a b p t s
  | .vfma w g d a b p t => Sys2Proof.Machine.execVfma w g d a b p t s
  | .vmax w g d a b p t => Sys2Proof.Machine.execVmax w g d a b p t s
  | .vmin w g d a b p t => Sys2Proof.Machine.execVmin w g d a b p t s
  | .vabs w g d a p t => Sys2Proof.Machine.execVabs w g d a p t s
  | .vneg w g d a p t => Sys2Proof.Machine.execVneg w g d a p t s
  | .vand w g d a b p => Sys2Proof.Machine.execVand w g d a b p s
  | .vor w g d a b p => Sys2Proof.Machine.execVor w g d a b p s
  | .vxor w g d a b p => Sys2Proof.Machine.execVxor w g d a b p s
  | .vshl w g d a b p => Sys2Proof.Machine.execVshl w g d a b p s
  | .vshr w g d a b p u => Sys2Proof.Machine.execVshr w g d a b p u s
  | .vcmp w g d a b p c => Sys2Proof.Machine.execVcmp w g d a b p c s
  | .vsel w g d a b p m => Sys2Proof.Machine.execVsel w g d a b p m s
  | .vcvt w g d a im f p m => Sys2Proof.Machine.execVcvt w g d a im f p m s
  | .vmov w g d a p => Sys2Proof.Machine.execVmov w g d a p s
  | .vmovMt w g d a p => Sys2Proof.Machine.execVmovMt w g d a p s
  | .vmovTm w g d a p => Sys2Proof.Machine.execVmovTm w g d a p s
  | .vmovMm w g d a p => Sys2Proof.Machine.execVmovMm w g d a p s
  | .vli w g d im => Sys2Proof.Machine.execVli w g d im s
  | .vliF w g d im => Sys2Proof.Machine.execVliF w g d im s
  | .vexp2 w g d a p => Sys2Proof.Machine.execVexp2 w g d a p s
  | .vlog2 w g d a p => Sys2Proof.Machine.execVlog2 w g d a p s
  | .vrcp w g d a p => Sys2Proof.Machine.execVrcp w g d a p s
  | .vrsqrt w g d a p => Sys2Proof.Machine.execVrsqrt w g d a p s
  | .vtanh w g d a p => Sys2Proof.Machine.execVtanh w g d a p s
  | .vsigm w g d a p => Sys2Proof.Machine.execVsigm w g d a p s
  | .vsoftp w g d a p => Sys2Proof.Machine.execVsoftp w g d a p s
  | .vrotr w g d a u p => Sys2Proof.Machine.execVrotr w g d a u p s
  | .vrotc w g d a u p => Sys2Proof.Machine.execVrotc w g d a u p s
  | .vbcr w g d a u p => Sys2Proof.Machine.execVbcr w g d a u p s
  | .vbcc w g d a u p => Sys2Proof.Machine.execVbcc w g d a u p s
  | .vredr w g d a p o => Sys2Proof.Machine.execVredr w g d a p o s
  | .vredc w g d a p o => Sys2Proof.Machine.execVredc w g d a p o s
  | .vscanr w g d a p o => Sys2Proof.Machine.execVscanr w g d a p o s
  | .vperm w g d a b p => Sys2Proof.Machine.execVperm w g d a b p s
  | .vtr4 w g d a => Sys2Proof.Machine.execVtr4 w g d a s
  | .vtree w g a k m o d => Sys2Proof.Machine.execVtree w g a k m o d s
  | .scanCfg w g a u => Sys2Proof.Machine.execScanCfg w g a u s
  | .scanSeg w g m f => Sys2Proof.Machine.execScanSeg w g m f s
  | .scanSegOff w g => Sys2Proof.Machine.execScanSegOff w g s
  | .scanLocAgg w g a => Sys2Proof.Machine.execScanLocAgg w g a s
  | .scanLocOut w g d a => Sys2Proof.Machine.execScanLocOut w g d a s
  | .scanLocFin w g d a => Sys2Proof.Machine.execScanLocFin w g d a s
  | .scanNet w g x => Sys2Proof.Machine.execScanNet w g x s
  | .scanNetInit w g im x => Sys2Proof.Machine.execScanNetInit w g im x s
  | .scanApp w g d a => Sys2Proof.Machine.execScanApp w g d a s
  | .scanStep w g d a p => Sys2Proof.Machine.execScanStep w g d a p s
  | .ssLd w g p a b => Sys2Proof.Machine.execSsLd w g p a b s
  | .ssLdF w g p a b => Sys2Proof.Machine.execSsLdF w g p a b s
  | .ssSt w g d p b => Sys2Proof.Machine.execSsSt w g d p b s
  | .ssStF w g d p b => Sys2Proof.Machine.execSsStF w g d p b s
  | .ssZero w g p => Sys2Proof.Machine.execSsZero w g p s
  | .drAcc w g k a j h => Sys2Proof.Machine.execDrAcc w g k a j h s
  | .drAccAll w g k a h => Sys2Proof.Machine.execDrAccAll w g k a h s
  | .drVt w g k a im h => Sys2Proof.Machine.execDrVt w g k a im h s
  | .drMode w g a o => Sys2Proof.Machine.execDrMode w g a o s
  | .histCfg w g h a => Sys2Proof.Machine.execHistCfg w g h a s
  | .histRd w g h k d => Sys2Proof.Machine.execHistRd w g h k d s
  | .histRdClr w g h k d => Sys2Proof.Machine.execHistRdClr w g h k d s
  | .histClr w g h => Sys2Proof.Machine.execHistClr w g h s
  | .stTile w g k a h => Sys2Proof.Machine.execStTile w g k a h s
  | .stWb w g a b => Sys2Proof.Machine.execStWb w g a b s
  | .stInv w g a b => Sys2Proof.Machine.execStInv w g a b s
  | .tileDone w g a => Sys2Proof.Machine.execTileDone w g a s
  | .annulledPosition c => Sys2Proof.Machine.execAnnulledPosition c s
  | .asyncTrapTake c => Sys2Proof.Machine.execAsyncTrapTake c s
  | .loadDelivery c d => Sys2Proof.Machine.execLoadDelivery c d s
  | .vtreeDelivery c => Sys2Proof.Machine.execVtreeDelivery c s
  | .histRdDelivery c => Sys2Proof.Machine.execHistRdDelivery c s
  | .ldTileEntryWrite c r => Sys2Proof.Machine.execLdTileEntryWrite c r s
  | .mmaRetire c => Sys2Proof.Machine.execMmaRetire c s
  | .taskRetire c => Sys2Proof.Machine.execTaskRetire c s
  | .phaseBarrierComplete c => Sys2Proof.Machine.execPhaseBarrierComplete c s
  | .semWaiterServed c n => Sys2Proof.Machine.execSemWaiterServed c n s
  | .flagAddApply j k => Sys2Proof.Machine.execFlagAddApply j k s
  | .waittResume c => Sys2Proof.Machine.execWaittResume c s
  | .transferRecordRead cl ch => Sys2Proof.Machine.execTransferRecordRead cl ch s
  | .transferUnit src => Sys2Proof.Machine.execTransferUnit src s
  | .recordCompletion cl ch => Sys2Proof.Machine.execRecordCompletion cl ch s
  | .tcpCompletion c k => Sys2Proof.Machine.execTcpCompletion c k s
  | .deadlineLeadReached src => Sys2Proof.Machine.execDeadlineLeadReached src s
  | .spillCompletion c => Sys2Proof.Machine.execSpillCompletion c s
  | .scanNetSweepEnd c => Sys2Proof.Machine.execScanNetSweepEnd c s
  | .carryPacket p bytes => Sys2Proof.Machine.execCarryPacket p bytes s
  | .spliceService k => Sys2Proof.Machine.execSpliceService k s
  | .repGoService k => Sys2Proof.Machine.execRepGoService k s
  | .workItemReturn k slot => Sys2Proof.Machine.execWorkItemReturn k slot s
  | .guardedReadResume c st => Sys2Proof.Machine.execGuardedReadResume c st s
  | .collSend h => Sys2Proof.Machine.execCollSend h s
  | .collRecv h => Sys2Proof.Machine.execCollRecv h s
  | .collCopy h => Sys2Proof.Machine.execCollCopy h s
  | .collWait h => Sys2Proof.Machine.execCollWait h s
  | .collLoop h => Sys2Proof.Machine.execCollLoop h s
  | .collEnd h => Sys2Proof.Machine.execCollEnd h s
  | .chunkReady h => Sys2Proof.Machine.execChunkReady h s
  | .collMessage p m => Sys2Proof.Machine.execCollMessage p m s
  | .collAck h => Sys2Proof.Machine.execCollAck h s
  | .abortNotice p tag rnd silent => Sys2Proof.Machine.execAbortNotice p tag rnd silent s
  | .collTimeout h => Sys2Proof.Machine.execCollTimeout h s
  | .labelJoinMiss die a b => Sys2Proof.Machine.execLabelJoinMiss die a b s
  | .packetFetch q => Sys2Proof.Machine.execPacketFetch q s
  | .prologueComplete j => Sys2Proof.Machine.execPrologueComplete j s
  | .preemptionDecision j => Sys2Proof.Machine.execPreemptionDecision j s
  | .jobBind j cls => Sys2Proof.Machine.execJobBind j cls s
  | .drain j => Sys2Proof.Machine.execDrain j s
  | .drainWindowExpiry j => Sys2Proof.Machine.execDrainWindowExpiry j s
  | .checkpoint j => Sys2Proof.Machine.execCheckpoint j s
  | .contextSaved j => Sys2Proof.Machine.execContextSaved j s
  | .kill j => Sys2Proof.Machine.execKill j s
  | .jobResume j cls => Sys2Proof.Machine.execJobResume j cls s
  | .bucketRefill => Sys2Proof.Machine.execBucketRefill s
  | .quantumEnd p => Sys2Proof.Machine.execQuantumEnd p s
  | .rackLaunchPacket q bytes => Sys2Proof.Machine.execRackLaunchPacket q bytes s
  | .ualinkRequest r => Sys2Proof.Machine.execUalinkRequest r s
  | .flitReceive f => Sys2Proof.Machine.execFlitReceive f s
  | .flitReplay p => Sys2Proof.Machine.execFlitReplay p s
  | .linkDown p => Sys2Proof.Machine.execLinkDown p s
  | .epochRewrite u => Sys2Proof.Machine.execEpochRewrite u s
  | .hostRegisterWrite off size v => Sys2Proof.Machine.execHostRegisterWrite off size v s
  | .hostMemoryRead off n => Sys2Proof.Machine.execHostMemoryRead off n s
  | .hostMemoryWrite off bytes => Sys2Proof.Machine.execHostMemoryWrite off bytes s
  | .invStage1Range p asid => Sys2Proof.Machine.execInvStage1Range p asid s
  | .invStage1All p asid => Sys2Proof.Machine.execInvStage1All p asid s
  | .invStage2Range p vd => Sys2Proof.Machine.execInvStage2Range p vd s
  | .invStage2All p vd => Sys2Proof.Machine.execInvStage2All p vd s
  | .invPartitionAll p => Sys2Proof.Machine.execInvPartitionAll p s
  | .invalidationDone p => Sys2Proof.Machine.execInvalidationDone p s
  | .wqkick q tail => Sys2Proof.Machine.execWqkick q tail s
  | .wqEnable q => Sys2Proof.Machine.execWqEnable q s
  | .wqResume q => Sys2Proof.Machine.execWqResume q s
  | .wqSkip q => Sys2Proof.Machine.execWqSkip q s
  | .wqDestroy q => Sys2Proof.Machine.execWqDestroy q s
  | .queueOffAfterDestroy q => Sys2Proof.Machine.execQueueOffAfterDestroy q s
  | .psl p v => Sys2Proof.Machine.execPsl p v s
  | .vdq p vd v => Sys2Proof.Machine.execVdq p vd v s
  | .tintr c v => Sys2Proof.Machine.execTintr c v s
  | .timeset v => Sys2Proof.Machine.execTimeset v s
  | .snapHostTrigger p => Sys2Proof.Machine.execSnapHostTrigger p s
  | .snapArm p => Sys2Proof.Machine.execSnapArm p s
  | .wsrecValidClear u => Sys2Proof.Machine.execWsrecValidClear u s
  | .racepaValidClear c => Sys2Proof.Machine.execRacepaValidClear c s
  | .hprecValidClear => Sys2Proof.Machine.execHprecValidClear s
  | .relrecValidClear => Sys2Proof.Machine.execRelrecValidClear s
  | .ftrecValidClear p => Sys2Proof.Machine.execFtrecValidClear p s
  | .lostClear p => Sys2Proof.Machine.execLostClear p s
  | .createOrigin => Sys2Proof.Machine.execCreateOrigin s
  | .installPolicy => Sys2Proof.Machine.execInstallPolicy s
  | .removePolicy => Sys2Proof.Machine.execRemovePolicy s
  | .attest => Sys2Proof.Machine.execAttest s
  | .mailboxDone => Sys2Proof.Machine.execMailboxDone s
  | .coldReset => Sys2Proof.Machine.execColdReset s
  | .bringupStart => Sys2Proof.Machine.execBringupStart s
  | .verify codeA codeB => Sys2Proof.Machine.execVerify codeA codeB s
  | .meminit bad => Sys2Proof.Machine.execMeminit bad s
  | .functionLevelReset bad => Sys2Proof.Machine.execFunctionLevelReset bad s
  | .ppsIn => Sys2Proof.Machine.execPpsIn s
  | .lovageGrant granted mw => Sys2Proof.Machine.execLovageGrant granted mw s
  | .thermalTrip => Sys2Proof.Machine.execThermalTrip s
  | .thermalTripEnd => Sys2Proof.Machine.execThermalTripEnd s
  | .illegalInstructionWord c st w => Sys2Proof.Machine.execIllegalInstructionWord c st w s
  | .instructionFetchFault c st => Sys2Proof.Machine.execInstructionFetchFault c st s
  | .amoDelivery c d => Sys2Proof.Machine.execAmoDelivery c d s
  | .l1Writeback c sector => Sys2Proof.Machine.execL1Writeback c sector s
  | .hostLinkBudgetWindow => Sys2Proof.Machine.execHostLinkBudgetWindow s

end Sys2Proof.Machine
end

