-- ==== Sys2Proof/Machine/Torn.lean ====
section
/-! DEFINITION. What a strand sees of tiles and state slots that another agent is writing, with no token in between: each container
old or new (R142, R185, R216; log entry 26). -/

namespace Sys2Proof.Machine

/-! ### What is being written -/

/-- The tile writes of a core's other strands that have begun and not ended (R185). -/
def tornBy (k : Core) (st : Strand) : List TornTile := (k.flights.filter (fun f => f.st != st)).flatMap Flight.torn

/-- The slot that a fill has read and is putting in place, and its number (R216). -/
def fillAt (k : Core) : Option (BitVec 4 × Slot) :=
  match k.spill.cmds with
  | [] => none
  | q :: _ => q.got.map (fun v => (q.slot, v))

/-- Each container of a tile one or the other, a free choice. -/
def mixTile (a b : Tile) : SM Tile := fun s =>
  if a = b then (a, s)
  else (a.zipIdx.map (fun p => if Config.freeNat (s.freeCtr + p.2) % 2 = 0 then p.1 else b.getD p.2 0), { s with freeCtr := s.freeCtr + 1024 })

/-! ### The view, and what a turn on it leaves -/

/-- The tiles as the strand sees them: of each tile that another strand writes, every container old or new (R185). -/
def viewTiles (c : CoreId) (ws : List TornTile) (s : State) : State :=
  ws.foldl (fun (s : State) w =>
    let (t, s1) := mixTile w.old ((s.core c).xs.tile w.d) s
    s1.updCore c (fun k => { k with xs := k.xs.setTile w.d t (k.xs.tlbl w.d) })) s

/-- The slot of a fill as the X strand sees it: every word, flag and EMPTY bit old or new, under both labels (R216). -/
def viewSlot (c : CoreId) (n : BitVec 4) (new : Slot) (s : State) : State :=
  let (v, s1) := mixSlot c ((s.core c).xs.slot n) new s
  s1.updCore c (fun k => { k with xs := k.xs.setSlot n v })

/-- What a strand's turn starts from. -/
def viewOf (c : CoreId) (st : Strand) (s : State) : State :=
  let s1 := viewTiles c (tornBy (s.core c) st) s
  match if st = .X then fillAt (s.core c) else none with
  | none => s1
  | some (n, new) => viewSlot c n new s1

/-- A tile after a turn: containers that the turn left alone are what they are, one that it wrote while another strand writes it is
either result. -/
def mergeTile (cur view after : Tile) : SM Tile := fun s =>
  let t := (cur.zip (view.zip after)).zipIdx.map (fun p =>
    if p.1.2.1 = p.1.2.2 ∨ Config.freeNat (s.freeCtr + p.2) % 2 = 0 then p.1.1 else p.1.2.2)
  (t, { s with freeCtr := s.freeCtr + 1024 })

/-- The strand's own write of a tile, where it stays open. -/
def ownTorn (k : Core) (st : Strand) (d : BitVec 5) : Option TornTile :=
  ((k.flights.filter (fun f => f.st == st)).flatMap Flight.torn).find? (fun e => e.d == d)

/-- An overlapping write of the tile, once another one has got this far: in the end the tile has the label of both results; a write that
has ended leaves none of the containers that it replaced to be seen (R185). -/
def overlapped (done : TornTile) (ended : Bool) (e : TornTile) : TornTile :=
  if e.d = done.d then { (if ended then done.after e else e) with newl := done.newl } else e

/-- A tile that a turn leaves while another strand's write of it, `w`, is open (R185). Untouched by the turn it is what it was. Else its
containers are of one or the other result; its label until both writes end is the join of what it has and the turn's result, and
then the join of both results. -/
def backTile (c : CoreId) (st : Strand) (s v : State) (w : TornTile) (t : State) : State :=
  let x := (s.core c).xs
  let y := (v.core c).xs
  let z := (t.core c).xs
  if z.tile w.d = y.tile w.d ∧ z.tlbl w.d = y.tlbl w.d then
    t.updCore c (fun k => { k with xs := k.xs.setTile w.d (x.tile w.d) (x.tlbl w.d) })
  else
    let own := ownTorn (t.core c) st w.d
    let mine := match own with | some e => e.newl | none => z.tlbl w.d
    let (n, t1) := mergeTile (x.tile w.d) (y.tile w.d) (z.tile w.d) t
    let (l, t2) := joinL c (x.tlbl w.d) mine t1
    let (b, t3) := joinL c w.newl mine t2
    let done : TornTile := { d := w.d, old := y.tile w.d, res := z.tile w.d, newl := b }
    t3.updCore c (fun k => { k with
      xs := k.xs.setTile w.d n l, flights := k.flights.map (Flight.mapTorn (overlapped done own.isNone)) })

/-- A fill's slot after a turn of the X strand: what the turn wrote, and for the rest what was there. -/
def backSlot (c : CoreId) (n : BitVec 4) (s v t : State) : State :=
  let cur := (s.core c).xs.slot n
  let view := (v.core c).xs.slot n
  let after := (t.core c).xs.slot n
  if after = view then t.updCore c (fun k => { k with xs := k.xs.setSlot n cur })
  else t.updCore c (fun k => { k with xs := k.xs.setSlot n (laterWrites view after cur) })

/-- The state that a turn on the view leaves. -/
def backOf (c : CoreId) (st : Strand) (s v t : State) : State :=
  let t1 := (tornBy (t.core c) st).foldl (fun (t : State) w => backTile c st s v w t) t
  match if st = .X then fillAt (s.core c) else none with
  | none => t1
  | some (n, _) => backSlot c n s v t1

/-- A strand's turn with what it sees (R185, R216). -/
def seeing (c : CoreId) (st : Strand) (turn : State → Out) (s : State) : Out :=
  if (tornBy (s.core c) st).isEmpty && ((fillAt (s.core c)).isNone || decide (st ≠ .X)) then turn s
  else
    let v := viewOf c st s
    match turn v with
    | .next t => .next (backOf c st s v t)
    | o => o

/-! ### A turn whose tile writes stay open -/

/-- Held in front of what the turn itself will push (R185). -/
def tornMark (st : Strand) : Flight :=
  { st := st, rest := .tiles [], gives := ([.C, .L, .X, .S] : List Strand).map (qcode st) }

/-- The tiles that a turn has changed: what they held, and the result. -/
def tilesWritten (x y : XState) : List TornTile :=
  (List.range 32).filterMap (fun n =>
    let d := BitVec.ofNat 5 n
    if x.tile d = y.tile d ∧ x.tlbl d = y.tlbl d then none else some { d := d, old := x.tile d, res := y.tile d, newl := y.tlbl d })

/-- Until the writes end a tile carries its old label as well (R185). -/
def openLabels (c : CoreId) (x : XState) (ws : List TornTile) (s : State) : State :=
  ws.foldl (fun (s : State) w =>
    let (l, s1) := joinL c (x.tlbl w.d) w.newl s
    s1.updCore c (fun k => { k with xs := k.xs.setTile w.d (k.xs.tile w.d) l })) s

/-- The turn's writes are open until the strand's next turn; a turn that wrote no tile leaves nothing open. -/
def openTorn (c : CoreId) (st : Strand) (x : XState) (t : State) : State :=
  let ws := tilesWritten x (t.core c).xs
  if ws.isEmpty then t.updCore c (fun k => settle { k with flights := k.flights.erase (tornMark st) })
  else
    (openLabels c x ws t).updCore c (fun k =>
      { k with flights := k.flights.map (fun f : Flight => if f = tornMark st then { f with rest := .tiles ws } else f) })

/-- A turn of the L or the X strand whose tile writes the other strands may see in part until the strand's next turn (R185). -/
def leaving (c : CoreId) (st : Strand) (turn : State → Out) (s : State) : Out :=
  if decide (st = .C) || decide (st = .S) then turn s
  else
    match turn (s.updCore c (fun k => { k with flights := k.flights ++ [tornMark st] })) with
    | .next t => .next (if (t.core c).flights.contains (tornMark st) then openTorn c st (s.core c).xs t else t)
    | o => o

end Sys2Proof.Machine
end

