-- ==== Sys2Proof/Machine/Turn.lean ====
section
/-! DEFINITION. A turn of one agent: a strand fetches, decodes and executes its instruction, or another agent takes its step
(R24, R59, R60, R252, R255 to R257, R268, R284, R345, R364; log entries 4 and 6). -/

namespace Sys2Proof.Machine

/-! ### A strand's turn -/

/-- A result that waits only for its delivery: a load's, or an atomic's whose old value has come back (R250, R260, R361). -/
def readyPend (k : Core) : Option Pend := k.pend.find? (fun p => p.val.isSome && (p.src == .load || p.src == .amo))

/-- The step that ends the wait of a C strand, where one may be due: the task's retirement, its barrier, a delivery. -/
def wakeC (c : CoreId) (s : State) : Option Out :=
  let k := s.core c
  let deliver (p : Pend) : Out := if p.src = .amo then execAmoDelivery c p.reg s else execLoadDelivery c p.reg s
  if k.rdvWait then some (match readyPend k with | some p => deliver p | none => execTaskRetire c s)
  else if k.phArr then some (execPhaseBarrierComplete c s)
  else match k.st.c, readyPend k with
    | .waiting, some p => some (deliver p)
    | _, _ => none

/-- The word at the strand's position is fetched, decoded and executed; a fetch that fails and a word that is no instruction
have steps of their own (R60, R255). -/
def fetchStep (c : CoreId) (st : Strand) (s : State) : Out :=
  match fetchWord c st s with
  | .error (.trap _ _ _ _) => execInstructionFetchFault c st s
  | .error (.wait s1) => .next s1
  | .ok (w, s1) =>
    match decode st w with
    | .ok i => exec i s1
    | .error _ => execIllegalInstructionWord c st w s1

/-- A replay waits and no handler of its own runs (R364). -/
def replayDue (k : Core) : Bool :=
  !k.replay.isEmpty && !k.asyncDue && !k.inReplayHandler

/-- The job that a core is bound to is to be killed, or its replay goes on (R345, R352, R364). -/
def jobStep (c : CoreId) (s : State) : Option Out :=
  match s.coreJob c with
  | none => none
  | some j =>
    if j.killDue then some (execKill j.id s)
    else if decide (j.st = .bound) && replayDue (s.core c) then some (execJobResume j.id [] s)
    else none

/-- A strand's own next step. Of the C strand: an asynchronous trap comes before its next instruction (R257), an annulled
position is not fetched (R252). A strand that may not issue does nothing. -/
def issueStep (c : CoreId) (st : Strand) (s : State) : Out :=
  let k := s.core c
  if st = .C && k.asyncDue then execAsyncTrapTake c s
  else match (if st = .C then wakeC c s else none) with
    | some o => o
    | none =>
      if !mayIssue s c st then .next s
      else if st = .C && decide (k.seq.ann ≠ 0) then execAnnulledPosition c s
      else fetchStep c st s

/-- The strand's earlier tile writes end, and it issues with what it sees of the other strands' (R185, R216). -/
def strandIssue (c : CoreId) (st : Strand) (issue : State → Out) (s : State) : Out :=
  seeing c st issue (s.updCore c (endTorn (fun o => o == st)))

/-- A strand's turn. -/
def strandStep (c : CoreId) (st : Strand) (s : State) : Out := (jobStep c s).getD (strandIssue c st (issueStep c st) s)

/-- A strand's turn whose tile writes stay open (R185). -/
def tornStep (c : CoreId) (st : Strand) (s : State) : Out := (jobStep c s).getD (strandIssue c st (leaving c st (issueStep c st)) s)

/-! ### The other agents -/

/-- n nanoseconds pass (R268). -/
def tickTime (n : Nat) (s : State) : State := { s with time := s.time + wd n }

/-- A TLB lets a translation go; L1 lines keep their own record of it (R90). -/
def tlbEvict (asid : BitVec 16) (vpage : Nat) (s : State) : State :=
  { s with tlb := s.tlb.filter (fun t => !(t.asid == asid && t.vpage == vpage)) }

/-- Sorrel writes one ingress label to all the ports of a fabric: the host port, UALink, Ultra Ethernet, Imost (R314). -/
def setInlbl (fabric : Fin 4) (l : Label) (s : State) : State :=
  let ports : List Nat := match fabric with
    | 0 => [0]
    | 1 => (List.range 12).map (fun i => i + 1)
    | 2 => [13, 14]
    | 3 => [15, 16, 17, 18]
  { s with labels := { s.labels with inlbl := ports.foldl (fun v p => wr v (Fin.ofNat 19 p) l) s.labels.inlbl } }

/-- The pins PWRGOOD and REFCLK (R374). -/
def setPins (g r : Bool) (s : State) : State := { s with pwr := { s.pwr with pwrgood := g, refclk := r } }

/-- One agent's turn. -/
def turn (a : Agent) (s : State) : Out :=
  match a with
  | .strand c st => strandStep c st { s with cur := (c, st) }
  | .event i => exec i s
  | .tick n => .next (tickTime n s)
  | .tlbEvict asid vpage => .next (tlbEvict asid vpage s)
  | .hostLocal pa bytes => .next (hostLocal pa bytes s)
  | .eccError sector corrected => .next (eccError sector corrected s)
  | .barTwo off size v => .next (hostWrite2 off.toNat size v s)
  | .barRead two off size => .next (hostReadReg two off.toNat size s)
  | .bootVerify => .next (bootVerify s)
  | .matrixStep c => .next (matStep c s)
  | .torn c st => tornStep c st { s with cur := (c, st) }
  | .inlbl fabric l => .next (setInlbl fabric l s)
  | .flitSend p => .next (sendFlit p s)
  | .pins g r => .next (setPins g r s)

/-! ### Turns that have to wait (R331, R341) -/

/-- A turn has drawn more on a budget of its partition than the window has left (R341). -/
def overBudget (s t : State) : Bool :=
  (s.parts.zip t.parts).toList.any (fun p =>
    ([.read, .write, .tr] : List HlKind).any (fun k => hlOver (hlOf p.1 k).1 (hlOf p.1 k).2 (hlOf p.2 k).2))

/-- A message that its sender waits on the answer of. -/
def OutMsg.asks (m : OutMsg) : Bool := match m with | .ualRead _ _ _ => true | .ualAmo _ _ _ _ _ => true | _ => false

/-- A turn has asked something of a package behind a link that is down (R331). -/
def asksDown (s t : State) : Bool := (t.waiting.drop s.waiting.length).any (fun m => m.2.asks)

/-- A turn from `s` that exceeds a budget, or asks over a link that is down, is not taken: its agent waits (R331, R341; log entry 47). -/
def paced (s : State) (o : Out) : Out :=
  match o with
  | .next t => if overBudget s t || asksDown s t then .next { s with freeCtr := s.freeCtr + 1 } else .next t
  | o => o

/-- The next agent: the agenda's first, or, with none left, the strand whose turn it was (log entry 4). -/
def nextTurn (s : State) : Out :=
  match s.agenda with
  | [] => paced s (strandStep s.cur.1 s.cur.2 s)
  | a :: rest => paced { s with agenda := rest } (turn a { s with agenda := rest })

/-! ### Placing one instruction (for the host's question about a table row) -/

/-- Core 0's virtual page 0 is this page. -/
def fetchTlb (k : Core) (ppage : Nat) : Tlb :=
  { pid := k.id.pid, vd := k.id.vd, asid := k.id.asid, vpage := 0, ppage := ppage, r := true, w := true, x := true, cp := 0,
    tso := false, race := false, lbl := 0, leaf := 0, span := 1 }

/-- A bound job of one task with no packet of its own. -/
def fetchJob (k : Core) : Job :=
  let h : Header :=
    { entry := 0, est := 0, ptok := 0, prio := 0, kill := false, det := false, salign := false, ncl := 1, level := k.id.hlvl,
      npro := 0, pro := 0, arg0 := 0, arg1 := 0, crec := 0, swb := 0, irq := false, urg := false, ord := false, rply := 0 }
  { id := k.id.jobid, queue := 0, pid := k.id.pid, vd := k.id.vd, asid := k.id.asid, hdr := h, order := 0, prev := none,
    st := .bound, cls := [0], est := 0, estAt := 0, spent := 0, tbind := 0, boundAt := 0, killDue := false, form := none,
    offer := none, flags := Vector.replicate 256 { val := 0, stamps := [], waiters := [] }, posts := [],
    chunks := [], phases := Phases.reset, split := false, retired := [], area := none, images := [] }

/-- Core 0 at position 0 of a strand, which issues. -/
def fetchCore (st : Strand) (k : Core) : Core :=
  let k1 : Core :=
    { k with
      job := some k.id.jobid, seq := Seq.at_ 0, atraps := [], rdvDone := false, rdvWait := false, phArr := false, replay := [], handlers := [],
      started := Four.all true, st := k.st.set st .issuing, dbg := { k.dbg with pend := false, wp := Vector.replicate 4 Wp.reset } }
  match st with
  | .C => k1
  | st => k1.setEng st { k1.eng st with pc := 0 }

/-- A state in which core 0's strand issues the word at virtual address 0, the first bytes of its partition's memory. -/
def placeWord (s : State) (st : Strand) (w : Word32) : State :=
  let k := s.core 0
  let pa := (s.part k.id.pid).base
  let sec := pa / 64
  let s1 := (s.updCore 0 (fetchCore st)).updCluster 0 (fun q => { q with job := some (k.id.jobid, 0), granted := true })
  { s1 with
    jobs := fetchJob k :: s.jobs.filter (fun j => j.id != k.id.jobid),
    tlb := fetchTlb k (pa / 4096) :: s.tlb,
    lines := s.lines.filter (fun l => l.sector != sec && decide (l.owner ≠ .l1 0 k.id.asid 0)),
    mem := putBytes s.mem pa (bytesOfWord w),
    side := mapSet Side.none s.side sec { lbl := 0, epoch := (s.slice (sliceOf s (sec * 64))).epoch, poison := false },
    agenda := [], cur := (0, st) }

end Sys2Proof.Machine
end

