-- ==== Sys2Proof/Machine/Step.lean ====
section
/-! DEFINITION. One step of the machine, and the placing of one instruction word before it. -/

namespace Sys2Proof.Machine

/-- One step: one agent takes its turn (log entry 4). -/
def step (s : State) : Host.Outcome State Fault Refusal := nextTurn s

/-- `s` with the word `w` of `nbits` bits where the next step fetches: a load of a program from outside the machine (log
entry 4). The strand is the one whose table gives the word its row (log entry 10). -/
def State.withFetchWord (s : State) (nbits w : Nat) : State :=
  let v : Word32 := BitVec.ofNat 32 (w % 2 ^ nbits)
  placeWord s ((strandOfWord v).getD .C) v

end Sys2Proof.Machine
end

