-- ==== Sys2Proof/Safety.lean ====
section
/-! DEFINITION. The terms in which the statements speak of a run: whose turn it is, what an instruction leaves alone, the
canonical form of memory, and a turn that does not stop. -/

namespace Sys2Proof.Machine

/-! ### Whose turn it is -/

/-- It is the turn of a strand, and the strand may issue (R16, R352, R381). -/
abbrev Ready (s : State) (c : CoreId) (st : Strand) : Prop := s.cur = (c, st) ∧ mayIssue s c st = true

/-- None of these registers is pending (R250). -/
abbrev NonePending (k : Core) (rs : List (BitVec 6)) : Prop := ∀ r ∈ rs, k.pending r = false

/-- An engine instruction may start: every strand that its masks name was started, and every queue of its wait mask holds a
token (R71, R134, R272). -/
abbrev Startable (s : State) (c : CoreId) (st : Strand) (w g : BitVec 3) : Prop :=
  Ready s c st ∧ masksStarted (s.core c) st w g = true ∧ ∀ q ∈ waitCodes st w, 0 < (s.core c).tokens q

/-! ### Frames -/

/-- Nothing outside the cores differs: memory, side bands, dirty lines, translations, every register of the package. -/
def OnlyCores (s t : State) : Prop := t = { s with cores := t.cores }

/-- Nothing outside one core differs. -/
def OnlyCore (c : CoreId) (s t : State) : Prop := OnlyCores s t ∧ ∀ d, d ≠ c → t.core d = s.core d

/-- What leaves the package through label joins: one report for each join that found the label table full (R306). -/
def OnlyJoinReports (s t : State) : Prop := ∃ n, t.out = s.out ++ List.replicate n (OutMsg.event 0x11)

/-- Nothing outside one core differs but what a label join may touch: the label table, the caches of joins, LBLCNT and the report of
a full table (R306, R307). -/
def OnlyCoreAndJoins (c : CoreId) (s t : State) : Prop :=
  t = { s with cores := t.cores, out := t.out,
               labels := { s.labels with table := t.labels.table, caches := t.labels.caches, lblcnt := t.labels.lblcnt } } ∧
    OnlyJoinReports s t ∧ ∀ d, d ≠ c → t.core d = s.core d

/-- The C strand falls through to its next position (R252). -/
def FallsThrough (k k' : Core) : Prop :=
  k'.seq = { pc := k.seq.n1, n1 := k.seq.n2, n2 := k.seq.n2 + 4, ann := k.seq.ann, red1 := k.seq.red2, red2 := false } ∧
    k'.st = { k.st with c := .issuing }

/-- The C strand is redirected after two delay slots, which are annulled or not (R252). -/
def Redirected (k k' : Core) (target : Word) (annul : Bool) : Prop :=
  k'.seq = { pc := k.seq.n1, n1 := k.seq.n2, n2 := target, ann := if annul then 2 else k.seq.ann, red1 := k.seq.red2, red2 := true } ∧
    k'.st = { k.st with c := .issuing }

/-- Of a core, at most the x registers with their labels, the sequence, the strand states and the marks of a wait or an
exemption differ: CSRs, tokens, semaphores, the journal, engine strands, tiles and accumulators are as before. -/
def KeepsCore (k k' : Core) : Prop :=
  k' = { k with x := k'.x, xl := k'.xl, seq := k'.seq, st := k'.st, atWfi := k'.atWfi, waitT := k'.waitT, gwait := k'.gwait, wpx := k'.wpx }

/-- Every x register and label is as before. -/
def KeepsX (k k' : Core) : Prop := ∀ r, k'.xval r = k.xval r ∧ k'.xlbl r = k.xlbl r

/-- x[d] takes a value and a label; x0 discards both; every other register is as before (R250). -/
def SetsX (k k' : Core) (d : BitVec 6) (v : Word) (l : Label) : Prop :=
  (k'.xval d = if d = 0 then 0 else v) ∧ (k'.xlbl d = if d = 0 then 0 else l) ∧
    ∀ r, r ≠ d → k'.xval r = k.xval r ∧ k'.xlbl r = k.xlbl r

/-- An instruction of the C strand completes: it sets x[d], falls through and leaves all else alone. -/
def CompletesWith (c : CoreId) (i : Instr) (s : State) (d : BitVec 6) (v : Word) (l : Label) : Prop :=
  ∃ t, exec i s = .next t ∧ OnlyCore c s t ∧ KeepsCore (s.core c) (t.core c) ∧ FallsThrough (s.core c) (t.core c) ∧
    SetsX (s.core c) (t.core c) d v l

/-- An instruction of the C strand takes a precise trap with TVAL := its word: the next state is the trap entry's (R256). -/
def TrapsIllegal (c : CoreId) (i : Instr) (s : State) : Prop :=
  exec i s = .next (trapC c cILLEGAL 0 (wordOf i) s)

/-! ### Engine instructions (R71, R133, R134, R270) -/

/-- Of a core, at most the registers and the state of one engine strand, the units that engine instructions write, the tokens
and what is in flight differ: x registers, CSRs, the sequence, the other strands, semaphores, the journal are as before. -/
def KeepsButEngine (st : Strand) (k k' : Core) : Prop :=
  k' = { k.setEng st (k'.eng st) with
           st := k'.st, tok := k'.tok, keyw := k'.keyw, flights := k'.flights, wpx := k'.wpx, gwait := k'.gwait, ls := k'.ls, xs := k'.xs, ss := k'.ss } ∧
    (∀ o, o ≠ st → k'.st.get o = k.st.get o) ∧ k'.st.get st = .issuing

/-- The units of the three engine strands are as before. -/
def KeepsUnits (k k' : Core) : Prop := k'.ls = k.ls ∧ k'.xs = k.xs ∧ k'.ss = k.ss

/-- A strand's registers with its program counter at the next instruction. -/
def nextEng (k : Core) (st : Strand) : Eng := { k.eng st with pc := (k.eng st).pc + 4 }

/-- An engine instruction with nothing left to do has popped one token of each queue of its wait mask and, where no earlier push
is owed and each queue has room, pushed one on each queue of its give mask. -/
def MovesTokens (st : Strand) (w g : BitVec 3) (k k' : Core) : Prop :=
  k.flights = [] → (∀ q ∈ giveCodes st g, k.tokens q < 255) →
    k'.flights = [] ∧ ∀ q, q < 16 → k'.tokens q + (if q ∈ waitCodes st w then 1 else 0) = k.tokens q + (if q ∈ giveCodes st g then 1 else 0)

/-- An engine instruction runs to its end in its own step: its strand has these registers and issues, tokens move, and outside
its core only a label join shows. -/
def EngineDone (c : CoreId) (st : Strand) (w g : BitVec 3) (e : Eng) (s t : State) : Prop :=
  OnlyCoreAndJoins c s t ∧ KeepsButEngine st (s.core c) (t.core c) ∧ (t.core c).eng st = e ∧
    MovesTokens st w g (s.core c) (t.core c)

/-- An engine instruction starts and leaves something to finish: its strand goes on, its tokens are popped, its pushes are owed; it holds
the translations of these pages to its end (R98). -/
def EngineStarted (c : CoreId) (st : Strand) (w g : BitVec 3) (r : Rest) (s t : State) (ps : List Page := []) : Prop :=
  OnlyCoreAndJoins c s t ∧ (t.core c).eng st = nextEng (s.core c) st ∧ (t.core c).st.get st = .issuing ∧
    ((s.core c).flights = [] → (t.core c).flights = [{ st := st, rest := r, gives := giveCodes st g, pages := ps }] ∧
      ∀ q, q < 16 → (t.core c).tokens q + (if q ∈ waitCodes st w then 1 else 0) = (s.core c).tokens q)

/-- The C strand waits: nothing else of the state changes (R24, R250). -/
def Stalls (c : CoreId) (i : Instr) (s : State) : Prop :=
  exec i s = .next (s.updCore c (fun k => { k with st := { k.st with c := .waiting } }))

/-- A boundary trap of an engine strand (R350, R353): it stops at its instruction, and the trap waits in the task's queue. -/
def EngineTraps (c : CoreId) (st : Strand) (i : Instr) (code : Nat) (tval : Word) (s : State) : Prop :=
  exec i s = .next (trapEng c st code 0 tval s)

/-- An X-strand instruction runs to its end, and its unit's new state depends on the join of these labels alone (R169). -/
def XResult (c : CoreId) (i : Instr) (w g : BitVec 3) (ls : List Label) (f : Label → XState) (s : State) : Prop :=
  ∃ t, exec i s = .next t ∧ EngineDone c .X w g (nextEng (s.core c) .X) s t ∧
    (t.core c).xs = f (joinAll (dieOf c) (s.core c).id.pid ls s).1 ∧ (t.core c).ls = (s.core c).ls ∧ (t.core c).ss = (s.core c).ss

/-! ### Memory -/

/-- Memory and side bands are in their canonical form: keys strictly rising, no entry equal to what an unlisted key reads as. -/
abbrev CanonicalMemory (s : State) : Prop := Memory.wf s.mem = true ∧ mapWfFrom Side.none 0 s.side = true

/-- A byte of local HBM4 or of host memory as a coherent read finds it: in the sector that an L1 or a stash holds dirty, else at its
slice under the partition's key, else in the host's memory (R87 to R90, R97, R131). -/
def readByte (s : State) (a : Nat) : Byte :=
  if paLocal a then
    match s.line? (a / 64) with
    | some l => l.bytes.getD (a % 64) 0
    | none => (readLocal s (a / 64)).bytes.getD (a % 64) 0
  else s.byteAt a

/-- n bytes from a physical address on. -/
def readBytes (s : State) (pa n : Nat) : List Byte := (List.range n).map (fun i => readByte s (pa + i))

/-- The physical address of an access by a translation. -/
def physOf (t : Tlb) (va : Nat) : Nat := t.ppage * 4096 + va % 4096

/-- A plain access of n bytes at `va` by a strand of core c: inside one sector; a translation with all rights, label 0, neither
TSO nor race-checked, that its TLB holds, into its partition's HBM4; outside the stash window; no watchpoint of the core or of a
slice, no guard; the sector is of its slice's epoch, not poisoned, and neither an L1 nor a stash holds it; the L1 has no line of another sector under
the same virtual address. -/
structure PlainAccess (s : State) (c : CoreId) (st : Strand) (va n : Nat) (kd : WpKind) (t : Tlb) : Prop where
  small : 0 < n ∧ va % 64 + n ≤ 64 ∧ va < 2 ^ 52
  held : s.tlb.find? (fun t => t.pid == (s.core c).id.pid && t.vd == (s.core c).id.vd && t.asid == (s.core c).id.asid && t.vpage == va / 4096) = some t
  rights : t.pid = (s.core c).id.pid ∧ t.r = true ∧ t.w = true ∧ t.race = false ∧ t.tso = false ∧ t.lbl = 0
  hbm : paLocal (t.ppage * 4096) = true ∧ (s.part t.pid).inHbm (t.ppage * 4096) = true
  noWindow : windowOf s c = none
  noWatch : wpHit (s.core c) st (strandPc (s.core c) st) va n kd = none
  noSliceWatch : ∀ k i, bit (rd (s.slice k).ws i).ctl.toNat 0 = false
  noGuard : guardedBy s c [(va, n)] = []
  clean : s.line? (physOf t va / 64) = none
  noHit : ∀ l ∈ s.lines, l.sector % 64 = va / 64 % 64 → l.owner ≠ .l1 c (s.core c).id.asid (va / 4096)
  epoch : (s.sideAt (physOf t va / 64)).current (s.slice (sliceOf s (physOf t va / 64 * 64))) = true
  notPoisoned : (s.sideAt (physOf t va / 64)).poison = false
  noStash : ∀ cl, ∀ f ∈ (s.cluster cl).frames, f.ppage ≠ physOf t va / 64 / 64

/-- What a store by a strand of core c may touch beside that core: dirty lines, the stored bytes and side bands, the label tables
of a join, the byte counts of collective chunks (R322). -/
def OnlyStore (c : CoreId) (s t : State) : Prop :=
  t = { s with cores := t.cores, lines := t.lines, mem := t.mem, side := t.side, colls := t.colls, out := t.out,
               labels := { s.labels with table := t.labels.table, caches := t.labels.caches, lblcnt := t.labels.lblcnt } } ∧
    OnlyJoinReports s t ∧ ∀ d, d ≠ c → t.core d = s.core d

/-- The n bytes at a physical address are these, and every other byte reads as before. -/
def Stored (s t : State) (pa : Nat) (bs : List Byte) : Prop :=
  readBytes t pa bs.length = bs ∧ ∀ a, (a < pa ∨ pa + bs.length ≤ a) → readByte t a = readByte s a

/-- Every byte reads as before. -/
def MemorySame (s t : State) : Prop := ∀ a, readByte t a = readByte s a

/-! ### The traps of an access by the C strand (R96, R100, R106, R247; their order: log entry 11) -/

/-- The instruction's access of [va, va + n) faults in translation, before any effect: the lowest faulting page's stage and TVAL, with
level and kind in SUB (R96, R100); with pages that translate, the lowest watchpoint that it hits (R106). -/
def FaultsOn (c : CoreId) (i : Instr) (va n : Nat) (acc : Acc) (kd : WpKind) (s : State) : Prop :=
  (∀ f s1, translate (strandWho s c) va n acc s = (.error f, s1) → f.1.poison = false →
    exec i s = .next (trapC c (if f.1.stage = 1 then cPF1 else cPF2) (f.1.level * 16 + f.1.kind) f.2 s1)) ∧
  (∀ pages s1 w snap, translate (strandWho s c) va n acc s = (.ok pages, s1) →
    wpHit (s1.core c) .C (s1.core c).seq.pc va n kd = some (w, snap) →
    exec i s = .next (trapC c cWATCH w (wd va) (if snap then fireSnap (s1.core c).id.pid 2 s1 else s1)))

/-- A race-checked access to one sector whose record names an access that nothing orders before it: RACE, with the record and the
sector latched (R247, R248). -/
def RacesOn (c : CoreId) (i : Instr) (va n : Nat) (acc : Acc) (kd : WpKind) (s : State) : Prop :=
  ∀ pages s1 p r s2, translate (strandWho s c) va n acc s = (.ok pages, s1) →
    wpHit (s1.core c) .C (s1.core c).seq.pc va n kd = none → pieces pages va n = [p] → p.page.race = true →
    readRace (s1.core c).id.pid p.pa s1 = (some r, s2) →
    raceFree r (s1.core c).id.jobid (s1.core c).id.phn (s1.core c).id.slot (fun t => (s1.core c).seen.toList.getD t 0) = false →
    exec i s = .next (trapC c cRACE 0 (wd (p.va / 64 * 64)) (s2.updCore c (fun k =>
      { k with dbg := { k.dbg with racerec := r, racepa := wd (2 ^ 63 + p.pa / 64 * 64) } })))

/-- A read that meets a guard with STOK clear waits, and the strand's instruction is noted for its end (R301). -/
def WaitsOnGuard (c : CoreId) (i : Instr) (va n : Nat) (s : State) : Prop :=
  (∃ m ∈ guardedBy s c [(va, n)], m.stok = false) →
    exec i s = .next (parkC c (s.updCore c (fun k =>
      { k with gwait := { st := .C, instr := i } :: k.gwait.filter (fun g => g.st != .C) })))

/-! ### Stopping -/

/-- An outcome that is a next state. -/
def GoesOn (o : Out) : Prop := ∃ t, o = .next t

end Sys2Proof.Machine
end

