-- ==== Sys2Proof/Certificates/Slice0/Obligations.lean ====
section
/-! DEFINITION. The statements for the provers. Each says which rules of spec/ it rests on; "log entry n" names a choice of the
model's own. -/

open Sys2Proof Sys2Proof.Machine

/-- Every well-formed instruction word decodes, on each strand that has it in its table, to the instruction it encodes (R59 to
R76). -/
def Obligations.EncodeThenDecode : Prop :=
  ∀ (st : Strand) (i : Instr), i.wf = true → i.tbl.ofStrand st = true → decode st (encode i) = .ok i

/-- A word that decodes is well formed, belongs to the strand's table, and encodes back to the same word: no bit is ignored, so
a word with a reserved field set is no instruction (R60). -/
def Obligations.DecodeThenEncode : Prop :=
  ∀ (st : Strand) (w : Word32) (i : Instr), decode st w = .ok i → i.wf = true ∧ i.tbl.ofStrand st = true ∧ encode i = w

/-- Words that spec/ writes out decode to their instructions: `csrw kstep, x6` and `csrr x5, time` (R266), `srkey x5, x6`
(R315), `launch x4, x10` (R348), `est x6` (R349), `coll.go x4, x10` (R328), `ss.spill ss3, x5` (R214), `vtr4 vt4, vt0 wait
tq.lx, tq.sx give tq.xl, tq.xs` and `dr.vt sd5, vt5` (R386). The word 0 is no instruction (R60). -/
def Obligations.WrittenWordsDecode : Prop :=
  decode .C 0x5C019021 = .ok (.csrw 6 0x021) ∧ decode .C 0x5C500010 = .ok (.csrr 5 0x010) ∧
  decode .C 0x7C014181 = .ok (.srkey 5 6) ∧ decode .C 0x78428001 = .ok (.launch 4 10) ∧ decode .C 0x78018002 = .ok (.est 6) ∧
  decode .C 0x84428001 = .ok (.collGo 4 10) ∧ decode .C 0x880140C1 = .ok (.ssSpill 5 3) ∧
  decode .X 0x6F320000 = .ok (.vtr4 3 3 1 0) ∧ decode .S 0x01129400 = .ok (.drVt 0 0 5 5 0 0) ∧ decode .C 0 = .error (.unassigned 0)

/-- The values that spec/ gives for cold reset: BOOTST RESET, TIME 0, no discard, no cause entry, HTHRESH and STAT (R267),
every queue OFF (R333), every partition disabled (R341), no invalidation running (R98), PWRCAP 1,600 W (R381). Memory and side
bands are in canonical form at reset (the model's form, log entry 3). -/
def Obligations.ResetState : Prop :=
  (State.reset.boot.st = .reset ∧ State.reset.time = 0 ∧ State.reset.hprec = 0 ∧ State.reset.hpcnt = 0 ∧
   State.reset.ctprod = 0 ∧ State.reset.ctcons = 0 ∧ State.reset.pwr.pwrcap = 1600 ∧ State.reset.pwr.trip = false ∧
   (∀ c, (State.reset.core c).csr.stat = 2 ∧ (State.reset.core c).csr.hthresh = 0x7F800000 ∧ (State.reset.core c).job = none) ∧
   (∀ q, (State.reset.queue q).st = .off ∧ (State.reset.queue q).head = 0 ∧ (State.reset.queue q).tailv = 0) ∧
   (∀ p, (State.reset.part p).enabled = false ∧ (State.reset.part p).inv = none ∧ (State.reset.part p).snapArm = false)) ∧
  (CanonicalMemory State.reset)

/-- Every step keeps memory and side bands in canonical form (the model's form, log entry 3). -/
def Obligations.StepKeepsMemoryCanonical : Prop :=
  ∀ s t, CanonicalMemory s → step s = .next t → CanonicalMemory t

/-- A strand's turn fetches the word at its position and executes the instruction it decodes to, when no kill, no replay, no
asynchronous trap, no due wait and no annulled position comes first. The turn starts once the strand's own earlier tile writes have
ended; it sees the tiles and the slot that another agent still writes as `viewOf` gives them, and `backOf` puts back what it left
alone (R185, R216; log entry 26): with nothing being written both do nothing. A turn that exceeds a spent host-link budget, or asks over a
link that is down, is not taken (R331, R341; log entry 47). -/
def Obligations.StepRunsDecoded : Prop :=
  ∀ (s s1 : State) (c : CoreId) (st : Strand) (w : Word32) (i : Instr), s.agenda = [] → s.cur = (c, st) →
    (∀ j, s.coreJob c = some j → j.killDue = false) → (s.core c).replay = [] →
    let a := s.updCore c (endTorn (fun o => o == st))
    let v := viewOf c st a
    mayIssue v c st = true →
    (st = .C → (v.core c).asyncDue = false ∧ (v.core c).rdvWait = false ∧ (v.core c).phArr = false ∧ (v.core c).st.c = .issuing ∧
      (v.core c).seq.ann = 0) →
    fetchWord c st v = .ok (w, s1) → decode st w = .ok i →
    (step s = paced s (match exec i s1 with | .next t => .next (backOf c st a v t) | o => o)) ∧
    (tornBy (a.core c) st = [] → (st = .X → fillAt (a.core c) = none) → v = a ∧ step s = paced s (exec i s1))

/-- No turn stops the machine: a strand's turn, and every step of another agent, answers a next state. -/
def Obligations.StepNeverStops : Prop :=
  ∀ s : State, (∀ i, s.agenda.head? = some (.event i) → i.tbl = .agent) → GoesOn (step s)

/-- Trap entry (R256): with STAT.H = 0 and a handler, SPC, SNPC and SDS hold the sequence with its annul count and delay-slot
positions, SSTAT the status; H is set and IE clear; TCAUSE and TVAL name the trap; the C strand goes on at TVEC. Here for an
undecodable word (R60), TVAL := the word. A wait that the strand is in is left first (R284); nothing else outside the core changes. That of
an address only bits [51:2] are saved is the model's reading for addresses from 2^52 on (log entry 12, DEDUCED). An engine strand's undecodable word (R60, R353): the strand stops,
the trap waits for the C strand with its strand in SUB[7:6], unless one of the strand waits already (R355); an arrival of it is
withdrawn. -/
def Obligations.TrapEntry : Prop :=
  (∀ (s : State) (c : CoreId) (w : Word32), mayIssue s c .C = true → (s.core c).csr.inHandler = false →
     (s.core c).csr.hasVector = true → ∃ t, exec (.illegalInstructionWord c .C w) s = .next t ∧ OnlyCore c (leaveWait c s) t ∧
       ((s.core c).st.c ≠ .waiting → OnlyCore c s t) ∧
       let k := (leaveWait c s).core c
       let r := (t.core c).csr
       r.spc = wd (bits k.seq.pc.toNat 2 50 * 4) ∧ r.snpc = wd (bits k.seq.n1.toNat 2 50 * 4) ∧
       r.sds = wd (k.seq.ann.toNat * 2 ^ 56 + (if k.seq.red2 then 2 else if k.seq.red1 then 1 else 0) * 2 ^ 54 + bits k.seq.n2.toNat 2 50 * 4) ∧
       r.sstat = k.csr.stat ∧ r.stat = 1 ∧ r.tcause = 0x01 ∧ r.tval = w.setWidth 64 ∧ r.tvec = k.csr.tvec ∧
       r.ktid = k.csr.ktid ∧ r.kstep = k.csr.kstep ∧ r.hthresh = k.csr.hthresh ∧
       (t.core c).seq = { pc := k.csr.tvec, n1 := k.csr.tvec + 4, n2 := k.csr.tvec + 8, ann := 0, red1 := false, red2 := false } ∧
       (t.core c).st = { k.st with c := .issuing } ∧
       t.core c = { k with seq := (t.core c).seq, csr := r, st := (t.core c).st, wpx := (t.core c).wpx, handlers := none :: k.handlers,
                           rdvWait := false }) ∧
  (∀ (s : State) (c : CoreId) (st : Strand) (w : Word32), st ≠ .C → mayIssue s c st = true →
     ∃ t, exec (.illegalInstructionWord c st w) s = .next t ∧ OnlyCore c s t ∧ (t.core c).st.get st = .stoppedTrap ∧
       (t.core c).atraps = (s.core c).atraps ++ (if (s.core c).atraps.any (fun q => q.src == .strand st) then [] else
         [{ cause := wd (2 ^ 63 + strandNo st * 64 * 256 + 1), tval := w.setWidth 64, src := .strand st }]) ∧
       KeepsX (s.core c) (t.core c) ∧ (t.core c).seq = (s.core c).seq ∧ (t.core c).csr = (s.core c).csr ∧
       (t.core c).tok = (s.core c).tok ∧ (t.core c).arr.get st = none)

/-- `svc k` and `brk k` are taken after their own step (R356): the saved sequence is the one after the step, TVAL := k, the
code is 0x03 or 0x04; nothing outside the core changes. Asynchronous traps at a step boundary (R257): the oldest queued one is taken,
with the sequence that the strand stands at, unless an enabled task interrupt arrived before it; that interrupt, when IE is set and all
that arrived before it has been taken, clears PEND and gives TINTR's code in TVAL (R354). The place of the interrupt among the queued
traps, and that of a saved address only bits [51:2] count, are the model's reading (log entries 23 and 12, DEDUCED). -/
def Obligations.SoftwareAndAsyncTraps : Prop :=
  (∀ (s : State) (c : CoreId) (k : BitVec 8), Ready s c .C → (s.core c).csr.inHandler = false → (s.core c).csr.hasVector = true →
     ∀ p ∈ [(Instr.svc k, (0x03 : Word)), (.brk k, 0x04)], ∃ t, exec p.1 s = .next t ∧ OnlyCore c s t ∧
       let q := (s.core c).seq
       let r := (t.core c).csr
       r.spc = wd (bits q.n1.toNat 2 50 * 4) ∧ r.snpc = wd (bits q.n2.toNat 2 50 * 4) ∧
       r.sds = wd (q.ann.toNat * 2 ^ 56 + (if q.red2 then 1 else 0) * 2 ^ 54 + bits (q.n2 + 4).toNat 2 50 * 4) ∧
       r.sstat = (s.core c).csr.stat ∧ r.stat = 1 ∧ r.tcause = p.2 ∧ r.tval = k.setWidth 64 ∧
       (t.core c).seq.pc = (s.core c).csr.tvec ∧ KeepsX (s.core c) (t.core c)) ∧
  (∀ (s : State) (c : CoreId), (s.core c).csr.inHandler = false → (s.core c).csr.hasVector = true → (s.core c).st.c = .issuing →
     (s.core c).atWfi = false →
     (∀ a as, (s.core c).atraps = a :: as →
       ((s.core c).csr.intEnabled = false ∨ (s.core c).dbg.pend = false ∨ 0 < (s.core c).dbg.after) →
       ∃ t, exec (.asyncTrapTake c) s = .next t ∧ (t.core c).atraps = as ∧
       (t.core c).csr.tcause = a.cause ∧ (t.core c).csr.tval = a.tval ∧ (t.core c).csr.spc = wd (bits (s.core c).seq.pc.toNat 2 50 * 4) ∧
       (t.core c).csr.stat = 1 ∧ (t.core c).csr.sstat = (s.core c).csr.stat ∧ (t.core c).seq.pc = (s.core c).csr.tvec ∧
       KeepsX (s.core c) (t.core c) ∧ t.mem = s.mem) ∧
     ((s.core c).atraps = [] ∨ (s.core c).dbg.after = 0 → (s.core c).csr.intEnabled = true → (s.core c).dbg.pend = true →
       ∃ t, exec (.asyncTrapTake c) s = .next t ∧ (t.core c).dbg = { (s.core c).dbg with pend := false } ∧
         (t.core c).csr.tcause = wd (2 ^ 63 + 0x05) ∧ (t.core c).csr.tval = (s.core c).dbg.code.setWidth 64 ∧
         (t.core c).csr.stat = 1 ∧ (t.core c).seq.pc = (s.core c).csr.tvec ∧ KeepsX (s.core c) (t.core c) ∧ t.mem = s.mem))

/-- A trap that is not delivered, because STAT.H is set or TVEC.VEC is 0, changes no register of the core, whose wait, if it is in one, it
ends (R284): the partition's
first one is latched in FTREC0 to FTREC2, and the job is to be killed (R352). That the job is marked for a KILL step of its own, and
that FTREC2 keeps bits [51:2] of any address, are the model's choices (log entries 23 and 12). -/
def Obligations.UnhandledTrap : Prop :=
  ∀ (s : State) (c : CoreId) (w : Word32) (j : Job), mayIssue s c .C = true →
    ((s.core c).csr.inHandler = true ∨ (s.core c).csr.hasVector = false) → (leaveWait c s).job? (s.core c).id.jobid = some j →
    ∃ t, exec (.illegalInstructionWord c .C w) s = .next t ∧ (t.core c).csr = (s.core c).csr ∧ (t.core c).seq = (s.core c).seq ∧
      KeepsX (s.core c) (t.core c) ∧ (∃ j', t.job? (s.core c).id.jobid = some j' ∧ j' = { j with killDue := true }) ∧
      t.mem = s.mem ∧
      let p := (s.core c).id.pid
      (bit (s.part p).ftrec0.toNat 63 = true → t.parts = s.parts) ∧
      (bit (s.part p).ftrec0.toNat 63 = false →
        (t.part p).ftrec0 = wd (2 ^ 63 + (s.core c).id.jobid.toNat * 2 ^ 32 + (s.core c).id.slot.toNat * 2 ^ 24 + 1) ∧
        (t.part p).ftrec1 = w.setWidth 64 ∧ (t.part p).ftrec2 = wd (bits (s.core c).seq.pc.toNat 2 50 * 4))

/-- `tret` (R258, R358): in a handler, with no reserved bit in the saved registers, the sequence comes back from SPC, SNPC and
SDS and the status from SSTAT; the registers are as before; the engine strand whose trap this handler took issues again (R353). Outside
a handler it is illegal. With SSTAT's reserved bits set it is a STATUS trap, which is unhandled. -/
def Obligations.ReturnFromTrap : Prop :=
  ∀ (s : State) (c : CoreId), Ready s c .C → (s.core c).replay = [] →
    let r := (s.core c).csr
    (r.inHandler = true → r.sstat.toNat < 4 → r.spc.toNat < 2 ^ 52 ∧ r.spc.toNat % 4 = 0 → r.snpc.toNat < 2 ^ 52 ∧ r.snpc.toNat % 4 = 0 →
      r.sds.toNat < 2 ^ 58 ∧ bits r.sds.toNat 52 2 = 0 ∧ r.sds.toNat % 4 = 0 ∧ bits r.sds.toNat 56 2 ≠ 3 ∧ bits r.sds.toNat 54 2 ≠ 3 →
      (∀ n, (s.core c).handlers.head?.join ≠ some (.replay n)) →
      ∃ t, exec .tret s = .next t ∧ OnlyCore c s t ∧ KeepsX (s.core c) (t.core c) ∧ (t.core c).csr = { r with stat := r.sstat } ∧
        (t.core c).seq = { pc := r.spc, n1 := r.snpc, n2 := wd (bits r.sds.toNat 2 50 * 4), ann := BitVec.ofNat 2 (bits r.sds.toNat 56 2),
                           red1 := decide (bits r.sds.toNat 54 2 = 1), red2 := decide (bits r.sds.toNat 54 2 = 2) } ∧
        (∀ st, (s.core c).handlers.head?.join = some (.strand st) → (t.core c).st.get st = .issuing) ∧
        (t.core c).handlers = (s.core c).handlers.tail ∧ (t.core c).tok = (s.core c).tok) ∧
    (r.inHandler = false → TrapsIllegal c .tret s) ∧
    (r.inHandler = true → 4 ≤ r.sstat.toNat →
      exec .tret s = .next (unhandled c 0x02 0x001 ((leaveWait c s).updCore c (dropExempt .C))))

/-- An annulled position (R252) is passed without effect and ANN falls by one; a fetch that no translation allows is a precise
page fault at the position (R96, R255), and a wait that the strand is in is left (R284): here a pc beyond 2^52, ASIZE of stage one at level
0 (R95). That the trap saves bits [51:2] of
such a pc is the model's reading (log entry 12, DEDUCED). -/
def Obligations.PositionsWithoutFetch : Prop :=
  ∀ (s : State) (c : CoreId), mayIssue s c .C = true →
    ((s.core c).seq.ann ≠ 0 → ∃ t, exec (.annulledPosition c) s = .next t ∧ OnlyCore c s t ∧
      (t.core c).seq = { pc := (s.core c).seq.n1, n1 := (s.core c).seq.n2, n2 := (s.core c).seq.n2 + 4,
                         ann := (s.core c).seq.ann - 1, red1 := (s.core c).seq.red2, red2 := false } ∧
      t.core c = { s.core c with seq := (t.core c).seq }) ∧
    (2 ^ 52 ≤ (s.core c).seq.pc.toNat → windowOf s c = none → (s.core c).csr.inHandler = false → (s.core c).csr.hasVector = true →
      ∃ t, exec (.instructionFetchFault c .C) s = .next t ∧ OnlyCore c (leaveWait c s) t ∧ (t.core c).csr.tcause = wd (4 * 256 + 0x06) ∧
        (t.core c).csr.tval = (s.core c).seq.pc ∧ (t.core c).csr.spc = wd (bits (s.core c).seq.pc.toNat 2 50 * 4) ∧
        KeepsX (s.core c) (t.core c))

/-- Two-register arithmetic (R251): x[d] takes the value with the joined label; one register, the sequence and a label join are
all that changes. Division (R57): truncated toward zero; by zero −1, all ones, and the dividend; −2^63 by −1 gives −2^63 and
remainder 0. One-register and immediate forms (R65, R251) keep the source's label; `lih` and `adpc` have label 0. A pending
register stalls its reader and its writer, of every one of these instructions: the strand waits and nothing else changes (R24, R250). -/
def Obligations.ScalarArithmetic : Prop :=
  (∀ (s : State) (c : CoreId) (d a b : BitVec 6), Ready s c .C → NonePending (s.core c) [d, a, b] →
     let x := (s.core c).xval a
     let y := (s.core c).xval b
     let l := (joinAt (dieOf c) (s.core c).id.pid ((s.core c).xlbl a) ((s.core c).xlbl b) s).1
     ∀ p ∈ [(Instr.add d a b, x + y), (.sub d a b, x - y), (.and d a b, x &&& y), (.or d a b, x ||| y), (.xor d a b, x ^^^ y),
            (.sll d a b, x <<< (y.toNat % 64)), (.srl d a b, x >>> (y.toNat % 64)), (.sra d a b, x.sshiftRight (y.toNat % 64)),
            (.slt d a b, if x.toInt < y.toInt then 1 else 0), (.sltu d a b, if x.toNat < y.toNat then 1 else 0),
            (.mul d a b, BitVec.ofNat 64 (x.toNat * y.toNat)), (.mulh d a b, BitVec.ofInt 64 (x.toInt * y.toInt / 2 ^ 64)),
            (.mulhu d a b, BitVec.ofNat 64 (x.toNat * y.toNat / 2 ^ 64)), (.min d a b, if x.toInt ≤ y.toInt then x else y),
            (.max d a b, if y.toInt ≤ x.toInt then x else y)],
       ∃ t, exec p.1 s = .next t ∧ OnlyCoreAndJoins c s t ∧ KeepsCore (s.core c) (t.core c) ∧ FallsThrough (s.core c) (t.core c) ∧
         SetsX (s.core c) (t.core c) d p.2 l) ∧
  (∀ (s : State) (c : CoreId) (d a b : BitVec 6), Ready s c .C → NonePending (s.core c) [d, a, b] →
     let x := (s.core c).xval a
     let y := (s.core c).xval b
     let l := (joinAt (dieOf c) (s.core c).id.pid ((s.core c).xlbl a) ((s.core c).xlbl b) s).1
     let ovf := x.toInt = -(2 ^ 63) ∧ y.toInt = -1
     ∀ p ∈ [(Instr.div d a b, if y = 0 then BitVec.ofInt 64 (-1) else if ovf then x else BitVec.ofInt 64 (x.toInt.tdiv y.toInt)),
            (.divu d a b, if y = 0 then BitVec.allOnes 64 else BitVec.ofNat 64 (x.toNat / y.toNat)),
            (.rem d a b, if y = 0 then x else if ovf then 0 else BitVec.ofInt 64 (x.toInt.tmod y.toInt)),
            (.remu d a b, if y = 0 then x else BitVec.ofNat 64 (x.toNat % y.toNat))],
       ∃ t, exec p.1 s = .next t ∧ OnlyCoreAndJoins c s t ∧ KeepsCore (s.core c) (t.core c) ∧ FallsThrough (s.core c) (t.core c) ∧
         SetsX (s.core c) (t.core c) d p.2 l) ∧
  (∀ (s : State) (c : CoreId) (d a : BitVec 6) (i : BitVec 14) (n : BitVec 6) (h : BitVec 20), Ready s c .C →
     NonePending (s.core c) [d, a] →
     let x := (s.core c).xval a
     let e := i.signExtend 64
     (∀ p ∈ [(Instr.addi d a i, x + e), (.andi d a i, x &&& e), (.ori d a i, x ||| e), (.xori d a i, x ^^^ e),
             (.slti d a i, if x.toInt < e.toInt then 1 else 0), (.slli d a n, x <<< n.toNat), (.srli d a n, x >>> n.toNat),
             (.srai d a n, x.sshiftRight n.toNat), (.popc d a, wd ((List.range 64).countP (fun k => x.getLsbD k))),
             (.clz d a, wd (((List.range 64).find? (fun k => x.getMsbD k)).getD 64)),
             (.ctz d a, wd (((List.range 64).find? (fun k => x.getLsbD k)).getD 64))],
       CompletesWith c p.1 s d p.2 ((s.core c).xlbl a)) ∧
     CompletesWith c (.lih d h) s d (h.signExtend 64 * 2 ^ 14) 0 ∧
     CompletesWith c (.adpc d h) s d ((s.core c).seq.pc + h.signExtend 64 * 2 ^ 14) 0) ∧
  (∀ (s : State) (c : CoreId) (d a b : BitVec 6), Ready s c .C →
     ((s.core c).pending d = true ∨ (s.core c).pending a = true ∨ (s.core c).pending b = true) →
     ∀ i ∈ [Instr.add d a b, .sub d a b, .and d a b, .or d a b, .xor d a b, .sll d a b, .srl d a b, .sra d a b, .slt d a b, .sltu d a b,
            .mul d a b, .mulh d a b, .mulhu d a b, .min d a b, .max d a b, .div d a b, .divu d a b, .rem d a b, .remu d a b],
       Stalls c i s) ∧
  (∀ (s : State) (c : CoreId) (d a : BitVec 6) (i : BitVec 14) (n : BitVec 6), Ready s c .C →
     ((s.core c).pending d = true ∨ (s.core c).pending a = true) →
     ∀ j ∈ [Instr.addi d a i, .andi d a i, .ori d a i, .xori d a i, .slti d a i, .slli d a n, .srli d a n, .srai d a n, .popc d a,
            .clz d a, .ctz d a],
       Stalls c j s) ∧
  (∀ (s : State) (c : CoreId) (d : BitVec 6) (h : BitVec 20), Ready s c .C → (s.core c).pending d = true →
     Stalls c (.lih d h) s ∧ Stalls c (.adpc d h) s)

/-- Branches (R253): taken, the sequence goes to own address + 4 × sext(off12) after two slots; the annul field 1 annuls the
slots when taken, 2 when not taken; no register is written. A branch whose operands are pending waits, and nothing else changes
(R253, R250). Jumps (R254): the link is own address + 12 with label 0; `jalr` goes to x[a] + sext(imm14), read before the link
is written, and traps with TVAL := the target where that is not a multiple of 4, with no effect. -/
def Obligations.BranchesAndJumps : Prop :=
  (∀ (s : State) (c : CoreId) (a b : BitVec 6) (n : BitVec 2) (o : BitVec 12), Ready s c .C → NonePending (s.core c) [a, b] →
     let x := (s.core c).xval a
     let y := (s.core c).xval b
     ∀ p ∈ [(Instr.beq a b n o, decide (x = y)), (.bne a b n o, decide (x ≠ y)), (.blt a b n o, decide (x.toInt < y.toInt)),
            (.bge a b n o, decide (y.toInt ≤ x.toInt)), (.bltu a b n o, decide (x.toNat < y.toNat)),
            (.bgeu a b n o, decide (y.toNat ≤ x.toNat))],
       ∃ t, exec p.1 s = .next t ∧ OnlyCore c s t ∧ KeepsCore (s.core c) (t.core c) ∧ KeepsX (s.core c) (t.core c) ∧
         (p.2 = true → Redirected (s.core c) (t.core c) ((s.core c).seq.pc + 4 * o.signExtend 64) (decide (n = 1))) ∧
         (p.2 = false → (n = 2 → (t.core c).seq.ann = 2) ∧ (n ≠ 2 → FallsThrough (s.core c) (t.core c)) ∧
           (t.core c).seq.pc = (s.core c).seq.n1 ∧ (t.core c).seq.n2 = (s.core c).seq.n2 + 4)) ∧
  (∀ (s : State) (c : CoreId) (a b : BitVec 6) (n : BitVec 2) (o : BitVec 12), Ready s c .C →
     ((s.core c).pending a = true ∨ (s.core c).pending b = true) →
     ∀ i ∈ [Instr.beq a b n o, .bne a b n o, .blt a b n o, .bge a b n o, .bltu a b n o, .bgeu a b n o], Stalls c i s) ∧
  (∀ (s : State) (c : CoreId) (d a : BitVec 6) (i : BitVec 14) (o : BitVec 20), Ready s c .C → NonePending (s.core c) [d, a] →
     let pc := (s.core c).seq.pc
     let tgt := (s.core c).xval a + i.signExtend 64
     (∃ t, exec (.j o) s = .next t ∧ OnlyCore c s t ∧ KeepsCore (s.core c) (t.core c) ∧ KeepsX (s.core c) (t.core c) ∧
       Redirected (s.core c) (t.core c) (pc + 4 * o.signExtend 64) false) ∧
     (∃ t, exec (.jal d o) s = .next t ∧ OnlyCore c s t ∧ KeepsCore (s.core c) (t.core c) ∧ SetsX (s.core c) (t.core c) d (pc + 12) 0 ∧
       Redirected (s.core c) (t.core c) (pc + 4 * o.signExtend 64) false) ∧
     (tgt.toNat % 4 = 0 → ∃ t, exec (.jalr d a i) s = .next t ∧ OnlyCore c s t ∧ KeepsCore (s.core c) (t.core c) ∧
       SetsX (s.core c) (t.core c) d (pc + 12) 0 ∧ Redirected (s.core c) (t.core c) tgt false) ∧
     (tgt.toNat % 4 ≠ 0 → exec (.jalr d a i) s = .next (trapC c cILLEGAL 0 tgt s)))

/-- A plain load (R259, R260) issues: x[d] is pending with the bytes at the address, extended by the width code, and the
sector's label; memory is as before. Any load does so with what its access reads and delivers, across sectors and pages, from the
stash window, from TSO and race-checked pages (R94, R95, R100, R130, R247); with stale reads recorded where the guards let it pass
(R302), else it waits (R301), where its page does not translate too: guards come before translation by the model's reading (log entry 15,
DEDUCED). Any store completes with its access's effect. Before any effect an access traps on the lowest page that
does not translate (R96, R100), on a watchpoint (R106), on a race (R247, R248), in this order (log entry 11). The delivery of a load or of an atomic's old value (R260, R361): x[d] takes the value and
its label, it is no longer pending, and the journal entry of an atomic is complete. A plain store (R259): the low bytes of x[s]
stand at the address and no other byte reads otherwise; registers are as before. -/
def Obligations.LoadsAndStores : Prop :=
  (∀ (s : State) (c : CoreId) (d b : BitVec 6) (w : BitVec 3) (o : BitVec 11) (t : Tlb), Ready s c .C → w ≠ 7 →
     NonePending (s.core c) [d, b] →
     let n := if w.toNat < 2 then 1 else if w.toNat < 4 then 2 else if w.toNat < 6 then 4 else 8
     let va := ((s.core c).xval b + o.signExtend 64 * wd n).toNat
     let v := leNat (readBytes s (physOf t va) n)
     PlainAccess s c .C va n { rd := true, wr := false, ex := false } t →
     ∃ u, exec (.ld d b w o) s = .next u ∧ OnlyCore c s u ∧ MemorySame s u ∧ FallsThrough (s.core c) (u.core c) ∧
       KeepsCore { s.core c with pend := (u.core c).pend } (u.core c) ∧ KeepsX (s.core c) (u.core c) ∧
       (u.core c).pend = (s.core c).pend ++
         [{ reg := d, src := .load, lbl := liveId s.labels (s.sideAt (physOf t va / 64)).lbl, seq := none,
            val := some (if w = 0 then (BitVec.ofNat 8 v).signExtend 64 else if w = 2 then (BitVec.ofNat 16 v).signExtend 64
                         else if w = 4 then (BitVec.ofNat 32 v).signExtend 64 else wd v) }]) ∧
  (∀ (s : State) (c : CoreId) (d : BitVec 6) (p : Pend) (v : Word), p.val = some v → (s.core c).pend = [p] → p.reg = d →
     ∀ i ∈ [(Instr.loadDelivery c d, PendSrc.load), (.amoDelivery c d, .amo)], p.src = i.2 →
       ∃ t, exec i.1 s = .next t ∧ OnlyCore c s t ∧ SetsX (s.core c) (t.core c) d v p.lbl ∧ (t.core c).pend = [] ∧
         (t.core c).seq = (s.core c).seq ∧ (t.core c).csr = (s.core c).csr ∧ (t.core c).tok = (s.core c).tok ∧
         (∀ n, p.seq = some n → ∀ e ∈ (t.core c).journal, e.seq = n → e.done = true)) ∧
  (∀ (s : State) (c : CoreId) (r b : BitVec 6) (w : BitVec 3) (o : BitVec 11) (t : Tlb), CanonicalMemory s → Ready s c .C →
     w = 1 ∨ w = 3 ∨ w = 5 ∨ w = 6 → NonePending (s.core c) [r, b] →
     let n := if w = 1 then 1 else if w = 3 then 2 else if w = 5 then 4 else 8
     let va := ((s.core c).xval b + o.signExtend 64 * wd n).toNat
     PlainAccess s c .C va n { rd := false, wr := true, ex := false } t →
     ∃ u, exec (.st r b w o) s = .next u ∧ OnlyStore c s u ∧ Stored s u (physOf t va) (natBytes n ((s.core c).xval r).toNat) ∧
       KeepsCore (s.core c) (u.core c) ∧ KeepsX (s.core c) (u.core c) ∧ FallsThrough (s.core c) (u.core c)) ∧
  (∀ (s : State) (c : CoreId) (d b : BitVec 6) (w : BitVec 3) (o : BitVec 11), Ready s c .C → w ≠ 7 → NonePending (s.core c) [d, b] →
     let n := if w.toNat < 2 then 1 else if w.toNat < 4 then 2 else if w.toNat < 6 then 4 else 8
     let va := ((s.core c).xval b + o.signExtend 64 * wd n).toNat
     let ms := guardedBy s c [(va, n)]
     let i := Instr.ld d b w o
     let kd : WpKind := { rd := true, wr := false, ex := false }
     ((∀ m ∈ ms, m.stok = true) →
       (∀ g s1, strandRead c .C va n true s = .ok (g, s1) →
         let s2 := (staleMark ms s1).2
         let v := leNat g.bytes
         ∃ u, exec i s = .next u ∧ OnlyCore c s2 u ∧ FallsThrough (s2.core c) (u.core c) ∧ KeepsX (s2.core c) (u.core c) ∧
           (u.core c).pend = (s2.core c).pend ++
             [{ reg := d, src := .load, lbl := g.lbl, seq := none,
                val := some (if w = 0 then (BitVec.ofNat 8 v).signExtend 64 else if w = 2 then (BitVec.ofNat 16 v).signExtend 64
                             else if w = 4 then (BitVec.ofNat 32 v).signExtend 64 else wd v) }]) ∧
       FaultsOn c i va n .read kd s ∧ RacesOn c i va n .read kd s) ∧
     WaitsOnGuard c i va n s) ∧
  (∀ (s : State) (c : CoreId) (r b : BitVec 6) (w : BitVec 3) (o : BitVec 11), Ready s c .C → w = 1 ∨ w = 3 ∨ w = 5 ∨ w = 6 →
     NonePending (s.core c) [r, b] →
     let n := if w = 1 then 1 else if w = 3 then 2 else if w = 5 then 4 else 8
     let va := ((s.core c).xval b + o.signExtend 64 * wd n).toNat
     let i := Instr.st r b w o
     let kd : WpKind := { rd := false, wr := true, ex := false }
     (∀ s1, strandWrite c .C va (natBytes n ((s.core c).xval r).toNat) ((s.core c).xlbl r) true s = .ok ((), s1) →
       ∃ u, exec i s = .next u ∧ OnlyCore c s1 u ∧ KeepsX (s1.core c) (u.core c) ∧ KeepsCore (s1.core c) (u.core c) ∧
         FallsThrough (s1.core c) (u.core c)) ∧
     FaultsOn c i va n .write kd s ∧ RacesOn c i va n .write kd s)

/-- A plain atomic (R262): in one step the old value is read and the new one written at x[a]; x[d] is pending with the old
value; the command takes sequence number HEAD, guarded and past its commit point with RES the old value (R360, R361). `cas`
compares with x[d] and may leave memory alone. A misaligned atomic (R262) traps with TVAL := x[a], before any access.
`amo.fadd` (R262, R264): FP32 addition on four bytes outside determinism mode; in determinism mode it is illegal. Any atomic faults on a
page that does not translate with R and W (R94, R96) and on a watchpoint (R106), waits on a guard (R301), and completes at an address
of any mapping with what its access gives (R94, R130); at a remote one it needs the scope .sys and an operation that UALink has, else
it traps with TVAL := x[a], and then its old value comes from outside (R330). That the watchpoint comes before the remote refusal is the
model's reading (log entry 11, DEDUCED), and that a guard comes before translation is too (log entry 15, DEDUCED). -/
def Obligations.Atomics : Prop :=
  (∀ (s : State) (c : CoreId) (d a b : BitVec 6) (r : BitVec 2) (sc : BitVec 3) (t : Tlb), CanonicalMemory s → Ready s c .C →
     NonePending (s.core c) [d, a, b] → (s.core c).span < 4096 →
     let va := ((s.core c).xval a).toNat
     let old := wd (leNat (readBytes s (physOf t va) 8))
     let y := (s.core c).xval b
     va % 8 = 0 → PlainAccess s c .C va 8 { rd := true, wr := true, ex := false } t →
     ∀ p ∈ [(Instr.amoAdd d a b r sc, some (old + y)), (.amoAnd d a b r sc, some (old &&& y)), (.amoOr d a b r sc, some (old ||| y)),
            (.amoXor d a b r sc, some (old ^^^ y)), (.amoMin d a b r sc, some (if y.toInt < old.toInt then y else old)),
            (.amoMax d a b r sc, some (if old.toInt < y.toInt then y else old)), (.amoSwap d a b r sc, some y),
            (.amoCas d a b r sc, if old = (s.core c).xval d then some y else none)],
       ∃ u, exec p.1 s = .next u ∧ OnlyStore c s u ∧ KeepsX (s.core c) (u.core c) ∧ FallsThrough (s.core c) (u.core c) ∧
         (∀ v, p.2 = some v → Stored s u (physOf t va) (natBytes 8 v.toNat)) ∧ (p.2 = none → MemorySame s u) ∧
         (u.core c).pend = (s.core c).pend ++
           [{ reg := d, src := .amo, val := some old, lbl := liveId s.labels (s.sideAt (physOf t va / 64)).lbl, seq := some (s.core c).head }] ∧
         (u.core c).head = seqAdd (s.core c).head 1 ∧ (u.core c).journal.head?.map (fun e => (e.seq, e.guarded, e.perf, e.done, e.res)) =
           some ((s.core c).head, true, true, false, old)) ∧
  (∀ (s : State) (c : CoreId) (d a b : BitVec 6) (r : BitVec 2) (sc : BitVec 3), Ready s c .C → NonePending (s.core c) [d, a, b] →
     ((s.core c).xval a).toNat % 8 ≠ 0 →
     ∀ i ∈ [Instr.amoAdd d a b r sc, .amoAnd d a b r sc, .amoOr d a b r sc, .amoXor d a b r sc, .amoMin d a b r sc, .amoMax d a b r sc,
            .amoSwap d a b r sc, .amoCas d a b r sc],
       exec i s = .next (trapC c cILLEGAL 0 ((s.core c).xval a) s)) ∧
  (∀ (s : State) (c : CoreId) (d a b : BitVec 6) (r : BitVec 2) (sc : BitVec 3), CanonicalMemory s → Ready s c .C → NonePending (s.core c) [d, a, b] →
     let va := ((s.core c).xval a).toNat
     va % 4 = 0 →
     ((s.core c).id.det = true → TrapsIllegal c (.amoFadd d a b sc r) s) ∧
     ((s.core c).id.det = false → (s.core c).span < 4096 → ∀ t : Tlb, PlainAccess s c .C va 4 { rd := true, wr := true, ex := false } t →
       let old : Word32 := BitVec.ofNat 32 (leNat (readBytes s (physOf t va) 4))
       ∃ u, exec (.amoFadd d a b sc r) s = .next u ∧ OnlyStore c s u ∧ KeepsX (s.core c) (u.core c) ∧ FallsThrough (s.core c) (u.core c) ∧
         Stored s u (physOf t va) (natBytes 4 (fadd old (((s.core c).xval b).setWidth 32)).toNat) ∧
         (u.core c).pend.map (fun p => (p.reg, p.val)) = (s.core c).pend.map (fun p => (p.reg, p.val)) ++ [(d, some (old.setWidth 64))])) ∧
  (∀ (s : State) (c : CoreId) (d a b : BitVec 6) (r : BitVec 2) (sc : BitVec 3), Ready s c .C → NonePending (s.core c) [d, a, b] →
     let va := ((s.core c).xval a).toNat
     let y := (s.core c).xval b
     let kd : WpKind := { rd := true, wr := true, ex := false }
     let plain (f : Word → Word → Word) : AmoFun := fun old y _ => some (f old y)
     ∀ p ∈ [(Instr.amoAdd d a b r sc, 8, true, plain (fun x y => x + y)), (.amoAnd d a b r sc, 8, false, plain (fun x y => x &&& y)),
            (.amoOr d a b r sc, 8, false, plain (fun x y => x ||| y)), (.amoXor d a b r sc, 8, false, plain (fun x y => x ^^^ y)),
            (.amoMin d a b r sc, 8, false, plain (fun x y => if y.toInt < x.toInt then y else x)),
            (.amoMax d a b r sc, 8, false, plain (fun x y => if x.toInt < y.toInt then y else x)),
            (.amoSwap d a b r sc, 8, true, plain (fun _ y => y)), (.amoCas d a b r sc, 8, true, fun old y z => if old = z then some y else none),
            (.amoFadd d a b sc r, 4, false, plain (fun x y => (fadd (x.setWidth 32) (y.setWidth 32)).setWidth 64))],
       va % p.2.1 = 0 → (p.2.1 = 4 → (s.core c).id.det = false) →
       WaitsOnGuard c p.1 va p.2.1 s ∧
       ((∀ m ∈ guardedBy s c [(va, p.2.1)], m.stok = true) →
         FaultsOn c p.1 va p.2.1 .atomic kd s ∧
         (∀ pages s1, translate (strandWho s c) va p.2.1 .atomic s = (.ok pages, s1) →
           wpHit (s1.core c) .C (s1.core c).seq.pc va p.2.1 kd = none →
           let ps := pieces pages va p.2.1
           let near := ∀ q ∈ ps, paRemote q.pa = false
           let w := { strandWho s c with cache := none }
           (¬ near → sc ≠ 4 ∨ p.2.2.1 = false → exec p.1 s = .next (trapC c cILLEGAL 0 (wd va) s1)) ∧
           ((s1.core c).span < 4096 →
             (near → ∀ old l s2, amoHere c w p.2.2.2 ps p.2.1 (y, (s.core c).xlbl b) ((s.core c).xval d) s1 = .ok ((old, l), s2) →
               let s3 := (staleMark (guardedBy s c [(va, p.2.1)]) s2).2
               ∃ u, exec p.1 s = .next u ∧ OnlyCore c s3 u ∧ FallsThrough (s3.core c) (u.core c) ∧ KeepsX (s3.core c) (u.core c) ∧
                 (u.core c).pend = (s3.core c).pend ++ [{ reg := d, src := .amo, val := some old, lbl := l, seq := some (s3.core c).head }]) ∧
             (¬ near → sc = 4 → p.2.2.1 = true → ∃ u q, exec p.1 s = .next u ∧ (u.core c).seq.pc = (s.core c).seq.n1 ∧
               KeepsX (s.core c) (u.core c) ∧ (u.core c).pend = (s1.core c).pend ++ [q] ∧ q.reg = d ∧ q.src = .amo ∧ q.val.isSome = true ∧
               q.seq = some (s1.core c).head)))))

/-- `csrr` (R266, R267): every CSR as it reads, its reserved bits as zero (R6), with label 0. TIME is the package's (R268). `csrw` and `csrs` (R266, R267):
with a value that the register takes, and in a handler where the number needs it (R68), the register reads as the value (ORed
with the old one), no other CSR and no x register changes, and the sequence goes on; outside a handler, or with a value that it
does not take, the instruction is illegal. `srkey` (R315): KTID and KSTEP as one update; an operand at or above 2^32 is
illegal. A write to KTID or KSTEP also notes the registers' old values for the S strand (R48). -/
def Obligations.SpecialRegisters : Prop :=
  (∀ (s : State) (c : CoreId) (d : BitVec 6), Ready s c .C → NonePending (s.core c) [d] →
     let r := (s.core c).csr
     let i := (s.core c).id
     ∀ p ∈ [((0x000 : BitVec 12), r.stat &&& 3), (0x001, r.sstat &&& 3), (0x002, wd (bits r.spc.toNat 2 50 * 4)),
            (0x003, wd (bits r.snpc.toNat 2 50 * 4)), (0x004, wd (bits r.sds.toNat 54 4 * 2 ^ 54 + bits r.sds.toNat 2 50 * 4)), (0x005, r.tvec),
            (0x006, r.tcause), (0x007, r.tval), (0x010, s.time), (0x020, r.ktid.setWidth 64), (0x021, r.kstep.setWidth 64),
            (0x030, wd (i.phn.toNat * 2 ^ 32 + i.domLast.toNat * 2 ^ 16 + i.domFirst.toNat * 2 ^ 8 + i.hlvl.toNat * 4 + i.level.toNat)),
            (0x031, i.jobid.setWidth 64), (0x032, wd (i.taskLast.toNat * 256 + i.slot.toNat)), (0x033, wd (i.vd.toNat * 32 + i.pid.val)),
            (0x034, i.asid.setWidth 64), (0x035, wd ((if i.salign then 2 else 0) + (if i.det then 1 else 0))),
            (0x040, r.hthresh.setWidth 64)],
       CompletesWith c (.csrr d p.1) s d p.2 0) ∧
  (∀ (s : State) (c : CoreId) (a : BitVec 6) (n : BitVec 12), Ready s c .C → NonePending (s.core c) [a] →
     let x := (s.core c).xval a
     let h := (s.core c).csr.inHandler
     let takes (v : Word) : Prop :=
       ((n = 0x000 ∨ n = 0x001) ∧ v.toNat < 4) ∨ ((n = 0x002 ∨ n = 0x003 ∨ n = 0x005) ∧ v.toNat < 2 ^ 52 ∧ v.toNat % 4 = 0) ∨
       (n = 0x004 ∧ v.toNat < 2 ^ 58 ∧ bits v.toNat 52 2 = 0 ∧ v.toNat % 4 = 0 ∧ bits v.toNat 56 2 ≠ 3 ∧ bits v.toNat 54 2 ≠ 3) ∨
       (n = 0x006 ∧ bits v.toNat 16 47 = 0) ∨ n = 0x007 ∨ ((n = 0x020 ∨ n = 0x021) ∧ v.toNat < 2 ^ 32) ∨
       (n = 0x040 ∧ v.toNat ≤ 0x7F800000)
     let mayWrite : Prop := (n = 0x005 ∨ n = 0x020 ∨ n = 0x021 ∨ n = 0x040) ∨ h = true
     ∀ p ∈ [(Instr.csrw a n, x), (.csrs a n, x ||| readCsr s c n.toNat)],
       (mayWrite → takes p.2 → ∃ t, exec p.1 s = .next t ∧ OnlyCore c s t ∧ KeepsX (s.core c) (t.core c) ∧
         FallsThrough (s.core c) (t.core c) ∧ KeepsCore { s.core c with csr := (t.core c).csr, keyw := (t.core c).keyw } (t.core c) ∧
         (n ≠ 0x020 → n ≠ 0x021 → (t.core c).keyw = (s.core c).keyw) ∧ readCsr t c n.toNat = p.2 ∧ ∀ m : BitVec 12, m ≠ n → readCsr t c m.toNat = readCsr s c m.toNat) ∧
       (¬ mayWrite ∨ ¬ takes p.2 → TrapsIllegal c p.1 s)) ∧
  (∀ (s : State) (c : CoreId) (a b : BitVec 6), Ready s c .C → NonePending (s.core c) [a, b] →
     let x := (s.core c).xval a
     let y := (s.core c).xval b
     (x.toNat < 2 ^ 32 → y.toNat < 2 ^ 32 → ∃ t, exec (.srkey a b) s = .next t ∧ OnlyCore c s t ∧ KeepsX (s.core c) (t.core c) ∧
       FallsThrough (s.core c) (t.core c) ∧ KeepsCore { s.core c with csr := (t.core c).csr, keyw := (t.core c).keyw } (t.core c) ∧
       (t.core c).csr = { (s.core c).csr with ktid := x.setWidth 32, kstep := y.setWidth 32 }) ∧
     (2 ^ 32 ≤ x.toNat ∨ 2 ^ 32 ≤ y.toNat → TrapsIllegal c (.srkey a b) s))

/-- `fence` (R265; log entry 6), `waitt` whose time has come (R283), `wfi` with a trap or PEND due (R357) and `snap` with the
trigger not armed (R359) complete and change nothing but the sequence; `est` (R349) also sets the job's estimate. A `waitt`
before its time and a `wfi` with nothing due wait, with a mark and no other effect; WAITT_RESUME ends the wait of a `waitt`
once TIME has reached its value (R283, R357). -/
def Obligations.OrderAndTime : Prop :=
  (∀ (s : State) (c : CoreId) (a : BitVec 6) (r : BitVec 2) (sc : BitVec 3), Ready s c .C → NonePending (s.core c) [a] →
     let x := (s.core c).xval a
     let goes (i : Instr) : Prop := ∃ t, exec i s = .next t ∧ OnlyCore c s t ∧ KeepsCore (s.core c) (t.core c) ∧
       KeepsX (s.core c) (t.core c) ∧ FallsThrough (s.core c) (t.core c)
     goes (.fence r sc) ∧ (x.toNat ≤ s.time.toNat → goes (.waitt a)) ∧
     ((s.core c).asyncDue = true ∨ (s.core c).dbg.pend = true → goes .wfi) ∧
     ((s.part (s.core c).id.pid).snapArm = false → goes .snap) ∧
     (∀ j, s.job? (s.core c).id.jobid = some j → x.toNat < 2 ^ 32 → ∃ t, exec (.est a) s = .next t ∧
       t.job? (s.core c).id.jobid = some { j with est := x.setWidth 32, estAt := s.time } ∧ KeepsCore (s.core c) (t.core c) ∧
       KeepsX (s.core c) (t.core c) ∧ FallsThrough (s.core c) (t.core c) ∧ t = { s with cores := t.cores, jobs := t.jobs }) ∧
     (2 ^ 32 ≤ x.toNat → TrapsIllegal c (.est a) s)) ∧
  (∀ (s : State) (c : CoreId) (a : BitVec 6), Ready s c .C → NonePending (s.core c) [a] →
     (s.time.toNat < ((s.core c).xval a).toNat →
       exec (.waitt a) s = .next (s.updCore c (fun k => { k with waitT := some (k.xval a), st := { k.st with c := .waiting } }))) ∧
     ((s.core c).asyncDue = false → (s.core c).dbg.pend = false →
       exec .wfi s = .next (s.updCore c (fun k => { k with atWfi := true, st := { k.st with c := .waiting } }))) ∧
     (∀ v : Word, (s.core c).waitT = some v →
       (v.toNat ≤ s.time.toNat → ∃ t, exec (.waittResume c) s = .next t ∧ OnlyCore c s t ∧ FallsThrough (s.core c) (t.core c) ∧
         KeepsCore (s.core c) (t.core c) ∧ KeepsX (s.core c) (t.core c)) ∧
       (s.time.toNat < v.toNat → exec (.waittResume c) s = .next s)))

/-- The snapshot trigger (R359, R369): armed, `snap` and a host write of TRIG fire it: ARM clears, FIRED is set with the source
(0 for `snap`, 1 for the host) and SNAPTIME; memory, x registers and sequence keep what they hold. ARM sets only the arm bit. -/
def Obligations.SnapshotTrigger : Prop :=
  ∀ s : State, s.boot.st = .ready →
    (∀ c, Ready s c .C → (s.part (s.core c).id.pid).snapArm = true → ∃ t, exec .snap s = .next t ∧
      let p := t.part (s.core c).id.pid
      p.snapArm = false ∧ p.snapFired = true ∧ p.snapSrc = 0 ∧ p.snaptime = s.time ∧ t.mem = s.mem ∧ KeepsX (s.core c) (t.core c) ∧
      FallsThrough (s.core c) (t.core c)) ∧
    (∀ p : PartId, (s.part p).snapArm = true → ∃ t, exec (.snapHostTrigger p) s = .next t ∧ (t.part p).snapArm = false ∧
      (t.part p).snapFired = true ∧ (t.part p).snapSrc = 1 ∧ (t.part p).snaptime = s.time ∧ t.mem = s.mem ∧
      (∀ c, KeepsX (s.core c) (t.core c) ∧ (t.core c).seq = (s.core c).seq)) ∧
    (∀ p : PartId, exec (.snapArm p) s = .next (s.updPart p (fun q => { q with snapArm := true })))

/-- `tok.give` and `tok.wait` (R271, R272): one token more or fewer on the queue between C and the other strand; no other queue
changes. Toward a strand that was not started they are illegal. -/
def Obligations.TokenQueues : Prop :=
  ∀ (s : State) (c : CoreId) (q : BitVec 2), Ready s c .C →
    let o := strandOf q
    let up := 4 * strandNo .C + strandNo o
    let down := 4 * strandNo o + strandNo .C
    ((s.core c).started.get o = true → (s.core c).spill.cmds = [] → (s.core c).tokens up < 255 →
      ∃ t, exec (.tokGive q) s = .next t ∧ OnlyCore c s t ∧ KeepsX (s.core c) (t.core c) ∧ FallsThrough (s.core c) (t.core c) ∧
        KeepsCore { s.core c with tok := (t.core c).tok } (t.core c) ∧
        ∀ n, n < 16 → (t.core c).tokens n = (s.core c).tokens n + (if n = up then 1 else 0)) ∧
    ((s.core c).started.get o = true → 0 < (s.core c).tokens down → (s.core c).flights = [] →
      ∃ t, exec (.tokWait q) s = .next t ∧ OnlyCore c s t ∧ KeepsX (s.core c) (t.core c) ∧ FallsThrough (s.core c) (t.core c) ∧
        KeepsCore { s.core c with tok := (t.core c).tok } (t.core c) ∧
        ∀ n, n < 16 → (t.core c).tokens n + (if n = down then 1 else 0) = (s.core c).tokens n) ∧
    ((s.core c).started.get o = false → TrapsIllegal c (.tokGive q) s ∧ TrapsIllegal c (.tokWait q) s)

/-- Semaphores (R274 to R276): `sem.rel` adds, and past 65,535 raises SEMOVF with no effect; `sem.try` takes only with no
waiter and enough, answering 1 or 0; `sem.acq` takes when it is first and covered; `sem.rd` reads. Amounts over 65,535 are
illegal. The line of a semaphore (R277): a `sem.acq` that is not covered joins the line and waits; the head is served once the
count reaches its demand, and its strand goes on. -/
def Obligations.Semaphores : Prop :=
  (∀ (s : State) (c : CoreId) (d a : BitVec 6) (p : BitVec 1) (n : BitVec 6), Ready s c .C → NonePending (s.core c) [d, a] →
     let h := semCore c p
     let m := (s.core h).sem n
     let v := ((s.core c).xval a).toNat
     let others (t : State) : Prop := OnlyCores s t ∧ (∀ e, e ≠ c → e ≠ h → t.core e = s.core e) ∧
       (∀ k, k ≠ n → (t.core h).sem k = (s.core h).sem k)
     (v ≤ 65535 →
       (m.count.toNat + v ≤ 65535 → ∃ t, exec (.semRel a p n) s = .next t ∧ others t ∧ KeepsX (s.core c) (t.core c) ∧
         FallsThrough (s.core c) (t.core c) ∧ ((t.core h).sem n).count.toNat = m.count.toNat + v ∧
         ((t.core h).sem n).waiters = m.waiters ∧ (t.core c).sync = (s.core c).sync + 1) ∧
       (65535 < m.count.toNat + v → exec (.semRel a p n) s =
         .next (trapC c cSEMOVF 0 (wd (p.toNat * 64 + n.toNat)) s)) ∧
       (m.waiters = [] → v ≤ m.count.toNat → ∃ t, exec (.semTry d a p n) s = .next t ∧ others t ∧ SetsX (s.core c) (t.core c) d 1 0 ∧
         FallsThrough (s.core c) (t.core c) ∧ ((t.core h).sem n).count.toNat + v = m.count.toNat ∧ ((t.core h).sem n).waiters = []) ∧
       (m.waiters ≠ [] ∨ m.count.toNat < v → CompletesWith c (.semTry d a p n) s d 0 0) ∧
       (m.waiters = [] → v ≤ m.count.toNat → ∃ t, exec (.semAcq a p n) s = .next t ∧ others t ∧ KeepsX (s.core c) (t.core c) ∧
         FallsThrough (s.core c) (t.core c) ∧ ((t.core h).sem n).count.toNat + v = m.count.toNat ∧ ((t.core h).sem n).waiters = [])) ∧
     CompletesWith c (.semRd d p n) s d (m.count.setWidth 64) 0 ∧
     (65535 < v → TrapsIllegal c (.semAcq a p n) s ∧ TrapsIllegal c (.semRel a p n) s ∧ TrapsIllegal c (.semTry d a p n) s)) ∧
  ((∀ (s : State) (c : CoreId) (a : BitVec 6) (n : BitVec 6), Ready s c .C → NonePending (s.core c) [a] →
     ((s.core c).xval a).toNat ≤ 65535 → ((s.core c).sem n).waiters.any (fun w => w.1 == c) = false →
     ((s.core c).sem n).waiters ≠ [] ∨ ((s.core c).sem n).count.toNat < ((s.core c).xval a).toNat →
     ∃ t, exec (.semAcq a 0 n) s = .next t ∧ OnlyCore c s t ∧ (t.core c).st.c = .waiting ∧ (t.core c).seq = (s.core c).seq ∧
       KeepsX (s.core c) (t.core c) ∧ (t.core c).sem n = { (s.core c).sem n with
         waiters := ((s.core c).sem n).waiters ++ [(c, ((s.core c).xval a).toNat)] }) ∧
   (∀ (s : State) (c e : CoreId) (n : BitVec 6) (v : Nat) (ws : List (CoreId × Nat)),
     ((s.core c).sem n).waiters = (e, v) :: ws → (∀ w ∈ ws, w.1 ≠ e) → v ≤ ((s.core c).sem n).count.toNat →
     ∃ t, exec (.semWaiterServed c n) s = .next t ∧ OnlyCores s t ∧ (∀ d, d ≠ c → d ≠ e → t.core d = s.core d) ∧
       ((t.core c).sem n).waiters = ws ∧ ((t.core c).sem n).count.toNat + v = ((s.core c).sem n).count.toNat ∧
       FallsThrough (s.core e) (t.core e) ∧ KeepsX (s.core e) (t.core e)))

/-- Gang flags (R278 to R280): `flag.add` posts its amount and passes; the post applies at the flag's home, where a waiter that
is now reached goes on; `flag.wait` passes when (flag − target) mod 2^32 < 2^31. Below gang level they are illegal. -/
def Obligations.GangFlags : Prop :=
  (∀ (s : State) (c : CoreId) (a : BitVec 6) (n : BitVec 8) (j : Job), Ready s c .C → NonePending (s.core c) [a] →
    s.job? (s.core c).id.jobid = some j →
    let v := (s.core c).xval a
    let f := rd j.flags (i8 n)
    (2 ≤ (s.core c).id.hlvl.toNat → v.toNat < 2 ^ 32 →
      (∃ t, exec (.flagAdd a n) s = .next t ∧ KeepsX (s.core c) (t.core c) ∧ FallsThrough (s.core c) (t.core c) ∧
        (t.core c).sync = (s.core c).sync + 1 ∧ t = { s with cores := t.cores, jobs := t.jobs } ∧
        t.job? (s.core c).id.jobid = some { j with
          posts := j.posts ++ [{ flag := n, amount := v.setWidth 32, slot := (s.core c).id.slot, sync := (s.core c).sync + 1 }] }) ∧
      ((f.val - v.setWidth 32).toNat < 2 ^ 31 → ∃ t, exec (.flagWait a n) s = .next t ∧ KeepsX (s.core c) (t.core c) ∧
        FallsThrough (s.core c) (t.core c) ∧ t = { s with cores := t.cores, jobs := t.jobs }) ∧
      (2 ^ 31 ≤ (f.val - v.setWidth 32).toNat → f.waiters = [] → ∃ t, exec (.flagWait a n) s = .next t ∧ (t.core c).st.c = .waiting ∧
        (t.core c).seq = (s.core c).seq ∧ KeepsX (s.core c) (t.core c) ∧
        t.job? (s.core c).id.jobid = some { j with flags := wr j.flags (i8 n) { f with waiters := [(c, v.setWidth 32)] } })) ∧
    ((s.core c).id.hlvl.toNat < 2 ∨ 2 ^ 32 ≤ v.toNat → TrapsIllegal c (.flagAdd a n) s ∧ TrapsIllegal c (.flagWait a n) s)) ∧
  (∀ (s : State) (j : Job) (p : FlagPost) (ps : List FlagPost), s.job? j.id = some j → j.posts = p :: ps →
    ∃ t, exec (.flagAddApply j.id 0) s = .next t ∧ ∃ j', t.job? j.id = some j' ∧ j'.posts = ps ∧
      (rd j'.flags (i8 p.flag)).val = (rd j.flags (i8 p.flag)).val + p.amount ∧
      (∀ n : BitVec 8, n ≠ p.flag → rd j'.flags (i8 n) = rd j.flags (i8 n)) ∧
      (∀ w ∈ (rd j.flags (i8 p.flag)).waiters, (rd j.flags (i8 p.flag)).waiters = [w] →
        ((rd j.flags (i8 p.flag)).val + p.amount - w.2).toNat < 2 ^ 31 → FallsThrough (s.core w.1) (t.core w.1)))

/-- `dom.set` (R21): at level 3 a split, at level 2 of a level-3 job a join is noted once a phase; otherwise illegal. `phase`
at level 0 completes at once with PHN one more (R281); at a higher level it arrives and waits (R20). A phase barrier (R20, R21,
R245): once every live member of the domain waits at it, one step moves every member on with PHN one more; a unanimous split leaves each
member at level 2; of a level-2 domain of a level-3 job a unanimous join waits until every live subdomain asks for it, and then all are at
level 3 again. Another request fails: its `phase` completes, and then it traps with TVAL := the word of the `phase`; and when another
subdomain's barrier completes without the join, those that wait for it fail so too (R21). Until all have arrived it changes nothing. -/
def Obligations.Phases : Prop :=
  (∀ (s : State) (c : CoreId), Ready s c .C →
     let i := (s.core c).id
     ((i.level = 3 ∧ (s.core c).domReq = none → ∃ t, exec .domSetSplit s = .next t ∧ OnlyCore c s t ∧
       KeepsCore { s.core c with domReq := some .split } (t.core c) ∧ KeepsX (s.core c) (t.core c) ∧ FallsThrough (s.core c) (t.core c)) ∧
      (¬ (i.level = 3 ∧ (s.core c).domReq = none) → TrapsIllegal c .domSetSplit s)) ∧
     ((i.level = 2 ∧ i.hlvl = 3 ∧ (s.core c).domReq = none → ∃ t, exec .domSetJoin s = .next t ∧ OnlyCore c s t ∧
       KeepsCore { s.core c with domReq := some .join } (t.core c) ∧ KeepsX (s.core c) (t.core c) ∧ FallsThrough (s.core c) (t.core c)) ∧
      (¬ (i.level = 2 ∧ i.hlvl = 3 ∧ (s.core c).domReq = none) → TrapsIllegal c .domSetJoin s)) ∧
     (i.level = 0 → ∃ t, exec .phase s = .next t ∧ OnlyCore c s t ∧ KeepsX (s.core c) (t.core c) ∧ FallsThrough (s.core c) (t.core c) ∧
       (t.core c).id = { i with phn := i.phn + 1 } ∧ (t.core c).domReq = none) ∧
     (i.level ≠ 0 → exec .phase s = .next (s.updCore c (fun k => { k with phArr := true, st := { k.st with c := .waiting } })))) ∧
  (∀ (s : State) (c : CoreId) (j : Job), s.coreJob c = some j → (domainOf s j c).Nodup →
     let ms := domainOf s j c
     let k := (s.core c).id
     let sub (d : Fin 4) : List CoreId := j.cores.filter (fun m => dieOf m == d && liveMember s m)
     let pend (d : Fin 4) : Prop := sub d ≠ [] ∧ ∀ m ∈ sub d, (s.core m).phArr = true ∧ (s.core m).domReq = some .join
     let fits (m : CoreId) : Prop := (s.core m).csr.inHandler = false ∧ (s.core m).csr.hasVector = true
     let traps (t : State) (m : CoreId) : Prop :=
       (t.core m).csr.spc = wd (bits (s.core m).seq.n1.toNat 2 50 * 4) ∧ (t.core m).csr.tcause = 0x01 ∧ (t.core m).csr.stat = 1 ∧
         (t.core m).csr.tval = (encode .phase).setWidth 64 ∧ (t.core m).csr.sstat = (s.core m).csr.stat ∧
         (t.core m).seq.pc = (s.core m).csr.tvec
     let passes (t : State) (m : CoreId) : Prop :=
       (t.core m).id = { (s.core m).id with phn := (s.core m).id.phn + 1 } ∧ (t.core m).phArr = false ∧ (t.core m).domReq = none ∧
         KeepsX (s.core m) (t.core m) ∧ ((s.core m).domReq = none ∨ ¬ fits m → FallsThrough (s.core m) (t.core m)) ∧
         ((s.core m).domReq ≠ none → fits m → traps t m)
     (ms ≠ [] → (∀ m ∈ ms, (s.core m).phArr = true) →
       (k.level = 1 ∨ (k.level = 2 ∧ k.hlvl ≠ 3) ∨ (k.level = 3 ∧ ∃ m ∈ ms, (s.core m).domReq ≠ some .split) →
         ∃ t, exec (.phaseBarrierComplete c) s = .next t ∧ (∀ d, d ∉ ms → t.core d = s.core d) ∧ t.mem = s.mem ∧ ∀ m ∈ ms, passes t m) ∧
       (k.level = 2 → k.hlvl = 3 → j.cores.Nodup → ms = sub (dieOf c) →
         (pend (dieOf c) → (∀ d, sub d ≠ [] → pend d) →
           ∃ t, exec (.phaseBarrierComplete c) s = .next t ∧ (∀ m, (∀ d, m ∉ sub d) → t.core m = s.core m) ∧ t.mem = s.mem ∧
             ∀ d, ∀ m ∈ sub d, (t.core m).phArr = false ∧ (t.core m).domReq = none ∧ FallsThrough (s.core m) (t.core m) ∧
               KeepsX (s.core m) (t.core m) ∧ (t.core m).id = { (s.core m).id with
                 phn := (s.core m).id.phn + 1, level := 3, domFirst := 0, domLast := (s.core m).id.taskLast }) ∧
         (pend (dieOf c) → (∃ d, sub d ≠ [] ∧ ¬ pend d) → exec (.phaseBarrierComplete c) s = .next s) ∧
         (¬ pend (dieOf c) → ∃ t, exec (.phaseBarrierComplete c) s = .next t ∧ t.mem = s.mem ∧ (∀ m ∈ ms, passes t m) ∧
           (∀ d, d ≠ dieOf c → pend d → ∀ m ∈ sub d, passes t m) ∧
           ∀ m, m ∉ ms → (∀ d, d ≠ dieOf c → pend d → m ∉ sub d) → t.core m = s.core m)) ∧
       (k.level = 3 → (∀ m ∈ ms, (s.core m).domReq = some .split) →
         ∃ t, exec (.phaseBarrierComplete c) s = .next t ∧ (∀ d, d ∉ ms → t.core d = s.core d) ∧ t.mem = s.mem ∧
           ∀ m ∈ ms, (t.core m).id.level = 2 ∧ (t.core m).id.phn = (s.core m).id.phn + 1 ∧ (t.core m).domReq = none ∧
             FallsThrough (s.core m) (t.core m) ∧ KeepsX (s.core m) (t.core m))) ∧
     ((∃ m ∈ ms, (s.core m).phArr = false) → exec (.phaseBarrierComplete c) s = .next s))

/-- `fork` (R16, R82, R133): each strand that the record's mask names starts at its entry with its n and loop registers 0; the
others stay as they are. A second `fork` of a task, and a record that is not 16-byte aligned, are illegal. -/
def Obligations.Fork : Prop :=
  ∀ (s : State) (c : CoreId) (a : BitVec 6), Ready s c .C → NonePending (s.core c) [a] →
    let p := (s.core c).xval a
    ((s.core c).forked = false → p.toNat % 16 = 0 → ∀ g s1, strandRead c .C p.toNat 16 false s = .ok (g, s1) →
      let m := bytesAt g.bytes 12 4
      (m < 8 → ∃ t, exec (.fork a) s = .next t ∧ OnlyCore c s1 t ∧ KeepsX (s1.core c) (t.core c) ∧ (t.core c).forked = true ∧
        (t.core c).seq.pc = (s1.core c).seq.n1 ∧
        ∀ q ∈ [(Strand.L, 0, 0), (.X, 1, 4), (.S, 2, 8)],
          (bit m q.2.1 = true → (t.core c).st.get q.1 = .issuing ∧ (t.core c).started.get q.1 = true ∧
            (t.core c).eng q.1 = { pc := p + 4 * BitVec.ofInt 64 (sint 32 (bytesAt g.bytes q.2.2 4)), n := Vector.replicate 16 0,
                                   lc := Vector.replicate 4 0 }) ∧
          (bit m q.2.1 = false → (t.core c).st.get q.1 = (s1.core c).st.get q.1 ∧ (t.core c).eng q.1 = (s1.core c).eng q.1))) ∧
    ((s.core c).forked = true ∨ p.toNat % 16 ≠ 0 → TrapsIllegal c (.fork a) s)

/-- Rendezvous (R17, R18, R273): the last arrival, of the C strand or of an engine strand, moves every strand on; before that an arrival
waits, an engine strand's with its tokens unpopped (the model's reading of R134, log entry 43, DEDUCED), and one with another identifier or
kind is illegal; an engine strand arrives once what it started before has had its effect (R134, R237). A final one
retires the engine strands, and its C strand waits for TASK_RETIRE; `rdv.end` issued afresh after it goes on with that wait (R284).
TASK_RETIRE (R18, R270): in that wait, with every command of the task complete, its strands retire and its tokens are discarded; with the
last task of the job the job ends. -/
def Obligations.Rendezvous : Prop :=
  ((∀ (s : State) (c : CoreId) (k : BitVec 8), Ready s c .C → (s.core c).rdvDone = false → (s.core c).arr.c = none →
     (∀ i ∈ [(Instr.rdv k, false), (.rdvEnd k, true)],
       ((∃ st ∈ [Strand.L, .X, .S], (s.core c).started.get st = true ∧ (s.core c).arr.get st = none) →
         (∀ a, (s.core c).firstArrival = some a → a.id = k ∧ a.fin = i.2) →
         ∃ t a, exec i.1 s = .next t ∧ OnlyCore c s t ∧ (t.core c).st.c = .waiting ∧ (t.core c).arr = { (s.core c).arr with c := some a } ∧
           a.id = k ∧ a.fin = i.2 ∧ (t.core c).seq = (s.core c).seq ∧ KeepsX (s.core c) (t.core c) ∧ (t.core c).tok = (s.core c).tok ∧
           ∀ st ∈ [Strand.L, .X, .S], (t.core c).eng st = (s.core c).eng st ∧ (t.core c).st.get st = (s.core c).st.get st) ∧
       (∀ a, (s.core c).firstArrival = some a → a.id ≠ k ∨ a.fin ≠ i.2 → TrapsIllegal c i.1 s)) ∧
     let others (fin : Bool) : Prop :=
       (∀ st ∈ [Strand.L, .X, .S], (s.core c).started.get st = true → ((s.core c).arr.get st).isSome = true) ∧
       (∀ st ∈ [Strand.L, .X, .S], ∀ a, (s.core c).arr.get st = some a → a.id = k ∧ a.fin = fin)
     (others false → ∃ t, exec (.rdv k) s = .next t ∧ OnlyCore c s t ∧ FallsThrough { s.core c with st := (t.core c).st } (t.core c) ∧
       KeepsX (s.core c) (t.core c) ∧ (t.core c).arr = { c := none, l := none, x := none, s := none } ∧
       ∀ st ∈ [Strand.L, .X, .S], ∀ a, (s.core c).arr.get st = some a →
         (t.core c).st.get st = .issuing ∧ ((t.core c).eng st).pc = ((s.core c).eng st).pc + 4) ∧
     (others true → ∃ t, exec (.rdvEnd k) s = .next t ∧ OnlyCore c s t ∧ (t.core c).rdvDone = true ∧ (t.core c).rdvWait = true ∧
       (t.core c).st.c = .waiting ∧
       (t.core c).seq = (s.core c).seq ∧ KeepsX (s.core c) (t.core c) ∧
       ∀ st ∈ [Strand.L, .X, .S], ∀ a, (s.core c).arr.get st = some a → (t.core c).st.get st = .retired)) ∧
   (∀ (s : State) (c : CoreId) (k : BitVec 8), Ready s c .C → (s.core c).rdvDone = true →
     exec (.rdvEnd k) s = .next (s.updCore c (fun k => { k with rdvWait := true, st := { k.st with c := .waiting } }))) ∧
   (∀ (s : State) (c : CoreId) (st : Strand) (w g : BitVec 3) (k : BitVec 8), st ≠ .C → Startable s c st w g →
     (s.core c).started.get st = true → (s.core c).arr.get st = none →
     let others := [Strand.L, .X, .S].filter (fun o => o != st)
     let missing : Prop := (s.core c).arr.c = none ∨ ∃ o ∈ others, (s.core c).started.get o = true ∧ (s.core c).arr.get o = none
     let same (fin : Bool) : Prop := ∀ o ∈ Strand.C :: others, ∀ a, (s.core c).arr.get o = some a → a.id = k ∧ a.fin = fin
     ∀ i ∈ [(Instr.eRdv w g k, false), (.eRdvEnd w g k, true)],
       ((s.core c).unfinished st = true →
         exec i.1 s = .next (s.updCore c (fun k => { k with st := k.st.set st .waiting }))) ∧
       ((s.core c).unfinished st = false →
       (¬ missing → same i.2 → ∃ t, exec i.1 s = .next t ∧ OnlyCore c s t ∧ KeepsX (s.core c) (t.core c) ∧
         (t.core c).arr = { c := none, l := none, x := none, s := none } ∧ (t.core c).rdvDone = i.2 ∧ (t.core c).rdvWait = i.2 ∧
         (∀ o ∈ st :: others.filter (fun o => ((s.core c).arr.get o).isSome),
           (t.core c).st.get o = (if i.2 then .retired else .issuing) ∧ ((t.core c).eng o).pc = ((s.core c).eng o).pc + 4) ∧
         (i.2 = false → FallsThrough { s.core c with st := (t.core c).st } (t.core c) ∧ (t.core c).st.c = .issuing) ∧
         (i.2 = true → (t.core c).seq = (s.core c).seq ∧ (t.core c).st.c = (s.core c).st.c)) ∧
       (missing → (∀ a, (s.core c).firstArrival = some a → a.id = k ∧ a.fin = i.2) →
         ∃ t a, exec i.1 s = .next t ∧ OnlyCore c s t ∧ (t.core c).st.get st = .waiting ∧ (t.core c).arr.get st = some a ∧ a.id = k ∧
           a.fin = i.2 ∧ (t.core c).eng st = (s.core c).eng st ∧ (t.core c).tok = (s.core c).tok ∧ KeepsX (s.core c) (t.core c)) ∧
       (∀ a, (s.core c).firstArrival = some a → a.id ≠ k ∨ a.fin ≠ i.2 → EngineTraps c st i.1 cILLEGAL (wordOf i.1) s)))) ∧
  (∀ (s : State) (c : CoreId) (j : Job), s.coreJob c = some j → (s.core c).rdvWait = true → (s.core c).st.c ≠ .retired →
     j.killDue = false → commandsDone s c = true → j.st = .bound →
     (j.retired.length + 1 < 2 * j.hdr.ncl → ∃ t, exec (.taskRetire c) s = .next t ∧ (t.core c).st.c = .retired ∧
       (∀ st ∈ [Strand.L, .X, .S], (t.core c).st.get st = if (s.core c).st.get st = .notStarted then .notStarted else .retired) ∧
       (∀ q, (t.core c).tokens q = 0) ∧
       t.job? j.id = some { j with retired := (s.core c).id.slot :: j.retired } ∧ (∀ d, d ≠ c → t.core d = s.core d) ∧ t.mem = s.mem) ∧
     (2 * j.hdr.ncl ≤ j.retired.length + 1 → ∃ t, exec (.taskRetire c) s = .next t ∧ t.job? j.id = none))

/-- `lbl.rd` (R316): the id, the number of origins and the lowest origin of a register's label, or of the label that a plain
read of the sector would deliver; an id that names a free entry counts as 1,023 (R305). A join that misses a die's cache is resolved and
then held by it (R306): an entry of exactly the union where one exists or an id is free, else one that contains it, counted in LBLCNT and
reported; the union of all origins is 1,023. -/
def Obligations.LabelsRead : Prop :=
  (∀ (s : State) (c : CoreId) (d a : BitVec 6), Ready s c .C → NonePending (s.core c) [d, a] →
    let word (l : Label) : Word :=
      let m := maskOf s.labels l
      wd ((liveId s.labels l).toNat + (List.range 64).countP (fun i => m.getLsbD i) * 2 ^ 10 +
        ((List.range 64).find? (fun i => m.getLsbD i)).getD 0 * 2 ^ 17)
    CompletesWith c (.lblRdReg d a) s d (word ((s.core c).xlbl a)) 0 ∧
    (∀ t, PlainAccess s c .C ((s.core c).xval a).toNat 1 { rd := true, wr := false, ex := false } t →
      CompletesWith c (.lblRdMem d a) s d (word (s.sideAt (physOf t ((s.core c).xval a).toNat / 64)).lbl) 0)) ∧
  (∀ (s : State) (die : Fin 4) (a b : Label), a ≠ 0 → b ≠ 0 → a ≠ b → liveId s.labels a = a → liveId s.labels b = b →
    cached s die a b = none →
    let m := maskOf s.labels a ||| maskOf s.labels b
    let there := ∃ e ∈ s.labels.table, e.mask = m
    let free := ∃ i, 1 ≤ i ∧ i ≤ 1022 ∧ ∀ e ∈ s.labels.table, e.id ≠ i
    ∃ t r, exec (.labelJoinMiss die a b) s = .next t ∧ cached t die a b = some r ∧
      (m = BitVec.allOnes 64 → r = 1023) ∧
      (m ≠ BitVec.allOnes 64 → there ∨ free → (∃ e ∈ t.labels.table, BitVec.ofNat 10 e.id = r ∧ e.mask = m) ∧ t.out = s.out) ∧
      (m ≠ BitVec.allOnes 64 → ¬ there → ¬ free → (r = 1023 ∨ ∃ e ∈ t.labels.table, BitVec.ofNat 10 e.id = r ∧ e.mask &&& m = m) ∧
        t.labels.lblcnt = satInc32 s.labels.lblcnt ∧ t.out = s.out ++ [OutMsg.event 0x11])) ∧
  (∀ (s : State) (die : Fin 4) (a b : Label), ∃ t, exec (.labelJoinMiss die a b) s = .next t ∧
    t = { s with out := t.out, labels := { s.labels with table := t.labels.table, caches := t.labels.caches, lblcnt := t.labels.lblcnt } } ∧
    ((cached s die a b).isSome = true → t = s))

/-- `chan.go` (R119, R125): from IDLE, ERROR or FAULT a head starts a chain, journalled under HEAD; from FAULT 0 resumes at the
same unit for its own task, whose SYNC now stamps what the channel writes (R247), and keeps CAUSE (the model's reading, log entry 42,
DEDUCED). A running channel, and 0 without a fault, are illegal. `chan.stat` (R126) reads state, cursor and cause;
`chan.abort` (R127) moves a running channel to ABORTING, one in FAULT or ERROR to IDLE with its cause kept, and returns;
`lrec.flush` (R128) removes the record of its address space from every record cache of the partition, and nothing else; a handle with one of
bits 63:52 set flushes nothing. -/
def Obligations.Channels : Prop :=
  (∀ (s : State) (c : CoreId) (a : BitVec 6) (ch : BitVec 3), Ready s c .C → NonePending (s.core c) [a] →
     (s.core c).span < 4096 →
     let k := chanAt s (clusterOf c) ch
     let v := (s.core c).xval a
     let only (t : State) : Prop := t = { s with cores := t.cores, clusters := t.clusters } ∧ (∀ d, d ≠ c → t.core d = s.core d) ∧
       (∀ cl, cl ≠ clusterOf c → t.cluster cl = s.cluster cl) ∧ (∀ h, h ≠ ch → chanAt t (clusterOf c) h = chanAt s (clusterOf c) h) ∧
       KeepsX (s.core c) (t.core c) ∧ FallsThrough (s.core c) (t.core c) ∧ (t.core c).head = seqAdd (s.core c).head 1
     (v ≠ 0 → (k.st = .idle ∨ k.st = .error ∨ k.st = .fault) → ∃ t, exec (.chanGo a ch) s = .next t ∧ only t ∧
       chanAt t (clusterOf c) ch = { st := .run, cause := 0, cursor := v, count := 0, issuer := some c,
                                     seqs := k.seqs ++ [(c, (s.core c).head)], sync := (s.core c).sync, copy := none }) ∧
     (v = 0 → k.st = .fault → ∃ t, exec (.chanGo a ch) s = .next t ∧ only t ∧
       chanAt t (clusterOf c) ch = { k with st := .run, issuer := some c, seqs := k.seqs ++ [(c, (s.core c).head)], sync := (s.core c).sync,
                                            copy := k.copy.map (fun p => { p with sync := (s.core c).sync }) }) ∧
     (k.st = .run ∨ k.st = .aborting ∨ (v = 0 ∧ (k.st = .idle ∨ k.st = .error)) → TrapsIllegal c (.chanGo a ch) s)) ∧
  (∀ (s : State) (c : CoreId) (d a : BitVec 6) (ch : BitVec 3), Ready s c .C → NonePending (s.core c) [d, a] →
     let cl := clusterOf c
     let k := chanAt s cl ch
     let code : Nat := match k.st with | .idle => 0 | .run => 1 | .fault => 2 | .error => 3 | .aborting => 4
     CompletesWith c (.chanStat d ch) s d (wd (code + bits k.cursor.toNat 6 46 * 64 + k.cause.toNat * 2 ^ 56)) 0 ∧
     (∃ t, exec (.chanAbort ch) s = .next t ∧ t.mem = s.mem ∧ FallsThrough (s.core c) (t.core c) ∧ KeepsX (s.core c) (t.core c) ∧
       (k.st = .run → chanAt t cl ch = { k with st := .aborting }) ∧
       (k.st = .fault ∨ k.st = .error → (chanAt t cl ch).st = .idle ∧ (chanAt t cl ch).cause = k.cause) ∧
       (k.st = .idle ∨ k.st = .aborting → chanAt t cl ch = k)) ∧
     (∃ t, exec (.lrecFlush a) s = .next t ∧ t.mem = s.mem ∧ FallsThrough (s.core c) (t.core c) ∧ KeepsX (s.core c) (t.core c) ∧
       (((s.core c).xval a).toNat < 2 ^ 52 → ∀ q : ClusterId, q ∈ (s.part (s.core c).id.pid).clusters ∨ q = cl →
         ∀ e, e ∈ (t.cluster q).recs ↔
           e ∈ (s.cluster q).recs ∧ ¬ (e.1 = (s.core c).id.asid ∧ e.2.1.toNat = ((s.core c).xval a).toNat / 64 * 64)) ∧
       (∀ q : ClusterId, q ∉ (s.part (s.core c).id.pid).clusters → q ≠ cl → t.cluster q = s.cluster q) ∧
       (2 ^ 52 ≤ ((s.core c).xval a).toNat → t.clusters = s.clusters)))

/-- A running channel (R111, R117, R118, R120, R121): the next record is read and checked, where a guard does not hold up its read or
those of its layout records (R300, R301), OWN clear is ERROR with cause 0x01, a check that
fails ERROR with its cause; a unit that moves advances by one, one that faults leaves the channel in FAULT. A finished record goes in three
steps: bytes 8 to 15 are written back with OWN 0 and CAUSE 0; CMPL gives its semaphore one more, which at 65,535 is ERROR with cause 0x08;
the channel goes to NEXT, or to IDLE at the end. An abort ends it before or after these steps (R119; that it does not part them is the
model's choice, log entry 48). The end of a `tcp` (R124): its increment, and its status in x[d], 0 for success or cause << 56 with the
address; the copy leaves the queue. The lead of a deadline (R116) changes only how the rest travels. -/
def Obligations.ChannelSteps : Prop :=
  (∀ (s s1 : State) (cl : ClusterId) (ch : BitVec 3) (c : CoreId), (chanAt s cl ch).st = .run → (chanAt s cl ch).issuer = some c →
     engineLive s c ((chanAt s cl ch).seqsOf c) = true →
     let k := chanAt s cl ch
     let w := engineWho s c 1 ch.toNat
     let fails (i : Instr) (st : ChanSt) (cause : Byte) : Prop :=
       ∃ t, exec i s = .next t ∧ (chanAt t cl ch).st = st ∧ (chanAt t cl ch).cause = cause
     (k.copy = none → k.count + 1 < 2 ^ 20 → k.cursor.toNat % 64 = 0 → guardHolds s c [(k.cursor.toNat, 64)] = true →
       exec (.transferRecordRead cl ch) s = .next s) ∧
     (k.copy = none → k.count + 1 < 2 ^ 20 → k.cursor.toNat % 64 = 0 → guardedBy s c [(k.cursor.toNat, 64)] = [] →
       ∀ g, readVirt w k.cursor.toNat 64 s = (.ok g, s1) → g.poison = false →
       let sides := sideReads w (some cl) (parseRec g.bytes) s1
       ((parseRec g.bytes).own = true → guardHolds s1 c sides = true →
         exec (.transferRecordRead cl ch) s =
           .next (updChan cl ch (fun x => { x with copy := some (Copy.fresh g.bytes k.cursor k.sync) }) s1)) ∧
       ((parseRec g.bytes).own = true → guardedBy s1 c sides = [] → ∀ cp s2, checkCopy w (some cl) true false (Copy.fresh g.bytes k.cursor k.sync) s1 = (.ok cp, s2) →
         exec (.transferRecordRead cl ch) s = .next (updChan cl ch (fun k => { k with copy := some cp }) s2)) ∧
       ((parseRec g.bytes).own = true → guardedBy s1 c sides = [] → ∀ cause va s2,
         checkCopy w (some cl) true false (Copy.fresh g.bytes k.cursor k.sync) s1 = (.error (.bad cause va), s2) →
         fails (.transferRecordRead cl ch) .error cause) ∧
       ((parseRec g.bytes).own = false → fails (.transferRecordRead cl ch) .error 0x01)) ∧
     (∀ cp, k.copy = some cp → cp.checked = true →
       (cp.unit < unitsOf (parseRec cp.img) → doUnit c w cp.sync (parseRec cp.img) cp.srcL cp.dstL cp.unit s = (.done, s1) →
         exec (.transferUnit (.chan cl ch)) s = .next (updChan cl ch (fun k => { k with copy := some { cp with unit := cp.unit + 1 } }) s1)) ∧
       (cp.unit < unitsOf (parseRec cp.img) → ∀ f va, doUnit c w cp.sync (parseRec cp.img) cp.srcL cp.dstL cp.unit s = (.fault f va, s1) →
         fails (.transferUnit (.chan cl ch)) .fault (BitVec.ofNat 8 (f.stage * 16 + f.kind))) ∧
       (unitsOf (parseRec cp.img) ≤ cp.unit →
         let r := parseRec cp.img
         let bs := natBytes 8 (setBits (setBits (bytesAt cp.img 8 8) 0 1 0) 24 8 0)
         let va := k.cursor.toNat + 8
         let goes (t : State) (stage : Nat) : Prop := exec (.recordCompletion cl ch) s = .next (updChan cl ch (fun k => { k with copy := some { cp with stage := stage } }) t)
         let h := if r.peer then peerOf c else c
         let n := BitVec.ofNat 6 r.sem
         (cp.stage = 0 → (engineWrite c w cp.sync va bs 0 s = (.ok .done, s1) → goes s1 1) ∧
           (∀ t, CanonicalMemory s → PlainAccess s c .C va 8 { rd := false, wr := true, ex := false } t →
             ∃ u, exec (.recordCompletion cl ch) s = .next u ∧ Stored s u (physOf t va) bs ∧
               (chanAt u cl ch).copy = some { cp with stage := 1 } ∧ u.cores = s.cores)) ∧
         (cp.stage = 1 → (r.cmpl = false → goes s 2) ∧
           (r.cmpl = true → ((s.core h).sem n).count ≠ 65535 → goes (semRelease c h n 1 s) 2) ∧
           (r.cmpl = true → ((s.core h).sem n).count = 65535 → fails (.recordCompletion cl ch) .error 0x08)) ∧
         (2 ≤ cp.stage → ∃ t, exec (.recordCompletion cl ch) s = .next t ∧ t.mem = s.mem ∧
           (r.next = 0 → (chanAt t cl ch).st = .idle ∧ (chanAt t cl ch).copy = none) ∧
           (r.next ≠ 0 → chanAt t cl ch = { k with cursor := wd r.next, count := k.count + 1, copy := none }))))) ∧
  (∀ (s : State) (cl : ClusterId) (ch : BitVec 3) (c : CoreId) (cp : Copy), (chanAt s cl ch).st = .aborting →
     (chanAt s cl ch).issuer = some c → (chanAt s cl ch).copy = some cp → cp.stage ≠ 1 →
     ∃ t, exec (.recordCompletion cl ch) s = .next t ∧ t.mem = s.mem ∧ (chanAt t cl ch).st = .idle ∧ (chanAt t cl ch).cause = 0x0F ∧
       (chanAt t cl ch).copy = none) ∧
  ((∀ (s : State) (c : CoreId) (t0 : TcpCopy) (rest : List TcpCopy) (cause : Byte) (va : Word) (p : Pend),
     (s.core c).tcps = t0 :: rest → t0.copy.ended = some (cause, va) → engineLive s c [t0.seq] = true →
     (s.core c).pend = [p] → p.src = .tcp t0.seq → p.lbl = 0 →
     let r := parseRec t0.copy.img
     let h := if r.peer then peerOf c else c
     let n := BitVec.ofNat 6 r.sem
     let m := (s.core h).sem n
     ∃ t, exec (.tcpCompletion c 0) s = .next t ∧ OnlyCores s t ∧ (t.core c).tcps = rest ∧ (t.core c).pend = [] ∧
       (t.core c).seq = (s.core c).seq ∧ (∀ d, d ≠ c → d ≠ h → t.core d = s.core d) ∧
       (r.cmpl = false ∨ cause ≠ 0 → OnlyCore c s t ∧
         SetsX (s.core c) (t.core c) p.reg (if cause = 0 then 0 else wd (cause.toNat * 2 ^ 56 + va.toNat % 2 ^ 52)) 0) ∧
       (r.cmpl = true → cause = 0 → m.count ≠ 65535 →
         SetsX (s.core c) (t.core c) p.reg 0 0 ∧ ((t.core h).sem n).count.toNat = m.count.toNat + 1) ∧
       (r.cmpl = true → cause = 0 → m.count = 65535 →
         SetsX (s.core c) (t.core c) p.reg (wd (8 * 2 ^ 56 + t0.copy.addr.toNat % 2 ^ 52)) 0 ∧ (t.core h).sem n = m)) ∧
   (∀ (s : State) (cl : ClusterId) (ch : BitVec 3) (cp : Copy), (chanAt s cl ch).copy = some cp →
     let r := parseRec cp.img
     let due := r.offl = true ∧ r.deadline ≠ 0 ∧ r.deadline ≤ s.time.toNat + 2 ^ (r.dlead + 6)
     ∃ t, exec (.deadlineLeadReached (.chan cl ch)) s = .next t ∧ t = { s with clusters := t.clusters } ∧
       (due → (chanAt t cl ch).copy = some { cp with late := true }) ∧ (¬ due → (chanAt t cl ch).copy = some cp)))

/-- `tcp`, `ss.spill` and `ss.fill` (R124, R215, R360, R361) take journal number HEAD. `tcp` reads its record and leaves x[d]
pending, where a guard lets its read pass, else it waits (R300, R301); a misaligned address is a status of cause 0x02 at once, and its
entry is complete without a commit point. A spill or fill joins its engine's queue; misaligned, it
traps. SPILL_COMPLETION (R214 to R216, R246): the engine serves its oldest command. A spill stores the slot's image, and SYNC rises; a
fill reads the image and then puts the slot with its label in place, where an X instruction that nothing orders with it may have written
since its issue: then each word is the image's or that one's (log entry 26). The command leaves the queue. One that does not translate
stays, and the engine waits until its trap has left the task's queue (R215, R355, R362; log entry 20). That `tcp` reads its record as it
issues, with its faults then, is the spec's; which checks end in the status is in log entry 28. -/
def Obligations.CommandsIssue : Prop :=
  (∀ (s : State) (c : CoreId) (d a : BitVec 6) (n : BitVec 4), Ready s c .C → NonePending (s.core c) [d, a] →
     (s.core c).span < 4096 →
     let v := (s.core c).xval a
     (v.toNat % 64 = 0 → WaitsOnGuard c (.tcp d a) v.toNat 64 s) ∧
     (v.toNat % 64 = 0 → guardedBy s c [(v.toNat, 64)] = [] → ∀ g s1, strandRead c .C v.toNat 64 false s = .ok (g, s1) →
       s1.core c = s.core c → (s.core c).tcps.length < 8 →
       ∃ t, exec (.tcp d a) s = .next t ∧ OnlyCore c s1 t ∧ KeepsX (s.core c) (t.core c) ∧ FallsThrough (s.core c) (t.core c) ∧
         (t.core c).head = seqAdd (s.core c).head 1 ∧ (t.core c).pend = (s.core c).pend ++
           [{ reg := d, src := .tcp (s.core c).head, val := none, lbl := 0, seq := some (s.core c).head }] ∧
         (t.core c).tcps = (s.core c).tcps ++
           [{ reg := d, seq := (s.core c).head, copy := Copy.fresh g.bytes v (s.core c).sync }]) ∧
     (v.toNat % 64 ≠ 0 → ∃ t, exec (.tcp d a) s = .next t ∧ OnlyCore c s t ∧
       SetsX (s.core c) (t.core c) d (wd (2 * 2 ^ 56 + v.toNat % 2 ^ 52)) 0 ∧ (t.core c).head = seqAdd (s.core c).head 1 ∧
       (t.core c).journal.head?.map (fun e => (e.seq, e.perf, e.done)) = some ((s.core c).head, false, true)) ∧
     (∀ p ∈ [(Instr.ssSpill a n, false), (.ssFill a n, true)],
       (v.toNat % 64 = 0 → ∃ t, exec p.1 s = .next t ∧ OnlyCore c s t ∧ KeepsX (s.core c) (t.core c) ∧ FallsThrough (s.core c) (t.core c) ∧
         (t.core c).head = seqAdd (s.core c).head 1 ∧ (t.core c).spill = { (s.core c).spill with
           cmds := (s.core c).spill.cmds ++ [{ slot := n, was := (s.core c).xs.slot n, addr := v, fill := p.2, seq := (s.core c).head,
                                               sync := (s.core c).sync, got := none }] }) ∧
       (v.toNat % 64 ≠ 0 →
         exec p.1 s = .next (trapC c cILLEGAL 0 v s)))) ∧
  (∀ (s s1 : State) (c : CoreId) (q : SpillCmd) (qs : List SpillCmd) (pages : List Page), (s.core c).spill.cmds = q :: qs →
     engineLive s c [q.seq] = true →
     let w := engineWho s c 2 0
     let va := q.addr.toNat
     let cur := (s.core c).xs.slot q.slot
     ((s.core c).spill.held = true → exec (.spillCompletion c) s = .next s) ∧
     ((s.core c).spill.held = false →
     (q.fill = true → q.got = none → translate w va 33856 .read s = (.ok pages, s1) →
       ∀ g s2, readPieces w (pieces pages va 33856) s1 = (g, s2) → g.poison = false → bytesAt g.bytes 33793 63 = 0 →
       s2.core c = s.core c → ∃ t, exec (.spillCompletion c) s = .next t ∧ OnlyCore c s2 t ∧
         (t.core c).spill = { cmds := { q with got := some (slotOfBytes g.bytes g.lbl) } :: qs, held := false } ∧
         (t.core c).xs = (s.core c).xs ∧ KeepsX (s.core c) (t.core c) ∧ (t.core c).seq = (s.core c).seq) ∧
     (∀ new, q.got = some new → ∃ t, exec (.spillCompletion c) s = .next t ∧ OnlyCores { s with out := t.out, labels := t.labels, freeCtr := t.freeCtr } t ∧
       (∀ d, d ≠ c → t.core d = s.core d) ∧ (t.core c).spill = { cmds := qs, held := false } ∧ KeepsX (s.core c) (t.core c) ∧
       (∀ n, n ≠ q.slot → (t.core c).xs.slot n = (s.core c).xs.slot n) ∧ (cur = q.was → (t.core c).xs.slot q.slot = new) ∧
       ∀ (k : Fin 8) (i : Nat), (rd ((t.core c).xs.slot q.slot).blocks k).getD i 0 = (rd new.blocks k).getD i 0 ∨
         (rd ((t.core c).xs.slot q.slot).blocks k).getD i 0 = (rd cur.blocks k).getD i 0) ∧
     (q.fill = false → q.got = none → cur = q.was → translate w va 33856 .write s = (.ok pages, s1) → (∀ p ∈ pages, p.race = false) →
       ∀ s3, writePieces w (pieces pages va 33856) (slotBytes cur) cur.lbl s1 = (.done, s3) →
       s3.core c = s.core c → ∃ t, exec (.spillCompletion c) s = .next t ∧ OnlyCore c s3 t ∧
         (t.core c).spill = { cmds := qs, held := false } ∧ (t.core c).xs = (s.core c).xs ∧ (t.core c).sync = (s.core c).sync + 1 ∧
         KeepsX (s.core c) (t.core c)) ∧
     (q.got = none → ∀ f, translate w va 33856 (if q.fill then .read else .write) s = (.error f, s1) → f.1.poison = false → s1.core c = s.core c →
       ∃ t, exec (.spillCompletion c) s = .next t ∧ OnlyCore c s1 t ∧ (t.core c).spill = { cmds := q :: qs, held := true } ∧
         (t.core c).xs = (s.core c).xs ∧ (t.core c).journal = (s.core c).journal ∧
         ((∀ a ∈ (s.core c).atraps, a.src ≠ .spill) → (t.core c).atraps = (s.core c).atraps ++
           [{ cause := causeWord true 0 (if f.1.stage = 1 then cPF1 else cPF2) (f.1.level * 16 + f.1.kind), tval := f.2, src := .spill }]))))

/-- `launch` (R348): the status that its checks give reaches x[d]; with 0 the packet is written at ring slot TAILV, which rises
by one, and with any other status no queue changes. A misaligned packet is illegal. -/
def Obligations.Launch : Prop :=
  ∀ (s s1 : State) (c : CoreId) (d a : BitVec 6), Ready s c .C → NonePending (s.core c) [d, a] →
    let v := (s.core c).xval a
    (v.toNat % 128 ≠ 0 → TrapsIllegal c (.launch d a) s) ∧
    (∀ st p q, launchCheck c v (.launch d a) s = .ok ((st, p, q), s1) → s1.core c = s.core c →
      (s.core c).span < 4096 →
      (st ≠ 0 → ∃ t, exec (.launch d a) s = .next t ∧ OnlyCore c s1 t ∧ SetsX (s.core c) (t.core c) d (wd st) 0 ∧
        FallsThrough (s.core c) (t.core c)) ∧
      (st = 0 → ∀ s2, launchWrite c p q s1 = .ok ((), s2) → s2.core c = s.core c → ∃ t, exec (.launch d a) s = .next t ∧ OnlyCore c s2 t ∧
        SetsX (s.core c) (t.core c) d 0 0 ∧ FallsThrough (s.core c) (t.core c) ∧ (t.queue q.id).tailv = q.tailv + 1))

/-- `splice`, `rep.go` and `rep.poll` (R290, R295): a status known at issue reaches x[d] at once; else the command goes to the
repair engine and x[d] is pending. `rep.poll` answers the state and claims the oldest unclaimed item. Misaligned operands are
illegal. The repair engine (R290, R292 to R299): the oldest command of a context is served and its status delivered; a `splice` into a
context in CHECK or REPAIR answers 1, in ERROR 6. An item is read back once software has cleared OWN, and stays while OWN is 1: ERR moves the
context to ERROR with CODE 0x30; the last one of a check starts the rounds, the last one of the last round makes the context IDLE with no
pending block; with others out nothing more happens. A guarded read (R301) that no guard meets any more completes issue; while one meets
it, it waits on, also where its page does not translate, since guards are compared before translation (log entry 15, DEDUCED: the model's
reading); the read issues afresh by its own instruction's meaning. -/
def Obligations.Repair : Prop :=
  (∀ (s s1 : State) (c : CoreId) (d a b : BitVec 6), Ready s c .C → NonePending (s.core c) [d, a, b] →
     (s.core c).span < 4096 →
     let va := (s.core c).xval a
     let vb := (s.core c).xval b
     let found (s : State) := repIdx s (s.core c).id.pid (s.core c).id.vd (s.core c).id.asid va
     let sent (t : State) (q : RepCmd) : Prop := t.repq = s1.repq ++ [{ q with seq := (s.core c).head, reg := d }] ∧
       KeepsX (s.core c) (t.core c) ∧ FallsThrough (s.core c) (t.core c) ∧ (t.core c).pend = (s.core c).pend ++
         [{ reg := d, src := .cmd (s.core c).head, val := none, lbl := 0, seq := some (s.core c).head }]
     (∀ v, spliceIssue c (.splice d a b) va vb s = .ok (.inl v, s1) → s1.core c = s.core c →
       ∃ t, exec (.splice d a b) s = .next t ∧ OnlyCore c s1 t ∧ SetsX (s.core c) (t.core c) d v 0 ∧ FallsThrough (s.core c) (t.core c)) ∧
     (∀ q, spliceIssue c (.splice d a b) va vb s = .ok (.inr q, s1) → s1.core c = s.core c →
       ∃ t, exec (.splice d a b) s = .next t ∧ sent t q) ∧
     (va.toNat % 64 = 0 → s1 = s → ∃ t q, exec (.repGo d a) s = .next t ∧ sent t q ∧ q.ctx = va ∧ q.hthresh = (s.core c).csr.hthresh ∧
       q.splice = false) ∧
     (∀ r, pollContext c va s = .ok (r, s1) → s1.core c = s.core c → va.toNat % 64 = 0 →
       let base := (match r.st with | .idle => 0 | .spliced => 1 | .check => 2 | .repair => 3 | .error => 4) + r.code.toNat * 2 ^ 56
       (r.items.find? (fun i => !i.claimed) = none → ∃ t, exec (.repPoll d a) s = .next t ∧ OnlyCore c s1 t ∧
         SetsX (s.core c) (t.core c) d (wd base) 0 ∧ FallsThrough (s.core c) (t.core c)) ∧
       (∀ it, r.items.find? (fun i => !i.claimed) = some it → ∃ t, exec (.repPoll d a) s = .next t ∧ t.mem = s1.mem ∧
         (∀ k, found s1 = some k → t.reps[k]? = (s1.reps[k]?).map (fun q => { q with
           items := q.items.map (fun i => if i.slot = it.slot then { i with claimed := true } else i) })) ∧
         SetsX (s.core c) (t.core c) d (wd (base + 16 + (ctWr r.desc + 32 * it.slot))) 0 ∧ FallsThrough (s.core c) (t.core c))) ∧
     (va.toNat % 64 ≠ 0 → TrapsIllegal c (.splice d a b) s ∧ TrapsIllegal c (.repGo d a) s ∧ TrapsIllegal c (.repPoll d a) s)) ∧
  ((∀ (s : State) (q : RepCmd) (qs : List RepCmd) (p : Pend), s.repq = q :: qs → (s.core q.core).pend = [p] → p.src = .cmd q.seq → p.lbl = 0 →
     engineLive s q.core [q.seq] = true →
     let id := (s.core q.core).id
     let r := ((if q.splice then serveSplice else serveGo) q id).run s
     let i := if q.splice then Instr.spliceService 0 else .repGoService 0
     (r.2.repq = s.repq → r.2.core q.core = s.core q.core → ∀ v : Word, (r.1 = .ok () ∧ v = 0) ∨ r.1 = .error (some v) →
       ∃ t, exec i s = .next t ∧ t.repq = qs ∧ (t.core q.core).pend = [] ∧
         SetsX (s.core q.core) (t.core q.core) p.reg v 0 ∧ t.mem = r.2.mem ∧ (t.core q.core).seq = (s.core q.core).seq) ∧
     (r.1 = .error none → exec i s = .next r.2) ∧
     (∀ k x, repIdx s id.pid id.vd id.asid q.ctx = some k → s.reps[k]? = some x → q.splice = true →
       (x.st = .check ∨ x.st = .repair → r = (.error (some 1), s)) ∧ (x.st = .error → r = (.error (some 6), s)))) ∧
   (∀ (s s1 : State) (k slot : Nat) (r : Rep) (it : RepItem) (g : Got), s.reps[k]? = some r → r.items.find? (fun i => i.slot == slot) = some it →
     (rGet r (ctWr r.desc + 32 * slot) 8).run s = (.ok g, s1) → s1.reps = s.reps →
     let own := bit (leNat g.bytes) 0
     let err := it.live && bit (leNat g.bytes) 1
     let r1 := { r with items := r.items.filter (fun i => i.slot != slot) }
     let t1 := updRep k (fun q => { q with items := q.items.filter (fun i => i.slot != slot) }) s1
     let i := Instr.workItemReturn k slot
     let busy := r.st = .check ∨ r.st = .repair
     let last := r.todo = [] ∧ ∀ j ∈ r1.items, j.live = false
     (own = true → exec i s = .next s1) ∧
     (own = false → err = true → busy →
       let f := (rPutDesc (rFail 0x30 r1)).run (updRep k (rFail 0x30) t1)
       exec i s = .next f.2 ∧ (f.2.reps = (updRep k (rFail 0x30) t1).reps →
         f.2.reps[k]? = some { r1 with st := .error, code := 0x30, round := 0, todo := [],
                                       items := r1.items.map (fun j => { j with live := false }) })) ∧
     (own = false → err = false →
       (¬ busy → exec i s = .next t1 ∧ t1.reps[k]? = some r1) ∧
       (busy → r.todo = [] → (∃ j ∈ r1.items, j.live = true) → exec i s = .next t1) ∧
       (r.st = .check → last → ∀ ms s2 s3, (checkAll r1).run t1 = (.ok ms, s2) →
         (levelAfterCheck k >>= fun _ => startRounds k 257 (ctKchk r.desc + 1)).run
           (updRep k (fun q => { q with blks := ms, flagged := (ms.map (fun b => popcount 64 b.mask.toNat)).sum }) s2) = (.ok (), s3) →
         exec i s = .next s3) ∧
       (r.st = .repair → last → ctNl r.desc ≤ r.round → ∀ s2 s3 s4 x y, (levelAll k r.round true).run t1 = (.ok (), s2) → s2.reps[k]? = some x →
         x.desc = r.desc → (levelAll k r.round false).run s2 = (.ok (), s3) → s3.reps[k]? = some y →
         let z := { y with st := .idle, round := 0, blks := [] }
         let s5 := updRep k (fun q => { q with st := .idle, round := 0, blks := [] }) s3
         (rPutDesc z).run s5 = (.ok (), s4) → exec i s = .next s4 ∧ (s4.reps = s5.reps → s4.reps[k]? = some z)))) ∧
   (∀ (s : State) (c : CoreId) (d b : BitVec 6) (w : BitVec 3) (o : BitVec 11) (t : Tlb),
     (s.core c).gwait.find? (fun g => g.st == .C) = some { st := .C, instr := .ld d b w o } → mayIssue s c .C = true → w ≠ 7 →
     NonePending (s.core c) [d, b] →
     let n := if w.toNat < 2 then 1 else if w.toNat < 4 then 2 else if w.toNat < 6 then 4 else 8
     let va := ((s.core c).xval b + o.signExtend 64 * wd n).toNat
     (PlainAccess s c .C va n { rd := true, wr := false, ex := false } t →
       ∃ u, exec (.guardedReadResume c .C) s = .next u ∧ OnlyCore c s u ∧ MemorySame s u ∧ FallsThrough (s.core c) (u.core c) ∧
         KeepsX (s.core c) (u.core c) ∧ (∀ g ∈ (u.core c).gwait, g.st ≠ .C) ∧
         (u.core c).pend.map (fun p => (p.reg, p.src, p.lbl, p.seq, p.val.isSome)) =
           (s.core c).pend.map (fun p => (p.reg, p.src, p.lbl, p.seq, p.val.isSome)) ++
             [(d, .load, liveId s.labels (s.sideAt (physOf t va / 64)).lbl, none, true)]) ∧
     ((∃ m ∈ guardedBy s c [(va, n)], m.stok = false) → exec (.guardedReadResume c .C) s = .next (parkC c (s.updCore c (fun k =>
       { k with gwait := { st := .C, instr := .ld d b w o } :: k.gwait.filter (fun g => g.st != .C) })))) ) ∧
   (∀ (s : State) (c : CoreId) (st : Strand), (s.core c).gwait.find? (fun g => g.st == st) = none →
     exec (.guardedReadResume c st) s = .next s) ∧
   (∀ (s t : State) (c : CoreId) (st : Strand) (g : GuardWait), (s.core c).gwait.find? (fun g => g.st == st) = some g →
     guardedMeaning g.instr { s with cur := (c, st) } = .next t → exec (.guardedReadResume c st) s = .next { t with cur := s.cur }) ∧
   (∀ (s : State) (d a b : BitVec 6) (r : BitVec 2) (sc w g : BitVec 3) (o : BitVec 11) (k t x : BitVec 5) (m n : BitVec 4) (h : BitVec 1)
      (z : BitVec 10),
     ∀ i ∈ [Instr.ld d b w o, .amoAdd d a b r sc, .amoAnd d a b r sc, .amoOr d a b r sc, .amoXor d a b r sc, .amoMin d a b r sc,
            .amoMax d a b r sc, .amoSwap d a b r sc, .amoCas d a b r sc, .amoFadd d a b sc r, .sdBase w g k n z, .sdFmt w g k n z,
            .sdGeom w g k n z, .sdScale w g k n z, .rgCfg w g m n z, .ldTile w g m k h, .ldStrd w g t k h, .ldGath w g t k x h,
            .ldVt w g t k h, .ldBcst w g t k h], guardedMeaning i s = exec i s))

/-- `coll.poll` (R328): state, cause, silent rank and step of the program of a handle, 0 for a handle without a record.
`coll.go` on a program of this job that still runs answers 1; misaligned it is illegal. -/
def Obligations.CollectiveCommands : Prop :=
  ∀ (s s1 : State) (c : CoreId) (d a : BitVec 6), Ready s c .C → NonePending (s.core c) [d, a] →
    let va := (s.core c).xval a
    let own := (jobColls s (s.core c).id.jobid).find? (fun p => p.1.handle == va)
    (own = none → CompletesWith c (.collPoll d a) s d 0 0) ∧
    (∀ p n, own = some (p, n) →
      let st := match p.st with | .run => 1 | .done => 2 | .aborted => 3 | .error => 4 | .aborting => 5
      let at_ := if p.st = .run then p.step else p.rstep
      CompletesWith c (.collPoll d a) s d (wd (st + p.cause.toNat * 2 ^ 8 + p.silent.toNat * 2 ^ 16 + at_ % 1024 * 2 ^ 24)) 0) ∧
    (va.toNat % 128 ≠ 0 → TrapsIllegal c (.collGo d a) s) ∧
    (∀ h st pt s2 s3, strandRead c .C va.toNat 128 false s = .ok (h, s1) →
      strandRead c .C (chSteps h.bytes) (8 * chNstep h.bytes) false s1 = .ok (st, s2) →
      strandRead c .C (chPtab h.bytes) (8 * chN h.bytes) false s2 = .ok (pt, s3) → va.toNat % 128 = 0 → s3.core c = s.core c →
      (s.core c).span < 4096 →
      ∃ t v, exec (.collGo d a) s = .next t ∧ SetsX (s.core c) (t.core c) d (wd v) 0 ∧ FallsThrough (s.core c) (t.core c) ∧ v ≤ 4 ∧
        (((jobColls s3 (s.core c).id.jobid).find? (fun p => p.1.handle == va)).any (fun p => p.1.live) = true → v = 1) ∧
        (v ≠ 0 → t.colls = s3.colls) ∧ (v = 0 → (t.colls.getLast?.map (fun p => p.handle)) = some va))

/-- A collective program's own steps (R319, R320, R323, R325, R326): LOOP counts its loop counter and goes back while it is below its
count; COPY in the exponent pass moves nothing, in the data pass the chunk of the one buffer into that of the other; the end of the
exponent pass starts the data pass; the end of the data pass is DONE, with COMP after the residuals have been committed, and a fault
there is its cause; the END of an aborting program is ABORTED. Of WAIT the counter is read and falls. That the engine works one whole
step at a time is the model's choice (log entries 30 and 44). -/
def Obligations.CollectiveSteps : Prop :=
  (∀ (s : State) (h : Nat) (p : Coll) (w : Word), s.colls[h]? = some p → p.st = .run → p.ack = none → p.word? = some w →
    let becomes (i : Instr) (q : Coll) : Prop := ∃ t, exec i s = .next t ∧ t.colls[h]? = some q ∧ t = { s with colls := t.colls } ∧
      ∀ k, k ≠ h → t.colls[k]? = s.colls[k]?
    let l := i2 (BitVec.ofNat 2 (bits w.toNat 58 2))
    let n := rd p.lc l + 1
    (csOp w = 5 → (n.toNat : Int) < loopCount p w →
      becomes (.collLoop h) { p with lc := wr p.lc l n, step := bits w.toNat 0 10, waitFrom := s.time }) ∧
    (csOp w = 5 → loopCount p w ≤ (n.toNat : Int) →
      becomes (.collLoop h) { p with lc := wr p.lc l 0, step := p.step + 1, ack := none, waitFrom := s.time }) ∧
    (csOp w = 3 → p.dataPass = false → becomes (.collCopy h) { p with step := p.step + 1, ack := none, waitFrom := s.time }) ∧
    (csOp w = 0 → p.dataPass = false →
      becomes (.collEnd h) { p with dataPass := true, step := 0, lc := Vector.replicate 4 0, waitFrom := s.time }) ∧
    (csOp w = 3 → p.dataPass = true → p.isReady w = true →
      let src := p.chunkVa (csSb w) (p.chunkOf w)
      let dst := p.chunkVa (csDb w) (p.chunkOf w)
      (∀ g s1 s2, (cGet p src p.chunkBytes).run s = (.ok g, s1) → (cPut p dst g).run s1 = (.ok (), s2) →
        exec (.collCopy h) s = .next (putColl h { p with step := p.step + 1, ack := none, waitFrom := s2.time } s2)) ∧
      (∀ t u, CanonicalMemory s → p.chunkBytes = 64 → (s.core p.core).id.pid = p.pid → (s.core p.core).id.vd = p.vd →
        (s.core p.core).id.asid = p.asid → PlainAccess s p.core .C src 64 { rd := true, wr := false, ex := false } t →
        PlainAccess s p.core .C dst 64 { rd := false, wr := true, ex := false } u →
        ∃ s', exec (.collCopy h) s = .next s' ∧ Stored s s' (physOf u dst) (readBytes s (physOf t src) 64) ∧ s'.cores = s.cores ∧
          (s'.colls[h]?).map (fun q => (q.step, q.st, q.ack)) = some (p.step + 1, .run, none))) ∧
    (csOp w = 0 → p.dataPass = true → chComp p.hdr = false → becomes (.collEnd h) { p with st := .done, rstep := p.step }) ∧
    (csOp w = 0 → p.dataPass = true → chComp p.hdr = true →
      (∀ s1, (commitRes p).run s = (.ok (), s1) → exec (.collEnd h) s = .next (putColl h { p with st := .done, rstep := p.step } s1)) ∧
      (∀ cause r s1, (commitRes p).run s = (.error (cause, r), s1) → exec (.collEnd h) s = .next (collCause h cause r s1))) ∧
    (∀ j k, csOp w = 4 → s.job? p.job = some j → j.chunk (bits w.toNat 48 12) = (k, false) → bits w.toNat 32 16 ≤ k.toNat →
      ∃ t, exec (.collWait h) s = .next t ∧ t.colls[h]? = some { p with step := p.step + 1, ack := none, waitFrom := s.time } ∧
        t.mem = s.mem ∧ t.cores = s.cores)) ∧
  (∀ (s : State) (h : Nat) (p : Coll) (w : Word), s.colls[h]? = some p → p.st = .aborting → p.ack = none → p.word? = some w → csOp w = 0 →
    exec (.collEnd h) s = .next (putColl h { p with st := .aborted } s))

/-- Messages and their ends (R311, R317, R320, R321, R323, R324, R326, R327): SEND leaves a message and waits for the peer's
acknowledgement; one that the gate denies is cause 0x03. A RECV takes its message: with RED it adds its own partial, and a message that is no
partial of its block exponents is cause 0x06, as one of the other pass is (log entry 30); with STO it writes the finals, with FWD it sends
on and waits for the acknowledgement, else the step is done. An acknowledgement, a chunk's trigger, a notice and a time-out move the
program. A message that arrives is acknowledged where the chunk buffers have room for it; the bytes it takes there are the model's choice
(log entries 30 and 44). -/
def Obligations.CollectiveMessages : Prop :=
  ∀ (s s1 : State) (h : Nat) (p : Coll) (w : Word), s.colls[h]? = some p → p.st = .run → p.word? = some w →
    let cls := if chNet p.hdr then 2 else 1
    let c := p.chunkOf w
    let ends (i : Instr) (st : CollSt) (cause : Byte) (r : BitVec 7) : Prop :=
      ∃ t q, exec i s = .next t ∧ t.colls[h]? = some q ∧ q.st = st ∧ q.cause = cause ∧ q.silent = r
    (p.ack = none → csOp w = 1 → p.isReady w = true → ∀ v codes ls s2, (ownValue p (csSb w) c (csRed w)).run s = (.ok (v, codes), s1) →
      (sectorLbls p v codes.isSome).run s1 = (.ok ls, s2) → s2.colls = s.colls →
      let r := p.peer (csKa w)
      let m : CollMsg := { net := chNet p.hdr, tag := chTag p.hdr, rnd := chRnd p.hdr, dataPass := p.dataPass, src := p.rank,
                           num := timesNamed r p.sentTo, isPartial := v.isPartial, words := v.words, codes := codes.isSome,
                           vals := codes.getD v.vals, negz := v.negz }
      let o := OutMsg.coll p.pid (p.peers.getD r.toNat 0) m
      (gatePasses s2 cls ls = true → ∃ t, exec (.collSend h) s = .next t ∧ t.mem = s2.mem ∧ t.cores = s2.cores ∧
        t.colls[h]? = some { p with ack := some r, sentTo := r :: p.sentTo } ∧
        ((∀ port, s2.downAt port = false) → t.out = s2.out ++ [o]) ∧
        (t.out = s2.out ++ [o] ∨ ∃ port, t.waiting = s2.waiting ++ [(port, o)])) ∧
      (gatePasses s2 cls ls = false → ends (.collSend h) .aborting 0x03 r)) ∧
    (p.ack = none → csOp w = 2 → ∀ m, p.nextMsg w = some m → p.isReady w = true →
      let p1 := { p with inbox := p.inbox.erase m, recvd := m.src :: p.recvd }
      let i := Instr.collRecv h
      (m.dataPass ≠ p.dataPass → ends i .error 0x06 m.src) ∧
      (m.dataPass = p.dataPass → csRed w = false → csSto w = false → csFwd w = false →
        ∃ t, exec i s = .next t ∧ t = { s with colls := t.colls } ∧
          t.colls[h]? = some { p1 with step := p.step + 1, ack := none, waitFrom := s.time }) ∧
      (m.dataPass = p.dataPass → csRed w = true → ∀ a own codes sa sb, (arrived p1 m).run s = (.ok a, sa) →
        (ownValue p1 (csSb w) c true).run sa = (.ok (own, codes), sb) →
        (a.isPartial = false ∨ (p.dataPass = true ∧ chFloat p.hdr = true ∧ a.words.map wordEb ≠ own.words.map wordEb) →
          sb.colls = s.colls → ends i .error 0x06 m.src) ∧
        (a.isPartial = true → (p.dataPass = true → chFloat p.hdr = true → a.words.map wordEb = own.words.map wordEb) →
          ∀ v s2, (plusVal p1 a own).run sb = (.ok v, s2) →
            v.vals = (own.vals.zipIdx).map (fun q => a.vals.getD q.2 0 + q.1) ∧
            v.words = (a.words.zip own.words).map (fun q => wordJoin q.1 q.2) ∧
            (csSto w = false → csFwd w = false → exec i s = .next (putColl h { p1 with step := p.step + 1, ack := none, waitFrom := s2.time } s2)))) ∧
      (∀ v s2, (recvValue p1 w m).run s = (.ok v, s2) →
        let v1 := if csSto w then finalVal p1 v else v
        let v2 := if p.dataPass || csRed w then v1 else { v1 with isPartial := false }
        (csSto w = true → ∀ p2 s3, (storeVal p1 (csDb w) c v1).run s2 = (.ok p2, s3) →
          (csFwd w = false → exec i s = .next (putColl h { p2 with step := p2.step + 1, ack := none, waitFrom := s3.time } s3)) ∧
          (csFwd w = true → ∀ p3 s4, (cSend p2 (p.peer (csKb w)) v2 none).run s3 = (.ok p3, s4) → exec i s = .next (putColl h p3 s4))) ∧
        (csSto w = false → csFwd w = true → ∀ p3 s4, (cSend p1 (p.peer (csKb w)) v2 none).run s2 = (.ok p3, s4) →
          exec i s = .next (putColl h p3 s4)))) ∧
    (∀ r, p.ack = some r → ∃ t, exec (.collAck h) s = .next t ∧ t = { s with colls := t.colls } ∧
      t.colls[h]? = some { p with step := p.step + 1, ack := none, waitFrom := s.time }) ∧
    (p.ack = none → csOp w = 1 → chTrig p.hdr = true → p.ready.contains (readyKey (csSb w) (p.chunkOf w)) = false →
      ∀ j k, s.job? p.job = some j → j.chunk (chCbase p.hdr + p.chunkOf w) = (k, false) → chTgt p.hdr ≤ k.toNat →
      ∃ t, exec (.chunkReady h) s = .next t ∧ t.colls[h]? = some { p with ready := readyKey (csSb w) (p.chunkOf w) :: p.ready }) ∧
    (∀ r, waitsFor s p = some r → chTmo p.hdr * 1000 < (s.time - p.waitFrom).toNat → ∃ t, exec (.collTimeout h) s = .next t ∧
      ∃ q, t.colls[h]? = some q ∧ q.st = .aborting ∧ q.cause = 0x01 ∧ q.silent = r) ∧
    (∀ r, collFor s p.pid (chTag p.hdr) (chRnd p.hdr) = some h → ∃ t, exec (.abortNotice p.pid (chTag p.hdr) (chRnd p.hdr) r) s = .next t ∧
      ∃ q, t.colls[h]? = some q ∧ q.st = .aborting ∧ q.cause = 0x02 ∧ q.silent = r) ∧
    (∀ m, collFor s p.pid m.tag m.rnd = some h → isOld s p.pid m.tag m.rnd = false →
      (bufferRoom s (msgBytes m) = true → ∃ t, exec (.collMessage p.pid m) s = .next t ∧
        t.colls[h]? = some { p with inbox := p.inbox ++ [m] } ∧ t.mem = s.mem ∧ t.cores = s.cores ∧
        ((∀ port, s.downAt port = false) → t.out = s.out ++ [OutMsg.collAck p.pid m.net m.src m.tag m.rnd])) ∧
      (bufferRoom s (msgBytes m) = false → exec (.collMessage p.pid m) s = .next s))

/-- The control instructions that L, X and S share (R135): loop counters, the zero-overhead loop, jumps, the n registers,
`e.nop`; each pops its wait queues and pushes its give queues (R134, R270), and the units keep what they hold. An engine
instruction waits until each queue of its wait mask holds a token, and then nothing of it has happened (R71, R134); a mask that
names a strand which was not started is illegal (R272): here for each control instruction. -/
def Obligations.EngineControl : Prop :=
  (∀ (s : State) (c : CoreId) (st : Strand) (w g : BitVec 3) (k : BitVec 2) (j m : BitVec 4) (i15 : BitVec 15) (o18 : BitVec 18)
     (i10 : BitVec 10), st ≠ .C → Startable s c st w g →
     let e := (s.core c).eng st
     let next := e.pc + 4
     let lc := rd e.lc (i2 k)
     ∀ p ∈ [(Instr.lpSetImm w g k i15, { e with pc := next, lc := wr e.lc (i2 k) (i15.setWidth 32) }),
            (.lpSetReg w g k j, { e with pc := next, lc := wr e.lc (i2 k) (rd e.n (i4 j)) }),
            (.lpEnd w g k o18, if 1 < lc.toNat then { e with pc := e.pc + 4 * o18.signExtend 64, lc := wr e.lc (i2 k) (lc - 1) }
                               else { e with pc := next, lc := wr e.lc (i2 k) 0 }),
            (.eJ w g o18, { e with pc := e.pc + 4 * o18.signExtend 64 }),
            (.eBnz w g j i15, { e with pc := if rd e.n (i4 j) ≠ 0 then e.pc + 4 * i15.signExtend 64 else next }),
            (.nLi w g j i15, { e with pc := next, n := wr e.n (i4 j) (i15.signExtend 32) }),
            (.nAdd w g j m i10, { e with pc := next, n := wr e.n (i4 j) (rd e.n (i4 m) + i10.signExtend 32) }),
            (.eNop w g, { e with pc := next })],
       ∃ t, exec p.1 s = .next t ∧ EngineDone c st w g p.2 s t ∧ KeepsUnits (s.core c) (t.core c)) ∧
  (∀ (s : State) (c : CoreId) (st : Strand) (w g : BitVec 3) (k : BitVec 2) (j m : BitVec 4) (i15 : BitVec 15) (o18 : BitVec 18)
     (i10 : BitVec 10), st ≠ .C → Ready s c st →
     ∀ i ∈ [Instr.lpSetImm w g k i15, .lpSetReg w g k j, .lpEnd w g k o18, .eJ w g o18, .eBnz w g j i15, .nLi w g j i15,
            .nAdd w g j m i10, .eNop w g],
     (masksStarted (s.core c) st w g = true → (∃ q ∈ waitCodes st w, (s.core c).tokens q = 0) →
       exec i s = .next (s.updCore c (fun k => { k with st := k.st.set st .waiting }))) ∧
     (masksStarted (s.core c) st w g = false → EngineTraps c st i cILLEGAL (wordOf i) s))

/-- The literal-form instructions (R138 to R140): eight bytes at pc + 4 × off + 8 × n[A] set a quarter of the descriptor,
`sd.base` also POS to 0, or configure an empty ring. A literal that breaks a limit is illegal: of `sd.base` one of 2^53 or more, or a
misaligned handle of a layout record; of `sd.fmt` one that R138 forbids; of `rg.cfg` one that R140 forbids, or a ring that holds or
fills an entry. A layout record is read after the bytes of it that the strand has still to write (R235); one that does not suit the descriptor is
illegal with the handle in TVAL (R139). The stale reads of the literal and the record are recorded once the instruction goes on (R302). `rg.rst` (R141) empties a
configured ring that holds and fills nothing; the nest instructions (R145 to R147) set one field of a shadow level, an
immediate CNT unsigned and a stride signed, and exchange the active and the shadow table. -/
def Obligations.StreamSetUp : Prop :=
  (∀ (s s0 : State) (gd : RunData) (c : CoreId) (w g : BitVec 3) (k : BitVec 5) (r a : BitVec 4) (o : BitVec 10), Startable s c .L w g →
     let e := (s.core c).l
     let ea := (e.pc + 4 * o.signExtend 64 + 8 * (rd e.n (i4 a)).setWidth 64).toNat
     let s1 := (staleMark gd.marks s0).2
     let reads (i : Instr) (v : Nat) : Prop := fetchRuns c .L i [(ea, 8)] [] s = .ok (gd, s0) ∧ leNat gd.bytes.flatten = v ∧
       s0.core c = s.core c ∧ s1.core c = s.core c
     let illegal (i : Instr) : Prop := exec i s = .next (trapEng c .L cILLEGAL 0 (wordOf i) s0)
     let ringOk (v : Nat) : Prop := bits v 26 6 = 0 ∧ bits v 42 22 = 0 ∧ 1 ≤ bits v 16 10 ∧ 1 ≤ bits v 32 10 ∧
       64 * (bits v 0 16 + bits v 16 10 * bits v 32 10) ≤ 2 ^ 22 ∧ (windowOf s0 c).isSome = true ∧
       ((s.core c).ls.ring r).h = 0 ∧ ((s.core c).ls.ring r).p = 0
     let d := rd (s.core c).ls.sd (i5 k)
     let setsSd (i : Instr) (d' : SDesc) : Prop := ∃ t, exec i s = .next t ∧ EngineDone c .L w g (nextEng (s.core c) .L) s1 t ∧
       (t.core c).ls = { (s.core c).ls with sd := wr (s.core c).ls.sd (i5 k) d' } ∧ (t.core c).xs = (s.core c).xs ∧ (t.core c).ss = (s.core c).ss
     (∀ v, reads (.sdBase w g k a o) v → v < 2 ^ 52 → setsSd (.sdBase w g k a o) { d with q0 := wd v, pos := 0 }) ∧
     (∀ v, reads (.sdFmt w g k a o) v → fmtOk v = true → setsSd (.sdFmt w g k a o) { d with q1 := wd v }) ∧
     (∀ v, reads (.sdFmt w g k a o) v → fmtOk v = false → illegal (.sdFmt w g k a o)) ∧
     (∀ v, reads (.sdBase w g k a o) v → 2 ^ 53 ≤ v → illegal (.sdBase w g k a o)) ∧
     (∀ hd, reads (.sdBase w g k a o) (2 ^ 52 + hd) → hd < 2 ^ 52 → hd % 64 ≠ 0 → illegal (.sdBase w g k a o)) ∧
     (∀ hd, reads (.sdBase w g k a o) (2 ^ 52 + hd) → hd < 2 ^ 52 → hd % 64 = 0 →
       let runs := if (heldRec (strandWho s0 c) (some (clusterOf c)) hd s0).isNone then [(hd, 192)] else []
       writeAhead s0 c .L runs = true →
       exec (.sdBase w g k a o) s = .next (s0.updCore c (fun x => { x with st := x.st.set .L .waiting }))) ∧
     (∀ hd, reads (.sdBase w g k a o) (2 ^ 52 + hd) → hd < 2 ^ 52 → hd % 64 = 0 →
       let runs := if (heldRec (strandWho s0 c) (some (clusterOf c)) hd s0).isNone then [(hd, 192)] else []
       writeAhead s0 c .L runs = false → ∀ more, guardCheck c .L (.sdBase w g k a o) runs s0 = .ok (more, s0) → ∀ lr s2,
       let marks := alsoMark gd.marks more
       readLRec (strandWho s0 c) (some (clusterOf c)) hd s0 = (.ok lr, s2) → ((staleMark marks s2).2).core c = s.core c →
       (∀ d', descOfLRec lr d = some d' →
         ∃ t, exec (.sdBase w g k a o) s = .next t ∧ EngineDone c .L w g (nextEng (s.core c) .L) (staleMark marks s2).2 t ∧
           (t.core c).ls = { (s.core c).ls with sd := wr (s.core c).ls.sd (i5 k) d' }) ∧
       (s2.core c = s.core c → descOfLRec lr d = none → exec (.sdBase w g k a o) s = .next (trapEng c .L cILLEGAL 0 (wd hd) s2))) ∧
     (∀ v, reads (.sdGeom w g k a o) v → setsSd (.sdGeom w g k a o) { d with q2 := wd v }) ∧
     (∀ v, reads (.sdScale w g k a o) v → setsSd (.sdScale w g k a o) { d with q3 := wd v }) ∧
     (∀ v, reads (.rgCfg w g r a o) v → ringOk v →
       let q : Ring :=
         { on := true, baseU := BitVec.ofNat 16 (bits v 0 16), esz := BitVec.ofNat 10 (bits v 16 10),
           nent := BitVec.ofNat 10 (bits v 32 10), head := 0, tail := 0, f := 0, p := 0, h := 0 }
       ∃ t, exec (.rgCfg w g r a o) s = .next t ∧ EngineDone c .L w g (nextEng (s.core c) .L) s1 t ∧
         (t.core c).ls = { (s.core c).ls with rg := wr (s.core c).ls.rg (i4 r) q }) ∧
     (∀ v, reads (.rgCfg w g r a o) v → ¬ ringOk v → illegal (.rgCfg w g r a o))) ∧
  (∀ (s : State) (c : CoreId) (w g l : BitVec 3) (r n : BitVec 4) (f : BitVec 2) (v : BitVec 14), Startable s c .L w g →
     let ls := (s.core c).ls
     let q := rd ls.rg (i4 r)
     let x := rd (s.core c).l.n (i4 n)
     let does (i : Instr) (ls' : LState) : Prop := ∃ t, exec i s = .next t ∧ EngineDone c .L w g (nextEng (s.core c) .L) s t ∧
       (t.core c).ls = ls' ∧ (t.core c).xs = (s.core c).xs ∧ (t.core c).ss = (s.core c).ss
     let put (y : Nest) (u : BitVec 16) : Nest := if f = 0 then { y with cnt := u } else if f = 1 then { y with sa := u }
       else if f = 2 then { y with sb := u } else { y with sc := u }
     (q.on = true ∧ q.h = 0 ∧ q.p = 0 → does (.rgRst w g r) { ls with rg := wr ls.rg (i4 r) { q with head := 0, tail := 0, f := 0 } }) ∧
     (¬ (q.on = true ∧ q.h = 0 ∧ q.p = 0) → EngineTraps c .L (.rgRst w g r) cILLEGAL (wordOf (.rgRst w g r)) s) ∧
     does (.nestSwap w g) { ls with nestA := ls.nestS, nestS := ls.nestA } ∧
     (∀ k : Fin 6, l.toNat = k.val → f ≠ 0 ∨ v ≠ 0 → does (.nestSetImm w g l f v)
       { ls with nestS := wr ls.nestS k (put (rd ls.nestS k) (if f = 0 then v.setWidth 16 else v.signExtend 16)) }) ∧
     (∀ k : Fin 6, l.toNat = k.val → (f = 0 → 1 ≤ x.toNat ∧ x.toNat ≤ 65535) → (f ≠ 0 → -32768 ≤ x.toInt ∧ x.toInt ≤ 32767) →
       does (.nestSetReg w g l f n) { ls with nestS := wr ls.nestS k (put (rd ls.nestS k) (x.setWidth 16)) }) ∧
     ((f = 0 ∧ ¬ (1 ≤ x.toNat ∧ x.toNat ≤ 65535)) ∨ (f ≠ 0 ∧ ¬ (-32768 ≤ x.toInt ∧ x.toInt ≤ 32767)) →
       EngineTraps c .L (.nestSetReg w g l f n) cILLEGAL (wordOf (.nestSetReg w g l f n)) s))

/-- Tile loads (R142 to R144): once the rows of the block at POS have been read, `ld.vt`, `ld.bcst` and `ld.strd` write the
destination tile with the widened elements and the label of what was read, and POS moves on unless held. `ld.gath` (R143): a
block row for each non-negative index in row 0 of the index tile, in order; a negative index gives a zero row; the tile's label
joins the index tile's. -/
def Obligations.TileLoads : Prop :=
  (∀ (s s1 : State) (c : CoreId) (w g : BitVec 3) (d k : BitVec 5) (h : BitVec 1) (rows : List RowData) (lbl : Label),
     Startable s c .L w g →
     let sd := rd (s.core c).ls.sd (i5 k)
     let wide := rows.map (widenRow sd)
     let sd' := if h = 1 then sd else { sd with pos := if sd.nbr ≠ 0 ∧ (sd.pos + 1).toNat = sd.ncb * sd.nbr then 0 else sd.pos + 1 }
     let loads (i : Instr) (tile : Tile) : Prop := readRows c i sd sd.blockRows s = .ok ((rows, lbl), s1) → s1.core c = s.core c →
       ∃ t, exec i s = .next t ∧ EngineDone c .L w g (nextEng (s.core c) .L) s1 t ∧
         (t.core c).xs = { (s.core c).xs with vt := wr (s.core c).xs.vt (i5 d) tile, vtl := wr (s.core c).xs.vtl (i5 d) lbl } ∧
         (t.core c).ls = { (s.core c).ls with sd := wr (s.core c).ls.sd (i5 k) sd' } ∧ (t.core c).ss = (s.core c).ss
     (1 ≤ sd.brows ∧ sd.brows ≤ 16 ∧ sd.bcols ≤ 64 → loads (.ldVt w g d k h) (tileOfRows wide)) ∧
     (¬ (1 ≤ sd.brows ∧ sd.brows ≤ 16 ∧ sd.bcols ≤ 64) → EngineTraps c .L (.ldVt w g d k h) cILLEGAL (wordOf (.ldVt w g d k h)) s) ∧
     (sd.brows = 1 ∧ sd.bcols ≤ 64 → loads (.ldBcst w g d k h) (tileOfRows (List.replicate 16 (wide.headD [])))) ∧
     (sd.brows = 64 ∧ sd.bcols = 16 ∧ (sd.fmt = 0 ∨ sd.fmt = 8 ∨ sd.fmt = 1 ∨ sd.fmt = 2) → bankConflict sd = none →
       (∃ b cl, windowOf s c = some (b, cl) ∧ ∀ p ∈ sd.blockRows, b ≤ (sd.codeRun p.1).1 ∧ (sd.codeRun p.1).1 + (sd.codeRun p.1).2 ≤ b + 2 ^ 22) →
       loads (.ldStrd w g d k h) (tileOfRows ((List.range 16).map (fun t => wide.map (fun v => v.getD t 0))))) ∧
     (sd.brows = 64 ∧ sd.bcols = 16 ∧ (sd.fmt = 0 ∨ sd.fmt = 8 ∨ sd.fmt = 1 ∨ sd.fmt = 2) → ∀ va, bankConflict sd = some va →
       (∃ b cl, windowOf s c = some (b, cl) ∧ ∀ p ∈ sd.blockRows, b ≤ (sd.codeRun p.1).1 ∧ (sd.codeRun p.1).1 + (sd.codeRun p.1).2 ≤ b + 2 ^ 22) →
       EngineTraps c .L (.ldStrd w g d k h) cBANKCONF (wd va) s)) ∧
  (∀ (s s1 : State) (c : CoreId) (w g : BitVec 3) (d k x : BitVec 5) (h : BitVec 1) (rows : List RowData) (lbl : Label),
     Startable s c .L w g →
     let sd := rd (s.core c).ls.sd (i5 k)
     let idx := ((rd (s.core c).xs.vt (i5 x)).take 16).map (fun v => v.toInt)
     let named := (idx.filter (fun v => decide (0 ≤ v))).map (fun v => (v, ((sd.br * sd.brows : Nat) : Int) + v))
     1 ≤ sd.brows ∧ sd.bcols ≤ 64 → readRows c (.ldGath w g d k x h) sd named s = .ok ((rows, lbl), s1) → s1.core c = s.core c →
     ∃ t, exec (.ldGath w g d k x h) s = .next t ∧ EngineDone c .L w g (nextEng (s.core c) .L) s1 t ∧
       rd (t.core c).xs.vtl (i5 d) = (joinAt (dieOf c) (s.core c).id.pid lbl (rd (s.core c).xs.vtl (i5 x)) s1).1 ∧
       (∀ n, n ≠ d → rd (t.core c).xs.vt (i5 n) = rd (s.core c).xs.vt (i5 n)) ∧
       rd (t.core c).xs.vt (i5 d) = tileOfRows ((List.range idx.length).map (fun i => if idx.getD i 0 < 0 then []
         else widenRow sd (rows.getD ((idx.take i).countP (fun v => decide (0 ≤ v))) { codes := [], scales := [], zps := [] }))))

/-- `ld.tile` (R140, R141, R143): an entry of the ring is reserved, its bytes in flight; LD_TILE_ENTRY_WRITE stores them at the entry
and moves it from P to F. A ring without room, or an entry too small, is illegal. The entry's pages are translated with the source's
before any byte moves, which log entry 17 fixes; the entry is then written to those pages (R98). An entry that shares bytes with an
earlier one of another ring, under whatever addresses, is written after it, and so is one before which the strand has a push to make
(R235, R237, R241); a load of the strand from bytes that it has still to write waits for them (R90, R235). -/
def Obligations.RingFills : Prop :=
  (∀ (s s1 : State) (c : CoreId) (w g : BitVec 3) (r : BitVec 4) (d k : BitVec 5) (h : BitVec 1) (rows : List RowData) (lbl : Label)
     (pages : List Page), Startable s c .L w g →
    let sd := rd (s.core c).ls.sd (i5 k)
    let sd' := if h = 1 then sd else { sd with pos := if sd.nbr ≠ 0 ∧ (sd.pos + 1).toNat = sd.ncb * sd.nbr then 0 else sd.pos + 1 }
    let q := rd (s.core c).ls.rg (i4 r)
    let ok := sd.brows ≠ 0 ∧ q.on = true ∧ q.f + q.p < q.nent.toNat ∧ (entryParts sd).2.2 ≤ 64 * q.esz.toNat
    (ok → readRowsWith c (.ldTile w g r k h) sd sd.blockRows (entryTouches sd (entryVa s c q q.tail)) s = .ok ((rows, lbl, pages), s1) →
      s1.core c = s.core c → ∃ t, exec (.ldTile w g r k h) s = .next t ∧
        EngineStarted c .L w g (.entry r q.tail (entryData sd rows) lbl) s1 t pages ∧ (t.core c).xs = (s.core c).xs ∧
        (t.core c).ls =
          { (s.core c).ls with sd := wr (s.core c).ls.sd (i5 k) sd',
                               rg := wr (s.core c).ls.rg (i4 r) { q with tail := (q.tail + 1) % q.nent.toNat, p := q.p + 1 } }) ∧
    (¬ ok → EngineTraps c .L (.ldTile w g r k h) cILLEGAL (wordOf (.ldTile w g r k h)) s) ∧
    (1 ≤ sd.brows ∧ sd.brows ≤ 16 ∧ sd.bcols ≤ 64 → sd.scalesOk sd.blockRows = true →
      (∃ f ∈ (s.core c).flights, ∃ r idx runs lbl, f.st = .L ∧ f.rest = .entry r idx runs lbl ∧
        runsMeet (entryRuns s c f) (physRuns (piecesAt s c (sd.runs sd.blockRows))) = true) →
      exec (.ldVt w g d k h) s = .next (s.updCore c (fun k => { k with st := k.st.set .L .waiting })))) ∧
  (∀ (s s1 : State) (c : CoreId) (r : BitVec 4) (st : Strand) (idx : Nat) (runs : List (Nat × List Byte)) (lbl : Label)
      (ps : List Page),
    let f : Flight := { st := st, rest := .entry r idx runs lbl, gives := [], pages := ps }
    (s.core c).flights = [f] →
    let q := rd (s.core c).ls.rg (i4 r)
    writeEntry (strandWho s c) (f.pagesOn c) (entryVa s c q idx) runs lbl s = (.done, s1) → s1.core c = s.core c →
    ∃ t, exec (.ldTileEntryWrite c r) s = .next t ∧ OnlyCore c s1 t ∧ (t.core c).flights = [] ∧
      rd (t.core c).ls.rg (i4 r) = { q with p := q.p - 1, f := q.f + 1 } ∧ KeepsX (s.core c) (t.core c) ∧ (t.core c).xs = (s.core c).xs) ∧
  (∀ (s : State) (c : CoreId) (r0 r1 : BitVec 4) (st : Strand) (i0 i1 : Nat) (runs0 runs1 : List (Nat × List Byte)) (l0 l1 : Label)
      (g0 g1 : List Nat) (ps0 ps1 : List Page), r0 ≠ r1 →
    let f0 : Flight := { st := st, rest := .entry r0 i0 runs0 l0, gives := g0, pages := ps0 }
    let f1 : Flight := { st := st, rest := .entry r1 i1 runs1 l1, gives := g1, pages := ps1 }
    (s.core c).flights = [f0, f1] → runsMeet (entryRuns s c f0) (entryRuns s c f1) = true ∨ g0 ≠ [] →
    exec (.ldTileEntryWrite c r1) s = .next s)

/-- Accumulator movement (R158 to R161): on a closed accumulator `ac.zero` clears, `ac.mv` copies region J (16 rows by 64
columns) to a tile, `ac.ld` and `ac.ld.add` take a tile into the region; each is then in the matrix queue. On an open one they
are illegal. The matrix queue (R158, R159, R162): each starts after the steps of those before it; MMA_RETIRE finishes the oldest
instruction in flight, its steps first, and the entries that it held leave their rings, but at a checkpoint it does nothing (R164); `mfence`
passes with none in flight and clears the hazard marks, and until then it waits. -/
def Obligations.Accumulators : Prop :=
  (∀ (s : State) (c : CoreId) (w g : BitVec 3) (d : BitVec 2) (a : BitVec 5) (j : BitVec 4), Startable s c .X w g →
     let x := (s.core c).xs
     let acc := rd x.ac (i2 d)
     let held := [(acc, rd x.acl (i2 d))]
     let place (pos : Nat) : Option Nat :=
       if pos / 128 / 16 = j.toNat / 2 ∧ pos % 128 / 64 = j.toNat % 2 then some (pos / 128 % 16 * 64 + pos % 128 % 64) else none
     let taken (f : Word32 → Word32 → Word32) : Tile := acc.zipIdx.map (fun p => match place p.2 with
       | some n => f p.1 ((rd x.vt (i5 a)).getD n 0)
       | none => p.1)
     let l := (joinAt (dieOf c) (s.core c).id.pid (rd x.acl (i2 d)) (rd x.vtl (i5 a)) s).1
     let starts (i : Instr) (seen : List (Tile × Label)) (x' : XState) : Prop := ∃ t, exec i s = .next t ∧
       EngineStarted c .X w g (.acOp (encode i) d seen) s t ∧
       (t.core c).xs = x' ∧ (t.core c).ls = (s.core c).ls ∧ KeepsX (s.core c) (t.core c)
     ((s.core c).matDue = none → rd x.hazard (i2 d) = none →
       starts (.acZero w g d) held { x with ac := wr x.ac (i2 d) (List.replicate 16384 0), acl := wr x.acl (i2 d) 0 } ∧
       starts (.acMv w g a d j) [] { x with
         vt := wr x.vt (i5 a) ((List.range 1024).map (fun p =>
           acc.getD ((16 * (j.toNat / 2) + p / 64) * 128 + 64 * (j.toNat % 2) + p % 64) 0)),
         vtl := wr x.vtl (i5 a) (rd x.acl (i2 d)) } ∧
       starts (.acLd w g d a j) held { x with ac := wr x.ac (i2 d) (taken (fun _ n => n)), acl := wr x.acl (i2 d) l } ∧
       starts (.acLdAdd w g d a j) held { x with ac := wr x.ac (i2 d) (taken fadd), acl := wr x.acl (i2 d) l }) ∧
     (∀ i ∈ [Instr.acZero w g d, .acMv w g a d j, .acLd w g d a j, .acLdAdd w g d a j],
       ((s.core c).matDue = none → rd x.hazard (i2 d) ≠ none → EngineTraps c .X i cILLEGAL (wordOf i) s) ∧
       (((matFinish c s).core c).matDue = none → Startable (matFinish c s) c .X w g → exec i s = exec i (matFinish c s)))) ∧
  ((∀ (s : State) (c : CoreId), stoppedAt s c = true → exec (.mmaRetire c) s = .next s) ∧
   (∀ (s : State) (c : CoreId) (m : MatRun) (st : Strand) (ps : List Page), m.a ≠ m.b → m.steps ≤ m.t → stoppedAt s c = false →
     (s.core c).flights = [{ st := st, rest := .matrix m, gives := [], pages := ps }] →
     let qa := rd (s.core c).ls.rg (i4 m.a)
     let qb := rd (s.core c).ls.rg (i4 m.b)
     ∃ t, exec (.mmaRetire c) s = .next t ∧ OnlyCore c s t ∧ (t.core c).flights = [] ∧ (t.core c).xs = (s.core c).xs ∧
       rd (t.core c).ls.rg (i4 m.a) = { qa with head := (qa.head + m.ka) % qa.nent.toNat, f := qa.f - m.ka, h := qa.h - m.ka } ∧
       rd (t.core c).ls.rg (i4 m.b) = { qb with head := (qb.head + m.kb) % qb.nent.toNat, f := qb.f - m.kb, h := qb.h - m.kb } ∧
       KeepsX (s.core c) (t.core c)) ∧
   (∀ (s : State) (c : CoreId), ((matFinish c s).core c).matDue = none → exec (.mmaRetire c) s = exec (.mmaRetire c) (matFinish c s)) ∧
   (∀ (s : State) (c : CoreId) (w g : BitVec 3), Startable s c .X w g →
     ((s.core c).flights.any isMatrix = false → ∃ t, exec (.mfence w g) s = .next t ∧
       EngineDone c .X w g (nextEng (s.core c) .X) s t ∧ (t.core c).xs = { (s.core c).xs with hazard := Vector.replicate 4 none } ∧
       (t.core c).ls = (s.core c).ls) ∧
     ((s.core c).flights.any isMatrix = true →
       exec (.mfence w g) s = .next (s.updCore c (fun k => { k with st := k.st.set .X .waiting })))))

/-- `mma` and `mma.q` (R150 to R158, R162): with a legal shape word, two rings that hold the nest's entries, and an accumulator
closed or open for the same shape, the entries are held, the accumulator is open, its label joins the entries', and the nest's steps
follow, each adding its groups' sums to the accumulator. An illegal shape word, equal rings, another shape's hazard, an offset below the
first entry, a ring that is off or holds too few entries, an entry too small: each is illegal and has no effect; an entry on a page that
faults traps in translation, before any effect; the steps read through the pages that the start translated (R156), and none is taken at a
checkpoint (R164). How an accumulator under way is seen in between is log entry 26, that the accumulator's and the entries' labels join in
pairs log entry 44 (DEDUCED). -/
def Obligations.MatrixMultiply : Prop :=
  (∀ (s s1 : State) (c : CoreId) (w g : BitVec 3) (d : BitVec 2) (a b r : BitVec 4), Startable s c .X w g → (s.core c).matDue = none →
    ∀ p ∈ [(Instr.mma w g d a b r, false), (.mmaQ w g d a b r, true)],
      let v := (rd (s.core c).xe.n (i4 r)).toNat
      let ls := nestLevels (s.core c).ls.nestA
      let qa := rd (s.core c).ls.rg (i4 a)
      let qb := rd (s.core c).ls.rg (i4 b)
      let na := nestSpan (fun o => o.1) ls
      let nb := nestSpan (fun o => o.2.1) ls
      let x := (s.core c).xs
      (shapeOf p.2 v = none → EngineTraps c .X p.1 cILLEGAL (wordOf p.1) s) ∧
      (∀ sh, shapeOf p.2 v = some sh →
        let za := (entryLayout sh.m sh.ke (fmtBits sh.fa) sh.g).2.2
        let zb := (entryLayout sh.n sh.ke (fmtBits sh.fb) sh.g).2.2
        let legal := a ≠ b ∧ (rd x.hazard (i2 d) = none ∨ rd x.hazard (i2 d) = some (sh.m, sh.n)) ∧ 0 ≤ na.2 ∧ 0 ≤ nb.2 ∧
          qa.on = true ∧ qb.on = true ∧ qa.h + na.1 ≤ qa.f ∧ qb.h + nb.1 ≤ qb.f ∧ za ≤ 64 * qa.esz.toNat ∧ zb ≤ 64 * qb.esz.toNat
        let entry (q : Ring) (z i : Nat) : Run := (entryVa s c q ((q.head + q.h + i) % q.nent.toNat), z)
        let ra := (List.range na.1).map (entry qa za)
        let rb := (List.range nb.1).map (entry qb zb)
        (¬ legal → EngineTraps c .X p.1 cILLEGAL (wordOf p.1) s) ∧
        (legal → ∀ f, translateRuns (strandWho s c) (touches .read (ra ++ rb)) s = (.error f, s1) → f.1.poison = false →
          exec p.1 s = .next (trapEng c .X (if f.1.stage = 1 then cPF1 else cPF2) (f.1.level * 16 + f.1.kind) f.2 s1)) ∧
        (legal → ∀ pages ga gb s2 s3, translateRuns (strandWho s c) (touches .read (ra ++ rb)) s = (.ok pages, s1) →
          ra.mapM (fun r => readPieces (strandWho s c) (pieces pages r.1 r.2)) s1 = (ga, s2) →
          rb.mapM (fun r => readPieces (strandWho s c) (pieces pages r.1 r.2)) s2 = (gb, s3) →
          (∀ y ∈ ga ++ gb, y.poison = false) → s3.core c = s.core c →
          let m : MatRun :=
            { word := encode p.1, pc := (s.core c).xe.pc, d := d, shape := rd (s.core c).xe.n (i4 r), a := a, b := b,
              posA := qa.head + qa.h, posB := qb.head + qb.h, ka := na.1, kb := nb.1, nest := (s.core c).ls.nestA, t := 0,
              wasA := ga.map (fun y => y.bytes), wasB := gb.map (fun y => y.bytes), seen := [(rd x.ac (i2 d), rd x.acl (i2 d))] }
          let l := (joinAll (dieOf c) (s.core c).id.pid (rd x.acl (i2 d) :: (ga ++ gb).map (fun y => y.lbl)) s3).1
          ∃ t, exec p.1 s = .next t ∧ EngineStarted c .X w g (.matrix m) s3 t pages ∧
            (t.core c).xs = { x with acl := wr x.acl (i2 d) l, hazard := wr x.hazard (i2 d) (some (sh.m, sh.n)) } ∧
            rd (t.core c).ls.rg (i4 a) = { qa with h := qa.h + na.1 } ∧ rd (t.core c).ls.rg (i4 b) = { qb with h := qb.h + nb.1 }))) ∧
  (∀ (s s1 s2 : State) (c : CoreId) (m : MatRun) (st : Strand) (gs : List Nat) (sh : Shape) (ea eb : List Byte)
     (ps : List Page), m.t < m.steps → stoppedAt s c = false →
    let f : Flight := { st := st, rest := .matrix m, gives := gs, pages := ps }
    (s.core c).flights = [f] →
    shapeOf (decide (bits m.word.toNat 20 6 = 0x11)) m.shape.toNat = some sh →
    let o := nestOffsets (nestLevels m.nest) m.t
    let entry (r : BitVec 4) (z pos i : Nat) : Run :=
      let q := rd (s.core c).ls.rg (i4 r)
      (entryVa s c q ((pos + i) % q.nent.toNat), z)
    let x := (s.core c).xs
    let acc := mmaStep sh ea eb (o.2.2 % 64).toNat (rd x.ac (i2 m.d))
    readEntry c (f.pagesOn c) (entry m.a (entryLayout sh.m sh.ke (fmtBits sh.fa) sh.g).2.2 m.posA o.1.toNat) (m.wasA.getD o.1.toNat []) s = (some ea, s1) →
    readEntry c (f.pagesOn c) (entry m.b (entryLayout sh.n sh.ke (fmtBits sh.fb) sh.g).2.2 m.posB o.2.1.toNat) (m.wasB.getD o.2.1.toNat []) s1 = (some eb, s2) →
    s2.core c = s.core c →
    ∃ t, turn (.matrixStep c) s = .next t ∧ OnlyCore c s2 t ∧ (t.core c).xs = { x with ac := wr x.ac (i2 m.d) acc } ∧
      (t.core c).ls = (s.core c).ls ∧ KeepsX (s.core c) (t.core c) ∧
      ∃ seen, (t.core c).flights = [{ f with rest := .matrix { m with t := m.t + 1, seen := seen } }])

/-- Elementwise instructions (R171, R173 to R175): of each active lane the result by its type, FP32 rounded once to nearest
even, S32 modulo 2^32 or clamped; an inactive lane keeps its pattern (R168). The label joins the operands', and under a
predicate the mask's and the destination's (R169). How the functions of R175 are computed is log entry 7, that several labels join in
pairs log entry 44. -/
def Obligations.Elementwise : Prop :=
  ∀ (s : State) (c : CoreId) (w g : BitVec 3) (d a b : BitVec 5) (p : BitVec 2) (i1 : BitVec 1) (f : BitVec 4) (m : BitVec 3),
    Startable s c .X w g →
    let x := (s.core c).xs
    let pl := x.predLbls p (x.tlbl d)
    let two (i : Instr) (h : Word32 → Word32 → Word32) : Prop := XResult c i w g ([x.tlbl a, x.tlbl b] ++ pl)
      (fun l => x.setTile d (blend (x.active p) (x.tile d) (List.zipWith h (x.tile a) (x.tile b))) l) s
    let three (i : Instr) (h : Word32 → Word32 → Word32 → Word32) : Prop := XResult c i w g ([x.tlbl a, x.tlbl b, x.tlbl d] ++ pl)
      (fun l => x.setTile d (blend (x.active p) (x.tile d)
        (((x.tile a).zip ((x.tile b).zip (x.tile d))).map (fun q => h q.1 q.2.1 q.2.2))) l) s
    let one (i : Instr) (h : Word32 → Word32) : Prop := XResult c i w g ([x.tlbl a] ++ pl)
      (fun l => x.setTile d (blend (x.active p) (x.tile d) ((x.tile a).map h)) l) s
    (∀ q ∈ [(Instr.vadd w g d a b p 0, fun u v => toF32 ((f32 u).add (f32 v))), (.vadd w g d a b p 1, fun u v => u + v),
            (.vadd w g d a b p 2, fun u v => word32 (sat32 (u.toInt + v.toInt))),
            (.vsub w g d a b p 0, fun u v => toF32 ((f32 u).add (f32 v).neg)), (.vsub w g d a b p 1, fun u v => u - v),
            (.vsub w g d a b p 2, fun u v => word32 (sat32 (u.toInt - v.toInt))),
            (.vmul w g d a b p 0, fun u v => toF32 ((f32 u).mul (f32 v))), (.vmul w g d a b p 1, fun u v => u * v),
            (.vmul w g d a b p 2, fun u v => word32 (sat32 (u.toInt * v.toInt))),
            (.vmax w g d a b p 0, fmax), (.vmax w g d a b p 1, fun u v => if u.toInt ≤ v.toInt then v else u),
            (.vmin w g d a b p 0, fmin), (.vmin w g d a b p 1, fun u v => if u.toInt ≤ v.toInt then u else v),
            (.vand w g d a b p, fun u v => u &&& v), (.vor w g d a b p, fun u v => u ||| v), (.vxor w g d a b p, fun u v => u ^^^ v),
            (.vshl w g d a b p, fun u v => u <<< (v.toNat % 256)), (.vshr w g d a b p 0, fun u v => u >>> (v.toNat % 256)),
            (.vshr w g d a b p 1, fun u v => u.sshiftRight (v.toNat % 256))], two q.1 q.2) ∧
    (∀ q ∈ [(Instr.vfma w g d a b p 0, fun u v o => toF32 (((f32 u).mul (f32 v)).add (f32 o))),
            (.vfma w g d a b p 1, fun u v o => u * v + o),
            (.vfma w g d a b p 2, fun u v o => word32 (sat32 (u.toInt * v.toInt + o.toInt)))], three q.1 q.2) ∧
    (∀ q ∈ [(Instr.vabs w g d a p 0, fun u => if (f32 u).isNan then nan32 else u &&& 0x7FFFFFFF),
            (.vabs w g d a p 1, fun u => if u.toInt < 0 then -u else u),
            (.vabs w g d a p 2, fun u => if u = 0x80000000 then 0x7FFFFFFF else if u.toInt < 0 then -u else u),
            (.vneg w g d a p 0, fun u => if (f32 u).isNan then nan32 else u ^^^ 0x80000000), (.vneg w g d a p 1, fun u => -u),
            (.vneg w g d a p 2, fun u => if u = 0x80000000 then 0x7FFFFFFF else -u), (.vmov w g d a p, fun u => u),
            (.vexp2 w g d a p, spFun .exp2), (.vlog2 w g d a p, spFun .log2), (.vrcp w g d a p, spFun .rcp),
            (.vrsqrt w g d a p, spFun .rsqrt), (.vtanh w g d a p, spFun .tanh), (.vsigm w g d a p, spFun .sigm),
            (.vsoftp w g d a p, spFun .softp), (.vcvt w g d a i1 f p m, vcvtLane i1 f m)], one q.1 q.2)

/-- Masks, selection and constants (R172, R173): a comparison writes the lane bits of vm[D]; `vsel` takes A where the mask's
bit is 1; `vli` writes every lane with label 0. That several labels join in pairs is log entry 44. -/
def Obligations.MasksAndMoves : Prop :=
  ∀ (s : State) (c : CoreId) (w g : BitVec 3) (d a b : BitVec 5) (dm am m : BitVec 3) (p : BitVec 2) (cc : BitVec 3) (i : BitVec 14),
    Startable s c .X w g →
    let x := (s.core c).xs
    let bitsOf (v : Mask) : List Bool := (List.range 1024).map (fun k => v.getLsbD k)
    let toMask (i : Instr) (ls : List Label) (new : List Bool) : Prop := XResult c i w g (ls ++ x.predLbls p (x.mlbl dm))
      (fun l => x.setMask dm (maskOfList (blend (x.active p) (bitsOf (x.mask dm)) new)) l) s
    let toTile (i : Instr) (ls : List Label) (new : Tile) : Prop := XResult c i w g (ls ++ x.predLbls p (x.tlbl d))
      (fun l => x.setTile d (blend (x.active p) (x.tile d) new) l) s
    let holds (u v : Word32) : Bool :=
      if cc = 0 then (f32 u).same (f32 v) else if cc = 1 then !(f32 u).same (f32 v) else if cc = 2 then (f32 u).lt (f32 v)
      else if cc = 3 then (f32 u).lt (f32 v) || (f32 u).same (f32 v) else if cc = 4 then decide (u = v)
      else if cc = 5 then decide (u ≠ v) else if cc = 6 then decide (u.toInt < v.toInt) else decide (u.toInt ≤ v.toInt)
    toMask (.vcmp w g dm a b p cc) [x.tlbl a, x.tlbl b] (List.zipWith holds (x.tile a) (x.tile b)) ∧
    toMask (.vmovTm w g dm a p) [x.tlbl a] ((x.tile a).map (fun v => decide (v ≠ 0))) ∧
    toMask (.vmovMm w g dm am p) [x.mlbl am] (bitsOf (x.mask am)) ∧
    toTile (.vmov w g d a p) [x.tlbl a] (x.tile a) ∧
    toTile (.vmovMt w g d am p) [x.mlbl am] ((bitsOf (x.mask am)).map (fun v => if v then 1 else 0)) ∧
    toTile (.vsel w g d a b p m) [x.tlbl a, x.tlbl b, x.mlbl m] (blend (bitsOf (x.mask m)) (x.tile b) (x.tile a)) ∧
    (∀ q ∈ [(Instr.vli w g d i, i.signExtend 32), (.vliF w g d i, i.setWidth 32 <<< 18)],
      XResult c q.1 w g [] (fun l => x.setTile d (blend (List.replicate 1024 true) (x.tile d) (List.replicate 1024 q.2)) l) s)

/-- Rows and columns (R177 to R181): rotations and broadcasts by n[S], row permutation, the balanced reductions over active
lanes, where an empty row or column writes nothing (R179), inclusive row scans, and the 64 × 64 transpose of four tiles. That several
labels join in pairs is log entry 44. -/
def Obligations.RowsAndColumns : Prop :=
  ∀ (s : State) (c : CoreId) (w g : BitVec 3) (d a b : BitVec 5) (dq aq : BitVec 3) (sr : BitVec 4) (p : BitVec 2) (o : BitVec 3),
    Startable s c .X w g →
    let x := (s.core c).xs
    let n := (rd (s.core c).xe.n (i4 sr)).toNat
    let at_ (t : Tile) (r cc : Nat) : Word32 := t.getD (64 * r + cc) 0
    let lanes (h : Nat → Nat → Word32) : Tile := (List.range 1024).map (fun k => h (k / 64) (k % 64))
    let toTile (i : Instr) (ls : List Label) (new : Tile) : Prop := XResult c i w g (ls ++ x.predLbls p (x.tlbl d))
      (fun l => x.setTile d (blend (x.active p) (x.tile d) new) l) s
    let act := ((x.active p).zip (x.tile a)).map (fun q => if q.1 then some q.2 else none)
    let row (r : Nat) : List (Option Word32) := (act.drop (64 * r)).take 64
    let col (cc : Nat) : List (Option Word32) := (List.range 16).map (fun r => act.getD (64 * r + cc) none)
    (∀ q ∈ [(Instr.vrotr w g d a sr p, fun r cc => at_ (x.tile a) r ((cc + n) % 64)),
            (.vrotc w g d a sr p, fun r cc => at_ (x.tile a) ((r + n) % 16) cc), (.vbcr w g d a sr p, fun r _ => at_ (x.tile a) r (n % 64)),
            (.vbcc w g d a sr p, fun _ cc => at_ (x.tile a) (n % 16) cc),
            (.vredr w g d a p o, fun r _ => (treeReduce (redOp o) 6 (row r)).getD 0),
            (.vredc w g d a p o, fun _ cc => (treeReduce (redOp o) 4 (col cc)).getD 0)],
      toTile q.1 [x.tlbl a] (lanes q.2)) ∧
    toTile (.vperm w g d a b p) [x.tlbl a, x.tlbl b] (lanes (fun r cc => let j := (at_ (x.tile b) r cc).toInt
      if 0 ≤ j ∧ j ≤ 63 then at_ (x.tile a) r j.toNat else 0)) ∧
    toTile (.vscanr w g d a p o) [x.tlbl a] (((List.range 16).map (fun r =>
      (List.range 6).foldl (fun y k => scanStepRow (redOp o) k y) (row r))).flatten.map (fun v => v.getD 0)) ∧
    (∃ t l, exec (.vtr4 w g dq aq) s = .next t ∧ EngineDone c .X w g (nextEng (s.core c) .X) s t ∧
      l = (joinAll (dieOf c) (s.core c).id.pid ((List.range 4).map (fun k => x.tlbl (quadTile aq k))) s).1 ∧
      (∀ k, k < 4 → (t.core c).xs.tile (quadTile dq k) = lanes (fun r cc => at_ (x.tile (quadTile aq (cc / 16))) (cc % 16) (16 * k + r)) ∧
        (t.core c).xs.tlbl (quadTile dq k) = l) ∧
      (∀ v, v.toNat / 4 ≠ dq.toNat → (t.core c).xs.tile v = x.tile v ∧ (t.core c).xs.tlbl v = x.tlbl v) ∧
      (t.core c).xs = { x with vt := (t.core c).xs.vt, vtl := (t.core c).xs.vtl })

/-- Results for C registers (R182, R183, R229): `vtree` and `hist.rd` leave x[d] pending with the value in flight, the tree
over the active lanes or its identity, the counter zero-extended (cleared by `hist.rd.clr`); the delivery writes it with its
label. -/
def Obligations.ResultsForC : Prop :=
  (∀ (s : State) (c : CoreId) (w g : BitVec 3) (a : BitVec 5) (m o : BitVec 3) (d : BitVec 6) (kk : BitVec 1), Startable s c .X w g →
    let x := (s.core c).xs
    let act := if kk = 1 then (List.range 1024).map (fun i => (x.mask m).getLsbD i) else List.replicate 1024 true
    let v := (treeReduce (redOp o) 10 ((act.zip (x.tile a)).map (fun q => if q.1 then some q.2 else none))).getD (redId o)
    let l := (joinAll (dieOf c) (s.core c).id.pid ([x.tlbl a] ++ if kk = 1 then [x.mlbl m] else []) s).1
    ∃ t, exec (.vtree w g a kk m o d) s = .next t ∧
      EngineStarted c .X w g (.vtree d (if o.toNat < 3 then v.setWidth 64 else v.signExtend 64) l) s t ∧ KeepsUnits (s.core c) (t.core c) ∧
      KeepsX (s.core c) (t.core c) ∧ (t.core c).pend = (s.core c).pend ++
        (if d = 0 then [] else [{ reg := d, src := .vtree, val := none, lbl := l, seq := none }])) ∧
  (∀ (s : State) (c : CoreId) (w g : BitVec 3) (h : BitVec 4) (k : BitVec 5) (d : BitVec 6), Startable s c .S w g →
    let hd := (s.core c).ss.handle h
    ∀ q ∈ [(Instr.histRd w g h k d, (s.core c).ss), (.histRdClr w g h k d, (s.core c).ss.setHandle h { hd with ctr := wr hd.ctr (i5 k) 0 })],
      ∃ t, exec q.1 s = .next t ∧ EngineStarted c .S w g (.hist d ((rd hd.ctr (i5 k)).setWidth 64) hd.lbl) s t ∧ (t.core c).ss = q.2 ∧
        (t.core c).ls = (s.core c).ls ∧ (t.core c).xs = (s.core c).xs ∧ KeepsX (s.core c) (t.core c) ∧
        (t.core c).pend = (s.core c).pend ++ (if d = 0 then [] else [{ reg := d, src := .histRd, val := none, lbl := hd.lbl, seq := none }])) ∧
  (∀ (s : State) (c : CoreId) (d : BitVec 6) (v : Word) (l : Label) (st : Strand) (p : Pend) (ps : List Page), p.reg = d →
    ∀ q ∈ [(Instr.vtreeDelivery c, Rest.vtree d v l, PendSrc.vtree), (.histRdDelivery c, .hist d v l, .histRd)],
      (s.core c).flights = [{ st := st, rest := q.2.1, gives := [], pages := ps }] → p.src = q.2.2 → (s.core c).pend = [p] →
      ∃ t, exec q.1 s = .next t ∧ OnlyCore c s t ∧ SetsX (s.core c) (t.core c) d v l ∧ (t.core c).flights = [] ∧ (t.core c).pend = [] ∧
        t.core c = { s.core c with x := (t.core c).x, xl := (t.core c).xl, pend := [], flights := [] })

/-- Scan set-up (R199, R201) and slot movement (R206): a legal image and scan word configure UP and empty the running and tree
records, an illegal one traps with no effect; masks are bound and unbound; blocks and flags move between slots, tiles and
masks, an empty block reading as its identity component, +0 in OFF. -/
def Obligations.ScanSetup : Prop :=
  ∀ (s : State) (c : CoreId) (w g : BitVec 3) (a : BitVec 5) (sr n : BitVec 4) (m f : BitVec 3), Startable s c .X w g →
    let x := (s.core c).xs
    let v := (rd (s.core c).xe.n (i4 sr)).toNat
    let img := (((rd x.vt (i5 a)).take 16).map (fun u => natBytes 4 u.toNat)).flatten
    let lcc := bits v 0 4
    let ml := bits v 4 3
    let tb := bits v 7 4
    let rs := bits v 11 4
    let fitsIn (p : Prog) : Prop := lcc ≤ 8 ∧ ml ≠ 7 ∧ tb + (2 ^ ml * p.w + 7) / 8 ≤ 16 ∧ ¬ (tb ≤ rs ∧ rs < tb + (2 ^ ml * p.w + 7) / 8)
    let sl := rd x.ss (i4 n)
    let ident : Word32 := if x.scan.st = 0 then 0 else ((parseImg x.scan.img).map (fun p => p.ids.getD (f.toNat % p.w) 0)).getD 0
    (∀ p, parseImg img = some p → fitsIn p → ∃ t, exec (.scanCfg w g a sr) s = .next t ∧ EngineDone c .X w g (nextEng (s.core c) .X) s t ∧
      let y := (t.core c).xs
      let ctl : ScanCtl := { x.scan with
        st := 1, img := img, lcc := BitVec.ofNat 4 lcc, mlog := BitVec.ofNat 3 ml, tb := BitVec.ofNat 4 tb, rs := BitVec.ofNat 4 rs,
        posI := 0, posJ := 0, clbl := rd x.vtl (i5 a) }
      y = { x with ss := y.ss, scan := ctl } ∧
      (∀ k, y.slot k = { x.slot k with empty := (y.slot k).empty }) ∧ (y.slot (BitVec.ofNat 4 rs)).get 0 p.w = none ∧
      (∀ r, r < 2 ^ ml → (y.slot (BitVec.ofNat 4 (tb + r * p.w / 8))).get (r * p.w % 8) p.w = none)) ∧
    (parseImg img = none ∨ (∃ p, parseImg img = some p ∧ ¬ fitsIn p) →
      EngineTraps c .X (.scanCfg w g a sr) cILLEGAL (wordOf (.scanCfg w g a sr)) s) ∧
    XResult c (.scanSeg w g m f) w g [] (fun _ => { x with scan := { x.scan with segOn := true, segIn := m, segOut := f } }) s ∧
    XResult c (.scanSegOff w g) w g [] (fun _ => { x with scan := { x.scan with segOn := false, segIn := 0, segOut := 0 } }) s ∧
    XResult c (.ssLd w g n a f) w g [sl.lbl, rd x.vtl (i5 a)] (fun l => { x with ss := wr x.ss (i4 n) { sl with
      blocks := wr sl.blocks (i3 f) (rd x.vt (i5 a)), empty := sl.empty &&& ~~~(BitVec.ofNat 8 (2 ^ f.toNat)), lbl := l } }) s ∧
    XResult c (.ssLdF w g n m f) w g [sl.lbl, rd x.vml (i3 m)] (fun l => { x with ss := wr x.ss (i4 n) { sl with
      flags := wr sl.flags (i3 f) (rd x.vm (i3 m)), lbl := l } }) s ∧
    XResult c (.ssSt w g a n f) w g [sl.lbl, x.scan.clbl] (fun l => { x with
      vt := wr x.vt (i5 a) (if sl.empty.getLsbD f.toNat then List.replicate 1024 ident else rd sl.blocks (i3 f)), vtl := wr x.vtl (i5 a) l }) s ∧
    XResult c (.ssStF w g m n f) w g [sl.lbl, x.scan.clbl] (fun l => { x with
      vm := wr x.vm (i3 m) (if sl.empty.getLsbD f.toNat then 0 else rd sl.flags (i3 f)), vml := wr x.vml (i3 m) l }) s ∧
    XResult c (.ssZero w g n) w g [] (fun _ => { x with ss := wr x.ss (i4 n) Slot.reset }) s

/-- Local scans (R199, R202, R203, R205): in UP `scan.loc` folds a token into the running record, `.out` writing the prefix; at
a chunk's end the running record becomes the chunk's tree record and empties. In DOWN `.fin` and `scan.app` apply the tree
record's carry. `scan.step` folds into a slot. In OFF, whatever the image, all of them are illegal; so is each of the others in another state or past
the last chunk, and each of all on a misaligned source or destination tile. -/
def Obligations.LocalScans : Prop :=
  ∀ (s : State) (c : CoreId) (w g : BitVec 3) (d a : BitVec 5) (n : BitVec 4), Startable s c .X w g →
    let x := (s.core c).xs
    let sc := x.scan
    (sc.st = 0 → ∀ i ∈ [Instr.scanLocAgg w g a, .scanLocOut w g d a, .scanLocFin w g d a, .scanApp w g d a, .scanStep w g d a n],
      EngineTraps c .X i cILLEGAL (wordOf i) s) ∧
    ∀ p, parseImg sc.img = some p →
    let fitsTile (r : BitVec 5) : Prop := r.toNat % p.w = 0 ∧ r.toNat + p.w ≤ 32
    let token (m : BitVec 3) : ScanRec := some ((List.range p.w).map (fun k => x.tile (a + BitVec.ofNat 5 k)), if sc.segOn then x.mask m else 0)
    let q : BitVec 4 := BitVec.ofNat 4 (sc.tb.toNat + sc.posJ * p.w / 8)
    let b := sc.posJ * p.w % 8
    let run := comb p ((x.slot sc.rs).get 0 p.w) (token sc.segIn)
    let tree := (x.slot q).get b p.w
    let last : Bool := decide (2 ^ (sc.lcc.toNat + 4) ≤ sc.posI + 1)
    let moved : ScanCtl := if last then { sc with posI := 0, posJ := sc.posJ + 1 } else { sc with posI := sc.posI + 1 }
    let ran (i : Instr) (t : State) : Prop := exec i s = .next t ∧ EngineDone c .X w g (nextEng (s.core c) .X) s t ∧
      (t.core c).ls = (s.core c).ls ∧ (t.core c).ss = (s.core c).ss
    let writes (t : State) (out : ScanRec) : Prop := ∀ cs fl, out = some (cs, fl) → ∀ k, k < p.w →
      (t.core c).xs.tile (d + BitVec.ofNat 5 k) = cs.getD k []
    let folded (t : State) (keepsTree : Bool) : Prop := (t.core c).xs.scan = moved ∧
      (last = false → ((t.core c).xs.slot sc.rs).get 0 p.w = run) ∧
      (q ≠ sc.rs → last = true → ((t.core c).xs.slot sc.rs).get 0 p.w = none ∧
        ((t.core c).xs.slot q).get b p.w = if keepsTree then tree else run) ∧
      (∀ k, k ≠ q → k ≠ sc.rs → (t.core c).xs.slot k = x.slot k)
    (sc.st = 1 → sc.posJ < 2 ^ sc.mlog.toNat → fitsTile a →
      (∃ t, ran (.scanLocAgg w g a) t ∧ folded t false ∧ (t.core c).xs = { x with ss := (t.core c).xs.ss, scan := moved }) ∧
      (fitsTile d → ∃ t, ran (.scanLocOut w g d a) t ∧ folded t false ∧ writes t run ∧
        (sc.segOn = true → ∀ cs fl, run = some (cs, fl) → (t.core c).xs.mask sc.segOut = fl) ∧
        (∀ v : BitVec 5, v.toNat < d.toNat ∨ d.toNat + p.w ≤ v.toNat → (t.core c).xs.tile v = x.tile v))) ∧
    (sc.st = 2 → sc.posJ < 2 ^ sc.mlog.toNat → fitsTile a → fitsTile d →
      (∃ t, ran (.scanLocFin w g d a) t ∧ folded t true ∧ writes t (comb p tree run)) ∧
      (∃ t, ran (.scanApp w g d a) t ∧ (t.core c).xs.scan = moved ∧ (t.core c).xs.ss = x.ss ∧ writes t (comb p tree (token sc.segOut)))) ∧
    (sc.st ≠ 0 → fitsTile a → fitsTile d → ∃ t, ran (.scanStep w g d a n) t ∧
      let r := comb p ((x.slot n).get 0 p.w) (token sc.segIn)
      ((t.core c).xs.slot n).get 0 p.w = r ∧ writes t r ∧ (t.core c).xs.scan = sc ∧ (∀ k, k ≠ n → (t.core c).xs.slot k = x.slot k)) ∧
    (∀ i ∈ [Instr.scanLocAgg w g a, .scanLocOut w g d a], sc.st ≠ 1 ∨ 2 ^ sc.mlog.toNat ≤ sc.posJ ∨ ¬ fitsTile a →
      EngineTraps c .X i cILLEGAL (wordOf i) s) ∧
    (∀ i ∈ [Instr.scanLocFin w g d a, .scanApp w g d a], sc.st ≠ 2 ∨ 2 ^ sc.mlog.toNat ≤ sc.posJ ∨ ¬ fitsTile a →
      EngineTraps c .X i cILLEGAL (wordOf i) s) ∧
    (∀ i ∈ [Instr.scanLocOut w g d a, .scanLocFin w g d a, .scanApp w g d a, .scanStep w g d a n], ¬ fitsTile d →
      EngineTraps c .X i cILLEGAL (wordOf i) s) ∧
    (¬ fitsTile a → EngineTraps c .X (.scanStep w g d a n) cILLEGAL (wordOf (.scanStep w g d a n)) s)

/-- `scan.net` (R199, R204): in UP it waits, its tokens still in their queues until its commit, which is the model's reading of R134 and R204
(log entry 43, DEDUCED); elsewhere it is illegal. In a domain of one
task with one record, the sweep's end gives the tree record the initial carry, empties the running record, counts the sweep, goes to
DOWN, pops the instruction's tokens and pushes its own; a gang's package counts it too. Carry packets (R211, R212, R330): an up packet of the
current sweep of its tag's gang or of the next, from rank xor 2^LVL of the partition's carry group, of a level below the rank's own, is held
once with the ingress label of its port; a duplicate of one of the last sweep is answered with the down packet that was kept; one of another
rank or level, or of an unknown tag or sweep, is discarded. What a packet brings beside its bytes, and which gang's state a package keeps,
is log entry 19 (DESIGN CHOICE), what a strand sees of a record that another writes log entry 26. -/
def Obligations.ScanNetwork : Prop :=
  ((∀ (s : State) (c : CoreId) (w g : BitVec 3) (n : BitVec 4) (xb : BitVec 1), Startable s c .X w g → (s.core c).xs.net = none →
     let q := s.part (s.core c).id.pid
     ∀ p ∈ [(Instr.scanNet w g xb, none), (.scanNetInit w g n xb, some n)],
       ((s.core c).xs.scan.st = 1 →
         (xb = 1 → (s.core c).id.level = 3 ∧ cgEn q = true ∧ ∀ l, l < cgLog q → imRoute q l ≠ none) →
         ∃ t, exec p.1 s = .next t ∧ OnlyCore c s t ∧ (t.core c).st.x = .waiting ∧ (t.core c).xe = (s.core c).xe ∧
           (t.core c).xs = { (s.core c).xs with net := some { xp := decide (xb = 1), init := p.2, pops := waitCodes .X w, gives := giveCodes .X g } } ∧
           (t.core c).tok = (s.core c).tok) ∧
       ((s.core c).xs.scan.st ≠ 1 → EngineTraps c .X p.1 cILLEGAL (wordOf p.1) s)) ∧
   (∀ (s : State) (c : CoreId) (j : Job) (p : Prog) (n0 : NetWait), s.coreJob c = some j → domainOf s j c = [c] →
     let x := (s.core c).xs
     let sc := x.scan
     let carry : ScanRec := n0.init.elim none (fun i => (x.slot i).get 0 p.w)
     x.net = some n0 → n0.xp = false → parseImg sc.img = some p → sc.mlog = 0 → sc.tb ≠ sc.rs → (s.core c).id.slot = (s.core c).id.domFirst →
     (s.core c).id.domLast = (s.core c).id.domFirst →
     ∃ t, exec (.scanNetSweepEnd c) s = .next t ∧ OnlyCoreAndJoins c s { t with parts := s.parts } ∧
       t.part j.pid = { s.part j.pid with nodes := (t.part j.pid).nodes } ∧ (∀ q, q ≠ j.pid → t.part q = s.part q) ∧
       (∃ f, (t.part j.pid).nodes = (s.part j.pid).nodes.map f ∧ ∀ n ∈ (s.part j.pid).nodes, (n.job ≠ some j.id → f n = n) ∧
         (n.job = some j.id → (f n).swn = sc.swn + 1 ∧ (f n).job = n.job ∧ (f n).tag = n.tag)) ∧ (t.core c).st.x = .issuing ∧
       (t.core c).xe = { (s.core c).xe with pc := (s.core c).xe.pc + 4 } ∧
       (t.core c).xs = { x with ss := (t.core c).xs.ss, scan := { sc with st := 2, posI := 0, posJ := 0, swn := sc.swn + 1 }, net := none } ∧
       ((t.core c).xs.slot sc.tb).get 0 p.w = carry ∧ ((t.core c).xs.slot sc.rs).get 0 p.w = none ∧
       (∀ w g, n0.pops = waitCodes .X w → n0.gives = giveCodes .X g → (∀ q ∈ n0.pops, 0 < (s.core c).tokens q) →
         MovesTokens .X w g (s.core c) (t.core c)) ∧
       (∀ k, k ≠ sc.tb → k ≠ sc.rs → (t.core c).xs.slot k = x.slot k))) ∧
  (∀ (s : State) (pid : PartId) (cp : CarryIn),
     let q := s.part pid
     let b := cp.bytes
     let l := bytesAt b 5 1 % 8
     let tag := bytesAt b 0 2
     let rank := bits q.cgctl.toNat 1 7
     let swn : BitVec 16 := BitVec.ofNat 16 (bytesAt b 2 2)
     let i := Instr.carryPacket pid cp
     let ours := bit q.cgctl.toNat 0 = true ∧ l < bits q.cgctl.toNat 8 3
     let up := bit (bytesAt b 5 1) 3 = false ∧ bytesAt b 4 1 = rank ^^^ 2 ^ l ∧ ∀ k, k ≤ l → bit rank k = false
     let h : HeldPacket := { lvl := l, swn := swn, packet := cp,
                             lbl := liveId s.labels (rd s.labels.inlbl (Fin.ofNat 19 (15 + (imRoute q l).getD 0))) }
     let same (u : KeptDown) : Prop := u.held.lvl = l ∧ u.held.swn = swn ∧ bytesAt u.held.packet.bytes 0 2 = tag
     (ours → up → (∀ u ∈ q.kept, ¬ (same u ∧ u.up = b)) → ∀ n, tagNode s q tag = some n → swn = n.swn ∨ swn = n.swn + 1 →
       ((∀ u ∈ n.ups, ¬ (u.lvl = l ∧ u.swn = swn)) → exec i s = .next (putNode pid { n with ups := h :: n.ups } s)) ∧
       ((∃ u ∈ n.ups, u.lvl = l ∧ u.swn = swn) → exec i s = .next s)) ∧
     (¬ ours → exec i s = .next s) ∧ (bytesAt b 4 1 ≠ rank ^^^ 2 ^ l → exec i s = .next s) ∧
     (bit (bytesAt b 5 1) 3 = false → (∃ k, k ≤ l ∧ bit rank k = true) → exec i s = .next s) ∧
     (ours → up → ∀ u us, q.kept = u :: us → same u → u.up = b → carryPasses s u.held.packet u.held.lbl = true →
       exec i s = .next (sendCarry pid l u.held.packet u.held.lbl s)) ∧
     (ours → up → (∀ n, tagNode s q tag = some n → swn ≠ n.swn ∧ swn ≠ n.swn + 1) →
       ((∀ u ∈ q.kept, ¬ same u) → exec i s = .next s) ∧
       (∀ u, q.kept = [u] → same u → carryPasses s u.held.packet u.held.lbl = true →
         exec i s = .next (sendCarry pid l u.held.packet u.held.lbl s))))

/-- The drain mode (R219, R220) and the handles (R229): with a legal image and no record handle `dr.mode` sets DMODE and RECH;
an unaligned literal or an illegal image traps with no effect, a record that does not suit with its handle in TVAL; `hist.cfg` sets the base and clears, `hist.clr` clears. -/
def Obligations.DrainModeAndHistograms : Prop :=
  ∀ (s : State) (c : CoreId) (w g : BitVec 3) (a h : BitVec 4) (o : BitVec 10), Startable s c .S w g →
    let e := (s.core c).s
    let ea := (e.pc + 4 * o.signExtend 64 + 16 * (rd e.n (i4 a)).setWidth 64).toNat
    let v := rd e.n (i4 a)
    let y := (s.core c).ss
    let does (i : Instr) (y' : SState) (s1 : State) : Prop := ∃ t, exec i s = .next t ∧ EngineDone c .S w g (nextEng (s.core c) .S) s1 t ∧
      (t.core c).ss = y' ∧ (t.core c).xs = (s.core c).xs ∧ (t.core c).ls = (s.core c).ls
    let legal (m hd : Nat) : Prop := m < 2 ^ 24 ∧ bits m 13 3 = 0 ∧ bits m 0 4 ≤ 8 ∧ bits m 4 3 ≤ 4 ∧ hd < 2 ^ 52 ∧ hd % 64 = 0 ∧
      (if 5 ≤ bits m 0 4 ∧ bits m 0 4 ≤ 7 then bits m 16 8 < 2 ^ fmtBits (bits m 0 4) else bits m 16 8 = 0)
    (ea % 16 ≠ 0 → EngineTraps c .S (.drMode w g a o) cILLEGAL (wordOf (.drMode w g a o)) s) ∧
    (∀ bs s1, ea % 16 = 0 → readQuiet c ea 16 s = .ok (bs, s1) → s1.core c = s.core c →
      let m := bytesAt bs 0 8
      let hd := bytesAt bs 8 8
      (legal m hd → hd = 0 → does (.drMode w g a o) { y with dmode := wd m, rech := 0 } s1) ∧
      (legal m hd → hd ≠ 0 → ∀ lr s2, readLRec (strandWho s1 c) (some (clusterOf c)) hd s1 = (.ok lr, s2) → s2.core c = s.core c →
        lrecBad lr = false → lFmt lr = bits m 0 4 → does (.drMode w g a o) { y with
          dmode := wd m, rech := wd hd, rtid := BitVec.ofNat 32 (lTid lr), rd0 := BitVec.ofNat 32 (lDim lr 0), rbase := wd (lBase lr) } s2) ∧
      (legal m hd → hd ≠ 0 → ∀ lr s2, readLRec (strandWho s1 c) (some (clusterOf c)) hd s1 = (.ok lr, s2) →
        lrecBad lr = true ∨ lFmt lr ≠ bits m 0 4 → exec (.drMode w g a o) s = .next (trapEng c .S cILLEGAL 0 (wd hd) s2)) ∧
      (¬ legal m hd → exec (.drMode w g a o) s = .next (trapEng c .S cILLEGAL 0 (wordOf (.drMode w g a o)) s1))) ∧
    (-256 ≤ v.toInt ∧ v.toInt ≤ 255 → does (.histCfg w g h a)
      { y with hist := wr y.hist (i4 h) { base := v, ctr := Vector.replicate 32 0, lbl := 0 } } s) ∧
    (¬ (-256 ≤ v.toInt ∧ v.toInt ≤ 255) → EngineTraps c .S (.histCfg w g h a) cILLEGAL (wordOf (.histCfg w g h a)) s) ∧
    does (.histClr w g h) { y with hist := wr y.hist (i4 h) { base := (rd y.hist (i4 h)).base, ctr := Vector.replicate 32 0, lbl := 0 } } s

/-- Drains and raw stores run (R222 to R225): past its checks, its translation and, under SR, its key lookup, the block's rows
are stored, packed in the destination format by the drain mode's rounding, counted where HEN says so, and POS moves on. A
failed check traps with no effect (KTID and KSTEP are read once, as they stand or, where a write to them is not ordered with the drain, as a
pair that R48 allows), `.all` of a region J that is not 0 among them; a replaced key traps with SRKEY and the old base. With
no matrix instruction in flight that writes it, an accumulator is read as it stands; else as R162 lets it be seen (log entry 26). -/
def Obligations.DrainsRun : Prop :=
  ∀ (s s1 s3 : State) (c : CoreId) (w g : BitVec 3) (k a : BitVec 5) (ac : BitVec 2) (j : BitVec 4) (n h : BitVec 1)
    (wh : Who) (ps : List (List Piece)), Startable s c .S w g →
    let kk := s.core c
    let d := rd kk.ls.sd (i5 k)
    let y := kk.ss
    let cells (t : Tile) (cols r cc : Nat) : Word32 := t.getD (r * cols + cc) 0
    let aligned (fmtW : Nat) : Prop := ∀ r, r < d.brows → (fmtW = 16 → (d.codeRun r).1 % 2 = 0) ∧ (fmtW = 32 → (d.codeRun r).1 % 4 = 0)
    let keys := readKeys c s1
    let tid := if y.rech ≠ 0 ∧ y.rtid ≠ 0 then y.rtid else keys.1.1
    let step := keys.1.2
    let look := keyLookup y.keys tid step (if y.rech ≠ 0 then y.rbase else wd d.base)
    let s2 : State := if y.rm = 4 then keys.2.updCore c (fun k => { k with ss := { k.ss with keys := look.1 } }) else keys.2
    let view := accView c ac s2
    let acc := view.1.1
    let mode (r cc : Nat) : Mode := if y.rm = 4 then .sr (srgen tid step (elemC y d r cc)) else modeOf y.rm
    let block (f : Nat → Nat → Nat) : List (List Nat) := (List.range d.brows).map (fun r => (List.range d.bcols).map (fun cc => f r cc))
    let bad (maxR maxC : Nat) : Prop := d.brows = 0 ∨ maxR < d.brows ∨ maxC < d.bcols
    let finish (i : Instr) (ss' : SState) (s3 : State) : Prop := ∃ t, exec i s = .next t ∧ EngineDone c .S w g (nextEng kk .S) s3 t ∧ (t.core c).xs = kk.xs ∧
      (t.core c).ls = { kk.ls with sd := wr kk.ls.sd (i5 k) (if h = 1 then d else d.advance) } ∧ (t.core c).ss = ss'
    openBlock c d s = .ok ((wh, ps), s1) → s1.core c = kk →
    (kk.keyw = [] → keys = ((kk.csr.ktid, kk.csr.kstep), s1)) ∧ (kk.keyw ≠ [] → keys.1 ∈ keyPairs kk) ∧
    (accSeen kk ac = [] → view = ((rd kk.xs.ac (i2 ac), rd kk.xs.acl (i2 ac)), s2)) ∧
    (j ≠ 0 → EngineTraps c .S (.drAccAll w g k ⟨ac, j⟩ h) cILLEGAL (wordOf (.drAccAll w g k ⟨ac, j⟩ h)) s) ∧
    (∀ p ∈ [(Instr.drAcc w g k ac j h, 16, 64, view.1.2, view.2,
              fun r cc => f32 (cells acc 128 (16 * (j.toNat / 2) + r) (64 * (j.toNat % 2) + cc))),
            (.drAccAll w g k ⟨ac, 0⟩ h, 128, 128, view.1.2, view.2, fun r cc => f32 (cells acc 128 r cc)),
            (.drVt w g k a n h, 16, 64, rd kk.xs.vtl (i5 a), s2, fun r cc =>
              let v := cells (rd kk.xs.vt (i5 a)) 64 r cc
              if n = 1 then ofInt v.toInt else f32 v)],
      let codes := block (fun r cc => drainConv y (mode r cc) (p.2.2.2.2.2 r cc))
      let hd := rd y.hist (i4 y.hh)
      (¬ bad p.2.1 p.2.2.1 → y.fmt = d.fmt → aligned d.w → (y.rm = 4 → look.2 = none) →
        storeRows c wh (ps.zip (codes.map (packCodes d.w))) p.2.2.2.1 p.2.2.2.2.1 = .ok ((), s3) → s3.core c = s2.core c →
        let counted : Hist := { codes.flatten.foldl (fun (hd : Hist) v => hd.count (histBin y.fmt y.zp hd.base v)) hd with
          lbl := (joinAt (dieOf c) kk.id.pid hd.lbl p.2.2.2.1 s3).1 }
        (y.hen = false → finish p.1 (s2.core c).ss s3) ∧
        (y.hen = true → finish p.1 { (s2.core c).ss with hist := wr y.hist (i4 y.hh) counted } s3)) ∧
      (¬ bad p.2.1 p.2.2.1 → y.fmt = d.fmt → aligned d.w → y.rm = 4 → ∀ old, look.2 = some old →
        exec p.1 s = .next (trapEng c .S cSRKEY 0 old s2)) ∧
      (bad p.2.1 p.2.2.1 ∨ y.fmt ≠ d.fmt ∨ ¬ aligned d.w → EngineTraps c .S p.1 cILLEGAL (wordOf p.1) s)) ∧
    (¬ bad 16 64 → d.fmt = 0 ∨ d.fmt = 8 → aligned d.w →
      storeRows c wh (ps.zip ((block (fun r cc => (cells (rd kk.xs.vt (i5 a)) 64 r cc).toNat)).map (packCodes 32))) (rd kk.xs.vtl (i5 a)) s1 = .ok ((), s3) →
      s3.core c = kk → finish (.stTile w g k a h) y s3) ∧
    (bad 16 64 ∨ (d.fmt ≠ 0 ∧ d.fmt ≠ 8) ∨ ¬ aligned d.w → EngineTraps c .S (.stTile w g k a h) cILLEGAL (wordOf (.stTile w g k a h)) s)

/-- A one-row FP32 block lands in memory (R33, R222, R224): of a row that one plain access covers, the bytes at its address are
the tile's lanes, little-endian; every other byte reads as before. The stash and chunk counters (R230, R232): `st.wb` and
`st.inv` of window pages leave no dirty sector of them, `st.inv` also dropping their translations; without a window or past its
end they are illegal. `tile.done` adds one to its counter, which stays at 65,535 with its mark. -/
def Obligations.StashAndStores : Prop :=
  (∀ (s : State) (c : CoreId) (w g : BitVec 3) (k a : BitVec 5) (h : BitVec 1) (t : Tlb), CanonicalMemory s → Startable s c .S w g →
     let d := rd (s.core c).ls.sd (i5 k)
     let run := d.codeRun 0
     let lanes := (List.range d.bcols).map (fun i => ((rd (s.core c).xs.vt (i5 a)).getD i 0).toNat)
     d.brows = 1 → d.fmt = 0 ∨ d.fmt = 8 → run.1 % 4 = 0 → run.2 = 4 * d.bcols → 1 ≤ d.bcols ∧ d.bcols ≤ 16 →
     PlainAccess s c .S run.1 run.2 { rd := false, wr := true, ex := false } t →
     ∃ u, exec (.stTile w g k a h) s = .next u ∧ OnlyStore c s u ∧ Stored s u (physOf t run.1) ((lanes.map (natBytes 4)).flatten) ∧
       (u.core c).s = nextEng (s.core c) .S ∧ (u.core c).xs = (s.core c).xs ∧ KeepsX (s.core c) (u.core c)) ∧
  (∀ (s : State) (c : CoreId) (w g : BitVec 3) (a b : BitVec 4), Startable s c .S w g →
     let e := (s.core c).s
     let lo := (rd e.n (i4 a)).toNat
     let n := (rd e.n (i4 b)).toNat
     let cl := clusterOf c
     let named (f : Frame) : Prop := lo ≤ f.idx ∧ f.idx < lo + n
     let clean (t : State) (all : Bool) : Prop := ∀ l ∈ t.lines, ∀ idx, l.owner = .stash cl idx → lo ≤ idx ∧ idx < lo + n →
       all = false ∧ l.dirty = false
     ((windowOf s c).isSome = true → lo + n ≤ 1024 →
       (∃ t, exec (.stWb w g a b) s = .next t ∧ (t.core c).eng .S = nextEng (s.core c) .S ∧ clean t false ∧ t.clusters = s.clusters) ∧
       (∃ t, exec (.stInv w g a b) s = .next t ∧ (t.core c).eng .S = nextEng (s.core c) .S ∧ clean t true ∧ t.mem = s.mem ∧ t.side = s.side ∧
         (∀ f, f ∈ (t.cluster cl).frames ↔ f ∈ (s.cluster cl).frames ∧ ¬ named f) ∧ (∀ k, k ≠ cl → t.cluster k = s.cluster k))) ∧
     (¬ ((windowOf s c).isSome = true ∧ lo + n ≤ 1024) → ∀ i ∈ [Instr.stWb w g a b, .stInv w g a b], EngineTraps c .S i cILLEGAL (wordOf i) s) ∧
     (lo < 4096 → ∀ j, s.job? (s.core c).id.jobid = some j → mapWfFrom ((0 : BitVec 16), false) 0 j.chunks = true →
       ∃ t j', exec (.tileDone w g a) s = .next t ∧ (t.core c).eng .S = nextEng (s.core c) .S ∧ t.job? (s.core c).id.jobid = some j' ∧
         j' = { j with chunks := j'.chunks } ∧ (∀ m, m ≠ lo → j'.chunk m = j.chunk m) ∧
         j'.chunk lo = if (j.chunk lo).1 = 0xFFFF then (0xFFFF, true) else ((j.chunk lo).1 + 1, (j.chunk lo).2)) ∧
     (4096 ≤ lo → EngineTraps c .S (.tileDone w g a) cILLEGAL (wordOf (.tileDone w g a)) s))

/-- Packet fetch (R335, R338, R339): with a packet and a fetch slot free, a packet that passes its checks becomes the
fetched job with the lowest free id, last in order, or waits in its slot while every id is live, and HEAD rises; a check that fails, and a
fault, halt the queue with its code. A packet in a slot takes a free id before any other is fetched. An empty queue gives nothing; a packet
that lies in a poisoned sector is not delivered: HEAD stays and the fetch is tried again, which is the model's reading of R87 (log entry 21,
DEDUCED). Ready and bound (R15, R16, R19, R83, R339, R340, R344): a finished prologue makes the job
ready, a cause in it refuses the job; a bind gives its clusters to the job in task slot order, each C strand at the entry PC with x1 and x2 from the packet,
every other register 0, no engine strand started, and TBIND := TIME. In which order the IOC's agents act is log entry 24, and the copies
of the prologue log entry 32. -/
def Obligations.PacketToBind : Prop :=
  (∀ (s s1 : State) (q : QueueId) (id : JobId),
     let k := s.queue q
     (∀ x xs, s.slotted = x :: xs → x.queue = q → freeId s = some id → ∃ t j, exec (.packetFetch q) s = .next t ∧ t.slotted = xs ∧
       t.jobs = s.jobs ++ [j] ∧ j.id = id ∧ j.queue = q ∧ j.hdr = parseHeader x.bytes ∧ j.st = .fetched ∧ j.order = x.order ∧
       j.prev = x.prev ∧ t.queues = s.queues ∧ t.cores = s.cores ∧ t.mem = s.mem) ∧
     ((∀ x ∈ s.slotted, x.queue ≠ q) → k.head = k.tailv → exec (.packetFetch q) s = .next s) ∧
     ((∀ x ∈ s.slotted, x.queue ≠ q) → k.st = .run → k.head ≠ k.tailv → slotsUsed s < 256 →
       (∀ gt pro, readPacket k s = (.ok (gt, pro), s1) → gt.poison = true → exec (.packetFetch q) s = .next s1) ∧
       (∀ gt pro s2 code, readPacket k s = (.ok (gt, pro), s1) → gt.poison = false →
         packetCode (queueWho k) (s1.part k.pid) gt.bytes pro s1 = (code, s2) →
         let b := gt.bytes
         let risen (t : State) : Prop := (t.queue q).head = k.head + 1 ∧ (t.queue q).tailv = k.tailv ∧ (t.queue q).st = .run ∧
           t.cores = s2.cores ∧ t.mem = s2.mem
         (code = 0 → freeId s2 = some id → ∃ t j, exec (.packetFetch q) s = .next t ∧ t.jobs = s2.jobs ++ [j] ∧ j.id = id ∧ j.queue = q ∧
           j.pid = k.pid ∧ j.vd = k.vd ∧ j.asid = k.asid ∧ j.hdr = parseHeader b ∧ j.st = .fetched ∧ j.est = (parseHeader b).est ∧
           (∀ o ∈ s2.jobs, o.order < j.order) ∧ risen t) ∧
         (code = 0 → freeId s2 = none → ∃ t x, exec (.packetFetch q) s = .next t ∧ t.jobs = s2.jobs ∧ t.slotted = s2.slotted ++ [x] ∧
           x.queue = q ∧ x.bytes = b ∧ (∀ o ∈ s2.jobs, o.order < x.order) ∧ risen t) ∧
         (code ≠ 0 → ∃ t, exec (.packetFetch q) s = .next t ∧ (t.queue q).st = .halt ∧ (t.queue q).code = BitVec.ofNat 8 code ∧
           (t.queue q).head = k.head ∧ t.jobs = s2.jobs ∧ t.cores = s2.cores ∧ t.mem = s2.mem)) ∧
       (∀ f, readPacket k s = (.error f, s1) → f.1.poison = false → ∃ t, exec (.packetFetch q) s = .next t ∧ (t.queue q).st = .halt ∧
         (t.queue q).code = BitVec.ofNat 8 (f.1.stage * 16 + f.1.kind) ∧ (t.queue q).head = k.head ∧ t.jobs = s1.jobs))) ∧
  (∀ (s : State) (j : JobId) (job : Job), s.job? j = some job →
     (job.st = .fetched → ∀ s1, runPrologue { job.who with author := { job.who.author with kind := 1 } } job s = (none, s1) →
       exec (.prologueComplete j) s = .next (s1.updJob j (fun j => { j with st := .ready }))) ∧
     (job.st = .fetched → ∀ x s1, runPrologue { job.who with author := { job.who.author with kind := 1 } } job s = (some x, s1) →
       ∃ t, exec (.prologueComplete j) s = .next t ∧ t.job? j = none ∧ t.cores = s1.cores) ∧
     (∀ cls, job.st = .ready → mayPlace s job cls = true → ∃ t j', exec (.jobBind j cls) s = .next t ∧ t.job? j = some j' ∧
       j'.st = .bound ∧ j'.cls = cls ∧ j'.tbind = s.time ∧ j'.hdr = job.hdr ∧ t.mem = s.mem ∧
       (∀ c, clusterOf c ∉ cls → t.core c = s.core c) ∧
       ∀ p cl, cls[p]? = some cl → (t.cluster cl).job = some (j, p) ∧
         ∀ i ∈ [(coreA cl, 2 * p), (coreB cl, 2 * p + 1)],
           let k := t.core i.1
           k.job = some j ∧ k.xval 1 = job.hdr.arg0 ∧ k.xval 2 = job.hdr.arg1 ∧ (∀ r, r ≠ 1 → r ≠ 2 → k.xval r = 0) ∧ (∀ r, k.xlbl r = 0) ∧
           k.seq.pc = job.hdr.entry ∧ k.seq.n1 = job.hdr.entry + 4 ∧ k.seq.ann = 0 ∧ k.csr = Core.reset.csr ∧
           k.st = { c := .issuing, l := .notStarted, x := .notStarted, s := .notStarted } ∧ k.id.slot.toNat = i.2 ∧
           k.id.pid = job.pid ∧ k.id.asid = job.asid ∧ k.id.level = job.hdr.level ∧ k.id.phn = 0))

/-- Pre-emption (R344): a ready job that fits nowhere among the free clusters that no earlier newcomer was promised, with no earlier one to
decide, offers its tokens; where the shortest
prefix of the jobs that leave first makes room and each spent less than the offer, each is given its form and its range, and
the newcomer keeps its offer and its clusters. With no such prefix, or one of them not exceeded, nothing changes. When a newcomer is decided
upon is log entry 33. -/
def Obligations.Preemption : Prop :=
  ∀ (s : State) (j : JobId) (job : Job), s.job? j = some job → (s.jobs.map (fun k => k.id)).Nodup →
    let free := roomFor s job
    let offer := min job.hdr.ptok.toNat (jobDev s job).bkt.toNat
    let order := victims s job.hdr.urg (s.part job.pid).cssize.toNat (victimOrder s job.pid) (s.part job.pid).areas
    job.waits = true → job.offer = none → idleHolds s job = false → fits job.hdr free = false →
    (∀ k ∈ s.jobs, k.id ≠ j → k.pid = job.pid → k.waits = true → k.offer = none → k.before job = true → idleHolds s k = false →
      fits k.hdr (roomFor s k) = false ∧ newcomerPlan s k = none) →
    (∀ vs, prefixFor job.hdr order free = some vs → (∀ v ∈ vs, exceeds s job offer v.job = true) →
      ∃ t, exec (.preemptionDecision j) s = .next t ∧
        t.job? j = some { job with offer := some (offer, placeIn job.hdr (free ++ (vs.map (fun v => v.job.cls)).flatten)) } ∧
        (∀ v ∈ vs, t.job? v.job.id = some { v.job with form := some v.form, area := v.area, killDue := decide (v.form = .kill) }) ∧
        (∀ k ∈ s.jobs, k.id ≠ j → (∀ v ∈ vs, v.job.id ≠ k.id) → t.job? k.id = some k) ∧ t.cores = s.cores ∧ t.mem = s.mem) ∧
    (∀ vs, prefixFor job.hdr order free = some vs → (∃ v ∈ vs, exceeds s job offer v.job = false) →
      exec (.preemptionDecision j) s = .next s) ∧
    (prefixFor job.hdr order free = none → exec (.preemptionDecision j) s = .next s)

/-- Leaving (R345, R362): a job ordered to drain runs on until TIME + DRW µs; at the window's end, and at a checkpoint, its
strands stop; once quiet its job image stands at its range and each task image 64 KiB above it, 0x110000 apart by slot (what an image
keeps besides the bytes is log entry 8), its clusters are free and it waits. A kill ends it and frees its clusters.
Resuming, tokens and the rotation (R343, R346, R364, R368): a saved job whose images are good binds again on its clusters, its
range free; a bad image orders it killed; a refill adds WEIGHT for each microsecond of TIME since the last, up to 65,535; at QEFF's end
the rotation moves to the next member. When the dispatch unit acts is log entry 33. -/
def Obligations.LeavingAndResuming : Prop :=
  (∀ (s : State) (j : JobId) (job : Job), s.job? j = some job →
     let stopped (t : State) : Prop := (∃ j', t.job? j = some j' ∧ j'.st = .stopped) ∧
       ∀ c ∈ job.cores, ∀ st, (t.core c).st.get st ≠ .issuing ∧ (t.core c).st.get st ≠ .waiting
     (job.st = .bound → job.form = some .drain → exec (.drain j) s =
       .next (s.updJob j (fun k => { k with st := .draining (s.time + wd ((rd (s.part job.pid).vdevs (i3 job.vd)).drw.toNat * 1000)) }))) ∧
     (∀ u, job.st = .draining u → u.toNat ≤ s.time.toNat → ∃ t, exec (.drainWindowExpiry j) s = .next t ∧ stopped t ∧ t.mem = s.mem) ∧
     (∀ u, job.st = .draining u → s.time.toNat < u.toNat → exec (.drainWindowExpiry j) s = .next s) ∧
     (job.st = .bound → job.form = some .checkpoint → ∃ t, exec (.checkpoint j) s = .next t ∧ stopped t) ∧
     (∀ a, job.st = .stopped → job.killDue = false → job.form = some .checkpoint → job.area = some a →
       ∃ t j', exec (.contextSaved j) s = .next t ∧ t.job? j = some j' ∧ j'.st = .saved ∧ j'.cls = [] ∧ j'.form = none ∧ j'.area = some a ∧
         (∀ cl ∈ job.cls, (t.cluster cl).job = none ∧ (t.core (coreA cl)).job = none ∧ (t.core (coreB cl)).job = none) ∧
         (s.lines = [] →
           let s1 := job.cls.foldl (fun (s : State) cl => flushStash cl s) (job.cores.foldl (fun (s : State) c => stopTask c (withdrawNet c s)) s)
           let base := (s.part job.pid).csbase.toNat + a.1 * 65536
           let recs := s1.colls.filter (fun p => p.job == j)
           let s2 := (physWrite (iocAuthor job) 0 base (assemble 0x10000 0 (jobAreas job (BitVec.ofNat 32 (remaining s job)).toNat recs)) s1).2
           t.mem = ((imagesOf s1 job).foldl (fun (s : State) im => (physWrite (iocAuthor job) 0 (base + 0x10000 + im.slot.toNat * 0x110000)
             (assemble 0x110000 0 (taskAreas im false s.time)) s).2) s2).mem)) ∧
     (job.killDue = true → ∃ t, exec (.kill j) s = .next t ∧ t.job? j = none ∧
       ∀ cl ∈ job.cls, (t.cluster cl).job = none ∧ (t.core (coreA cl)).job = none ∧ (t.core (coreB cl)).job = none) ∧
     (job.killDue = false → exec (.kill j) s = .next s)) ∧
  ((∀ (s s1 : State) (j : JobId) (job : Job) (cls : List ClusterId) (a : Nat × Nat) (r : Restored), s.job? j = some job → job.st = .saved →
     job.area = some a → mayPlace s job cls = true → readImages job (areaBase (s.part job.pid) a) s = (r, s1) → r.job.id = j → s1.jobs = s.jobs →
     (r.bad = none → r.poison = false → ∃ t j', exec (.jobResume j cls) s = .next t ∧ t.job? j = some j' ∧ j'.st = .bound ∧ j'.cls = cls ∧
       j'.area = none ∧ j'.images = []) ∧
     (r.bad = none → r.poison = true → exec (.jobResume j cls) s = .next (s1.updJob j (fun k => { k with killDue := true }))) ∧
     (∀ x, r.bad = some x → ∃ t, exec (.jobResume j cls) s = .next t ∧ t.job? j = some { job with killDue := true } ∧ t.cores = s1.cores)) ∧
   (∀ s : State,
     let n := (s.time.toNat - s.refillAt.toNat) / 1000
     ∃ t, exec .bucketRefill s = .next t ∧ t = { s with parts := t.parts, refillAt := s.refillAt + wd (1000 * n) } ∧ ∀ p v,
     t.part p = { s.part p with vdevs := (t.part p).vdevs } ∧
     rd (t.part p).vdevs v = { rd (s.part p).vdevs v with
       bkt := BitVec.ofNat 16 (min ((rd (s.part p).vdevs v).bkt.toNat + n * (rd (s.part p).vdevs v).weight.toNat) 65535) }) ∧
   (∀ (s : State) (p : PartId),
     let q := s.part p
     let member (v : BitVec 3) : Prop := (rd q.vdevs (i3 v)).en = true ∧ (rd q.vdevs (i3 v)).weight ≠ 0
     (¬ member q.rot ∨ q.rotAt.toNat + (rd q.vdevs (i3 q.rot)).qeff.toNat * 1000 ≤ s.time.toNat →
       (∀ v, member v → q.rot.toNat < v.toNat → (∀ u, member u → q.rot.toNat < u.toNat → v.toNat ≤ u.toNat) →
         exec (.quantumEnd p) s = .next (s.updPart p (fun q => { q with rot := v, rotAt := s.time }))) ∧
       (∀ v, member v → (∀ u, member u → u.toNat ≤ q.rot.toNat) → (∀ u, member u → v.toNat ≤ u.toNat) →
         exec (.quantumEnd p) s = .next (s.updPart p (fun q => { q with rot := v, rotAt := s.time })))) ∧
     (member q.rot → s.time.toNat < q.rotAt.toNat + (rd q.vdevs (i3 q.rot)).qeff.toNat * 1000 → exec (.quantumEnd p) s = .next s) ∧
     ((∀ v, ¬ member v) → exec (.quantumEnd p) s = .next s)))

/-- Requests from outside (R85, R310, R311, R332): a forwarded packet enters the ring of a rack queue that takes it; a UALink
request that does not name the package is answered with an error and changes nothing; a read is answered with the bytes when
the gate passes their labels, an atomic with the old value after its write; an answer over a link that is down waits. A packet that its
queue's address space does not take halts the queue. What the model fixes of requests and answers is log entry 35. Links (R331): a flit with a good CRC that is the
next in order and finds a buffer is accepted and acknowledged; another is discarded; what it acknowledges leaves the window. A
replay starts at the oldest flit not acknowledged; after 16 without progress the link is down. -/
def Obligations.Fabrics : Prop :=
  ((∀ (s s2 : State) (q : QueueId) (b : List Byte) (d : WroteTo),
     let k := s.queue q
     let n := Config.freeNat s.freeCtr
     let takes := b.length = 128 ∧ k.rack = true ∧ k.dev = false ∧ (k.st = .run ∨ k.st = .halt) ∧ (k.tailv - k.head).toNat < 2 ^ k.log2n
     (takes → writeVirt (queueWho k) (k.slotVa k.tailv) b (rd s.labels.inlbl (if n % 2 = 0 then 1 else 13)) { s with freeCtr := s.freeCtr + 1 }
         = (.ok d, s2) →
       exec (.rackLaunchPacket q b) s = .next (s2.setQueue { k with tailv := k.tailv + 1 })) ∧
     (takes → ∀ f, writeVirt (queueWho k) (k.slotVa k.tailv) b (rd s.labels.inlbl (if n % 2 = 0 then 1 else 13))
         { s with freeCtr := s.freeCtr + 1 } = (.error f, s2) → f.1.poison = false →
       ∃ t, exec (.rackLaunchPacket q b) s = .next t ∧ (t.queue q).st = .halt ∧ (t.queue q).code = BitVec.ofNat 8 (f.1.stage * 16 + f.1.kind) ∧
         (t.queue q).tailv = k.tailv ∧ t.jobs = s2.jobs) ∧
     (¬ takes → exec (.rackLaunchPacket q b) s = .next s)) ∧
   (∀ (s s1 : State) (r : UalReq) (g : PhysGot),
     let named := bit s.ualnum.toNat 7 = true ∧ bits s.ualnum.toNat 0 7 = r.num.toNat
     let answer (d : Option (List Byte)) (s : State) : State :=
       if (rd s.links r.port).down then { s with waiting := s.waiting ++ [(r.port.val, OutMsg.ualResp r.port d)] }
       else { s with out := s.out ++ [OutMsg.ualResp r.port d] }
     let a : Author := { kind := 5, clu := r.src.toNat, slot := r.port.val, job := 0 }
     let lbl := rd s.labels.inlbl r.port
     (¬ named → exec (.ualinkRequest r) s = .next (answer none s)) ∧
     (∀ n, named → r.op = .read n → r.addr.toNat + n ≤ 2 ^ 39 → physRead r.addr.toNat n s = (g, s1) → g.poison = false →
       gatePasses s1 1 g.lbls = true → exec (.ualinkRequest r) s = .next (answer (some g.bytes) s1)) ∧
     (∀ bs, named → r.op = .write bs → r.addr.toNat + bs.length ≤ 2 ^ 39 →
       exec (.ualinkRequest r) s = .next (answer (some []) (physWrite a lbl r.addr.toNat bs s).2)) ∧
     (∀ v, named → r.op = .amoAdd v → r.addr.toNat + 8 ≤ 2 ^ 39 → r.addr.toNat % 8 = 0 → physRead r.addr.toNat 8 s = (g, s1) →
       g.poison = false → let s2 := (physWrite a lbl r.addr.toNat (natBytes 8 (wd (leNat g.bytes) + v).toNat) s1).2
       gatePasses s2 1 g.lbls = true → exec (.ualinkRequest r) s = .next (answer (some g.bytes) s2)) ∧
     (∀ v, r.op = .amoAdd v ∨ r.op = .amoSwap v → r.addr.toNat % 8 ≠ 0 → exec (.ualinkRequest r) s = .next (answer none s)))) ∧
  (∀ (s : State) (f : Flit) (p : Port),
     let l := s.link f.port
     let rest := l.window.filter (fun n => decide (f.ack ≤ n))
     let l1 : Link := if rest.length < l.window.length then { l with window := rest, replays := 0 } else l
     (f.crcOk = false → exec (.flitReceive f) s = .next s) ∧
     (f.crcOk = true → f.bufFree = true → f.seq = l.rxSeq → exec (.flitReceive f) s =
       .next { s with links := wr s.links f.port { l1 with rxSeq := l.rxSeq + 1 }, out := s.out ++ [OutMsg.flitAck f.port (l.rxSeq + 1)] }) ∧
     (f.crcOk = true → f.bufFree = false ∨ f.seq ≠ l.rxSeq → exec (.flitReceive f) s = .next { s with links := wr s.links f.port l1 }) ∧
     (∀ n ns, (s.link p).window = n :: ns → (s.link p).down = false → exec (.flitReplay p) s =
       .next { s with links := wr s.links p { s.link p with replays := (s.link p).replays + 1 }, out := s.out ++ [OutMsg.flitReplay p n] }) ∧
     (16 ≤ (s.link p).replays → exec (.linkDown p) s = .next { s with links := wr s.links p { s.link p with down := true } }) ∧
     ((s.link p).replays < 16 → exec (.linkDown p) s = .next s))

/-- The memory side (R89, R109, R341): an epoch rewrite changes side bands only and no byte that a read returns; a sector with
a side band then has the current epoch or the one before it with label 0. A written-back line leaves its L1 and every byte
byte reads as before; each budget window, one for each microsecond of TIME, takes its limit off what was used. That the windows are
aligned to the microseconds of TIME, and that use beyond one counts in the next, is log entry 47; what a cache keeps of memory
outside the partition is log entry 22, how slices and labels are addressed log entry 36, that a host read outside the partitions records no
discard log entry 38 (all the model's readings). Host memory (R312, R372): a read inside partitions returns the bytes
whose labels the gate passes, and an error without their data where it denies them; outside it is unsupported. A write inside
one sector of a partition stores its bytes and nothing else; outside it is discarded. -/
def Obligations.MemorySide : Prop :=
  ((∀ (s : State) (k : Fin 32), CanonicalMemory s → ∃ t, exec (.epochRewrite k) s = .next t ∧ t = { s with side := t.side } ∧ MemorySame s t ∧
     ∀ n, paLocal (n * 64) = true → sliceOf s (n * 64) = k → (t.sideAt n).epoch ≠ (s.slice k).epoch → (s.sideAt n) ≠ Side.none →
       (t.sideAt n).epoch = (s.slice k).epoch - 1 ∧ (t.sideAt n).lbl = 0) ∧
   (∀ (s : State) (c : CoreId) (l : Line), CanonicalMemory s → s.line? l.sector = some l → (∃ a v, l.owner = .l1 c a v) → l.bytes.length = 64 →
     paLocal (l.sector * 64) = true → ∃ t, exec (.l1Writeback c l.sector) s = .next t ∧ t.line? l.sector = none ∧ MemorySame s t) ∧
   (∀ s : State, ∃ t, exec .hostLinkBudgetWindow s = .next t ∧ t = { s with parts := t.parts } ∧
     ∀ p, let q := s.part p
       let left (limit used : Nat) : Nat := if limit = 0 then 0 else used - (s.time.toNat / 1000 - q.hlWin) * limit
       t.part p = { q with hlWin := s.time.toNat / 1000, hlUsed :=
         (left (bits q.hlbud.toNat 0 16) q.hlUsed.1, left (bits q.hlbud.toNat 16 16) q.hlUsed.2.1, left (bits q.hlbud.toNat 32 16) q.hlUsed.2.2) })) ∧
  (∀ (s s1 : State) (off : BitVec 39) (n : Nat) (bs : List Byte) (g : PhysGot),
     let pa := off.toNat
     (inPartitions s pa n = false → exec (.hostMemoryRead off n) s = .next { s with out := s.out ++ [OutMsg.hostRead none] }) ∧
     (inPartitions s pa n = true → physRead pa n s = (g, s1) → g.poison = false → (rd s1.links 0).down = false →
       (gatePasses s1 0 g.lbls = true →
         exec (.hostMemoryRead off n) s = .next { s1 with out := s1.out ++ [OutMsg.hostRead (some g.bytes)] }) ∧
       (gatePasses s1 0 g.lbls = false → ∃ t o, exec (.hostMemoryRead off n) s = .next t ∧ t.out = o ++ [OutMsg.hostRead none] ∧
         t.mem = s1.mem ∧ t.labels.relcnt = (if s1.labels.relcnt = BitVec.allOnes 32 then s1.labels.relcnt else s1.labels.relcnt + 1))) ∧
     (inPartitions s pa bs.length = false → ∃ t, exec (.hostMemoryWrite off bs) s = .next t ∧ t.mem = s.mem ∧ t.side = s.side ∧
       t.hpcnt = if s.hpcnt = BitVec.allOnes 32 then s.hpcnt else s.hpcnt + 1) ∧
     (inPartitions s pa bs.length = true → CanonicalMemory s → bs ≠ [] → pa % 64 + bs.length ≤ 64 → s.line? (pa / 64) = none →
       (∀ k i, bit (rd (s.slice k).ws i).ctl.toNat 0 = false) → (∀ cl, ∀ f ∈ (s.cluster cl).frames, f.ppage ≠ pa / 64 / 64) →
       ∃ t, exec (.hostMemoryWrite off bs) s = .next t ∧ Stored s t pa bs ∧ t.cores = s.cores ∧ t.jobs = s.jobs))

/-- Host register writes (R6, R371, R373, R375, R377): in READY a write of MBADDR or TIME takes effect; an unaligned write, a
reserved bit, a TIME that would step back, and any write before READY are discarded: the first is latched in HPREC, each is
counted. TIME's jump is no time for the token buckets, which log entry 4 fixes. A 1 written to a VALID bit clears it (R108, R248, R314,
R352, R373): of WSREC with WSOVF, of RACEREC, the release drop, the unhandled trap's three registers, of HPREC with HPCNT; a 0 clears LOST (R347). Nothing else changes. Partitions, devices and task
interrupts (R341, R343, R354): a legal PSL takes effect, a partition that becomes enabled getting a new epoch on each of its
slices; one that R341 refuses is discarded. VDQ is judged into EN, QEFF and QST. TINTR sets PEND and CODE of a core that holds
a task and has none pending, in its place among the traps that wait. What the model fixes of registers and their records is log entries
37, 38, 43 and 49. -/
def Obligations.HostRegisters : Prop :=
  (∀ (s : State) (off : BitVec 26) (size : Nat) (v : Word),
     let drop (kind off : Nat) : State := { s with
       hprec := if bit s.hprec.toNat 63 then s.hprec else wd (2 ^ 63 + kind * 2 ^ 60 + off),
       hpcnt := if s.hpcnt = BitVec.allOnes 32 then s.hpcnt else s.hpcnt + 1 }
     ((size ≠ 4 ∧ size ≠ 8) ∨ off.toNat % size ≠ 0 → exec (.hostRegisterWrite off size v) s = .next (drop 3 off.toNat)) ∧
     (s.boot.st = .ready →
       (v &&& ~~~(wd ((2 ^ 36 - 1) * 2 ^ 12)) = 0 →
         exec (.hostRegisterWrite 0x1000 8 v) s = .next { s with boot := { s.boot with mbaddr := v } }) ∧
       (v &&& ~~~(wd ((2 ^ 36 - 1) * 2 ^ 12)) ≠ 0 → exec (.hostRegisterWrite 0x1000 8 v) s = .next (drop 1 0x1000)) ∧
       exec (.hostRegisterWrite 0x2000 8 v) s = .next (drop 3 0x2000) ∧
       (s.time.toNat ≤ v.toNat → exec (.timeset v) s = .next { s with time := v, refillAt := s.refillAt + (v - s.time) }) ∧
       (v.toNat < s.time.toNat → exec (.timeset v) s = .next (drop 2 0x020))) ∧
     (s.boot.st ≠ .ready → exec (.hostRegisterWrite 0x1000 8 v) s = .next (drop 2 0x1000) ∧ exec (.timeset v) s = .next (drop 2 0x020))) ∧
  (∀ s : State, s.boot.st = .ready →
     exec .hprecValidClear s = .next { s with hprec := s.hprec &&& ~~~(wd (2 ^ 63)), hpcnt := 0 } ∧
     exec .relrecValidClear s = .next { s with labels := { s.labels with relrec := 0 } } ∧
     (∀ k, exec (.wsrecValidClear k) s = .next (s.updSlice k (fun q => { q with wsrec := q.wsrec &&& ~~~(wd (2 ^ 63)), wsovf := 0 }))) ∧
     (∀ c, exec (.racepaValidClear c) s = .next (s.updCore c (fun k => { k with dbg := { k.dbg with
       racerec := 0, racepa := k.dbg.racepa &&& ~~~(wd (2 ^ 63)) } }))) ∧
     (∀ p, exec (.ftrecValidClear p) s = .next (s.updPart p (fun q => { q with ftrec0 := 0, ftrec1 := 0, ftrec2 := 0 }))) ∧
     (∀ p, exec (.lostClear p) s = .next (s.updPart p (fun q => { q with lost := 0 })))) ∧
  (∀ (s : State) (p : PartId) (c : CoreId) (vd : BitVec 3) (v : Word), s.boot.st = .ready →
     let q : Part := { s.part p with psl := v }
     let dev := rd (s.part p).vdevs (i3 vd)
     let qreq := bits v.toNat 0 32
     let base : VDev := { dev with weight := BitVec.ofNat 16 (bits v.toNat 32 16), qreq := BitVec.ofNat 32 qreq }
     let becomes (d : VDev) : Prop := exec (.vdq p vd v) s = .next (s.updPart p (fun q => { q with vdevs := wr q.vdevs (i3 vd) d }))
     (v &&& ~~~(wd (2 ^ 63 + 7 * 2 ^ 8 + 31)) = 0 →
       (partRefused s p q = false → ∃ t, exec (.psl p v) s = .next t ∧ (t.part p).psl = v ∧ t.jobs = s.jobs ∧
         (q.enabled = true → (s.part p).enabled = false → ∀ k ∈ q.sliceIds, (t.slice k).epoch = (s.slice k).epoch + 1)) ∧
       (partRefused s p q = true → ∃ t, exec (.psl p v) s = .next t ∧ t.parts = s.parts ∧ t.slices = s.slices ∧
         t.hpcnt = if s.hpcnt = BitVec.allOnes 32 then s.hpcnt else s.hpcnt + 1)) ∧
     (v &&& ~~~(wd (2 ^ 63 + 2 ^ 48 - 1)) = 0 →
       (bit v.toNat 63 = false → becomes { base with en := false, qeff := 0, qst := 0 }) ∧
       (bit v.toNat 63 = true → qreq = 0 → becomes { base with en := false, qst := 1 }) ∧
       (bit v.toNat 63 = true → qreq ≠ 0 → qreq < (s.part p).savewc →
         becomes { base with en := true, qeff := BitVec.ofNat 32 ((s.part p).savewc + 10), qst := 2 }) ∧
       (bit v.toNat 63 = true → qreq ≠ 0 → (s.part p).savewc ≤ qreq → becomes { base with en := true, qeff := BitVec.ofNat 32 qreq, qst := 0 })) ∧
     (v.toNat < 512 → (s.core c).job.isSome = true → (bit v.toNat 8 = true → (s.core c).dbg.pend = false) →
       exec (.tintr c v) s = .next (s.updCore c (fun k => { k with dbg := { k.dbg with
         pend := k.dbg.pend || bit v.toNat 8, code := v.setWidth 8,
         after := if bit v.toNat 8 then k.atraps.length else k.dbg.after } }))))

/-- Work queues (R334, R336): enable, resume, skip and destroy from the states that allow them; a kick sets TAILV, past the
ring it halts a running queue; any other is discarded. Destroy leaves DEAD, with only jobs ordered killed and no packet in a slot; with its
last job gone the queue is OFF. -/
def Obligations.WorkQueues : Prop :=
  ∀ (s : State) (q : QueueId) (v : Word), s.boot.st = .ready →
    let k := s.queue q
    let drop (off : Nat) : State := { s with
      hprec := if bit s.hprec.toNat 63 then s.hprec else wd (2 ^ 63 + 2 * 2 ^ 60 + (0x100000 + 0x40 * q.toNat + off)),
      hpcnt := if s.hpcnt = BitVec.allOnes 32 then s.hpcnt else s.hpcnt + 1 }
    let fitsRing := (v.setWidth 32 - k.head).toNat ≤ 2 ^ k.log2n
    (k.st = .off → queueReady s k = true → exec (.wqEnable q) s = .next (s.setQueue { k with st := .run, head := 0, tailv := 0, code := 0 })) ∧
    (k.st ≠ .off ∨ queueReady s k = false → exec (.wqEnable q) s = .next (drop 0x28)) ∧
    (k.st = .halt → exec (.wqResume q) s = .next (s.setQueue { k with st := .run, code := 0 }) ∧
      exec (.wqSkip q) s = .next (s.setQueue { k with st := .run, code := 0, head := k.head + 1 })) ∧
    (k.st ≠ .halt → exec (.wqResume q) s = .next (drop 0x28) ∧ exec (.wqSkip q) s = .next (drop 0x28)) ∧
    (v.toNat < 2 ^ 32 →
      (k.dev = false → k.st = .run ∨ k.st = .halt → fitsRing → exec (.wqkick q v) s = .next (s.setQueue { k with tailv := v.setWidth 32 })) ∧
      (k.dev = false → k.st = .run → ¬ fitsRing → ∃ t, exec (.wqkick q v) s = .next t ∧ (t.queue q).st = .halt ∧ (t.queue q).code = 0x08 ∧
        (t.queue q).tailv = k.tailv ∧ t.jobs = s.jobs) ∧
      (k.dev = true ∨ k.st = .off ∨ k.st = .dead ∨ (k.st = .halt ∧ ¬ fitsRing) → exec (.wqkick q v) s = .next (drop 0x10))) ∧
    (k.st = .run ∨ k.st = .halt → ∃ t, exec (.wqDestroy q) s = .next t ∧ (t.queue q).st = .dead ∧
      (∀ x ∈ t.slotted, x.queue ≠ q) ∧ ∀ j ∈ t.jobs, j.queue = q → j.killDue = true ∧ j.st ≠ .fetched ∧ j.st ≠ .ready) ∧
    (k.st = .off ∨ k.st = .dead → exec (.wqDestroy q) s = .next (drop 0x28)) ∧
    (k.st = .dead → (∀ j ∈ s.jobs, j.queue ≠ q) → ∃ t, exec (.queueOffAfterDestroy q) s = .next t ∧ t.queue q = { k with st := .off } ∧
      t.jobs = s.jobs ∧ t.cores = s.cores ∧ t.mem = s.mem) ∧
    (k.st ≠ .dead ∨ (∃ j ∈ s.jobs, j.queue = q) → exec (.queueOffAfterDestroy q) s = .next s)

/-- Invalidation (R98, R99): with none under way each command is taken with the page and count of INVADDR and INVCNT, a range
of no page ending at once (of the kinds that have a range, which log entry 11 fixes); while BUSY a command sets ERR. Its end waits for the
accesses that use what it covers; it drops the translations that use an affected entry, a large leaf's all, leaves no L1 sector of a
covered page whose recorded translation is the partition's, and sets DONE. -/
def Obligations.Invalidations : Prop :=
  ∀ (s : State) (p : PartId) (asid : BitVec 16) (vd : BitVec 3), s.boot.st = .ready →
    let q := s.part p
    (∀ i ∈ [(Instr.invStage1Range p asid, 1, asid, (0 : BitVec 3)), (.invStage1All p asid, 2, asid, 0), (.invStage2Range p vd, 3, 0, vd),
            (.invStage2All p vd, 4, 0, vd), (.invPartitionAll p, 5, 0, 0)],
      let cmd : InvCmd := { kind := i.2.1, asid := i.2.2.1, vd := i.2.2.2, page := q.invaddr.toNat / 4096, count := q.invcnt.toNat }
      (q.inv = none → (i.2.1 = 1 ∨ i.2.1 = 3 → q.invcnt ≠ 0) → exec i.1 s = .next (s.updPart p (fun q => { q with inv := some cmd }))) ∧
      (q.inv = none → (i.2.1 = 1 ∨ i.2.1 = 3) → q.invcnt = 0 → exec i.1 s = .next (s.updPart p (fun q => { q with invDone := true }))) ∧
      (q.inv ≠ none → ∃ t, exec i.1 s = .next t ∧ (t.part p).inv = q.inv ∧ (t.part p).invErr = true ∧ t.tlb = s.tlb)) ∧
    (∀ i, q.inv = some i → (∃ c ∈ q.cores, i.waits s c = true) → exec (.invalidationDone p) s = .next s) ∧
    (∀ i, q.inv = some i → (∀ c ∈ q.cores, i.waits s c = false) →
      ∃ t, exec (.invalidationDone p) s = .next t ∧ (t.part p).inv = none ∧ (t.part p).invDone = true ∧
      (∀ e, e ∈ t.tlb ↔ e ∈ s.tlb ∧ ¬ (e.pid = p ∧ i.uses e.asid e.vd e.vpage e.leaf e.span = true)) ∧
      (∀ l ∈ t.lines, ∀ c a v, l.owner = .l1 c a v → ∃ g, l.tag = some g ∧ (g.pid = p → i.covers a g.vd v = false))) ∧
    (q.inv = none → exec (.invalidationDone p) s = .next s)

/-- The mailbox (R304, R313, R378 to R380): a command starts with its request read at MBADDR and none under way; at its end it takes effect,
publishes its response and sets DONE. An origin takes the lowest free slot and id; a signed policy with a higher serial is installed, in
the place of the one with its origins or the lowest free slot; a signed removal takes it away; attestation spends one leaf, or with none
left ends with status 4. One while busy is discarded; one with MBADDR outside host memory ends with status 1. That the effect comes at the
end is log entry 39, the slots, and that the leaf is taken at the start, log entry 37, the parts of a report that the spec leaves to the part
log entry 43 (all the model's choices). -/
def Obligations.Mailbox : Prop :=
  (∀ s : State, s.boot.st = .ready → s.boot.mbBusy = false →
    let pa := s.boot.mbaddr.toNat
    let at_ (n : Nat) : List Byte := (List.range n).map (fun i => s.byteAt (pa + i))
    let origins := (List.range 64).filter (fun i => bit (leNat (at_ 8)) i)
    let starts (i : Instr) (cmd : Nat) (req : List Byte) (idx : Option Word32) (next : Word32) : Prop :=
      exec i s = .next { s with boot := { s.boot with mbBusy := true, mbCmd := some (pa, cmd, req), mbIdx := idx, xmssidx := next } }
    (paHost pa = false → ∀ i ∈ [(Instr.createOrigin, 1), (.installPolicy, 2), (.removePolicy, 3), (.attest, 4)],
      starts i.1 i.2 [] s.boot.mbIdx s.boot.xmssidx) ∧
    (paHost pa = true → s.lines = [] →
      (∀ i ∈ [(Instr.createOrigin, 1, 72), (.installPolicy, 2, 16 + 2820 * origins.length), (.removePolicy, 3, 2828)],
        starts i.1 i.2.1 (at_ i.2.2) s.boot.mbIdx s.boot.xmssidx) ∧
      (bytesAt (at_ 64) 0 1 < 32 ∧ s.boot.xmssidx.toNat < 2 ^ 20 → starts .attest 4 (at_ 64) (some s.boot.xmssidx) (s.boot.xmssidx + 1)) ∧
      (32 ≤ bytesAt (at_ 64) 0 1 ∨ 2 ^ 20 ≤ s.boot.xmssidx.toNat → starts .attest 4 (at_ 64) s.boot.mbIdx s.boot.xmssidx)) ∧
    (paHost pa = true → s.lines ≠ [] → ∀ i ∈ [(Instr.createOrigin, 1), (.installPolicy, 2), (.removePolicy, 3), (.attest, 4)],
      ∃ t req, exec i.1 s = .next t ∧ t.boot.mbBusy = true ∧ t.boot.mbCmd = some (pa, i.2, req))) ∧
  (∀ s : State, s.boot.st = .ready → s.boot.mbBusy = true → ∀ i ∈ [Instr.createOrigin, .installPolicy, .removePolicy, .attest],
    ∃ t, exec i s = .next t ∧ t.boot = s.boot ∧ t.labels = s.labels ∧
      t.hpcnt = if s.hpcnt = BitVec.allOnes 32 then s.hpcnt else s.hpcnt + 1) ∧
  (∀ (s : State) (pa cmd : Nat) (req : List Byte), s.boot.mbCmd = some (pa, cmd, req) → CanonicalMemory s →
    let l := s.labels
    let ends (l : LabelSt) (idx : Option Word32) (st : Byte) (resp : List Byte) : Prop := ∃ t, exec .mailboxDone s = .next t ∧
      (List.range resp.length).map (fun i => t.byteAt (pa + i)) = resp ∧ (s.lines = [] → t.labels = l) ∧
      (let u := hostStore pa resp { s with labels := l, boot := { s.boot with mbIdx := idx } }
       t = { u with boot := { u.boot with mbBusy := false, mbDone := true, mbStatus := st, mbCmd := none } })
    (paHost pa = false → ends l s.boot.mbIdx 1 []) ∧
    (paHost pa = true →
      (∀ slot id, cmd = 1 → bytesAt req 0 1 < 32 → bytesAt req 1 1 < 16 → freeOrigin l = some slot → lowestFreeId l = some id →
        let p : PartId := Fin.ofNat 32 (bytesAt req 0 1)
        let o : Origin := { pid := p, key := (req.drop 4).take 68, auth := BitVec.ofNat 4 (bytesAt req 1 1), lbl := BitVec.ofNat 10 id }
        let e : LblEntry := { id := id, mask := wd (2 ^ slot), makers := BitVec.ofNat 32 (2 ^ p.val) }
        ends { l with origins := (slot, o) :: l.origins, table := e :: l.table } s.boot.mbIdx 0 [BitVec.ofNat 8 slot]) ∧
      (cmd = 1 → 32 ≤ bytesAt req 0 1 ∨ 16 ≤ bytesAt req 1 1 → ends l s.boot.mbIdx 1 []) ∧
      (let r := req.take 16
       let m := wd (bytesAt r 0 8)
       let slots := (List.range 64).filter (fun i => bit m.toNat i)
       let serial : Word32 := BitVec.ofNat 32 (bytesAt r 12 4)
       ∀ n, cmd = 2 → 2 ≤ slots.length → bytesAt r 8 1 < 16 → bytesAt r 9 3 = 0 →
        (∀ x ∈ slots.zipIdx, ∃ k, originKey l x.1 = some k ∧
          Config.xmssVerify k (Config.shake256 r) ((req.drop (16 + 2820 * x.2)).take 2820) = true) →
        (∀ x, topSerial l m = some x → x.toNat < serial.toNat) →
        (match l.policies.find? (fun x => x.2.omask == m) with
         | some x => n = x.1
         | none => n < 64 ∧ (∀ x ∈ l.policies, x.1 ≠ n) ∧ ∀ k, k < n → ∃ x ∈ l.policies, x.1 = k) →
        ends { l with policies := (n, { omask := m, cls := BitVec.ofNat 4 (bytesAt r 8 1), serial := serial }) ::
                        l.policies.filter (fun x => x.1 != n),
                      serials := (m, serial) :: l.serials.filter (fun x => x.1 != m) } s.boot.mbIdx 0 [0]) ∧
      (let r := req.take 8
       let m := wd (leNat r)
       cmd = 3 → (∃ x ∈ l.policies, x.2.omask = m) →
        (∃ i k, i < 64 ∧ bit m.toNat i = true ∧ originKey l i = some k ∧
          Config.xmssVerify k (Config.shake256 r) ((req.drop 8).take 2820) = true) →
        ends { l with policies := l.policies.filter (fun x => x.2.omask != m) } s.boot.mbIdx 0 [0]) ∧
      (cmd = 4 → 32 ≤ bytesAt req 0 1 → ends l s.boot.mbIdx 1 []) ∧
      (cmd = 4 → bytesAt req 0 1 < 32 → s.boot.mbIdx = none → ends l none 4 []) ∧
      (∀ i : Word32, cmd = 4 → bytesAt req 0 1 < 32 → s.boot.mbIdx = some i →
        let rep := attestReport s (Fin.ofNat 32 (bytesAt req 0 1)) (req.drop 32) i
        ends l none 0 (rep ++ (natBytes 4 i.toNat ++ fixLen 2816 (Config.xmssSign i.toNat (Config.shake256 rep)))))))

/-- Bring-up (R375): with PWRGOOD and REFCLK the release of RESET_N starts it; a good slot A, else a good slot B, leads from
VERIFY to MEMINIT, none to FAILED with slot B's code; a slot is good whose format, signature by the fused vendor key and version pass; which
images the slots hold is the outside's, and what an image is the hardware's (log entry 9, DESIGN CHOICE); training leads to READY with TIME 0 and every partition disabled, or to
FAILED with 0x10 plus the lowest stack that failed. Resets and power (R376, R381): a cold reset leaves the state of State.reset
but for host memory, Sorrel's counter and the pins (and the model's own fields, log entries 1, 4, 5); a function-level reset
leaves no job, every queue OFF, the cause table empty and the partitions disabled. A grant lets its clusters issue; none issues
during a trip. That every cluster is granted again at a trip's end is the model's own choice (log entry 9, DESIGN CHOICE, unsafe: the spec says
only that every grant is zero during the trip). -/
def Obligations.BringUpAndPower : Prop :=
  (∀ (s : State) (bad : List (Fin 8)) (a b : Nat),
     let signed (n : Nat) : Prop := Config.shake256 (Config.fwKey n) = Config.fusedDigest ∧
       Config.xmssVerify (Config.fwKey n) (Config.shake256 (Config.fwImage n)) (Config.fwSig n) = true
     let good (n : Nat) : Prop := Config.fwFormed n = true ∧ signed n ∧ Config.fusedVersion.toNat ≤ (Config.fwVersion n).toNat
     let boots (slot : Byte) (n : Nat) : Prop :=
       exec (.verify a b) s = .next { s with boot := { s.boot with st := .meminit, slot := slot, image := n } }
     let fails (code : Byte) : Prop := ∃ t, exec (.verify a b) s = .next t ∧ t.boot.st = .failed ∧ t.boot.code = code ∧ t.cores = s.cores
     (s.pwr.pwrgood = true → s.pwr.refclk = true → s.pwr.resetn = false →
       exec .bringupStart s = .next { s with pwr := { s.pwr with resetn := true } }) ∧
     (s.pwr.pwrgood = false ∨ s.pwr.refclk = false ∨ s.pwr.resetn = true → exec .bringupStart s = .next s) ∧
     (s.pwr.resetn = true → s.boot.st = .verify →
       (good a → boots 0 a) ∧ (¬ good a → good b → boots 1 b) ∧
       (¬ good a → Config.fwFormed b = false → fails 0x03) ∧
       (¬ good a → Config.fwFormed b = true → ¬ signed b → fails 0x01) ∧
       (¬ good a → Config.fwFormed b = true → signed b → (Config.fwVersion b).toNat < Config.fusedVersion.toNat → fails 0x02)) ∧
     (s.boot.st = .meminit →
       (bad = [] → ∃ t, exec (.meminit bad) s = .next t ∧ t.boot.st = .ready ∧ t.time = 0 ∧ (∀ p, (t.part p).enabled = false) ∧
         t.labels.origins = []) ∧
       (∀ n ∈ bad, (∀ m ∈ bad, n.val ≤ m.val) → ∃ t, exec (.meminit bad) s = .next t ∧ t.boot.st = .failed ∧
         t.boot.code.toNat = 0x10 + n.val ∧ (∀ p, (t.part p).enabled = false))) ∧
     (s.boot.st ≠ .meminit → exec (.meminit bad) s = .next s)) ∧
  (∀ (s : State) (gr : List ClusterId) (mw : Word32),
     let others (t : State) : Prop := t = { s with clusters := t.clusters, pwr := t.pwr } ∧
       ∀ cl, t.cluster cl = { s.cluster cl with granted := (t.cluster cl).granted }
     (∃ t, exec .coldReset s = .next t ∧
       t = { State.reset with
         mem := t.mem, boot := { State.reset.boot with xmssidx := s.boot.xmssidx },
         pwr := { State.reset.pwr with pwrgood := s.pwr.pwrgood, refclk := s.pwr.refclk },
         freeCtr := s.freeCtr, agenda := s.agenda, cur := s.cur, out := s.out } ∧
       (CanonicalMemory s → ∀ x, t.byteAt x = if paHost x then s.byteAt x else 0)) ∧
     (s.boot.st = .ready ∨ (s.boot.st = .failed ∧ 0x10 ≤ s.boot.code.toNat) → ∃ t, exec (.functionLevelReset []) s = .next t ∧
       t.jobs = [] ∧ (∀ q, (t.queue q).st = .off) ∧ t.causes = [] ∧ t.ctprod = 0 ∧ t.ctcons = 0 ∧ (∀ p, (t.part p).enabled = false) ∧
       t.boot.st = .ready) ∧
     exec .ppsIn s = .next s ∧
     (∃ t, exec (.lovageGrant gr mw) s = .next t ∧ others t ∧ t.pwr = { s.pwr with pwrnow := mw } ∧
       ∀ cl, (t.cluster cl).granted = (decide (cl ∈ gr) && !s.pwr.trip)) ∧
     (∃ t, exec .thermalTrip s = .next t ∧ others t ∧ t.pwr = { s.pwr with trip := true, thermn := false } ∧
       ∀ cl, (t.cluster cl).granted = false) ∧
     (s.pwr.trip = true → ∃ t, exec .thermalTripEnd s = .next t ∧ others t ∧ t.pwr = { s.pwr with trip := false, thermn := true } ∧
       ∀ cl, (t.cluster cl).granted = true) ∧
     (s.pwr.trip = false → exec .thermalTripEnd s = .next s))
end

