-- ==== Sys2Proof/Laws/State.lean ====
section
/-! SUPPORT. The small laws of the state: what each update of a part of the state leaves in each field, register files, x0, the
items of the four strands, jobs and queues. -/

namespace Sys2Proof.Machine

/-! ### Register files -/

@[simp] theorem rd_wr_self {α : Type} {n : Nat} (v : Vector α n) (i : Fin n) (a : α) : rd (wr v i a) i = a := by
  simp [rd, wr]

@[simp] theorem rd_wr_ne {α : Type} {n : Nat} (v : Vector α n) (i j : Fin n) (a : α) (h : j ≠ i) : rd (wr v i a) j = rd v j := by
  simp only [rd, wr]
  exact Vector.getElem_set_ne i.isLt j.isLt (fun e => h (Fin.ext e.symm))

theorem rd_wr {α : Type} {n : Nat} (v : Vector α n) (i j : Fin n) (a : α) : rd (wr v i a) j = if j = i then a else rd v j := by
  split
  · next h => rw [h, rd_wr_self]
  · next h => exact rd_wr_ne v i j a h

@[simp] theorem wr_rd_self {α : Type} {n : Nat} (v : Vector α n) (i : Fin n) : wr v i (rd v i) = v := by
  simp [rd, wr]

@[simp] theorem wr_wr_self {α : Type} {n : Nat} (v : Vector α n) (i : Fin n) (a b : α) : wr (wr v i a) i b = wr v i b := by
  simp [wr]

theorem ext_rd {α : Type} {n : Nat} {v w : Vector α n} (h : ∀ i, rd v i = rd w i) : v = w := by
  ext i hi
  exact h ⟨i, hi⟩

@[simp] theorem rd_replicate {α : Type} {n : Nat} (a : α) (i : Fin n) : rd (Vector.replicate n a) i = a := by
  simp [rd]

/-! ### One part of the state replaced -/

@[simp] theorem State.core_updCore_self (s : State) (c : CoreId) (f : Core → Core) : (s.updCore c f).core c = f (s.core c) := by
  simp [State.updCore, State.setCore, State.core]

@[simp] theorem State.core_updCore_ne (s : State) (c d : CoreId) (f : Core → Core) (h : d ≠ c) : (s.updCore c f).core d = s.core d := by
  simp [State.updCore, State.setCore, State.core, h]

@[simp] theorem State.updCore_updCore (s : State) (c : CoreId) (f g : Core → Core) :
    (s.updCore c f).updCore c g = s.updCore c (fun k => g (f k)) := by
  simp [State.updCore, State.setCore, State.core]

@[simp] theorem State.cluster_updCluster_self (s : State) (cl : ClusterId) (f : Cluster → Cluster) :
    (s.updCluster cl f).cluster cl = f (s.cluster cl) := by
  simp [State.updCluster, State.setCluster, State.cluster]

@[simp] theorem State.cluster_updCluster_ne (s : State) (cl d : ClusterId) (f : Cluster → Cluster) (h : d ≠ cl) :
    (s.updCluster cl f).cluster d = s.cluster d := by
  simp [State.updCluster, State.setCluster, State.cluster, h]

@[simp] theorem State.part_updPart_self (s : State) (p : PartId) (f : Part → Part) : (s.updPart p f).part p = f (s.part p) := by
  simp [State.updPart, State.part]

@[simp] theorem State.part_updPart_ne (s : State) (p q : PartId) (f : Part → Part) (h : q ≠ p) : (s.updPart p f).part q = s.part q := by
  simp [State.updPart, State.part, h]

@[simp] theorem State.slice_updSlice_self (s : State) (k : Fin 32) (f : Slice → Slice) : (s.updSlice k f).slice k = f (s.slice k) := by
  simp [State.updSlice, State.slice]

@[simp] theorem State.slice_updSlice_ne (s : State) (k j : Fin 32) (f : Slice → Slice) (h : j ≠ k) :
    (s.updSlice k f).slice j = s.slice j := by
  simp [State.updSlice, State.slice, h]

@[simp] theorem State.queue_setQueue_self (s : State) (k : Queue) : (s.setQueue k).queue k.id = k := by
  simp [State.setQueue, State.queue]

/-- An update that keeps a job's id changes that job alone. -/
theorem State.job_updJob_self (s : State) (j : JobId) (f : Job → Job) (hf : ∀ k, (f k).id = k.id) :
    (s.updJob j f).job? j = (s.job? j).map f := by
  simp only [State.job?, State.updJob]
  induction s.jobs with
  | nil => rfl
  | cons k ks ih =>
    by_cases h : k.id = j
    · simp [h, hf]
    · simpa [h] using ih

theorem State.job_updJob_ne (s : State) (i j : JobId) (f : Job → Job) (hf : ∀ k, (f k).id = k.id) (h : i ≠ j) :
    (s.updJob j f).job? i = s.job? i := by
  simp only [State.job?, State.updJob]
  induction s.jobs with
  | nil => rfl
  | cons k ks ih =>
    by_cases hk : k.id = j
    · have hi : k.id ≠ i := fun e => h (e.symm.trans hk)
      simpa [hk, hf, hi, h.symm] using ih
    · by_cases hi : k.id = i
      · simp [hi, h]
      · simpa [hk, hi] using ih

/-! ### Each field under each update -/

@[simp] theorem State.clusters_updCore (s : State) (c : CoreId) (f : Core → Core) : (s.updCore c f).clusters = s.clusters := rfl
@[simp] theorem State.mem_updCore (s : State) (c : CoreId) (f : Core → Core) : (s.updCore c f).mem = s.mem := rfl
@[simp] theorem State.side_updCore (s : State) (c : CoreId) (f : Core → Core) : (s.updCore c f).side = s.side := rfl
@[simp] theorem State.lines_updCore (s : State) (c : CoreId) (f : Core → Core) : (s.updCore c f).lines = s.lines := rfl
@[simp] theorem State.tlb_updCore (s : State) (c : CoreId) (f : Core → Core) : (s.updCore c f).tlb = s.tlb := rfl
@[simp] theorem State.slices_updCore (s : State) (c : CoreId) (f : Core → Core) : (s.updCore c f).slices = s.slices := rfl
@[simp] theorem State.parts_updCore (s : State) (c : CoreId) (f : Core → Core) : (s.updCore c f).parts = s.parts := rfl
@[simp] theorem State.labels_updCore (s : State) (c : CoreId) (f : Core → Core) : (s.updCore c f).labels = s.labels := rfl
@[simp] theorem State.queues_updCore (s : State) (c : CoreId) (f : Core → Core) : (s.updCore c f).queues = s.queues := rfl
@[simp] theorem State.slotted_updCore (s : State) (c : CoreId) (f : Core → Core) : (s.updCore c f).slotted = s.slotted := rfl
@[simp] theorem State.jobs_updCore (s : State) (c : CoreId) (f : Core → Core) : (s.updCore c f).jobs = s.jobs := rfl
@[simp] theorem State.reps_updCore (s : State) (c : CoreId) (f : Core → Core) : (s.updCore c f).reps = s.reps := rfl
@[simp] theorem State.repq_updCore (s : State) (c : CoreId) (f : Core → Core) : (s.updCore c f).repq = s.repq := rfl
@[simp] theorem State.colls_updCore (s : State) (c : CoreId) (f : Core → Core) : (s.updCore c f).colls = s.colls := rfl
@[simp] theorem State.collHeld_updCore (s : State) (c : CoreId) (f : Core → Core) : (s.updCore c f).collHeld = s.collHeld := rfl
@[simp] theorem State.abortHeld_updCore (s : State) (c : CoreId) (f : Core → Core) : (s.updCore c f).abortHeld = s.abortHeld := rfl
@[simp] theorem State.collTop_updCore (s : State) (c : CoreId) (f : Core → Core) : (s.updCore c f).collTop = s.collTop := rfl
@[simp] theorem State.links_updCore (s : State) (c : CoreId) (f : Core → Core) : (s.updCore c f).links = s.links := rfl
@[simp] theorem State.time_updCore (s : State) (c : CoreId) (f : Core → Core) : (s.updCore c f).time = s.time := rfl
@[simp] theorem State.refillAt_updCore (s : State) (c : CoreId) (f : Core → Core) : (s.updCore c f).refillAt = s.refillAt := rfl
@[simp] theorem State.boot_updCore (s : State) (c : CoreId) (f : Core → Core) : (s.updCore c f).boot = s.boot := rfl
@[simp] theorem State.pwr_updCore (s : State) (c : CoreId) (f : Core → Core) : (s.updCore c f).pwr = s.pwr := rfl
@[simp] theorem State.hprec_updCore (s : State) (c : CoreId) (f : Core → Core) : (s.updCore c f).hprec = s.hprec := rfl
@[simp] theorem State.hpcnt_updCore (s : State) (c : CoreId) (f : Core → Core) : (s.updCore c f).hpcnt = s.hpcnt := rfl
@[simp] theorem State.ualnum_updCore (s : State) (c : CoreId) (f : Core → Core) : (s.updCore c f).ualnum = s.ualnum := rfl
@[simp] theorem State.causes_updCore (s : State) (c : CoreId) (f : Core → Core) : (s.updCore c f).causes = s.causes := rfl
@[simp] theorem State.ctprod_updCore (s : State) (c : CoreId) (f : Core → Core) : (s.updCore c f).ctprod = s.ctprod := rfl
@[simp] theorem State.ctcons_updCore (s : State) (c : CoreId) (f : Core → Core) : (s.updCore c f).ctcons = s.ctcons := rfl
@[simp] theorem State.snaps_updCore (s : State) (c : CoreId) (f : Core → Core) : (s.updCore c f).snaps = s.snaps := rfl
@[simp] theorem State.waiting_updCore (s : State) (c : CoreId) (f : Core → Core) : (s.updCore c f).waiting = s.waiting := rfl
@[simp] theorem State.freeCtr_updCore (s : State) (c : CoreId) (f : Core → Core) : (s.updCore c f).freeCtr = s.freeCtr := rfl
@[simp] theorem State.agenda_updCore (s : State) (c : CoreId) (f : Core → Core) : (s.updCore c f).agenda = s.agenda := rfl
@[simp] theorem State.cur_updCore (s : State) (c : CoreId) (f : Core → Core) : (s.updCore c f).cur = s.cur := rfl
@[simp] theorem State.out_updCore (s : State) (c : CoreId) (f : Core → Core) : (s.updCore c f).out = s.out := rfl
@[simp] theorem State.cluster_updCore (s : State) (c : CoreId) (f : Core → Core) (d : ClusterId) : (s.updCore c f).cluster d = s.cluster d := rfl
@[simp] theorem State.part_updCore (s : State) (c : CoreId) (f : Core → Core) (d : PartId) : (s.updCore c f).part d = s.part d := rfl
@[simp] theorem State.slice_updCore (s : State) (c : CoreId) (f : Core → Core) (d : Fin 32) : (s.updCore c f).slice d = s.slice d := rfl
@[simp] theorem State.job_updCore (s : State) (c : CoreId) (f : Core → Core) (d : JobId) : (s.updCore c f).job? d = s.job? d := rfl
@[simp] theorem State.queue_updCore (s : State) (c : CoreId) (f : Core → Core) (d : QueueId) : (s.updCore c f).queue d = s.queue d := rfl
@[simp] theorem State.cores_updCluster (s : State) (c : ClusterId) (f : Cluster → Cluster) : (s.updCluster c f).cores = s.cores := rfl
@[simp] theorem State.mem_updCluster (s : State) (c : ClusterId) (f : Cluster → Cluster) : (s.updCluster c f).mem = s.mem := rfl
@[simp] theorem State.side_updCluster (s : State) (c : ClusterId) (f : Cluster → Cluster) : (s.updCluster c f).side = s.side := rfl
@[simp] theorem State.lines_updCluster (s : State) (c : ClusterId) (f : Cluster → Cluster) : (s.updCluster c f).lines = s.lines := rfl
@[simp] theorem State.tlb_updCluster (s : State) (c : ClusterId) (f : Cluster → Cluster) : (s.updCluster c f).tlb = s.tlb := rfl
@[simp] theorem State.slices_updCluster (s : State) (c : ClusterId) (f : Cluster → Cluster) : (s.updCluster c f).slices = s.slices := rfl
@[simp] theorem State.parts_updCluster (s : State) (c : ClusterId) (f : Cluster → Cluster) : (s.updCluster c f).parts = s.parts := rfl
@[simp] theorem State.labels_updCluster (s : State) (c : ClusterId) (f : Cluster → Cluster) : (s.updCluster c f).labels = s.labels := rfl
@[simp] theorem State.queues_updCluster (s : State) (c : ClusterId) (f : Cluster → Cluster) : (s.updCluster c f).queues = s.queues := rfl
@[simp] theorem State.slotted_updCluster (s : State) (c : ClusterId) (f : Cluster → Cluster) : (s.updCluster c f).slotted = s.slotted := rfl
@[simp] theorem State.jobs_updCluster (s : State) (c : ClusterId) (f : Cluster → Cluster) : (s.updCluster c f).jobs = s.jobs := rfl
@[simp] theorem State.reps_updCluster (s : State) (c : ClusterId) (f : Cluster → Cluster) : (s.updCluster c f).reps = s.reps := rfl
@[simp] theorem State.repq_updCluster (s : State) (c : ClusterId) (f : Cluster → Cluster) : (s.updCluster c f).repq = s.repq := rfl
@[simp] theorem State.colls_updCluster (s : State) (c : ClusterId) (f : Cluster → Cluster) : (s.updCluster c f).colls = s.colls := rfl
@[simp] theorem State.collHeld_updCluster (s : State) (c : ClusterId) (f : Cluster → Cluster) : (s.updCluster c f).collHeld = s.collHeld := rfl
@[simp] theorem State.abortHeld_updCluster (s : State) (c : ClusterId) (f : Cluster → Cluster) : (s.updCluster c f).abortHeld = s.abortHeld := rfl
@[simp] theorem State.collTop_updCluster (s : State) (c : ClusterId) (f : Cluster → Cluster) : (s.updCluster c f).collTop = s.collTop := rfl
@[simp] theorem State.links_updCluster (s : State) (c : ClusterId) (f : Cluster → Cluster) : (s.updCluster c f).links = s.links := rfl
@[simp] theorem State.time_updCluster (s : State) (c : ClusterId) (f : Cluster → Cluster) : (s.updCluster c f).time = s.time := rfl
@[simp] theorem State.refillAt_updCluster (s : State) (c : ClusterId) (f : Cluster → Cluster) : (s.updCluster c f).refillAt = s.refillAt := rfl
@[simp] theorem State.boot_updCluster (s : State) (c : ClusterId) (f : Cluster → Cluster) : (s.updCluster c f).boot = s.boot := rfl
@[simp] theorem State.pwr_updCluster (s : State) (c : ClusterId) (f : Cluster → Cluster) : (s.updCluster c f).pwr = s.pwr := rfl
@[simp] theorem State.hprec_updCluster (s : State) (c : ClusterId) (f : Cluster → Cluster) : (s.updCluster c f).hprec = s.hprec := rfl
@[simp] theorem State.hpcnt_updCluster (s : State) (c : ClusterId) (f : Cluster → Cluster) : (s.updCluster c f).hpcnt = s.hpcnt := rfl
@[simp] theorem State.ualnum_updCluster (s : State) (c : ClusterId) (f : Cluster → Cluster) : (s.updCluster c f).ualnum = s.ualnum := rfl
@[simp] theorem State.causes_updCluster (s : State) (c : ClusterId) (f : Cluster → Cluster) : (s.updCluster c f).causes = s.causes := rfl
@[simp] theorem State.ctprod_updCluster (s : State) (c : ClusterId) (f : Cluster → Cluster) : (s.updCluster c f).ctprod = s.ctprod := rfl
@[simp] theorem State.ctcons_updCluster (s : State) (c : ClusterId) (f : Cluster → Cluster) : (s.updCluster c f).ctcons = s.ctcons := rfl
@[simp] theorem State.snaps_updCluster (s : State) (c : ClusterId) (f : Cluster → Cluster) : (s.updCluster c f).snaps = s.snaps := rfl
@[simp] theorem State.waiting_updCluster (s : State) (c : ClusterId) (f : Cluster → Cluster) : (s.updCluster c f).waiting = s.waiting := rfl
@[simp] theorem State.freeCtr_updCluster (s : State) (c : ClusterId) (f : Cluster → Cluster) : (s.updCluster c f).freeCtr = s.freeCtr := rfl
@[simp] theorem State.agenda_updCluster (s : State) (c : ClusterId) (f : Cluster → Cluster) : (s.updCluster c f).agenda = s.agenda := rfl
@[simp] theorem State.cur_updCluster (s : State) (c : ClusterId) (f : Cluster → Cluster) : (s.updCluster c f).cur = s.cur := rfl
@[simp] theorem State.out_updCluster (s : State) (c : ClusterId) (f : Cluster → Cluster) : (s.updCluster c f).out = s.out := rfl
@[simp] theorem State.core_updCluster (s : State) (c : ClusterId) (f : Cluster → Cluster) (d : CoreId) : (s.updCluster c f).core d = s.core d := rfl
@[simp] theorem State.part_updCluster (s : State) (c : ClusterId) (f : Cluster → Cluster) (d : PartId) : (s.updCluster c f).part d = s.part d := rfl
@[simp] theorem State.slice_updCluster (s : State) (c : ClusterId) (f : Cluster → Cluster) (d : Fin 32) : (s.updCluster c f).slice d = s.slice d := rfl
@[simp] theorem State.job_updCluster (s : State) (c : ClusterId) (f : Cluster → Cluster) (d : JobId) : (s.updCluster c f).job? d = s.job? d := rfl
@[simp] theorem State.queue_updCluster (s : State) (c : ClusterId) (f : Cluster → Cluster) (d : QueueId) : (s.updCluster c f).queue d = s.queue d := rfl
@[simp] theorem State.cores_updPart (s : State) (p : PartId) (f : Part → Part) : (s.updPart p f).cores = s.cores := rfl
@[simp] theorem State.clusters_updPart (s : State) (p : PartId) (f : Part → Part) : (s.updPart p f).clusters = s.clusters := rfl
@[simp] theorem State.mem_updPart (s : State) (p : PartId) (f : Part → Part) : (s.updPart p f).mem = s.mem := rfl
@[simp] theorem State.side_updPart (s : State) (p : PartId) (f : Part → Part) : (s.updPart p f).side = s.side := rfl
@[simp] theorem State.lines_updPart (s : State) (p : PartId) (f : Part → Part) : (s.updPart p f).lines = s.lines := rfl
@[simp] theorem State.tlb_updPart (s : State) (p : PartId) (f : Part → Part) : (s.updPart p f).tlb = s.tlb := rfl
@[simp] theorem State.slices_updPart (s : State) (p : PartId) (f : Part → Part) : (s.updPart p f).slices = s.slices := rfl
@[simp] theorem State.labels_updPart (s : State) (p : PartId) (f : Part → Part) : (s.updPart p f).labels = s.labels := rfl
@[simp] theorem State.queues_updPart (s : State) (p : PartId) (f : Part → Part) : (s.updPart p f).queues = s.queues := rfl
@[simp] theorem State.slotted_updPart (s : State) (p : PartId) (f : Part → Part) : (s.updPart p f).slotted = s.slotted := rfl
@[simp] theorem State.jobs_updPart (s : State) (p : PartId) (f : Part → Part) : (s.updPart p f).jobs = s.jobs := rfl
@[simp] theorem State.reps_updPart (s : State) (p : PartId) (f : Part → Part) : (s.updPart p f).reps = s.reps := rfl
@[simp] theorem State.repq_updPart (s : State) (p : PartId) (f : Part → Part) : (s.updPart p f).repq = s.repq := rfl
@[simp] theorem State.colls_updPart (s : State) (p : PartId) (f : Part → Part) : (s.updPart p f).colls = s.colls := rfl
@[simp] theorem State.collHeld_updPart (s : State) (p : PartId) (f : Part → Part) : (s.updPart p f).collHeld = s.collHeld := rfl
@[simp] theorem State.abortHeld_updPart (s : State) (p : PartId) (f : Part → Part) : (s.updPart p f).abortHeld = s.abortHeld := rfl
@[simp] theorem State.collTop_updPart (s : State) (p : PartId) (f : Part → Part) : (s.updPart p f).collTop = s.collTop := rfl
@[simp] theorem State.links_updPart (s : State) (p : PartId) (f : Part → Part) : (s.updPart p f).links = s.links := rfl
@[simp] theorem State.time_updPart (s : State) (p : PartId) (f : Part → Part) : (s.updPart p f).time = s.time := rfl
@[simp] theorem State.refillAt_updPart (s : State) (p : PartId) (f : Part → Part) : (s.updPart p f).refillAt = s.refillAt := rfl
@[simp] theorem State.boot_updPart (s : State) (p : PartId) (f : Part → Part) : (s.updPart p f).boot = s.boot := rfl
@[simp] theorem State.pwr_updPart (s : State) (p : PartId) (f : Part → Part) : (s.updPart p f).pwr = s.pwr := rfl
@[simp] theorem State.hprec_updPart (s : State) (p : PartId) (f : Part → Part) : (s.updPart p f).hprec = s.hprec := rfl
@[simp] theorem State.hpcnt_updPart (s : State) (p : PartId) (f : Part → Part) : (s.updPart p f).hpcnt = s.hpcnt := rfl
@[simp] theorem State.ualnum_updPart (s : State) (p : PartId) (f : Part → Part) : (s.updPart p f).ualnum = s.ualnum := rfl
@[simp] theorem State.causes_updPart (s : State) (p : PartId) (f : Part → Part) : (s.updPart p f).causes = s.causes := rfl
@[simp] theorem State.ctprod_updPart (s : State) (p : PartId) (f : Part → Part) : (s.updPart p f).ctprod = s.ctprod := rfl
@[simp] theorem State.ctcons_updPart (s : State) (p : PartId) (f : Part → Part) : (s.updPart p f).ctcons = s.ctcons := rfl
@[simp] theorem State.snaps_updPart (s : State) (p : PartId) (f : Part → Part) : (s.updPart p f).snaps = s.snaps := rfl
@[simp] theorem State.waiting_updPart (s : State) (p : PartId) (f : Part → Part) : (s.updPart p f).waiting = s.waiting := rfl
@[simp] theorem State.freeCtr_updPart (s : State) (p : PartId) (f : Part → Part) : (s.updPart p f).freeCtr = s.freeCtr := rfl
@[simp] theorem State.agenda_updPart (s : State) (p : PartId) (f : Part → Part) : (s.updPart p f).agenda = s.agenda := rfl
@[simp] theorem State.cur_updPart (s : State) (p : PartId) (f : Part → Part) : (s.updPart p f).cur = s.cur := rfl
@[simp] theorem State.out_updPart (s : State) (p : PartId) (f : Part → Part) : (s.updPart p f).out = s.out := rfl
@[simp] theorem State.core_updPart (s : State) (p : PartId) (f : Part → Part) (d : CoreId) : (s.updPart p f).core d = s.core d := rfl
@[simp] theorem State.cluster_updPart (s : State) (p : PartId) (f : Part → Part) (d : ClusterId) : (s.updPart p f).cluster d = s.cluster d := rfl
@[simp] theorem State.slice_updPart (s : State) (p : PartId) (f : Part → Part) (d : Fin 32) : (s.updPart p f).slice d = s.slice d := rfl
@[simp] theorem State.job_updPart (s : State) (p : PartId) (f : Part → Part) (d : JobId) : (s.updPart p f).job? d = s.job? d := rfl
@[simp] theorem State.queue_updPart (s : State) (p : PartId) (f : Part → Part) (d : QueueId) : (s.updPart p f).queue d = s.queue d := rfl
@[simp] theorem State.cores_updSlice (s : State) (k : Fin 32) (f : Slice → Slice) : (s.updSlice k f).cores = s.cores := rfl
@[simp] theorem State.clusters_updSlice (s : State) (k : Fin 32) (f : Slice → Slice) : (s.updSlice k f).clusters = s.clusters := rfl
@[simp] theorem State.mem_updSlice (s : State) (k : Fin 32) (f : Slice → Slice) : (s.updSlice k f).mem = s.mem := rfl
@[simp] theorem State.side_updSlice (s : State) (k : Fin 32) (f : Slice → Slice) : (s.updSlice k f).side = s.side := rfl
@[simp] theorem State.lines_updSlice (s : State) (k : Fin 32) (f : Slice → Slice) : (s.updSlice k f).lines = s.lines := rfl
@[simp] theorem State.tlb_updSlice (s : State) (k : Fin 32) (f : Slice → Slice) : (s.updSlice k f).tlb = s.tlb := rfl
@[simp] theorem State.parts_updSlice (s : State) (k : Fin 32) (f : Slice → Slice) : (s.updSlice k f).parts = s.parts := rfl
@[simp] theorem State.labels_updSlice (s : State) (k : Fin 32) (f : Slice → Slice) : (s.updSlice k f).labels = s.labels := rfl
@[simp] theorem State.queues_updSlice (s : State) (k : Fin 32) (f : Slice → Slice) : (s.updSlice k f).queues = s.queues := rfl
@[simp] theorem State.slotted_updSlice (s : State) (k : Fin 32) (f : Slice → Slice) : (s.updSlice k f).slotted = s.slotted := rfl
@[simp] theorem State.jobs_updSlice (s : State) (k : Fin 32) (f : Slice → Slice) : (s.updSlice k f).jobs = s.jobs := rfl
@[simp] theorem State.reps_updSlice (s : State) (k : Fin 32) (f : Slice → Slice) : (s.updSlice k f).reps = s.reps := rfl
@[simp] theorem State.repq_updSlice (s : State) (k : Fin 32) (f : Slice → Slice) : (s.updSlice k f).repq = s.repq := rfl
@[simp] theorem State.colls_updSlice (s : State) (k : Fin 32) (f : Slice → Slice) : (s.updSlice k f).colls = s.colls := rfl
@[simp] theorem State.collHeld_updSlice (s : State) (k : Fin 32) (f : Slice → Slice) : (s.updSlice k f).collHeld = s.collHeld := rfl
@[simp] theorem State.abortHeld_updSlice (s : State) (k : Fin 32) (f : Slice → Slice) : (s.updSlice k f).abortHeld = s.abortHeld := rfl
@[simp] theorem State.collTop_updSlice (s : State) (k : Fin 32) (f : Slice → Slice) : (s.updSlice k f).collTop = s.collTop := rfl
@[simp] theorem State.links_updSlice (s : State) (k : Fin 32) (f : Slice → Slice) : (s.updSlice k f).links = s.links := rfl
@[simp] theorem State.time_updSlice (s : State) (k : Fin 32) (f : Slice → Slice) : (s.updSlice k f).time = s.time := rfl
@[simp] theorem State.refillAt_updSlice (s : State) (k : Fin 32) (f : Slice → Slice) : (s.updSlice k f).refillAt = s.refillAt := rfl
@[simp] theorem State.boot_updSlice (s : State) (k : Fin 32) (f : Slice → Slice) : (s.updSlice k f).boot = s.boot := rfl
@[simp] theorem State.pwr_updSlice (s : State) (k : Fin 32) (f : Slice → Slice) : (s.updSlice k f).pwr = s.pwr := rfl
@[simp] theorem State.hprec_updSlice (s : State) (k : Fin 32) (f : Slice → Slice) : (s.updSlice k f).hprec = s.hprec := rfl
@[simp] theorem State.hpcnt_updSlice (s : State) (k : Fin 32) (f : Slice → Slice) : (s.updSlice k f).hpcnt = s.hpcnt := rfl
@[simp] theorem State.ualnum_updSlice (s : State) (k : Fin 32) (f : Slice → Slice) : (s.updSlice k f).ualnum = s.ualnum := rfl
@[simp] theorem State.causes_updSlice (s : State) (k : Fin 32) (f : Slice → Slice) : (s.updSlice k f).causes = s.causes := rfl
@[simp] theorem State.ctprod_updSlice (s : State) (k : Fin 32) (f : Slice → Slice) : (s.updSlice k f).ctprod = s.ctprod := rfl
@[simp] theorem State.ctcons_updSlice (s : State) (k : Fin 32) (f : Slice → Slice) : (s.updSlice k f).ctcons = s.ctcons := rfl
@[simp] theorem State.snaps_updSlice (s : State) (k : Fin 32) (f : Slice → Slice) : (s.updSlice k f).snaps = s.snaps := rfl
@[simp] theorem State.waiting_updSlice (s : State) (k : Fin 32) (f : Slice → Slice) : (s.updSlice k f).waiting = s.waiting := rfl
@[simp] theorem State.freeCtr_updSlice (s : State) (k : Fin 32) (f : Slice → Slice) : (s.updSlice k f).freeCtr = s.freeCtr := rfl
@[simp] theorem State.agenda_updSlice (s : State) (k : Fin 32) (f : Slice → Slice) : (s.updSlice k f).agenda = s.agenda := rfl
@[simp] theorem State.cur_updSlice (s : State) (k : Fin 32) (f : Slice → Slice) : (s.updSlice k f).cur = s.cur := rfl
@[simp] theorem State.out_updSlice (s : State) (k : Fin 32) (f : Slice → Slice) : (s.updSlice k f).out = s.out := rfl
@[simp] theorem State.core_updSlice (s : State) (k : Fin 32) (f : Slice → Slice) (d : CoreId) : (s.updSlice k f).core d = s.core d := rfl
@[simp] theorem State.cluster_updSlice (s : State) (k : Fin 32) (f : Slice → Slice) (d : ClusterId) : (s.updSlice k f).cluster d = s.cluster d := rfl
@[simp] theorem State.part_updSlice (s : State) (k : Fin 32) (f : Slice → Slice) (d : PartId) : (s.updSlice k f).part d = s.part d := rfl
@[simp] theorem State.job_updSlice (s : State) (k : Fin 32) (f : Slice → Slice) (d : JobId) : (s.updSlice k f).job? d = s.job? d := rfl
@[simp] theorem State.queue_updSlice (s : State) (k : Fin 32) (f : Slice → Slice) (d : QueueId) : (s.updSlice k f).queue d = s.queue d := rfl
@[simp] theorem State.cores_updJob (s : State) (j : JobId) (f : Job → Job) : (s.updJob j f).cores = s.cores := rfl
@[simp] theorem State.clusters_updJob (s : State) (j : JobId) (f : Job → Job) : (s.updJob j f).clusters = s.clusters := rfl
@[simp] theorem State.mem_updJob (s : State) (j : JobId) (f : Job → Job) : (s.updJob j f).mem = s.mem := rfl
@[simp] theorem State.side_updJob (s : State) (j : JobId) (f : Job → Job) : (s.updJob j f).side = s.side := rfl
@[simp] theorem State.lines_updJob (s : State) (j : JobId) (f : Job → Job) : (s.updJob j f).lines = s.lines := rfl
@[simp] theorem State.tlb_updJob (s : State) (j : JobId) (f : Job → Job) : (s.updJob j f).tlb = s.tlb := rfl
@[simp] theorem State.slices_updJob (s : State) (j : JobId) (f : Job → Job) : (s.updJob j f).slices = s.slices := rfl
@[simp] theorem State.parts_updJob (s : State) (j : JobId) (f : Job → Job) : (s.updJob j f).parts = s.parts := rfl
@[simp] theorem State.labels_updJob (s : State) (j : JobId) (f : Job → Job) : (s.updJob j f).labels = s.labels := rfl
@[simp] theorem State.queues_updJob (s : State) (j : JobId) (f : Job → Job) : (s.updJob j f).queues = s.queues := rfl
@[simp] theorem State.slotted_updJob (s : State) (j : JobId) (f : Job → Job) : (s.updJob j f).slotted = s.slotted := rfl
@[simp] theorem State.reps_updJob (s : State) (j : JobId) (f : Job → Job) : (s.updJob j f).reps = s.reps := rfl
@[simp] theorem State.repq_updJob (s : State) (j : JobId) (f : Job → Job) : (s.updJob j f).repq = s.repq := rfl
@[simp] theorem State.colls_updJob (s : State) (j : JobId) (f : Job → Job) : (s.updJob j f).colls = s.colls := rfl
@[simp] theorem State.collHeld_updJob (s : State) (j : JobId) (f : Job → Job) : (s.updJob j f).collHeld = s.collHeld := rfl
@[simp] theorem State.abortHeld_updJob (s : State) (j : JobId) (f : Job → Job) : (s.updJob j f).abortHeld = s.abortHeld := rfl
@[simp] theorem State.collTop_updJob (s : State) (j : JobId) (f : Job → Job) : (s.updJob j f).collTop = s.collTop := rfl
@[simp] theorem State.links_updJob (s : State) (j : JobId) (f : Job → Job) : (s.updJob j f).links = s.links := rfl
@[simp] theorem State.time_updJob (s : State) (j : JobId) (f : Job → Job) : (s.updJob j f).time = s.time := rfl
@[simp] theorem State.refillAt_updJob (s : State) (j : JobId) (f : Job → Job) : (s.updJob j f).refillAt = s.refillAt := rfl
@[simp] theorem State.boot_updJob (s : State) (j : JobId) (f : Job → Job) : (s.updJob j f).boot = s.boot := rfl
@[simp] theorem State.pwr_updJob (s : State) (j : JobId) (f : Job → Job) : (s.updJob j f).pwr = s.pwr := rfl
@[simp] theorem State.hprec_updJob (s : State) (j : JobId) (f : Job → Job) : (s.updJob j f).hprec = s.hprec := rfl
@[simp] theorem State.hpcnt_updJob (s : State) (j : JobId) (f : Job → Job) : (s.updJob j f).hpcnt = s.hpcnt := rfl
@[simp] theorem State.ualnum_updJob (s : State) (j : JobId) (f : Job → Job) : (s.updJob j f).ualnum = s.ualnum := rfl
@[simp] theorem State.causes_updJob (s : State) (j : JobId) (f : Job → Job) : (s.updJob j f).causes = s.causes := rfl
@[simp] theorem State.ctprod_updJob (s : State) (j : JobId) (f : Job → Job) : (s.updJob j f).ctprod = s.ctprod := rfl
@[simp] theorem State.ctcons_updJob (s : State) (j : JobId) (f : Job → Job) : (s.updJob j f).ctcons = s.ctcons := rfl
@[simp] theorem State.snaps_updJob (s : State) (j : JobId) (f : Job → Job) : (s.updJob j f).snaps = s.snaps := rfl
@[simp] theorem State.waiting_updJob (s : State) (j : JobId) (f : Job → Job) : (s.updJob j f).waiting = s.waiting := rfl
@[simp] theorem State.freeCtr_updJob (s : State) (j : JobId) (f : Job → Job) : (s.updJob j f).freeCtr = s.freeCtr := rfl
@[simp] theorem State.agenda_updJob (s : State) (j : JobId) (f : Job → Job) : (s.updJob j f).agenda = s.agenda := rfl
@[simp] theorem State.cur_updJob (s : State) (j : JobId) (f : Job → Job) : (s.updJob j f).cur = s.cur := rfl
@[simp] theorem State.out_updJob (s : State) (j : JobId) (f : Job → Job) : (s.updJob j f).out = s.out := rfl
@[simp] theorem State.core_updJob (s : State) (j : JobId) (f : Job → Job) (d : CoreId) : (s.updJob j f).core d = s.core d := rfl
@[simp] theorem State.cluster_updJob (s : State) (j : JobId) (f : Job → Job) (d : ClusterId) : (s.updJob j f).cluster d = s.cluster d := rfl
@[simp] theorem State.part_updJob (s : State) (j : JobId) (f : Job → Job) (d : PartId) : (s.updJob j f).part d = s.part d := rfl
@[simp] theorem State.slice_updJob (s : State) (j : JobId) (f : Job → Job) (d : Fin 32) : (s.updJob j f).slice d = s.slice d := rfl
@[simp] theorem State.queue_updJob (s : State) (j : JobId) (f : Job → Job) (d : QueueId) : (s.updJob j f).queue d = s.queue d := rfl
@[simp] theorem State.cores_setQueue (s : State) (k : Queue) : (s.setQueue k).cores = s.cores := rfl
@[simp] theorem State.clusters_setQueue (s : State) (k : Queue) : (s.setQueue k).clusters = s.clusters := rfl
@[simp] theorem State.mem_setQueue (s : State) (k : Queue) : (s.setQueue k).mem = s.mem := rfl
@[simp] theorem State.side_setQueue (s : State) (k : Queue) : (s.setQueue k).side = s.side := rfl
@[simp] theorem State.lines_setQueue (s : State) (k : Queue) : (s.setQueue k).lines = s.lines := rfl
@[simp] theorem State.tlb_setQueue (s : State) (k : Queue) : (s.setQueue k).tlb = s.tlb := rfl
@[simp] theorem State.slices_setQueue (s : State) (k : Queue) : (s.setQueue k).slices = s.slices := rfl
@[simp] theorem State.parts_setQueue (s : State) (k : Queue) : (s.setQueue k).parts = s.parts := rfl
@[simp] theorem State.labels_setQueue (s : State) (k : Queue) : (s.setQueue k).labels = s.labels := rfl
@[simp] theorem State.slotted_setQueue (s : State) (k : Queue) : (s.setQueue k).slotted = s.slotted := rfl
@[simp] theorem State.jobs_setQueue (s : State) (k : Queue) : (s.setQueue k).jobs = s.jobs := rfl
@[simp] theorem State.reps_setQueue (s : State) (k : Queue) : (s.setQueue k).reps = s.reps := rfl
@[simp] theorem State.repq_setQueue (s : State) (k : Queue) : (s.setQueue k).repq = s.repq := rfl
@[simp] theorem State.colls_setQueue (s : State) (k : Queue) : (s.setQueue k).colls = s.colls := rfl
@[simp] theorem State.collHeld_setQueue (s : State) (k : Queue) : (s.setQueue k).collHeld = s.collHeld := rfl
@[simp] theorem State.abortHeld_setQueue (s : State) (k : Queue) : (s.setQueue k).abortHeld = s.abortHeld := rfl
@[simp] theorem State.collTop_setQueue (s : State) (k : Queue) : (s.setQueue k).collTop = s.collTop := rfl
@[simp] theorem State.links_setQueue (s : State) (k : Queue) : (s.setQueue k).links = s.links := rfl
@[simp] theorem State.time_setQueue (s : State) (k : Queue) : (s.setQueue k).time = s.time := rfl
@[simp] theorem State.refillAt_setQueue (s : State) (k : Queue) : (s.setQueue k).refillAt = s.refillAt := rfl
@[simp] theorem State.boot_setQueue (s : State) (k : Queue) : (s.setQueue k).boot = s.boot := rfl
@[simp] theorem State.pwr_setQueue (s : State) (k : Queue) : (s.setQueue k).pwr = s.pwr := rfl
@[simp] theorem State.hprec_setQueue (s : State) (k : Queue) : (s.setQueue k).hprec = s.hprec := rfl
@[simp] theorem State.hpcnt_setQueue (s : State) (k : Queue) : (s.setQueue k).hpcnt = s.hpcnt := rfl
@[simp] theorem State.ualnum_setQueue (s : State) (k : Queue) : (s.setQueue k).ualnum = s.ualnum := rfl
@[simp] theorem State.causes_setQueue (s : State) (k : Queue) : (s.setQueue k).causes = s.causes := rfl
@[simp] theorem State.ctprod_setQueue (s : State) (k : Queue) : (s.setQueue k).ctprod = s.ctprod := rfl
@[simp] theorem State.ctcons_setQueue (s : State) (k : Queue) : (s.setQueue k).ctcons = s.ctcons := rfl
@[simp] theorem State.snaps_setQueue (s : State) (k : Queue) : (s.setQueue k).snaps = s.snaps := rfl
@[simp] theorem State.waiting_setQueue (s : State) (k : Queue) : (s.setQueue k).waiting = s.waiting := rfl
@[simp] theorem State.freeCtr_setQueue (s : State) (k : Queue) : (s.setQueue k).freeCtr = s.freeCtr := rfl
@[simp] theorem State.agenda_setQueue (s : State) (k : Queue) : (s.setQueue k).agenda = s.agenda := rfl
@[simp] theorem State.cur_setQueue (s : State) (k : Queue) : (s.setQueue k).cur = s.cur := rfl
@[simp] theorem State.out_setQueue (s : State) (k : Queue) : (s.setQueue k).out = s.out := rfl
@[simp] theorem State.core_setQueue (s : State) (k : Queue) (d : CoreId) : (s.setQueue k).core d = s.core d := rfl
@[simp] theorem State.cluster_setQueue (s : State) (k : Queue) (d : ClusterId) : (s.setQueue k).cluster d = s.cluster d := rfl
@[simp] theorem State.part_setQueue (s : State) (k : Queue) (d : PartId) : (s.setQueue k).part d = s.part d := rfl
@[simp] theorem State.slice_setQueue (s : State) (k : Queue) (d : Fin 32) : (s.setQueue k).slice d = s.slice d := rfl
@[simp] theorem State.job_setQueue (s : State) (k : Queue) (d : JobId) : (s.setQueue k).job? d = s.job? d := rfl

/-! ### Registers of a core: x0 reads as zero and discards writes (R250) -/

@[simp] theorem Core.xval_zero (k : Core) : k.xval 0 = 0 := rfl
@[simp] theorem Core.xlbl_zero (k : Core) : k.xlbl 0 = 0 := rfl
@[simp] theorem Core.pending_zero (k : Core) : k.pending 0 = false := rfl
@[simp] theorem Core.setX_zero (k : Core) (v : Word) (l : Label) : k.setX 0 v l = k := rfl

theorem i6_ne {a b : BitVec 6} (h : a ≠ b) : i6 a ≠ i6 b := fun e => h (BitVec.eq_of_toNat_eq (congrArg Fin.val e))

@[simp] theorem Core.xval_setX_self (k : Core) (r : BitVec 6) (v : Word) (l : Label) : (k.setX r v l).xval r = if r = 0 then 0 else v := by
  unfold Core.setX Core.xval
  split <;> simp_all

@[simp] theorem Core.xlbl_setX_self (k : Core) (r : BitVec 6) (v : Word) (l : Label) : (k.setX r v l).xlbl r = if r = 0 then 0 else l := by
  unfold Core.setX Core.xlbl
  split <;> simp_all

@[simp] theorem Core.xval_setX_ne (k : Core) (r q : BitVec 6) (v : Word) (l : Label) (h : q ≠ r) : (k.setX r v l).xval q = k.xval q := by
  by_cases hr : r = 0
  · rw [Core.setX, if_pos hr]
  · rw [Core.setX, if_neg hr]
    simp only [Core.xval, rd_wr_ne _ _ _ _ (i6_ne h)]

@[simp] theorem Core.xlbl_setX_ne (k : Core) (r q : BitVec 6) (v : Word) (l : Label) (h : q ≠ r) : (k.setX r v l).xlbl q = k.xlbl q := by
  by_cases hr : r = 0
  · rw [Core.setX, if_pos hr]
  · rw [Core.setX, if_neg hr]
    simp only [Core.xlbl, rd_wr_ne _ _ _ _ (i6_ne h)]

@[simp] theorem Core.job_setX (k : Core) (r : BitVec 6) (v : Word) (l : Label) : (k.setX r v l).job = k.job := by unfold Core.setX; split <;> rfl
@[simp] theorem Core.pend_setX (k : Core) (r : BitVec 6) (v : Word) (l : Label) : (k.setX r v l).pend = k.pend := by unfold Core.setX; split <;> rfl
@[simp] theorem Core.seq_setX (k : Core) (r : BitVec 6) (v : Word) (l : Label) : (k.setX r v l).seq = k.seq := by unfold Core.setX; split <;> rfl
@[simp] theorem Core.csr_setX (k : Core) (r : BitVec 6) (v : Word) (l : Label) : (k.setX r v l).csr = k.csr := by unfold Core.setX; split <;> rfl
@[simp] theorem Core.id_setX (k : Core) (r : BitVec 6) (v : Word) (l : Label) : (k.setX r v l).id = k.id := by unfold Core.setX; split <;> rfl
@[simp] theorem Core.st_setX (k : Core) (r : BitVec 6) (v : Word) (l : Label) : (k.setX r v l).st = k.st := by unfold Core.setX; split <;> rfl
@[simp] theorem Core.arr_setX (k : Core) (r : BitVec 6) (v : Word) (l : Label) : (k.setX r v l).arr = k.arr := by unfold Core.setX; split <;> rfl
@[simp] theorem Core.rdvDone_setX (k : Core) (r : BitVec 6) (v : Word) (l : Label) : (k.setX r v l).rdvDone = k.rdvDone := by unfold Core.setX; split <;> rfl
@[simp] theorem Core.rdvWait_setX (k : Core) (r : BitVec 6) (v : Word) (l : Label) : (k.setX r v l).rdvWait = k.rdvWait := by unfold Core.setX; split <;> rfl
@[simp] theorem Core.forked_setX (k : Core) (r : BitVec 6) (v : Word) (l : Label) : (k.setX r v l).forked = k.forked := by unfold Core.setX; split <;> rfl
@[simp] theorem Core.started_setX (k : Core) (r : BitVec 6) (v : Word) (l : Label) : (k.setX r v l).started = k.started := by unfold Core.setX; split <;> rfl
@[simp] theorem Core.atraps_setX (k : Core) (r : BitVec 6) (v : Word) (l : Label) : (k.setX r v l).atraps = k.atraps := by unfold Core.setX; split <;> rfl
@[simp] theorem Core.handlers_setX (k : Core) (r : BitVec 6) (v : Word) (l : Label) : (k.setX r v l).handlers = k.handlers := by unfold Core.setX; split <;> rfl
@[simp] theorem Core.atWfi_setX (k : Core) (r : BitVec 6) (v : Word) (l : Label) : (k.setX r v l).atWfi = k.atWfi := by unfold Core.setX; split <;> rfl
@[simp] theorem Core.waitT_setX (k : Core) (r : BitVec 6) (v : Word) (l : Label) : (k.setX r v l).waitT = k.waitT := by unfold Core.setX; split <;> rfl
@[simp] theorem Core.wpx_setX (k : Core) (r : BitVec 6) (v : Word) (l : Label) : (k.setX r v l).wpx = k.wpx := by unfold Core.setX; split <;> rfl
@[simp] theorem Core.journal_setX (k : Core) (r : BitVec 6) (v : Word) (l : Label) : (k.setX r v l).journal = k.journal := by unfold Core.setX; split <;> rfl
@[simp] theorem Core.low_setX (k : Core) (r : BitVec 6) (v : Word) (l : Label) : (k.setX r v l).low = k.low := by unfold Core.setX; split <;> rfl
@[simp] theorem Core.head_setX (k : Core) (r : BitVec 6) (v : Word) (l : Label) : (k.setX r v l).head = k.head := by unfold Core.setX; split <;> rfl
@[simp] theorem Core.replay_setX (k : Core) (r : BitVec 6) (v : Word) (l : Label) : (k.setX r v l).replay = k.replay := by unfold Core.setX; split <;> rfl
@[simp] theorem Core.tok_setX (k : Core) (r : BitVec 6) (v : Word) (l : Label) : (k.setX r v l).tok = k.tok := by unfold Core.setX; split <;> rfl
@[simp] theorem Core.sems_setX (k : Core) (r : BitVec 6) (v : Word) (l : Label) : (k.setX r v l).sems = k.sems := by unfold Core.setX; split <;> rfl
@[simp] theorem Core.sync_setX (k : Core) (r : BitVec 6) (v : Word) (l : Label) : (k.setX r v l).sync = k.sync := by unfold Core.setX; split <;> rfl
@[simp] theorem Core.seen_setX (k : Core) (r : BitVec 6) (v : Word) (l : Label) : (k.setX r v l).seen = k.seen := by unfold Core.setX; split <;> rfl
@[simp] theorem Core.domReq_setX (k : Core) (r : BitVec 6) (v : Word) (l : Label) : (k.setX r v l).domReq = k.domReq := by unfold Core.setX; split <;> rfl
@[simp] theorem Core.phArr_setX (k : Core) (r : BitVec 6) (v : Word) (l : Label) : (k.setX r v l).phArr = k.phArr := by unfold Core.setX; split <;> rfl
@[simp] theorem Core.tcps_setX (k : Core) (r : BitVec 6) (v : Word) (l : Label) : (k.setX r v l).tcps = k.tcps := by unfold Core.setX; split <;> rfl
@[simp] theorem Core.spill_setX (k : Core) (r : BitVec 6) (v : Word) (l : Label) : (k.setX r v l).spill = k.spill := by unfold Core.setX; split <;> rfl
@[simp] theorem Core.l_setX (k : Core) (r : BitVec 6) (v : Word) (l : Label) : (k.setX r v l).l = k.l := by unfold Core.setX; split <;> rfl
@[simp] theorem Core.xe_setX (k : Core) (r : BitVec 6) (v : Word) (l : Label) : (k.setX r v l).xe = k.xe := by unfold Core.setX; split <;> rfl
@[simp] theorem Core.s_setX (k : Core) (r : BitVec 6) (v : Word) (l : Label) : (k.setX r v l).s = k.s := by unfold Core.setX; split <;> rfl
@[simp] theorem Core.ls_setX (k : Core) (r : BitVec 6) (v : Word) (l : Label) : (k.setX r v l).ls = k.ls := by unfold Core.setX; split <;> rfl
@[simp] theorem Core.xs_setX (k : Core) (r : BitVec 6) (v : Word) (l : Label) : (k.setX r v l).xs = k.xs := by unfold Core.setX; split <;> rfl
@[simp] theorem Core.ss_setX (k : Core) (r : BitVec 6) (v : Word) (l : Label) : (k.setX r v l).ss = k.ss := by unfold Core.setX; split <;> rfl
@[simp] theorem Core.flights_setX (k : Core) (r : BitVec 6) (v : Word) (l : Label) : (k.setX r v l).flights = k.flights := by unfold Core.setX; split <;> rfl
@[simp] theorem Core.gwait_setX (k : Core) (r : BitVec 6) (v : Word) (l : Label) : (k.setX r v l).gwait = k.gwait := by unfold Core.setX; split <;> rfl
@[simp] theorem Core.dbg_setX (k : Core) (r : BitVec 6) (v : Word) (l : Label) : (k.setX r v l).dbg = k.dbg := by unfold Core.setX; split <;> rfl

/-! ### The four strands -/

@[simp] theorem Four.get_set_self {α : Type} (f : Four α) (st : Strand) (a : α) : (f.set st a).get st = a := by cases st <;> rfl

@[simp] theorem Four.get_set_ne {α : Type} (f : Four α) (st o : Strand) (a : α) (h : o ≠ st) : (f.set st a).get o = f.get o := by
  cases st <;> cases o <;> first | rfl | exact absurd rfl h

@[simp] theorem Core.eng_setEng_L (k : Core) (e : Eng) : (k.setEng .L e).eng .L = e := rfl
@[simp] theorem Core.eng_setEng_X (k : Core) (e : Eng) : (k.setEng .X e).eng .X = e := rfl
@[simp] theorem Core.eng_setEng_S (k : Core) (e : Eng) : (k.setEng .S e).eng .S = e := rfl

@[simp] theorem Core.job_setEng (k : Core) (st : Strand) (e : Eng) : (k.setEng st e).job = k.job := by cases st <;> rfl
@[simp] theorem Core.x_setEng (k : Core) (st : Strand) (e : Eng) : (k.setEng st e).x = k.x := by cases st <;> rfl
@[simp] theorem Core.xl_setEng (k : Core) (st : Strand) (e : Eng) : (k.setEng st e).xl = k.xl := by cases st <;> rfl
@[simp] theorem Core.pend_setEng (k : Core) (st : Strand) (e : Eng) : (k.setEng st e).pend = k.pend := by cases st <;> rfl
@[simp] theorem Core.seq_setEng (k : Core) (st : Strand) (e : Eng) : (k.setEng st e).seq = k.seq := by cases st <;> rfl
@[simp] theorem Core.csr_setEng (k : Core) (st : Strand) (e : Eng) : (k.setEng st e).csr = k.csr := by cases st <;> rfl
@[simp] theorem Core.id_setEng (k : Core) (st : Strand) (e : Eng) : (k.setEng st e).id = k.id := by cases st <;> rfl
@[simp] theorem Core.st_setEng (k : Core) (st : Strand) (e : Eng) : (k.setEng st e).st = k.st := by cases st <;> rfl
@[simp] theorem Core.arr_setEng (k : Core) (st : Strand) (e : Eng) : (k.setEng st e).arr = k.arr := by cases st <;> rfl
@[simp] theorem Core.rdvDone_setEng (k : Core) (st : Strand) (e : Eng) : (k.setEng st e).rdvDone = k.rdvDone := by cases st <;> rfl
@[simp] theorem Core.rdvWait_setEng (k : Core) (st : Strand) (e : Eng) : (k.setEng st e).rdvWait = k.rdvWait := by cases st <;> rfl
@[simp] theorem Core.forked_setEng (k : Core) (st : Strand) (e : Eng) : (k.setEng st e).forked = k.forked := by cases st <;> rfl
@[simp] theorem Core.started_setEng (k : Core) (st : Strand) (e : Eng) : (k.setEng st e).started = k.started := by cases st <;> rfl
@[simp] theorem Core.atraps_setEng (k : Core) (st : Strand) (e : Eng) : (k.setEng st e).atraps = k.atraps := by cases st <;> rfl
@[simp] theorem Core.handlers_setEng (k : Core) (st : Strand) (e : Eng) : (k.setEng st e).handlers = k.handlers := by cases st <;> rfl
@[simp] theorem Core.atWfi_setEng (k : Core) (st : Strand) (e : Eng) : (k.setEng st e).atWfi = k.atWfi := by cases st <;> rfl
@[simp] theorem Core.waitT_setEng (k : Core) (st : Strand) (e : Eng) : (k.setEng st e).waitT = k.waitT := by cases st <;> rfl
@[simp] theorem Core.wpx_setEng (k : Core) (st : Strand) (e : Eng) : (k.setEng st e).wpx = k.wpx := by cases st <;> rfl
@[simp] theorem Core.journal_setEng (k : Core) (st : Strand) (e : Eng) : (k.setEng st e).journal = k.journal := by cases st <;> rfl
@[simp] theorem Core.low_setEng (k : Core) (st : Strand) (e : Eng) : (k.setEng st e).low = k.low := by cases st <;> rfl
@[simp] theorem Core.head_setEng (k : Core) (st : Strand) (e : Eng) : (k.setEng st e).head = k.head := by cases st <;> rfl
@[simp] theorem Core.replay_setEng (k : Core) (st : Strand) (e : Eng) : (k.setEng st e).replay = k.replay := by cases st <;> rfl
@[simp] theorem Core.tok_setEng (k : Core) (st : Strand) (e : Eng) : (k.setEng st e).tok = k.tok := by cases st <;> rfl
@[simp] theorem Core.sems_setEng (k : Core) (st : Strand) (e : Eng) : (k.setEng st e).sems = k.sems := by cases st <;> rfl
@[simp] theorem Core.sync_setEng (k : Core) (st : Strand) (e : Eng) : (k.setEng st e).sync = k.sync := by cases st <;> rfl
@[simp] theorem Core.seen_setEng (k : Core) (st : Strand) (e : Eng) : (k.setEng st e).seen = k.seen := by cases st <;> rfl
@[simp] theorem Core.domReq_setEng (k : Core) (st : Strand) (e : Eng) : (k.setEng st e).domReq = k.domReq := by cases st <;> rfl
@[simp] theorem Core.phArr_setEng (k : Core) (st : Strand) (e : Eng) : (k.setEng st e).phArr = k.phArr := by cases st <;> rfl
@[simp] theorem Core.tcps_setEng (k : Core) (st : Strand) (e : Eng) : (k.setEng st e).tcps = k.tcps := by cases st <;> rfl
@[simp] theorem Core.spill_setEng (k : Core) (st : Strand) (e : Eng) : (k.setEng st e).spill = k.spill := by cases st <;> rfl
@[simp] theorem Core.ls_setEng (k : Core) (st : Strand) (e : Eng) : (k.setEng st e).ls = k.ls := by cases st <;> rfl
@[simp] theorem Core.xs_setEng (k : Core) (st : Strand) (e : Eng) : (k.setEng st e).xs = k.xs := by cases st <;> rfl
@[simp] theorem Core.ss_setEng (k : Core) (st : Strand) (e : Eng) : (k.setEng st e).ss = k.ss := by cases st <;> rfl
@[simp] theorem Core.flights_setEng (k : Core) (st : Strand) (e : Eng) : (k.setEng st e).flights = k.flights := by cases st <;> rfl
@[simp] theorem Core.gwait_setEng (k : Core) (st : Strand) (e : Eng) : (k.setEng st e).gwait = k.gwait := by cases st <;> rfl
@[simp] theorem Core.dbg_setEng (k : Core) (st : Strand) (e : Eng) : (k.setEng st e).dbg = k.dbg := by cases st <;> rfl

end Sys2Proof.Machine
end

