-- ==== Sys2Proof/Laws/Memory.lean ====
section
/-! SUPPORT. The laws of memory: sorted lists as maps, a read after a write, and the canonical form, which every memory operation
keeps and which memory has at reset. -/

namespace Sys2Proof.Machine

/-! ### Sorted lists as maps -/

section Map
variable {α : Type} [DecidableEq α] {d : α}

theorem mapWfFrom_mono {lo lo' : Nat} {m : List (Nat × α)} (h : lo' ≤ lo) (w : mapWfFrom d lo m = true) : mapWfFrom d lo' m = true := by
  cases m with
  | nil => rfl
  | cons p t =>
    obtain ⟨k, v⟩ := p
    simp only [mapWfFrom, Bool.and_eq_true, decide_eq_true_eq] at w ⊢
    exact ⟨⟨le_trans h w.1.1, w.1.2⟩, w.2⟩

/-- A key below every listed one reads as the default. -/
theorem mapGet_below {lo a : Nat} {m : List (Nat × α)} (w : mapWfFrom d lo m = true) (h : a < lo) : mapGet d m a = d := by
  cases m with
  | nil => rfl
  | cons p t =>
    obtain ⟨k, v⟩ := p
    simp only [mapWfFrom, Bool.and_eq_true, decide_eq_true_eq] at w
    have hk : k ≠ a := by omega
    have hak : a < k := by omega
    simp [mapGet, hk, hak]

/-- Writing keeps the canonical form. -/
theorem mapSet_wf {lo a : Nat} {v : α} {m : List (Nat × α)} (w : mapWfFrom d lo m = true) (h : lo ≤ a) :
    mapWfFrom d lo (mapSet d m a v) = true := by
  induction m generalizing lo with
  | nil =>
    simp only [mapSet]
    split
    · rfl
    · next hv => simp [mapWfFrom, h, hv]
  | cons p t ih =>
    obtain ⟨k, b⟩ := p
    simp only [mapWfFrom, Bool.and_eq_true, decide_eq_true_eq] at w
    obtain ⟨⟨hlo, hb⟩, ht⟩ := w
    simp only [mapSet]
    split
    · next hka => simp [mapWfFrom, hlo, hb, ih ht hka]
    · next hka =>
      split
      · next hkeq =>
        subst hkeq
        split
        · exact mapWfFrom_mono (by omega) ht
        · next hv => simp [mapWfFrom, hlo, hv, ht]
      · next hkne =>
        have hak : a + 1 ≤ k := by omega
        split
        · simp [mapWfFrom, hlo, hb, ht]
        · next hv => simp [mapWfFrom, h, hv, hak, hb, ht]

/-- A read after a write to the same key gives what was written. -/
theorem mapGet_mapSet_self {lo a : Nat} {v : α} {m : List (Nat × α)} (w : mapWfFrom d lo m = true) : mapGet d (mapSet d m a v) a = v := by
  induction m generalizing lo with
  | nil =>
    simp only [mapSet]
    split
    · next hv => simp [mapGet, hv]
    · simp [mapGet]
  | cons p t ih =>
    obtain ⟨k, b⟩ := p
    simp only [mapWfFrom, Bool.and_eq_true, decide_eq_true_eq] at w
    obtain ⟨⟨hlo, hb⟩, ht⟩ := w
    simp only [mapSet]
    split
    · next hka =>
      have h1 : k ≠ a := by omega
      have h2 : ¬ a < k := by omega
      simp [mapGet, h1, h2, ih ht]
    · split
      · next hkeq =>
        subst hkeq
        split
        · next hv => rw [hv]; exact mapGet_below ht (by omega)
        · simp [mapGet]
      · split
        · next hv =>
          have h1 : k ≠ a := by omega
          have h2 : a < k := by omega
          simp [mapGet, h1, h2, hv]
        · simp [mapGet]

/-- A write leaves every other key alone. -/
theorem mapGet_mapSet_ne {lo a c : Nat} {v : α} {m : List (Nat × α)} (w : mapWfFrom d lo m = true) (h : c ≠ a) :
    mapGet d (mapSet d m a v) c = mapGet d m c := by
  induction m generalizing lo with
  | nil =>
    simp only [mapSet]
    split
    · rfl
    · simp [mapGet, h.symm]
  | cons p t ih =>
    obtain ⟨k, b⟩ := p
    simp only [mapWfFrom, Bool.and_eq_true, decide_eq_true_eq] at w
    obtain ⟨⟨hlo, hb⟩, ht⟩ := w
    simp only [mapSet]
    split
    · simp only [mapGet, ih ht]
    · split
      · next hkeq =>
        subst hkeq
        split
        · simp only [mapGet, if_neg h.symm]
          split
          · next hlt => exact mapGet_below ht (by omega)
          · rfl
        · simp [mapGet, h.symm]
      · split
        · rfl
        · next hka hkne hv =>
          simp only [mapGet, if_neg h.symm]
          split
          · next hlt =>
            have h1 : k ≠ c := by omega
            have h2 : c < k := by omega
            simp [h1, h2]
          · rfl

end Map

/-- Storing bytes keeps the canonical form. -/
theorem putBytes_wf {m : List Host.Cell} (w : Memory.wf m = true) (a : Nat) (bs : List Byte) : Memory.wf (putBytes m a bs) = true := by
  induction bs generalizing m a with
  | nil => exact w
  | cons b bs ih => exact ih (mapSet_wf w (Nat.zero_le a)) (a + 1)

/-- A byte outside the stored ones reads as before. -/
theorem mapGet_putBytes_out {m : List Host.Cell} (w : Memory.wf m = true) (a c : Nat) (bs : List Byte) (h : c < a ∨ a + bs.length ≤ c) :
    mapGet 0 (putBytes m a bs) c = mapGet 0 m c := by
  induction bs generalizing m a with
  | nil => rfl
  | cons b bs ih =>
    simp only [List.length_cons] at h
    rw [putBytes, ih (mapSet_wf w (Nat.zero_le a)) (a + 1) (by omega), mapGet_mapSet_ne w (by omega)]

/-- A stored byte reads as what was stored. -/
theorem mapGet_putBytes_in {m : List Host.Cell} (w : Memory.wf m = true) (a i : Nat) (bs : List Byte) (h : i < bs.length) :
    mapGet 0 (putBytes m a bs) (a + i) = bs[i] := by
  induction bs generalizing m a i with
  | nil => simp at h
  | cons b bs ih =>
    have w1 : Memory.wf (mapSet 0 m a b) = true := mapSet_wf w (Nat.zero_le a)
    cases i with
    | zero =>
      rw [putBytes, mapGet_putBytes_out w1 (a + 1) (a + 0) bs (by omega)]
      exact mapGet_mapSet_self w
    | succ i =>
      have e : a + (i + 1) = a + 1 + i := by omega
      rw [putBytes, e, ih w1 (a + 1) i (by simpa using h)]
      simp

/-! ### Steps that keep a property of the state -/

/-- A state step keeps a property. -/
def Keeps (I : State → Prop) {α : Type} (m : SM α) : Prop := ∀ s, I s → I (m s).2

section Keeps
variable {I : State → Prop} {α β : Type}

theorem keeps_pure (a : α) : Keeps I (pure a : SM α) := fun _ h => h

theorem keeps_bind {m : SM α} {f : α → SM β} (hm : Keeps I m) (hf : ∀ a, Keeps I (f a)) : Keeps I (m >>= f) :=
  fun s h => hf (m s).1 (m s).2 (hm s h)

theorem keeps_get : Keeps I (get : SM State) := fun _ h => h

theorem keeps_getBind {f : State → SM β} (h : ∀ s, I s → I (f s s).2) : Keeps I (get >>= f) := h

theorem keeps_modify {f : State → State} (h : ∀ s, I s → I (f s)) : Keeps I (modify f : SM PUnit) := h

theorem keeps_ite {c : Prop} [Decidable c] {m n : SM α} (hm : Keeps I m) (hn : Keeps I n) : Keeps I (if c then m else n) := by
  split
  · exact hm
  · exact hn

theorem keeps_foldlM (f : β → α → SM β) (hf : ∀ b a, Keeps I (f b a)) (l : List α) (b : β) : Keeps I (l.foldlM f b) := by
  induction l generalizing b with
  | nil => exact keeps_pure b
  | cons a l ih =>
    rw [List.foldlM_cons]
    exact keeps_bind (hf b a) (fun c => ih c)

theorem keeps_mapM (f : α → SM β) (hf : ∀ a, Keeps I (f a)) (l : List α) : Keeps I (l.mapM f) := by
  induction l with
  | nil => exact fun _ h => h
  | cons a l ih =>
    rw [List.mapM_cons]
    exact keeps_bind (hf a) (fun _ => keeps_bind ih (fun _ => keeps_pure _))

theorem keeps_foldlM_mem (f : β → α → SM β) (l : List α) (hf : ∀ b, ∀ a ∈ l, Keeps I (f b a)) (b : β) : Keeps I (l.foldlM f b) := by
  induction l generalizing b with
  | nil => exact keeps_pure b
  | cons a l ih =>
    rw [List.foldlM_cons]
    exact keeps_bind (hf b a List.mem_cons_self) (fun c => ih (fun b x hx => hf b x (List.mem_cons_of_mem a hx)) c)

end Keeps

/-- What a property of the state has to allow for accesses and translations to keep it. -/
structure Closed (I : State → Prop) : Prop where
  labels : ∀ s l o, I s → I { s with labels := l, out := o }
  ctr : ∀ s n, I s → I { s with freeCtr := n }
  out : ∀ s o, I s → I { s with out := o }
  waiting : ∀ s w, I s → I { s with waiting := w }
  tlb : ∀ s t, I s → I { s with tlb := t }
  clusters : ∀ s cl f, I s → I (s.updCluster cl f)
  parts : ∀ s p f, I s → I (s.updPart p f)
  drop : ∀ s n, I s → I (s.dropLine n)
  put : ∀ s a n o bs l p, I s → I (putSector a n o bs l p s)
  hostMem : ∀ s a b, I s → I { s with mem := putBytes s.mem a b }
  back : ∀ s l, l ∈ s.lines → I s → I (writeback l s)
  clean : ∀ s x, x.dirty = false → I s → I (s.putLine x)
  held : ∀ s x, paLocal (x.sector * 64) = true → I s → I (s.putLine x)

section Closed
variable {I : State → Prop} (hI : Closed I)
include hI

theorem keeps_resolveJoin (p : PartId) (a b : Label) : Keeps I (resolveJoin p a b) := by
  intro s h
  have hl : ∀ l, I { s with labels := l } := fun l => hI.labels s l s.out h
  unfold resolveJoin
  dsimp only
  repeat' split
  all_goals first | exact h | exact hl _ | exact hI.labels s _ _ h

theorem keeps_joinAt (d : Fin 4) (p : PartId) (a b : Label) : Keeps I (joinAt d p a b) := by
  intro s h
  have hr := keeps_resolveJoin hI p (liveId s.labels a) (liveId s.labels b) s h
  unfold joinAt
  dsimp only
  repeat' split
  all_goals first
    | exact h
    | exact hI.labels s _ s.out h
    | exact hI.labels _ _ _ hr

theorem keeps_joinAll (d : Fin 4) (p : PartId) (ls : List Label) : Keeps I (joinAll d p ls) :=
  keeps_foldlM _ (fun a l => keeps_joinAt hI d p a l) _ _

theorem keeps_freshBytes (n : Nat) : Keeps I (freshBytes n) := fun s h => hI.ctr s _ h
theorem keeps_freshNat : Keeps I freshNat := fun s h => hI.ctr s _ h
theorem keeps_freshWord : Keeps I freshWord := fun s h => hI.ctr s _ h

theorem closed_charge (p : PartId) (k : HlKind) (n : Nat) (s : State) (h : I s) : I (charge p k n s) := by
  unfold charge
  split
  · exact h
  · exact hI.parts _ _ _ h

theorem closed_emitAt (port : Nat) (m : OutMsg) (s : State) (h : I s) : I (emitAt port m s) := by
  unfold emitAt
  split
  · exact hI.waiting _ _ h
  · exact hI.out _ _ h

theorem keeps_freePort (cls : Nat) : Keeps I (freePort cls) :=
  keeps_ite (keeps_pure _) (keeps_bind (keeps_freshNat hI) (fun _ => keeps_pure _))

theorem keeps_emit (cls : Nat) (m : OutMsg) : Keeps I (emit cls m) :=
  fun s h => closed_emitAt hI _ _ _ (keeps_freePort hI cls s h)

/-- A packet toward the host or a remote package, sent or dropped. -/
theorem keeps_sendOut (job pa : Nat) (bs : List Byte) (l : Label) (va : Word) : Keeps I (sendOut job pa bs l va) := by
  intro s h
  unfold sendOut
  split
  · dsimp only
    split
    · exact hI.hostMem _ _ _ h
    · exact keeps_emit hI _ _ _ h
  · exact hI.labels _ _ _ (keeps_freePort hI _ s h)

theorem closed_pull (me : Option Owner) (n : Nat) (s : State) (h : I s) : I (pull me n s) := by
  unfold pull
  repeat' split
  · exact h
  · next e _ => exact hI.back _ _ (List.mem_of_find?_eq_some e) h
  · exact h

theorem closed_unpresent (me : Option Owner) (n : Nat) (s : State) (h : I s) : I (unpresent me n s) := by
  unfold unpresent
  generalize (List.finRange 112).filter _ = cls
  induction cls generalizing s with
  | nil => exact h
  | cons c cls ih => exact ih _ (hI.clusters _ _ _ h)

theorem closed_claim (me : Option Owner) (n : Nat) (s : State) (h : I s) : I (claim me n s) := by
  have h1 : I (unpresent me n (pull me n s)) := closed_unpresent hI _ _ _ (closed_pull hI _ _ _ h)
  unfold claim
  dsimp only
  repeat' split
  all_goals first | exact h1 | exact hI.drop _ _ h1

theorem keeps_homeSector (n : Nat) : Keeps I (homeSector n) := by
  intro s h
  unfold homeSector
  dsimp only
  split
  · exact keeps_emit hI 1 _ (freshBytes 64 s).2 (keeps_freshBytes hI 64 s h)
  · exact h

theorem keeps_readSector (me : Option Owner) (n : Nat) : Keeps I (readSector me n) := by
  intro s h
  have h1 := closed_pull hI me n s h
  have h2 := keeps_homeSector hI n _ h1
  unfold readSector
  dsimp only
  split
  · exact h1
  · generalize homeSector n (pull me n s) = r at h2
    obtain ⟨v, u⟩ := r
    dsimp only at h2 ⊢
    split
    · exact hI.clean u _ rfl h2
    · exact h2

theorem keeps_physRead (pa n : Nat) : Keeps I (physRead pa n) :=
  keeps_foldlM _ (fun _ _ => keeps_bind (keeps_readSector hI _ _) (fun _ => keeps_pure _)) _ _

/-! ### Walks and translations -/

theorem keeps_tablePhys (p : PartId) (pa n : Nat) : Keeps I (tablePhys p pa n) := by
  have hr : Keeps I (do
      let g ← physRead pa n
      return if g.poison then .error PFault.poisoned else .ok g.bytes : SM (Except PFault (List Byte))) :=
    keeps_bind (keeps_physRead hI _ _) (fun _ => keeps_pure _)
  unfold tablePhys
  dsimp only
  split
  · exact keeps_bind (keeps_modify (fun s h => closed_charge hI _ _ _ s h)) (fun _ => hr)
  · exact hr

theorem keeps_ctLeaf (stage : Nat) (es : List Nat) (e inp : Nat) : Keeps I (ctLeaf stage es e inp) :=
  keeps_ite (keeps_pure _) (keeps_bind (keeps_freshNat hI) (fun _ => keeps_pure _))

theorem keeps_walkEntry (stage lev inp e : Nat) (next : Nat → SM (Except PFault Leaf)) (group : SM (Except PFault (List Byte)))
    (hn : ∀ a, Keeps I (next a)) (hg : Keeps I group) : Keeps I (walkEntry stage lev inp e next group) := by
  unfold walkEntry
  repeat' split
  all_goals first
    | exact keeps_pure _
    | exact hn _
    | (refine keeps_bind hg (fun r => ?_)
       split
       · exact keeps_pure _
       · exact keeps_ctLeaf hI _ _ _ _)

theorem keeps_walk2 (p : PartId) (inp fuel lev table : Nat) : Keeps I (walk2 p inp fuel lev table) := by
  induction fuel generalizing lev table with
  | zero => exact keeps_pure _
  | succ n ih =>
    unfold walk2
    refine keeps_bind (keeps_tablePhys hI _ _ _) (fun r => ?_)
    split
    · exact keeps_pure _
    · exact keeps_walkEntry hI _ _ _ _ _ _ (fun _ => ih _ _) (keeps_tablePhys hI _ _ _)

theorem keeps_walkIpa (p : PartId) (root : Word) (ipa : Nat) : Keeps I (walkIpa p root ipa) :=
  keeps_ite (keeps_walk2 hI _ _ _ _ _) (keeps_pure _)

theorem keeps_tableRead (p : PartId) (root : Word) (ea n : Nat) : Keeps I (tableRead p root ea n) := by
  unfold tableRead
  refine keeps_bind (keeps_walkIpa hI _ _ _) (fun r => ?_)
  repeat' split
  · exact keeps_pure _
  · exact keeps_pure _
  · refine keeps_bind keeps_get (fun s => ?_)
    split
    · exact keeps_pure _
    · exact keeps_tablePhys hI _ _ _

theorem keeps_walk1 (p : PartId) (root : Word) (inp fuel lev table : Nat) : Keeps I (walk1 p root inp fuel lev table) := by
  induction fuel generalizing lev table with
  | zero => exact keeps_pure _
  | succ n ih =>
    unfold walk1
    refine keeps_bind (keeps_tableRead hI _ _ _ _) (fun r => ?_)
    split
    · exact keeps_pure _
    · exact keeps_walkEntry hI _ _ _ _ _ _ (fun _ => ih _ _) (keeps_tableRead hI _ _ _ _)

theorem keeps_root1 (p : PartId) (asid : BitVec 16) : Keeps I (root1 p asid) := by
  unfold root1
  refine keeps_bind keeps_get (fun s => keeps_bind (keeps_tablePhys hI _ _ _) (fun r => ?_))
  split <;> exact keeps_pure _

theorem keeps_walkBoth (p : PartId) (vd : BitVec 3) (asid : BitVec 16) (va : Nat) : Keeps I (walkBoth p vd asid va) := by
  unfold walkBoth
  refine keeps_bind keeps_get (fun s => keeps_bind (keeps_root1 hI _ _) (fun r => ?_))
  repeat' split
  · exact keeps_pure _
  · exact keeps_pure _
  · refine keeps_bind (keeps_walk1 hI _ _ _ _ _ _) (fun r => ?_)
    split
    · exact keeps_pure _
    · refine keeps_bind (keeps_walkIpa hI _ _ _) (fun r => ?_)
      split
      · exact keeps_pure _
      · exact keeps_bind (keeps_resolveJoin hI _ _ _) (fun _ => keeps_pure _)

theorem keeps_lookupPage (p : PartId) (vd : BitVec 3) (asid : BitVec 16) (va : Nat) : Keeps I (lookupPage p vd asid va) := by
  intro s h
  have hw := keeps_walkBoth hI p vd asid va s h
  unfold lookupPage
  split
  · exact h
  · split
    · exact h
    · split
      · next e => rw [e] at hw; exact hw
      · next e => rw [e] at hw; exact hI.tlb _ _ hw

theorem keeps_stashPage (w : Who) (cl : ClusterId) (idx v : Nat) (acc : Acc) : Keeps I (stashPage w cl idx v acc) := by
  intro s h
  have hw := keeps_lookupPage hI w.pid w.vd w.asid (v * 4096) s h
  unfold stashPage
  split
  · exact h
  · split
    · next e => rw [e] at hw; exact hw
    · next t u e =>
      rw [e] at hw
      repeat' split
      all_goals first | exact hw | exact hI.clusters u cl (fun k => { k with frames := frameOf idx t :: k.frames }) hw

theorem keeps_onePage (w : Who) (v : Nat) (acc : Acc) : Keeps I (onePage w v acc) := by
  intro s h
  have hw := keeps_lookupPage hI w.pid w.vd w.asid (v * 4096) s h
  unfold onePage
  split
  · exact keeps_stashPage hI _ _ _ _ _ _ h
  · split
    · next e => rw [e] at hw; exact hw
    · next e =>
      rw [e] at hw
      split <;> exact hw

theorem keeps_needPage (w : Who) (n : PageNeed) : Keeps I (needPage w n) := by
  intro s h
  unfold needPage
  split
  · exact h
  · exact keeps_onePage hI _ _ _ s h

theorem keeps_openPages (w : Who) (ns : List PageNeed) : Keeps I (openPages w ns) := by
  induction ns with
  | nil => exact keeps_pure _
  | cons n ns ih =>
    intro s h
    have hw := keeps_needPage hI w n s h
    unfold openPages
    split
    · next e => rw [e] at hw; exact hw
    · next e =>
      rw [e] at hw
      have h2 := ih _ hw
      split
      · next e2 => rw [e2] at h2; exact h2
      · next e2 => rw [e2] at h2; exact h2

/-- A translation of several runs keeps what its accesses keep. -/
theorem keeps_translateRuns (w : Who) (ts : List Touch) : Keeps I (translateRuns w ts) := keeps_openPages hI _ _

theorem keeps_translate (w : Who) (va n : Nat) (acc : Acc) : Keeps I (translate w va n acc) := keeps_openPages hI _ _

/-! ### Data -/

theorem closed_markPresent (o : Option Owner) (n : Nat) (s : State) (h : I s) : I (markPresent o n s) := by
  unfold markPresent
  split
  · exact hI.clusters _ _ _ h
  · exact h

/-- Reading a translated access. -/
theorem keeps_readPieces (w : Who) (ps : List Piece) : Keeps I (readPieces w ps) :=
  keeps_foldlM _ (fun _ _ => keeps_bind keeps_get (fun _ => keeps_bind (keeps_modify (fun s h => closed_charge hI _ _ _ s h)) (fun _ =>
    keeps_bind (keeps_readSector hI _ _) (fun _ => keeps_bind (keeps_modify (fun s h => closed_markPresent hI _ _ s h)) (fun _ =>
      keeps_bind (keeps_joinAt hI _ _ _ _) (fun _ => keeps_bind (keeps_joinAt hI _ _ _ _) (fun _ => keeps_pure _))))))) _ _

theorem keeps_readVirt (w : Who) (va n : Nat) : Keeps I (readVirt w va n) := by
  unfold readVirt
  refine keeps_bind (keeps_translate hI _ _ _ _) (fun r => ?_)
  split
  · exact keeps_pure _
  · exact keeps_bind (keeps_readPieces hI _ _) (fun _ => keeps_pure _)

/-- A write of a sector; `hl`: the sector is local, or the property allows any line. -/
theorem keeps_writeSector (hold : Option Line) (a : Author) (n o : Nat) (bs : List Byte) (l : Label)
    (hl : paLocal (n * 64) = true ∨ ∀ s x, I s → I (s.putLine x)) : Keeps I (writeSector hold a n o bs l) := by
  intro s h
  unfold writeSector
  split
  · have h1 : ∀ me, I (claim me n s) := fun me => closed_claim hI me n s h
    rcases hl with hl | hl
    · exact hI.held _ _ hl (h1 _)
    · exact hl _ _ (h1 _)
  · exact hI.put _ _ _ _ _ _ _ (closed_claim hI none n s h)

theorem keeps_oldPart (w : Who) (o : Option Owner) (p : Piece) (l : Label) : Keeps I (oldPart w o p l) := by
  unfold oldPart
  split
  · exact keeps_pure _
  · refine keeps_bind (keeps_modify (fun s h => closed_charge hI _ _ _ s h)) (fun _ => keeps_bind (keeps_readSector hI _ _) (fun v => ?_))
    split
    · exact keeps_pure _
    · exact keeps_bind (keeps_joinAt hI _ _ _ _) (fun _ => keeps_pure _)

/-- One piece of a write; `hl`: it is local, or the property allows any line. -/
theorem keeps_writePiece (w : Who) (p : Piece) (bs : List Byte) (l : Label)
    (hl : paLocal (p.sector * 64) = true ∨ ∀ s x, I s → I (s.putLine x)) : Keeps I (writePiece w p bs l) := by
  unfold writePiece
  refine keeps_bind (keeps_joinAt hI _ _ _ _) (fun l1 => keeps_bind keeps_get (fun s => ?_))
  dsimp only
  split
  · exact keeps_bind (keeps_modify (fun s h => closed_claim hI _ _ s h)) (fun _ =>
      keeps_bind (keeps_modify (fun s h => closed_charge hI _ _ _ s h)) (fun _ => keeps_sendOut hI _ _ _ _ _))
  · refine keeps_bind (keeps_oldPart hI _ _ _ _) (fun r => ?_)
    split
    · exact keeps_pure _
    · exact keeps_bind (keeps_writeSector hI _ _ _ _ _ _ hl) (fun _ =>
        keeps_bind (keeps_modify (fun s h => closed_markPresent hI _ _ s h)) (fun _ => keeps_pure _))

/-- A translated write. -/
theorem keeps_writePieces (w : Who) (ps : List Piece) (bs : List Byte) (l : Label)
    (hl : (∀ p ∈ ps, paLocal (p.sector * 64) = true) ∨ ∀ s x, I s → I (s.putLine x)) : Keeps I (writePieces w ps bs l) :=
  keeps_bind (keeps_foldlM_mem _ _ (fun _ p hp =>
    keeps_bind (keeps_writePiece hI _ _ _ _ (hl.imp (fun e => e p hp) id)) (fun _ => keeps_pure _)) _) (fun _ => keeps_pure _)

theorem keeps_writeVirt (w : Who) (va : Nat) (bs : List Byte) (l : Label) (hl : ∀ s x, I s → I (s.putLine x)) :
    Keeps I (writeVirt w va bs l) := by
  unfold writeVirt
  refine keeps_bind (keeps_translate hI _ _ _ _) (fun r => ?_)
  split
  · exact keeps_pure _
  · exact keeps_bind (keeps_writePieces hI _ _ _ _ (.inr hl)) (fun _ => keeps_pure _)

theorem keeps_readRace (p : PartId) (pa : Nat) : Keeps I (readRace p pa) :=
  keeps_bind keeps_get (fun _ => keeps_bind (keeps_physRead hI _ _) (fun _ => keeps_pure _))

end Closed

/-! ### The canonical form -/

theorem canonical_of_eq {s t : State} (hm : t.mem = s.mem) (hs : t.side = s.side) (h : CanonicalMemory s) : CanonicalMemory t := by
  unfold CanonicalMemory
  rw [hm, hs]
  exact h

/-- Nothing of memory, cores, lines or slice watchpoints differs. -/
structure SameStore (s t : State) : Prop where
  mem : t.mem = s.mem
  side : t.side = s.side
  lines : t.lines = s.lines

theorem SameStore.refl (s : State) : SameStore s s := ⟨rfl, rfl, rfl⟩

theorem SameStore.trans {s t u : State} (h : SameStore s t) (h' : SameStore t u) : SameStore s u :=
  ⟨h'.mem.trans h.mem, h'.side.trans h.side, h'.lines.trans h.lines⟩

theorem raiseCause_store (kind : Nat) (p : PartId) (vd j q d : Nat) (s : State) : SameStore s (raiseCause kind p vd j q d s) := by
  unfold raiseCause
  dsimp only
  split <;> exact ⟨rfl, rfl, rfl⟩

theorem latch_store (cs : List CoreId) (s : State) : SameStore s (cs.foldl (fun s c => s.updCore c latchCore) s) := by
  induction cs generalizing s with
  | nil => exact SameStore.refl s
  | cons c cs ih => exact SameStore.trans (t := s.updCore c latchCore) ⟨rfl, rfl, rfl⟩ (ih _)

theorem fireSnap_store (p : PartId) (src : Nat) (s : State) : SameStore s (fireSnap p src s) := by
  unfold fireSnap
  dsimp only
  split
  · exact SameStore.refl s
  · have h := latch_store (s.part p).cores s
    exact ⟨h.mem, h.side, h.lines⟩

/-- A slice watchpoint latches and counts; it changes no stored byte (R108). -/
theorem watchSlice_store (a : Author) (pa len : Nat) (s : State) : SameStore s (watchSlice a pa len s) := by
  have hc : ∀ k n (u : State), SameStore u (countHits k n u) := fun _ _ _ => ⟨rfl, rfl, rfl⟩
  have hu : ∀ k f (u : State), SameStore u (u.updSlice k f) := fun _ _ _ => ⟨rfl, rfl, rfl⟩
  unfold watchSlice
  dsimp only
  repeat' split
  · exact SameStore.refl s
  · exact hc _ _ _
  · exact (hu _ _ _).trans (hc _ _ _)
  · exact (((hu _ _ _).trans (hc _ _ _)).trans (raiseCause_store _ _ _ _ _ _ _)).trans (fireSnap_store _ _ _)
  · exact ((hu _ _ _).trans (hc _ _ _)).trans (raiseCause_store _ _ _ _ _ _ _)

theorem canonical_putSector (a : Author) (n o : Nat) (bs : List Byte) (l : Label) (p : Bool) (s : State) (h : CanonicalMemory s) :
    CanonicalMemory (putSector a n o bs l p s) := by
  have e := watchSlice_store a (n * 64 + o) bs.length
    { s with mem := putBytes s.mem (n * 64) (overlay (readLocal s n).bytes o bs),
             side := mapSet Side.none s.side n { lbl := l, epoch := (s.slice (sliceOf s (n * 64))).epoch, poison := p } }
  exact canonical_of_eq e.mem e.side ⟨putBytes_wf h.1 _ _, mapSet_wf h.2 (Nat.zero_le _)⟩

theorem relDeny_store (c : CoreId) (v : Word) (s : State) : SameStore s (relDeny c v s) := by
  unfold relDeny queueTrap
  split <;> exact ⟨rfl, rfl, rfl⟩

theorem freePort_store (cls : Nat) (s : State) : SameStore s (freePort cls s).2 := by
  unfold freePort
  split <;> exact ⟨rfl, rfl, rfl⟩

theorem emitAt_store (p : Nat) (m : OutMsg) (s : State) : SameStore s (emitAt p m s) := by
  unfold emitAt
  split <;> exact ⟨rfl, rfl, rfl⟩

theorem emit_store (cls : Nat) (m : OutMsg) (s : State) : SameStore s (emit cls m s).2 :=
  (freePort_store cls s).trans (emitAt_store _ _ _)

theorem canonical_sendOut (job pa : Nat) (bs : List Byte) (l : Label) (va : Word) (s : State) (h : CanonicalMemory s) :
    CanonicalMemory (sendOut job pa bs l va s).2 := by
  unfold sendOut
  split
  · dsimp only
    split
    · exact ⟨putBytes_wf h.1 _ _, h.2⟩
    · exact canonical_of_eq (emit_store _ _ _).mem (emit_store _ _ _).side h
  · exact canonical_of_eq (freePort_store _ _).mem (freePort_store _ _).side h

theorem charge_store (p : PartId) (k : HlKind) (n : Nat) (s : State) : SameStore s (charge p k n s) := by
  unfold charge
  split <;> exact ⟨rfl, rfl, rfl⟩

theorem canonical_writeback (l : Line) (s : State) (h : CanonicalMemory s) : CanonicalMemory (writeback l s) := by
  unfold writeback
  dsimp only
  split
  · exact canonical_putSector _ _ _ _ _ _ _ h
  · have h0 : ∀ c n, CanonicalMemory (charge c .write n (s.dropLine l.sector)) :=
      fun c n => canonical_of_eq (charge_store c .write n _).mem (charge_store c .write n _).side h
    have h2 : ∀ u, CanonicalMemory u → CanonicalMemory ((if l.dirty then sendOut (lineJob l) (l.sector * 64) l.bytes l.lbl l.va u
        else (WroteTo.done, u) : WroteTo × State)).2 := by
      intro u hu
      split
      · exact canonical_sendOut _ _ _ _ _ _ hu
      · exact hu
    have h3 : ∀ c v u, CanonicalMemory u → CanonicalMemory (relDeny c v u) :=
      fun c v u hu => canonical_of_eq (relDeny_store c v u).mem (relDeny_store c v u).side hu
    have h4 : ∀ (r : WroteTo × State), CanonicalMemory r.2 → CanonicalMemory (match r.1, l.task with
        | .denied va, some (c, j) => if (r.2.core c).job = some j then relDeny c va r.2 else r.2
        | _, _ => r.2) := by
      intro r hr
      repeat' split
      all_goals first | exact hr | exact h3 _ _ _ hr
    have h5 : ∀ u, CanonicalMemory u → CanonicalMemory (if paRemote (l.sector * 64) then u.putLine { l with dirty := false } else u) := by
      intro u hu
      split <;> exact hu
    refine h5 _ (h4 _ (h2 _ ?_))
    split
    · exact h0 _ _
    · exact h

theorem closed_canonical : Closed CanonicalMemory where
  labels _ _ _ h := h
  ctr _ _ h := h
  out _ _ h := h
  waiting _ _ h := h
  tlb _ _ h := h
  clusters _ _ _ h := h
  parts _ _ _ h := h
  drop _ _ h := h
  put s a n o bs l p h := canonical_putSector a n o bs l p s h
  hostMem _ _ _ h := ⟨putBytes_wf h.1 _ _, h.2⟩
  back s l _ h := canonical_writeback l s h
  clean _ _ _ h := h
  held _ _ _ h := h

/-- Memory at reset is in canonical form. -/
theorem reset_canonical : CanonicalMemory State.reset := by decide

/-- Every write of an agent keeps the canonical form; its reads and translations keep it by the lemmas above. -/
theorem canonical_writeVirt (w : Who) (va : Nat) (bs : List Byte) (l : Label) : Keeps CanonicalMemory (writeVirt w va bs l) :=
  keeps_writeVirt closed_canonical w va bs l (fun _ _ h => h)

theorem canonical_writePieces (w : Who) (ps : List Piece) (bs : List Byte) (l : Label) : Keeps CanonicalMemory (writePieces w ps bs l) :=
  keeps_writePieces closed_canonical w ps bs l (.inr (fun _ _ h => h))

theorem canonical_writeSector (hold : Option Line) (a : Author) (n o : Nat) (bs : List Byte) (l : Label) :
    Keeps CanonicalMemory (writeSector hold a n o bs l) :=
  keeps_writeSector closed_canonical hold a n o bs l (.inr (fun _ _ h => h))

/-! ### Memory whose dirty sectors are local, without slice watchpoints: accesses change no core -/

/-- Every dirty sector is local, no slice watchpoint is enabled, and the cores are those of s0. -/
def Quiet (s0 s : State) : Prop :=
  (∀ l ∈ s.lines, l.dirty = true → paLocal (l.sector * 64) = true) ∧ (∀ k i, bit (rd (s.slice k).ws i).ctl.toNat 0 = false) ∧
    s.cores = s0.cores

theorem sliceHits_nil (q : Slice) (pa len : Nat) (h : ∀ i, bit (rd q.ws i).ctl.toNat 0 = false) : sliceHits q pa len = [] := by
  unfold sliceHits
  rw [List.filterMap_eq_nil_iff]
  intro i hi
  have hi' : i < 8 := List.mem_range.1 hi
  have e : q.ws.toList.getD i Wp.reset = rd q.ws ⟨i, hi'⟩ := by
    simp [rd, List.getD_eq_getElem?_getD, hi']
  dsimp only
  rw [e, h ⟨i, hi'⟩]
  simp

theorem watchSlice_none (a : Author) (pa len : Nat) (s : State) (h : ∀ k i, bit (rd (s.slice k).ws i).ctl.toNat 0 = false) :
    watchSlice a pa len s = s := by
  unfold watchSlice
  dsimp only
  rw [sliceHits_nil _ _ _ (h _)]

theorem quiet_putSector (s0 s : State) (a : Author) (n o : Nat) (bs : List Byte) (l : Label) (p : Bool) (h : Quiet s0 s) :
    Quiet s0 (putSector a n o bs l p s) := by
  unfold putSector
  dsimp only
  rw [watchSlice_none]
  · exact h
  · exact h.2.1

theorem quiet_dropLine (s0 s : State) (n : Nat) (h : Quiet s0 s) : Quiet s0 (s.dropLine n) :=
  ⟨fun l hl => h.1 l (List.mem_filter.1 hl).1, h.2⟩

theorem quiet_putLine (s0 s : State) (x : Line) (hx : x.dirty = true → paLocal (x.sector * 64) = true) (h : Quiet s0 s) :
    Quiet s0 (s.putLine x) := by
  refine ⟨fun l hl => ?_, h.2⟩
  rcases List.mem_cons.1 hl with e | hl
  · rw [e]; exact hx
  · exact h.1 l (List.mem_filter.1 hl).1

theorem quiet_charge (s0 s : State) (p : PartId) (k : HlKind) (n : Nat) (h : Quiet s0 s) : Quiet s0 (charge p k n s) := by
  unfold charge
  split <;> exact h

theorem quiet_writeback (s0 s : State) (l : Line) (hl : l ∈ s.lines) (h : Quiet s0 s) : Quiet s0 (writeback l s) := by
  unfold writeback
  dsimp only
  split
  · exact quiet_putSector _ _ _ _ _ _ _ _ (quiet_dropLine _ _ _ h)
  · next hp =>
    have hd : l.dirty = false := by
      cases hx : l.dirty with
      | false => rfl
      | true => exact absurd (h.1 l hl hx) hp
    simp only [hd, Bool.false_and, Bool.false_eq_true, if_false]
    have h5 : ∀ u, Quiet s0 u → Quiet s0 (if paRemote (l.sector * 64) then u.putLine { l with dirty := false } else u) := by
      intro u hu
      split
      · exact quiet_putLine _ _ _ (fun e => by cases e) hu
      · exact hu
    refine h5 _ ?_
    split
    · exact quiet_charge _ _ _ _ _ (quiet_dropLine _ _ _ h)
    · exact quiet_dropLine _ _ _ h

theorem closed_quiet (s0 : State) : Closed (Quiet s0) where
  labels _ _ _ h := h
  ctr _ _ h := h
  out _ _ h := h
  waiting _ _ h := h
  tlb _ _ h := h
  clusters _ _ _ h := h
  parts _ _ _ h := h
  drop s n h := quiet_dropLine s0 s n h
  put s a n o bs l p h := quiet_putSector s0 s a n o bs l p h
  hostMem _ _ _ h := h
  back s l hl h := quiet_writeback s0 s l hl h
  clean s x hx h := quiet_putLine s0 s x (fun e => by rw [hx] at e; cases e) h
  held s x hx h := quiet_putLine s0 s x (fun _ => hx) h

/-- A read by an agent of a machine whose dirty sectors are local leaves every core as it was. -/
theorem quiet_readPieces (s : State) (w : Who) (ps : List Piece) (h1 : ∀ l ∈ s.lines, l.dirty = true → paLocal (l.sector * 64) = true)
    (h2 : ∀ k i, bit (rd (s.slice k).ws i).ctl.toNat 0 = false) : (readPieces w ps s).2.cores = s.cores :=
  (keeps_readPieces (closed_quiet s) w ps s ⟨h1, h2, rfl⟩).2.2

/-- So does a write of local sectors. -/
theorem quiet_writePieces (s : State) (w : Who) (ps : List Piece) (bs : List Byte) (l : Label)
    (h1 : ∀ l ∈ s.lines, l.dirty = true → paLocal (l.sector * 64) = true)
    (h2 : ∀ k i, bit (rd (s.slice k).ws i).ctl.toNat 0 = false) (hw : ∀ p ∈ ps, paLocal (p.sector * 64) = true) :
    (writePieces w ps bs l s).2.cores = s.cores :=
  (keeps_writePieces (closed_quiet s) w ps bs l (.inl hw) s ⟨h1, h2, rfl⟩).2.2

/-! ### What a read answers where nothing is dirty -/

/-- Two states that differ in clusters, label tables and reports alone. -/
def SameMemory (s t : State) : Prop := ∃ k l o, t = { s with clusters := k, labels := l, out := o }

theorem SameMemory.refl (s : State) : SameMemory s s := ⟨s.clusters, s.labels, s.out, rfl⟩

theorem SameMemory.trans {s t u : State} (h : SameMemory s t) (h' : SameMemory t u) : SameMemory s u := by
  obtain ⟨_, _, _, rfl⟩ := h
  obtain ⟨k, l, o, rfl⟩ := h'
  exact ⟨k, l, o, rfl⟩

theorem sameMemory_resolveJoin (p : PartId) (a b : Label) (s : State) : SameMemory s (resolveJoin p a b s).2 := by
  unfold resolveJoin
  dsimp only
  repeat' split
  all_goals exact ⟨s.clusters, _, _, rfl⟩

/-- A label join changes the label tables and reports, nothing else (R306). -/
theorem sameMemory_joinAt (d : Fin 4) (p : PartId) (a b : Label) (s : State) : SameMemory s (joinAt d p a b s).2 := by
  have hr := sameMemory_resolveJoin p (liveId s.labels a) (liveId s.labels b) s
  unfold joinAt
  dsimp only
  repeat' split
  all_goals first
    | exact SameMemory.refl s
    | exact ⟨s.clusters, _, s.out, rfl⟩
    | exact hr.trans ⟨_, _, _, rfl⟩

theorem sameMemory_markPresent (o : Option Owner) (n : Nat) (s : State) : SameMemory s (markPresent o n s) := by
  unfold markPresent
  split
  · exact ⟨_, s.labels, s.out, rfl⟩
  · exact SameMemory.refl s

/-- A local sector that nobody holds reads as its slice has it. -/
theorem readSector_clean (me : Option Owner) (n : Nat) (s : State) (h : s.lines = []) (hp : paLocal (n * 64) = true) :
    readSector me n s = (readLocal s n, s) := by
  have hn : s.line? n = none := by simp [State.line?, h]
  have hq : pull me n s = s := by simp [pull, hn]
  have hr : paRemote (n * 64) = false := by
    simp only [paLocal, paRemote, decide_eq_true_eq, Bool.and_eq_false_iff, decide_eq_false_iff_not] at hp ⊢
    omega
  simp [readSector, homeSector, nearSector, hp, hq, hn, hr]

/-- Two empty labels join to the empty one, and nothing changes. -/
theorem joinAt_zero (d : Fin 4) (p : PartId) (s : State) : joinAt d p 0 0 s = (0, s) := by
  simp [joinAt, liveId]

/-- An agent without a cache keeps no sector outside the window. -/
theorem holder_none (w : Who) (s : State) (p : Piece) (hc : w.cache = none) (hs : p.page.stash = none) : w.holder s p = none := by
  unfold Who.holder
  rw [hs, hc]
  split <;> simp

/-- What reads and writes of pieces without a cache need: local sectors with no label, no holder. -/
structure PlainPieces (w : Who) (ps : List Piece) (s : State) : Prop where
  cache : w.cache = none
  lines : s.lines = []
  each : ∀ p ∈ ps, p.page.stash = none ∧ p.page.lbl = 0 ∧ paLocal (p.sector * 64) = true ∧ paLocal p.pa = true ∧ (readLocal s p.sector).lbl = 0

/-- The bytes of a piece in its slice. -/
def pieceBytes (s : State) (p : Piece) : List Byte := ((readLocal s p.sector).bytes.drop (p.pa % 64)).take p.len

theorem fromHost_local (s : State) (p : Piece) (h : paLocal p.pa = true) : fromHost s p = false := by
  have hh : paHost p.pa = false := by
    simp only [paLocal, paHost, decide_eq_true_eq, Bool.and_eq_false_iff, decide_eq_false_iff_not] at h ⊢
    omega
  simp [fromHost, hh]

/-- A fold of steps each of which answers data and leaves the state alone. -/
theorem foldlM_keep {α β : Type} (f : β → α → SM β) (g : β → α → β) (P : β → Prop) (s : State) (ps : List α) (a : β) (ha : P a)
    (h : ∀ p ∈ ps, ∀ a, P a → f a p s = (g a p, s) ∧ P (g a p)) : ps.foldlM f a s = (ps.foldl g a, s) := by
  induction ps generalizing a with
  | nil => rfl
  | cons p ps ih =>
    obtain ⟨h1, h2⟩ := h p (List.mem_cons_self ..) a ha
    rw [List.foldlM_cons, List.foldl_cons]
    show (ps.foldlM f (f a p s).1) (f a p s).2 = _
    rw [h1]
    exact ih _ h2 (fun q hq => h q (List.mem_cons_of_mem _ hq))

/-- A read of plain pieces answers what the slices hold and changes nothing. -/
theorem readPieces_plain (w : Who) (ps : List Piece) (s : State) (h : PlainPieces w ps s) :
    readPieces w ps s = ({ bytes := ps.flatMap (pieceBytes s), lbl := 0, poison := ps.any (fun p => (readLocal s p.sector).poison) }, s) := by
  have hg : ∀ (ps : List Piece) (a : Got), ps.foldl (fun (a : Got) p =>
      { a with bytes := a.bytes ++ pieceBytes s p, poison := a.poison || (readLocal s p.sector).poison }) a =
      { a with bytes := a.bytes ++ ps.flatMap (pieceBytes s), poison := a.poison || ps.any (fun p => (readLocal s p.sector).poison) } := by
    intro ps
    induction ps with
    | nil => intro a; simp
    | cons p ps ih => intro a; rw [List.foldl_cons, ih]; simp [Bool.or_assoc]
  unfold readPieces
  rw [foldlM_keep _ (fun (a : Got) p => { a with bytes := a.bytes ++ pieceBytes s p, poison := a.poison || (readLocal s p.sector).poison })
    (fun a => a.lbl = 0) s ps _ rfl, hg]
  · simp
  · intro p hp a ha
    obtain ⟨h1, h2, h3, h4, h5⟩ := h.each p hp
    have hn := holder_none w s p h.cache h1
    have hr := readSector_clean none p.sector s h.lines h3
    have hf := fromHost_local s p h4
    refine ⟨?_, ha⟩
    simp only [bind, StateT.bind, get, getThe, MonadStateOf.get, StateT.get, modify, modifyGet, MonadStateOf.modifyGet,
      StateT.modifyGet, pure, StateT.pure, hn, hf, hr, h2, h5, ha, joinAt_zero, charge, markPresent, if_true, Bool.false_eq_true, if_false]
    rfl

/-- A write of plain pieces goes through. -/
theorem writePieces_plain (w : Who) (ps : List Piece) (bs : List Byte) (l : Label) (s : State) (hc : w.cache = none)
    (h : ∀ p ∈ ps, p.page.stash = none ∧ paLocal p.pa = true) : (writePieces w ps bs l s).1 = .done := by
  have one : ∀ (p : Piece) (b : List Byte) (t : State), p.page.stash = none → paLocal p.pa = true → (writePiece w p b l t).1 = .done := by
    intro p b t h1 h2
    have hn := fun u => holder_none w u p hc h1
    have ho : ∀ l u, ∃ m v, oldPart w none p l u = (some m, v) := by
      intro l u
      unfold oldPart
      split
      · exact ⟨_, _, rfl⟩
      · exact ⟨_, _, rfl⟩
    unfold writePiece
    simp only [bind, StateT.bind, get, getThe, MonadStateOf.get, StateT.get, pure, hn, h2, Option.isNone_none, Bool.not_true, Bool.and_false,
      Bool.false_eq_true, if_false]
    obtain ⟨m, v, e⟩ := ho (joinAt w.die w.pid l p.page.lbl t).1 (joinAt w.die w.pid l p.page.lbl t).2
    simp only [e]
    rfl
  have key : ∀ (ps : List Piece) (a : WroteTo × List Byte) (t : State), a.1 = .done → (∀ p ∈ ps, p.page.stash = none ∧ paLocal p.pa = true) →
      ((ps.foldlM (fun (acc : WroteTo × List Byte) p => do
        let d ← writePiece w p (acc.2.take p.len) l
        return (if acc.1 = .done then d else acc.1, acc.2.drop p.len)) a : SM (WroteTo × List Byte)) t).1.1 = .done := by
    intro ps
    induction ps with
    | nil => intro a t ha _; exact ha
    | cons p ps ih =>
      intro a t ha h
      obtain ⟨h1, h2⟩ := h p (List.mem_cons_self ..)
      rw [List.foldlM_cons]
      refine ih _ _ ?_ (fun q hq => h q (List.mem_cons_of_mem _ hq))
      show (if a.1 = .done then (writePiece w p (a.2.take p.len) l t).1 else a.1) = .done
      rw [if_pos ha]
      exact one p _ t h1 h2
  exact key ps (.done, bs) s rfl h

end Sys2Proof.Machine
end

