-- ==== Sys2Proof/Laws/Ops.lean ====
section
/-! SUPPORT. One law for each shared operation of Machine/Ops.lean: everything that it can answer. Later proofs cite these and do
not unfold the operations. -/

namespace Sys2Proof.Machine

/-! ### Registers (R250) -/

theorem readX_eq (c : CoreId) (r : BitVec 6) (s : State) :
    readX c r s = if (s.core c).pending r then .error (.wait s) else .ok ((s.core c).xval r, s) := by
  cases h : (s.core c).pending r <;>
    simp [readX, getCore, waitUnless, waitNow, h, bind, StateT.bind, Except.bind, pure, StateT.pure, Except.pure, get, getThe,
      MonadStateOf.get, StateT.get]

theorem readXL_eq (c : CoreId) (r : BitVec 6) (s : State) :
    readXL c r s = if (s.core c).pending r then .error (.wait s) else .ok (((s.core c).xval r, (s.core c).xlbl r), s) := by
  cases h : (s.core c).pending r <;>
    simp [readXL, getCore, waitUnless, waitNow, h, bind, StateT.bind, Except.bind, pure, StateT.pure, Except.pure, get, getThe,
      MonadStateOf.get, StateT.get]

theorem needFree_eq (c : CoreId) (r : BitVec 6) (s : State) :
    needFree c r s = if (s.core c).pending r then .error (.wait s) else .ok ((), s) := by
  cases h : (s.core c).pending r <;>
    simp [needFree, getCore, waitUnless, waitNow, h, bind, StateT.bind, Except.bind, pure, StateT.pure, Except.pure, get, getThe,
      MonadStateOf.get, StateT.get]

theorem writeX_eq (c : CoreId) (r : BitVec 6) (v : Word) (l : Label) (s : State) :
    writeX c r v l s = if (s.core c).pending r then .error (.wait s) else .ok ((), s.updCore c (fun k => k.setX r v l)) := by
  cases h : (s.core c).pending r <;>
    simp [writeX, modCore, getCore, waitUnless, waitNow, h, bind, StateT.bind, Except.bind, pure, StateT.pure, Except.pure, get, getThe,
      MonadStateOf.get, StateT.get, modify, modifyGet, MonadStateOf.modifyGet, StateT.modifyGet]

/-! ### How an instruction ends -/

/-- A C instruction on its own turn: it completes, traps or waits; there is no other outcome. -/
theorem runC_eq (m : CoreId → M Flow) (s : State) (c : CoreId) (h : Ready s c .C) :
    runC m s = match m c s with
      | .ok (f, s1) => .next (finishC c f s1)
      | .error (.trap code sub tval s1) => .next (trapC c code sub tval s1)
      | .error (.wait s1) => .next (parkC c s1) := by
  unfold runC
  rw [h.1]
  simp only [h.2, decide_true, Bool.and_self, if_true]
  try rfl

theorem runC_goesOn (m : CoreId → M Flow) (s : State) (c : CoreId) (h : Ready s c .C) : GoesOn (runC m s) := by
  rw [runC_eq m s c h]
  split <;> exact ⟨_, rfl⟩

theorem runRaw_eq (m : CoreId → M Unit) (s : State) (c : CoreId) (h : Ready s c .C) :
    runRaw m s = match m c s with
      | .ok (_, s1) => .next s1
      | .error (.trap code sub tval s1) => .next (trapC c code sub tval s1)
      | .error (.wait s1) => .next (parkC c s1) := by
  unfold runRaw
  rw [h.1]
  simp only [h.2, decide_true, Bool.and_self, if_true]
  try rfl

theorem runRaw_goesOn (m : CoreId → M Unit) (s : State) (c : CoreId) (h : Ready s c .C) : GoesOn (runRaw m s) := by
  rw [runRaw_eq m s c h]
  split <;> exact ⟨_, rfl⟩

/-- An engine instruction whose masks name started strands and whose wait queues hold tokens (R71, R134). -/
theorem runE_eq (tbl : Tbl) (i : Instr) (w g : BitVec 3) (m : CoreId → Strand → M EFlow) (s : State) (c : CoreId) (st : Strand)
    (h : Startable s c st w g) (ht : tbl.ofStrand st = true) :
    runE tbl i w g m s = match m c st s with
      | .ok (f, s1) => .next (finishE c st (waitCodes st w) (giveCodes st g) f s1)
      | .error (.trap code sub tval s1) => .next (trapEng c st code sub tval s1)
      | .error (.wait s1) => .next (parkE c st s1) := by
  have ha : (waitCodes st w).all (fun q => decide (0 < (s.core c).tokens q)) = true := by
    rw [List.all_eq_true]
    exact fun q hq => decide_eq_true (h.2.2 q hq)
  unfold runE
  rw [h.1.1]
  dsimp only
  simp only [ht, h.1.2, h.2.1, ha, Bool.not_true, Bool.and_self, if_true, if_false, Bool.false_eq_true]
  try rfl

theorem runE_goesOn (tbl : Tbl) (i : Instr) (w g : BitVec 3) (m : CoreId → Strand → M EFlow) (s : State) (c : CoreId) (st : Strand)
    (h : Ready s c st) (ht : tbl.ofStrand st = true) : GoesOn (runE tbl i w g m s) := by
  unfold runE
  rw [h.1]
  dsimp only
  simp only [ht, h.2, Bool.and_self, if_true]
  repeat' split
  all_goals exact ⟨_, rfl⟩

/-! ### Completion and waits of the C strand -/

/-- Completion (R252): the sequence advances, the strand issues, the marks of waits go, an exemption that was armed is used up;
all else of the core is as before. -/
theorem finishC_core (c : CoreId) (f : Flow) (s : State) :
    (finishC c f s).core c = { s.core c with
      seq := (s.core c).seq.advance f.red f.ann, st := { (s.core c).st with c := .issuing }, atWfi := false, waitT := none,
      gwait := (s.core c).gwait.filter (fun g => g.st != Strand.C),
      wpx := (s.core c).wpx.filter (fun e => !(e.strand == Strand.C && e.armed && e.pc == (s.core c).seq.pc)) } := by
  simp [finishC, dropExempt, strandPc]

theorem finishC_others (c d : CoreId) (f : Flow) (s : State) (h : d ≠ c) : (finishC c f s).core d = s.core d := by
  simp [finishC, h]

theorem finishC_only (c : CoreId) (f : Flow) (s : State) : OnlyCore c s (finishC c f s) := ⟨rfl, fun d h => finishC_others c d f s h⟩

theorem parkC_core (c : CoreId) (s : State) : (parkC c s).core c = { s.core c with st := { (s.core c).st with c := .waiting } } := by
  simp [parkC]

theorem parkC_only (c : CoreId) (s : State) : OnlyCore c s (parkC c s) := ⟨rfl, fun d h => by simp [parkC, h]⟩

theorem parkE_core (c : CoreId) (st : Strand) (s : State) : (parkE c st s).core c = { s.core c with st := (s.core c).st.set st .waiting } := by
  simp [parkE]

theorem parkE_only (c : CoreId) (st : Strand) (s : State) : OnlyCore c s (parkE c st s) := ⟨rfl, fun d h => by simp [parkE, h]⟩

/-! ### Traps (R256, R258, R352, R353) -/

/-- A trap that is delivered is an entry and touches its core alone. -/
theorem takeTrap_delivered (c : CoreId) (cause tval : Word) (s : State) (src : Option TrapSrc) (h : (s.core c).csr.inHandler = false)
    (hv : (s.core c).csr.hasVector = true) : takeTrap c cause tval s src = s.updCore c (fun k => enterTrap k src cause tval) := by
  simp [takeTrap, h, hv]

/-- A trap that is not delivered is latched and ends the job (R352). -/
theorem takeTrap_unhandled (c : CoreId) (cause tval : Word) (s : State) (src : Option TrapSrc)
    (h : (s.core c).csr.inHandler = true ∨ (s.core c).csr.hasVector = false) : takeTrap c cause tval s src = unhandled c cause tval s := by
  rcases h with h | h <;> simp [takeTrap, h]

/-- An unhandled trap changes the partition's record and the job's fate, nothing of any core. -/
theorem unhandled_frame (c : CoreId) (cause tval : Word) (s : State) :
    unhandled c cause tval s = { s with parts := (unhandled c cause tval s).parts, jobs := (unhandled c cause tval s).jobs } := rfl

/-- Trap entry and return are inverse on the sequence and the status, where the positions are word-aligned below 2^52 (R256, R258). -/
theorem enterTrap_stat (k : Core) (src : Option TrapSrc) (cause tval : Word) :
    (enterTrap k src cause tval).csr.stat = 1 ∧ (enterTrap k src cause tval).csr.sstat = k.csr.stat ∧
    (enterTrap k src cause tval).csr.tcause = cause ∧ (enterTrap k src cause tval).csr.tval = tval ∧
    (enterTrap k src cause tval).seq.pc = k.csr.tvec ∧ (enterTrap k src cause tval).csr.tvec = k.csr.tvec := ⟨rfl, rfl, rfl, rfl, rfl, rfl⟩

theorem leaveTrap_stat (k : Core) : (leaveTrap k).csr.stat = k.csr.sstat ∧ (leaveTrap k).seq.pc = k.csr.spc ∧
    (leaveTrap k).seq.n1 = k.csr.snpc := ⟨rfl, rfl, rfl⟩

/-- A queued trap touches its core alone; one whose source has none queued is appended (R355). -/
theorem queueTrap_only (c : CoreId) (q : ATrap) (s : State) : OnlyCore c s (queueTrap c q s) := by
  unfold queueTrap
  split
  · exact ⟨rfl, fun _ _ => rfl⟩
  · exact ⟨rfl, fun d h => by simp [h]⟩

theorem queueTrap_first (c : CoreId) (q : ATrap) (s : State) (h : (s.core c).atraps.any (fun a => a.src == q.src) = false) :
    queueTrap c q s = s.updCore c (fun k => { k with atraps := k.atraps ++ [q] }) := by
  simp only [queueTrap, h, Bool.false_eq_true, if_false]

/-- An engine trap stops its strand and joins the queue of its core; nothing else changes. -/
theorem trapEng_only (c : CoreId) (st : Strand) (code sub : Nat) (tval : Word) (s : State) : OnlyCore c s (trapEng c st code sub tval s) := by
  refine ⟨(queueTrap_only _ _ _).1, fun d h => ?_⟩
  exact ((queueTrap_only _ _ _).2 d h).trans (by simp [h])

theorem trapEng_queue (c : CoreId) (st : Strand) (code sub : Nat) (tval : Word) (s : State)
    (hs : (s.core c).atraps.any (fun a => a.src == TrapSrc.strand st) = false) :
    ((trapEng c st code sub tval s).core c).atraps = (s.core c).atraps ++
      [{ cause := causeWord true (strandNo st) code sub, tval := tval, src := .strand st }] ∧
    ((trapEng c st code sub tval s).core c).st = (s.core c).st.set st .stoppedTrap := by
  unfold trapEng
  dsimp only
  rw [queueTrap_first]
  · simp only [State.updCore_updCore, State.core_updCore_self]
    split <;> exact ⟨rfl, rfl⟩
  · simp only [State.core_updCore_self]
    split <;> exact hs

/-! ### Token queues (R270) -/

theorem queue_index_ne {n q : Nat} (hq : q < 16) (hn : n < 16) (h : n ≠ q) : Fin.ofNat 16 n ≠ Fin.ofNat 16 q := by
  intro he
  have hv : n % 16 = q % 16 := congrArg Fin.val he
  rw [Nat.mod_eq_of_lt hn, Nat.mod_eq_of_lt hq] at hv
  exact h hv

theorem tokens_addTok (k : Core) (q n : Nat) (hq : q < 16) (hn : n < 16) (h : k.tokens q < 255) :
    (k.addTok q).tokens n = k.tokens n + (if n = q then 1 else 0) := by
  unfold Core.addTok Core.tokens at *
  by_cases hnq : n = q
  · subst hnq
    rw [rd_wr_self, if_pos rfl, BitVec.toNat_add]
    have h1 : (1 : BitVec 8).toNat = 1 := rfl
    omega
  · rw [rd_wr_ne _ _ _ _ (queue_index_ne hq hn hnq), if_neg hnq, Nat.add_zero]

theorem tokens_popTok (k : Core) (q n : Nat) (hq : q < 16) (hn : n < 16) (h : 0 < k.tokens q) :
    (k.popTok q).tokens n + (if n = q then 1 else 0) = k.tokens n := by
  unfold Core.popTok Core.tokens at *
  by_cases hnq : n = q
  · subst hnq
    have hlt := (rd k.tok (Fin.ofNat 16 n)).isLt
    rw [rd_wr_self, if_pos rfl, BitVec.toNat_sub]
    have h1 : (1 : BitVec 8).toNat = 1 := rfl
    omega
  · rw [rd_wr_ne _ _ _ _ (queue_index_ne hq hn hnq), if_neg hnq, Nat.add_zero]

end Sys2Proof.Machine
end

