-- ==== Sys2Proof/Tests/Build.lean ====
section
/-! SUPPORT. Small states for the tests and for the witnesses of the statements: one task's core A of package cluster 0, bound to
job 5 of partition 0 with address space 7, whose pages map to the same physical pages; its tiles are empty lists, which keeps
the states small. -/

namespace Sys2Proof.Tests

open Sys2Proof Sys2Proof.Machine

set_option Elab.async false

/-- A translation that a TLB holds: virtual page `v`, physical page `p`, all rights. -/
def page (v p : Nat) : Tlb :=
  { pid := 0, vd := 0, asid := 7, vpage := v, ppage := p, r := true, w := true, x := true, cp := 0, tso := false, race := false,
    lbl := 0, leaf := v, span := 1 }

def withRegs (rs : List (BitVec 6 × Nat)) (k : Core) : Core := rs.foldl (fun k r => k.setX r.1 (wd r.2) 0) k

/-- Registers of the small states. -/
def regs : List (BitVec 6 × Nat) :=
  [(1, 5), (2, 7), (8, 2 ^ 63), (9, 2 ^ 64 - 1), (10, 0x1000), (11, 0x1001), (16, 0xFFFF), (17, 0x10000), (20, 0x1040),
   (30, 2 ^ 32), (31, 2 ^ 32 - 1), (40, 1000), (41, 1001), (50, 2 ^ 52 - 64)]

/-- The units of the engine strands, with empty tiles. -/
def noTiles : XState :=
  { XState.reset with
    vt := Vector.replicate 32 [], ac := Vector.replicate 4 [],
    ss := Vector.replicate 16 { Slot.reset with blocks := Vector.replicate 8 [] } }

/-- A core of the job, by its task slot, at PC 0x100 with its handler at 0x2000 and each token queue holding one token. -/
def taskCore (slot : Nat) : Core :=
  withRegs regs { Core.reset with
    job := some 5,
    seq := { pc := 0x100, n1 := 0x104, n2 := 0x108, ann := 0, red1 := false, red2 := false },
    csr := { Csrs.reset with tvec := 0x2000 },
    id := { Ident.reset with phn := 3, domLast := 1, hlvl := 3, level := 2, jobid := 5, taskLast := 1, slot := BitVec.ofNat 8 slot, asid := 7 },
    st := Four.all .issuing, forked := true, started := Four.all true, tok := Vector.replicate 16 1,
    l := { Eng.reset with pc := 0x200 }, xe := { Eng.reset with pc := 0x300 }, s := { Eng.reset with pc := 0x400 },
    xs := noTiles }

def header : Header :=
  { entry := 0x100, est := 50, ptok := 5, prio := 0, kill := false, det := false, salign := false, ncl := 1, level := 2, npro := 0,
    pro := 0, arg0 := 11, arg1 := 22, crec := 0, swb := 0, irq := false, urg := false, ord := false, rply := 0 }

def job : Job := { fetchJob (taskCore 0) with id := 5, hdr := header, cls := [0] }

/-- Partition 0 with eight slices, enabled, and one device. -/
def part : Part :=
  { Part.reset with
    psl := wd (2 ^ 63 + 3 * 256), pclu0 := 1, vdevs := wr Part.reset.vdevs 0 { VDev.reset with en := true, weight := 3 } }

/-- The small state: the job on cluster 0, the bring-up READY, virtual pages 0 to 3 mapped. -/
def base : State :=
  { State.reset with
    cores := wr (wr State.reset.cores 0 (taskCore 0)) 1 (taskCore 1),
    clusters := wr State.reset.clusters 0 { Cluster.reset with job := some (5, 0) },
    jobs := [job], parts := wr State.reset.parts 0 part,
    tlb := [page 0 0, page 1 1, page 2 2, page 3 3],
    boot := { State.reset.boot with st := .ready }, time := 1000 }

def cf (f : Core → Core) (s : State) : State := s.updCore 0 f
def jf (f : Job → Job) (s : State) : State := s.updJob 5 f
def pf (f : Part → Part) (s : State) : State := s.updPart 0 f
def on (st : Strand) (s : State) : State := { s with cur := (0, st) }
/-- The state with these bytes stored from an address on. -/
def put (a : Nat) (bs : List Byte) (s : State) : State := { s with mem := putBytes s.mem a bs }
def w32 (n : Nat) : List Byte := natBytes 4 n
def w64 (n : Nat) : List Byte := natBytes 8 n

/-- A result that answers, with a property of what it answers. -/
theorem ok_of {ε α : Type} (f : Except ε α) (P : α → Bool) (h : (match f with | .ok a => P a | .error _ => false) = true) :
    ∃ a, f = .ok a ∧ P a = true := by
  cases f with
  | ok a => exact ⟨a, rfl, h⟩
  | error e => simp at h

/-- A step that answers data and a state, with a property of both. -/
theorem okPair_of {ε α β : Type} (f : Except ε α × β) (P : α → β → Bool)
    (h : (match f.1 with | .ok a => P a f.2 | .error _ => false) = true) : ∃ a b, f = (.ok a, b) ∧ P a b = true := by
  obtain ⟨e, b⟩ := f
  cases e with
  | ok a => exact ⟨a, b, rfl, h⟩
  | error e => simp at h

theorem pair_of {α β : Type} (f : α × β) (P : α → β → Bool) (h : P f.1 f.2 = true) : ∃ a b, f = (a, b) ∧ P a b = true :=
  ⟨f.1, f.2, rfl, h⟩

theorem core_of {s t : State} (c : CoreId) (h : t.cores = s.cores) : t.core c = s.core c := congrArg (fun v => rd v c) h

theorem fst_eq {α β : Type} {p : α × β} {a : α} (h : p.1 = a) : p = (a, p.2) := by
  subst h
  rfl

/-- A strand's step that answers and leaves the cores alone, with a property of what it answers. -/
theorem quiet_of {α : Type} (f : Except Stop (α × State)) (s : State) (c : CoreId) (P : α → State → Bool)
    (hc : (match f with | .ok x => x.2.cores | .error _ => s.cores) = s.cores)
    (h : (match f with | .ok x => P x.1 x.2 | .error _ => false) = true) :
    ∃ a s1, f = .ok (a, s1) ∧ s1.core c = s.core c ∧ P a s1 = true := by
  cases f with
  | ok x => exact ⟨x.1, x.2, rfl, congrArg (fun v => v[c]) hc, h⟩
  | error e => simp at h

/-- What one instruction, or one step of another agent, leaves in its next state. -/
def after (o : Out) (p : State → Bool) : Bool :=
  match o with
  | .next t => p t
  | _ => false

theorem next_of (o : Out) (P : State → Bool) (h : after o P = true) : ∃ t, o = .next t ∧ P t = true := by
  cases o with
  | next t => exact ⟨t, rfl, h⟩
  | fault e => simp [after] at h
  | refused e => simp [after] at h

/-- Core A's strands stand still but for C: no engine strand was started. -/
def alone (s : State) : State :=
  cf (fun k => { k with forked := false, started := Four.all false,
                        st := { c := .issuing, l := .notStarted, x := .notStarted, s := .notStarted } }) s

/-- Core A is in a handler whose saved registers are legal. -/
def inHandler (sstat : Word) (s : State) : State :=
  cf (fun k => { k with csr := { k.csr with stat := 1, sstat := sstat, spc := 8, snpc := 12, sds := 0x0240000000004200 } }) s

/-- A register of core A is pending. -/
def pends (ps : List Pend) (s : State) : State := cf (fun k => { k with pend := ps }) s
def pendOf (r : BitVec 6) (src : PendSrc) (v : Option Word) (seq : Option Nat) : Pend :=
  { reg := r, src := src, val := v, lbl := 0, seq := seq }

end Sys2Proof.Tests
end

