-- ==== Sys2Proof/Tests/Slice0.lean ====
section
/-! SUPPORT. Tests: well-formedness, words of every instruction written out from the encoding tables of spec/, words that are no
instruction, and the worked examples of spec/. -/

namespace Sys2Proof.Tests

open Sys2Proof Sys2Proof.Machine

set_option Elab.async false

/-! ### Well-formedness -/

/-- An ill-formed term for each check (R60, R62, R66 to R70, R146, R170, R174, R178, R182). -/
theorem test_wellFormed_refuses_control :
    ([.ld 1 2 7 0, .st 1 2 0 0, .st 1 2 2 0, .st 1 2 4 0, .st 1 2 7 0, .beq 1 2 3 0, .bne 1 2 3 0, .blt 1 2 3 0, .bge 1 2 3 0, .bltu 1 2 3 0,
      .bgeu 1 2 3 0, .amoAdd 1 2 3 0 5, .amoAnd 1 2 3 0 6, .amoOr 1 2 3 0 5, .amoXor 1 2 3 0 6, .amoMin 1 2 3 0 5, .amoMax 1 2 3 0 5,
      .amoSwap 1 2 3 0 6, .amoCas 1 2 3 0 5, .amoFadd 1 2 3 5 0, .fence 0 1, .fence 1 5, .csrr 1 0x008, .csrr 1 0x041, .csrw 1 0x010,
      .csrs 1 0x035, .tokGive 0, .tokWait 0] : List Instr).all (fun i => !i.wf) = true := by decide +kernel

theorem test_wellFormed_refuses_engine :
    ([.nestSetImm 0 0 6 1 1, .nestSetImm 0 0 0 0 0, .nestSetReg 0 0 7 0 0, .vadd 0 0 1 2 3 0 3, .vsub 0 0 1 2 3 0 3, .vmul 0 0 1 2 3 0 4,
      .vfma 0 0 1 2 3 0 3, .vmax 0 0 1 2 3 0 2, .vmin 0 0 1 2 3 0 2, .vabs 0 0 1 2 0 3, .vneg 0 0 1 2 0 3, .vcvt 0 0 1 2 0 1 0 4,
      .vcvt 0 0 1 2 0 5 0 0, .vcvt 0 0 1 2 0 0 0 0, .vcvt 0 0 1 2 1 8 0 0, .vredr 0 0 1 2 0 7, .vredc 0 0 1 2 0 7, .vscanr 0 0 1 2 0 7,
      .vtree 0 0 1 0 0 7 1, .vtree 0 0 1 0 3 0 1] : List Instr).all (fun i => !i.wf) = true := by decide +kernel

theorem test_wellFormed_accepts :
    ([.ld 1 2 6 0, .st 1 2 1 0, .beq 1 2 2 0, .amoAdd 1 2 3 3 4, .fence 1 0, .csrr 1 0x040, .csrw 1 0x007, .tokGive 3, .nestSetImm 0 0 5 1 0,
      .vcvt 0 0 1 2 1 0 0 3, .vtree 0 0 1 0 0 6 1, .add 0 0 0] : List Instr).all (fun i => i.wf) = true := by decide +kernel

/-! ### Decoding -/

/-- Words written out from the fields of R63, R64. -/
theorem test_decode_registers_1 :
    decode .C 0x04187E00 = .ok (.add 1 33 62) ∧
    decode .C 0x048B0301 = .ok (.sub 8 44 3) ∧
    decode .C 0x04FDC802 = .ok (.and 15 55 8) ∧
    decode .C 0x05608D03 = .ok (.or 22 2 13) ∧
    decode .C 0x05D35204 = .ok (.xor 29 13 18) ∧
    decode .C 0x06461705 = .ok (.sll 36 24 23) ∧
    decode .C 0x06B8DC06 = .ok (.srl 43 35 28) ∧
    decode .C 0x072BA107 = .ok (.sra 50 46 33) ∧
    decode .C 0x079E6608 = .ok (.slt 57 57 38) ∧
    decode .C 0x04012B09 = .ok (.sltu 0 4 43) ∧
    decode .C 0x0473F010 = .ok (.mul 7 15 48) ∧
    decode .C 0x04E6B511 = .ok (.mulh 14 26 53) ∧
    decode .C 0x05597A12 = .ok (.mulhu 21 37 58) ∧
    decode .C 0x05CC3F13 = .ok (.div 28 48 63) ∧
    decode .C 0x063EC414 = .ok (.divu 35 59 4) ∧
    decode .C 0x06A18915 = .ok (.rem 42 6 9) := by
  decide +kernel

/-- Words written out from the fields of R63, R64. -/
theorem test_decode_registers_2 :
    decode .C 0x07144E16 = .ok (.remu 49 17 14) ∧
    decode .C 0x07871318 = .ok (.min 56 28 19) ∧
    decode .C 0x07F9D819 = .ok (.max 63 39 24) ∧
    decode .C 0x049A001A = .ok (.clz 9 40) ∧
    decode .C 0x049A001B = .ok (.ctz 9 40) ∧
    decode .C 0x049A001C = .ok (.popc 9 40) := by
  decide +kernel

/-- Words written out from the fields of R62, R63, R65. -/
theorem test_decode_immediates :
    decode .C 0x083FBFFF = .ok (.addi 3 62 0x3FFF) ∧
    decode .C 0x0C3F9555 = .ok (.andi 3 62 0x1555) ∧
    decode .C 0x103F9FFF = .ok (.ori 3 62 0x1FFF) ∧
    decode .C 0x143FA000 = .ok (.xori 3 62 0x2000) ∧
    decode .C 0x183F8007 = .ok (.slti 3 62 0x7) ∧
    decode .C 0x1C41403F = .ok (.slli 4 5 63) ∧
    decode .C 0x1C41503E = .ok (.srli 4 5 62) ∧
    decode .C 0x1C41603D = .ok (.srai 4 5 61) ∧
    decode .C 0x215FFFFE = .ok (.lih 21 0xFFFFE) ∧
    decode .C 0x25612345 = .ok (.adpc 22 0x12345) ∧
    decode .C 0x28723002 = .ok (.ld 7 8 6 2) ∧
    decode .C 0x287207FF = .ok (.ld 7 8 0 0x7FF) ∧
    decode .C 0x2FF06C00 = .ok (.st 63 1 5 0x400) := by
  decide +kernel

/-- Words written out from the fields of R62, R63. -/
theorem test_decode_branches :
    decode .C 0x303F0FFB = .ok (.beq 3 60 0 0xFFB) ∧
    decode .C 0x344EDFFA = .ok (.bne 4 59 1 0xFFA) ∧
    decode .C 0x385EAFF9 = .ok (.blt 5 58 2 0xFF9) ∧
    decode .C 0x3C6E4FF8 = .ok (.bge 6 57 0 0xFF8) ∧
    decode .C 0x407E1FF7 = .ok (.bltu 7 56 1 0xFF7) ∧
    decode .C 0x448DEFF6 = .ok (.bgeu 8 55 2 0xFF6) ∧
    decode .C 0x480C0000 = .ok (.j 0xC0000) ∧
    decode .C 0x4C100005 = .ok (.jal 1 5) ∧
    decode .C 0x50007FFC = .ok (.jalr 0 1 0x3FFC) := by
  decide +kernel

/-- Words written out from the fields of R66. -/
theorem test_decode_atomics :
    decode .C 0x54720900 = .ok (.amoAdd 7 8 9 0 0) ∧
    decode .C 0x54720929 = .ok (.amoAnd 7 8 9 1 1) ∧
    decode .C 0x54720952 = .ok (.amoOr 7 8 9 2 2) ∧
    decode .C 0x5472097B = .ok (.amoXor 7 8 9 3 3) ∧
    decode .C 0x54720984 = .ok (.amoMin 7 8 9 0 4) ∧
    decode .C 0x547209A8 = .ok (.amoMax 7 8 9 1 0) ∧
    decode .C 0x547209D1 = .ok (.amoSwap 7 8 9 2 1) ∧
    decode .C 0x547209FA = .ok (.amoCas 7 8 9 3 2) ∧
    decode .C 0x54720947 = .ok (.amoFadd 7 8 9 2 0) ∧
    decode .C 0x5800001C = .ok (.fence 3 4) := by
  decide +kernel

/-- Words written out from the fields of R67 to R69. -/
theorem test_decode_system :
    decode .C 0x5C500010 = .ok (.csrr 5 0x010) ∧
    decode .C 0x5C019021 = .ok (.csrw 6 0x021) ∧
    decode .C 0x5C01A040 = .ok (.csrs 6 0x040) ∧
    decode .C 0x60003201 = .ok (.svc 200) ∧
    decode .C 0x60000002 = .ok (.tret) ∧
    decode .C 0x60000003 = .ok (.wfi) ∧
    decode .C 0x60003FC4 = .ok (.brk 255) ∧
    decode .C 0x60000005 = .ok (.snap) ∧
    decode .C 0x64720001 = .ok (.tcp 7 8) ∧
    decode .C 0x64020142 = .ok (.chanGo 8 5) ∧
    decode .C 0x64700183 = .ok (.chanStat 7 6) ∧
    decode .C 0x640001C4 = .ok (.chanAbort 7) ∧
    decode .C 0x64024005 = .ok (.lrecFlush 9) := by
  decide +kernel

/-- Words written out from the fields of R69, R70. -/
theorem test_decode_synchronisation :
    decode .C 0x68019141 = .ok (.semAcq 6 1 5) ∧
    decode .C 0x68018102 = .ok (.semRel 6 0 4) ∧
    decode .C 0x68918083 = .ok (.semTry 9 6 0 2) ∧
    decode .C 0x68501FC4 = .ok (.semRd 5 1 63) ∧
    decode .C 0x6C0000C1 = .ok (.tokGive 3) ∧
    decode .C 0x6C000202 = .ok (.tokWait 2) ∧
    decode .C 0x7001C001 = .ok (.fork 7) ∧
    decode .C 0x70000442 = .ok (.rdv 17) ∧
    decode .C 0x70000043 = .ok (.rdvEnd 1) ∧
    decode .C 0x74000001 = .ok (.domSetSplit) ∧
    decode .C 0x74000041 = .ok (.domSetJoin) ∧
    decode .C 0x74008242 = .ok (.flagAdd 2 9) ∧
    decode .C 0x7400BFC3 = .ok (.flagWait 2 255) ∧
    decode .C 0x74000004 = .ok (.phase) ∧
    decode .C 0x7401C005 = .ok (.waitt 7) := by
  decide +kernel

/-- Words written out from the fields of R69. -/
theorem test_decode_services :
    decode .C 0x78428001 = .ok (.launch 4 10) ∧
    decode .C 0x78018002 = .ok (.est 6) ∧
    decode .C 0x7C014181 = .ok (.srkey 5 6) ∧
    decode .C 0x7C310002 = .ok (.lblRdReg 3 4) ∧
    decode .C 0x7C310042 = .ok (.lblRdMem 3 4) ∧
    decode .C 0x804282C1 = .ok (.splice 4 10 11) ∧
    decode .C 0x80428002 = .ok (.repGo 4 10) ∧
    decode .C 0x80528003 = .ok (.repPoll 5 10) ∧
    decode .C 0x84428001 = .ok (.collGo 4 10) ∧
    decode .C 0x84528002 = .ok (.collPoll 5 10) ∧
    decode .C 0x880140C1 = .ok (.ssSpill 5 3) ∧
    decode .C 0x880143C2 = .ok (.ssFill 5 15) := by
  decide +kernel

/-- Words written out from the fields of R71, R73. -/
theorem test_decode_shared :
    decode .L 0xA8111000 = .ok (.lpSetImm 5 2 2 4096) ∧
    decode .L 0xA819800E = .ok (.lpSetReg 5 2 3 14) ∧
    decode .L 0xA82FFFFC = .ok (.lpEnd 5 2 3 0x3FFFC) ∧
    decode .L 0xA833FFFD = .ok (.eJ 5 2 0x3FFFD) ∧
    decode .L 0xA844FFF9 = .ok (.eBnz 5 2 9 0x7FF9) ∧
    decode .X 0x7857FFFE = .ok (.nLi 3 6 15 0x7FFE) ∧
    decode .X 0x78662FFF = .ok (.nAdd 3 6 12 11 0x3FF) ∧
    decode .X 0x7827FFFC = .ok (.lpEnd 3 6 1 0x3FFFC) ∧
    decode .S 0x307000C8 = .ok (.eRdv 1 4 200) ∧
    decode .S 0x30708001 = .ok (.eRdvEnd 1 4 1) ∧
    decode .S 0x30800000 = .ok (.eNop 1 4) := by
  decide +kernel

/-- Words written out from the fields of R74, R138, R143, R146. -/
theorem test_decode_streams :
    decode .L 0x850EABFD = .ok (.sdBase 4 1 29 10 0x3FD) ∧
    decode .L 0x851E2FFC = .ok (.sdFmt 4 1 28 11 0x3FC) ∧
    decode .L 0x852DB3FB = .ok (.sdGeom 4 1 27 12 0x3FB) ∧
    decode .L 0x853D37FA = .ok (.sdScale 4 1 26 13 0x3FA) ∧
    decode .L 0x85468C05 = .ok (.rgCfg 4 1 13 3 5) ∧
    decode .L 0x01518000 = .ok (.rgRst 0 0 3) ∧
    decode .L 0x51677801 = .ok (.ldTile 2 4 14 30 1) ∧
    decode .L 0x09710400 = .ok (.ldStrd 0 2 2 1 0) ∧
    decode .L 0x018F9F21 = .ok (.ldGath 0 0 31 7 25 1) ∧
    decode .L 0xFD9F2000 = .ok (.ldVt 7 7 30 8 0) ∧
    decode .L 0x01A29801 = .ok (.ldBcst 0 0 5 6 1) ∧
    decode .L 0x01B40008 = .ok (.nestSetImm 0 0 2 0 8) ∧
    decode .L 0x01B2BFFD = .ok (.nestSetImm 0 0 1 1 0x3FFD) ∧
    decode .L 0x01BBC00D = .ok (.nestSetReg 0 0 5 3 13) ∧
    decode .L 0x21C00000 = .ok (.nestSwap 1 0) := by
  decide +kernel

/-- Words written out from the fields of R157. -/
theorem test_decode_matrix :
    decode .X 0x41000021 = .ok (.mma 2 0 0 0 1 1) ∧
    decode .X 0x0111B9AC = .ok (.mmaQ 0 0 3 14 13 12) ∧
    decode .X 0x01210000 = .ok (.acZero 0 0 2) ∧
    decode .X 0x05318000 = .ok (.acMv 0 1 3 0 0) ∧
    decode .X 0x0140F1E0 = .ok (.acLd 0 0 1 28 15) ∧
    decode .X 0x01411CA1 = .ok (.acLdAdd 0 0 2 7 5) ∧
    decode .X 0xC1500000 = .ok (.mfence 6 0) := by
  decide +kernel

/-- Words written out from the fields of R170 to R175. -/
theorem test_decode_elementwise_1 :
    decode .X 0x3182C360 = .ok (.vadd 1 4 5 16 27 0 0) ∧
    decode .X 0x31934789 = .ok (.vsub 1 4 6 17 28 1 1) ∧
    decode .X 0x31A3CBB2 = .ok (.vmul 1 4 7 18 29 2 2) ∧
    decode .X 0x31B44FD8 = .ok (.vfma 1 4 8 19 30 3 0) ∧
    decode .X 0x01C29A39 = .ok (.vmax 0 0 5 6 17 3 1) ∧
    decode .X 0x01D29A38 = .ok (.vmin 0 0 5 6 17 3 0) ∧
    decode .X 0x01E2E812 = .ok (.vabs 0 0 5 26 2 2) ∧
    decode .X 0x01F2E811 = .ok (.vneg 0 0 5 26 2 1) ∧
    decode .X 0x02029A28 = .ok (.vand 0 0 5 6 17 1) ∧
    decode .X 0x02129A48 = .ok (.vor 0 0 5 6 18 1) ∧
    decode .X 0x02229A68 = .ok (.vxor 0 0 5 6 19 1) ∧
    decode .X 0x02329A88 = .ok (.vshl 0 0 5 6 20 1) ∧
    decode .X 0x024298F1 = .ok (.vshr 0 0 5 6 7 2 1) ∧
    decode .X 0x02508862 = .ok (.vcmp 0 0 1 2 3 0 2) ∧
    decode .X 0x0264A97E = .ok (.vsel 0 0 9 10 11 3 6) ∧
    decode .X 0x02720901 = .ok (.vcvt 0 0 4 2 0 8 0 1) := by
  decide +kernel

/-- Words written out from the fields of R170 to R175. -/
theorem test_decode_elementwise_2 :
    decode .X 0x02720A6B = .ok (.vcvt 0 0 4 2 1 3 1 3) ∧
    decode .X 0x028A5410 = .ok (.vmov 0 0 20 21 2) ∧
    decode .X 0x028A1411 = .ok (.vmovMt 0 0 20 5 2) ∧
    decode .X 0x02835412 = .ok (.vmovTm 0 0 6 21 2) ∧
    decode .X 0x02831413 = .ok (.vmovMm 0 0 6 5 2) ∧
    decode .X 0x0298A000 = .ok (.vli 0 0 17 0x2000) ∧
    decode .X 0x0290CFE0 = .ok (.vliF 0 0 1 0xFE0) ∧
    decode .X 0x02A26008 = .ok (.vexp2 0 0 4 24 1) ∧
    decode .X 0x02A2DC09 = .ok (.vlog2 0 0 5 23 1) ∧
    decode .X 0x02A3580A = .ok (.vrcp 0 0 6 22 1) ∧
    decode .X 0x02A3D40B = .ok (.vrsqrt 0 0 7 21 1) ∧
    decode .X 0x02A4500C = .ok (.vtanh 0 0 8 20 1) ∧
    decode .X 0x02A4CC0D = .ok (.vsigm 0 0 9 19 1) ∧
    decode .X 0x02A5480E = .ok (.vsoftp 0 0 10 18 1) := by
  decide +kernel

/-- Words written out from the fields of R176, R178, R182. -/
theorem test_decode_rows :
    decode .X 0x02B1B920 = .ok (.vrotr 0 0 3 14 9 0) ∧
    decode .X 0x02C1B948 = .ok (.vrotc 0 0 3 14 10 1) ∧
    decode .X 0x02D1B970 = .ok (.vbcr 0 0 3 14 11 2) ∧
    decode .X 0x02E1B998 = .ok (.vbcc 0 0 3 14 12 3) ∧
    decode .X 0x02F1B81C = .ok (.vredr 0 0 3 14 3 4) ∧
    decode .X 0x0301B81D = .ok (.vredc 0 0 3 14 3 5) ∧
    decode .X 0x0311B81E = .ok (.vscanr 0 0 3 14 3 6) ∧
    decode .X 0x0321BB30 = .ok (.vperm 0 0 3 14 25 2) ∧
    decode .X 0x6F320000 = .ok (.vtr4 3 3 1 0) ∧
    decode .X 0x0344984C = .ok (.vtree 0 0 9 1 4 1 12) := by
  decide +kernel

/-- Words written out from the fields of R200. -/
theorem test_decode_scan :
    decode .X 0x03500800 = .ok (.scanCfg 0 0 0 2) ∧
    decode .X 0x03621401 = .ok (.scanSeg 0 0 4 5) ∧
    decode .X 0x03600000 = .ok (.scanSegOff 0 0) ∧
    decode .X 0x03702000 = .ok (.scanLocAgg 0 0 8) ∧
    decode .X 0x03752001 = .ok (.scanLocOut 0 0 10 8) ∧
    decode .X 0x03752002 = .ok (.scanLocFin 0 0 10 8) ∧
    decode .X 0x03800001 = .ok (.scanNet 0 0 1) ∧
    decode .X 0x03818002 = .ok (.scanNetInit 0 0 3 0) ∧
    decode .X 0x039F7400 = .ok (.scanApp 0 0 30 29) ∧
    decode .X 0x03AF75A0 = .ok (.scanStep 0 0 30 29 13) ∧
    decode .X 0x03B774C0 = .ok (.ssLd 0 0 14 29 6) ∧
    decode .X 0x03B714C1 = .ok (.ssLdF 0 0 14 5 6) ∧
    decode .X 0x03C48820 = .ok (.ssSt 0 0 9 2 1) ∧
    decode .X 0x03C38821 = .ok (.ssStF 0 0 7 2 1) ∧
    decode .X 0x03D58000 = .ok (.ssZero 0 0 11) := by
  decide +kernel

/-- Words written out from the fields of R220, R221, R229, R230, R232. -/
theorem test_decode_drain :
    decode .S 0x010305A1 = .ok (.drAcc 0 0 6 1 13 1) ∧
    decode .S 0x01030403 = .ok (.drAccAll 0 0 6 ⟨1, 0⟩ 1) ∧ decode .S 0x01030423 = .ok (.drAccAll 0 0 6 ⟨1, 1⟩ 1) ∧
    decode .S 0x0112E402 = .ok (.drVt 0 0 5 25 1 0) ∧
    decode .S 0x012027FB = .ok (.drMode 0 0 9 0x3FB) ∧
    decode .S 0x01319C00 = .ok (.histCfg 0 0 3 7) ∧
    decode .S 0x0141878C = .ok (.histRd 0 0 3 30 12) ∧
    decode .S 0x0149878C = .ok (.histRdClr 0 0 3 30 12) ∧
    decode .S 0x01560000 = .ok (.histClr 0 0 12) ∧
    decode .S 0x016B7C01 = .ok (.stTile 0 0 22 31 1) ∧
    decode .S 0x01760C00 = .ok (.stWb 0 0 12 3) ∧
    decode .S 0x01860C00 = .ok (.stInv 0 0 12 3) ∧
    decode .S 0x01938000 = .ok (.tileDone 0 0 7) := by
  decide +kernel

/-- Words that R60 refuses: the two fixed words, unassigned codes, a reserved field, annul 0b11, a `st` width, a reserved scope. -/
theorem test_decode_refuses_control :
    ([0x00000000, 0xFFFFFFFF, 0xFC000000, 0x8C000000, 0x0400000A, 0x0490C11A, 0x1C417003, 0x1C414043, 0x34303000, 0x2C720000, 0x28723802,
      0x48100000, 0x547209A5, 0x547209A7, 0x58000005, 0x5C003010, 0x5C500008, 0x5C004010, 0x60000006, 0x6C000001, 0x6C000141, 0x6C000042,
      0x74000081, 0x7C015081, 0x88014401] : List Word32).all (fun w => (decode .C w).toOption.isNone) = true := by decide +kernel

/-- On engine strands: unassigned opcodes, n16, vm8, ac4, lc above its field, type 3, `.agg` with D, code 7 of a reduction. -/
theorem test_decode_refuses_engine :
    ([(.L, 0x00000000), (.L, 0x00900000), (.L, 0x01D00000), (.X, 0x01600000), (.X, 0x03E00000), (.S, 0x01A00000), (.L, 0x00118000 + 0x20000),
      (.L, 0x00300000 + 0x40000), (.L, 0x01580001), (.X, 0x01220000), (.X, 0x02540000), (.X, 0x01800003), (.X, 0x03728000), (.X, 0x02F1A807),
      (.X, 0x03308000), (.S, 0x01600002), (.S, 0x01980000)] : List (Strand × Word32)).all
        (fun p => (decode p.1 p.2).toOption.isNone) = true := by decide +kernel

/-- Words that spec/ writes out: R66, R71, R74, R157 (`ac.mv` by its fields, log entry 41), R182, R229, R253. -/
theorem test_decode_written :
    decode .C 0x34301FFB = .ok (.bne 3 0 1 0xFFB) ∧ decode .C 0x547209FB = .ok (.amoCas 7 8 9 3 3) ∧ decode .C 0x54720947 = .ok (.amoFadd 7 8 9 2 0) ∧
    decode .X 0x44800000 = .ok (.eNop 2 1) ∧ decode .L 0x00108040 = .ok (.lpSetImm 0 0 1 64) ∧ decode .L 0x01518000 = .ok (.rgRst 0 0 3) ∧
    decode .X 0x41000021 = .ok (.mma 2 0 0 0 1 1) ∧ decode .X 0x05318000 = .ok (.acMv 0 1 3 0 0) ∧ decode .X 0x01411CA1 = .ok (.acLdAdd 0 0 2 7 5) ∧
    decode .X 0x0344984C = .ok (.vtree 0 0 9 1 4 1 12) ∧ decode .S 0x0149878C = .ok (.histRdClr 0 0 3 30 12) ∧
    decode .C 0x3010803F = .ok (.beq 1 2 0 0x03F) ∧ decode .C 0x3430107E = .ok (.bne 3 0 1 0x07E) ∧ decode .C 0x0490C412 = .ok (.mulhu 9 3 4) := by
  decide +kernel

/-- The same two ways round: the encoder gives R71's and R251's words back. -/
theorem test_encode_written :
    encode (.eNop 2 1) = 0x44800000 ∧ encode (.lpSetImm 0 0 1 64) = 0x00108040 ∧ encode (.mulhu 9 3 4) = 0x0490C412 ∧ encode (.slli 4 5 3) = 0x1C414003 := by
  decide +kernel

/-! ### Numbers (R28 to R56) -/

/-- R39: 470 in E4M3 by RNE, with E4NAN, and by RZ. -/
theorem test_e4m3_overflow :
    e4m3.encode .rne false (ofInt 470) = 0x7E ∧ e4m3.encode .rne true (ofInt 470) = 0x7F ∧ e4m3.encode .rz true (ofInt 470) = 0x7E := by decide +kernel

/-- R48: the random bits of T = 0, S = 1, C = 0, and 1.0048828125 rounded with them to BF16, E4M3 and FP16. -/
theorem test_stochastic_rounding :
    srgen 0 1 0 = 0x5692 ∧ bf16.encode (.sr 0x5692) false (f32 0x3F80A000) = 0x3F80 ∧ e4m3.encode (.sr 0x5692) false (f32 0x3F80A000) = 0x38 ∧
    fp16.encode (.sr 0x5692) false (f32 0x3F80A000) = 0x3C05 := by decide +kernel

/-- R54: lanes 2^24, 1 and 1. -/
theorem test_tree_order : treeReduce fadd 2 [some 0x4B800000, some 0x3F800000, some 0x3F800000, none] = some 0x4B800000 := by decide +kernel

/-- R53: the INT4 and INT8 rows of the example give I = 64 and a contribution of 8.0. -/
theorem test_quantised_group :
    accStep 0 (groupSum { m := 16, n := 16, ke := 32, fa := 5, fb := 7, g := 32 } { codes := List.replicate 32 9, scale := 0x3800, zp := 8 }
      { codes := List.replicate 32 130, scale := 0x3400, zp := 128 }) = 0x41000000 := by decide +kernel

/-- R33: INT6 codes 1, 2, 3 and 63. -/
theorem test_packed_codes : packCodes 6 [1, 2, 3, 63] = [0x81, 0x30, 0xFC] := by decide +kernel

/-- R35: q = 3, zp = 8, scale 0.5 is −2.5. -/
theorem test_quantised_value : widen 5 3 8 0x3800 = 0xC0200000 := by decide +kernel

/-- R174: −2.75 to S32 by RZ, and NaN. -/
theorem test_vcvt_rz : vcvtLane 0 8 1 0xC0300000 = 0xFFFFFFFE ∧ vcvtLane 0 8 1 0x7FC00000 = 0 := by decide +kernel

/-- R180, R179: a row of 1.0 scans to 1 to 64, and sums to 2,080. -/
theorem test_row_scan :
    let y := (List.range 6).foldl (fun y k => scanStepRow fadd k y) (List.replicate 64 (some 0x3F800000))
    y.getD 0 none = some 0x3F800000 ∧ y.getD 9 none = some 0x41200000 ∧ y.getD 63 none = some 0x42800000 ∧ treeReduce fadd 6 y = some 0x45020000 := by
  decide +kernel

/-- R193: the diagonal affine operator on (2, 3) and (4, 5) gives (8, 17). -/
theorem test_combine_program :
    (parseImg (w32 0x3F800000 ++ w32 0 ++ w32 0 ++ w32 0 ++ [0x04, 0x2C, 0x50, 0x7D, 0x41, 0x3D] ++ List.replicate 26 0 ++ w32 (3 + 32) ++ w32 0 ++ w32 0 ++ w32 0)).map
      (fun p => p.run [0x40000000, 0x40400000] [0x40800000, 0x40A00000]) = some [0x41000000, 0x41880000] := by decide +kernel

/-! ### Steps -/

/-- R251: `mulhu` and `mulh` of all ones and 2; `div` by zero of R251; a sum that wraps. -/
theorem test_mulhu : after (exec (.mulhu 3 9 12) (cf (fun k => k.setX 12 2 0) base)) (fun t => (t.core 0).xval 3 == 1) = true := by decide +kernel
theorem test_mulh : after (exec (.mulh 3 9 12) (cf (fun k => k.setX 12 2 0) base)) (fun t => (t.core 0).xval 3 == 0xFFFFFFFFFFFFFFFF) = true := by
  decide +kernel
theorem test_add_wraps : after (exec (.add 3 9 2) base) (fun t => (t.core 0).xval 3 == 6 && (t.core 0).seq.pc == 0x104) = true := by decide +kernel
theorem test_x0_discards : after (exec (.addi 0 1 9) base) (fun t => (t.core 0).xval 0 == 0 && (t.core 0).seq.pc == 0x104) = true := by decide +kernel

/-- R252, R253: `bne.at` in the first slot of a taken `beq`: both positions after it are annulled, the target is third. -/
def inSlot : State := cf (fun k => { k with seq := { pc := 0x4008, n1 := 0x400C, n2 := 0x4100, ann := 0, red1 := false, red2 := true } }) base
theorem test_branch_in_slot : after (exec (.bne 1 0 1 0x07E) inSlot) (fun t =>
    (t.core 0).seq.pc == 0x400C && (t.core 0).seq.n1 == 0x4100 && (t.core 0).seq.n2 == 0x4200 && (t.core 0).seq.ann == 2) = true := by decide +kernel

/-- R256, R258: an interrupt just after it saves 0x400C, 0x4100 and SDS with ANN 2, SLOTS 2 and the target. -/
theorem test_trap_between_slots : after (exec (.bne 1 0 1 0x07E) inSlot) (fun t =>
    let k := (takeTrap 0 0 0 t).core 0
    k.csr.spc == 0x400C && k.csr.snpc == 0x4100 && k.csr.sds == 0x0280000000004200 && k.seq.pc == 0x2000) = true := by decide +kernel

/-- R256: `svc 200` enters the handler with H set and IE clear. -/
theorem test_svc : after (exec (.svc 200) base) (fun t =>
    (t.core 0).csr.inHandler && !bit (t.core 0).csr.stat.toNat 1 && (t.core 0).seq.pc == 0x2000 && (t.core 0).seq.n1 == 0x2004) = true := by decide +kernel

/-- R262: a fetch-and-add gives the old value and stores the sum. -/
theorem test_amo_add : after (exec (.amoAdd 3 20 2 0 3) (put 0x1040 (w64 5) base)) (fun t =>
    (readBytes t 0x1040 8 == w64 12)) = true := by decide +kernel

/-- R62: `ld.s8` sign-extends, `ld.z8` does not; bytes run upwards from the least significant (R4). -/
theorem test_store_bytes : after (exec (.st 17 20 5 1) base) (fun t => readBytes t 0x1044 4 == [0, 0, 1, 0] && readBytes t 0x1040 4 == [0, 0, 0, 0]) = true := by
  decide +kernel

/-- R135: a loop's end counts down and branches while the count was above 1. -/
def looping (n : Nat) : State := on .L (cf (fun k => { k with l := { k.l with lc := wr k.l.lc 2 (BitVec.ofNat 32 n) } }) base)
theorem test_loop_end : (∀ p ∈ [(2, 0x200 - 16, 1), (1, 0x204, 0), (0, 0x204, 0)],
    after (exec (.lpEnd 0 0 2 0x3FFFC) (looping p.1)) (fun t => (t.core 0).l.pc == wd p.2.1 && rd (t.core 0).l.lc 2 == BitVec.ofNat 32 p.2.2) = true) := by
  decide +kernel

/-- R71: `e.nop` pops what its wait mask names and pushes what its give mask names. -/
theorem test_tokens_move : after (exec (.eNop 2 1) (on .X base)) (fun t => (t.core 0).tokens 6 == 0 && (t.core 0).tokens 0xB == 2 && (t.core 0).tokens 2 == 1) = true := by
  decide +kernel

/-- A word placed for the next step, from reset (the host's question; log entry 5): `slli x4, x5, 3` leaves x4 = 0 and moves on. -/
theorem test_step_runs_placed : after (step (State.reset.withFetchWord 32 0x1C414003)) (fun t => (t.core 0).seq.pc == ((State.reset.withFetchWord 32 0x1C414003).core 0).seq.n1) = true := by
  decide +kernel

end Sys2Proof.Tests
end

