-- ==== Sys2Proof/Tests/WitnessControl.lean ====
section
/-! SUPPORT. Witnesses for the statements about decoding, steps, traps and the control strand: states and operands that meet the
hypotheses of each statement, clause by clause. -/

namespace Sys2Proof.Tests

open Sys2Proof Sys2Proof.Machine

set_option Elab.async false

theorem witness_EncodeThenDecode :
    (Instr.jalr 0 1 0x3FFF).wf = true ∧ (Instr.jalr 0 1 0x3FFF).tbl.ofStrand .C = true ∧
    (Instr.lpSetImm 0 0 0 4096).wf = true ∧ (Instr.lpSetImm 0 0 0 4096).tbl.ofStrand .S = true := by decide +kernel

theorem witness_DecodeThenEncode : decode .C 0x50004000 = .ok (.jalr 0 1 0) ∧ decode .L 0x00101000 = .ok (.lpSetImm 0 0 0 4096) := by
  decide +kernel

theorem witness_StepKeepsMemoryCanonical :
    CanonicalMemory (placeWord State.reset .C 0x1C414003) ∧ ∃ t, step (placeWord State.reset .C 0x1C414003) = .next t ∧ true = true :=
  ⟨by decide +kernel, next_of _ (fun _ => true) (by decide +kernel)⟩

/-- A C word and an engine word, each at the position of a strand whose turn it is; the last while the X strand writes a tile. -/
theorem witness_StepRunsDecoded :
    ∀ p ∈ [(Strand.C, (0x1C414003 : Word32), false), (.L, 0x00101000, false), (.L, 0x00101000, true)],
      let s0 := placeWord State.reset p.1 p.2.1
      let s := if p.2.2 then cf (fun k => { k with flights := [{ st := .X, rest := .tiles [{ d := 3, old := [1, 2], res := [2, 2], newl := 0 }], gives := [] }] }) s0 else s0
      let a := s.updCore 0 (endTorn (fun o => o == p.1))
      let v := viewOf 0 p.1 a
      (s.agenda = [] ∧ s.cur = (0, p.1) ∧ mayIssue v 0 p.1 = true) ∧ (s.coreJob 0).all (fun j => !j.killDue) = true ∧
      (s.core 0).replay = [] ∧ ((tornBy (a.core 0) p.1).isEmpty = !p.2.2) ∧ (p.1 = .X → fillAt (a.core 0) = none) ∧
      (p.1 = .C → (v.core 0).asyncDue = false ∧ (v.core 0).rdvWait = false ∧ (v.core 0).phArr = false ∧
        (v.core 0).st.c = .issuing ∧ (v.core 0).seq.ann = 0) ∧
      (match fetchWord 0 p.1 v with | .ok x => (decode p.1 x.1).toOption.isSome | .error _ => false) = true := by
  decide +kernel

theorem witness_StepNeverStops :
    let s : State := { base with agenda := [.event (.bucketRefill)] }
    (∀ i, s.agenda.head? = some (.event i) → i.tbl = .agent) ∧ s.agenda.head? = some (.event .bucketRefill) := by
  refine ⟨fun i h => ?_, rfl⟩
  cases h
  rfl

theorem witness_TrapEntry :
    (mayIssue base 0 .C = true ∧ (base.core 0).csr.inHandler = false ∧ (base.core 0).csr.hasVector = true) ∧
    (Strand.S ≠ .C ∧ mayIssue base 0 .S = true) := by decide +kernel

def interrupted : State := cf (fun k => { k with dbg := { k.dbg with pend := true, code := 0xFF } }) base
def queued : State := cf (fun k => { k with atraps := [{ cause := 5, tval := 6, src := .spill }, { cause := 7, tval := 8, src := .gate }] }) base
/-- A task interrupt that arrived after both queued traps, and one that arrived before them. -/
def late : State := cf (fun k => { k with dbg := { k.dbg with pend := true, code := 0xFF, after := 2 } }) queued
def first : State := cf (fun k => { k with dbg := { k.dbg with pend := true, code := 0xFF } }) queued

theorem witness_SoftwareAndAsyncTraps :
    (Ready base 0 .C ∧ (base.core 0).csr.inHandler = false ∧ (base.core 0).csr.hasVector = true) ∧
    (∀ s ∈ [queued, late, first, interrupted], (s.core 0).csr.inHandler = false ∧ (s.core 0).csr.hasVector = true ∧
      (s.core 0).st.c = .issuing ∧ (s.core 0).atWfi = false) ∧
    (∀ s ∈ [queued, late], (s.core 0).atraps ≠ [] ∧ ((s.core 0).dbg.pend = false ∨ 0 < (s.core 0).dbg.after)) ∧
    (∀ s ∈ [first, interrupted], (s.core 0).csr.intEnabled = true ∧ (s.core 0).dbg.pend = true ∧
      ((s.core 0).atraps = [] ∨ (s.core 0).dbg.after = 0)) := by
  decide +kernel

def noHandler : State := cf (fun k => { k with csr := { k.csr with tvec := 0 } }) base

theorem witness_UnhandledTrap :
    (mayIssue noHandler 0 .C = true ∧ (noHandler.core 0).csr.hasVector = false) ∧
    (mayIssue (inHandler 2 base) 0 .C = true ∧ ((inHandler 2 base).core 0).csr.inHandler = true) ∧
    bit (noHandler.part (noHandler.core 0).id.pid).ftrec0.toNat 63 = false ∧
    bit ((pf (fun q => { q with ftrec0 := wd (2 ^ 63) }) noHandler).part 0).ftrec0.toNat 63 = true := by decide +kernel

theorem witness_UnhandledTrap_job : noHandler.job? (noHandler.core 0).id.jobid = some job := rfl

theorem witness_ReturnFromTrap :
    let s := inHandler 3 base
    let r := (s.core 0).csr
    (Ready s 0 .C ∧ (s.core 0).replay = []) ∧
    (r.inHandler = true ∧ r.sstat.toNat < 4 ∧ (r.spc.toNat < 2 ^ 52 ∧ r.spc.toNat % 4 = 0) ∧ (r.snpc.toNat < 2 ^ 52 ∧ r.snpc.toNat % 4 = 0) ∧
     (r.sds.toNat < 2 ^ 58 ∧ bits r.sds.toNat 52 2 = 0 ∧ r.sds.toNat % 4 = 0 ∧ bits r.sds.toNat 56 2 ≠ 3 ∧ bits r.sds.toNat 54 2 ≠ 3) ∧
     (∀ hs ∈ [[none], [some (TrapSrc.strand .L), none]],
       ∀ n ∈ List.range 3, ((cf (fun k => { k with handlers := hs }) s).core 0).handlers.head?.join ≠ some (.replay n))) ∧
    (base.core 0).csr.inHandler = false ∧
    (((inHandler 4 base).core 0).csr.inHandler = true ∧ 4 ≤ ((inHandler 4 base).core 0).csr.sstat.toNat) := by decide +kernel

theorem witness_PositionsWithoutFetch :
    let a := cf (fun k => { k with seq := { k.seq with ann := 2 } }) base
    let f := cf (fun k => { k with seq := { k.seq with pc := wd (2 ^ 52) } }) base
    (mayIssue a 0 .C = true ∧ (a.core 0).seq.ann ≠ 0) ∧
    (mayIssue f 0 .C = true ∧ 2 ^ 52 ≤ (f.core 0).seq.pc.toNat ∧ windowOf f 0 = none ∧ (f.core 0).csr.inHandler = false ∧
      (f.core 0).csr.hasVector = true) := by decide +kernel

/-- The operands of the arithmetic, branch and jump statements; x9 is −1, x8 is −2^63, x0 divides by zero. -/
theorem witness_ScalarArithmetic :
    (Ready base 0 .C ∧ NonePending (base.core 0) [3, 8, 9] ∧ NonePending (base.core 0) [0, 8, 0]) ∧
    ((base.core 0).xval 8).toInt = -(2 ^ 63) ∧ ((base.core 0).xval 9).toInt = -1 ∧
    (Ready (pends [pendOf 9 .load none none] base) 0 .C ∧ ((pends [pendOf 9 .load none none] base).core 0).pending 9 = true ∧
      (base.core 0).pending 9 = false) := by
  decide +kernel

theorem witness_BranchesAndJumps :
    (Ready base 0 .C ∧ NonePending (base.core 0) [1, 2] ∧ (base.core 0).xval 1 ≠ (base.core 0).xval 2) ∧
    ((pends [pendOf 1 .load none none] base).core 0).pending 1 = true ∧
    ((base.core 0).xval 10 + (0 : BitVec 14).signExtend 64).toNat % 4 = 0 ∧
    ((base.core 0).xval 11 + (0 : BitVec 14).signExtend 64).toNat % 4 ≠ 0 := by decide +kernel

/-- A plain access to the last n bytes of the sector at 0x1040 (page 1). -/
theorem plain_read : PlainAccess base 0 .C 0x107F 1 { rd := true, wr := false, ex := false } (page 1 1) := by
  constructor <;> decide +kernel

theorem plain_write : PlainAccess base 0 .C 0x1040 8 { rd := false, wr := true, ex := false } (page 1 1) := by
  constructor <;> decide +kernel

theorem plain_atomic : PlainAccess base 0 .C 0x1040 8 { rd := true, wr := true, ex := false } (page 1 1) := by
  constructor <;> decide +kernel

theorem plain_fadd : PlainAccess base 0 .C 0x1040 4 { rd := true, wr := true, ex := false } (page 1 1) := by
  constructor <;> decide +kernel

theorem witness_LoadsAndStores :
    (Ready base 0 .C ∧ NonePending (base.core 0) [3, 20] ∧ ((base.core 0).xval 20 + (63 : BitVec 11).signExtend 64 * wd 1).toNat = 0x107F) ∧
    (∀ x ∈ [(pendOf 3 .load (some 99) none, PendSrc.load), (pendOf 3 .amo (some 99) (some 4), .amo)],
      ((pends [x.1] base).core 0).pend = [x.1] ∧ x.1.reg = 3 ∧ x.1.val = some 99 ∧ x.1.src = x.2) ∧
    (CanonicalMemory base ∧ NonePending (base.core 0) [1, 20] ∧
      ((base.core 0).xval 20 + (0 : BitVec 11).signExtend 64 * wd 8).toNat = 0x1040) := by decide +kernel

theorem witness_Atomics :
    (CanonicalMemory base ∧ Ready base 0 .C ∧ NonePending (base.core 0) [3, 20, 1] ∧ (base.core 0).span < 4096 ∧
      ((base.core 0).xval 20).toNat = 0x1040) ∧
    wd (leNat (readBytes base 0x1040 8)) = (base.core 0).xval 3 ∧ wd (leNat (readBytes base 0x1040 8)) ≠ (base.core 0).xval 1 ∧
    ((base.core 0).xval 11).toNat % 8 ≠ 0 ∧ (base.core 0).id.det = false ∧
    ((cf (fun k => { k with id := { k.id with det := true } }) base).core 0).id.det = true := by decide +kernel

/-- A context of the task's own with a pending block at 0x1000, its eight layers of 256 bytes guarded; STOK as given. -/
def guarding (stok : Bool) : State :=
  { base with reps :=
      [{ Rep.fresh 0x3000 7 0 0 (w64 0 ++ [2, 0, 8, 0, 3, 1, if stok then 16 else 0, 0] ++ w32 5 ++ w32 9 ++ w32 256 ++ w32 256) .repair 0 with
           owner := some 5, ownjob := 5, blks := [{ idx := 0, addr := 0x1000, ntok := 1, pos := 0, lvl := 0, mask := 0 }] }] }
/-- A watchpoint on reads and writes at 0x1040, with and without its snapshot. -/
def watching (snap : Bool) : State :=
  cf (fun k => { k with dbg := { k.dbg with wp := wr k.dbg.wp 0 { addr := 0x1040, ctl := if snap then 0x207 else 7 } } }) base
/-- Page 1 is race-checked, and its sector's record names another task of the job in this phase. -/
def raced : State :=
  { (put 0x3208 (w64 (2 ^ 52 + 9 * 2 ^ 36 + 3 * 2 ^ 20 + 5 * 2 ^ 8 + 1)) (pf (fun q => { q with rcbase := 0x3000, rcsize := 0x800 }) base)) with
    tlb := [{ page 1 1 with race := true }, page 3 3] }

def readKind : WpKind := { rd := true, wr := false, ex := false }
def writeKind : WpKind := { rd := false, wr := true, ex := false }
def amoKind : WpKind := { rd := true, wr := true, ex := false }

/-- An access that faults in translation, one on a watchpoint, one that races. -/
def trapsHere (va : Nat) (n : Nat) (acc : Acc) (kd : WpKind) : Prop :=
  (match (translate (strandWho base 0) (2 ^ 63) n acc base).1 with | .error f => !f.1.poison | .ok _ => false) = true ∧
  (∀ snap ∈ [false, true], (match translate (strandWho (watching snap) 0) va n acc (watching snap) with
    | (.ok _, s1) => decide (wpHit (s1.core 0) .C (s1.core 0).seq.pc va n kd = some (0, snap)) | _ => false) = true) ∧
  (match translate (strandWho raced 0) va n acc raced with
    | (.ok pages, s1) => (wpHit (s1.core 0) .C (s1.core 0).seq.pc va n kd).isNone && (match pieces pages va n with
      | [p] => p.page.race && (match (readRace (s1.core 0).id.pid p.pa s1).1 with
        | some r => !raceFree r (s1.core 0).id.jobid (s1.core 0).id.phn (s1.core 0).id.slot (fun t => (s1.core 0).seen.toList.getD t 0)
        | none => false)
      | _ => false)
    | _ => false) = true

theorem witness_LoadsAndStores_traps : trapsHere 0x1040 8 .read readKind ∧ trapsHere 0x1040 8 .write writeKind ∧ trapsHere 0x1040 8 .atomic amoKind := by
  unfold trapsHere
  decide +kernel

/-- A read across a page boundary and a stale one, each delivered; a write across that boundary; a guard that lets no read pass. -/
theorem witness_LoadsAndStores_any :
    (Ready base 0 .C ∧ NonePending (base.core 0) [3, 11] ∧ ((base.core 0).xval 11 + (511 : BitVec 11).signExtend 64 * wd 8).toNat = 0x1FF9) ∧
    (guardedBy base 0 [(0x1FF9, 8)]).isEmpty = true ∧
    (match strandRead 0 .C 0x1FF9 8 true base with | .ok _ => true | .error _ => false) = true ∧
    (match strandWrite 0 .C 0x1FF9 (w64 5) 0 true base with | .ok _ => true | .error _ => false) = true ∧
    ((guardedBy (guarding true) 0 [(0x1040, 8)]).map (fun m => m.stok) = [true] ∧
      (match strandRead 0 .C 0x1040 8 true (guarding true) with | .ok _ => true | .error _ => false) = true) ∧
    ((guardedBy (guarding false) 0 [(0x1040, 8)]).map (fun m => m.stok) = [false]) := by
  decide +kernel

theorem witness_Atomics_any :
    (match translate (strandWho base 0) 0x1040 8 .atomic base with
      | (.ok pages, s1) => (pieces pages 0x1040 8).all (fun p => !paRemote p.pa) &&
          (wpHit (s1.core 0) .C (s1.core 0).seq.pc 0x1040 8 amoKind).isNone &&
          (match amoHere 0 { strandWho base 0 with cache := none } (fun x y _ => some (x + y)) (pieces pages 0x1040 8) 8 (3, 0) 0 s1 with
            | .ok _ => true | .error _ => false)
      | _ => false) = true := by
  decide +kernel

/-- Page 1 stands for memory of package 3. -/
def farPage : Tlb := page 1 (2 ^ 35 + 3 * 2 ^ 28)
def remotePage : State := { base with tlb := [farPage], ualnum := 0x81 }

/-- Where the partition is granted the UALink range, an atomic there is a remote one. -/
theorem witness_Atomics_remote (h : Config.windowGranted 0 1 = true) :
    translate (strandWho remotePage 0) 0x1040 8 .atomic remotePage = (.ok [pageOf 1 farPage], remotePage) ∧
    (∀ q ∈ pieces [pageOf 1 farPage] 0x1040 8, paRemote q.pa = true) ∧
    wpHit (remotePage.core 0) .C (remotePage.core 0).seq.pc 0x1040 8 amoKind = none := by
  have hr : inRanges remotePage farPage.pid (farPage.ppage * 4096) = true := by
    unfold inRanges
    rw [show farPage.pid.val = 0 from rfl, h]
    decide +kernel
  have hc : checkPage remotePage farPage .atomic true = none := by
    simp only [checkPage, hr]
    decide +kernel
  have ho : onePage (strandWho remotePage 0) 1 .atomic remotePage = (.ok (pageOf 1 farPage), remotePage) := by
    have hl : lookupPage (strandWho remotePage 0).pid (strandWho remotePage 0).vd (strandWho remotePage 0).asid (1 * 4096) remotePage =
      (.ok farPage, remotePage) := rfl
    have hw : (strandWho remotePage 0).inWindow 1 = none := rfl
    simp only [onePage, hw, hl, hc]
  refine ⟨?_, by decide +kernel, by decide +kernel⟩
  have hn : pageNeeds [{ va := 0x1040, len := 8, acc := Acc.atomic }] = [{ vpage := 1, acc := .atomic, first := 0x1040, secs := [1] }] := rfl
  have hh : hitPage (strandWho remotePage 0) remotePage { vpage := 1, acc := .atomic, first := 0x1040, secs := [1] } = none := rfl
  simp only [Machine.translate, translateRuns, hn, openPages, needPage, hh, ho]
  rfl

/-- Each special register with a value it takes and, where there is one, the least it does not. -/
theorem witness_SpecialRegisters :
    let h := inHandler 3 base
    (Ready base 0 .C ∧ NonePending (base.core 0) [3] ∧ Ready h 0 .C) ∧
    ((base.core 0).csr.inHandler = false ∧ (h.core 0).csr.inHandler = true) ∧
    ((base.core 0).xval 1).toNat ≥ 4 ∧ ((base.core 0).xval 0).toNat < 4 ∧ ((base.core 0).xval 10).toNat % 4 = 0 ∧
    ((base.core 0).xval 31).toNat < 2 ^ 32 ∧ 2 ^ 32 ≤ ((base.core 0).xval 30).toNat ∧ bits ((base.core 0).xval 16).toNat 16 47 = 0 ∧
    bits ((base.core 0).xval 17).toNat 16 47 ≠ 0 ∧ ((base.core 0).xval 31).toNat > 0x7F800000 := by decide +kernel

theorem witness_OrderAndTime :
    let armed := pf (fun q => { q with snapArm := true }) base
    let w (v : Word) := cf (fun k => { k with waitT := some v, st := { k.st with c := .waiting } }) base
    (Ready base 0 .C ∧ NonePending (base.core 0) [40, 41]) ∧
    (((base.core 0).xval 40).toNat ≤ base.time.toNat ∧ base.time.toNat < ((base.core 0).xval 41).toNat) ∧
    (Ready queued 0 .C ∧ (queued.core 0).asyncDue = true) ∧ ((base.core 0).asyncDue = false ∧ (base.core 0).dbg.pend = false) ∧
    ((base.part (base.core 0).id.pid).snapArm = false ∧ (armed.part 0).snapArm = true) ∧
    (((base.core 0).xval 31).toNat < 2 ^ 32 ∧ 2 ^ 32 ≤ ((base.core 0).xval 30).toNat) ∧
    (((w 1000).core 0).waitT = some 1000 ∧ (1000 : Word).toNat ≤ (w 1000).time.toNat) ∧
    (((w 1001).core 0).waitT = some 1001 ∧ (w 1001).time.toNat < (1001 : Word).toNat) := by decide +kernel

theorem witness_OrderAndTime_job : base.job? (base.core 0).id.jobid = some job := rfl

theorem witness_SnapshotTrigger :
    let s := pf (fun q => { q with snapArm := true }) base
    s.boot.st = .ready ∧ Ready s 0 .C ∧ (s.part (s.core 0).id.pid).snapArm = true ∧ (s.part 0).snapArm = true := by decide +kernel

def tokens (n : BitVec 8) (s : State) : State := cf (fun k => { k with tok := Vector.replicate 16 n }) s

theorem witness_TokenQueues :
    let up := 4 * strandNo .C + strandNo (strandOf 2)
    let down := 4 * strandNo (strandOf 2) + strandNo .C
    (Ready (tokens 254 base) 0 .C ∧ ((tokens 254 base).core 0).started.get (strandOf 2) = true ∧ ((tokens 254 base).core 0).spill.cmds = [] ∧
      ((tokens 254 base).core 0).tokens up < 255) ∧
    (0 < (base.core 0).tokens down ∧ (base.core 0).flights = []) ∧
    (Ready (alone base) 0 .C ∧ ((alone base).core 0).started.get (strandOf 2) = false) := by decide +kernel

def sem (n : BitVec 16) (ws : List (CoreId × Nat)) (s : State) : State :=
  cf (fun k => { k with sems := wr k.sems 5 { Sem.reset with count := n, waiters := ws } }) s

theorem witness_Semaphores :
    (Ready base 0 .C ∧ NonePending (base.core 0) [3, 16]) ∧ ((base.core 0).xval 16).toNat ≤ 65535 ∧
    ((base.core (semCore 0 0)).sem 5).count.toNat + ((base.core 0).xval 16).toNat ≤ 65535 ∧
    65535 < (((sem 1 [] base).core (semCore 0 0)).sem 5).count.toNat + ((base.core 0).xval 16).toNat ∧
    ((((sem 0xFFFF [] base).core 0).sem 5).waiters = [] ∧ ((base.core 0).xval 16).toNat ≤ (((sem 0xFFFF [] base).core 0).sem 5).count.toNat) ∧
    (((sem 9 [(1, 7)] base).core 0).sem 5).waiters ≠ [] ∧ (((sem 0xFFFE [] base).core 0).sem 5).count.toNat < ((base.core 0).xval 16).toNat ∧
    65535 < ((base.core 0).xval 17).toNat ∧
    ((((sem 0xFFFE [] base).core 0).sem 5).waiters.any (fun w => w.1 == (0 : CoreId)) = false) ∧
    ((((sem 7 [(1, 7)] base).core 0).sem 5).waiters = [(1, 7)] ∧ 7 ≤ (((sem 7 [(1, 7)] base).core 0).sem 5).count.toNat) := by
  decide +kernel

def flag (f : Flag) (ps : List FlagPost) : Job := { job with flags := wr job.flags (i8 9) f, posts := ps }
def withJob (j : Job) (s : State) : State := { s with jobs := [j] }

theorem witness_GangFlags :
    let v := (base.core 0).xval 31
    (Ready base 0 .C ∧ NonePending (base.core 0) [31, 30] ∧ 2 ≤ (base.core 0).id.hlvl.toNat ∧ v.toNat < 2 ^ 32) ∧
    ((rd (flag { val := 0x7FFFFFFE, stamps := [], waiters := [] } []).flags (i8 9)).val - v.setWidth 32).toNat < 2 ^ 31 ∧
    2 ^ 31 ≤ ((rd (flag { val := 0x7FFFFFFF, stamps := [], waiters := [] } []).flags (i8 9)).val - v.setWidth 32).toNat ∧
    (rd (flag { val := 0x7FFFFFFF, stamps := [], waiters := [] } []).flags (i8 9)).waiters = [] ∧
    2 ^ 32 ≤ ((base.core 0).xval 30).toNat ∧ ((cf (fun k => { k with id := { k.id with hlvl := 1 } }) base).core 0).id.hlvl.toNat < 2 := by
  decide +kernel

/-- A posted increment, and a waiter that it reaches. -/
theorem witness_GangFlags_apply :
    let p : FlagPost := { flag := 9, amount := 1, slot := 0, sync := 4 }
    let j := flag { val := 2, stamps := [], waiters := [(1, 3)] } [p]
    (withJob j base).job? j.id = some j ∧ j.posts = p :: [] ∧ (rd j.flags (i8 p.flag)).waiters = [(1, 3)] ∧
      ((rd j.flags (i8 p.flag)).val + p.amount - 3).toNat < 2 ^ 31 := ⟨rfl, by decide +kernel⟩

/-- Both cores of the job at a level, with their request and their arrivals. -/
def domain (lvl hl : BitVec 2) (r : Option DomReq) (a b : Bool) : State :=
  let f (x : Bool) (k : Core) : Core := { k with phArr := x, domReq := r, id := { k.id with level := lvl, hlvl := hl } }
  (base.updCore 0 (f a)).updCore 1 (f b)

theorem witness_Phases :
    (∀ s ∈ [domain 3 3 none false false, domain 2 3 none false false, domain 0 0 none false false], Ready s 0 .C) ∧
    (((domain 3 3 none false false).core 0).id.level = 3 ∧ ((domain 3 3 none false false).core 0).domReq = none) ∧
    ((domain 3 3 (some .split) false false).core 0).domReq ≠ none ∧
    (((domain 2 3 none false false).core 0).id.level = 2 ∧ ((domain 2 3 none false false).core 0).id.hlvl = 3) ∧
    ((domain 2 2 none false false).core 0).id.hlvl ≠ 3 ∧ ((domain 0 0 none false false).core 0).id.level = 0 := by decide +kernel

theorem witness_Phases_job : (domain 1 1 none true true).coreJob 0 = some job := rfl

/-- Every member has arrived: at level 1, at level 2 of a level-2 job, and at level 3 with a split agreed; and one has not. -/
theorem witness_Phases_barrier :
    (∀ s ∈ [domain 1 1 none true true, domain 2 2 none true true, domain 3 3 (some .split) true true],
      (domainOf s job 0).Nodup ∧ domainOf s job 0 ≠ [] ∧ ∀ m ∈ domainOf s job 0, (s.core m).phArr = true) ∧
    (∀ m ∈ domainOf (domain 2 2 none true true) job 0, ((domain 2 2 none true true).core m).domReq = none) ∧
    (∀ m ∈ domainOf (domain 3 3 (some .split) true true) job 0, ((domain 3 3 (some .split) true true).core m).domReq = some .split) ∧
    (∃ m ∈ domainOf (domain 1 1 none true false) job 0, ((domain 1 1 none true false).core m).phArr = false) := by decide +kernel

def forkState (mask : Nat) : State := put 0x1000 (w32 0x10 ++ w32 0xFFFFFFF0 ++ w32 7 ++ w32 mask) (alone base)

theorem witness_Fork :
    (Ready (forkState 7) 0 .C ∧ NonePending ((forkState 7).core 0) [10, 11] ∧ ((forkState 7).core 0).forked = false ∧
      (((forkState 7).core 0).xval 10).toNat % 16 = 0) ∧
    ((base.core 0).forked = true ∧ ((base.core 0).xval 11).toNat % 16 ≠ 0) ∧
    ∃ g s1, strandRead 0 .C (((forkState 7).core 0).xval 10).toNat 16 false (forkState 7) = .ok (g, s1) ∧
      s1.core 0 = (forkState 7).core 0 ∧ decide (bytesAt g.bytes 12 4 = 7) = true :=
  ⟨by decide +kernel, by decide +kernel, quiet_of _ _ _ (fun (g : Got) _ => decide (bytesAt g.bytes 12 4 = 7)) rfl (by decide +kernel)⟩

end Sys2Proof.Tests
end

