-- ==== Sys2Proof/Tests/WitnessTask.lean ====
section
/-! SUPPORT. Witnesses for the statements about rendezvous, labels, transfers, launches, repair and collectives. -/

namespace Sys2Proof.Tests

open Sys2Proof Sys2Proof.Machine

set_option Elab.async false

def arrived (k : BitVec 8) (fin : Bool) : Option Arrival := some { id := k, fin := fin, order := 0, pops := [], gives := [4] }
/-- The engine strands have arrived. -/
def meeting (l x s : Option Arrival) : State := cf (fun k => { k with arr := { c := none, l := l, x := x, s := s } }) base

theorem witness_Rendezvous :
    (∀ fin ∈ [false, true], let s := meeting (arrived 5 fin) (arrived 5 fin) (arrived 5 fin)
      Ready s 0 .C ∧ (s.core 0).rdvDone = false ∧ (s.core 0).arr.c = none ∧
      (∀ st ∈ [Strand.L, .X, .S], (s.core 0).started.get st = true → ((s.core 0).arr.get st).isSome = true) ∧
      (∀ st ∈ [Strand.L, .X, .S], ((s.core 0).arr.get st).all (fun a => a.id == 5 && a.fin == fin) = true)) ∧
    (let s := on .X (meeting (arrived 5 false) none none)
     Startable s 0 .X 0 0 ∧ (s.core 0).started.get .X = true ∧ (s.core 0).arr.get .X = none ∧ (s.core 0).arr.c = none ∧
     (s.core 0).firstArrival = arrived 5 false ∧ (s.core 0).unfinished .X = false ∧
     ((cf (fun k => { k with flights := [{ st := .X, rest := .tiles [{ d := 3, old := [1], res := [2], newl := 0 }], gives := [] }] }) s).core 0).unfinished .X = true) ∧
    (let s := cf (fun k => { k with rdvDone := true }) base
     Ready s 0 .C ∧ (s.core 0).rdvDone = true) := by decide +kernel

def ended : State :=
  cf (fun k => { k with rdvDone := true, rdvWait := true, st := { c := .waiting, l := .retired, x := .notStarted, s := .retired } }) base

/-- A job with another task left, and one of which this is the last. -/
theorem witness_Rendezvous_retire :
    (ended.coreJob 0 = some job ∧ (withJob { job with retired := [1] } ended).coreJob 0 = some { job with retired := [1] }) ∧
    (ended.core 0).rdvWait = true ∧ (ended.core 0).st.c ≠ .retired ∧ job.killDue = false ∧ commandsDone ended 0 = true ∧ job.st = .bound ∧
    job.retired.length + 1 < 2 * job.hdr.ncl ∧ 2 * job.hdr.ncl ≤ [(1 : BitVec 8)].length + 1 := ⟨⟨rfl, rfl⟩, by decide +kernel⟩

theorem plain_label : PlainAccess base 0 .C ((base.core 0).xval 20).toNat 1 { rd := true, wr := false, ex := false } (page 1 1) := by
  constructor <;> decide +kernel

theorem witness_LabelsRead :
    (Ready base 0 .C ∧ NonePending (base.core 0) [3, 20]) ∧
    ((1 : Label) ≠ 0 ∧ (2 : Label) ≠ 0 ∧ (1 : Label) ≠ 2 ∧ cached base 0 1 2 = none) := by decide +kernel

/-! ### Transfers -/

def copyRec (next ctl deadline : Nat) : List Byte :=
  w64 next ++ w64 ctl ++ w64 0x1080 ++ w64 0x10C0 ++ w32 16 ++ w32 1 ++ w32 0 ++ w32 0 ++ w64 deadline ++ w32 0 ++ w32 0

def channel (k : Chan) (s : State) : State := s.updCluster 0 (fun q => { q with chans := wr q.chans 2 k })
def chan (st : ChanSt) : Chan :=
  { st := st, cause := 3, cursor := 0x1000, count := 1, issuer := some 0, seqs := [(0, 4)], sync := 1, copy := none }
def copyAt (unit : Nat) (next : Nat) : Copy := { Copy.fresh (copyRec next 0x21 0) 0x1000 3 with checked := true, unit := unit }

theorem witness_Channels :
    (∀ t ∈ [ChanSt.idle, .run, .fault, .error, .aborting], Ready (channel (chan t) base) 0 .C ∧
      (chanAt (channel (chan t) base) (clusterOf 0) 2).st = t) ∧
    NonePending (base.core 0) [0, 3, 10, 50] ∧ (base.core 0).span < 4096 ∧
    (base.core 0).xval 10 ≠ 0 ∧ (base.core 0).xval 0 = 0 ∧ ((base.core 0).xval 50).toNat < 2 ^ 52 ∧ 2 ^ 52 ≤ ((base.core 0).xval 8).toNat ∧
    ((0 : ClusterId) ∈ (base.part (base.core 0).id.pid).clusters) ∧ ((3 : ClusterId) ∉ (base.part (base.core 0).id.pid).clusters) := by
  decide +kernel

def owned (own : Bool) : State := put 0x1000 (copyRec 0 (if own then 0x21 else 0x20) 0) (channel (chan .run) base)

/-- A record that the engine owns, read and checked; one that it does not own. -/
theorem witness_ChannelSteps_read :
    (∀ own ∈ [true, false], let k := chanAt (owned own) 0 2
      k.st = .run ∧ k.issuer = some 0 ∧ engineLive (owned own) 0 (k.seqsOf 0) = true ∧ k.copy = none ∧ k.count + 1 < 2 ^ 20 ∧ k.cursor.toNat % 64 = 0) ∧
    (∃ g s1, readVirt (engineWho (owned true) 0 1 2) 0x1000 64 (owned true) = (.ok g, s1) ∧
      (decide (g.poison = false) && (parseRec g.bytes).own &&
        (match (checkCopy (engineWho (owned true) 0 1 2) (some 0) true false (Copy.fresh g.bytes 0x1000 1) s1).1 with
         | .ok _ => true | .error _ => false)) = true) ∧
    (∃ g s1, readVirt (engineWho (owned false) 0 1 2) 0x1000 64 (owned false) = (.ok g, s1) ∧
      (decide (g.poison = false) && !(parseRec g.bytes).own && decide ((chanAt s1 0 2).st = .run)) = true) :=
  ⟨by decide +kernel,
   okPair_of _ (fun (g : Got) s1 => decide (g.poison = false) && (parseRec g.bytes).own &&
        (match (checkCopy (engineWho (owned true) 0 1 2) (some 0) true false (Copy.fresh g.bytes 0x1000 1) s1).1 with
         | .ok _ => true | .error _ => false)) (by decide +kernel),
   okPair_of _ (fun (g : Got) s1 => decide (g.poison = false) && !(parseRec g.bytes).own && decide ((chanAt s1 0 2).st = .run)) (by decide +kernel)⟩

/-- A record with a reserved width: its checks end in cause 0x04. -/
theorem witness_ChannelSteps_bad :
    let s := put 0x1000 (copyRec 0 0x71 0) (channel (chan .run) base)
    engineLive s 0 ((chanAt s 0 2).seqsOf 0) = true ∧
    (match readVirt (engineWho s 0 1 2) 0x1000 64 s with
      | (.ok g, s1) => (parseRec g.bytes).own && (match (checkCopy (engineWho s 0 1 2) (some 0) true false (Copy.fresh g.bytes 0x1000 1) s1).1 with
        | .error (.bad cause _) => cause == 4 | _ => false)
      | _ => false) = true := by
  decide +kernel

def moving (unit next : Nat) : State := channel { chan .run with copy := some (copyAt unit next) } base

/-- A unit that moves, and a finished record with and without a next one. -/
theorem witness_ChannelSteps_units :
    ((chanAt (moving 0 0) 0 2).copy = some (copyAt 0 0) ∧ (copyAt 0 0).checked = true ∧ (copyAt 0 0).unit < unitsOf (parseRec (copyAt 0 0).img) ∧
      (doUnit 0 (engineWho (moving 0 0) 0 1 2) 3 (parseRec (copyAt 0 0).img) none none 0 (moving 0 0)).1 = .done) ∧
    (∀ next ∈ [0, 0x1040], (chanAt (moving 1 next) 0 2).copy = some (copyAt 1 next) ∧
      unitsOf (parseRec (copyAt 1 next).img) ≤ (copyAt 1 next).unit ∧ (parseRec (copyAt 1 next).img).cmpl = false ∧
      (parseRec (copyAt 1 next).img).next = next ∧
      (match (engineWrite 0 (engineWho (moving 1 next) 0 1 2) 3 0x1008 (w64 1) 0 (moving 1 next)).1 with | .ok .done => true | _ => false) = true ∧
      (copyAt 1 next).stage = 0) := by
  decide +kernel

theorem plain_writeBack : PlainAccess (moving 1 0) 0 .C 0x1008 8 { rd := false, wr := true, ex := false } (page 1 1) := by
  constructor <;> decide +kernel

/-- A record at each stage, with CMPL and without; a semaphore that takes one more and one at its top; an abort. -/
theorem witness_ChannelSteps_stages :
    (∀ ctl ∈ [0x21, 0x121], ∀ stage ∈ [0, 1, 2], let cp := { Copy.fresh (copyRec 0 ctl 0) 0x1000 3 with checked := true, unit := 1, stage := stage }
      (parseRec cp.img).cmpl = decide (ctl = 0x121) ∧ unitsOf (parseRec cp.img) ≤ cp.unit ∧ (parseRec cp.img).sem = 0 ∧ (parseRec cp.img).peer = false) ∧
    ((base.core 0).sem 0).count ≠ 65535 ∧
    ((cf (fun k => { k with sems := wr k.sems 0 { Sem.reset with count := 65535 } }) base).core 0).sem 0 = { Sem.reset with count := 65535 } ∧
    (let s := channel { chan .aborting with copy := some (copyAt 0 0) } base
     (chanAt s 0 2).st = .aborting ∧ (chanAt s 0 2).issuer = some 0 ∧ (chanAt s 0 2).copy = some (copyAt 0 0) ∧ (copyAt 0 0).stage ≠ 1) := by
  decide +kernel

/-- A unit whose source page does not translate. -/
theorem witness_ChannelSteps_fault :
    let cp := { copyAt 0 0 with img := overlay (copyRec 0 0x21 0) 16 (w64 (2 ^ 52)) }
    let s := channel { chan .run with copy := some cp } base
    cp.unit < unitsOf (parseRec cp.img) ∧
    (match (doUnit 0 (engineWho s 0 1 2) 3 (parseRec cp.img) none none 0 s).1 with | .fault _ _ => true | _ => false) = true := by
  decide +kernel

def tcpCopy (cause : Byte) (cmpl : Bool) : TcpCopy :=
  { reg := 3, seq := 4, copy := { copyAt 1 0 with img := copyRec 0 (if cmpl then 0x121 else 0x21) 0, ended := some (cause, 0x1234) } }

theorem witness_ChannelSteps_tcp :
    ∀ cause ∈ [(0 : Byte), 7], ∀ cmpl ∈ [false, true],
      let s := pends [pendOf 3 (.tcp 4) none (some 4)] (cf (fun k => { k with tcps := [tcpCopy cause cmpl] }) base)
      (s.core 0).tcps = tcpCopy cause cmpl :: [] ∧ (tcpCopy cause cmpl).copy.ended = some (cause, 0x1234) ∧ engineLive s 0 [4] = true ∧
      (parseRec (tcpCopy cause cmpl).copy.img).cmpl = cmpl ∧ (s.core 0).pend = [pendOf 3 (.tcp 4) none (some 4)] := by decide +kernel

/-- A deadline at TIME, one that is not yet due, and none. -/
theorem witness_ChannelSteps_deadline :
    ∀ p ∈ [(1000, true), (2 ^ 20, false), (0, false)],
      let cp := Copy.fresh (copyRec 0 0xA1 p.1) 0x1000 1
      let s := channel { chan .run with copy := some cp } base
      let r := parseRec cp.img
      (chanAt s 0 2).copy = some cp ∧ decide (r.offl = true ∧ r.deadline ≠ 0 ∧ r.deadline ≤ s.time.toNat + 2 ^ (r.dlead + 6)) = p.2 := by
  decide +kernel

theorem witness_CommandsIssue :
    (Ready base 0 .C ∧ NonePending (base.core 0) [3, 10, 11] ∧ (base.core 0).span < 4096 ∧
      ((base.core 0).xval 10).toNat % 64 = 0 ∧ ((base.core 0).xval 11).toNat % 64 ≠ 0 ∧ (base.core 0).tcps.length < 8) ∧
    ∃ g s1, strandRead 0 .C ((base.core 0).xval 10).toNat 64 false base = .ok (g, s1) ∧ s1.core 0 = base.core 0 ∧ true = true :=
  ⟨by decide +kernel, quiet_of _ _ _ (fun _ _ => true) rfl (by decide +kernel)⟩

/-- A spill or a fill of slot 3 at 0x10000, whose nine pages are mapped. -/
def spillCmd (fill : Bool) (got : Option Slot) : SpillCmd :=
  { slot := 3, was := noTiles.slot 3, addr := 0x10000, fill := fill, seq := 4, sync := 1, got := got }
def spilling (q : SpillCmd) : State :=
  cf (fun k => { k with spill := { cmds := [q], held := false } }) { base with tlb := (List.range 9).map (fun i => page (16 + i) (16 + i)) }
def slotPages : List Page :=
  (List.range 9).map (fun i => pageOf (16 + i) (page (16 + i) (16 + i)))

theorem spilling_quiet (q : SpillCmd) : (spilling q).lines = [] ∧ ∀ k i, bit (rd ((spilling q).slice k).ws i).ctl.toNat 0 = false := by
  refine ⟨rfl, ?_⟩
  show ∀ k i, bit (rd (base.slice k).ws i).ctl.toNat 0 = false
  decide +kernel

theorem spilling_pieces (q : SpillCmd) : ∀ p ∈ pieces slotPages 0x10000 33856, p.page.stash = none ∧ p.page.lbl = 0 ∧
    paLocal (p.sector * 64) = true ∧ paLocal p.pa = true ∧ (readLocal (spilling q) p.sector).lbl = 0 := by
  show ∀ p ∈ pieces slotPages 0x10000 33856, p.page.stash = none ∧ p.page.lbl = 0 ∧
    paLocal (p.sector * 64) = true ∧ paLocal p.pa = true ∧ (readLocal base p.sector).lbl = 0
  decide +kernel

/-- What the fill reads: no poison, and no reserved bit of the header. -/
theorem fill_bytes : bytesAt ((pieces slotPages 0x10000 33856).flatMap (pieceBytes (spilling (spillCmd true none)))) 33793 63 = 0 ∧
    (pieces slotPages 0x10000 33856).any (fun p => (readLocal (spilling (spillCmd true none)) p.sector).poison) = false := by
  decide +kernel

theorem plain_read_of (w : Who) (ps : List Piece) (s : State) (h : PlainPieces w ps s) (P : List Byte → Prop) (hb : P (ps.flatMap (pieceBytes s)))
    (hp : ps.any (fun p => (readLocal s p.sector).poison) = false) :
    ∃ g s2, readPieces w ps s = (g, s2) ∧ g.poison = false ∧ P g.bytes ∧ s2 = s :=
  ⟨_, _, readPieces_plain w ps s h, hp, hb, rfl⟩

theorem fill_pages : Machine.translate (engineWho (spilling (spillCmd true none)) 0 2 0) 0x10000 33856 .read (spilling (spillCmd true none)) =
    (.ok slotPages, spilling (spillCmd true none)) := by
  rfl

theorem spill_pages : Machine.translate (engineWho (spilling (spillCmd false none)) 0 2 0) 0x10000 33856 .write (spilling (spillCmd false none)) =
    (.ok slotPages, spilling (spillCmd false none)) := by
  rfl

theorem witness_CommandsIssue_fill :
    let q := spillCmd true none
    let s := spilling q
    let w := engineWho s 0 2 0
    ((s.core 0).spill.cmds = q :: [] ∧ engineLive s 0 [q.seq] = true ∧ (s.core 0).spill.held = false) ∧
    Machine.translate w 0x10000 33856 .read s = (.ok slotPages, s) ∧
    ∃ g s2, readPieces w (pieces slotPages 0x10000 33856) s = (g, s2) ∧ g.poison = false ∧ bytesAt g.bytes 33793 63 = 0 ∧
      s2 = s :=
  ⟨by decide +kernel, fill_pages, plain_read_of (engineWho (spilling (spillCmd true none)) 0 2 0) (pieces slotPages 0x10000 33856)
    (spilling (spillCmd true none)) ⟨rfl, rfl, spilling_pieces _⟩ (fun b => bytesAt b 33793 63 = 0) fill_bytes.1 fill_bytes.2⟩

theorem witness_CommandsIssue_spill :
    let q := spillCmd false none
    let s := spilling q
    let w := engineWho s 0 2 0
    ((s.core 0).spill.cmds = q :: [] ∧ engineLive s 0 [q.seq] = true ∧ (s.core 0).spill.held = false ∧ (s.core 0).xs.slot q.slot = q.was) ∧
    Machine.translate w 0x10000 33856 .write s = (.ok slotPages, s) ∧ (∀ p ∈ slotPages, p.race = false) ∧
    ∃ s3, writePieces w (pieces slotPages 0x10000 33856) (slotBytes ((s.core 0).xs.slot 3)) ((s.core 0).xs.slot 3).lbl s = (.done, s3) ∧
      s3.core 0 = s.core 0 := by
  intro q s w
  have h := writePieces_plain w (pieces slotPages 0x10000 33856) (slotBytes ((s.core 0).xs.slot 3)) ((s.core 0).xs.slot 3).lbl s rfl
    (fun p hp => ⟨(spilling_pieces q p hp).1, (spilling_pieces q p hp).2.2.2.1⟩)
  have hc := quiet_writePieces s w (pieces slotPages 0x10000 33856) (slotBytes ((s.core 0).xs.slot 3)) ((s.core 0).xs.slot 3).lbl
    (fun l hl => absurd hl (by rw [(spilling_quiet q).1]; exact List.not_mem_nil)) (spilling_quiet q).2
    (fun p hp => (spilling_pieces q p hp).2.2.1)
  exact ⟨by decide +kernel, spill_pages, by decide +kernel, _, fst_eq h, core_of 0 hc⟩

/-- The second half of a fill; a spill and a fill at an address that does not translate; an engine that waits for its trap. -/
theorem witness_CommandsIssue_more :
    ((spilling (spillCmd true (some (noTiles.slot 3)))).core 0).spill.cmds.map (fun q => q.got.isSome) = [true] ∧
    (∀ fill ∈ [true, false], (match (Machine.translate (engineWho base 0 2 0) (2 ^ 53) 33856 (if fill then .read else .write) base).1 with
      | .error f => !f.1.poison | .ok _ => false) = true) ∧
    ((cf (fun k => { k with spill := { k.spill with held := true } }) (spilling (spillCmd false none))).core 0).spill.held = true := by
  decide +kernel

/-! ### Launch -/

/-- A launch packet for queue 9 with ncl clusters at a level. -/
def packet (ncl lvl qid : Nat) : List Byte :=
  w64 0x40 ++ w32 77 ++ natBytes 2 5 ++ [3, 1, BitVec.ofNat 8 ncl, BitVec.ofNat 8 lvl, 0, 0] ++ List.replicate 4 0 ++ w64 0 ++ w64 1 ++
    w64 2 ++ List.replicate 32 0 ++ [0, 0] ++ natBytes 2 qid ++ List.replicate 44 0

def devQueue : Queue :=
  { id := 9, base := 0x2000, cfg := wd (2 + 16 + 7 * 2 ^ 16), head := 3, tailv := 5, st := .run, code := 0, last := none }

def launching (ncl : Nat) : State := put 0x1000 (packet ncl 0 9) { base with queues := [devQueue] }

theorem witness_Launch :
    (Ready (launching 1) 0 .C ∧ NonePending ((launching 1).core 0) [3, 10, 11] ∧ ((launching 1).core 0).span < 4096) ∧
    ((launching 1).core 0).xval 10 = 0x1000 ∧ (((launching 1).core 0).xval 11).toNat % 128 ≠ 0 := by decide +kernel

set_option maxRecDepth 20000 in
/-- Accepted: the packet is written and the cores stay; refused with status 3: no cluster is asked for. -/
theorem witness_Launch_status :
    (∃ r s1, launchCheck 0 0x1000 (.launch 3 10) (launching 0) = .ok (r, s1) ∧ s1.core 0 = (launching 0).core 0 ∧ decide (r.1 = 3) = true) ∧
    (∃ r s1, launchCheck 0 0x1000 (.launch 3 10) (launching 1) = .ok (r, s1) ∧ s1.core 0 = (launching 1).core 0 ∧
      (decide (r.1 = 0) && (match launchWrite 0 r.2.1 r.2.2 s1 with | .ok x => decide ((x.2.core 0).head = 0) | .error _ => false)) = true) :=
  ⟨quiet_of _ _ _ (fun (r : Nat × Got × Queue) _ => decide (r.1 = 3)) rfl (by decide +kernel),
   quiet_of _ _ _ (fun (r : Nat × Got × Queue) s1 => decide (r.1 = 0) &&
     (match launchWrite 0 r.2.1 r.2.2 s1 with | .ok x => decide ((x.2.core 0).head = 0) | .error _ => false)) rfl (by decide +kernel)⟩

end Sys2Proof.Tests
end

