-- ==== Sys2Proof/Tests/WitnessIoc.lean ====
section
/-! SUPPORT. Witnesses for the statements about repair contexts and collectives. -/

namespace Sys2Proof.Tests

open Sys2Proof Sys2Proof.Machine

set_option Elab.async false

/-! ### Repair -/

/-- A context descriptor in a state, its tables and ring in page 3. -/
def context (st : Nat) : List Byte :=
  w64 0x3000 ++ [2, 0, 8, 0, 3, 1, 0, 0] ++ w32 5 ++ w32 9 ++ w32 256 ++ w32 256 ++ w64 (0x3400 + 4 * 2 ^ 52) ++ w64 0x3800 ++
    List.replicate 32 0 ++ w64 st ++ List.replicate 40 0
/-- A block entry: data address, tokens, position, version. -/
def blockEntry (a ntok pos ver : Nat) : List Byte :=
  w64 (a + 2 ^ 52 + (ntok - 1) * 2 ^ 56) ++ w32 pos ++ w32 5 ++ w32 0 ++ [0, 0, 1, BitVec.ofNat 8 ver] ++ w32 9 ++ List.replicate 4 0
/-- A splice of n blocks at 0x2000 into the context at 0x1000. -/
def splicing (n : Nat) : State :=
  put 0x1000 (context 0) (put 0x2000 (w32 8 ++ [BitVec.ofNat 8 n, 0] ++ List.replicate 26 0 ++ blockEntry 0x2400 2 0 3)
    (cf (fun k => k.setX 21 0x2000 0) base))

theorem witness_Repair :
    (Ready (splicing 1) 0 .C ∧ NonePending ((splicing 1).core 0) [3, 10, 21, 11] ∧
      ((splicing 1).core 0).span < 4096) ∧
    (((splicing 1).core 0).xval 10).toNat % 64 = 0 ∧ (((splicing 1).core 0).xval 11).toNat % 64 ≠ 0 := by decide +kernel

def isSent : Sum Word RepCmd → Bool
  | .inl _ => false
  | .inr _ => true

set_option maxRecDepth 50000 in
/-- A splice that goes to the engine, and one whose status is known at issue. -/
theorem witness_Repair_splice :
    (∃ r s1, spliceIssue 0 (.splice 3 10 21) 0x1000 0x2000 (splicing 1) = .ok (r, s1) ∧ s1.core 0 = (splicing 1).core 0 ∧ isSent r = true) ∧
    (∃ r s1, spliceIssue 0 (.splice 3 10 21) 0x1000 0x2000 (splicing 0) = .ok (r, s1) ∧ s1.core 0 = (splicing 0).core 0 ∧ (!isSent r) = true) :=
  ⟨quiet_of _ _ _ (fun r _ => isSent r) rfl (by decide +kernel), quiet_of _ _ _ (fun r _ => !isSent r) rfl (by decide +kernel)⟩

def repair : Rep :=
  { Rep.fresh 0x1000 7 0 0 (context 0) .repair 0 with
    items := [{ slot := 1, claimed := true, live := false }, { slot := 2, claimed := false, live := true }] }
def repairing (rs : List Rep) : State := { splicing 1 with reps := rs }

/-- A poll with an item to claim, and one with none. -/
theorem witness_Repair_poll :
    (∃ r s1, pollContext 0 0x1000 (repairing [repair]) = .ok (r, s1) ∧ s1.core 0 = (repairing [repair]).core 0 ∧
      (r.items.find? (fun i => !i.claimed)).isSome = true) ∧
    (∃ r s1, pollContext 0 0x1000 (repairing []) = .ok (r, s1) ∧ s1.core 0 = (repairing []).core 0 ∧
      (r.items.find? (fun i => !i.claimed)).isNone = true) ∧
    repIdx (repairing [repair]) (base.core 0).id.pid (base.core 0).id.vd (base.core 0).id.asid 0x1000 = some 0 :=
  ⟨quiet_of _ _ _ (fun (r : Rep) _ => (r.items.find? (fun i => !i.claimed)).isSome) rfl (by decide +kernel),
   quiet_of _ _ _ (fun (r : Rep) _ => (r.items.find? (fun i => !i.claimed)).isNone) rfl (by decide +kernel), by decide +kernel⟩

def repCmd (sp : Bool) : RepCmd :=
  { core := 0, seq := 0, splice := sp, ctx := 0x1000, pos := 8, list := blockEntry 0x2400 2 0 3, lbl := 0, reg := 3, hthresh := 5 }
def serving (sp : Bool) (r : Rep) : State := pends [pendOf 3 (.cmd 0) none (some 0)] { splicing 1 with repq := [repCmd sp], reps := [r] }

/-- A context in REPAIR or ERROR that answers a command, and one whose descriptor's sector is poisoned. -/
theorem witness_Repair_service :
    (∀ sp ∈ [true, false], let s := serving sp repair
      s.repq = repCmd sp :: [] ∧ (s.core 0).pend = [pendOf 3 (.cmd 0) none (some 0)] ∧ engineLive s 0 [0] = true ∧
      (((if sp then serveSplice else serveGo) (repCmd sp) (s.core 0).id).run s).2.repq = s.repq ∧
      (match (((if sp then serveSplice else serveGo) (repCmd sp) (s.core 0).id).run s).1 with | .error (some v) => v == 1 | _ => false) = true) ∧
    (let s := serving true { repair with st := .error }
     repIdx s 0 0 7 0x1000 = some 0 ∧ (s.reps.map (fun r => r.st)) = [.error]) ∧
    (let s := { serving false repair with side := [(0x40, { Side.none with poison := true })] }
     (match (serveGo (repCmd false) (s.core 0).id).run s with | (.error none, _) => true | _ => false) = true) := by decide +kernel

theorem witness_Repair_service_splice :
    ((serveSplice (repCmd true) (base.core 0).id).run (serving true repair)).2.cores = (serving true repair).cores := by rfl

set_option maxRecDepth 20000 in
theorem witness_Repair_service_go :
    ((serveGo (repCmd false) (base.core 0).id).run (serving false repair)).2.cores = (serving false repair).cores := by rfl

/-- The item of slot 1 as the engine reads it back, its byte 0 as given. -/
def itemRead (r : Rep) (b : Byte) : Except Byte Got × State :=
  (rGet r (ctWr r.desc + 32) 8).run (put 0x3420 [b] (repairing [r]))

def itemSays (r : Rep) (own err : Bool) (x : Except Byte Got × State) : Bool :=
  match x.1 with
  | .ok g => (bit (leNat g.bytes) 0 == own) && (bit (leNat g.bytes) 1 == err) && decide (x.2.reps = [r])
  | .error _ => false

/-- Items that software has given back, with and without ERR, and one that it has not; of contexts in REPAIR and at rest. -/
theorem witness_Repair_item :
    repair.items.find? (fun i => i.slot == 1) = some { slot := 1, claimed := true, live := false } ∧
    itemSays repair true false (itemRead repair 1) = true ∧ itemSays repair false false (itemRead repair 0) = true ∧
    (let r := { repair with items := [{ slot := 1, claimed := true, live := true }, { slot := 2, claimed := false, live := true }] }
     itemSays r false true (itemRead r 2) = true ∧ itemSays r false false (itemRead r 0) = true ∧ r.todo = []) ∧
    (let r := { repair with st := .error }
     itemSays r false false (itemRead r 0) = true) := by
  decide +kernel

/-- What is left when the last item of a check, or of the last round, has come back. -/
def lastItem (st : RepSt) (round : Nat) : Rep := { repair with st := st, round := round, items := [{ slot := 1, claimed := true, live := true }] }

def given (st : RepSt) (round : Nat) : State := updRep 0 (fun q => { q with items := [] }) (itemRead (lastItem st round) 0).2

theorem witness_Repair_check :
    let r := lastItem .check 0
    itemSays r false false (itemRead r 0) = true ∧ r.todo = [] ∧
    (match (checkAll { r with items := [] }).run (given .check 0) with
     | (.ok ms, s2) => (match ((levelAfterCheck 0 >>= fun _ => startRounds 0 257 (ctKchk r.desc + 1)).run
         (updRep 0 (fun q => { q with blks := ms, flagged := (ms.map (fun b => popcount 64 b.mask.toNat)).sum }) s2)).1 with
       | .ok _ => true | .error _ => false)
     | _ => false) = true := by
  decide +kernel

theorem witness_Repair_end :
    let r := lastItem .repair 8
    itemSays r false false (itemRead r 0) = true ∧ r.todo = [] ∧ ctNl r.desc ≤ r.round ∧
    (match (levelAll 0 r.round true).run (given .repair 8) with
     | (.ok _, s2) => decide (s2.reps.map (fun x => x.desc) = [r.desc]) && (match (levelAll 0 r.round false).run s2 with
       | (.ok _, s3) => (s3.reps.map (fun y =>
           match (rPutDesc { y with st := .idle, round := 0, blks := [] }).run
             (updRep 0 (fun q => { q with st := .idle, round := 0, blks := [] }) s3) with
           | (.ok _, s4) => decide (s4.reps.length = 1) | _ => false)).all id
       | _ => false)
     | _ => false) = true := by
  decide +kernel

/-- A guarded load that no guard meets any more, one that still meets one, and a strand that waits for none. -/
def waitingLoad (s : State) : State := cf (fun k => { k with gwait := [{ st := .C, instr := .ld 3 20 6 0 }] }) s

theorem plain_guarded : PlainAccess (waitingLoad base) 0 .C 0x1040 8 { rd := true, wr := false, ex := false } (page 1 1) := by
  constructor <;> decide +kernel

theorem witness_Repair_guard :
    (∀ s ∈ [waitingLoad base, waitingLoad (guarding false)],
      (s.core 0).gwait.find? (fun g => g.st == Strand.C) = some { st := .C, instr := .ld 3 20 6 0 } ∧ mayIssue s 0 .C = true ∧
      NonePending (s.core 0) [3, 20] ∧ ((s.core 0).xval 20 + (0 : BitVec 11).signExtend 64 * wd 8).toNat = 0x1040) ∧
    (guardedBy (waitingLoad (guarding false)) 0 [(0x1040, 8)]).map (fun m => m.stok) = [false] ∧
    (base.core 0).gwait.find? (fun g => g.st == Strand.C) = none ∧
    after (guardedMeaning (.ld 3 20 6 0) { waitingLoad base with cur := (0, .C) }) (fun t => !(t.core 0).pend.isEmpty) = true := by
  decide +kernel

/-! ### Collectives -/

def collHdr (trig : Nat) : List Byte :=
  w64 0x2000 ++ [3, 0, 2, 0, 0, 4, BitVec.ofNat 8 (8 + 32 * trig), 0] ++ w32 32 ++ [2, 0, 1, 0, 1, 0, 7, 0] ++ w32 50 ++ w32 9 ++ w32 0 ++
    w64 0x3000 ++ w64 0x3100 ++ w64 0x3200 ++ w64 0x3300 ++ w64 0x2100 ++ w64 0x3400 ++ w64 0x3500 ++ w64 0x3600 ++ List.replicate 24 0
def step_ (op ka lo : Nat) : Word := wd (op * 2 ^ 60 + ka * 2 ^ 53 + lo)
/-- A program that stands at one step. -/
def program (w : Word) (trig : Nat) : Coll :=
  { handle := 0x1000, job := 5, core := 0, pid := 0, vd := 0, asid := 7, hdr := collHdr trig, steps := [w], peers := [1, 2, 3, 4], st := .run,
    cause := 0, silent := 0, step := 0, rstep := 0, lc := Vector.replicate 4 3, dataPass := true, ready := [], exps := [], bytes := [],
    ranges := [], ack := none, sentTo := [], recvd := [], inbox := [], waitFrom := 3 }
def message : CollMsg :=
  { net := false, tag := 7, rnd := 9, dataPass := true, src := 1, num := 0, isPartial := false, words := [], codes := false, vals := [], negz := [] }
def chunked : Job := { job with chunks := [(1, (5, false)), (2, (1, false))] }
def collective (p : Coll) : State := { withJob chunked base with colls := [p], time := 900000 }

theorem witness_CollectiveCommands :
    let s := collective (program 0 0)
    (Ready s 0 .C ∧ NonePending (s.core 0) [3, 10, 11, 20] ∧ (s.core 0).span < 4096) ∧
    ((jobColls s 5).find? (fun p => p.1.handle == (s.core 0).xval 20)).isNone = true ∧
    ((jobColls s 5).find? (fun p => p.1.handle == (s.core 0).xval 10)).isSome = true ∧
    ((s.core 0).xval 11).toNat % 128 ≠ 0 ∧ ((s.core 0).xval 10).toNat % 128 = 0 := by decide +kernel

def collMemory : State := put 0x1000 (collHdr 0) (put 0x2000 (w64 0 ++ w64 0 ++ w64 0) (put 0x2100 (w64 1 ++ w64 2 ++ w64 3 ++ w64 4) base))

set_option maxRecDepth 50000 in
/-- The header, the steps and the peer table of a program are read. -/
theorem witness_CollectiveCommands_go :
    ∃ r s3, (do
      let h ← strandRead 0 .C 0x1000 128 false
      let st ← strandRead 0 .C (chSteps h.bytes) (8 * chNstep h.bytes) false
      let pt ← strandRead 0 .C (chPtab h.bytes) (8 * chN h.bytes) false
      pure (st, pt) : M (Got × Got)) collMemory = .ok (r, s3) ∧ s3.core 0 = collMemory.core 0 ∧ (fun _ _ => true) r s3 = true :=
  quiet_of _ _ _ (fun _ _ => true) rfl (by decide +kernel)

theorem witness_CollectiveSteps_at (w : Word) (trig : Nat) :
    (collective (program w trig)).colls[0]? = some (program w trig) ∧ (program w trig).word? = some w := ⟨rfl, rfl⟩

/-- LOOP below its count of 5 and at its count of 4, its counter going to 4. -/
theorem witness_CollectiveSteps_loop :
    ∀ p ∈ [(step_ 5 0 (5 * 2 ^ 48), (5 : Int)), (step_ 5 0 (4 * 2 ^ 48), 4)], csOp p.1 = 5 ∧ (program p.1 0).ack = none ∧
      (rd (program p.1 0).lc (i2 (BitVec.ofNat 2 (bits p.1.toNat 58 2))) + 1).toNat = 4 ∧ loopCount (program p.1 0) p.1 = p.2 := by
  decide +kernel

/-- COPY, END in each pass, WAIT for a chunk that has been counted. -/
theorem witness_CollectiveSteps :
    csOp (step_ 3 0 0) = 3 ∧ csOp (step_ 0 0 0) = 0 ∧ chComp (program (step_ 0 0 0) 0).hdr = false ∧
    (csOp (step_ 4 0 (2 ^ 48 + 5 * 2 ^ 32)) = 4 ∧ chunked.chunk (bits (step_ 4 0 (2 ^ 48 + 5 * 2 ^ 32)).toNat 48 12) = (5, false) ∧
      bits (step_ 4 0 (2 ^ 48 + 5 * 2 ^ 32)).toNat 32 16 ≤ (5 : BitVec 16).toNat) := by decide +kernel

theorem witness_CollectiveSteps_job (p : Coll) : (collective p).job? 5 = some chunked := rfl

/-- SEND of a ready chunk, a RECV with its message, a chunk whose counter is at its target, a wait past its time, a notice and a
message for a running program. -/
theorem witness_CollectiveMessages :
    let snd := { program (step_ 1 1 0) 0 with ready := [0] }
    (csOp (step_ 1 1 0) = 1 ∧ snd.ack = none ∧ snd.isReady (step_ 1 1 0) = true) ∧
    (csOp (step_ 2 1 0) = 2 ∧ csRed (step_ 2 1 0) = false ∧ csSto (step_ 2 1 0) = false ∧ csFwd (step_ 2 1 0) = false) ∧
    ((waitsFor (collective (program (step_ 2 1 0) 0)) (program (step_ 2 1 0) 0)).isSome = true ∧
      chTmo (collHdr 0) * 1000 < ((collective snd).time - snd.waitFrom).toNat) := by
  decide +kernel

theorem witness_CollectiveMessages_recv :
    { program (step_ 2 1 0) 0 with inbox := [message] }.nextMsg (step_ 2 1 0) = some message := by rfl

theorem witness_CollectiveMessages_chunk :
    let p := program (step_ 1 1 0) 1
    chTrig p.hdr = true ∧ p.ready.contains (readyKey (csSb (step_ 1 1 0)) (p.chunkOf (step_ 1 1 0))) = false ∧
      chunked.chunk (chCbase p.hdr + p.chunkOf (step_ 1 1 0)) = (5, false) ∧ chTgt p.hdr ≤ (5 : BitVec 16).toNat := by
  decide +kernel

theorem witness_CollectiveMessages_for :
    let s := collective (program (step_ 1 1 0) 0)
    collFor s 0 (chTag (collHdr 0)) (chRnd (collHdr 0)) = some 0 ∧
    (collFor s 0 message.tag message.rnd = some 0 ∧ isOld s 0 message.tag message.rnd = false) := by
  decide +kernel

/-- A program with a message for it, its chunk ready. -/
def receiving (red fwd sto : Bool) (m : CollMsg) : Coll :=
  { program (step_ 2 1 ((if red then 2 ^ 45 else 0) + (if fwd then 2 ^ 44 else 0) + (if sto then 2 ^ 43 else 0) + 2 ^ 39)) 0 with
    inbox := [m], ready := [0] }

def okC {α : Type} (x : Except (Byte × BitVec 7) α × State) : Bool := match x.1 with | .ok _ => true | .error _ => false

/-- A message of the other pass; one for a step that does nothing with it; one that RED adds, a partial and none; STO, FWD and both. -/
theorem witness_CollectiveMessages_recvs :
    ({ message with dataPass := false }.dataPass ≠ (receiving false false false message).dataPass) ∧
    (∀ q ∈ [(true, false, false), (false, false, false), (false, true, false), (false, false, true), (true, true, true)],
      let p := receiving q.1 q.2.1 q.2.2 message
      let w := p.steps.headD 0
      csOp w = 2 ∧ csRed w = q.1 ∧ csFwd w = q.2.1 ∧ csSto w = q.2.2 ∧ (p.nextMsg w).isSome = true ∧ p.isReady w = true) ∧
    (∀ m ∈ [{ message with isPartial := true }, message],
      let p1 := { receiving true false false m with inbox := [], recvd := [1] }
      let w := p1.steps.headD 0
      let s0 := collective (receiving true false false m)
      (match (Machine.arrived p1 m).run s0 with
       | (.ok a, sa) => (match (ownValue p1 (csSb w) (p1.chunkOf w) true).run sa with
         | (.ok own, sb) => (a.isPartial == m.isPartial) && decide (sb.colls.length = 1) && okC ((plusVal p1 a own.1).run sb)
         | _ => false)
       | _ => false) = true) ∧
    (∀ fwd ∈ [false, true], ∀ sto ∈ [false, true],
      let p1 := { receiving false fwd sto message with inbox := [], recvd := [1] }
      let w := p1.steps.headD 0
      let s0 := collective (receiving false fwd sto message)
      (match (recvValue p1 w message).run s0 with
       | (.ok v, s2) => okC ((storeVal p1 (csDb w) (p1.chunkOf w) v).run s2) && okC ((cSend p1 (p1.peer (csKb w)) v none).run s2)
       | _ => false) = true) := by
  decide +kernel

/-- SEND of a ready chunk that the gate lets pass, and of a labelled one that it denies. -/
theorem witness_CollectiveMessages_value :
    let snd := { program (step_ 1 1 0) 0 with ready := [0] }
    ∀ lbl ∈ [(0 : Label), 1],
      let s := { collective snd with side := if lbl = 0 then [] else [(0x3000 / 64, { Side.none with lbl := lbl })] }
      (match (ownValue snd (csSb (step_ 1 1 0)) (snd.chunkOf (step_ 1 1 0)) (csRed (step_ 1 1 0))).run s with
       | (.ok v, s1) => (match (sectorLbls snd v.1 v.2.isSome).run s1 with
         | (.ok ls, s2) => (gatePasses s2 1 ls == decide (lbl = 0)) && decide (s2.colls.length = 1)
         | _ => false)
       | _ => false) = true := by
  decide +kernel

/-- COPY in the data pass from the first buffer into the second; the same of a chunk of one sector. -/
theorem witness_CollectiveSteps_copy :
    (let p := { program (step_ 3 0 (2 ^ 39)) 0 with ready := [0] }
     csOp (step_ 3 0 (2 ^ 39)) = 3 ∧ p.dataPass = true ∧ p.isReady (step_ 3 0 (2 ^ 39)) = true ∧
     (match (cGet p 0x3000 p.chunkBytes).run (collective p) with | (.ok g, s1) => okC ((cPut p 0x3100 g).run s1) | _ => false) = true) ∧
    (let p := { program (step_ 3 0 (2 ^ 39)) 0 with ready := [0], hdr := overlay (collHdr 0) 14 [1] }
     p.chunkBytes = 64 ∧ p.chunkVa 0 0 = 0x3000 ∧ p.chunkVa 1 0 = 0x3100 ∧ p.isReady (step_ 3 0 (2 ^ 39)) = true ∧
     p.pid = (base.core 0).id.pid ∧ p.vd = (base.core 0).id.vd ∧ p.asid = (base.core 0).id.asid ∧ p.core = 0) := by
  decide +kernel

def copying : State := collective { program (step_ 3 0 (2 ^ 39)) 0 with ready := [0], hdr := overlay (collHdr 0) 14 [1] }

theorem plain_copy_from : PlainAccess copying 0 .C 0x3000 64 { rd := true, wr := false, ex := false } (page 3 3) := by
  constructor <;> decide +kernel

theorem plain_copy_into : PlainAccess copying 0 .C 0x3100 64 { rd := false, wr := true, ex := false } (page 3 3) := by
  constructor <;> decide +kernel

/-- The data pass with COMP: residuals that are committed, and some at an address that does not translate. -/
theorem witness_CollectiveSteps_comp :
    ∀ bad ∈ [false, true],
      let p := { program (step_ 0 0 0) 0 with hdr := overlay (overlay (collHdr 0) 14 [16]) 88 (w64 (if bad then 0x10000 else 0x3500)) }
      chComp p.hdr = true ∧ (okC ((commitRes p).run (collective p)) = !bad) := by
  decide +kernel

/-- An aborting program whose step is its END. -/
theorem witness_CollectiveSteps_abort :
    let p := { program (step_ 0 0 0) 0 with st := .aborting }
    p.st = .aborting ∧ p.ack = none ∧ p.word? = some 0 ∧ csOp (step_ 0 0 0) = 0 := by decide +kernel

/-- A message for which the chunk buffers have room, and one for which they have none. -/
theorem witness_CollectiveMessages_room (s : State) :
    bufferRoom (collective (program 0 0)) (msgBytes message) = true ∧
    ∀ n, 2 ^ 23 < n → bufferRoom s (msgBytes { message with vals := List.replicate n 0 }) = false := by
  refine ⟨by decide +kernel, fun n hn => ?_⟩
  have h : msgBytes { message with vals := List.replicate n 0 } = 4 * n := by
    simp [msgBytes, message]
  unfold bufferRoom
  rw [h]
  exact decide_eq_false (by omega)

end Sys2Proof.Tests
end

