-- ==== Sys2Proof/Tests/WitnessEngines.lean ====
section
/-! SUPPORT. Witnesses for the statements about the engine strands L, X and S. -/

namespace Sys2Proof.Tests

open Sys2Proof Sys2Proof.Machine

set_option Elab.async false

/-- Two steps of a strand, the second a translation or a record's fetch, that answer and leave the cores alone. -/
theorem quiet2_of {α β ε : Type} (f : Except Stop (α × State)) (g : α → State → Except ε β × State) (s : State) (c : CoreId)
    (P : α → State → β → State → Bool)
    (h1 : (match f with | .ok x => x.2.cores | .error _ => s.cores) = s.cores)
    (h2 : (match f with | .ok x => (g x.1 x.2).2.cores | .error _ => s.cores) = s.cores)
    (h : (match f with
          | .ok x => (match (g x.1 x.2).1 with | .ok b => P x.1 x.2 b (g x.1 x.2).2 | .error _ => false)
          | .error _ => false) = true) :
    ∃ a s1 b s2, f = .ok (a, s1) ∧ s1.core c = s.core c ∧ g a s1 = (.ok b, s2) ∧ s2.core c = s.core c ∧ P a s1 b s2 = true := by
  cases f with
  | error e => simp at h
  | ok x =>
    have h1 : x.2.cores = s.cores := h1
    have h2 : (g x.1 x.2).2.cores = s.cores := h2
    have h : _ = true := h
    cases hg : g x.1 x.2 with
    | mk r s2 =>
      rw [hg] at h2
      cases r with
      | error e => simp [hg] at h
      | ok b => exact ⟨x.1, x.2, b, s2, rfl, core_of c h1, hg, core_of c h2, by simpa [hg] using h⟩

theorem okM_of {α : Type} (f : Except Stop (α × State)) (P : α → State → Bool)
    (h : (match f with | .ok x => P x.1 x.2 | .error _ => false) = true) : ∃ a s1, f = .ok (a, s1) ∧ P a s1 = true := by
  cases f with
  | ok x => exact ⟨x.1, x.2, rfl, h⟩
  | error e => simp at h

def lf (f : LState → LState) (s : State) : State := cf (fun k => { k with ls := f k.ls }) s
def setSd (n : BitVec 5) (d : SDesc) (s : State) : State := lf (fun l => { l with sd := wr l.sd (i5 n) d }) s
def setRg (n : BitVec 4) (q : Ring) (s : State) : State := lf (fun l => { l with rg := wr l.rg (i4 n) q }) s
def setN (st : Strand) (n : BitVec 4) (v : Word32) (s : State) : State :=
  cf (fun k => k.setEng st { k.eng st with n := wr (k.eng st).n (i4 n) v }) s

/-- The job's stash window at 0x400000, six of whose pages are mapped. -/
def windowed : State :=
  jf (fun j => { j with hdr := { j.hdr with swb := 0x400000 } })
    { base with tlb := base.tlb ++ (List.range 6).map (fun i => page (1024 + i) (100 + i)) }

/-! ### The L strand -/

theorem witness_EngineControl :
    (∀ st ∈ [Strand.L, .X, .S], ∀ m ∈ [((0 : BitVec 3), (0 : BitVec 3)), (5, 2), (7, 7)], Startable (on st base) 0 st m.1 m.2) ∧
    (∀ st ∈ [Strand.L, .X, .S], let s := on st (cf (fun k => { k with tok := Vector.replicate 16 0 }) base)
      Ready s 0 st ∧ masksStarted (s.core 0) st 1 0 = true ∧ ∃ q ∈ waitCodes st 1, (s.core 0).tokens q = 0) ∧
    (let s := on .L (cf (fun k => { k with started := { k.started with s := false } }) base)
     Ready s 0 .L ∧ masksStarted (s.core 0) .L 0 7 = false) := by decide +kernel

/-- A literal at 0x1008, and the L strand at 0x1000. -/
def lit (v : Nat) (s : State) : State :=
  put 0x1008 (w64 v) (cf (fun k => { k with l := { k.l with pc := 0x1000, n := Vector.replicate 16 0 } }) (on .L s))

theorem witness_StreamSetUp_startable : Startable (lit 0 base) 0 .L 5 2 ∧
    ((((lit 0 base).core 0).l.pc + 4 * (2 : BitVec 10).signExtend 64 + 8 * (rd ((lit 0 base).core 0).l.n (i4 0)).setWidth 64).toNat = 0x1008) := by
  decide +kernel

/-- 16 rows of 64 FP32 columns. -/
def plainFmt : Nat := 16 * 256 + 64 * 65536 + 2 ^ 32

/-- The eight bytes of a literal are read, with no stale read to record. -/
theorem reads_of (i : Instr) (s : State) (v : Nat)
    (h1 : (match fetchRuns 0 .L i [(0x1008, 8)] [] s with | .ok x => x.2.cores | .error _ => s.cores) = s.cores)
    (h : (match fetchRuns 0 .L i [(0x1008, 8)] [] s with | .ok x => decide (leNat x.1.bytes.flatten = v) && x.1.marks.isEmpty | .error _ => false) = true) :
    ∃ gd s0, fetchRuns 0 .L i [(0x1008, 8)] [] s = .ok (gd, s0) ∧ leNat gd.bytes.flatten = v ∧ s0.core 0 = s.core 0 ∧
      (staleMark gd.marks s0).2.core 0 = s.core 0 := by
  cases hf : fetchRuns 0 .L i [(0x1008, 8)] [] s with
  | error e => simp [hf] at h
  | ok x =>
    rw [hf] at h h1
    simp only [Bool.and_eq_true, decide_eq_true_eq, List.isEmpty_iff] at h
    exact ⟨x.1, x.2, rfl, h.1, core_of 0 h1, by rw [h.2]; exact core_of 0 h1⟩

/-- A literal of the instruction at 0x1008. -/
abbrev Literal (i : Instr) (s : State) (v : Nat) : Prop :=
  ∃ gd s0, fetchRuns 0 .L i [(0x1008, 8)] [] s = .ok (gd, s0) ∧ leNat gd.bytes.flatten = v ∧ s0.core 0 = s.core 0 ∧
    (staleMark gd.marks s0).2.core 0 = s.core 0

/-- The literals that the clauses of `sd.base`, `sd.fmt`, `sd.geom` and `sd.scale` speak of, the illegal ones with them. -/
theorem witness_StreamSetUp_literals :
    Literal (.sdBase 5 2 3 0 2) (lit 0x2000 base) 0x2000 ∧ Literal (.sdFmt 5 2 3 0 2) (lit plainFmt base) plainFmt ∧
    Literal (.sdFmt 5 2 3 0 2) (lit 0xFF base) 0xFF ∧ Literal (.sdBase 5 2 3 0 2) (lit (2 ^ 53) base) (2 ^ 53) ∧
    Literal (.sdBase 5 2 3 0 2) (lit (2 ^ 52 + 0x1041) base) (2 ^ 52 + 0x1041) ∧ Literal (.sdGeom 5 2 3 0 2) (lit 7 base) 7 ∧
    Literal (.sdScale 5 2 3 0 2) (lit 7 base) 7 ∧ Literal (.rgCfg 5 2 6 0 2) (lit 0 windowed) 0 ∧
    fmtOk plainFmt = true ∧ fmtOk 0xFF = false :=
  ⟨reads_of _ _ _ rfl (by decide +kernel), reads_of _ _ _ rfl (by decide +kernel), reads_of _ _ _ rfl (by decide +kernel),
   reads_of _ _ _ rfl (by decide +kernel), reads_of _ _ _ rfl (by decide +kernel), reads_of _ _ _ rfl (by decide +kernel),
   reads_of _ _ _ rfl (by decide +kernel), reads_of _ _ _ rfl (by decide +kernel), by decide +kernel, by decide +kernel⟩

/-- A layout record of 16 rows of 64 FP32 elements at 0x3000, a stride apart. -/
def layoutRec (stride : Nat) : List Byte :=
  w64 0x3000 ++ w32 0 ++ [0x20, 0, 0, 0] ++ w32 64 ++ w32 16 ++ w32 1 ++ w32 1 ++ w32 1 ++ w32 1 ++ w64 stride ++ List.replicate 136 0

def recorded (stride : Nat) : State := put 0x1040 (layoutRec stride) (lit (2 ^ 52 + 0x1040) base)

/-- A record that suits the descriptor, and one whose stride no descriptor holds. -/
theorem witness_StreamSetUp_record :
    (∃ a s1 b s2, fetchRuns 0 .L (.sdBase 5 2 3 0 2) [(0x1008, 8)] [] (recorded 256) = .ok (a, s1) ∧ s1.core 0 = (recorded 256).core 0 ∧
      readLRec (strandWho s1 0) (some (clusterOf 0)) 0x1040 s1 = (.ok b, s2) ∧ s2.core 0 = (recorded 256).core 0 ∧
      (decide (leNat a.bytes.flatten = 2 ^ 52 + 0x1040) && a.marks.isEmpty && (descOfLRec b SDesc.reset).isSome) = true) ∧
    (∃ a s1 b s2, fetchRuns 0 .L (.sdBase 5 2 3 0 2) [(0x1008, 8)] [] (recorded (2 ^ 33)) = .ok (a, s1) ∧ s1.core 0 = (recorded (2 ^ 33)).core 0 ∧
      readLRec (strandWho s1 0) (some (clusterOf 0)) 0x1040 s1 = (.ok b, s2) ∧ s2.core 0 = (recorded (2 ^ 33)).core 0 ∧
      (decide (leNat a.bytes.flatten = 2 ^ 52 + 0x1040) && a.marks.isEmpty && (descOfLRec b SDesc.reset).isNone) = true) :=
  ⟨quiet2_of _ (fun _ s1 => readLRec (strandWho s1 0) (some (clusterOf 0)) 0x1040 s1) _ _
    (fun (a : RunData) _ b _ => decide (leNat a.bytes.flatten = 2 ^ 52 + 0x1040) && a.marks.isEmpty && (descOfLRec b SDesc.reset).isSome)
    rfl rfl (by decide +kernel),
   quiet2_of _ (fun _ s1 => readLRec (strandWho s1 0) (some (clusterOf 0)) 0x1040 s1) _ _
    (fun (a : RunData) _ b _ => decide (leNat a.bytes.flatten = 2 ^ 52 + 0x1040) && a.marks.isEmpty && (descOfLRec b SDesc.reset).isNone)
    rfl rfl (by decide +kernel)⟩

/-- A ring literal: base 0, entries of four units, three entries. -/
def ringLit : Nat := 4 * 2 ^ 16 + 3 * 2 ^ 32

theorem witness_StreamSetUp_ring :
    Literal (.rgCfg 5 2 6 0 2) (lit ringLit windowed) ringLit ∧ (windowOf (lit ringLit windowed) 0).isSome = true ∧
    (bits ringLit 26 6 = 0 ∧ bits ringLit 42 22 = 0 ∧ 1 ≤ bits ringLit 16 10 ∧ 1 ≤ bits ringLit 32 10) ∧
    64 * (bits ringLit 0 16 + bits ringLit 16 10 * bits ringLit 32 10) ≤ 2 ^ 22 ∧
    (((lit ringLit windowed).core 0).ls.ring 6).h = 0 ∧ (((lit ringLit windowed).core 0).ls.ring 6).p = 0 ∧ ¬ 1 ≤ bits 0 16 10 :=
  ⟨reads_of _ _ _ rfl (by decide +kernel), by decide +kernel, by decide +kernel⟩

def ring : Ring := { on := true, baseU := 0, esz := 4, nent := 3, head := 1, tail := 2, f := 1, p := 0, h := 0 }

/-- An idle ring and a busy one. -/
theorem witness_StreamSetUp_rings :
    (let s := on .L (setRg 6 ring base)
     Startable s 0 .L 5 2 ∧ (rd (s.core 0).ls.rg (i4 6)).on = true ∧ (rd (s.core 0).ls.rg (i4 6)).h = 0 ∧ (rd (s.core 0).ls.rg (i4 6)).p = 0) ∧
    (let s := on .L (setRg 6 { ring with h := 1 } base)
     Startable s 0 .L 5 2 ∧ (rd (s.core 0).ls.rg (i4 6)).h = 1) := by decide +kernel

/-- Register values at and past each field's range. -/
theorem witness_StreamSetUp_nest :
    (1 ≤ (1 : Word32).toNat ∧ (65535 : Word32).toNat ≤ 65535) ∧ (¬ 1 ≤ (0 : Word32).toNat ∧ ¬ (65536 : Word32).toNat ≤ 65535) ∧
    ((0xFFFF8000 : Word32).toInt = -32768 ∧ (32767 : Word32).toInt = 32767) ∧
    ((0xFFFF7FFF : Word32).toInt = -32769 ∧ (32768 : Word32).toInt = 32768) ∧
    ∀ v ∈ [1, 65535, 0, 65536, 0xFFFF8000, 32767, 0xFFFF7FFF, 32768],
      rd ((setN .L 4 (BitVec.ofNat 32 v) base).core 0).l.n (i4 4) = BitVec.ofNat 32 v := by decide +kernel

/-- A descriptor by its format, rows, columns, base and row stride. -/
def desc (fmt brows bcols : Nat) (base stride : Nat) : SDesc :=
  { q0 := wd base, q1 := wd (fmt + brows * 256 + bcols * 65536 + 2 * 2 ^ 32 + 3 * 2 ^ 48), q2 := wd stride, q3 := 0, pos := 0 }

def loading (d : SDesc) : State := on .L (setSd 4 d windowed)

/-- Rows that a load of the block reads. -/
def readable (i : Instr) (d : SDesc) (rows : List (Int × Int)) : Prop :=
  ∃ a s1, readRows 0 i d rows (loading d) = .ok (a, s1) ∧ s1.core 0 = (loading d).core 0 ∧ decide (a.1.length = rows.length) = true

def two : SDesc := desc 0 2 8 0x1000 64
def oneRow : SDesc := desc 1 1 64 0x1000 0
/-- Every lane reads one word. -/
def strided : SDesc := desc 0 64 16 0x400000 0
def clashing : SDesc := desc 0 64 16 0x400000 256

theorem witness_TileLoads_rows :
    (Startable (loading two) 0 .L 5 2 ∧ readable (.ldVt 5 2 9 4 0) two two.blockRows) ∧
    (Startable (loading oneRow) 0 .L 5 2 ∧ readable (.ldBcst 5 2 9 4 0) oneRow oneRow.blockRows) :=
  ⟨⟨by decide +kernel, quiet_of _ _ _ (fun (a : List RowData × Label) _ => decide (a.1.length = two.blockRows.length)) rfl (by decide +kernel)⟩,
   ⟨by decide +kernel, quiet_of _ _ _ (fun (a : List RowData × Label) _ => decide (a.1.length = oneRow.blockRows.length)) rfl (by decide +kernel)⟩⟩

/-- The registers of the small core, compared. -/
theorem witness_TileLoads_strided :
    Startable (loading strided) 0 .L 5 2 ∧ readable (.ldStrd 5 2 9 4 0) strided strided.blockRows :=
  ⟨by decide +kernel, by
    obtain ⟨a, s1, h, hp⟩ := okM_of (readRows 0 (.ldStrd 5 2 9 4 0) strided strided.blockRows (loading strided))
      (fun (a : List RowData × Label) s1 => decide (s1.core 0 = (loading strided).core 0) && decide (a.1.length = strided.blockRows.length))
      (by decide +kernel)
    simp only [Bool.and_eq_true, decide_eq_true_eq] at hp
    exact ⟨a, s1, h, hp.1, by simpa using hp.2⟩⟩

theorem witness_TileLoads_shapes :
    (1 ≤ two.brows ∧ two.brows ≤ 16 ∧ two.bcols ≤ 64) ∧ (oneRow.brows = 1 ∧ oneRow.bcols ≤ 64) ∧
    ¬ (1 ≤ (desc 0 17 8 0 0).brows ∧ (desc 0 17 8 0 0).brows ≤ 16) ∧
    (∀ d ∈ [strided, clashing], d.brows = 64 ∧ d.bcols = 16 ∧ d.fmt = 0 ∧ windowOf (loading d) 0 = some (0x400000, 0) ∧
      ∀ p ∈ d.blockRows, 0x400000 ≤ (d.codeRun p.1).1 ∧ (d.codeRun p.1).1 + (d.codeRun p.1).2 ≤ 0x400000 + 2 ^ 22) := by decide +kernel

/-- Lanes that name one word do not clash. -/
theorem lanes_same : ∀ t, t < 16 → lanesClash (laneWords strided t 0) (laneWords strided t 0) = false := by decide +kernel
theorem lane_zero (t k : Nat) : laneWords strided t k = laneWords strided t 0 := by
  have h : strided.rstr = 0 := by decide +kernel
  simp [laneWords, h]
theorem strided_free : bankConflict strided = none := by
  unfold bankConflict
  simp only [List.findSome?_eq_none_iff, List.mem_range, Option.map_eq_none_iff]
  intro t ht k1 h1
  rw [List.find?_eq_none.mpr]
  · rfl
  intro k2 h2
  have h2 : k2 < 64 := List.mem_range.mp h2
  simp [List.getD_eq_getElem?_getD, h1, h2, lane_zero t k1, lane_zero t k2, lanes_same t ht]
theorem witness_TileLoads_banks : bankConflict strided = none ∧ (bankConflict clashing).isSome = true :=
  ⟨strided_free, by decide +kernel⟩

/-- Indices 1, -1, 0. -/
def gathering : State := cf (fun k => { k with xs := { k.xs with vt := wr k.xs.vt 7 [1, 0xFFFFFFFF, 0] } }) (loading two)

theorem witness_TileLoads_gather :
    Startable gathering 0 .L 5 2 ∧ (1 ≤ two.brows ∧ two.bcols ≤ 64) ∧
    ((((rd (gathering.core 0).xs.vt (i5 7)).take 16).map (fun v => v.toInt)).filter (fun v => decide (0 ≤ v))).map
      (fun v => (v, ((two.br * two.brows : Nat) : Int) + v)) = [(1, 1), (0, 0)] ∧
    ∃ a s1, readRows 0 (.ldGath 5 2 9 4 7 0) two [(1, 1), (0, 0)] gathering = .ok (a, s1) ∧ s1.core 0 = gathering.core 0 ∧
      decide (a.1.length = 2) = true :=
  ⟨by decide +kernel, by decide +kernel, by decide +kernel,
   quiet_of _ _ _ (fun (a : List RowData × Label) _ => decide (a.1.length = 2)) rfl (by decide +kernel)⟩

def filling (q : Ring) : State := on .L (setRg 6 q (setSd 4 two windowed))

theorem witness_RingFills :
    (Startable (filling ring) 0 .L 5 2 ∧ two.brows ≠ 0 ∧ ring.on = true ∧ ring.f + ring.p < ring.nent.toNat ∧ (entryParts two).2.2 ≤ 64 * ring.esz.toNat) ∧
    (Startable (filling { ring with f := 3 }) 0 .L 5 2 ∧ ¬ (({ ring with f := 3 } : Ring).f + ring.p < ring.nent.toNat)) ∧
    ∃ a s1, readRowsWith 0 (.ldTile 5 2 6 4 0) two two.blockRows (entryTouches two (entryVa (filling ring) 0 ring ring.tail)) (filling ring) = .ok (a, s1) ∧
      s1.core 0 = (filling ring).core 0 ∧ decide (a.1.length = 2) = true :=
  ⟨by decide +kernel, by decide +kernel, quiet_of _ _ _ (fun (a : List RowData × Label × List Page) _ => decide (a.1.length = 2)) rfl (by decide +kernel)⟩

/-- The window's first page, through frame 0 of cluster 0. -/
def windowPage : Page := { pageOf 1024 (page 1024 100) with stash := some (0, 0) }
def entryFlight (r : BitVec 4) (gives : List Nat) : Flight :=
  { st := .L, rest := .entry r 1 [(0, [1, 2, 3])] 0, gives := gives, pages := [windowPage] }
def entryInFlight : State :=
  cf (fun k => { k with flights := [entryFlight 6 []] }) (setRg 6 { ring with p := 2 } windowed)

theorem witness_RingFills_entry :
    (entryInFlight.core 0).flights = [entryFlight 6 []] ∧
    (writeEntry (strandWho entryInFlight 0) ((entryFlight 6 []).pagesOn 0) (entryVa entryInFlight 0 { ring with p := 2 } 1) [(0, [1, 2, 3])] 0
      entryInFlight).2.cores = entryInFlight.cores ∧
    (writeEntry (strandWho entryInFlight 0) ((entryFlight 6 []).pagesOn 0) (entryVa entryInFlight 0 { ring with p := 2 } 1) [(0, [1, 2, 3])] 0
      entryInFlight).1 = .done := ⟨rfl, rfl, by decide +kernel⟩

/-- Two rings whose entries share bytes, each with one still to be written; and a load from those bytes. -/
def overlapping : State :=
  on .L (setSd 4 (desc 0 2 8 0x400100 64) (setRg 3 ring (setRg 6 ring (cf (fun k => { k with flights := [entryFlight 3 [], entryFlight 6 []] }) windowed))))

theorem witness_RingFills_order :
    let f0 := entryFlight 3 []
    let f1 := entryFlight 6 []
    let sd := desc 0 2 8 0x400100 64
    (overlapping.core 0).flights = [f0, f1] ∧ runsMeet (entryRuns overlapping 0 f0) (entryRuns overlapping 0 f1) = true ∧
    Startable overlapping 0 .L 5 2 ∧ (1 ≤ sd.brows ∧ sd.brows ≤ 16 ∧ sd.bcols ≤ 64) ∧ sd.scalesOk sd.blockRows = true ∧
    (∃ f ∈ (overlapping.core 0).flights, ∃ r idx runs lbl, f.st = .L ∧ f.rest = .entry r idx runs lbl ∧
      runsMeet (entryRuns overlapping 0 f) (physRuns (piecesAt overlapping 0 (sd.runs sd.blockRows))) = true) ∧
    -- an earlier entry's push that is still owed
    (entryFlight 3 [10]).gives ≠ [] := by
  refine ⟨rfl, by decide +kernel, by decide +kernel, by decide +kernel, by decide +kernel,
    ⟨entryFlight 3 [], .head _, 3, 1, [(0, [1, 2, 3])], 0, rfl, rfl, by decide +kernel⟩, by decide +kernel⟩

/-! ### The X strand -/

def xf (f : XState → XState) (s : State) : State := cf (fun k => { k with xs := f k.xs }) s

/-- Accumulator 2 closed, and open for 16 × 16; with a matrix instruction in flight. -/
def opened : State := on .X (xf (fun x => { x with hazard := wr x.hazard 2 (some (16, 16)) }) base)
/-- A matrix instruction that has taken t steps of its nest's one. -/
def matRun (t : Nat) : MatRun :=
  { word := encode (.mma 5 2 2 3 6 5), pc := 0x300, d := 2, shape := 0, a := 3, b := 6, posA := 0, posB := 0, ka := 3, kb := 1,
    nest := (base.core 0).ls.nestA, t := t, wasA := [], wasB := [], seen := [] }
def matFlight (t : Nat) : Flight := { st := .X, rest := .matrix (matRun t), gives := [] }
def multiplying : State :=
  on .X (setRg 3 { ring with f := 5, h := 3 } (setRg 6 { ring with f := 2, h := 1 } (cf (fun k => { k with flights := [matFlight 1] }) base)))

theorem witness_Accumulators :
    (Startable (on .X base) 0 .X 5 2 ∧ rd ((on .X base).core 0).xs.hazard (i2 2) = none) ∧
    (Startable opened 0 .X 5 2 ∧ rd (opened.core 0).xs.hazard (i2 2) ≠ none) ∧
    ((on .X base).core 0).matDue = none ∧ (opened.core 0).matDue = none ∧ ((matFinish 0 multiplying).core 0).matDue = none ∧
    ((matRun 1).a ≠ (matRun 1).b ∧ (matRun 1).steps ≤ (matRun 1).t ∧ (multiplying.core 0).flights = [matFlight 1] ∧ stoppedAt multiplying 0 = false) ∧
    stoppedAt (jf (fun j => { j with st := .stopped }) multiplying) 0 = true ∧
    ((on .X base).core 0).flights.any isMatrix = false ∧ (multiplying.core 0).flights.any isMatrix = true ∧
    Startable multiplying 0 .X 5 2 := by decide +kernel

/-- Two rings with one filled entry each, for 16 × 16 × 32. -/
def operands : State :=
  on .X (setRg 3 { ring with esz := 16, head := 0 } (setRg 6 { ring with esz := 16, baseU := 64, head := 0 } (setN .X 5 0 windowed)))
def smallShape (q : Bool) : Shape := { m := 16, n := 16, ke := 32, fa := if q then 5 else 1, fb := if q then 5 else 1, g := if q then 32 else 0 }
def entrySize (q : Bool) : Nat := (entryLayout 16 32 (fmtBits (smallShape q).fa) (smallShape q).g).2.2

theorem witness_MatrixMultiply_checks :
    Startable operands 0 .X 5 2 ∧ (operands.core 0).matDue = none ∧ (rd (operands.core 0).xe.n (i4 5)).toNat = 0 ∧ (∀ q, shapeOf q 0 = some (smallShape q)) ∧
    shapeOf false (5 * 64) = none ∧ shapeOf true (3 * 512) = none ∧
    (let ls := nestLevels (operands.core 0).ls.nestA
     nestSpan (fun o => o.1) ls = (1, 0) ∧ nestSpan (fun o => o.2.1) ls = (1, 0)) ∧
    (∀ r ∈ [3, 6], let q := rd (operands.core 0).ls.rg (i4 (BitVec.ofNat 4 r))
      q.on = true ∧ q.h + 1 ≤ q.f ∧ (∀ p, entrySize p ≤ 64 * q.esz.toNat)) ∧
    (rd (operands.core 0).xs.hazard (i2 2) = none ∧ rd (opened.core 0).xs.hazard (i2 2) = some (16, 16)) := by decide +kernel

/-- The runs that hold the entries, their pages and their bytes. -/
def runsOf (q : Bool) (r : BitVec 4) : List Run :=
  let g := rd (operands.core 0).ls.rg (i4 r)
  (List.range 1).map (fun i => (entryVa operands 0 g ((g.head + g.h + i) % g.nent.toNat), entrySize q))
def paged (q : Bool) := translateRuns (strandWho operands 0) (touches .read (runsOf q 3 ++ runsOf q 6)) operands
def pagesOf (q : Bool) : List Page := match (paged q).1 with | .ok p => p | .error _ => []
def bytesA (q : Bool) : List Got × State :=
  (runsOf q 3).mapM (m := SM) (fun r => readPieces (strandWho operands 0) (pieces (pagesOf q) r.1 r.2)) (paged q).2
def bytesB (q : Bool) : List Got × State :=
  (runsOf q 6).mapM (m := SM) (fun r => readPieces (strandWho operands 0) (pieces (pagesOf q) r.1 r.2)) (bytesA q).2

theorem witness_MatrixMultiply_reads : ∀ q, (paged q).1 = .ok (pagesOf q) ∧ ∀ x ∈ (bytesA q).1 ++ (bytesB q).1, x.poison = false := by
  decide +kernel

theorem operands_quiet (s : State) (hl : s.lines = []) (hs : s.slices = base.slices) : Quiet s s :=
  ⟨fun l h => absurd h (by rw [hl]; exact List.not_mem_nil), fun k i => by
    show bit (rd (rd s.slices k).ws i).ctl.toNat 0 = false
    rw [hs]
    revert k i
    decide +kernel, rfl⟩

theorem witness_MatrixMultiply_quiet (q : Bool) : (bytesB q).2.cores = operands.cores := by
  have hq := operands_quiet operands rfl rfl
  have h1 := keeps_translateRuns (closed_quiet operands) (strandWho operands 0) (touches .read (runsOf q 3 ++ runsOf q 6)) operands hq
  have h2 := keeps_mapM (I := Quiet operands) (fun r : Run => readPieces (strandWho operands 0) (pieces (pagesOf q) r.1 r.2))
    (fun r => keeps_readPieces (closed_quiet operands) _ _) (runsOf q 3) _ h1
  exact (keeps_mapM (I := Quiet operands) (fun r : Run => readPieces (strandWho operands 0) (pieces (pagesOf q) r.1 r.2))
    (fun r => keeps_readPieces (closed_quiet operands) _ _) (runsOf q 6) _ h2).2.2

/-- Without the window's pages the entries fault. -/
theorem witness_MatrixMultiply_fault :
    (match (translateRuns (strandWho { operands with tlb := base.tlb } 0) (touches .read (runsOf false 3 ++ runsOf false 6))
      { operands with tlb := base.tlb }).1 with | .error f => !f.1.poison | .ok _ => false) = true := by
  decide +kernel

/-- The step of an instruction that has taken none, and its two entries, on the pages that its start translated. -/
def heldFlight : Flight := { matFlight 0 with pages := pagesOf false }
def stepping : State := cf (fun k => { k with flights := [heldFlight] }) operands
def stepEntry (r : BitVec 4) : Run := (entryVa stepping 0 (rd (stepping.core 0).ls.rg (i4 r)) 0, entrySize false)

theorem witness_MatrixMultiply_step :
    ((matRun 0).t < (matRun 0).steps ∧ (stepping.core 0).flights = [heldFlight] ∧ stoppedAt stepping 0 = false ∧
      shapeOf (decide (bits (matRun 0).word.toNat 20 6 = 0x11)) (matRun 0).shape.toNat = some (smallShape false)) ∧
    (match readEntry 0 (heldFlight.pagesOn 0) (stepEntry 3) [] stepping with
     | (some _, s1) => (match readEntry 0 (heldFlight.pagesOn 0) (stepEntry 6) [] s1 with | (some _, _) => true | _ => false)
     | _ => false) = true := by
  decide +kernel

theorem keeps_mixWords (s0 : State) (old new : List Byte) : Keeps (Quiet s0) (mixWords old new) := by
  intro s h
  unfold mixWords
  repeat' split
  all_goals exact h

theorem keeps_readEntry (s0 : State) (c : CoreId) (ps : List Page) (r : Run) (old : List Byte) : Keeps (Quiet s0) (readEntry c ps r old) := by
  intro s h
  have hv := keeps_readPieces (closed_quiet s0) (strandWho s c) (pieces ps r.1 r.2) s h
  unfold readEntry
  split
  next g s1 e =>
    rw [e] at hv
    split
    · unfold killJobOf
      split <;> exact hv
    · exact keeps_mixWords s0 _ _ _ hv

theorem witness_MatrixMultiply_step_quiet :
    (readEntry 0 (heldFlight.pagesOn 0) (stepEntry 6) [] (readEntry 0 (heldFlight.pagesOn 0) (stepEntry 3) [] stepping).2).2.cores = stepping.cores :=
  (keeps_readEntry stepping 0 _ _ _ _ (keeps_readEntry stepping 0 _ (stepEntry 3) [] stepping (operands_quiet stepping rfl rfl))).2.2

/-- X-strand instructions start. -/
theorem witness_Elementwise : Startable (on .X base) 0 .X 0 0 ∧ Startable (on .X base) 0 .X 5 2 := by decide +kernel
theorem witness_MasksAndMoves : Startable (on .X base) 0 .X 7 7 := by decide +kernel
theorem witness_RowsAndColumns : Startable (on .X base) 0 .X 4 1 := by decide +kernel

def delivering (r : Rest) (src : PendSrc) : State :=
  cf (fun k => { k with flights := [{ st := .X, rest := r, gives := [] }], pend := [pendOf 3 src none none] }) base

theorem witness_ResultsForC :
    Startable (on .X base) 0 .X 5 2 ∧ Startable (on .S base) 0 .S 5 2 ∧
    (∀ p ∈ [(Rest.vtree 3 99 2, PendSrc.vtree), (.hist 3 99 2, .histRd)],
      ((delivering p.1 p.2).core 0).flights = [{ st := .X, rest := p.1, gives := [] }] ∧
      ((delivering p.1 p.2).core 0).pend = [pendOf 3 p.2 none none] ∧ (pendOf 3 p.2 none none).reg = 3 ∧ (pendOf 3 p.2 none none).src = p.2) := by
  decide +kernel

/-- A combine image of one component: the sum of the two records, +0 its identity. -/
def sumWords : List Word32 := [0, 0, 0, 0, 0x0C04, 0, 0, 0, 0, 0, 0, 0, 1, 0, 0, 0]
def sumImg : List Byte := (sumWords.map (fun u => natBytes 4 u.toNat)).flatten
def sumProg : Prog := { ids := [0, 0, 0, 0], w := 1, len := 1, ops := [(0, 12, 0, 4)] }

/-- An image in tile 4 and a scan word in n5: LCC 0, M 2^ml, tree records from slot 0, the running record in slot 1. -/
def configuring (ml : Nat) (img : List Word32) : State :=
  on .X (setN .X 5 (BitVec.ofNat 32 (ml * 16 + 2048)) (xf (fun x => { x with vt := wr x.vt 4 img }) base))

theorem witness_ScanSetup :
    (∀ ml ∈ [0, 7], Startable (configuring ml sumWords) 0 .X 5 2 ∧ (rd ((configuring ml sumWords).core 0).xe.n (i4 5)).toNat = ml * 16 + 2048) ∧
    ((rd ((configuring 0 sumWords).core 0).xs.vt (i5 4)).take 16 = sumWords) ∧ parseImg sumImg = some sumProg ∧
    (bits 2048 0 4 ≤ 8 ∧ bits 2048 4 3 ≠ 7 ∧ bits 2048 7 4 = 0 ∧ bits 2048 11 4 = 1) ∧ bits (7 * 16 + 2048) 4 3 = 7 ∧
    (Startable (configuring 0 []) 0 .X 5 2 ∧ parseImg [] = none) := by decide +kernel

/-- The scan unit in a state, at element `posI` of chunk `posJ`, with reset masks bound or not. -/
def scanning (st : BitVec 2) (seg : Bool) (posI posJ : Nat) : State :=
  on .X (xf (fun x => { x with scan := { x.scan with
    st := st, img := sumImg, rs := 1, segOn := seg, segIn := 2, segOut := 3, posI := posI, posJ := posJ } }) base)

theorem witness_LocalScans_img : ∀ seg, parseImg ((scanning 1 seg 0 0).core 0).xs.scan.img = some sumProg := by
  decide +kernel

/-- In UP, in DOWN and OFF; inside a chunk, at its end and past the last chunk. -/
theorem witness_LocalScans :
    ∀ seg, ∀ p ∈ [(0, 0, 0), (1, 0, 0), (1, 15, 0), (1, 0, 1), (2, 0, 0), (2, 15, 0), (2, 0, 1)],
      let s := scanning (BitVec.ofNat 2 p.1) seg p.2.1 p.2.2
      let sc := (s.core 0).xs.scan
      Startable s 0 .X 5 2 ∧ sc.st.toNat = p.1 ∧ (sc.posJ < 2 ^ sc.mlog.toNat ↔ p.2.2 = 0) ∧
      (2 ^ (sc.lcc.toNat + 4) ≤ sc.posI + 1 ↔ p.2.1 = 15) ∧ BitVec.ofNat 4 (sc.tb.toNat + sc.posJ / 8) ≠ sc.rs := by decide +kernel

theorem witness_LocalScans_run : ((comb sumProg none (some ([[]], 5))).map (fun r => r.2)) = some 5 ∧
    (4 : BitVec 5).toNat % sumProg.w = 0 ∧ (4 : BitVec 5).toNat + sumProg.w ≤ 32 ∧ ¬ ((1 : BitVec 5).toNat % 2 = 0) := by decide +kernel

/-- The node's state of the gang with tag 5, whose sweep 7 is the next. -/
def node7 : NetNode := { job := some 5, tag := 5, swn := 7, sentUp := false, ups := [], down := none }
/-- A carry group of four partitions, rank 2, tag 5, with a route on both levels. -/
def grouped (q : Part) : Part := { q with cgctl := 0x5205, imroute := wd (4 + 5 * 8), nodes := [node7] }
def crossing : State := pf grouped (cf (fun k => { k with id := { k.id with level := 3 } }) (scanning 1 false 0 0))

theorem witness_ScanNetwork :
    (Startable (scanning 1 false 0 0) 0 .X 5 2 ∧ Startable crossing 0 .X 5 2 ∧ Startable (scanning 2 false 0 0) 0 .X 5 2) ∧
    (∀ s ∈ [scanning 1 false 0 0, crossing, scanning 2 false 0 0], (s.core 0).xs.net.isNone = true) ∧
    ((crossing.core 0).id.level = 3 ∧ cgEn (crossing.part (crossing.core 0).id.pid) = true ∧
      ∀ l, l < cgLog (crossing.part (crossing.core 0).id.pid) → imRoute (crossing.part (crossing.core 0).id.pid) l ≠ none) := by decide +kernel

/-- A task alone in its domain waits for its sweep, with and without an initial carry, in a cluster's job and in a gang's. -/
def sweeping (init : Option (BitVec 4)) (lvl : BitVec 2) : State :=
  xf (fun x => { x with net := some { xp := false, init := init, pops := [], gives := [4] } })
    (cf (fun k => { k with id := { k.id with domLast := 0 } }) (jf (fun j => { j with hdr := { j.hdr with level := lvl } }) (scanning 1 false 0 0)))

theorem witness_ScanNetwork_sweep (init : Option (BitVec 4)) (lvl : BitVec 2) :
    let j := { job with hdr := { header with level := lvl } }
    (sweeping init lvl).coreJob 0 = some j ∧ domainOf (sweeping init lvl) j 0 = [0] ∧
    ((sweeping init lvl).core 0).xs.net = some { xp := false, init := init, pops := [], gives := [4] } ∧
    parseImg ((sweeping init lvl).core 0).xs.scan.img = some sumProg ∧ ((sweeping init lvl).core 0).xs.scan.mlog = 0 ∧
    ((sweeping init lvl).core 0).xs.scan.tb ≠ ((sweeping init lvl).core 0).xs.scan.rs ∧
    ((sweeping init lvl).core 0).id.slot = ((sweeping init lvl).core 0).id.domFirst ∧
    ((sweeping init lvl).core 0).id.domLast = ((sweeping init lvl).core 0).id.domFirst :=
  ⟨rfl, by
     rw [show domainOf (sweeping init lvl) { job with hdr := { header with level := lvl } } 0 = domainOf (sweeping none 2) job 0 from rfl]
     decide +kernel, rfl,
   witness_LocalScans_img false, rfl, by change (0 : BitVec 4) ≠ 1; decide, rfl, rfl⟩

/-- A packet's first six bytes: tag, sweep, rank, level and direction. -/
def carryPacket (tag swn rank lvl : Nat) : List Byte := natBytes 2 tag ++ natBytes 2 swn ++ [BitVec.ofNat 8 rank, BitVec.ofNat 8 lvl]

/-- A packet as it comes in, with nothing missing. -/
def carriedIn (b : List Byte) : CarryIn := { bytes := b, shape := 0, why := 0 }

/-- Of this sweep and the next; of another tag, of another rank, of an unknown sweep, of a level that the rank has done. -/
theorem witness_ScanNetwork_packets :
    ∀ b ∈ [((5, 7, 3, 0), true, true, true), ((5, 8, 3, 0), true, true, true), ((6, 7, 3, 0), true, true, false),
           ((5, 7, 1, 0), true, false, true), ((5, 20, 3, 0), true, true, false), ((5, 7, 0, 1), true, false, true)],
      let p := carryPacket b.1.1 b.1.2.1 b.1.2.2.1 b.1.2.2.2
      let q := crossing.part 0
      let l := bytesAt p 5 1 % 8
      let rank := bits q.cgctl.toNat 1 7
      let swn : BitVec 16 := BitVec.ofNat 16 (bytesAt p 2 2)
      decide (bit q.cgctl.toNat 0 = true ∧ l < bits q.cgctl.toNat 8 3) = b.2.1 ∧
      bit (bytesAt p 5 1) 3 = false ∧ decide (bytesAt p 4 1 = rank ^^^ 2 ^ l ∧ ∀ k, k ≤ l → bit rank k = false) = b.2.2.1 ∧
      (match tagNode crossing q (bytesAt p 0 2) with
       | some n => decide (swn = n.swn ∨ swn = n.swn + 1) && n.ups.isEmpty
       | none => false) = b.2.2.2 ∧ q.kept = [] := by decide +kernel

/-- An up packet that is held already comes again; a package without a carry group. -/
theorem witness_ScanNetwork_again :
    let h : HeldPacket := { lvl := 0, swn := 7, packet := carriedIn (carryPacket 5 7 3 0), lbl := 0 }
    let s := pf (fun q => { q with nodes := [{ node7 with ups := [h] }] }) crossing
    (tagNode s (s.part 0) 5 = some { node7 with ups := [h] } ∧ h.lvl = 0 ∧ h.swn = 7) ∧ bit (base.part 0).cgctl.toNat 0 = false := by
  decide +kernel

/-- The rank of another than the expected partner, and a partner's at a level that the rank has done. -/
theorem witness_ScanNetwork_ranks :
    let rank := bits (crossing.part 0).cgctl.toNat 1 7
    (1 ≠ rank ^^^ 2 ^ 0) ∧ 0 = rank ^^^ 2 ^ 1 ∧ (∃ k, k ≤ 1 ∧ bit rank k = true) :=
  ⟨by decide +kernel, by decide +kernel, 1, by decide +kernel⟩

/-- The down packet of the last sweep is kept: an up packet of it comes again, or one that differs. -/
def answered : HeldPacket := { lvl := 0, swn := 6, packet := carriedIn (carryPacket 5 6 2 8), lbl := 0 }
def keptDown : KeptDown := { up := carryPacket 5 6 3 0, held := answered }
def keeping : State := pf (fun q => { q with kept := [keptDown] }) crossing

theorem witness_ScanNetwork_kept :
    let q := keeping.part 0
    let p := carryPacket 5 6 3 0
    let swn : BitVec 16 := BitVec.ofNat 16 (bytesAt p 2 2)
    q.kept = [keptDown] ∧ (answered.lvl = bytesAt p 5 1 % 8 ∧ answered.swn = swn ∧ bytesAt answered.packet.bytes 0 2 = bytesAt p 0 2) ∧
    keptDown.up = p ∧ keptDown.up ≠ p ++ [1] ∧
    (match tagNode keeping q 5 with | some n => decide (swn ≠ n.swn ∧ swn ≠ n.swn + 1) | none => false) = true ∧
    carryPasses keeping answered.packet answered.lbl = true := by decide +kernel

/-! ### The S strand -/

def modeLit (m hd : Nat) (s : State) : State :=
  put 0x1010 (w64 m ++ w64 hd) (cf (fun k => { k with s := { k.s with pc := 0x1000, n := Vector.replicate 16 0 } }) (on .S s))

/-- An aligned literal and one that is not; legal images without and with a record, and an illegal one. -/
theorem witness_DrainModeAndHistograms :
    (∀ p ∈ [(4, 0x1010), (2, 0x1008)], Startable (modeLit 0 0 base) 0 .S 5 2 ∧
      (((modeLit 0 0 base).core 0).s.pc + 4 * (BitVec.ofNat 10 p.1).signExtend 64 + 16 * (rd ((modeLit 0 0 base).core 0).s.n (i4 0)).setWidth 64).toNat = p.2) ∧
    (∃ a s1, readQuiet 0 0x1010 16 (modeLit 0x10 0 base) = .ok (a, s1) ∧ s1.core 0 = (modeLit 0x10 0 base).core 0 ∧
      decide (bytesAt a 0 8 = 0x10 ∧ bytesAt a 8 8 = 0) = true) ∧
    (∃ a s1, readQuiet 0 0x1010 16 (modeLit 0xF 0 base) = .ok (a, s1) ∧ s1.core 0 = (modeLit 0xF 0 base).core 0 ∧
      decide (bytesAt a 0 8 = 0xF) = true) ∧
    (bits 0x10 0 4 ≤ 8 ∧ bits 0x10 4 3 ≤ 4 ∧ bits 0x10 16 8 = 0 ∧ 8 < bits 0xF 0 4) ∧
    (-256 ≤ (5 : Word32).toInt ∧ (5 : Word32).toInt ≤ 255) ∧ (256 : Word32).toInt = 256 :=
  ⟨by decide +kernel,
   quiet_of _ _ _ (fun (a : List Byte) _ => decide (bytesAt a 0 8 = 0x10 ∧ bytesAt a 8 8 = 0)) rfl (by decide +kernel),
   quiet_of _ _ _ (fun (a : List Byte) _ => decide (bytesAt a 0 8 = 0xF)) rfl (by decide +kernel), by decide +kernel, by decide +kernel, by decide +kernel⟩

def recordMode : State := put 0x1040 (layoutRec 256) (modeLit 0 0x1040 base)

theorem witness_DrainModeAndHistograms_record :
    ∃ a s1 b s2, readQuiet 0 0x1010 16 recordMode = .ok (a, s1) ∧ s1.core 0 = recordMode.core 0 ∧
      readLRec (strandWho s1 0) (some (clusterOf 0)) 0x1040 s1 = (.ok b, s2) ∧ s2.core 0 = recordMode.core 0 ∧
      (decide (bytesAt a 0 8 = 0 ∧ bytesAt a 8 8 = 0x1040 ∧ lFmt b = 0) && !lrecBad b) = true :=
  quiet2_of _ (fun _ s1 => readLRec (strandWho s1 0) (some (clusterOf 0)) 0x1040 s1) _ _
    (fun (a : List Byte) _ b _ => decide (bytesAt a 0 8 = 0 ∧ bytesAt a 8 8 = 0x1040 ∧ lFmt b = 0) && !lrecBad b) rfl rfl (by decide +kernel)

/-- A record of another format than the image's. -/
theorem witness_DrainModeAndHistograms_unsuited :
    ∃ a s1 b s2, readQuiet 0 0x1010 16 (put 0x1040 (layoutRec 256) (modeLit 8 0x1040 base)) = .ok (a, s1) ∧
      s1.core 0 = (put 0x1040 (layoutRec 256) (modeLit 8 0x1040 base)).core 0 ∧
      readLRec (strandWho s1 0) (some (clusterOf 0)) 0x1040 s1 = (.ok b, s2) ∧
      s2.core 0 = (put 0x1040 (layoutRec 256) (modeLit 8 0x1040 base)).core 0 ∧
      (decide (bytesAt a 0 8 = 8 ∧ bytesAt a 8 8 = 0x1040 ∧ lFmt b ≠ 8)) = true :=
  quiet2_of _ (fun _ s1 => readLRec (strandWho s1 0) (some (clusterOf 0)) 0x1040 s1) _ _
    (fun (a : List Byte) _ b _ => decide (bytesAt a 0 8 = 8 ∧ bytesAt a 8 8 = 0x1040 ∧ lFmt b ≠ 8)) rfl rfl (by decide +kernel)

/-- An FP32 drain of two rows of four columns at 0x1000; RM, HEN and the key table as given. -/
def drainDesc : SDesc := desc 0 2 4 0x1000 64
def draining (rm : Nat) (hen : Bool) (keys : List SrKey) : State :=
  on .S (cf (fun k => { k with ss := { k.ss with dmode := wd (rm * 16 + if hen then 4096 else 0), keys := keys } }) (setSd 4 drainDesc base))

theorem witness_DrainsRun_modes :
    ∀ p ∈ [(0, false), (0, true), (4, false), (4, true)], let s := draining p.1 p.2 []
      Startable s 0 .S 5 2 ∧ (s.core 0).ss.fmt = drainDesc.fmt ∧ (s.core 0).ss.rm = p.1 ∧ (s.core 0).ss.hen = p.2 ∧ (s.core 0).ss.rech = 0 ∧
      (keyLookup (s.core 0).ss.keys (s.core 0).csr.ktid (s.core 0).csr.kstep (wd 0x1000)).2.isNone = true ∧ accSeen (s.core 0) 0 = [] ∧
      ∀ ac, accView 0 ac s = ((rd (s.core 0).xs.ac (i2 ac), rd (s.core 0).xs.acl (i2 ac)), s) := by
  intro p hp
  fin_cases hp <;> exact ⟨by decide +kernel, by decide +kernel, by decide +kernel, by decide +kernel, by decide +kernel, by decide +kernel,
    by decide +kernel, fun _ => rfl⟩

def replaced : State := draining 4 false [{ t := 0, s := 0, base := 0x5000 }]

theorem witness_DrainsRun_key :
    (replaced.core 0).csr.ktid = 0 ∧ (replaced.core 0).csr.kstep = 0 ∧ (keyLookup (replaced.core 0).ss.keys 0 0 (wd 0x1000)).2 = some 0x5000 := by
  decide +kernel

theorem witness_DrainsRun_shapes :
    (drainDesc.brows = 2 ∧ drainDesc.bcols = 4 ∧ drainDesc.fmt = 0 ∧ drainDesc.w = 32) ∧ drainDesc.base = 0x1000 ∧
    ([0, 1].all (fun r => (drainDesc.codeRun r).1 % 4 == 0)) = true ∧
    16 < (desc 0 17 4 0x1000 64).brows ∧ ((desc 0 1 4 0x1002 64).codeRun 0).1 % 4 = 2 := by decide +kernel

/-- The block's accesses, and its rows stored: with empty tiles each element is +0. -/
def blockOf (rm : Nat) : Except Stop ((Who × List (List Piece)) × State) := openBlock 0 drainDesc (draining rm false [])
def keyed (rm : Nat) (s : State) : State :=
  if rm = 4 then s.updCore 0 (fun k => { k with ss := { k.ss with keys := (keyLookup [] 0 0 (wd 0x1000)).1 } }) else s
def storedOf (rm : Nat) : Except Stop (Unit × State) :=
  match blockOf rm with
  | .ok x => storeRows 0 x.1.1 (x.1.2.zip (List.replicate 2 (packCodes 32 [0, 0, 0, 0]))) 0 (keyed rm x.2)
  | .error e => .error e

theorem witness_DrainsRun_stores : ∀ rm ∈ [0, 4],
    (match blockOf rm with | .ok _ => true | .error _ => false) = true ∧ (match storedOf rm with | .ok _ => true | .error _ => false) = true ∧
    (∀ m ∈ [modeOf 0, .sr 5], drainConv ((draining rm false []).core 0).ss m (f32 0) = 0) := by decide +kernel

theorem witness_DrainsRun_quiet : ∀ rm, rm = 0 ∨ rm = 4 →
    (match blockOf rm with | .ok x => x.2.cores | .error _ => base.cores) = (draining rm false []).cores ∧
    (match storedOf rm with | .ok x => x.2.cores | .error _ => base.cores) =
      (match blockOf rm with | .ok x => (keyed rm x.2).cores | .error _ => base.cores) := by
  rintro _ (rfl | rfl) <;> exact ⟨rfl, rfl⟩

/-- A row of four FP32 elements in a plain page; a window's pages written back and dropped; a tile finished. -/
def rowDesc : SDesc := desc 0 1 4 0x1000 64
def rowStore : State := on .S (setSd 4 rowDesc base)

theorem witness_StashAndStores_row :
    CanonicalMemory rowStore ∧ Startable rowStore 0 .S 5 2 ∧ rowDesc.brows = 1 ∧ rowDesc.fmt = 0 ∧ rowDesc.codeRun 0 = (0x1000, 16) ∧
    rowDesc.bcols = 4 := by decide +kernel

theorem witness_StashAndStores_plain : PlainAccess rowStore 0 .S 0x1000 16 { rd := false, wr := true, ex := false } (page 1 1) := by
  constructor <;> decide +kernel

def stashed : State := on .S (setN .S 3 1020 (setN .S 4 4 windowed))

theorem witness_StashAndStores_window :
    (Startable stashed 0 .S 5 2 ∧ (rd (stashed.core 0).s.n (i4 3)).toNat + (rd (stashed.core 0).s.n (i4 4)).toNat = 1024 ∧
      (windowOf stashed 0).isSome = true) ∧
    (Startable (setN .S 3 1021 stashed) 0 .S 5 2 ∧ (rd ((setN .S 3 1021 stashed).core 0).s.n (i4 3)).toNat = 1021) ∧
    (windowOf (on .S base) 0).isSome = false := by decide +kernel

theorem witness_StashAndStores_done :
    (∀ n ∈ [0, 4095], (rd ((setN .S 3 (BitVec.ofNat 32 n) (on .S base)).core 0).s.n (i4 3)).toNat = n ∧ n < 4096) ∧
    (rd ((setN .S 3 4096 (on .S base)).core 0).s.n (i4 3)).toNat = 4096 ∧ mapWfFrom ((0 : BitVec 16), false) 0 job.chunks = true ∧
    (let j := { job with chunks := [(7, (0xFFFF, false))] }
     mapWfFrom ((0 : BitVec 16), false) 0 j.chunks = true ∧ (j.chunk 7).1 = 0xFFFF ∧ (j.chunk 8).1 = 0) := by decide +kernel

theorem witness_StashAndStores_job : (on .S base).job? ((on .S base).core 0).id.jobid = some job := rfl

end Sys2Proof.Tests
end

