-- ==== Sys2Proof/Tests/WitnessPackage.lean ====
section
/-! SUPPORT. Witnesses for the statements about packets, jobs, fabrics, memory, host registers, the mailbox and power. -/

namespace Sys2Proof.Tests

open Sys2Proof Sys2Proof.Machine

set_option Elab.async false

/-! ### Packets and jobs -/

/-- A launch packet: entry 0x100, estimate 50, 5 tokens, NCL clusters at level 2. -/
def firstPacket (ncl : Nat) : List Byte :=
  w64 0x100 ++ w32 50 ++ [5, 0, 0, 0, BitVec.ofNat 8 ncl, 2] ++ List.replicate 14 0 ++ w64 11 ++ w64 22 ++ List.replicate 80 0

/-- Queue 3 of the small partition: a ring of 16 packets. -/
def queue (st : QSt) (ring : Nat) (flags tail : Nat) : Queue :=
  { id := 3, base := wd ring, cfg := wd (4 + flags + 7 * 2 ^ 16), head := 0, tailv := BitVec.ofNat 32 tail, st := st, code := 0, last := none }
def withQueue (q : Queue) (s : State) : State := s.setQueue q
def ringed (ncl : Nat) : State := put 0x1000 (firstPacket ncl) (withQueue (queue .run 0x1000 0 1) base)

theorem witness_PacketToBind_queue :
    ((withQueue (queue .run 0x1000 0 0) base).queue 3).head = ((withQueue (queue .run 0x1000 0 0) base).queue 3).tailv ∧
    (∀ ncl ∈ [0, 1], ((ringed ncl).queue 3).st = .run ∧ ((ringed ncl).queue 3).head ≠ ((ringed ncl).queue 3).tailv ∧
      freeId (ringed ncl) = some 0 ∧ slotsUsed (ringed ncl) < 256) := by decide +kernel

/-- A packet that passes its checks, one that breaks a limit, and a ring that is not mapped. -/
theorem witness_PacketToBind_packets :
    (∀ p ∈ [(1, 0), (0, 2)], let s := ringed p.1
      let k := s.queue 3
      let r := readPacket k s
      (match r.1 with | .ok b => decide ((packetCode (queueWho k) (r.2.part k.pid) b.1.bytes b.2 r.2).1 = p.2) && !b.1.poison | .error _ => false) = true) ∧
    (let s := withQueue (queue .run 0x9000 0 1) base
     (match (readPacket (s.queue 3) s).1 with | .ok _ => false | .error f => !f.1.poison) = true) ∧
    (let s := { ringed 1 with side := [(0x40, { Side.none with poison := true })] }
     (match (readPacket (s.queue 3) s).1 with | .ok b => b.1.poison | .error _ => false) = true) := by decide +kernel

/-- A packet that waits in its slot, and every id live. -/
def slotHeld : Slotted := { queue := 3, bytes := firstPacket 1, order := 4, prev := none }
theorem witness_PacketToBind_slot :
    { base with slotted := [slotHeld] }.slotted = slotHeld :: [] ∧ slotHeld.queue = 3 ∧ freeId { base with slotted := [slotHeld] } = some 0 := by
  decide +kernel

def crowded (s : State) : State := { s with jobs := (List.range 4096).map (fun n => { job with id := BitVec.ofNat 12 n }) }
theorem witness_PacketToBind_crowded (s : State) : freeId (crowded s) = none := by
  unfold freeId crowded
  rw [Option.map_eq_none_iff, List.find?_eq_none]
  intro i hi
  have hi : i < 4096 := List.mem_range.1 hi
  simp only [List.any_map, Bool.not_eq_true', Bool.not_eq_false, List.any_eq_true, List.mem_range, Function.comp_apply, beq_iff_eq]
  exact ⟨i, hi, by rw [BitVec.toNat_ofNat]; omega⟩

def noCluster (j : Job) : State := { withJob j base with clusters := State.reset.clusters }
def fetched : State := noCluster { job with st := .fetched, cls := [] }
def readied : State := noCluster { job with st := .ready, cls := [] }

theorem witness_PacketToBind_jobs :
    fetched.job? 5 = some { job with st := .fetched, cls := [] } ∧ readied.job? 5 = some { job with st := .ready, cls := [] } := ⟨rfl, rfl⟩

theorem witness_PacketToBind_steps :
    (runPrologue { (Job.who { job with st := .fetched, cls := [] }) with author := { kind := 1, clu := 0, slot := 0, job := 5 } }
      { job with st := .fetched, cls := [] } fetched).1 = none ∧
    (let j := { job with st := .fetched, cls := [], hdr := { header with npro := 1, pro := 0x9000 } }
     (runPrologue { j.who with author := { j.who.author with kind := 1 } } j (noCluster j)).1.isSome = true) ∧
    mayPlace readied { job with st := .ready, cls := [] } [0] = true := by decide +kernel

/-- A newcomer of NCL clusters, more urgent than the job, whose device holds tokens. -/
def newcomer (ncl : Nat) : Job := { job with id := 9, st := .ready, cls := [], order := 1, hdr := { header with ncl := ncl, ptok := 7 } }
def pressed (ncl : Nat) : State :=
  pf (fun q => { q with vdevs := wr q.vdevs 0 { rd q.vdevs 0 with bkt := 100, drw := 1000 } }) { base with jobs := [job, newcomer ncl] }

theorem witness_Preemption_job (ncl : Nat) : (pressed ncl).job? 9 = some (newcomer ncl) := rfl

/-- One whose room a drain makes, and one that no room suffices for; one that offers nothing. -/
theorem witness_Preemption :
    ∀ p ∈ [(1, true), (2, false)],
      let s := pressed p.1
      let j := newcomer p.1
      let free := roomFor s j
      let vs := prefixFor j.hdr (victims s j.hdr.urg (s.part j.pid).cssize.toNat (victimOrder s j.pid) (s.part j.pid).areas) free
      s.jobs.map (fun k => k.id) = [5, 9] ∧ j.waits = true ∧ j.offer.isNone = true ∧ idleHolds s j = false ∧ fits j.hdr free = false ∧
      job.waits = false ∧ vs.isSome = p.2 ∧ (vs.getD []).all (fun v => exceeds s j (min j.hdr.ptok.toNat (jobDev s j).bkt.toNat) v.job) = true ∧
      (p.2 = true → (vs.getD []).any (fun v => !exceeds s j 0 v.job) = true) := by
  decide +kernel

theorem witness_LeavingAndResuming :
    ∀ j ∈ [{ job with form := some .drain }, { job with st := .draining 500 }, { job with st := .draining 2000 },
           { job with form := some .checkpoint }, { job with st := .stopped, form := some .checkpoint, area := some (0, 35) },
           { job with killDue := true }, job], (withJob j base).job? 5 = some j ∧ (withJob j base).lines = [] := by
  intro j hj
  fin_cases hj <;> exact ⟨rfl, rfl⟩

theorem witness_LeavingAndResuming_times :
    (500 : Word).toNat ≤ base.time.toNat ∧ base.time.toNat < (2000 : Word).toNat ∧ job.st = .bound ∧ job.killDue = false := by decide +kernel

/-- A read of local memory where nothing is dirty (R87 to R90). -/
theorem physRead_clean (pa n : Nat) (s : State) (h : s.lines = []) (hp : ∀ r ∈ sectorRuns pa n, paLocal (r.1 * 64) = true) :
    physRead pa n s =
      ({ bytes := ((sectorRuns pa n).map (fun r => ((readLocal s r.1).bytes.drop r.2.1).take r.2.2)).flatten,
         lbls := (sectorRuns pa n).map (fun r => (readLocal s r.1).lbl),
         poison := (sectorRuns pa n).any (fun r => (readLocal s r.1).poison) }, s) := by
  have hf : ∀ (rs : List (Nat × Nat × Nat)) (a : PhysGot), (∀ r ∈ rs, paLocal (r.1 * 64) = true) →
      (rs.foldlM (fun acc r => (do
        let v ← readSector none r.1
        return { bytes := acc.bytes ++ (v.bytes.drop r.2.1).take r.2.2, lbls := acc.lbls ++ [v.lbl], poison := acc.poison || v.poison } :
          SM PhysGot)) a) s =
      ({ bytes := a.bytes ++ (rs.map (fun r => ((readLocal s r.1).bytes.drop r.2.1).take r.2.2)).flatten,
         lbls := a.lbls ++ rs.map (fun r => (readLocal s r.1).lbl),
         poison := a.poison || rs.any (fun r => (readLocal s r.1).poison) }, s) := by
    intro rs
    induction rs with
    | nil => intro a _; simp [pure, StateT.pure]
    | cons r rs ih =>
      intro a hq
      rw [List.foldlM_cons]
      simp only [bind, StateT.bind, readSector_clean none r.1 s h (hq r List.mem_cons_self), pure]
      have := ih { bytes := a.bytes ++ ((readLocal s r.1).bytes.drop r.2.1).take r.2.2, lbls := a.lbls ++ [(readLocal s r.1).lbl],
                   poison := a.poison || (readLocal s r.1).poison } (fun x hx => hq x (List.mem_cons_of_mem r hx))
      refine Eq.trans this ?_
      simp [Bool.or_assoc]
  have := hf (sectorRuns pa n) { bytes := [], lbls := [], poison := false } hp
  simpa [physRead] using this

theorem foldl_setChunk_id (l : List (Nat × Nat)) (j : Job) :
    (l.foldl (fun (j : Job) p => j.setChunk p.2 (BitVec.ofNat 16 p.1, (j.chunk p.2).2)) j).id = j.id := by
  induction l generalizing j with
  | nil => rfl
  | cons p l ih => exact (ih _).trans rfl

theorem restoreJob_id (b : List Byte) (j : Job) : (restoreJob b j).id = j.id := foldl_setChunk_id _ _

/-- A saved job without task images, its range at granule 0. -/
def savedJob : Job := { job with st := .saved, cls := [], area := some (0, 1) }

/-- A header, and zeros to the end of the image. -/
@[irreducible] def imageBytes : List Byte := [1, 0, 5, 0, 2, 0] ++ List.replicate 65530 0

theorem image_drop (o : Nat) (h : 6 ≤ o) : imageBytes.drop o = List.replicate (65536 - o) 0 := by
  have hg : ∀ (m : Nat) (hd : List Byte), hd.length = 6 → (hd ++ List.replicate m 0).drop o = List.replicate (m + 6 - o) 0 := by
    intro m hd hl
    rw [List.drop_append, List.drop_eq_nil_of_le (by omega), hl, List.drop_replicate, List.nil_append]
    congr 1
    omega
  rw [imageBytes]
  exact hg 65530 _ rfl

theorem leNat_zero (n : Nat) : leNat (List.replicate n 0) = 0 := by
  induction n with
  | zero => rfl
  | succ n ih => exact (congrArg (fun v => 0 + 256 * v) ih).trans rfl

theorem unfields_zero (n k m : Nat) : ∀ v ∈ unfields n k (List.replicate m 0), v = 0 := by
  induction k generalizing m with
  | zero => simp [unfields]
  | succ k ih =>
    intro v hv
    simp only [unfields, List.mem_cons, List.take_replicate, List.drop_replicate, leNat_zero] at hv
    exact hv.elim id (ih _ v)

theorem image_zero (off stop : Nat) (h : 6 ≤ off) : ∀ p ∈ zeroRun imageBytes off stop, p.2 = true := by
  simp [zeroRun, image_drop off h]

theorem groups_zero (m k n : Nat) (h : k * m ≤ n) :
    groups m k (List.replicate n (0 : Byte)) = List.replicate k (List.replicate m 0) := by
  induction k generalizing n with
  | zero => rfl
  | succ k ih =>
    have hm : m ≤ n := by nlinarith
    rw [groups, List.take_replicate, List.drop_replicate, Nat.min_eq_left hm, ih (n - m) (by rw [Nat.succ_mul] at h; omega)]
    rfl

theorem image_records : ∀ p ∈ checkRecords imageBytes 0x100 32 8 collOk, p.2 = true := by
  intro p hp
  simp only [checkRecords, recordsAt, image_drop 0x100 (by decide), List.map_map, List.mem_map] at hp
  rw [groups_zero 32 8 _ (by decide)] at hp
  obtain ⟨q, hq, rfl⟩ := hp
  have hz := List.eq_of_mem_replicate (List.fst_mem_of_mem_zipIdx hq)
  simp only [Function.comp_apply, hz]
  decide +kernel

theorem image_good : firstBad (jobChecks imageBytes savedJob) = none := by
  have h1 : ∀ p ∈ checkEach 0x800 4 (fieldsAt imageBytes 0x800 4 2048) (fun v => decide (bits v 24 7 = 0)), p.2 = true := by
    intro p hp
    simp only [checkEach, fieldsAt, image_drop 0x800 (by decide), List.mem_map] at hp
    obtain ⟨q, hq, rfl⟩ := hp
    have hz := unfields_zero 4 2048 _ q.1 (List.fst_mem_of_mem_zipIdx hq)
    simp [hz, bits]
  have h0 : ∀ p ∈ [(0x0, decide (bytesAt imageBytes 0 2 = 1)), (0x2, decide (bytesAt imageBytes 2 2 = savedJob.id.toNat)), (0x4, decide (bytesAt imageBytes 4 1 = 2 * savedJob.hdr.ncl)),
      (0x5, decide (bytesAt imageBytes 5 1 < 8))], p.2 = true := by decide +kernel
  rw [firstBad, Option.map_eq_none_iff, List.find?_eq_none]
  intro p hp
  have : p.2 = true := by
    simp only [jobChecks, List.mem_append] at hp
    rcases hp with ((((((hp | hp) | hp) | hp) | hp) | hp) | hp) | hp
    · exact h0 p hp
    · exact image_zero _ _ (by decide) p hp
    · exact image_zero _ _ (by decide) p hp
    · exact image_zero _ _ (by decide) p hp
    · exact image_records p hp
    · exact image_zero _ _ (by decide) p hp
    · exact h1 p hp
    · exact image_zero _ _ (by decide) p hp
  simp [this]

/-- The state that holds it, with its memory and side bands and cluster 0 free. -/
def saved (mem : List Host.Cell) (poison : Bool) : State :=
  { base with
    clusters := State.reset.clusters, jobs := [savedJob], mem := mem,
    side := if poison then [(0, { Side.none with poison := true })] else [] }
def goodMem : List Host.Cell := [(0, 1), (2, 5), (4, 2)]

theorem saved_runs : sectorRuns 0 0x10000 = (List.range 1024).map (fun i => (i, 0, 64)) := by
  unfold sectorRuns
  rw [if_neg (by decide)]
  refine List.map_congr_left (fun i hi => ?_)
  have hi : i < 1024 := List.mem_range.1 hi
  simp only [Prod.mk.injEq]
  omega

theorem saved_read (mem : List Host.Cell) (p : Bool) :
    physRead 0 0x10000 (saved mem p) =
      ({ bytes := ((List.range 1024).map (fun i => (readLocal (saved mem p) i).bytes.take 64)).flatten,
         lbls := (List.range 1024).map (fun i => (readLocal (saved mem p) i).lbl),
         poison := (List.range 1024).any (fun i => (readLocal (saved mem p) i).poison) }, saved mem p) := by
  have hl : ∀ r ∈ sectorRuns 0 0x10000, paLocal (r.1 * 64) = true := by
    rw [saved_runs]
    intro r hr
    obtain ⟨i, hi, rfl⟩ := List.mem_map.1 hr
    have hi : i < 1024 := List.mem_range.1 hi
    simp only [paLocal, decide_eq_true_eq]
    omega
  rw [physRead_clean 0 0x10000 (saved mem p) rfl hl, saved_runs]
  simp [Function.comp_def]

theorem saved_key (mem : List Host.Cell) (p : Bool) (k : Fin 32) : ((saved mem p).slice k).epoch = 0 ∧ ((saved mem p).slice k).keyGen = 0 := by
  have h : ∀ k : Fin 32, (rd State.reset.slices k).epoch = 0 ∧ (rd State.reset.slices k).keyGen = 0 := by decide +kernel
  exact h k

theorem side_later (p : Bool) (mem : List Host.Cell) (i : Nat) : (saved mem p).sideAt i = { Side.none with poison := p && decide (i = 0) } := by
  cases p
  · rfl
  · change mapGet Side.none [(0, { Side.none with poison := true })] i = _
    by_cases h : i = 0
    · subst h; rfl
    · simp [mapGet, h, Ne.symm h, Side.none]

theorem saved_local (mem : List Host.Cell) (p : Bool) (i : Nat) :
    readLocal (saved mem p) i = { bytes := (List.range 64).map (fun k => mapGet 0 mem (i * 64 + k)), lbl := 0, poison := p && decide (i = 0) } := by
  have h : ((saved mem p).sideAt i).current ((saved mem p).slice (sliceOf (saved mem p) (i * 64))) = true := by
    unfold Side.current
    rw [side_later, (saved_key mem p _).1, (saved_key mem p _).2]; rfl
  unfold readLocal
  dsimp only
  rw [if_pos h, side_later]
  rfl

theorem good_later (i k : Nat) (h : 0 < i) : mapGet (0 : Byte) goodMem (i * 64 + k) = 0 := by
  have h0 : ¬ 0 = i * 64 + k := by omega
  have h2 : ¬ 2 = i * 64 + k := by omega
  have h4 : ¬ 4 = i * 64 + k := by omega
  simp [goodMem, mapGet, h0, h2, h4]

theorem runs_flat (f : Nat → List Byte) (hd : List Byte) (h0 : f 0 = hd ++ List.replicate 58 0) (h : ∀ i, 0 < i → f i = List.replicate 64 0)
    (n : Nat) : ((List.range (n + 1)).map f).flatten = hd ++ List.replicate (58 + n * 64) 0 := by
  have h3 : (List.range n).map (f ∘ Nat.succ) = (List.range n).map (fun _ => List.replicate 64 0) :=
    List.map_congr_left (fun i _ => h (i + 1) (Nat.succ_pos i))
  rw [List.range_succ_eq_map (n := n), List.map_cons, List.map_map, List.flatten_cons, h0, h3, List.map_const', List.length_range,
    List.flatten_replicate_replicate, List.append_assoc, List.replicate_append_replicate]

theorem good_bytes (p : Bool) : (physRead 0 0x10000 (saved goodMem p)).1.bytes = imageBytes := by
  rw [saved_read, imageBytes]
  simp only [saved_local]
  refine runs_flat (fun i => ((List.range 64).map (fun k => mapGet (0 : Byte) goodMem (i * 64 + k))).take 64) _ (by decide) (fun i hi => ?_) 1023
  rw [List.map_congr_left (fun k _ => good_later i k hi), List.map_const', List.length_range, List.take_replicate, Nat.min_self]

theorem saved_poison (mem : List Host.Cell) (p : Bool) : (physRead 0 0x10000 (saved mem p)).1.poison = p := by
  rw [saved_read]
  simp only [saved_local]
  cases p
  · simp
  · exact List.any_eq_true.2 ⟨0, by simp, by simp⟩

theorem restored_id (k : Job) (i : JobId) (g : List Byte) (b : Option BadImage) (p : Bool) (h : k.id = i) :
    ({ job := { k with images := [] }, head := g, bad := b, poison := p } : Restored).job.id = i := h

theorem readImages_none (j : Job) (base : Nat) (s t : State) (g : PhysGot) (h : j.images = []) (hg : physRead base jobImageSize s = (g, t)) :
    ∃ r, readImages j base s = (r, t) ∧ r.bad = (firstBad (jobChecks g.bytes j)).map (fun o => { slot := 0, pc := 0, off := o }) ∧
      r.poison = g.poison ∧ r.job.id = j.id := by
  refine ⟨{ job := { restoreJob g.bytes j with images := [] }, head := g.bytes,
            bad := (firstBad (jobChecks g.bytes j)).map (fun o => { slot := 0, pc := 0, off := o }), poison := g.poison }, ?_, rfl, rfl, ?_⟩
  · unfold readImages
    simp only [bind, StateT.bind, hg, h, List.foldlM_nil, pure, StateT.pure]
  · exact restored_id (restoreJob g.bytes j) _ _ _ _ (restoreJob_id g.bytes j)

theorem saved_images (mem : List Host.Cell) (p : Bool) :
    ∃ r, readImages savedJob (areaBase ((saved mem p).part savedJob.pid) (0, 1)) (saved mem p) = (r, saved mem p) ∧
      r.bad = (firstBad (jobChecks (physRead 0 0x10000 (saved mem p)).1.bytes savedJob)).map (fun o => { slot := 0, pc := 0, off := o }) ∧
      r.poison = p ∧ r.job.id = 5 := by
  have hg : physRead 0 0x10000 (saved mem p) = ((physRead 0 0x10000 (saved mem p)).1, saved mem p) := by
    have h2 : (physRead 0 0x10000 (saved mem p)).2 = saved mem p := by rw [saved_read]
    generalize physRead 0 0x10000 (saved mem p) = x at h2 ⊢
    exact Prod.ext rfl h2
  have ha : areaBase ((saved mem p).part savedJob.pid) (0, 1) = 0 := rfl
  have hp := saved_poison mem p
  rw [ha]
  generalize (physRead 0 0x10000 (saved mem p)).1 = g at hg hp ⊢
  obtain ⟨r, h1, h2, h3, h4⟩ := readImages_none savedJob 0 _ _ g rfl hg
  exact ⟨r, h1, h2, h3.trans hp, h4⟩

/-- Images that are good, that are poisoned, and of which one field is bad. -/
theorem witness_LeavingAndResuming_images :
    (∀ p, ∃ r, readImages savedJob (areaBase ((saved goodMem p).part savedJob.pid) (0, 1)) (saved goodMem p) = (r, saved goodMem p) ∧
      r.bad = none ∧ r.poison = p ∧ r.job.id = 5) ∧
    (∃ r, readImages savedJob (areaBase ((saved [] false).part savedJob.pid) (0, 1)) (saved [] false) = (r, saved [] false) ∧
      r.bad.isSome = true ∧ r.job.id = 5) := by
  refine ⟨fun p => ?_, ?_⟩
  · obtain ⟨r, h1, h2, h3, h4⟩ := saved_images goodMem p
    refine ⟨r, h1, ?_, h3, h4⟩
    rw [h2, good_bytes, image_good]
    rfl
  · obtain ⟨r, h1, h2, h3, h4⟩ := saved_images [] false
    refine ⟨r, h1, ?_, h4⟩
    rw [h2, Option.isSome_map, firstBad, Option.isSome_map, List.find?_isSome]
    refine ⟨(0, decide (bytesAt (physRead 0 0x10000 (saved [] false)).1.bytes 0 2 = 1)), by simp [jobChecks], ?_⟩
    have h0 : bytesAt (physRead 0 0x10000 (saved [] false)).1.bytes 0 2 = 0 := by
      rw [saved_read]
      simp only [saved_local]
      decide +kernel
    simp [h0]


theorem witness_LeavingAndResuming_place (mem : List Host.Cell) (p : Bool) :
    (saved mem p).job? 5 = some savedJob ∧ (saved mem p).jobs = [savedJob] ∧ savedJob.st = .saved ∧ savedJob.area = some (0, 1) :=
  ⟨rfl, rfl, rfl, rfl⟩

theorem witness_LeavingAndResuming_mayPlace : mayPlace (saved [] false) savedJob [0] = true ∧ mayPlace (saved goodMem true) savedJob [0] = true := by
  decide +kernel

/-- Members 0 and 2 of a rotation at a member, of which it is not the last, or is; a turn not yet over; no members. -/
def rotating (rot : BitVec 3) (qeff : Word32) : State :=
  pf (fun q => { q with
    rot := rot,
    vdevs := wr (wr q.vdevs 0 { VDev.reset with en := true, weight := 3, qeff := qeff }) 2 { VDev.reset with en := true, weight := 1, qeff := qeff } }) base

theorem witness_LeavingAndResuming_rotation :
    let member (q : Part) (v : BitVec 3) : Bool := (rd q.vdevs (i3 v)).en && decide ((rd q.vdevs (i3 v)).weight ≠ 0)
    (∀ p ∈ [(0, 1, true), (2, 1, true), (1, 1, true), (0, 5, false)], let q := (rotating (BitVec.ofNat 3 p.1) (BitVec.ofNat 32 p.2.1)).part 0
      ((List.range 8).filter (fun v => member q (BitVec.ofNat 3 v))) = [0, 2] ∧
      decide (q.rotAt.toNat + (rd q.vdevs (i3 q.rot)).qeff.toNat * 1000 ≤ base.time.toNat) = p.2.2) ∧
    (List.range 8).all (fun v => !member Part.reset (BitVec.ofNat 3 v)) = true := by decide +kernel

/-! ### Fabrics and memory -/

def rackRing : State := withQueue (queue .run 0x1000 32 1) base

theorem witness_Fabrics_rack :
    ((firstPacket 1).length = 128 ∧ (rackRing.queue 3).rack = true ∧ (rackRing.queue 3).dev = false ∧ (rackRing.queue 3).st = .run ∧
      ((rackRing.queue 3).tailv - (rackRing.queue 3).head).toNat < 2 ^ (rackRing.queue 3).log2n) ∧
    (match (writeVirt (queueWho (rackRing.queue 3)) ((rackRing.queue 3).slotVa 1) (firstPacket 1)
        (rd rackRing.labels.inlbl (if Config.freeNat rackRing.freeCtr % 2 = 0 then 1 else 13)) { rackRing with freeCtr := 1 }).1 with
     | .ok _ => true | .error _ => false) = true ∧ rackRing.freeCtr = 0 ∧ (base.queue 3).rack = false := by decide +kernel

/-- A package with number 5; requests that name it and one that does not. -/
def numbered : State := { base with ualnum := 0x85 }
def request (num : Nat) (addr : Nat) (op : UalOp) : UalReq := { port := 1, src := 3, num := BitVec.ofNat 7 num, addr := BitVec.ofNat 39 addr, op := op }

theorem witness_Fabrics_requests :
    (bit numbered.ualnum.toNat 7 = true ∧ bits numbered.ualnum.toNat 0 7 = 5 ∧ (request 5 0x1000 (.read 16)).num.toNat = 5 ∧ (request 6 0x1000 (.read 16)).num.toNat = 6) ∧
    (∀ n ∈ [8, 16], (physRead 0x1000 n numbered).1.poison = false ∧
      gatePasses (physRead 0x1000 n numbered).2 1 (physRead 0x1000 n numbered).1.lbls = true) ∧
    (gatePasses (physWrite { kind := 5, clu := 3, slot := 1, job := 0 } (rd numbered.labels.inlbl 1) 0x1000 (w64 1) (physRead 0x1000 8 numbered).2).2 1
      (physRead 0x1000 8 numbered).1.lbls = true) ∧ (0x1004 : BitVec 39).toNat % 8 ≠ 0 := by decide +kernel

def linked (l : Link) : State := { base with links := wr base.links 2 l }

theorem witness_Fabrics_links :
    (let s := linked { down := false, rxSeq := 4, txSeq := 9, window := [7, 8], replays := 16 }
     (s.link 2).rxSeq = 4 ∧ (s.link 2).window = 7 :: [8] ∧ (s.link 2).down = false ∧ 16 ≤ (s.link 2).replays) ∧ (base.link 2).replays < 16 := by
  decide +kernel

/-- A side band of an older epoch; a dirty line; a label that no gate passes. -/
def older : State := { base with side := [(0x40, { lbl := 3, epoch := 5, poison := false })] }
def line : Line :=
  { sector := 0x40, owner := .l1 0 7 1, bytes := List.replicate 64 7, lbl := 0, poison := false, dirty := true, task := none, va := 0x1000 }
def dirtyLine : State := { base with lines := [line] }
def labelled : State := { base with side := [(0x40, { lbl := 3, epoch := 0, poison := false })] }

theorem witness_MemorySide :
    (CanonicalMemory older ∧ paLocal (0x40 * 64) = true ∧ (older.sideAt 0x40).epoch ≠ (older.slice (sliceOf older (0x40 * 64))).epoch ∧
      older.sideAt 0x40 ≠ Side.none) ∧
    (CanonicalMemory dirtyLine ∧ dirtyLine.line? 0x40 = some line ∧ (∃ a v, line.owner = .l1 0 a v) ∧ line.bytes.length = 64) :=
  ⟨by decide +kernel, by decide +kernel, by decide +kernel, ⟨7, 1, rfl⟩, by decide +kernel⟩

theorem witness_MemorySide_host :
    inPartitions base 0x1000 16 = true ∧ inPartitions base (2 ^ 39 - 8) 16 = false ∧ (2 ^ 39 - 8 : BitVec 39).toNat = 2 ^ 39 - 8 ∧
    (∀ p ∈ [(base, true), (labelled, false)], inPartitions p.1 0x1000 16 = true ∧ (physRead 0x1000 16 p.1).1.poison = false ∧
      gatePasses (physRead 0x1000 16 p.1).2 0 (physRead 0x1000 16 p.1).1.lbls = p.2) ∧
    (CanonicalMemory base ∧ 0x1000 % 64 + 16 ≤ 64 ∧ (base.line? (0x1000 / 64)).isNone = true ∧
      (∀ k i, bit (rd (base.slice k).ws i).ctl.toNat 0 = false) ∧ ∀ cl, (base.cluster cl).frames = []) := by decide +kernel

/-! ### Host registers -/

theorem witness_HostRegisters :
    (base.boot.st = .ready ∧ State.reset.boot.st ≠ .ready) ∧ (0x1004 : BitVec 26).toNat % 8 ≠ 0 ∧
    (wd 0x5000 &&& ~~~(wd ((2 ^ 36 - 1) * 2 ^ 12)) = 0 ∧ wd 1 &&& ~~~(wd ((2 ^ 36 - 1) * 2 ^ 12)) ≠ 0) ∧
    (base.time.toNat ≤ (1000 : Word).toNat ∧ (999 : Word).toNat < base.time.toNat) := by decide +kernel

/-- Partition 1 with cluster 1, about to be enabled on slices 8 to 15; one with partition 0's slices; a device's weight. -/
def second : State := base.updPart 1 (fun q => { q with pclu0 := 2 })
def pslOf (slice0 : Nat) : Word := wd (2 ^ 63 + 3 * 256 + slice0)

theorem witness_HostRegisters_partitions :
    (∀ p ∈ [(8, false), (0, true)], pslOf p.1 &&& ~~~(wd (2 ^ 63 + 7 * 2 ^ 8 + 31)) = 0 ∧
      partRefused second 1 { second.part 1 with psl := pslOf p.1 } = p.2) ∧
    ({ second.part 1 with psl := pslOf 8 } : Part).enabled = true ∧ (second.part 1).enabled = false := by decide +kernel

theorem witness_HostRegisters_devices :
    let savewc := (base.part 0).savewc
    (∀ p ∈ [(0, 5, false), (1, 0, true), (1, savewc - 1, true), (1, savewc, true)], let v := wd (p.1 * 2 ^ 63 + 3 * 2 ^ 32 + p.2.1)
      v &&& ~~~(wd (2 ^ 63 + 2 ^ 48 - 1)) = 0 ∧ bit v.toNat 63 = p.2.2 ∧ bits v.toNat 0 32 = p.2.1) ∧ 1 < savewc ∧
    ((base.core 0).job.isSome = true ∧ (base.core 0).dbg.pend = false ∧ (0x1FF : Word).toNat < 512) := by decide +kernel

/-- Queues in each state, kicks that fit the ring and that do not. -/
theorem witness_WorkQueues :
    (∀ st ∈ [QSt.off, .run, .halt, .dead], ((withQueue (queue st 0x1000 0 1) base).queue 3).st = st) ∧
    queueReady base (queue .off 0x1000 0 1) = true ∧
    (((0x10 : Word).setWidth 32 - (queue .run 0x1000 0 1).head).toNat ≤ 2 ^ (queue .run 0x1000 0 1).log2n) ∧
    ¬ (((0x11 : Word).setWidth 32 - (queue .run 0x1000 0 1).head).toNat ≤ 2 ^ (queue .run 0x1000 0 1).log2n) ∧
    (queue .run 0x1000 16 1).dev = true ∧ (queue .run 0x1000 0 1).dev = false ∧ job.queue ≠ 3 ∧ base.boot.st = .ready := by decide +kernel

theorem witness_WorkQueues_live : ∃ j ∈ (withJob { job with queue := 3 } base).jobs, j.queue = 3 := ⟨_, List.mem_cons_self, rfl⟩

def invalidating : State := pf (fun q => { q with inv := some { kind := 1, asid := 7, vd := 0, page := 1, count := 2 } }) base

theorem witness_Invalidations :
    base.boot.st = .ready ∧ (base.part 0).inv.isNone = true ∧ (base.part 0).invcnt = 0 ∧
    ((pf (fun q => { q with invcnt := 2 }) base).part 0).invcnt = 2 ∧ (invalidating.part 0).inv.isSome = true := by decide +kernel

/-- No core has an access under way; core A has one that uses a covered page. -/
theorem witness_Invalidations_waits :
    let i : InvCmd := { kind := 1, asid := 7, vd := 0, page := 0x400, count := 2 }
    ((base.part 0).cores.all (fun c => !i.waits base c)) = true ∧ (0 : CoreId) ∈ (stepping.part 0).cores ∧ i.waits stepping 0 = true := by
  decide +kernel

/-! ### The mailbox -/

/-- A buffer in host memory; a command under way there with its request. -/
def buffer : State := { base with boot := { base.boot with mbaddr := wd (2 ^ 40 + 0x1000) } }
def commanded (pa cmd : Nat) (req : List Byte) : State := { base with boot := { base.boot with mbBusy := true, mbCmd := some (pa, cmd, req) } }

theorem witness_Mailbox :
    buffer.boot.st = .ready ∧ buffer.boot.mbBusy = false ∧
    (∀ pa ∈ [2 ^ 40 + 0x1000, 0x1000], let s := commanded pa 1 []
      s.boot.st = .ready ∧ s.boot.mbBusy = true ∧ s.boot.mbCmd = some (pa, 1, []) ∧ CanonicalMemory s) ∧
    paHost (2 ^ 40 + 0x1000) = true ∧ paHost 0x1000 = false ∧ base.boot.xmssidx.toNat < 2 ^ 20 := by decide +kernel

/-- Requests of `create origin`: for partitions 0 and 31, of authority 15, and past each field's range. -/
theorem witness_Mailbox_origins :
    ((freeOrigin base.labels).isSome = true ∧ (lowestFreeId base.labels).isSome = true) ∧
    (∀ r ∈ [[0, 0, 0, 0], [(31 : Byte), 15, 0, 0]], bytesAt r 0 1 < 32 ∧ bytesAt r 1 1 < 16) ∧
    32 ≤ bytesAt [(32 : Byte), 0] 0 1 ∧ 16 ≤ bytesAt [(0 : Byte), 16] 1 1 := by decide +kernel

/-- Origins in slots 0 and 1, and policies in slots. -/
def governed (ps : List (Nat × Policy)) : LabelSt :=
  { base.labels with
    origins := [(0, { pid := 0, key := [1], auth := 0, lbl := 1 }), (1, { pid := 0, key := [2], auth := 0, lbl := 2 })], policies := ps }
def policyOf (m : Nat) : Policy := { omask := wd m, cls := 1, serial := 5 }

/-- A policy's fields; the slot that it takes: its mask's, the first, the one that a removal left. Whether signatures verify is the
implementation's constant (log entry 1), which no proof can see. -/
theorem witness_Mailbox_policies :
    (let r := w64 3 ++ [1, 0, 0, 0] ++ w32 5
     let m := wd (bytesAt r 0 8)
     ((List.range 64).filter (fun i => bit m.toNat i)) = [0, 1] ∧ bytesAt r 8 1 < 16 ∧ bytesAt r 9 3 = 0 ∧
       (∀ i ∈ [0, 1], (originKey (governed []) i).isSome = true) ∧ (topSerial (governed []) m).isNone = true) ∧
    ([(7, policyOf 3)].find? (fun x => x.2.omask == wd 3)) = some (7, policyOf 3) ∧
    ([(1, policyOf 5), (0, policyOf 6)].find? (fun x => x.2.omask == wd 3)) = none ∧
    (∀ x ∈ [(1, policyOf 5), (0, policyOf 6)], x.1 ≠ 2) ∧ (∀ k, k < 2 → ∃ x ∈ [(1, policyOf 5), (0, policyOf 6)], x.1 = k) ∧
    (∃ x ∈ (governed [(7, policyOf 3)]).policies, x.2.omask = wd (leNat (w64 3))) ∧
    originKey (governed [(7, policyOf 3)]) 0 = some [1] ∧ bit (wd (leNat (w64 3))).toNat 0 = true := by decide +kernel

/-! ### Bring-up and power -/

def booting (st : BootState) (code : Byte) : State := { State.reset with boot := { State.reset.boot with st := st, code := code } }
def pinned (good clk rst trip : Bool) : State :=
  { State.reset with pwr := { State.reset.pwr with pwrgood := good, refclk := clk, resetn := rst, trip := trip } }

theorem witness_BringUpAndPower :
    (∀ good clk rst, (pinned good clk rst false).pwr.pwrgood = good ∧ (pinned good clk rst false).pwr.refclk = clk ∧ (pinned good clk rst false).pwr.resetn = rst) ∧
    ((booting .verify 0).boot.st = .verify ∧ (booting .meminit 0).boot.st = .meminit ∧ (booting .ready 0).boot.st ≠ .meminit) ∧
    ((booting .failed 0x12).boot.st = .failed ∧ 0x10 ≤ (booting .failed 0x12).boot.code.toNat) ∧
    (∀ trip, (pinned true true true trip).pwr.trip = trip) ∧ CanonicalMemory State.reset ∧
    (∀ n ∈ [(2 : Fin 8), 5], (2 : Fin 8).val ≤ n.val) ∧
    { (booting .verify 0) with pwr := { State.reset.pwr with resetn := true } }.pwr.resetn = true := by decide +kernel

end Sys2Proof.Tests
end

