-- ==== Sys2Proof/Tests/WitnessForms.lean ====
section
/-! SUPPORT. Witnesses for further forms of the statements: waits that a trap ends, regroups of several dies, guarded reads of the engines,
writes of the stochastic-rounding keys, promised clusters, mailbox commands at the edges of their ranges. -/

namespace Sys2Proof.Tests

open Sys2Proof Sys2Proof.Machine

set_option Elab.async false

/-! ### Traps of a waiting strand -/

/-- A C strand that waits on a semaphore. -/
def semWaiting : State :=
  cf (fun k => { k with st := { k.st with c := .waiting }, sems := wr k.sems 5 { Sem.reset with waiters := [(0, 2)] } }) base

theorem witness_TrapEntry_waiting :
    mayIssue semWaiting 0 .C = true ∧ (semWaiting.core 0).csr.inHandler = false ∧ (semWaiting.core 0).csr.hasVector = true ∧
    (semWaiting.core 0).st.c = .waiting ∧ (((leaveWait 0 semWaiting).core 0).sem 5).waiters = [] := by decide +kernel

theorem witness_UnhandledTrap_waiting :
    ((leaveWait 0 semWaiting).job? (semWaiting.core 0).id.jobid).isSome = true ∧
    (leaveWait 0 base).job? (base.core 0).id.jobid = some job := ⟨by decide +kernel, rfl⟩

/-! ### Regroups (R21) -/

/-- A gang of two dies: slots 0 and 1 on die 0, 2 and 3 on die 1, at level 2, with their requests and arrivals. -/
def gang : Job := { job with cls := [0, 28], hdr := { header with ncl := 2, level := 3 } }
def member (slot : Nat) (r : Option DomReq) (arr : Bool) : Core :=
  let k := taskCore slot
  { k with phArr := arr, domReq := r,
           id := { k.id with level := 2, taskLast := 3, domFirst := BitVec.ofNat 8 (slot / 2 * 2), domLast := BitVec.ofNat 8 (slot / 2 * 2 + 1) } }
def twoDies (ra rb : Option DomReq) (aa ab : Bool) : State :=
  { withJob gang base with
    cores := wr (wr (wr (wr State.reset.cores 0 (member 0 ra aa)) 1 (member 1 ra aa)) 56 (member 2 rb ab)) 57 (member 3 rb ab),
    clusters := wr base.clusters 28 { Cluster.reset with job := some (5, 1) } }

theorem witness_Phases_gang (ra rb : Option DomReq) (aa ab : Bool) : (twoDies ra rb aa ab).coreJob 0 = some gang := rfl

/-- Both dies ask to join; the other has not arrived; the other asks while this one's barrier completes without it. -/
theorem witness_Phases_regroup :
    ∀ q ∈ [(some DomReq.join, some DomReq.join, true, true, true), (some .join, some .join, false, true, false),
           (none, some .join, true, false, true), (some .split, none, false, false, false)],
      let s := twoDies q.1 q.2.1 true q.2.2.1
      let ms := domainOf s gang 0
      let sub (d : Fin 4) : List CoreId := gang.cores.filter (fun m => dieOf m == d && liveMember s m)
      let pend (d : Fin 4) : Bool := !(sub d).isEmpty && (sub d).all (fun m => (s.core m).phArr && decide ((s.core m).domReq = some .join))
      (ms.Nodup ∧ ms ≠ [] ∧ (∀ m ∈ ms, (s.core m).phArr = true) ∧ (s.core 0).id.level = 2 ∧ (s.core 0).id.hlvl = 3) ∧
      gang.cores.Nodup ∧ ms = sub (dieOf 0) ∧ sub 1 ≠ [] ∧ sub 2 = [] ∧ sub 3 = [] ∧ pend 0 = q.2.2.2.1 ∧ pend 1 = q.2.2.2.2 ∧
      ∀ m ∈ ms, (s.core m).csr.inHandler = false ∧ (s.core m).csr.hasVector = true := by
  decide +kernel

/-- Level 3 with no request, and with one that not all make. -/
theorem witness_Phases_level3 :
    ∀ r ∈ [none, some DomReq.join], let s := domain 3 3 r true true
      (domainOf s job 0).Nodup ∧ domainOf s job 0 ≠ [] ∧ (∀ m ∈ domainOf s job 0, (s.core m).phArr = true) ∧
      ∃ m ∈ domainOf s job 0, (s.core m).domReq ≠ some .split := by decide +kernel

/-! ### Rendezvous (R17) -/

/-- The C strand arrives first, after the L strand, and with another identifier; the X strand arrives last, and while S is missing. -/
theorem witness_Rendezvous_forms :
    (∀ m ∈ [(none, true), (arrived 5 false, true), (arrived 6 false, false), (arrived 5 true, false)],
      let s := meeting m.1 none none
      Ready s 0 .C ∧ (s.core 0).rdvDone = false ∧ (s.core 0).arr.c = none ∧
      (∃ st ∈ [Strand.L, .X, .S], (s.core 0).started.get st = true ∧ (s.core 0).arr.get st = none) ∧
      (s.core 0).firstArrival.all (fun a => a.id == 5 && a.fin == false) = m.2) ∧
    (∀ fin ∈ [false, true], ∀ late ∈ [false, true],
      let s := on .X (cf (fun k => { k with arr := { c := arrived 5 fin, l := arrived 5 fin, x := none, s := if late then none else arrived 5 fin } }) base)
      Startable s 0 .X 0 0 ∧ (s.core 0).started.get .X = true ∧ (s.core 0).arr.get .X = none ∧ (s.core 0).unfinished .X = false ∧
      (s.core 0).arr.c ≠ none ∧ ((∃ o ∈ [Strand.L, .S], (s.core 0).started.get o = true ∧ (s.core 0).arr.get o = none) ↔ late = true) ∧
      ∀ o ∈ [Strand.C, .L, .S], ((s.core 0).arr.get o).all (fun a => a.id == 5 && a.fin == fin) = true) := by decide +kernel

/-! ### Reads of the transfer engine that a guard meets (R300, R301) -/

/-- The record at 0x1000 lies in a guarded block; a record at 0x2000 whose source side's layout record does. -/
theorem witness_ChannelSteps_guard :
    (let s := channel (chan .run) (guarding false)
     (chanAt s 0 2).st = .run ∧ (chanAt s 0 2).issuer = some 0 ∧ engineLive s 0 ((chanAt s 0 2).seqsOf 0) = true ∧
     guardHolds s 0 [(0x1000, 64)] = true) ∧
    guardedBy (owned true) 0 [(0x1000, 64)] = [] ∧
    (let s := put 0x2000 (copyRec 0 0x23 0) (channel { chan .run with cursor := 0x2000 } (guarding false))
     guardedBy s 0 [(0x2000, 64)] = [] ∧
     (match readVirt (engineWho s 0 1 2) 0x2000 64 s with
      | (.ok g, s1) => !g.poison && (parseRec g.bytes).own && guardHolds s1 0 (sideReads (engineWho s 0 1 2) (some 0) (parseRec g.bytes) s1)
      | _ => false) = true) := by decide +kernel

theorem witness_CommandsIssue_guard :
    guardedBy base 0 [(0x1000, 64)] = [] ∧ ((guardedBy (guarding false) 0 [(0x1000, 64)]).map (fun m => m.stok) = [false]) := by decide +kernel

/-! ### The layout record of `sd.base` (R139, R235) -/

/-- A write to the record's bytes that the strand still owes, none; no guard. -/
theorem witness_StreamSetUp_ahead :
    (∀ s ∈ [recorded 256, recorded (2 ^ 33)], (heldRec (strandWho s 0) (some (clusterOf 0)) 0x1040 s).isNone = true ∧
      writeAhead s 0 .L [(0x1040, 192)] = false ∧ guardedBy s 0 [(0x1040, 192)] = []) ∧
    (let s := cf (fun k => { k with flights := [entryFlight 6 []] }) (setRg 6 ring windowed)
     writeAhead s 0 .L [(entryVa s 0 ring 1, 192)] = true) := by decide +kernel

/-! ### Keys that a drain may read old (R48) -/

def rekeyed : State :=
  cf (fun k => { k with keyw := [{ ktid := 1, kstep := 2, both := false, before := 0 }], csr := { k.csr with ktid := 3, kstep := 4 } }) (draining 4 false [])

theorem witness_DrainsRun_keys :
    (rekeyed.core 0).keyw ≠ [] ∧ keyPairs (rekeyed.core 0) = [(1, 2), (1, 4), (3, 2), (3, 4)] ∧ ((draining 4 false []).core 0).keyw = [] ∧
    Startable rekeyed 0 .S 5 2 := by decide +kernel

/-! ### Scans (R199) -/

/-- A combine image of two components. -/
def pairImg : List Byte := ((sumWords.set 12 33).map (fun u => natBytes 4 u.toNat)).flatten
def pairing : State := on .X (xf (fun x => { x with scan := { x.scan with st := 1, img := pairImg, rs := 1 } }) base)

theorem witness_LocalScans_tiles :
    Startable pairing 0 .X 5 2 ∧ ((parseImg (pairing.core 0).xs.scan.img).map (fun p => p.w)) = some 2 ∧
    ((4 : BitVec 5).toNat % 2 = 0 ∧ (4 : BitVec 5).toNat + 2 ≤ 32) ∧ ¬ ((31 : BitVec 5).toNat % 2 = 0) := by decide +kernel

/-- OFF, as after reset, with no image. -/
theorem witness_LocalScans_off :
    Startable (on .X base) 0 .X 5 2 ∧ ((on .X base).core 0).xs.scan.st = 0 ∧ (parseImg ((on .X base).core 0).xs.scan.img).isNone = true := by
  decide +kernel

/-! ### The mailbox (R378, R379) -/

/-- A buffer outside host memory; a line held somewhere; a request of a partition that there is not, and one past the last leaf. -/
theorem witness_Mailbox_edges :
    (paHost (wd 0x1000).toNat = false ∧ paHost buffer.boot.mbaddr.toNat = true ∧ buffer.lines = []) ∧
    ({ buffer with lines := [line] }.lines ≠ [] ∧ { buffer with lines := [line] }.boot.mbBusy = false) ∧
    (let s := put (2 ^ 40 + 0x1000) [32] buffer
     bytesAt ((List.range 64).map (fun i => s.byteAt (2 ^ 40 + 0x1000 + i))) 0 1 = 32) ∧
    bytesAt ((List.range 64).map (fun i => buffer.byteAt (2 ^ 40 + 0x1000 + i))) 0 1 < 32 ∧ buffer.boot.xmssidx.toNat < 2 ^ 20 ∧
    2 ^ 20 ≤ (BitVec.ofNat 32 (2 ^ 20) : Word32).toNat ∧
    ((commanded (2 ^ 40) 4 [0]).boot.mbIdx = none ∧
      { (commanded (2 ^ 40) 4 [0]).boot with mbIdx := some (7 : Word32) }.mbIdx = some 7) := by decide +kernel

/-! ### Promised clusters (R344) -/

/-- Cluster 1 is free but promised to an earlier newcomer. -/
def promised : State :=
  pf (fun q => { q with pclu0 := 3 })
    { pressed 2 with jobs := [job, { newcomer 1 with id := 8, order := 0, offer := some (7, [1]) }, newcomer 2] }

theorem witness_Preemption_promised :
    freeIn promised 0 = [1] ∧ roomFor promised (newcomer 2) = [] ∧ promised.job? 9 = some (newcomer 2) ∧
    (promised.jobs.map (fun k => k.id)).Nodup := ⟨by decide +kernel, by decide +kernel, rfl, by decide +kernel⟩

/-! ### Budget windows (R341) -/

/-- Use beyond a window's limit is left to the next ones. -/
theorem witness_MemorySide_budget :
    let q : Part := { part with hlbud := 4, hlUsed := (10, 0, 0), hlWin := 0 }
    bits q.hlbud.toNat 0 16 = 4 ∧ q.hlUsed.1 - (base.time.toNat / 1000 - q.hlWin) * bits q.hlbud.toNat 0 16 = 6 := by decide +kernel

end Sys2Proof.Tests
end

section
/-! The host registers: how an 8-byte write reaches its register, what each register of O56 makes of it, and what a partition that takes
effect leaves of jobs, PSLs and epochs. -/

namespace Sys2Proof.Machine

/-! ### A host write of one whole register (R371) -/

theorem span_word : span 0 64 = BitVec.allOnes 64 := by decide

/-- A write of 8 bytes as the register sees it: every bit is covered. -/
def wholeWrite (v : Word) : RegWrite := { mask := span 0 64, val := v }

@[simp] theorem wholeWrite_val (v : Word) : (wholeWrite v).val = v := rfl

@[simp] theorem wholeWrite_covered (v : Word) : v &&& (wholeWrite v).mask = v := by
  rw [wholeWrite, span_word, BitVec.and_allOnes]

@[simp] theorem wholeWrite_rw (v old : Word) : (wholeWrite v).rw old = v := by
  rw [RegWrite.rw, wholeWrite_val, wholeWrite_covered, wholeWrite, span_word, BitVec.not_allOnes, BitVec.and_zero, BitVec.zero_or]

@[simp] theorem wholeWrite_one (v : Word) (i : Nat) : (wholeWrite v).one i = bit v.toNat i := by
  rw [RegWrite.one, wholeWrite_val, wholeWrite_covered]

@[simp] theorem wholeWrite_low (v : Word) : (wholeWrite v).low = true := by
  have h : bit (span 0 64).toNat 0 = true := by decide
  exact h

theorem guardBits_pass {d v : Word} (f : RegEnd) (h : v &&& ~~~d = 0) : guardBits d (wholeWrite v) f = f := by
  rw [guardBits, wholeWrite_val, wholeWrite_covered, if_neg (not_not_intro h)]

theorem guardBits_reserved {d v : Word} (f : RegEnd) (h : v &&& ~~~d ≠ 0) : guardBits d (wholeWrite v) f = .error 1 := by
  rw [guardBits, wholeWrite_val, wholeWrite_covered, if_pos h]

/-- The access that an aligned 8-byte write makes of its register. -/
theorem wholeWrite_eq (v : Word) : ({ mask := span 0 (8 * 8), val := wd (v.toNat % 2 ^ (8 * 8) * 2 ^ 0) } : RegWrite) = wholeWrite v := by
  have hv : wd (v.toNat % 2 ^ (8 * 8) * 2 ^ 0) = v := by
    rw [Nat.pow_zero, Nat.mul_one, Nat.mod_eq_of_lt v.isLt, wd, BitVec.ofNat_toNat, BitVec.setWidth_eq]
  rw [hv]
  rfl

theorem hostWrite_unaligned {off size : Nat} (v : Word) (s : State) (h : (size ≠ 4 ∧ size ≠ 8) ∨ off % size ≠ 0) :
    hostWrite off size v s = discard 3 0 off s := by
  unfold hostWrite
  rw [if_pos]
  simpa using h

section Aligned
variable {off : Nat} {v : Word} {s : State} (h8 : off % 8 = 0)
include h8

theorem hostWrite_unnamed (hw : writeAt off (wholeWrite v) s = none) : hostWrite off 8 v s = discard 3 0 off s := by
  have ho : off / 8 * 8 = off := by omega
  simp only [hostWrite, h8, ho, Nat.zero_mul, wholeWrite_eq, hw]
  rfl

/-- Before READY only HPREC and BOOTST take a write (R371). -/
theorem hostWrite_early {r : RegEnd} (hw : writeAt off (wholeWrite v) s = some r) (hs : s.boot.st ≠ .ready) (h1 : off ≠ 0x010)
    (h2 : off ≠ 0x008) : hostWrite off 8 v s = discard 2 0 off s := by
  have ho : off / 8 * 8 = off := by omega
  simp only [hostWrite, h8, ho, Nat.zero_mul, wholeWrite_eq, hw]
  simp [hs, h1, h2]

theorem hostWrite_refused {k : Nat} (hw : writeAt off (wholeWrite v) s = some (.error k)) (hs : s.boot.st = .ready) :
    hostWrite off 8 v s = discard k 0 off s := by
  have ho : off / 8 * 8 = off := by omega
  simp only [hostWrite, h8, ho, Nat.zero_mul, wholeWrite_eq, hw, hs]
  simp

theorem hostWrite_taken {t : State} (hw : writeAt off (wholeWrite v) s = some (.ok t)) (hs : s.boot.st = .ready)
    (hi : invBusy off s = none) : hostWrite off 8 v s = t := by
  have ho : off / 8 * 8 = off := by omega
  simp only [hostWrite, h8, ho, Nat.zero_mul, wholeWrite_eq, hw, hi]
  simp [hs]

end Aligned

/-- Only INVCMD, the first register of a partition's block, has a BUSY of its own (R98). -/
theorem invBusy_elsewhere {o : Nat} (s : State) (h : o < 0x400000 ∨ 0x800000 ≤ o ∨ o % 0x20000 ≠ 0) : invBusy o s = none := by
  unfold invBusy
  rw [if_neg]
  omega

/-- The discard record of BAR 0, whose offsets have 26 bits (R373). -/
theorem discard_bar0 (kind off : Nat) (s : State) (h : off < 2 ^ 39) : discard kind 0 off s = { s with
    hprec := if bit s.hprec.toNat 63 then s.hprec else wd (2 ^ 63 + kind * 2 ^ 60 + off),
    hpcnt := if s.hpcnt = BitVec.allOnes 32 then s.hpcnt else s.hpcnt + 1 } := by
  unfold discard
  rw [Nat.mod_eq_of_lt h, Nat.zero_mul, Nat.add_zero]
  rfl

/-! ### The blocks of BAR 0 (R371) -/

theorem writeAt_ioc {o : Nat} (w : RegWrite) (s : State) (h : o < 0x10000 ∨ (0x20000 ≤ o ∧ o < 0x100000)) :
    writeAt o w s = writeIoc o w s := by
  unfold writeAt
  rw [if_pos (by omega), if_neg (by omega)]

/-- A register's own block of a bank of blocks, and its offset there. -/
theorem block_div {b i r : Nat} (h : r < 0x20000) : (b + i * 0x20000 + r - b) / 0x20000 = i := by omega
theorem block_mod {b i r : Nat} (h : r < 0x20000) : (b + i * 0x20000 + r - b) % 0x20000 = r := by omega

theorem writeAt_part (p : PartId) {r : Nat} (w : RegWrite) (s : State) (h : r < 0x10000) :
    writeAt (partBlock p + r) w s = writePart p r w s := by
  have hr : r < 0x20000 := by omega
  have hp := p.isLt
  unfold writeAt partBlock
  dsimp only
  rw [if_neg (by omega), if_neg (by omega), if_neg (by omega), if_pos (by omega), block_div hr, block_mod hr,
    if_neg (by omega), Fin.ofNat_val_eq_self]

theorem writeAt_core (c : CoreId) {r : Nat} (w : RegWrite) (s : State) (h : r < 0x10000) :
    writeAt (coreBlock c + r) w s = writeCore c r w s := by
  have hr : r < 0x20000 := by omega
  have hc := c.isLt
  unfold writeAt coreBlock
  dsimp only
  rw [if_neg (by omega), if_neg (by omega), if_neg (by omega), if_neg (by omega), if_neg (by omega), if_pos (by omega), block_div hr,
    block_mod hr, if_neg (by omega), Fin.ofNat_val_eq_self]

theorem writeAt_slice (k : Fin 32) {r : Nat} (w : RegWrite) (s : State) (h : r < 0x10000) :
    writeAt (sliceBlock k + r) w s = writeSlice k r w s := by
  have hr : r < 0x20000 := by omega
  have hk := k.isLt
  unfold writeAt sliceBlock
  dsimp only
  rw [if_neg (by omega), if_neg (by omega), if_neg (by omega), if_neg (by omega), if_neg (by omega), if_neg (by omega), if_neg (by omega),
    if_pos (by omega), block_div hr, block_mod hr, if_neg (by omega), Fin.ofNat_val_eq_self]

/-! ### What a write back leaves of the configuration (R89, R341) -/

/-- The jobs, every partition's PSL and every slice's epoch are the same. -/
structure SameConfig (s t : State) : Prop where
  jobs : t.jobs = s.jobs
  psl : ∀ p, (t.part p).psl = (s.part p).psl
  epoch : ∀ k, (t.slice k).epoch = (s.slice k).epoch

theorem SameConfig.refl (s : State) : SameConfig s s := ⟨rfl, fun _ => rfl, fun _ => rfl⟩

theorem SameConfig.trans {s t u : State} (h : SameConfig s t) (h' : SameConfig t u) : SameConfig s u :=
  ⟨h'.jobs.trans h.jobs, fun p => (h'.psl p).trans (h.psl p), fun k => (h'.epoch k).trans (h.epoch k)⟩

/-- A step that replaces none of the three lists. -/
theorem SameConfig.of_eq {s t : State} (hj : t.jobs = s.jobs) (hp : t.parts = s.parts) (hk : t.slices = s.slices) : SameConfig s t :=
  ⟨hj, fun p => by rw [State.part, hp, State.part], fun k => by rw [State.slice, hk, State.slice]⟩

theorem SameConfig.foldl {α : Type} {f : State → α → State} (hf : ∀ s a, SameConfig s (f s a)) (l : List α) (s : State) :
    SameConfig s (l.foldl f s) := by
  induction l generalizing s with
  | nil => exact SameConfig.refl s
  | cons a l ih => exact (hf s a).trans (ih _)

theorem sameConfig_updPart (p : PartId) (f : Part → Part) (s : State) (hf : (f (s.part p)).psl = (s.part p).psl) :
    SameConfig s (s.updPart p f) := by
  refine ⟨rfl, fun q => ?_, fun _ => rfl⟩
  by_cases h : q = p
  · rw [h, State.part_updPart_self, hf]
  · rw [State.part_updPart_ne _ _ _ _ h]

theorem sameConfig_updSlice (k : Fin 32) (f : Slice → Slice) (s : State) (hf : (f (s.slice k)).epoch = (s.slice k).epoch) :
    SameConfig s (s.updSlice k f) := by
  refine ⟨rfl, fun _ => rfl, fun j => ?_⟩
  by_cases h : j = k
  · rw [h, State.slice_updSlice_self, hf]
  · rw [State.slice_updSlice_ne _ _ _ _ h]

theorem raiseCause_config (kind : Nat) (p : PartId) (vd j q d : Nat) (s : State) : SameConfig s (raiseCause kind p vd j q d s) := by
  unfold raiseCause
  dsimp only
  split
  · exact SameConfig.trans (t := { s with out := s.out ++ [OutMsg.msi p.val] }) (SameConfig.of_eq rfl rfl rfl) (sameConfig_updPart _ _ _ rfl)
  · exact SameConfig.of_eq rfl rfl rfl

theorem fireSnap_config (p : PartId) (src : Nat) (s : State) : SameConfig s (fireSnap p src s) := by
  unfold fireSnap
  dsimp only
  split
  · exact SameConfig.refl s
  · have hl := SameConfig.foldl (f := fun s c => s.updCore c latchCore) (fun s c => SameConfig.of_eq rfl rfl rfl) (s.part p).cores s
    exact (hl.trans (sameConfig_updPart p (fun q : Part =>
      { q with snapArm := false, snapFired := true, snapSrc := BitVec.ofNat 3 src, snaptime := s.time }) _ rfl)).trans
      (SameConfig.of_eq rfl rfl rfl)

theorem countHits_config (k : Fin 32) (n : Nat) (s : State) : SameConfig s (countHits k n s) := sameConfig_updSlice _ _ _ rfl

/-- A hit of a slice watchpoint latches WSREC, counts and reports; it installs no key (R108). -/
theorem watchSlice_config (a : Author) (pa len : Nat) (s : State) : SameConfig s (watchSlice a pa len s) := by
  unfold watchSlice
  dsimp only
  split
  · exact SameConfig.refl s
  · next h hs _ =>
    have hlatch : SameConfig s (countHits (sliceOf s pa) hs.length
        (s.updSlice (sliceOf s pa) (fun q => { q with wsrec := wsrecOf a h.idx, wshit := wd h.first }))) :=
      (sameConfig_updSlice _ _ _ rfl).trans (countHits_config _ _ _)
    split
    · exact countHits_config _ _ _
    · split
      · exact hlatch
      · next p _ =>
        have hrep := hlatch.trans (raiseCause_config 5 p 0 0 0 (Config.causeDetail 5 (sliceOf s pa).val) _)
        split
        · exact hrep.trans (fireSnap_config _ _ _)
        · exact hrep

theorem putSector_config (a : Author) (n o : Nat) (bs : List Byte) (l : Label) (p : Bool) (s : State) :
    SameConfig s (putSector a n o bs l p s) := by
  have hw := watchSlice_config a (n * 64 + o) bs.length
    { s with mem := putBytes s.mem (n * 64) (overlay (readLocal s n).bytes o bs),
             side := mapSet Side.none s.side n { lbl := l, epoch := (s.slice (sliceOf s (n * 64))).epoch, poison := p } }
  exact ⟨hw.jobs, hw.psl, hw.epoch⟩

theorem charge_config (p : PartId) (k : HlKind) (n : Nat) (s : State) : SameConfig s (charge p k n s) := by
  unfold charge
  split
  · exact SameConfig.refl s
  · exact sameConfig_updPart _ _ _ (by cases k <;> rfl)

theorem relDeny_config (c : CoreId) (v : Word) (s : State) : SameConfig s (relDeny c v s) := by
  unfold relDeny queueTrap
  split <;> exact SameConfig.of_eq rfl rfl rfl

theorem freePort_config (cls : Nat) (s : State) : SameConfig s (freePort cls s).2 := by
  unfold freePort
  split <;> exact SameConfig.of_eq rfl rfl rfl

theorem emitAt_config (port : Nat) (m : OutMsg) (s : State) : SameConfig s (emitAt port m s) := by
  unfold emitAt
  split <;> exact SameConfig.of_eq rfl rfl rfl

theorem emit_config (cls : Nat) (m : OutMsg) (s : State) : SameConfig s (emit cls m s).2 :=
  (freePort_config cls s).trans (emitAt_config _ _ _)

theorem sendOut_config (job pa : Nat) (bs : List Byte) (l : Label) (va : Word) (s : State) :
    SameConfig s (sendOut job pa bs l va s).2 := by
  unfold sendOut
  split
  · dsimp only
    split
    · exact SameConfig.of_eq rfl rfl rfl
    · exact emit_config _ _ _
  · exact (freePort_config _ s).trans (SameConfig.of_eq rfl rfl rfl)

/-- A written-back line reaches its home; no job, PSL or epoch moves (R109). -/
theorem writeback_config (l : Line) (s : State) : SameConfig s (writeback l s) := by
  have hdrop : SameConfig s (s.dropLine l.sector) := SameConfig.of_eq rfl rfl rfl
  unfold writeback
  dsimp only
  split
  · exact hdrop.trans (putSector_config _ _ _ _ _ _ _)
  · have hcharged : SameConfig s (match l.task with
        | some (c, _) => charge ((s.dropLine l.sector).core c).id.pid .write (if l.dirty && paHost (l.sector * 64) then 1 else 0)
            (s.dropLine l.sector)
        | none => s.dropLine l.sector) := by
      split
      · exact hdrop.trans (charge_config _ _ _ _)
      · exact hdrop
    have hsent : ∀ u, SameConfig u ((if l.dirty then sendOut (lineJob l) (l.sector * 64) l.bytes l.lbl l.va u
        else (WroteTo.done, u) : WroteTo × State)).2 := by
      intro u
      split
      · exact sendOut_config _ _ _ _ _ u
      · exact SameConfig.refl u
    have hdenied : ∀ r : WroteTo × State, SameConfig r.2 (match r.1, l.task with
        | .denied va, some (c, j) => if (r.2.core c).job = some j then relDeny c va r.2 else r.2
        | _, _ => r.2) := by
      intro r
      split
      · split
        · exact relDeny_config _ _ _
        · exact SameConfig.refl _
      · exact SameConfig.refl _
    have hkept : ∀ u, SameConfig u (if paRemote (l.sector * 64) then u.putLine { l with dirty := false } else u) := by
      intro u
      split <;> exact SameConfig.of_eq rfl rfl rfl
    exact ((hcharged.trans (hsent _)).trans (hdenied _)).trans (hkept _)

theorem flushPart_config (q : Part) (s : State) : SameConfig s (flushPart q s) :=
  SameConfig.foldl (fun s l => writeback_config l s) _ s

/-! ### A partition takes effect (R89, R341) -/

theorem sliceIds_nodup (q : Part) : q.sliceIds.Nodup := (List.nodup_finRange 32).filter _

theorem rewriteEpochs_config (k : Fin 32) (s : State) : SameConfig s (rewriteEpochs k s) := by
  refine SameConfig.foldl (fun u n => ?_) (heldSectors s k) s
  dsimp only
  split
  · exact SameConfig.refl u
  · exact SameConfig.of_eq rfl rfl rfl

theorem installKey_jobs (k : Fin 32) (s : State) : (installKey k s).jobs = s.jobs := (rewriteEpochs_config k s).jobs

theorem installKey_psl (k : Fin 32) (s : State) (p : PartId) : ((installKey k s).part p).psl = (s.part p).psl :=
  (rewriteEpochs_config k s).psl p

theorem installKey_epoch (k j : Fin 32) (s : State) :
    ((installKey k s).slice j).epoch = if j = k then (s.slice j).epoch + 1 else (s.slice j).epoch := by
  unfold installKey
  split
  · next h => rw [h, State.slice_updSlice_self, (rewriteEpochs_config k s).epoch k]
  · next h => rw [State.slice_updSlice_ne _ _ _ _ h, (rewriteEpochs_config k s).epoch j]

/-- New keys on a list of different slices: each of them moves one epoch on, no job and no PSL moves. -/
theorem installKeys_config (ks : List (Fin 32)) (hn : ks.Nodup) (s : State) :
    (ks.foldl (fun s k => installKey k s) s).jobs = s.jobs ∧
    (∀ p, ((ks.foldl (fun s k => installKey k s) s).part p).psl = (s.part p).psl) ∧
    ∀ j, ((ks.foldl (fun s k => installKey k s) s).slice j).epoch = if j ∈ ks then (s.slice j).epoch + 1 else (s.slice j).epoch := by
  induction ks generalizing s with
  | nil => exact ⟨rfl, fun _ => rfl, fun j => by simp⟩
  | cons k ks ih =>
    obtain ⟨hk, hks⟩ := List.nodup_cons.mp hn
    obtain ⟨hjobs, hpsl, hepoch⟩ := ih hks (installKey k s)
    refine ⟨hjobs.trans (installKey_jobs k s), fun p => (hpsl p).trans (installKey_psl k s p), fun j => ?_⟩
    rw [List.foldl_cons, hepoch, installKey_epoch]
    by_cases h : j = k
    · subst h
      simp [hk]
    · simp [h]

/-- A PSL that takes effect: it is the partition's, no job moves, and a partition that becomes enabled has a new epoch on each of its
slices. -/
theorem applyPart_psl (p : PartId) (v : Word) (s : State) :
    let q : Part := { s.part p with psl := v }
    ((applyPart p q s).part p).psl = v ∧ (applyPart p q s).jobs = s.jobs ∧
    (q.enabled = true → (s.part p).enabled = false → ∀ k ∈ q.sliceIds, ((applyPart p q s).slice k).epoch = (s.slice k).epoch + 1) := by
  intro q
  let s1 := (flushPart (s.part p) s).updPart p (fun x => { x with pclu0 := q.pclu0, pclu1 := q.pclu1, psl := q.psl })
  have hold := flushPart_config (s.part p) s
  have hnew := flushPart_config q s1
  have hpsl : (s1.part p).psl = v := by rw [State.part_updPart_self]
  obtain ⟨hkjobs, hkpsl, hkepoch⟩ := installKeys_config q.sliceIds (sliceIds_nodup q) (flushPart q s1)
  unfold applyPart
  dsimp only
  split
  · refine ⟨(hkpsl p).trans ((hnew.psl p).trans hpsl), hkjobs.trans (hnew.jobs.trans hold.jobs), fun _ _ k hk => ?_⟩
    exact (hkepoch k).trans (by rw [if_pos hk, hnew.epoch k]; exact congrArg (· + 1) (hold.epoch k))
  · next hstays =>
    have hno : q.enabled = true → (s.part p).enabled = false → ∀ P : Prop, P := fun hq hs => absurd (by simp [hq, hs]) hstays
    split
    · exact ⟨hpsl, hold.jobs, fun hq hs => hno hq hs _⟩
    · exact ⟨hpsl, hold.jobs, fun hq hs => hno hq hs _⟩

/-! ### A register of a block that takes its write, in READY -/

section Taken
variable {v : Word} {s t : State} (hs : s.boot.st = .ready)
include hs

theorem hostWrite_ioc {o : Nat} (h8 : o % 8 = 0) (ho : o < 0x10000 ∨ (0x20000 ≤ o ∧ o < 0x100000))
    (hw : writeIoc o (wholeWrite v) s = some (.ok t)) : hostWrite o 8 v s = t :=
  hostWrite_taken h8 ((writeAt_ioc _ s ho).trans hw) hs (invBusy_elsewhere s (.inl (by omega)))

theorem hostWrite_ioc_refused {o k : Nat} (h8 : o % 8 = 0) (ho : o < 0x10000 ∨ (0x20000 ≤ o ∧ o < 0x100000))
    (hw : writeIoc o (wholeWrite v) s = some (.error k)) : hostWrite o 8 v s = discard k 0 o s :=
  hostWrite_refused h8 ((writeAt_ioc _ s ho).trans hw) hs

theorem hostWrite_part {r : Nat} (p : PartId) (h8 : r % 8 = 0) (hr : r < 0x10000) (h0 : r ≠ 0)
    (hw : writePart p r (wholeWrite v) s = some (.ok t)) : hostWrite (partBlock p + r) 8 v s = t :=
  hostWrite_taken (by unfold partBlock; omega) ((writeAt_part p _ s hr).trans hw) hs
    (invBusy_elsewhere s (by unfold partBlock; omega))

theorem hostWrite_core {r : Nat} (c : CoreId) (h8 : r % 8 = 0) (hr : r < 0x10000)
    (hw : writeCore c r (wholeWrite v) s = some (.ok t)) : hostWrite (coreBlock c + r) 8 v s = t :=
  hostWrite_taken (by unfold coreBlock; omega) ((writeAt_core c _ s hr).trans hw) hs
    (invBusy_elsewhere s (by unfold coreBlock; omega))

theorem hostWrite_slice {r : Nat} (k : Fin 32) (h8 : r % 8 = 0) (hr : r < 0x10000)
    (hw : writeSlice k r (wholeWrite v) s = some (.ok t)) : hostWrite (sliceBlock k + r) 8 v s = t :=
  hostWrite_taken (by unfold sliceBlock; omega) ((writeAt_slice k _ s hr).trans hw) hs
    (invBusy_elsewhere s (by unfold sliceBlock; omega))

end Taken

/-! ### MBADDR and TIME (R371, R377) -/

theorem writeIoc_mbaddr (w : RegWrite) (s : State) : writeIoc 0x1000 w s =
    some (guardBits (span 12 36) w (.ok { s with boot := { s.boot with mbaddr := w.rw s.boot.mbaddr } })) := rfl

theorem writeIoc_time (v : Word) (s : State) : writeIoc 0x020 (wholeWrite v) s =
    some (limit (decide (s.time.toNat ≤ v.toNat)) { s with time := v, refillAt := s.refillAt + (v - s.time) }) := by
  conv_rhs => rw [← wholeWrite_rw v s.time]
  rfl

theorem mbaddr_taken {v : Word} {s : State} (hs : s.boot.st = .ready) (hv : v &&& ~~~span 12 36 = 0) :
    hostWrite 0x1000 8 v s = { s with boot := { s.boot with mbaddr := v } } := by
  refine hostWrite_ioc hs rfl (.inl (by decide)) ?_
  rw [writeIoc_mbaddr, guardBits_pass _ hv, wholeWrite_rw]

theorem mbaddr_reserved {v : Word} {s : State} (hs : s.boot.st = .ready) (hv : v &&& ~~~span 12 36 ≠ 0) :
    hostWrite 0x1000 8 v s = discard 1 0 0x1000 s := by
  refine hostWrite_ioc_refused hs rfl (.inl (by decide)) ?_
  rw [writeIoc_mbaddr, guardBits_reserved _ hv]

theorem mbaddr_early {s : State} (v : Word) (hs : s.boot.st ≠ .ready) : hostWrite 0x1000 8 v s = discard 2 0 0x1000 s :=
  hostWrite_early rfl ((writeAt_ioc _ s (.inl (by decide))).trans (writeIoc_mbaddr _ s)) hs (by decide) (by decide)

theorem time_set {v : Word} {s : State} (hs : s.boot.st = .ready) (hv : s.time.toNat ≤ v.toNat) :
    hostWrite 0x020 8 v s = { s with time := v, refillAt := s.refillAt + (v - s.time) } := by
  refine hostWrite_ioc hs rfl (.inl (by decide)) ?_
  rw [writeIoc_time, limit, if_pos (decide_eq_true hv)]

/-- TIME does not step back (R377). -/
theorem time_back {v : Word} {s : State} (hs : s.boot.st = .ready) (hv : v.toNat < s.time.toNat) :
    hostWrite 0x020 8 v s = discard 2 0 0x020 s := by
  refine hostWrite_ioc_refused hs rfl (.inl (by decide)) ?_
  rw [writeIoc_time, limit, decide_eq_false (Nat.not_le.mpr hv)]
  rfl

theorem time_early {s : State} (v : Word) (hs : s.boot.st ≠ .ready) : hostWrite 0x020 8 v s = discard 2 0 0x020 s :=
  hostWrite_early rfl ((writeAt_ioc _ s (.inl (by decide))).trans (writeIoc_time v s)) hs (by decide) (by decide)

/-- 0x2000 names no register of BAR 0. -/
theorem gap_discarded (v : Word) (s : State) : hostWrite 0x2000 8 v s = discard 3 0 0x2000 s :=
  hostWrite_unnamed rfl (writeAt_ioc _ s (.inl (by decide)))

/-! ### The VALID bits and LOST (R108, R248, R314, R347, R352, R373) -/

/-- A 1 to VALID of a register that defines the bit: the write does what the register makes of it. -/
theorem guardBits_valid {d : Word} {t s : State} (hd : validBit &&& ~~~d = 0) :
    guardBits d (wholeWrite validBit) (.ok (if (wholeWrite validBit).one 63 then t else s)) = .ok t := by
  have hbit : bit validBit.toNat 63 = true := by decide
  rw [guardBits_pass _ hd, wholeWrite_one, hbit, if_pos rfl]

theorem hprecValid_cleared {s : State} (hs : s.boot.st = .ready) :
    hostWrite 0x010 8 validBit s = { s with hprec := s.hprec &&& ~~~validBit, hpcnt := 0 } :=
  hostWrite_ioc hs rfl (.inl (by decide)) (congrArg some (guardBits_valid (d := span 60 4 ||| span 0 41) (by decide)))

theorem relrecValid_cleared {s : State} (hs : s.boot.st = .ready) :
    hostWrite 0x200 8 validBit s = { s with labels := { s.labels with relrec := 0 } } :=
  hostWrite_ioc hs rfl (.inl (by decide)) (congrArg some (guardBits_valid (d := span 63 1 ||| span 28 17 ||| span 0 12) (by decide)))

theorem wsrecValid_cleared {s : State} (k : Fin 32) (hs : s.boot.st = .ready) : hostWrite (sliceBlock k + 0x080) 8 validBit s =
    s.updSlice k (fun q => { q with wsrec := q.wsrec &&& ~~~validBit, wsovf := 0 }) :=
  hostWrite_slice hs k rfl (by decide)
    (congrArg some (guardBits_valid (d := span 63 1 ||| span 8 27 ||| span 4 3 ||| span 0 3) (by decide)))

theorem racepaValid_cleared {s : State} (c : CoreId) (hs : s.boot.st = .ready) : hostWrite (coreBlock c + 0x108) 8 validBit s =
    s.updCore c (fun k => { k with dbg := { k.dbg with racerec := 0, racepa := k.dbg.racepa &&& ~~~validBit } }) :=
  hostWrite_core hs c rfl (by decide) (congrArg some (guardBits_valid (d := span 63 1 ||| span 6 42 ||| span 0 2) (by decide)))

theorem writePart_ftrec (p : PartId) (w : RegWrite) (s : State) : writePart p 0x0A0 w s =
    some (guardBits (span 62 2 ||| span 16 28 ||| span 0 8) w
      (.ok (if w.one 63 then s.updPart p (fun q => { q with ftrec0 := 0, ftrec1 := 0, ftrec2 := 0 }) else s))) := by
  rw [apply_ite Except.ok]
  rfl

theorem ftrecValid_cleared {s : State} (p : PartId) (hs : s.boot.st = .ready) : hostWrite (partBlock p + 0x0A0) 8 validBit s =
    s.updPart p (fun q => { q with ftrec0 := 0, ftrec1 := 0, ftrec2 := 0 }) :=
  hostWrite_part hs p rfl (by decide) (by decide) ((writePart_ftrec p _ s).trans (congrArg some (guardBits_valid (by decide))))

theorem writeIoc_lost (p : PartId) (w : RegWrite) (s : State) : writeIoc (0x7FE00 + 8 * p.val) w s =
    some (guardBits (span 0 32) w (.ok (if w.low && decide ((w.val &&& w.mask &&& span 0 32) = 0) then
      s.updPart p (fun q => { q with lost := 0 }) else s))) := by
  have hp := p.isLt
  have hi : (0x7FE00 + 8 * p.val - 0x7FE00) / 8 = p.val := by omega
  unfold writeIoc
  dsimp only
  rw [if_neg (by omega), if_neg (by omega), if_pos (by omega), hi, Fin.ofNat_val_eq_self]

theorem lost_cleared {s : State} (p : PartId) (hs : s.boot.st = .ready) :
    hostWrite (0x7FE00 + 8 * p.val) 8 0 s = s.updPart p (fun q => { q with lost := 0 }) := by
  have hp := p.isLt
  refine hostWrite_ioc hs (by omega) (.inr (by omega)) ?_
  rw [writeIoc_lost, guardBits_pass _ (by decide), wholeWrite_low, wholeWrite_val, wholeWrite_covered]
  rfl

/-! ### PSL (R341) -/

theorem writeIoc_psl (p : PartId) (w : RegWrite) (s : State) : writeIoc (0x4010 + 0x20 * p.val) w s =
    some (guardBits (span 63 1 ||| span 8 3 ||| span 0 5) w (setPart p (fun q => { q with psl := w.rw q.psl }) s)) := by
  have hp := p.isLt
  have hi : (0x4010 + 0x20 * p.val - 0x4000) / 0x20 = p.val := by omega
  have hr : (0x4010 + 0x20 * p.val - 0x4000) % 0x20 = 0x10 := by omega
  unfold writeIoc
  dsimp only
  rw [if_pos (by omega), hi, hr, Fin.ofNat_val_eq_self]
  rfl

theorem psl_defined : span 63 1 ||| span 8 3 ||| span 0 5 = wd (2 ^ 63 + 7 * 2 ^ 8 + 31) := by decide

section Psl
variable {p : PartId} {v : Word} {s : State} (hs : s.boot.st = .ready) (hv : v &&& ~~~(wd (2 ^ 63 + 7 * 2 ^ 8 + 31)) = 0)
include hv

theorem writeIoc_psl_defined : writeIoc (0x4010 + 0x20 * p.val) (wholeWrite v) s =
    some (if partRefused s p { s.part p with psl := v } then .error 2 else .ok (applyPart p { s.part p with psl := v } s)) := by
  rw [writeIoc_psl, psl_defined, guardBits_pass _ hv]
  simp only [setPart, wholeWrite_rw]

include hs

theorem psl_taken (h : partRefused s p { s.part p with psl := v } = false) :
    hostWrite (0x4010 + 0x20 * p.val) 8 v s = applyPart p { s.part p with psl := v } s := by
  have hp := p.isLt
  refine hostWrite_ioc hs (by omega) (.inl (by omega)) ?_
  rw [writeIoc_psl_defined hv, h]
  rfl

theorem psl_refused (h : partRefused s p { s.part p with psl := v } = true) :
    hostWrite (0x4010 + 0x20 * p.val) 8 v s = discard 2 0 (0x4010 + 0x20 * p.val) s := by
  have hp := p.isLt
  refine hostWrite_ioc_refused hs (by omega) (.inl (by omega)) ?_
  rw [writeIoc_psl_defined hv, h]
  rfl

end Psl

/-! ### VDQ (R343) -/

theorem writePart_vdq (p : PartId) (vd : BitVec 3) (w : RegWrite) (s : State) : writePart p (0x100 + 0x20 * vd.toNat) w s =
    some (guardBits (span 63 1 ||| span 0 48) w (.ok (s.updPart p (fun q => { q with
      vdevs := wr q.vdevs (i3 vd) (judgeVdq (s.part p).savewc (w.rw (rd q.vdevs (i3 vd)).vdq) (rd q.vdevs (i3 vd))) })))) := by
  have hd := vd.isLt
  have hi : (0x100 + 0x20 * vd.toNat - 0x100) / 0x20 = (i3 vd).val := by simp only [i3]; omega
  have hr : (0x100 + 0x20 * vd.toNat - 0x100) % 0x20 = 0 := by omega
  unfold writePart
  dsimp only
  rw [if_pos (by omega), hi, hr, Fin.ofNat_val_eq_self]
  rfl

theorem vdq_defined : span 63 1 ||| span 0 48 = wd (2 ^ 63 + 2 ^ 48 - 1) := by decide

theorem vdq_judged {p : PartId} {vd : BitVec 3} {v : Word} {s : State} (hs : s.boot.st = .ready)
    (hv : v &&& ~~~(wd (2 ^ 63 + 2 ^ 48 - 1)) = 0) : hostWrite (partBlock p + 0x100 + 0x20 * vd.toNat) 8 v s =
    s.updPart p (fun q => { q with vdevs := wr q.vdevs (i3 vd) (judgeVdq (s.part p).savewc v (rd (s.part p).vdevs (i3 vd))) }) := by
  have hd := vd.isLt
  rw [Nat.add_assoc]
  refine hostWrite_part hs p (by omega) (by omega) (by omega) ?_
  rw [writePart_vdq, vdq_defined, guardBits_pass _ hv]
  simp only [wholeWrite_rw]
  rfl

section Judge
variable {w : Nat} {v : Word} (d : VDev)

/-- A device as VDQ writes it, before the judgement. -/
def withVdq (v : Word) (d : VDev) : VDev :=
  { d with weight := BitVec.ofNat 16 (bits v.toNat 32 16), qreq := BitVec.ofNat 32 (bits v.toNat 0 32) }

theorem judgeVdq_off (h : bit v.toNat 63 = false) : judgeVdq w v d = { withVdq v d with en := false, qeff := 0, qst := 0 } := by
  simp [judgeVdq, withVdq, h]

theorem judgeVdq_zero (h : bit v.toNat 63 = true) (hq : bits v.toNat 0 32 = 0) :
    judgeVdq w v d = { withVdq v d with en := false, qst := 1 } := by
  simp [judgeVdq, withVdq, h, hq]

theorem judgeVdq_short (h : bit v.toNat 63 = true) (hq : bits v.toNat 0 32 ≠ 0) (hw : bits v.toNat 0 32 < w) :
    judgeVdq w v d = { withVdq v d with en := true, qeff := BitVec.ofNat 32 (w + 10), qst := 2 } := by
  simp [judgeVdq, withVdq, h, hq, hw]

theorem judgeVdq_long (h : bit v.toNat 63 = true) (hq : bits v.toNat 0 32 ≠ 0) (hw : w ≤ bits v.toNat 0 32) :
    judgeVdq w v d = { withVdq v d with en := true, qeff := BitVec.ofNat 32 (bits v.toNat 0 32), qst := 0 } := by
  simp [judgeVdq, withVdq, h, hq, Nat.not_lt.mpr hw]

end Judge

/-! ### TINTR (R354) -/

theorem writeCore_tintr (c : CoreId) (w : RegWrite) (s : State) :
    writeCore c 0x180 w s = some (guardBits (span 0 9) w (writeTintr c w s)) := rfl

/-- A value of nine bits sets no reserved bit of TINTR. -/
theorem tintr_defined {v : Word} (h : v.toNat < 512) : v &&& ~~~(span 0 9) = 0 := by
  have hs : span 0 9 = (BitVec.allOnes 9).setWidth 64 := by decide
  rw [hs]
  ext i hi
  rw [BitVec.getElem_and, BitVec.getElem_not, BitVec.getElem_setWidth, BitVec.getLsbD_allOnes]
  by_cases h9 : i < 9
  · simp [h9]
  · have hv : v.toNat < 2 ^ i := lt_of_lt_of_le h (Nat.pow_le_pow_right (n := 2) (i := 9) (by decide) (by omega))
    have hbit : v[i] = false := Nat.testBit_lt_two_pow hv
    simp [hbit]

theorem code_setWidth (v : Word) : BitVec.ofNat 8 (bits v.toNat 0 8) = v.setWidth 8 := by
  apply BitVec.eq_of_toNat_eq
  simp [bits]

theorem tintr_set {c : CoreId} {v : Word} {s : State} (hs : s.boot.st = .ready) (hv : v.toNat < 512)
    (hj : (s.core c).job.isSome = true) (hp : bit v.toNat 8 = true → (s.core c).dbg.pend = false) :
    hostWrite (coreBlock c + 0x180) 8 v s = s.updCore c (fun k => { k with dbg := { k.dbg with
      pend := k.dbg.pend || bit v.toNat 8, code := v.setWidth 8, after := if bit v.toNat 8 then k.atraps.length else k.dbg.after } }) := by
  have hn : (s.core c).job.isNone = false := by simpa [Option.isSome_iff_ne_none] using hj
  have hfree : (bit v.toNat 8 && (s.core c).dbg.pend) = false := by
    cases hb : bit v.toNat 8
    · rfl
    · exact hp hb
  refine hostWrite_core hs c rfl (by decide) ?_
  rw [writeCore_tintr, guardBits_pass _ (tintr_defined hv), writeTintr]
  simp [hn, hfree, code_setWidth]

/-! ### The registers together (O56) -/

theorem vdq_outcome {p : PartId} {vd : BitVec 3} {v : Word} {s : State} {d : VDev} (hs : s.boot.st = .ready)
    (hv : v &&& ~~~(wd (2 ^ 63 + 2 ^ 48 - 1)) = 0) (hd : judgeVdq (s.part p).savewc v (rd (s.part p).vdevs (i3 vd)) = d) :
    exec (.vdq p vd v) s = .next (s.updPart p (fun q => { q with vdevs := wr q.vdevs (i3 vd) d })) :=
  congrArg Host.Outcome.next ((vdq_judged hs hv).trans (by rw [hd]))

/-- Settles O56: the law of an 8-byte write says whether a register sees it, each register's own law what it then does; that a PSL which
takes effect moves no job and only its slices' epochs is the frame of the write backs before it. -/
theorem hostRegisters : Obligations.HostRegisters := by
  unfold Obligations.HostRegisters
  refine ⟨fun s off size v => ?_, fun s hs => ?_, fun s p c vd v hs => ?_⟩
  · intro drop
    have hdrop : ∀ {w : State} (kind o : Nat), w = discard kind 0 o s → o < 2 ^ 39 → (.next w : Out) = .next (drop kind o) :=
      fun kind o hw h => congrArg _ (hw.trans (discard_bar0 kind o s h))
    refine ⟨fun h => ?_, fun hs => ⟨fun h => ?_, fun h => ?_, ?_, fun h => ?_, fun h => ?_⟩, fun hs => ⟨?_, ?_⟩⟩
    · exact hdrop _ _ (hostWrite_unaligned v s h) (lt_trans off.isLt (by decide))
    · exact congrArg Host.Outcome.next (mbaddr_taken hs h)
    · exact hdrop _ _ (mbaddr_reserved hs h) (by decide)
    · exact hdrop _ _ (gap_discarded v s) (by decide)
    · exact congrArg Host.Outcome.next (time_set hs h)
    · exact hdrop _ _ (time_back hs h) (by decide)
    · exact hdrop _ _ (mbaddr_early v hs) (by decide)
    · exact hdrop _ _ (time_early v hs) (by decide)
  · exact ⟨congrArg Host.Outcome.next (hprecValid_cleared hs), congrArg Host.Outcome.next (relrecValid_cleared hs),
      fun k => congrArg Host.Outcome.next (wsrecValid_cleared k hs), fun c => congrArg Host.Outcome.next (racepaValid_cleared c hs),
      fun p => congrArg Host.Outcome.next (ftrecValid_cleared p hs), fun p => congrArg Host.Outcome.next (lost_cleared p hs)⟩
  · intro q dev qreq base becomes
    refine ⟨fun hv => ⟨fun h => ?_, fun h => ?_⟩, fun hv => ⟨fun h => ?_, fun h hq => ?_, fun h hq hw => ?_, fun h hq hw => ?_⟩,
      fun hv hj hp => ?_⟩
    · exact ⟨_, congrArg Host.Outcome.next (psl_taken hs hv h), applyPart_psl p v s⟩
    · exact ⟨_, congrArg Host.Outcome.next (psl_refused hs hv h), rfl, rfl, rfl⟩
    · exact vdq_outcome hs hv (judgeVdq_off dev h)
    · exact vdq_outcome hs hv (judgeVdq_zero dev h hq)
    · exact vdq_outcome hs hv (judgeVdq_short dev h hq hw)
    · exact vdq_outcome hs hv (judgeVdq_long dev h hq hw)
    · exact congrArg Host.Outcome.next (tintr_set hs hv hj hp)

end Sys2Proof.Machine
end

section
/-! Meanings as steps of a state that can stop: what each building block of a meaning answers. -/

namespace Sys2Proof.Machine

/-! ### Meanings run on a state -/

section Meaning
variable {α β : Type}

@[simp] theorem M.pure_eq (a : α) (s : State) : (pure a : M α) s = .ok (a, s) := rfl

@[simp] theorem M.bind_eq (m : M α) (f : α → M β) (s : State) :
    (m >>= f) s = match m s with | .ok r => f r.1 r.2 | .error e => .error e := by
  simp only [bind, StateT.bind, Except.bind]
  cases m s <;> rfl

@[simp] theorem M.get_eq (s : State) : (get : M State) s = .ok (s, s) := rfl
@[simp] theorem M.modify_eq (f : State → State) (s : State) : (modify f : M PUnit) s = .ok ((), f s) := rfl
@[simp] theorem lift_eq (m : SM α) (s : State) : lift m s = .ok (m s) := rfl
@[simp] theorem getCore_eq (c : CoreId) (s : State) : getCore c s = .ok (s.core c, s) := rfl
@[simp] theorem modCore_eq (c : CoreId) (f : Core → Core) (s : State) : modCore c f s = .ok ((), s.updCore c f) := rfl
@[simp] theorem waitNow_eq (s : State) : (waitNow : M α) s = .error (.wait s) := rfl
@[simp] theorem trapNow_eq (code sub : Nat) (tval : Word) (s : State) : (trapNow code tval sub : M α) s = .error (.trap code sub tval s) := rfl

@[simp] theorem need_eq (b : Bool) (code : Nat) (tval : Word) (s : State) :
    need b code tval s = if b then .ok ((), s) else .error (.trap code 0 tval s) := by
  cases b <;> rfl

@[simp] theorem waitUnless_eq (b : Bool) (s : State) : waitUnless b s = if b then .ok ((), s) else .error (.wait s) := by
  cases b <;> rfl

@[simp] theorem M.ite_eq (p : Prop) [Decidable p] (m n : M α) (s : State) : (if p then m else n) s = if p then m s else n s := by
  split <;> rfl

end Meaning

theorem runPlain_eq (m : CoreId → M Unit) (s : State) (c : CoreId) (h : Ready s c .C) :
    runPlain m s = match m c s with
      | .ok r => .next (finishC c {} r.2)
      | .error (.trap code sub tval s1) => .next (trapC c code sub tval s1)
      | .error (.wait s1) => .next (parkC c s1) := by
  rw [runPlain, runC_eq _ s c h, M.bind_eq]
  cases m c s with
  | ok r => rfl
  | error e => cases e <;> rfl

/-- A meaning that comes to its end: the sequence advances. -/
theorem runPlain_ok {m : CoreId → M Unit} {s s1 : State} {c : CoreId} (h : Ready s c .C) (hm : m c s = .ok ((), s1)) :
    runPlain m s = .next (finishC c {} s1) := by
  rw [runPlain_eq m s c h, hm]

/-- A meaning that traps. -/
theorem runPlain_trap {m : CoreId → M Unit} {s s1 : State} {c : CoreId} {code sub : Nat} {tval : Word} (h : Ready s c .C)
    (hm : m c s = .error (.trap code sub tval s1)) : runPlain m s = .next (trapC c code sub tval s1) := by
  rw [runPlain_eq m s c h, hm]

/-- A meaning that waits. -/
theorem runPlain_wait {m : CoreId → M Unit} {s s1 : State} {c : CoreId} (h : Ready s c .C) (hm : m c s = .error (.wait s1)) :
    runPlain m s = .next (parkC c s1) := by
  rw [runPlain_eq m s c h, hm]

end Sys2Proof.Machine
end

section
/-! Scalar arithmetic (O13): the three forms of a scalar instruction, and the operations as the spec words them. -/

namespace Sys2Proof.Machine

/-! ### What a label join leaves (R306) -/

/-- Of the state, a label join changes the label table, the die caches, LBLCNT and reports alone. -/
def JoinOnly (s t : State) : Prop :=
  t = { s with out := t.out, labels := { s.labels with table := t.labels.table, caches := t.labels.caches, lblcnt := t.labels.lblcnt } } ∧
    OnlyJoinReports s t

theorem resolveJoin_joinOnly (p : PartId) (a b : Label) (s : State) : JoinOnly s (resolveJoin p a b s).2 := by
  have same : ∀ t : State, t.out = s.out → OnlyJoinReports s t := fun t h => ⟨0, by simp [h]⟩
  unfold resolveJoin
  dsimp only
  repeat' split
  all_goals first | exact ⟨rfl, same _ rfl⟩ | exact ⟨rfl, 1, rfl⟩

theorem joinAt_joinOnly (d : Fin 4) (p : PartId) (a b : Label) (s : State) : JoinOnly s (joinAt d p a b s).2 := by
  have same : ∀ t : State, t.out = s.out → OnlyJoinReports s t := fun t h => ⟨0, by simp [h]⟩
  unfold joinAt
  dsimp only
  repeat' split
  any_goals exact ⟨rfl, same _ rfl⟩
  generalize e : resolveJoin p (liveId s.labels a) (liveId s.labels b) s = r
  obtain ⟨hr, n, hn⟩ := resolveJoin_joinOnly p (liveId s.labels a) (liveId s.labels b) s
  rw [e] at hr hn
  refine ⟨?_, n, hn⟩
  rw [hr]

end Sys2Proof.Machine
end

section
namespace Sys2Proof.Machine

theorem JoinOnly.core {s t : State} (h : JoinOnly s t) (d : CoreId) : t.core d = s.core d := by rw [h.1]; rfl

/-! ### A scalar instruction that completes (R251, R252) -/

/-- What x[d] := v, then the next position, leaves of a core. -/
theorem finishC_setX_core (c : CoreId) (d : BitVec 6) (v : Word) (l : Label) (s : State) :
    let k := (finishC c {} (s.updCore c (fun k => k.setX d v l))).core c
    KeepsCore (s.core c) k ∧ FallsThrough (s.core c) k ∧ SetsX (s.core c) k d v l := by
  simp only [finishC_core, State.core_updCore_self]
  refine ⟨?_, ⟨?_, ?_⟩, ?_, ?_, fun r hr => ⟨?_, ?_⟩⟩
  · simp only [KeepsCore, Core.setX]
    split <;> rfl
  · simp [Seq.advance]
  · simp
  · exact Core.xval_setX_self _ _ _ _
  · exact Core.xlbl_setX_self _ _ _ _
  · exact Core.xval_setX_ne _ _ _ _ _ hr
  · exact Core.xlbl_setX_ne _ _ _ _ _ hr

theorem updCore_finishC_only (c : CoreId) (f : Core → Core) (s : State) : OnlyCore c s (finishC c {} (s.updCore c f)) :=
  ⟨rfl, fun d h => by rw [finishC_others c d _ _ h, State.core_updCore_ne _ _ _ _ h]⟩

theorem updCore_finishC_joins {c : CoreId} {s u : State} (hj : JoinOnly s u) (f : Core → Core) :
    OnlyCoreAndJoins c s (finishC c {} (u.updCore c f)) := by
  obtain ⟨heq, hout⟩ := hj
  refine ⟨?_, hout, fun d h => ?_⟩
  · have ht : finishC c {} (u.updCore c f) = { u with cores := (finishC c {} (u.updCore c f)).cores } := rfl
    rw [ht, heq]
  · rw [finishC_others c d _ _ h, State.core_updCore_ne _ _ _ _ h, JoinOnly.core ⟨heq, hout⟩]

section
variable {s : State} {c : CoreId} {d a b : BitVec 6} (hr : Ready s c .C)
include hr

/-- The two-register form: the value with the joined label (R251). -/
theorem oprRR_completes {i : Instr} {f : Word → Word → Word} {v : Word} (hp : NonePending (s.core c) [d, a, b])
    (hi : exec i s = oprRR f d a b s) (hv : f ((s.core c).xval a) ((s.core c).xval b) = v) :
    ∃ t, exec i s = .next t ∧ OnlyCoreAndJoins c s t ∧ KeepsCore (s.core c) (t.core c) ∧ FallsThrough (s.core c) (t.core c) ∧
      SetsX (s.core c) (t.core c) d v (joinAt (dieOf c) (s.core c).id.pid ((s.core c).xlbl a) ((s.core c).xlbl b) s).1 := by
  subst hv
  have hj := joinAt_joinOnly (dieOf c) (s.core c).id.pid ((s.core c).xlbl a) ((s.core c).xlbl b) s
  have hc := hj.core c
  have hd : (s.core c).pending d = false := hp d (by simp)
  have ha : (s.core c).pending a = false := hp a (by simp)
  have hb : (s.core c).pending b = false := hp b (by simp)
  have h := finishC_setX_core c d (f ((s.core c).xval a) ((s.core c).xval b))
    (joinAt (dieOf c) (s.core c).id.pid ((s.core c).xlbl a) ((s.core c).xlbl b) s).1
    (joinAt (dieOf c) (s.core c).id.pid ((s.core c).xlbl a) ((s.core c).xlbl b) s).2
  rw [hc] at h
  refine ⟨_, hi.trans (runPlain_ok hr ?_), updCore_finishC_joins hj _, h⟩
  simp only [M.bind_eq, needFree_eq, readXL_eq, writeX_eq, lift_eq, joinL, hd, ha, hb, hc, Bool.false_eq_true, if_false]

/-- The immediate and unary forms keep the source's label (R251). -/
theorem oprRI_completes {i : Instr} {f : Word → Word} {v : Word} (hp : NonePending (s.core c) [d, a])
    (hi : exec i s = oprRI f d a s) (hv : f ((s.core c).xval a) = v) : CompletesWith c i s d v ((s.core c).xlbl a) := by
  subst hv
  have hd : (s.core c).pending d = false := hp d (by simp)
  have ha : (s.core c).pending a = false := hp a (by simp)
  refine ⟨_, hi.trans (runPlain_ok hr ?_), updCore_finishC_only c _ s, finishC_setX_core c d _ _ s⟩
  simp only [M.bind_eq, needFree_eq, readXL_eq, writeX_eq, hd, ha, Bool.false_eq_true, if_false]

/-- `lih` and `adpc` give label 0 (R251). -/
theorem oprPc_completes {i : Instr} {f : Word → Word} {v : Word} (hd : (s.core c).pending d = false)
    (hi : exec i s = oprPc f d s) (hv : f (s.core c).seq.pc = v) : CompletesWith c i s d v 0 := by
  subst hv
  refine ⟨_, hi.trans (runPlain_ok hr ?_), updCore_finishC_only c _ s, finishC_setX_core c d _ _ s⟩
  simp only [M.bind_eq, needFree_eq, getCore_eq, writeX_eq, hd, Bool.false_eq_true, if_false]

/-! ### Stalls (R24, R250) -/

theorem oprRR_stalls {i : Instr} {f : Word → Word → Word} (hi : exec i s = oprRR f d a b s)
    (hp : (s.core c).pending d = true ∨ (s.core c).pending a = true ∨ (s.core c).pending b = true) :
    Stalls c i s := by
  refine hi.trans (runPlain_wait hr ?_)
  simp only [M.bind_eq, needFree_eq, readXL_eq]
  cases hd : (s.core c).pending d
  · cases ha : (s.core c).pending a
    · have hb : (s.core c).pending b = true := by simpa [hd, ha] using hp
      simp [ha, hb]
    · simp [ha]
  · simp

theorem oprRI_stalls {i : Instr} {f : Word → Word} (hi : exec i s = oprRI f d a s)
    (hp : (s.core c).pending d = true ∨ (s.core c).pending a = true) : Stalls c i s := by
  refine hi.trans (runPlain_wait hr ?_)
  simp only [M.bind_eq, needFree_eq, readXL_eq]
  cases hd : (s.core c).pending d
  · have ha : (s.core c).pending a = true := by simpa [hd] using hp
    simp [ha]
  · simp

theorem oprPc_stalls {i : Instr} {f : Word → Word} (hi : exec i s = oprPc f d s) (hd : (s.core c).pending d = true) : Stalls c i s := by
  refine hi.trans (runPlain_wait hr ?_)
  simp only [M.bind_eq, needFree_eq, hd, if_true]

end

/-! ### The operations as the spec words them (R57, R251) -/

theorem divS_eq (x y : Word) : divS x y = if y = 0 then BitVec.ofInt 64 (-1) else
    if x.toInt = -(2 ^ 63) ∧ y.toInt = -1 then x else BitVec.ofInt 64 (x.toInt.tdiv y.toInt) := by
  unfold divS word
  split
  · rfl
  · split
    · next h =>
      have hx : x = BitVec.ofInt 64 (-(2 ^ 63)) := by rw [← h.1, BitVec.ofInt_toInt]
      rw [h.1, h.2, hx]
      decide
    · rfl

theorem remS_eq (x y : Word) : remS x y = if y = 0 then x else
    if x.toInt = -(2 ^ 63) ∧ y.toInt = -1 then 0 else BitVec.ofInt 64 (x.toInt.tmod y.toInt) := by
  unfold remS word
  split
  · rfl
  · split
    · next h => rw [h.1, h.2]; decide
    · rfl

theorem slt64_eq (x y : Word) : boolWord (slt64 x y) = if x.toInt < y.toInt then 1 else 0 := by
  simp [boolWord, slt64, BitVec.slt]

theorem ult64_eq (x y : Word) : boolWord (ult64 x y) = if x.toNat < y.toNat then 1 else 0 := by
  simp [boolWord, ult64, BitVec.ult]

theorem minS_eq (x y : Word) : minS x y = if x.toInt ≤ y.toInt then x else y := by
  unfold minS slt64 BitVec.slt
  by_cases h : y.toInt < x.toInt
  · simp [h, Int.not_le.mpr h]
  · simp [h, Int.not_lt.mp h]

theorem maxS_eq (x y : Word) : maxS x y = if y.toInt ≤ x.toInt then x else y := by
  unfold maxS slt64 BitVec.slt
  by_cases h : x.toInt < y.toInt
  · simp [h, Int.not_le.mpr h]
  · simp [h, Int.not_lt.mp h]

theorem mul_eq (x y : Word) : x * y = BitVec.ofNat 64 (x.toNat * y.toNat) := by
  apply BitVec.eq_of_toNat_eq
  simp

theorem shl14_eq (h : Word) : h <<< 14 = h * 2 ^ 14 := by
  apply BitVec.eq_of_toNat_eq
  simp [BitVec.toNat_shiftLeft, Nat.shiftLeft_eq, BitVec.toNat_mul]

/-! Counts of bits. -/

theorem bit_eq_getLsbD (x : Word) (i : Nat) : bit x.toNat i = x.getLsbD i := by
  rw [bit, BitVec.getLsbD, Nat.testBit_eq_decide_div_mod_eq]

theorem popc64_eq (x : Word) : popc64 x = wd ((List.range 64).countP (fun k => x.getLsbD k)) := by
  unfold popc64 popcount
  rw [List.countP_eq_length_filter]
  simp only [bit_eq_getLsbD]

/-- The first one of a number's n low bits, or n. -/
theorem ctzFrom_eq (n v : Nat) : ctzFrom n v = ((List.range n).find? (fun k => v.testBit k)).getD n := by
  induction n generalizing v with
  | zero => rfl
  | succ n ih =>
    rw [ctzFrom, ih, List.range_succ_eq_map, List.find?_cons, List.find?_map]
    have hs : (fun k => v.testBit k) ∘ Nat.succ = fun k => (v / 2).testBit k := by
      funext k
      exact Nat.testBit_succ v k
    rw [hs]
    by_cases h : v % 2 = 1
    · simp [h, Nat.testBit_zero]
    · simp only [h, Nat.testBit_zero, decide_false, if_false]
      cases (List.range n).find? (fun k => (v / 2).testBit k) <;> simp [Nat.add_comm]

theorem ctz64_eq (x : Word) : ctz64 x = wd (((List.range 64).find? (fun k => x.getLsbD k)).getD 64) := by
  rw [ctz64, ctzFrom_eq]
  rfl

theorem clz64_eq (x : Word) : clz64 x = wd (((List.range 64).find? (fun k => x.getMsbD k)).getD 64) := by
  unfold clz64
  split
  · next h =>
    have hnone : (List.range 64).find? (fun k => x.getMsbD k) = none := by
      rw [List.find?_eq_none, h]
      simp
    rw [hnone]
    rfl
  · next h =>
    have h0 : x.toNat ≠ 0 := fun e => h (BitVec.eq_of_toNat_eq e)
    have hlt : x.toNat.log2 < 64 := (Nat.log2_lt h0).mpr x.isLt
    have hfind : (List.range 64).find? (fun k => x.getMsbD k) = some (63 - x.toNat.log2) := by
      rw [List.find?_range_eq_some]
      refine ⟨?_, by simp; omega, fun j hj => ?_⟩
      · have e : 64 - 1 - (63 - x.toNat.log2) = x.toNat.log2 := by omega
        simp only [BitVec.getMsbD, e, BitVec.getLsbD]
        simp [Nat.testBit_log2 h0]
        omega
      · have hb : x.toNat < 2 ^ (64 - 1 - j) := Nat.log2_lt h0 |>.mp (by omega)
        simp [BitVec.getMsbD, BitVec.getLsbD, Nat.testBit_lt_two_pow hb]
    rw [hfind]
    rfl

/-! ### The form of each instruction (R65, R251) -/

section
variable (d a b : BitVec 6) (i : BitVec 14) (n : BitVec 6) (h : BitVec 20) (s : State)

theorem exec_add : exec (.add d a b) s = oprRR (fun x y => x + y) d a b s := rfl
theorem exec_sub : exec (.sub d a b) s = oprRR (fun x y => x - y) d a b s := rfl
theorem exec_and : exec (.and d a b) s = oprRR (fun x y => x &&& y) d a b s := rfl
theorem exec_or : exec (.or d a b) s = oprRR (fun x y => x ||| y) d a b s := rfl
theorem exec_xor : exec (.xor d a b) s = oprRR (fun x y => x ^^^ y) d a b s := rfl
theorem exec_sll : exec (.sll d a b) s = oprRR (fun x y => x <<< shiftOf y) d a b s := rfl
theorem exec_srl : exec (.srl d a b) s = oprRR (fun x y => x >>> shiftOf y) d a b s := rfl
theorem exec_sra : exec (.sra d a b) s = oprRR (fun x y => sra64 x (shiftOf y)) d a b s := rfl
theorem exec_slt : exec (.slt d a b) s = oprRR (fun x y => boolWord (slt64 x y)) d a b s := rfl
theorem exec_sltu : exec (.sltu d a b) s = oprRR (fun x y => boolWord (ult64 x y)) d a b s := rfl
theorem exec_mul : exec (.mul d a b) s = oprRR (fun x y => x * y) d a b s := rfl
theorem exec_mulh : exec (.mulh d a b) s = oprRR mulHigh d a b s := rfl
theorem exec_mulhu : exec (.mulhu d a b) s = oprRR mulHighU d a b s := rfl
theorem exec_min : exec (.min d a b) s = oprRR minS d a b s := rfl
theorem exec_max : exec (.max d a b) s = oprRR maxS d a b s := rfl
theorem exec_div : exec (.div d a b) s = oprRR divS d a b s := rfl
theorem exec_divu : exec (.divu d a b) s = oprRR divU d a b s := rfl
theorem exec_rem : exec (.rem d a b) s = oprRR remS d a b s := rfl
theorem exec_remu : exec (.remu d a b) s = oprRR remU d a b s := rfl
theorem exec_addi : exec (.addi d a i) s = oprRI (fun x => x + sext64 i) d a s := rfl
theorem exec_andi : exec (.andi d a i) s = oprRI (fun x => x &&& sext64 i) d a s := rfl
theorem exec_ori : exec (.ori d a i) s = oprRI (fun x => x ||| sext64 i) d a s := rfl
theorem exec_xori : exec (.xori d a i) s = oprRI (fun x => x ^^^ sext64 i) d a s := rfl
theorem exec_slti : exec (.slti d a i) s = oprRI (fun x => boolWord (slt64 x (sext64 i))) d a s := rfl
theorem exec_slli : exec (.slli d a n) s = oprRI (fun x => x <<< n.toNat) d a s := rfl
theorem exec_srli : exec (.srli d a n) s = oprRI (fun x => x >>> n.toNat) d a s := rfl
theorem exec_srai : exec (.srai d a n) s = oprRI (fun x => sra64 x n.toNat) d a s := rfl
theorem exec_popc : exec (.popc d a) s = oprRI popc64 d a s := rfl
theorem exec_clz : exec (.clz d a) s = oprRI clz64 d a s := rfl
theorem exec_ctz : exec (.ctz d a) s = oprRI ctz64 d a s := rfl
theorem exec_lih : exec (.lih d h) s = oprPc (fun _ => sext64 h <<< 14) d s := rfl
theorem exec_adpc : exec (.adpc d h) s = oprPc (fun pc => pc + sext64 h <<< 14) d s := rfl

end

/-! ### The statement (O13) -/

/-- Settles O13: each instruction is one of the three forms, each form completes or stalls as a whole, and its operation is the one that the
spec words. -/
theorem scalarArithmetic : Obligations.ScalarArithmetic := by
  unfold Obligations.ScalarArithmetic
  refine ⟨fun s c d a b hr hp => ?_, fun s c d a b hr hp => ?_, fun s c d a i n h hr hp => ?_, fun s c d a b hr hp => ?_,
    fun s c d a i n hr hp => ?_, fun s c d h hr hp => ⟨oprPc_stalls hr (exec_lih d h s) hp, oprPc_stalls hr (exec_adpc d h s) hp⟩⟩
  · intro x y l
    simp only [List.forall_mem_cons]
    exact ⟨oprRR_completes hr hp (exec_add d a b s) rfl, oprRR_completes hr hp (exec_sub d a b s) rfl,
      oprRR_completes hr hp (exec_and d a b s) rfl, oprRR_completes hr hp (exec_or d a b s) rfl,
      oprRR_completes hr hp (exec_xor d a b s) rfl, oprRR_completes hr hp (exec_sll d a b s) rfl,
      oprRR_completes hr hp (exec_srl d a b s) rfl, oprRR_completes hr hp (exec_sra d a b s) rfl,
      oprRR_completes hr hp (exec_slt d a b s) (slt64_eq x y), oprRR_completes hr hp (exec_sltu d a b s) (ult64_eq x y),
      oprRR_completes hr hp (exec_mul d a b s) (mul_eq x y), oprRR_completes hr hp (exec_mulh d a b s) rfl,
      oprRR_completes hr hp (exec_mulhu d a b s) rfl, oprRR_completes hr hp (exec_min d a b s) (minS_eq x y),
      oprRR_completes hr hp (exec_max d a b s) (maxS_eq x y), List.forall_mem_nil _⟩
  · intro x y l ovf
    simp only [List.forall_mem_cons]
    exact ⟨oprRR_completes hr hp (exec_div d a b s) (divS_eq x y), oprRR_completes hr hp (exec_divu d a b s) rfl,
      oprRR_completes hr hp (exec_rem d a b s) (remS_eq x y), oprRR_completes hr hp (exec_remu d a b s) rfl, List.forall_mem_nil _⟩
  · intro x e
    have hd : (s.core c).pending d = false := hp d (by simp)
    refine ⟨?_, oprPc_completes hr hd (exec_lih d h s) (shl14_eq _), oprPc_completes hr hd (exec_adpc d h s) (by rw [sext64, shl14_eq])⟩
    simp only [List.forall_mem_cons]
    exact ⟨oprRI_completes hr hp (exec_addi d a i s) rfl, oprRI_completes hr hp (exec_andi d a i s) rfl,
      oprRI_completes hr hp (exec_ori d a i s) rfl, oprRI_completes hr hp (exec_xori d a i s) rfl,
      oprRI_completes hr hp (exec_slti d a i s) (slt64_eq x e), oprRI_completes hr hp (exec_slli d a n s) rfl,
      oprRI_completes hr hp (exec_srli d a n s) rfl, oprRI_completes hr hp (exec_srai d a n s) rfl,
      oprRI_completes hr hp (exec_popc d a s) (popc64_eq x), oprRI_completes hr hp (exec_clz d a s) (clz64_eq x),
      oprRI_completes hr hp (exec_ctz d a s) (ctz64_eq x), List.forall_mem_nil _⟩
  · simp only [List.forall_mem_cons]
    exact ⟨oprRR_stalls hr (exec_add d a b s) hp, oprRR_stalls hr (exec_sub d a b s) hp, oprRR_stalls hr (exec_and d a b s) hp,
      oprRR_stalls hr (exec_or d a b s) hp, oprRR_stalls hr (exec_xor d a b s) hp, oprRR_stalls hr (exec_sll d a b s) hp,
      oprRR_stalls hr (exec_srl d a b s) hp, oprRR_stalls hr (exec_sra d a b s) hp, oprRR_stalls hr (exec_slt d a b s) hp,
      oprRR_stalls hr (exec_sltu d a b s) hp, oprRR_stalls hr (exec_mul d a b s) hp, oprRR_stalls hr (exec_mulh d a b s) hp,
      oprRR_stalls hr (exec_mulhu d a b s) hp, oprRR_stalls hr (exec_min d a b s) hp, oprRR_stalls hr (exec_max d a b s) hp,
      oprRR_stalls hr (exec_div d a b s) hp, oprRR_stalls hr (exec_divu d a b s) hp, oprRR_stalls hr (exec_rem d a b s) hp,
      oprRR_stalls hr (exec_remu d a b s) hp, List.forall_mem_nil _⟩
  · simp only [List.forall_mem_cons]
    exact ⟨oprRI_stalls hr (exec_addi d a i s) hp, oprRI_stalls hr (exec_andi d a i s) hp, oprRI_stalls hr (exec_ori d a i s) hp,
      oprRI_stalls hr (exec_xori d a i s) hp, oprRI_stalls hr (exec_slti d a i s) hp, oprRI_stalls hr (exec_slli d a n s) hp,
      oprRI_stalls hr (exec_srli d a n s) hp, oprRI_stalls hr (exec_srai d a n s) hp, oprRI_stalls hr (exec_popc d a s) hp,
      oprRI_stalls hr (exec_clz d a s) hp, oprRI_stalls hr (exec_ctz d a s) hp, List.forall_mem_nil _⟩

end Sys2Proof.Machine
end

section
/-! `fork` (O24): what starting a strand leaves of a core, strand by strand. -/

namespace Sys2Proof.Machine

/-- A strand starts where the record's mask names it (R82). -/
def startIf (b : Bool) (st : Strand) (entry : Word) (k : Core) : Core := if b then startStrand st entry k else k

/-- What `fork` makes of a core: the mask's strands start, each at its entry (R16, R82). -/
def forkCore (m : Nat) (entry : Nat → Word) (k : Core) : Core :=
  startIf (bit m 2) .S (entry 8) (startIf (bit m 1) .X (entry 4) (startIf (bit m 0) .L (entry 0) { k with forked := true }))

section
variable (b : Bool) (st : Strand) (entry : Word) (k : Core)

@[simp] theorem startIf_false : startIf false st entry k = k := rfl

theorem startIf_x : (startIf b st entry k).x = k.x := by cases b <;> cases st <;> rfl
theorem startIf_xl : (startIf b st entry k).xl = k.xl := by cases b <;> cases st <;> rfl
theorem startIf_seq : (startIf b st entry k).seq = k.seq := by cases b <;> cases st <;> rfl
theorem startIf_forked : (startIf b st entry k).forked = k.forked := by cases b <;> cases st <;> rfl

/-- A strand that starts issues at its entry, its registers 0 (R16, R133). -/
theorem startIf_true (h : st ≠ .C) :
    (startIf true st entry k).st.get st = .issuing ∧ (startIf true st entry k).started.get st = true ∧
      (startIf true st entry k).eng st = { pc := entry, n := Vector.replicate 16 0, lc := Vector.replicate 4 0 } := by
  cases st with
  | C => exact absurd rfl h
  | L => exact ⟨rfl, rfl, rfl⟩
  | X => exact ⟨rfl, rfl, rfl⟩
  | S => exact ⟨rfl, rfl, rfl⟩

/-- Of another engine strand nothing differs. -/
theorem startIf_other {o : Strand} (ho : o ≠ st) (hC : o ≠ .C) (h : st ≠ .C) :
    (startIf b st entry k).st.get o = k.st.get o ∧ (startIf b st entry k).started.get o = k.started.get o ∧
      (startIf b st entry k).eng o = k.eng o := by
  cases b with
  | false => exact ⟨rfl, rfl, rfl⟩
  | true =>
    cases st <;> cases o <;> first | exact ⟨rfl, rfl, rfl⟩ | exact absurd rfl ho | exact absurd rfl hC | exact absurd rfl h

end

section
variable (m : Nat) (entry : Nat → Word) (k : Core)

theorem forkCore_frame : (forkCore m entry k).x = k.x ∧ (forkCore m entry k).xl = k.xl ∧ (forkCore m entry k).seq = k.seq ∧
    (forkCore m entry k).forked = true := by
  simp only [forkCore, startIf_x, startIf_xl, startIf_seq, startIf_forked, and_self]

/-- A strand that `fork` names has started; one that it does not name is as before. -/
def ForkedAs (b : Bool) (st : Strand) (pc : Word) (k k' : Core) : Prop :=
  (b = true → k'.st.get st = .issuing ∧ k'.started.get st = true ∧
    k'.eng st = { pc := pc, n := Vector.replicate 16 0, lc := Vector.replicate 4 0 }) ∧
  (b = false → k'.st.get st = k.st.get st ∧ k'.eng st = k.eng st)

theorem startIf_forkedAs (b : Bool) (st : Strand) (pc : Word) (h : st ≠ .C) : ForkedAs b st pc k (startIf b st pc k) :=
  ⟨fun e => e ▸ startIf_true st pc k h, fun e => by subst e; exact ⟨rfl, rfl⟩⟩

/-- The starts of other strands before and after leave a strand as it was started. -/
theorem ForkedAs.frame {b : Bool} {st : Strand} {pc : Word} {k0 k k' k1 : Core} (h : ForkedAs b st pc k k')
    (h0 : k.st.get st = k0.st.get st ∧ k.started.get st = k0.started.get st ∧ k.eng st = k0.eng st)
    (h1 : k1.st.get st = k'.st.get st ∧ k1.started.get st = k'.started.get st ∧ k1.eng st = k'.eng st) : ForkedAs b st pc k0 k1 := by
  obtain ⟨hst0, _, he0⟩ := h0
  obtain ⟨hst1, hs1, he1⟩ := h1
  rw [ForkedAs, hst1, hs1, he1, ← hst0, ← he0]
  exact h

theorem forkCore_L : ForkedAs (bit m 0) .L (entry 0) k (forkCore m entry k) := by
  have hX := startIf_other (bit m 1) .X (entry 4) (startIf (bit m 0) .L (entry 0) { k with forked := true }) (o := .L)
    (by decide) (by decide) (by decide)
  have hS := startIf_other (bit m 2) .S (entry 8) (startIf (bit m 1) .X (entry 4) (startIf (bit m 0) .L (entry 0) { k with forked := true }))
    (o := .L) (by decide) (by decide) (by decide)
  exact (startIf_forkedAs { k with forked := true } _ .L _ (by decide)).frame ⟨rfl, rfl, rfl⟩
    ⟨hS.1.trans hX.1, hS.2.1.trans hX.2.1, hS.2.2.trans hX.2.2⟩

theorem forkCore_X : ForkedAs (bit m 1) .X (entry 4) k (forkCore m entry k) := by
  have hL := startIf_other (bit m 0) .L (entry 0) { k with forked := true } (o := .X) (by decide) (by decide) (by decide)
  exact (startIf_forkedAs _ _ .X _ (by decide)).frame hL
    (startIf_other (bit m 2) .S (entry 8) _ (o := .X) (by decide) (by decide) (by decide))

theorem forkCore_S : ForkedAs (bit m 2) .S (entry 8) k (forkCore m entry k) := by
  have hL := startIf_other (bit m 0) .L (entry 0) { k with forked := true } (o := .S) (by decide) (by decide) (by decide)
  have hX := startIf_other (bit m 1) .X (entry 4) (startIf (bit m 0) .L (entry 0) { k with forked := true }) (o := .S)
    (by decide) (by decide) (by decide)
  exact (startIf_forkedAs _ _ .S _ (by decide)).frame ⟨hX.1.trans hL.1, hX.2.1.trans hL.2.1, hX.2.2.trans hL.2.2⟩ ⟨rfl, rfl, rfl⟩

end

section
variable {s s1 : State} {c : CoreId} {a : BitVec 6} (hr : Ready s c .C) (ha : (s.core c).pending a = false)
include hr ha

/-- A record that is read and names no strand beyond S (R82). -/
theorem exec_fork {g : Got} (hf : (s.core c).forked = false) (hal : ((s.core c).xval a).toNat % 16 = 0)
    (hg : strandRead c .C ((s.core c).xval a).toNat 16 false s = .ok (g, s1)) (hm : bytesAt g.bytes 12 4 < 8) :
    exec (.fork a) s = .next (finishC c {} (s1.updCore c
      (forkCore (bytesAt g.bytes 12 4) (fun off => (s.core c).xval a + 4 * word (sint 32 (bytesAt g.bytes off 4)))))) := by
  show execFork a s = _
  refine runPlain_ok hr ?_
  simp only [M.bind_eq, readX_eq, ha, getCore_eq, hf, hal, need_eq, hg, hm, modCore_eq, Bool.false_eq_true, if_false, Bool.not_false,
    decide_true, Bool.and_self, if_true]
  rfl

/-- A second `fork` of a task, and a record that is not aligned, are illegal (R16, R82). -/
theorem exec_fork_illegal (h : (s.core c).forked = true ∨ ((s.core c).xval a).toNat % 16 ≠ 0) : TrapsIllegal c (.fork a) s := by
  have hn : (!(s.core c).forked && decide (((s.core c).xval a).toNat % 16 = 0)) = false := by
    rcases h with h | h <;> simp [h]
  show execFork a s = _
  refine runPlain_trap hr ?_
  simp only [M.bind_eq, readX_eq, ha, getCore_eq, need_eq, hn, Bool.false_eq_true, if_false]

end

/-- Settles O24: `fork` is the start of three strands, one after the other, each of which leaves the others alone. -/
theorem fork : Obligations.Fork := by
  unfold Obligations.Fork
  intro s c a hr hp p
  have ha : (s.core c).pending a = false := hp a (by simp)
  refine ⟨?_, exec_fork_illegal hr ha⟩
  intro hf hal g s1 hg m hm
  refine ⟨_, exec_fork hr ha hf hal hg hm, updCore_finishC_only c _ s1, ?_⟩
  generalize hentry : (fun off => (s.core c).xval a + 4 * word (sint 32 (bytesAt g.bytes off 4))) = entry
  obtain ⟨hx, hxl, hseq, hfk⟩ := forkCore_frame (bytesAt g.bytes 12 4) entry (s1.core c)
  have strand : ∀ st, st ≠ .C → ∀ b pc, ForkedAs b st pc (s1.core c) (forkCore m entry (s1.core c)) →
      ForkedAs b st pc (s1.core c) ((finishC c {} (s1.updCore c (forkCore m entry))).core c) := by
    intro st hst b pc h
    rw [finishC_core, State.core_updCore_self]
    refine h.frame ⟨rfl, rfl, rfl⟩ ?_
    cases st with
    | C => exact absurd rfl hst
    | L => exact ⟨rfl, rfl, rfl⟩
    | X => exact ⟨rfl, rfl, rfl⟩
    | S => exact ⟨rfl, rfl, rfl⟩
  refine ⟨fun r => ?_, ?_, ?_, ?_⟩
  · rw [finishC_core, State.core_updCore_self]
    simp only [Core.xval, Core.xlbl, hx, hxl, and_self]
  · rw [finishC_core, State.core_updCore_self]
    exact hfk
  · rw [finishC_core, State.core_updCore_self, hseq]
    rfl
  · simp only [List.forall_mem_cons]
    subst hentry
    exact ⟨strand .L (by decide) _ _ (forkCore_L m _ _), strand .X (by decide) _ _ (forkCore_X m _ _),
      strand .S (by decide) _ _ (forkCore_S m _ _), List.forall_mem_nil _⟩

end Sys2Proof.Machine
end

section
/-! Rendezvous (O25): what tokens and pushes leave of a core, what an arrival answers, and what passing a rendezvous does to each strand. -/

namespace Sys2Proof.Machine

/-! ### Tokens and pushes (R270) -/

/-- Of a core, the token counts, the key writes not yet ordered and what is in flight may differ. -/
def TokensOnly (k k' : Core) : Prop := ∃ t w f, k' = { k with tok := t, keyw := w, flights := f }

theorem TokensOnly.refl (k : Core) : TokensOnly k k := ⟨k.tok, k.keyw, k.flights, rfl⟩

theorem TokensOnly.trans {k k' k'' : Core} (h : TokensOnly k k') (h' : TokensOnly k' k'') : TokensOnly k k'' := by
  obtain ⟨_, _, _, rfl⟩ := h
  obtain ⟨t, w, f, rfl⟩ := h'
  exact ⟨t, w, f, rfl⟩

theorem popToks_tokensOnly (qs : List Nat) (k : Core) : TokensOnly k (qs.foldl Core.popTok k) := by
  induction qs generalizing k with
  | nil => exact TokensOnly.refl k
  | cons q qs ih => exact TokensOnly.trans ⟨_, _, k.flights, rfl⟩ (ih (k.popTok q))

/-- The pushes of one finished instruction. -/
theorem givesOf_tokensOnly (blocked : List (Strand × Nat)) (st : Strand) (qs : List Nat) (a : List Nat × Core) :
    TokensOnly a.2 (qs.foldl (fun (a : List Nat × Core) q =>
      if blocked.contains (st, q) || decide (a.2.tokens q = 255) then (a.1 ++ [q], a.2) else (a.1, a.2.addTok q)) a).2 := by
  induction qs generalizing a with
  | nil => exact TokensOnly.refl _
  | cons q qs ih =>
    rw [List.foldl_cons]
    refine TokensOnly.trans ?_ (ih _)
    split
    · exact TokensOnly.refl _
    · exact ⟨_, a.2.keyw, a.2.flights, rfl⟩

theorem settleFrom_tokensOnly (fs : List Flight) (blocked : List (Strand × Nat)) (k : Core) : TokensOnly k (settleFrom fs blocked k) := by
  induction fs generalizing blocked k with
  | nil => exact TokensOnly.refl k
  | cons f fs ih =>
    have held : ∀ (k' : Core) (fl : List Flight), TokensOnly k k' → TokensOnly k { k' with flights := fl } := by
      rintro _ fl ⟨t, w, _, rfl⟩
      exact ⟨t, w, fl, rfl⟩
    unfold settleFrom
    split
    · have hg := fun b => (givesOf_tokensOnly blocked f.st f.gives ([], k)).trans (ih b _)
      dsimp only
      split
      · exact hg _
      · exact held _ _ (hg _)
    · exact held _ _ (ih _ _)

theorem settle_tokensOnly (k : Core) : TokensOnly k (settle k) := by
  obtain ⟨t, w, f, h⟩ := settleFrom_tokensOnly k.flights [] { k with flights := [] }
  exact ⟨t, w, f, h⟩

/-! ### Passing (R17, R18, R134) -/

/-- An engine strand that has arrived goes on to its next instruction, or retires at a final rendezvous. -/
def movedOn (fin : Bool) (st : Strand) (k : Core) : Core :=
  if (k.arr.get st).isSome then
    { k.setEng st { k.eng st with pc := (k.eng st).pc + 4 } with st := k.st.set st (if fin then .retired else .issuing) }
  else k

/-- The three engine strands go on. -/
def allMoved (fin : Bool) (k : Core) : Core := movedOn fin .S (movedOn fin .X (movedOn fin .L k))

/-- What a strand does as its rendezvous passes, with its tokens (R134). -/
def passStrand (fin : Bool) (st : Strand) (k : Core) : Core :=
  match k.arr.get st with
  | none => k
  | some a =>
    let e := k.eng st
    let k1 := (a.pops.foldl Core.popTok k).setEng st { e with pc := e.pc + 4 }
    { k1 with st := k1.st.set st (if fin then .retired else .issuing),
              flights := k1.flights ++ [{ st := st, rest := .push, gives := a.gives }] }

theorem passRendezvous_eq (c : CoreId) (fin : Bool) (s : State) :
    passRendezvous c fin s =
      let s1 := s.setCore c { settle (passStrand fin .S (passStrand fin .X (passStrand fin .L (s.core c)))) with
        arr := Four.all none, rdvDone := fin, rdvWait := fin }
      if fin then s1 else finishC c {} s1 := rfl

theorem movedOn_tokens {fin : Bool} {st : Strand} {k k' : Core} (h : TokensOnly k k') : TokensOnly (movedOn fin st k) (movedOn fin st k') := by
  obtain ⟨t, w, f, rfl⟩ := h
  refine ⟨t, w, f, ?_⟩
  unfold movedOn
  dsimp only
  split <;> cases st <;> rfl

theorem passStrand_moved (fin : Bool) (st : Strand) (k : Core) : TokensOnly (movedOn fin st k) (passStrand fin st k) := by
  unfold movedOn passStrand
  cases h : k.arr.get st with
  | none => exact TokensOnly.refl k
  | some a =>
    obtain ⟨t, w, f, hp⟩ := popToks_tokensOnly a.pops k
    simp only [Option.isSome_some, if_true, hp]
    cases st <;> exact ⟨t, w, _, rfl⟩

theorem passStrands_moved (fin : Bool) (k : Core) :
    TokensOnly (allMoved fin k) (settle (passStrand fin .S (passStrand fin .X (passStrand fin .L k)))) :=
  ((movedOn_tokens ((movedOn_tokens (passStrand_moved fin .L k)).trans (passStrand_moved fin .X _))).trans
    (passStrand_moved fin .S _)).trans (settle_tokensOnly _)

/-- What moving on leaves of a core beside the engine strands' states and positions. -/
structure SameButEngines (k k' : Core) : Prop where
  x : k'.x = k.x
  xl : k'.xl = k.xl
  seq : k'.seq = k.seq
  arr : k'.arr = k.arr
  c : k'.st.c = k.st.c

theorem SameButEngines.trans {k k' k'' : Core} (h : SameButEngines k k') (h' : SameButEngines k' k'') : SameButEngines k k'' :=
  ⟨h'.x.trans h.x, h'.xl.trans h.xl, h'.seq.trans h.seq, h'.arr.trans h.arr, h'.c.trans h.c⟩

theorem movedOn_same (fin : Bool) (st : Strand) (k : Core) (h : st ≠ .C) : SameButEngines k (movedOn fin st k) := by
  unfold movedOn
  split
  · cases st with
    | C => exact absurd rfl h
    | L => exact ⟨rfl, rfl, rfl, rfl, rfl⟩
    | X => exact ⟨rfl, rfl, rfl, rfl, rfl⟩
    | S => exact ⟨rfl, rfl, rfl, rfl, rfl⟩
  · exact ⟨rfl, rfl, rfl, rfl, rfl⟩

theorem allMoved_same (fin : Bool) (k : Core) : SameButEngines k (allMoved fin k) :=
  ((movedOn_same fin .L k (by decide)).trans (movedOn_same fin .X _ (by decide))).trans (movedOn_same fin .S _ (by decide))

/-- The state and the position of a strand after it has moved on. -/
def HasMoved (fin : Bool) (st : Strand) (k k' : Core) : Prop :=
  k'.st.get st = (if fin then .retired else .issuing) ∧ (k'.eng st).pc = (k.eng st).pc + 4

theorem movedOn_self {fin : Bool} {st : Strand} {k : Core} (h : st ≠ .C) (ha : (k.arr.get st).isSome = true) :
    HasMoved fin st k (movedOn fin st k) := by
  rw [movedOn, if_pos ha]
  cases st with
  | C => exact absurd rfl h
  | L => exact ⟨rfl, rfl⟩
  | X => exact ⟨rfl, rfl⟩
  | S => exact ⟨rfl, rfl⟩

theorem movedOn_other {fin : Bool} {st o : Strand} {k : Core} (h : o ≠ st) (ho : o ≠ .C) (hst : st ≠ .C) :
    (movedOn fin st k).st.get o = k.st.get o ∧ (movedOn fin st k).eng o = k.eng o := by
  unfold movedOn
  split
  · cases st <;> cases o <;> first | exact ⟨rfl, rfl⟩ | exact absurd rfl h | exact absurd rfl ho | exact absurd rfl hst
  · exact ⟨rfl, rfl⟩

theorem allMoved_strand (fin : Bool) (k : Core) (st : Strand) (h : st ≠ .C) (ha : (k.arr.get st).isSome = true) :
    HasMoved fin st k (allMoved fin k) := by
  have sL := movedOn_same fin .L k (by decide)
  have sX := movedOn_same fin .X (movedOn fin .L k) (by decide)
  unfold allMoved HasMoved
  cases st with
  | C => exact absurd rfl h
  | L =>
    obtain ⟨h1, h2⟩ := movedOn_self (fin := fin) (by decide) ha
    rw [(movedOn_other (by decide) (by decide) (by decide)).1, (movedOn_other (by decide) (by decide) (by decide)).1,
      (movedOn_other (by decide) (by decide) (by decide)).2, (movedOn_other (by decide) (by decide) (by decide)).2]
    exact ⟨h1, h2⟩
  | X =>
    obtain ⟨h1, h2⟩ := movedOn_self (fin := fin) (st := .X) (k := movedOn fin .L k) (by decide) (by rw [sL.arr]; exact ha)
    rw [(movedOn_other (by decide) (by decide) (by decide)).1, (movedOn_other (by decide) (by decide) (by decide)).2, h1, h2,
      (movedOn_other (by decide) (by decide) (by decide)).2]
    exact ⟨rfl, rfl⟩
  | S =>
    obtain ⟨h1, h2⟩ := movedOn_self (fin := fin) (st := .S) (k := movedOn fin .X (movedOn fin .L k)) (by decide)
      (by rw [sX.arr, sL.arr]; exact ha)
    rw [h1, h2, (movedOn_other (by decide) (by decide) (by decide)).2, (movedOn_other (by decide) (by decide) (by decide)).2]
    exact ⟨rfl, rfl⟩

/-- What a completed rendezvous leaves of its core (R17, R18). -/
structure Passed (fin : Bool) (k k' : Core) : Prop where
  keepsX : KeepsX k k'
  arr : k'.arr = { c := none, l := none, x := none, s := none }
  done : k'.rdvDone = fin
  wait : k'.rdvWait = fin
  strand : ∀ st, st ≠ .C → (k.arr.get st).isSome = true → HasMoved fin st k k'
  goesOn : fin = false → FallsThrough { k with st := k'.st } k' ∧ k'.st.c = .issuing
  stays : fin = true → k'.seq = k.seq ∧ k'.st.c = k.st.c

theorem passRendezvous_passed (c : CoreId) (fin : Bool) (s : State) : Passed fin (s.core c) ((passRendezvous c fin s).core c) := by
  obtain ⟨t, w, f, h⟩ := passStrands_moved fin (s.core c)
  have same := allMoved_same fin (s.core c)
  have strand := allMoved_strand fin (s.core c)
  rw [passRendezvous_eq, h]
  dsimp only
  generalize allMoved fin (s.core c) = m at same strand
  have self : ∀ k, (s.setCore c k).core c = k := fun k => rd_wr_self _ _ _
  cases fin with
  | true =>
    rw [if_pos rfl, self]
    refine ⟨fun r => ?_, rfl, rfl, rfl, fun st hst ha => ?_, fun e => (by cases e), fun _ => ⟨same.seq, same.c⟩⟩
    · simp only [Core.xval, Core.xlbl, same.x, same.xl, and_self]
    · have hm := strand st hst ha
      cases st <;> exact hm
  | false =>
    rw [if_neg (by decide), finishC_core, self]
    refine ⟨fun r => ?_, rfl, rfl, rfl, fun st hst ha => ?_, fun _ => ⟨⟨?_, rfl⟩, rfl⟩, fun e => (by cases e)⟩
    · simp only [Core.xval, Core.xlbl, same.x, same.xl, and_self]
    · have hm := strand st hst ha
      cases st with
      | C => exact absurd rfl hst
      | L => exact hm
      | X => exact hm
      | S => exact hm
    · dsimp only
      rw [same.seq]
      rfl

theorem passRendezvous_only (c : CoreId) (fin : Bool) (s : State) : OnlyCore c s (passRendezvous c fin s) := by
  rw [passRendezvous_eq]
  cases fin with
  | true => exact ⟨rfl, fun d h => by simp [State.setCore, State.core, h]⟩
  | false => exact ⟨rfl, fun d h => by simp [finishC, State.updCore, State.setCore, State.core, h]⟩

end Sys2Proof.Machine
end

section
/-! Rendezvous (O25): arrivals, and the instructions that make them. -/

namespace Sys2Proof.Machine

/-! ### An arrival (R17, R273) -/

/-- The order number of the next arrival. -/
def Core.nextArrival (k : Core) : Nat := (allStrands.filterMap (fun st => k.arr.get st)).foldl (fun m x => max m (x.order + 1)) 0

/-- The core once a strand has arrived. -/
def Core.withArrival (st : Strand) (a : Arrival) (k : Core) : Core :=
  { k with arr := k.arr.set st (some { a with order := k.nextArrival }) }

/-- Every strand that takes part has arrived. -/
def Core.allIn (k : Core) : Bool := allStrands.all (fun s => !k.takesPart s || (k.arr.get s).isSome)

/-- An arrival has the identifier and the kind of the first. -/
def Core.Agrees (k : Core) (a : Arrival) : Prop := ∀ f, k.firstArrival = some f → f.id = a.id ∧ f.fin = a.fin

section
variable {c : CoreId} {st : Strand} {a : Arrival} {w : Word} {s : State} (hn : (s.core c).arr.get st = none)
include hn

theorem arrive_agrees (ha : (s.core c).Agrees a) :
    arrive c st a w s =
      if ((s.core c).withArrival st a).allIn then .ok (true, passRendezvous c a.fin (s.updCore c (Core.withArrival st a)))
      else .ok (false, s.updCore c (Core.withArrival st a)) := by
  unfold arrive
  simp only [M.bind_eq, getCore_eq, hn, Option.isSome_none, Bool.false_eq_true, if_false]
  cases hf : (s.core c).firstArrival with
  | none =>
    simp only [M.pure_eq, modCore_eq, State.core_updCore_self, M.ite_eq, M.bind_eq, M.modify_eq]
    rfl
  | some f =>
    obtain ⟨hid, hfin⟩ := ha f hf
    simp only [need_eq, hid, hfin, beq_self_eq_true, Bool.and_self, if_true, M.pure_eq, modCore_eq, State.core_updCore_self, M.ite_eq,
      M.bind_eq, M.modify_eq]
    rfl

theorem arrive_differs {f : Arrival} (hf : (s.core c).firstArrival = some f) (hd : f.id ≠ a.id ∨ f.fin ≠ a.fin) :
    arrive c st a w s = .error (.trap cILLEGAL 0 w s) := by
  have hne : (f.id == a.id && f.fin == a.fin) = false := by
    rcases hd with h | h <;> simp [h]
  unfold arrive
  simp only [M.bind_eq, getCore_eq, hn, Option.isSome_none, Bool.false_eq_true, if_false, hf, need_eq, hne]

end

/-- The first arrival is one of the four strands'. -/
theorem firstArrival_mem {k : Core} {f : Arrival} (h : k.firstArrival = some f) : ∃ st, k.arr.get st = some f := by
  have key : ∀ (l : List Arrival) (b : Option Arrival), l.foldl (fun b a => match b with
      | none => some a
      | some x => if a.order < x.order then some a else some x) b = some f → f ∈ l ∨ b = some f := by
    intro l
    induction l with
    | nil => exact fun b e => .inr e
    | cons x l ih =>
      intro b e
      rcases ih _ e with hm | hb
      · exact .inl (List.mem_cons_of_mem x hm)
      · cases b with
        | none => exact .inl (by simp at hb; simp [hb])
        | some y =>
          dsimp only at hb
          split at hb
          · exact .inl (by simp at hb; simp [hb])
          · exact .inr hb
  rcases key _ _ h with hm | hb
  · obtain ⟨st, -, hst⟩ := List.mem_filterMap.1 hm
    exact ⟨st, hst⟩
  · cases hb

theorem allIn_withArrival {k : Core} {st : Strand} {a : Arrival} :
    (k.withArrival st a).allIn = true ↔ ∀ o, o ≠ st → k.takesPart o = true → (k.arr.get o).isSome = true := by
  have hall : (k.withArrival st a).allIn = true ↔ ∀ o, k.takesPart o = true → (((k.withArrival st a).arr).get o).isSome = true := by
    rw [Core.allIn, List.all_eq_true]
    refine ⟨fun h o ho => ?_, fun h o _ => ?_⟩
    · have hm : o ∈ allStrands := by cases o <;> simp [allStrands]
      have ho' : (k.withArrival st a).takesPart o = true := ho
      have := h o hm
      rw [ho'] at this
      simpa using this
    · cases ho : k.takesPart o with
      | false => simp [show (k.withArrival st a).takesPart o = false from ho]
      | true => simp [h o ho]
  rw [hall]
  refine ⟨fun h o hne ho => ?_, fun h o ho => ?_⟩
  · have := h o ho
    rwa [Core.withArrival, Four.get_set_ne _ _ _ _ hne] at this
  · by_cases hne : o = st
    · rw [hne, Core.withArrival, Four.get_set_self]
      rfl
    · rw [Core.withArrival, Four.get_set_ne _ _ _ _ hne]
      exact h o hne ho

/-! ### `rdv` and `rdv.end` (R17, R18, R284) -/

section
variable {c : CoreId} {s s1 : State} {k : BitVec 8} {fin : Bool} {i : Instr} (hr : Ready s c .C)
include hr

/-- The arrival that the C strand makes. -/
def arrivalC (k : BitVec 8) (fin : Bool) : Arrival := { id := k, fin := fin, order := 0, pops := [], gives := [] }

theorem rdvC_arrives {done : Bool} (hd : (s.core c).rdvDone = false)
    (ha : arrive c .C (arrivalC k fin) (wordOf i) s = .ok (done, s1)) :
    rdvC k fin i s = .next (if done && !fin then s1 else parkC c s1) := by
  rw [rdvC, runRaw_eq _ s c hr]
  simp only [M.bind_eq, getCore_eq, M.ite_eq, hd, Bool.false_eq_true, if_false]
  rw [arrivalC] at ha
  rw [ha]
  cases done <;> cases fin <;> rfl

theorem rdvC_differs (hd : (s.core c).rdvDone = false) (ha : arrive c .C (arrivalC k fin) (wordOf i) s = .error (.trap cILLEGAL 0 (wordOf i) s)) :
    rdvC k fin i s = .next (trapC c cILLEGAL 0 (wordOf i) s) := by
  rw [rdvC, runRaw_eq _ s c hr]
  simp only [M.bind_eq, getCore_eq, M.ite_eq, hd, Bool.false_eq_true, if_false]
  rw [arrivalC] at ha
  rw [ha]

/-- After the final rendezvous `rdv.end` goes on with its wait (R284). -/
theorem rdvC_again (hd : (s.core c).rdvDone = true) :
    rdvC k fin i s = .next (s.updCore c (fun k => { k with rdvWait := fin, st := { k.st with c := .waiting } })) := by
  rw [rdvC, runRaw_eq _ s c hr]
  simp only [M.bind_eq, getCore_eq, M.ite_eq, hd, if_true, modCore_eq, waitNow_eq, parkC, State.updCore_updCore]

end

/-! ### `e.rdv` and `e.rdv.end` (R17, R134) -/

section
variable {c : CoreId} {s s1 : State} {st : Strand} {w g : BitVec 3} {k : BitVec 8} {fin : Bool} {i : Instr}

/-- The arrival that an engine strand makes. -/
def arrivalE (st : Strand) (w g : BitVec 3) (k : BitVec 8) (fin : Bool) : Arrival :=
  { id := k, fin := fin, order := 0, pops := waitCodes st w, gives := giveCodes st g }

theorem ofStrand_E (h : st ≠ .C) : Tbl.E.ofStrand st = true := by
  cases st with
  | C => exact absurd rfl h
  | L => rfl
  | X => rfl
  | S => rfl

/-- An engine strand may arrive; before what it has started has had its effect, it waits (R237). -/
theorem rdvE_eq (hC : st ≠ .C) (hs : Startable s c st w g) (hn : (s.core c).arr.get st = none) :
    rdvE w g k fin i s = if (s.core c).unfinished st then .next (parkE c st s) else
      match arrive c st (arrivalE st w g k fin) (wordOf i) s with
      | .ok (true, s1) => .next s1
      | .ok (false, s1) => .next (parkE c st s1)
      | .error (.trap code sub tval s1) => .next (trapEng c st code sub tval s1)
      | .error (.wait s1) => .next (parkE c st s1) := by
  obtain ⟨⟨hcur, hmay⟩, hmasks, htok⟩ := hs
  have hall : (waitCodes st w).all (fun q => decide (0 < (s.core c).tokens q)) = true := by
    rw [List.all_eq_true]
    exact fun q hq => decide_eq_true (htok q hq)
  unfold rdvE
  rw [hcur]
  dsimp only
  simp only [ofStrand_E hC, hmay, hmasks, hn, hall, Bool.and_self, Bool.not_true, Option.isSome_none, Bool.or_false, Bool.false_or,
    if_true, if_false, Bool.false_eq_true]
  split <;> rfl

end

end Sys2Proof.Machine
end

section
/-! Rendezvous (O25): the outcomes of `rdv`, `rdv.end`, `e.rdv` and `e.rdv.end`, and TASK_RETIRE. -/

namespace Sys2Proof.Machine

theorem updCore_only (c : CoreId) (f : Core → Core) (s : State) : OnlyCore c s (s.updCore c f) := ⟨rfl, fun d h => by simp [h]⟩

theorem OnlyCore.trans {c : CoreId} {s t u : State} (h : OnlyCore c s t) (h' : OnlyCore c t u) : OnlyCore c s u := by
  refine ⟨?_, fun d hd => (h'.2 d hd).trans (h.2 d hd)⟩
  have ht := h.1
  have hu := h'.1
  unfold OnlyCores at *
  rw [hu, ht]

theorem takesPart_iff {k : Core} {st : Strand} : k.takesPart st = true ↔ st = .C ∨ k.started.get st = true := by
  simp [Core.takesPart]

theorem mem_engines {st : Strand} : st ∈ [Strand.L, .X, .S] ↔ st ≠ .C := by cases st <;> simp

theorem mem_others {st o : Strand} : o ∈ [Strand.L, .X, .S].filter (fun o => o != st) ↔ o ≠ .C ∧ o ≠ st := by
  rw [List.mem_filter, mem_engines, bne_iff_ne]

/-- What passing leaves, told of the core before the last arrival. -/
theorem Passed.of_withArrival {fin : Bool} {st : Strand} {a : Arrival} {k k' : Core} (h : Passed fin (k.withArrival st a) k') :
    KeepsX k k' ∧ (∀ o, o ≠ .C → o = st ∨ (k.arr.get o).isSome = true → HasMoved fin o k k') ∧
      (fin = false → FallsThrough { k with st := k'.st } k' ∧ k'.st.c = .issuing) ∧
      (fin = true → k'.seq = k.seq ∧ k'.st.c = k.st.c) := by
  refine ⟨h.keepsX, fun o hC ho => ?_, h.goesOn, h.stays⟩
  have hm : HasMoved fin o (k.withArrival st a) k' := by
    refine h.strand o hC ?_
    by_cases e : o = st
    · rw [e, Core.withArrival, Four.get_set_self]
      rfl
    · rw [Core.withArrival, Four.get_set_ne _ _ _ _ e]
      exact ho.resolve_left e
  cases o with
  | C => exact absurd rfl hC
  | L => exact hm
  | X => exact hm
  | S => exact hm

/-! ### The C strand's arrival (R17, R18) -/

section
variable {s : State} {c : CoreId} {k : BitVec 8} {i : Instr} {fin : Bool} (hr : Ready s c .C) (hd : (s.core c).rdvDone = false)
  (hn : (s.core c).arr.c = none) (hi : exec i s = rdvC k fin i s)
include hr hd hn hi

/-- Before the last arrival the C strand waits. -/
theorem rdvC_waits (hmiss : ∃ st ∈ [Strand.L, .X, .S], (s.core c).started.get st = true ∧ (s.core c).arr.get st = none)
    (ha : (s.core c).Agrees (arrivalC k fin)) :
    ∃ t a, exec i s = .next t ∧ OnlyCore c s t ∧ (t.core c).st.c = .waiting ∧ (t.core c).arr = { (s.core c).arr with c := some a } ∧
      a.id = k ∧ a.fin = fin ∧ (t.core c).seq = (s.core c).seq ∧ KeepsX (s.core c) (t.core c) ∧ (t.core c).tok = (s.core c).tok ∧
      ∀ st ∈ [Strand.L, .X, .S], (t.core c).eng st = (s.core c).eng st ∧ (t.core c).st.get st = (s.core c).st.get st := by
  have hin : ((s.core c).withArrival .C (arrivalC k fin)).allIn = false := by
    rw [Bool.eq_false_iff, Ne, allIn_withArrival]
    intro h
    obtain ⟨st, hst, hs, hnone⟩ := hmiss
    have := h st (mem_engines.1 hst) (takesPart_iff.2 (.inr hs))
    rw [hnone] at this
    cases this
  have harr := arrive_agrees (st := .C) (w := wordOf i) hn ha
  rw [hin] at harr
  refine ⟨_, { arrivalC k fin with order := (s.core c).nextArrival }, hi.trans (rdvC_arrives hr hd harr), ?_⟩
  simp only [Bool.false_and, Bool.false_eq_true, if_false]
  refine ⟨(updCore_only c _ s).trans (parkC_only c _), ?_⟩
  rw [parkC_core, State.core_updCore_self]
  refine ⟨rfl, rfl, rfl, rfl, rfl, fun r => ⟨rfl, rfl⟩, rfl, fun st hst => ?_⟩
  cases st with
  | C => simp at hst
  | L => exact ⟨rfl, rfl⟩
  | X => exact ⟨rfl, rfl⟩
  | S => exact ⟨rfl, rfl⟩

/-- An arrival of another identifier or kind is illegal. -/
theorem rdvC_illegal {a : Arrival} (hf : (s.core c).firstArrival = some a) (hne : a.id ≠ k ∨ a.fin ≠ fin) : TrapsIllegal c i s :=
  hi.trans (rdvC_differs hr hd (arrive_differs (a := arrivalC k fin) hn hf hne))

/-- With every other strand there the rendezvous passes. -/
theorem arrive_passes_C (hin : ∀ st ∈ [Strand.L, .X, .S], (s.core c).started.get st = true → ((s.core c).arr.get st).isSome = true)
    (hsame : ∀ st ∈ [Strand.L, .X, .S], ∀ a, (s.core c).arr.get st = some a → a.id = k ∧ a.fin = fin) :
    exec i s = .next (if !fin then passRendezvous c fin (s.updCore c (Core.withArrival .C (arrivalC k fin)))
      else parkC c (passRendezvous c fin (s.updCore c (Core.withArrival .C (arrivalC k fin))))) := by
  have ha : (s.core c).Agrees (arrivalC k fin) := by
    intro f hf
    obtain ⟨st, hst⟩ := firstArrival_mem hf
    by_cases hC : st = .C
    · subst hC
      exact absurd (hn.symm.trans hst) (by simp)
    · exact hsame st (mem_engines.2 hC) f hst
  have hall : ((s.core c).withArrival .C (arrivalC k fin)).allIn = true := by
    rw [allIn_withArrival]
    exact fun o ho hp => hin o (mem_engines.2 ho) ((takesPart_iff.1 hp).resolve_left ho)
  have harr := arrive_agrees (st := .C) (w := wordOf i) hn ha
  rw [hall, if_pos rfl] at harr
  exact hi.trans (rdvC_arrives hr hd harr)

end

/-! ### An engine strand's arrival (R17, R134) -/

section
variable {s : State} {c : CoreId} {st : Strand} {w g : BitVec 3} {k : BitVec 8} {i : Instr} {fin : Bool} (hC : st ≠ .C)
  (hs : Startable s c st w g) (hn : (s.core c).arr.get st = none) (hi : exec i s = rdvE w g k fin i s)
include hC hs hn hi

theorem rdvE_unfinished (hu : (s.core c).unfinished st = true) :
    exec i s = .next (s.updCore c (fun k => { k with st := k.st.set st .waiting })) := by
  rw [hi, rdvE_eq hC hs hn, hu, if_pos rfl]
  rfl

theorem rdvE_illegal (hu : (s.core c).unfinished st = false) {a : Arrival} (hf : (s.core c).firstArrival = some a)
    (hne : a.id ≠ k ∨ a.fin ≠ fin) : EngineTraps c st i cILLEGAL (wordOf i) s := by
  rw [EngineTraps, hi, rdvE_eq hC hs hn, hu, if_neg (by decide), arrive_differs (a := arrivalE st w g k fin) hn hf hne]

/-- The last arrival passes the rendezvous. -/
theorem rdvE_passes (hu : (s.core c).unfinished st = false)
    (hin : ∀ o, o ≠ st → (s.core c).takesPart o = true → ((s.core c).arr.get o).isSome = true)
    (hsame : ∀ o, o ≠ st → ∀ a, (s.core c).arr.get o = some a → a.id = k ∧ a.fin = fin) :
    exec i s = .next (passRendezvous c fin (s.updCore c (Core.withArrival st (arrivalE st w g k fin)))) := by
  have ha : (s.core c).Agrees (arrivalE st w g k fin) := by
    intro f hf
    obtain ⟨o, ho⟩ := firstArrival_mem hf
    by_cases he : o = st
    · subst he
      exact absurd (hn.symm.trans ho) (by simp)
    · exact hsame o he f ho
  rw [hi, rdvE_eq hC hs hn, hu, if_neg (by decide), arrive_agrees hn ha, if_pos (allIn_withArrival.2 hin)]
  rfl

/-- An earlier arrival waits with its tokens unpopped. -/
theorem rdvE_waits (hu : (s.core c).unfinished st = false)
    (hmiss : ∃ o, o ≠ st ∧ (s.core c).takesPart o = true ∧ (s.core c).arr.get o = none)
    (ha : (s.core c).Agrees (arrivalE st w g k fin)) :
    ∃ t a, exec i s = .next t ∧ OnlyCore c s t ∧ (t.core c).st.get st = .waiting ∧ (t.core c).arr.get st = some a ∧ a.id = k ∧
      a.fin = fin ∧ (t.core c).eng st = (s.core c).eng st ∧ (t.core c).tok = (s.core c).tok ∧ KeepsX (s.core c) (t.core c) := by
  have hall : ((s.core c).withArrival st (arrivalE st w g k fin)).allIn = false := by
    rw [Bool.eq_false_iff, Ne, allIn_withArrival]
    intro h
    obtain ⟨o, hne, hp, hnone⟩ := hmiss
    have := h o hne hp
    rw [hnone] at this
    cases this
  have he : exec i s = .next (parkE c st (s.updCore c (Core.withArrival st (arrivalE st w g k fin)))) := by
    rw [hi, rdvE_eq hC hs hn, hu, if_neg (by decide), arrive_agrees hn ha, hall]
    rfl
  refine ⟨_, { arrivalE st w g k fin with order := (s.core c).nextArrival }, he, (updCore_only c _ s).trans (parkE_only c st _), ?_⟩
  rw [parkE_core, State.core_updCore_self]
  refine ⟨Four.get_set_self _ _ _, Four.get_set_self _ _ _, rfl, rfl, ?_, rfl, fun r => ⟨rfl, rfl⟩⟩
  cases st <;> rfl

end

/-! ### TASK_RETIRE (R18, R270) -/

/-- A job that has ended is no job. -/
theorem endJob_gone (j : Job) (fate status : Nat) (s : State) : (endJob j fate status s).job? j.id = none := by
  simp only [State.job?, endJob, List.find?_eq_none, List.mem_map, List.mem_filter]
  rintro x ⟨y, ⟨-, hy⟩, rfl⟩
  split
  · simpa using hy
  · simpa using hy

theorem coreJob_job {s : State} {c : CoreId} {j : Job} (h : s.coreJob c = some j) : s.job? j.id = some j := by
  obtain ⟨id, -, hj⟩ := Option.bind_eq_some_iff.1 h
  have hid : j.id = id := by simpa using List.find?_some hj
  rw [hid]
  exact hj

section
variable {s : State} {c : CoreId} {j : Job} (hj : s.coreJob c = some j) (hw : (s.core c).rdvWait = true)
  (hst : (s.core c).st.c ≠ .retired) (hk : j.killDue = false) (hc : commandsDone s c = true) (hb : j.st = .bound)
include hj hw hst hk hc hb

/-- The task retires; with the last one its job ends. -/
theorem exec_taskRetire : exec (.taskRetire c) s =
    let s2 := (s.updCore c retireTask).updJob j.id (fun q => { q with retired := (s.core c).id.slot :: q.retired })
    .next (if j.retired.length + 1 < 2 * j.hdr.ncl then s2
      else endJob j 0 0 (dropNode j.pid j.id (freeArea j (freeClusters j s2)))) := by
  show execTaskRetire c s = _
  unfold execTaskRetire
  simp only [hj, hw, hst, hk, hc, hb, decide_false, Bool.not_true, Bool.or_self, Bool.false_eq_true, if_false]
  split <;> rfl

theorem taskRetire_retires (hl : j.retired.length + 1 < 2 * j.hdr.ncl) :
    ∃ t, exec (.taskRetire c) s = .next t ∧ (t.core c).st.c = .retired ∧
      (∀ st ∈ [Strand.L, .X, .S], (t.core c).st.get st = if (s.core c).st.get st = .notStarted then .notStarted else .retired) ∧
      (∀ q, (t.core c).tokens q = 0) ∧
      t.job? j.id = some { j with retired := (s.core c).id.slot :: j.retired } ∧ (∀ d, d ≠ c → t.core d = s.core d) ∧ t.mem = s.mem := by
  refine ⟨_, exec_taskRetire hj hw hst hk hc hb, ?_⟩
  simp only [if_pos hl]
  have hcore : ∀ d, ((s.updCore c retireTask).updJob j.id (fun q => { q with retired := (s.core c).id.slot :: q.retired })).core d =
      (s.updCore c retireTask).core d := fun d => rfl
  simp only [hcore, State.core_updCore_self]
  have ends : ∀ x : StrandSt, (match x with | .notStarted => StrandSt.notStarted | _ => .retired) =
      if x = .notStarted then .notStarted else .retired := by
    intro x
    cases x <;> rfl
  refine ⟨rfl, fun st h => ?_, fun q => ?_, ?_, fun d h => State.core_updCore_ne _ _ _ _ h, rfl⟩
  · cases st with
    | C => simp at h
    | L => exact ends _
    | X => exact ends _
    | S => exact ends _
  · simp [Core.tokens, retireTask]
  · rw [State.job_updJob_self, State.job_updCore, coreJob_job hj]
    · rfl
    · exact fun _ => rfl

theorem taskRetire_ends (hl : 2 * j.hdr.ncl ≤ j.retired.length + 1) : ∃ t, exec (.taskRetire c) s = .next t ∧ t.job? j.id = none := by
  refine ⟨_, exec_taskRetire hj hw hst hk hc hb, ?_⟩
  simp only [if_neg (Nat.not_lt.mpr hl)]
  exact endJob_gone _ _ _ _

end

/-! ### The statement (O25) -/

/-- Settles O25: an arrival finds either that every other strand is there, and the rendezvous passes, or that one is missing, and it waits. -/
theorem rendezvous : Obligations.Rendezvous := by
  unfold Obligations.Rendezvous
  refine ⟨⟨fun s c k hr hd hn => ⟨fun i hi => ?_, ?_⟩, fun s c k hr hd => rdvC_again hr hd, fun s c st w g k hC hs _ hn => ?_⟩,
    fun s c j hj hw hst hk hc hb => ⟨taskRetire_retires hj hw hst hk hc hb, taskRetire_ends hj hw hst hk hc hb⟩⟩
  · have he : exec i.1 s = rdvC k i.2 i.1 s := by
      simp only [List.mem_cons, List.not_mem_nil, or_false] at hi
      rcases hi with rfl | rfl <;> rfl
    exact ⟨rdvC_waits hr hd hn he, fun a hf hne => rdvC_illegal hr hd hn he hf hne⟩
  · intro others
    have hp := fun fin => passRendezvous_passed c fin (s.updCore c (Core.withArrival .C (arrivalC k fin)))
    have ho := fun fin => (updCore_only c (Core.withArrival .C (arrivalC k fin)) s).trans (passRendezvous_only c fin _)
    simp only [State.core_updCore_self] at hp
    refine ⟨fun ⟨hin, hsame⟩ => ?_, fun ⟨hin, hsame⟩ => ?_⟩
    · obtain ⟨hx, hstrand, hgo, -⟩ := (hp false).of_withArrival
      refine ⟨_, arrive_passes_C hr hd hn rfl hin hsame, ho false, (hgo rfl).1, hx, (hp false).arr, fun st hst a ha => ?_⟩
      exact hstrand st (mem_engines.1 hst) (.inr (by rw [ha]; rfl))
    · obtain ⟨hx, hstrand, -, hstay⟩ := (hp true).of_withArrival
      have he := arrive_passes_C (i := .rdvEnd k) hr hd hn rfl hin hsame
      rw [if_neg (by decide)] at he
      refine ⟨_, he, (ho true).trans (parkC_only c _), ?_⟩
      rw [parkC_core]
      refine ⟨(hp true).done, (hp true).wait, rfl, (hstay rfl).1, hx, fun st hst a ha => ?_⟩
      have hm := (hstrand st (mem_engines.1 hst) (.inr (by rw [ha]; rfl))).1
      cases st with
      | C => simp at hst
      | L => exact hm
      | X => exact hm
      | S => exact hm
  · intro others missing same i hi
    have he : exec i.1 s = rdvE w g k i.2 i.1 s := by
      simp only [List.mem_cons, List.not_mem_nil, or_false] at hi
      rcases hi with rfl | rfl <;> rfl
    refine ⟨rdvE_unfinished hC hs hn he, fun hu => ⟨fun hmiss hsame => ?_, fun hmiss hag => ?_, fun a => rdvE_illegal hC hs hn he hu⟩⟩
    · have hp := passRendezvous_passed c i.2 (s.updCore c (Core.withArrival st (arrivalE st w g k i.2)))
      rw [State.core_updCore_self] at hp
      obtain ⟨hx, hstrand, hgo, hstay⟩ := hp.of_withArrival
      refine ⟨_, rdvE_passes hC hs hn he hu ?_ ?_, (updCore_only c _ s).trans (passRendezvous_only c i.2 _), hx, hp.arr, hp.done, hp.wait,
        fun o ho => ?_, hgo, hstay⟩
      · intro o hne hpart
        by_contra hnone
        rw [Bool.not_eq_true, Option.isSome_eq_false_iff, Option.isNone_iff_eq_none] at hnone
        by_cases hoC : o = .C
        · subst hoC
          exact hmiss (.inl hnone)
        · exact hmiss (.inr ⟨o, mem_others.2 ⟨hoC, hne⟩, (takesPart_iff.1 hpart).resolve_left hoC, hnone⟩)
      · intro o hne a ha
        by_cases hoC : o = .C
        · exact hsame o (by rw [hoC]; exact List.mem_cons_self) a ha
        · exact hsame o (List.mem_cons_of_mem _ (mem_others.2 ⟨hoC, hne⟩)) a ha
      · rcases List.mem_cons.1 ho with rfl | ho
        · exact hstrand o hC (.inl rfl)
        · obtain ⟨hmem, hsome⟩ := List.mem_filter.1 ho
          exact hstrand o (mem_others.1 hmem).1 (.inr hsome)
    · refine rdvE_waits hC hs hn he hu ?_ hag
      rcases hmiss with h | ⟨o, ho, hst, hnone⟩
      · exact ⟨.C, hC.symm, rfl, h⟩
      · exact ⟨o, (mem_others.1 ho).2, takesPart_iff.2 (.inr hst), hnone⟩

end Sys2Proof.Machine
end

section
/-! Domains and phases (O23): the requests, what one member's pass does, and the ways in which a barrier ends. -/

namespace Sys2Proof.Machine

/-! ### `dom.set` and `phase` (R20, R21, R281) -/

/-- An instruction that only changes its core and falls through. -/
theorem finishC_updCore_core (c : CoreId) (f : Core → Core) (s : State) :
    KeepsCore (f (s.core c)) ((finishC c {} (s.updCore c f)).core c) ∧ FallsThrough (f (s.core c)) ((finishC c {} (s.updCore c f)).core c) ∧
      KeepsX (f (s.core c)) ((finishC c {} (s.updCore c f)).core c) := by
  rw [finishC_core, State.core_updCore_self]
  exact ⟨rfl, ⟨rfl, rfl⟩, fun r => ⟨rfl, rfl⟩⟩

section
variable {s : State} {c : CoreId} (hr : Ready s c .C)
include hr

theorem domSetSplit_notes (h : (s.core c).id.level = 3 ∧ (s.core c).domReq = none) :
    exec .domSetSplit s = .next (finishC c {} (s.updCore c (fun k => { k with domReq := some .split }))) := by
  obtain ⟨hl, hq⟩ := h
  show execDomSetSplit s = _
  refine runPlain_ok hr ?_
  simp only [M.bind_eq, getCore_eq, need_eq, hl, hq, Option.isNone_none, decide_true, Bool.and_self, if_true, modCore_eq]

theorem domSetSplit_illegal (h : ¬ ((s.core c).id.level = 3 ∧ (s.core c).domReq = none)) : TrapsIllegal c .domSetSplit s := by
  have hn : (decide ((s.core c).id.level = 3) && (s.core c).domReq.isNone) = false := by
    rw [Bool.eq_false_iff]
    simpa using h
  show execDomSetSplit s = _
  refine runPlain_trap hr ?_
  simp only [M.bind_eq, getCore_eq, need_eq, hn, Bool.false_eq_true, if_false]

theorem domSetJoin_notes (h : (s.core c).id.level = 2 ∧ (s.core c).id.hlvl = 3 ∧ (s.core c).domReq = none) :
    exec .domSetJoin s = .next (finishC c {} (s.updCore c (fun k => { k with domReq := some .join }))) := by
  obtain ⟨hl, hh, hq⟩ := h
  show execDomSetJoin s = _
  refine runPlain_ok hr ?_
  simp only [M.bind_eq, getCore_eq, need_eq, hl, hh, hq, Option.isNone_none, decide_true, Bool.and_self, if_true, modCore_eq]

theorem domSetJoin_illegal (h : ¬ ((s.core c).id.level = 2 ∧ (s.core c).id.hlvl = 3 ∧ (s.core c).domReq = none)) :
    TrapsIllegal c .domSetJoin s := by
  have hn : (decide ((s.core c).id.level = 2) && decide ((s.core c).id.hlvl = 3) && (s.core c).domReq.isNone) = false := by
    rw [Bool.eq_false_iff]
    simpa [and_assoc] using h
  show execDomSetJoin s = _
  refine runPlain_trap hr ?_
  simp only [M.bind_eq, getCore_eq, need_eq, hn, Bool.false_eq_true, if_false]

theorem phase_passes (h : (s.core c).id.level = 0) : exec .phase s = .next (passPhase c s) := by
  show execPhase s = _
  rw [execPhase, runRaw_eq _ s c hr]
  simp only [M.bind_eq, getCore_eq, M.ite_eq, h, if_true, M.modify_eq]

theorem phase_waits (h : (s.core c).id.level ≠ 0) :
    exec .phase s = .next (s.updCore c (fun k => { k with phArr := true, st := { k.st with c := .waiting } })) := by
  show execPhase s = _
  rw [execPhase, runRaw_eq _ s c hr]
  simp only [M.bind_eq, getCore_eq, M.ite_eq, h, if_false, modCore_eq, waitNow_eq, parkC, State.updCore_updCore]

end

/-! ### One member passes (R20, R21, R245) -/

/-- A trap at this point would be taken (R352). -/
def Core.Takes (k : Core) : Prop := k.csr.inHandler = false ∧ k.csr.hasVector = true

/-- A member has passed its `phase`; a request that failed is reported by a trap after it (R21). -/
def PhasePassed (k k' : Core) : Prop :=
  k'.id = { k.id with phn := k.id.phn + 1 } ∧ k'.phArr = false ∧ k'.domReq = none ∧ KeepsX k k' ∧
    (k.domReq = none ∨ ¬ k.Takes → FallsThrough k k') ∧
    (k.domReq ≠ none → k.Takes →
      k'.csr.spc = wd (bits k.seq.n1.toNat 2 50 * 4) ∧ k'.csr.tcause = 0x01 ∧ k'.csr.stat = 1 ∧
        k'.csr.tval = (encode .phase).setWidth 64 ∧ k'.csr.sstat = k.csr.stat ∧ k'.seq.pc = k.csr.tvec)

theorem passPhase_core (c : CoreId) (s : State) :
    let k := s.core c
    let k' := (passPhase c s).core c
    k'.id = { k.id with phn := k.id.phn + 1 } ∧ k'.phArr = false ∧ k'.domReq = none ∧ KeepsX k k' ∧ FallsThrough k k' ∧ k'.csr = k.csr := by
  dsimp only
  rw [passPhase, finishC_core, State.core_updCore_self]
  exact ⟨rfl, rfl, rfl, fun r => ⟨rfl, rfl⟩, ⟨rfl, rfl⟩, rfl⟩

theorem passPhase_only (c : CoreId) (s : State) : OnlyCore c s (passPhase c s) := updCore_finishC_only c _ s

/-- A step of the machine that concerns one core: what it makes of that core, and that other cores and memory are as before. -/
structure MemberStep (R : Core → Core → Prop) (c : CoreId) (s t : State) : Prop where
  self : R (s.core c) (t.core c)
  other : ∀ d, d ≠ c → t.core d = s.core d
  mem : t.mem = s.mem

/-- How a barrier that is no regroup ends for one member. -/
def memberPasses (s : State) (c : CoreId) : State :=
  let req := (s.core c).domReq.isSome
  let s2 := passPhase c s
  if req then regroupTrap c s2 else s2

theorem memberPasses_step (c : CoreId) (s : State) : MemberStep PhasePassed c s (memberPasses s c) := by
  obtain ⟨hid, hph, hreq, hx, hft, hcsr⟩ := passPhase_core c s
  have honly := passPhase_only c s
  have hmem : (passPhase c s).mem = s.mem := by rw [honly.1]
  unfold memberPasses
  dsimp only
  cases hq : (s.core c).domReq with
  | none => exact ⟨⟨hid, hph, hreq, hx, fun _ => hft, fun h => absurd hq h⟩, honly.2, hmem⟩
  | some r =>
    simp only [Option.isSome_some, if_true, regroupTrap]
    by_cases ht : (s.core c).Takes
    · have ht' : ((passPhase c s).core c).csr.inHandler = false ∧ ((passPhase c s).core c).csr.hasVector = true := by rw [hcsr]; exact ht
      rw [takeTrap_delivered _ _ _ _ _ ht'.1 ht'.2]
      refine ⟨?_, fun d hd => (State.core_updCore_ne _ _ _ _ hd).trans (honly.2 d hd), hmem⟩
      rw [State.core_updCore_self]
      refine ⟨hid, hph, hreq, hx, fun h => ?_, fun _ _ => ⟨?_, (by decide : causeWord false 0 cILLEGAL 0 = 0x01), rfl, rfl, ?_, ?_⟩⟩
      · rcases h with h | h
        · rw [hq] at h
          cases h
        · exact absurd ht h
      · show wd (pcField ((passPhase c s).core c).seq.pc) = _
        rw [hft.1]
        rfl
      · exact congrArg Csrs.stat hcsr
      · exact congrArg Csrs.tvec hcsr
    · have ht' : ((passPhase c s).core c).csr.inHandler = true ∨ ((passPhase c s).core c).csr.hasVector = false := by
        rw [hcsr]
        by_contra hc
        rw [not_or, Bool.not_eq_true, Bool.not_eq_false] at hc
        exact ht hc
      rw [takeTrap_unhandled _ _ _ _ _ ht', unhandled_frame]
      exact ⟨⟨hid, hph, hreq, hx, fun _ => hft, fun _ h => absurd h ht⟩, honly.2, hmem⟩

/-! ### All the members of a list -/

/-- Members that each take their own step: every one of them has taken it, no other core and no memory differs. -/
structure MembersStep (R : Core → Core → Prop) (ms : List CoreId) (s t : State) : Prop where
  members : ∀ m ∈ ms, R (s.core m) (t.core m)
  others : ∀ d, d ∉ ms → t.core d = s.core d
  mem : t.mem = s.mem

theorem foldl_membersStep {R : Core → Core → Prop} {F : State → CoreId → State} (hF : ∀ s c, MemberStep R c s (F s c))
    {ms : List CoreId} (hn : ms.Nodup) (s : State) : MembersStep R ms s (ms.foldl F s) := by
  induction ms generalizing s with
  | nil => exact ⟨fun m hm => (by simp at hm), fun _ _ => rfl, rfl⟩
  | cons c ms ih =>
    obtain ⟨hc, hn⟩ := List.nodup_cons.1 hn
    have one := hF s c
    have rest := ih hn (F s c)
    rw [List.foldl_cons]
    refine ⟨fun m hm => ?_, fun d hd => ?_, rest.mem.trans one.mem⟩
    · rcases List.mem_cons.1 hm with rfl | hm
      · rw [rest.others m hc]
        exact one.self
      · rw [← one.other m (fun e => hc (e ▸ hm))]
        exact rest.members m hm
    · rw [List.mem_cons, not_or] at hd
      obtain ⟨hne, hd⟩ := hd
      rw [rest.others d hd, one.other d hne]

theorem MembersStep.updJob {R : Core → Core → Prop} {ms : List CoreId} {s t : State} {j : JobId} {f : Job → Job}
    (h : MembersStep R ms (s.updJob j f) t) : MembersStep R ms s t := ⟨h.members, h.others, h.mem⟩

theorem plainBarrier_members (j : JobId) {ms : List CoreId} (l : BitVec 2) (die : Fin 4) (s : State) (hn : ms.Nodup) :
    MembersStep PhasePassed ms s (plainBarrier j ms l die s) :=
  (foldl_membersStep (fun s c => memberPasses_step c s) hn _).updJob

/-- A member of a regroup has passed its `phase`, and its identity tells the new domain. -/
def Regrouped (Q : Ident → Ident → Prop) (k k' : Core) : Prop :=
  k'.phArr = false ∧ k'.domReq = none ∧ FallsThrough k k' ∧ KeepsX k k' ∧ Q k.id k'.id

/-- A member of a split passes into a level-2 domain. -/
def SplitId (i i' : Ident) : Prop := i'.level = 2 ∧ i'.phn = i.phn + 1

/-- A member of a join passes into the level-3 domain of every task. -/
def JoinId (i i' : Ident) : Prop := i' = { i with phn := i.phn + 1, level := 3, domFirst := 0, domLast := i.taskLast }

theorem passPhase_regroups {Q : Ident → Ident → Prop} {c : CoreId} {s : State} {g : Ident → Ident}
    (hQ : Q (s.core c).id (g { (s.core c).id with phn := (s.core c).id.phn + 1 })) :
    MemberStep (Regrouped Q) c s ((passPhase c s).updCore c (fun k => { k with id := g k.id })) := by
  obtain ⟨hid, hph, hreq, hx, hft, -⟩ := passPhase_core c s
  have honly := passPhase_only c s
  refine ⟨?_, fun d hd => (State.core_updCore_ne _ _ _ _ hd).trans (honly.2 d hd), by rw [State.mem_updCore, honly.1]⟩
  rw [State.core_updCore_self]
  refine ⟨hph, hreq, hft, hx, ?_⟩
  show Q _ (g _)
  rw [hid]
  exact hQ

theorem doSplit_members {s : State} {j : JobId} {job : Job} {ms : List CoreId} (hj : s.job? j = some job) (hn : ms.Nodup) :
    MembersStep (Regrouped SplitId) ms s (doSplit j ms s) := by
  unfold doSplit
  rw [hj]
  refine MembersStep.updJob (foldl_membersStep (fun s c => ?_) hn _)
  exact passPhase_regroups (g := fun i => { i with
    level := 2, domFirst := BitVec.ofNat 8 (dieRange s job (dieOf c)).1, domLast := BitVec.ofNat 8 (dieRange s job (dieOf c)).2 }) ⟨rfl, rfl⟩

theorem doJoin_members {s : State} {j : JobId} {dies : List (Fin 4)} {ms : List CoreId} (hn : ms.Nodup) :
    MembersStep (Regrouped JoinId) ms s (doJoin j dies ms s) := by
  refine MembersStep.updJob (foldl_membersStep (fun s c => ?_) hn _)
  exact passPhase_regroups (g := fun i => { i with level := 3, domFirst := 0, domLast := i.taskLast }) rfl

end Sys2Proof.Machine
end

section
/-! Phase barriers (O23): which of its ends a barrier takes. -/

namespace Sys2Proof.Machine

/-! ### Arrivals and subdomains (R20, R21) -/

theorem allArrived_iff {s : State} {ms : List CoreId} : allArrived s ms = true ↔ ms ≠ [] ∧ ∀ m ∈ ms, (s.core m).phArr = true := by
  simp [allArrived, List.all_eq_true]

theorem joinPending_iff {s : State} {ms : List CoreId} :
    joinPending s ms = true ↔ ms ≠ [] ∧ ∀ m ∈ ms, (s.core m).phArr = true ∧ (s.core m).domReq = some .join := by
  rw [joinPending, Bool.and_eq_true, allArrived_iff, List.all_eq_true, and_assoc, forall₂_and]
  simp

/-- The live members on a die (R21). -/
def subdomain (s : State) (j : Job) (d : Fin 4) : List CoreId := j.cores.filter (fun m => dieOf m == d && liveMember s m)

/-- The dies that have live members. -/
def liveDies (s : State) (j : Job) : List (Fin 4) :=
  (List.finRange 4).filter (fun d => j.cores.any (fun m => dieOf m == d && liveMember s m))

theorem mem_liveDies {s : State} {j : Job} {d : Fin 4} : d ∈ liveDies s j ↔ subdomain s j d ≠ [] := by
  simp only [liveDies, subdomain, List.mem_filter, List.mem_finRange, true_and, List.any_eq_true, ne_eq, List.filter_eq_nil_iff]
  push Not
  rfl

theorem dieOf_subdomain {s : State} {j : Job} {d : Fin 4} {m : CoreId} (h : m ∈ subdomain s j d) : dieOf m = d := by
  obtain ⟨-, hm⟩ := List.mem_filter.1 h
  simp only [Bool.and_eq_true, beq_iff_eq] at hm
  exact hm.1

theorem joinPending_congr {s t : State} {ms : List CoreId} (h : ∀ m ∈ ms, t.core m = s.core m) : joinPending t ms = joinPending s ms := by
  rw [Bool.eq_iff_iff, joinPending_iff, joinPending_iff]
  exact and_congr_right (fun _ => forall₂_congr (fun m hm => by rw [h m hm]))

theorem subdomains_nodup {s : State} {j : Job} (h : j.cores.Nodup) : ((liveDies s j).map (subdomain s j)).flatten.Nodup := by
  rw [List.nodup_flatten]
  refine ⟨fun l hl => ?_, ?_⟩
  · obtain ⟨d, -, rfl⟩ := List.mem_map.1 hl
    exact h.filter _
  · rw [List.pairwise_map]
    refine ((List.nodup_finRange 4).filter _).imp (fun {d e} hne => ?_)
    exact fun m hm hm' => hne ((dieOf_subdomain hm).symm.trans (dieOf_subdomain hm'))

/-! ### A failed join (R21) -/

/-- A subdomain that waits for the join ends its barrier too. -/
def failSub (c : CoreId) (s0 : State) (j : Job) (s : State) (d : Fin 4) : State :=
  if d != dieOf c && joinPending s (subdomain s0 j d) then plainBarrier j.id (subdomain s0 j d) 2 d s else s

/-- The other subdomains of a list that wait for a join pass, each with its trap; all else is as before. -/
theorem failSubs_members {c : CoreId} {s0 : State} {j : Job} (hn : j.cores.Nodup) {ds : List (Fin 4)} (hd : ds.Nodup) (s : State)
    (hs : ∀ d ∈ ds, d ≠ dieOf c → ∀ m ∈ subdomain s0 j d, s.core m = s0.core m) :
    (∀ d ∈ ds, d ≠ dieOf c → joinPending s0 (subdomain s0 j d) = true → ∀ m ∈ subdomain s0 j d,
        PhasePassed (s0.core m) ((ds.foldl (failSub c s0 j) s).core m)) ∧
      (∀ m, (∀ d ∈ ds, d ≠ dieOf c → joinPending s0 (subdomain s0 j d) = true → m ∉ subdomain s0 j d) →
        (ds.foldl (failSub c s0 j) s).core m = s.core m) ∧ (ds.foldl (failSub c s0 j) s).mem = s.mem := by
  induction ds generalizing s with
  | nil => exact ⟨fun d h => (by simp at h), fun _ _ => rfl, rfl⟩
  | cons e ds ih =>
    obtain ⟨he, hd⟩ := List.nodup_cons.1 hd
    have hse := hs e List.mem_cons_self
    have apart : ∀ d ∈ ds, ∀ m ∈ subdomain s0 j d, m ∉ subdomain s0 j e := fun d hd m hm hm' =>
      he ((dieOf_subdomain hm).symm.trans (dieOf_subdomain hm') ▸ hd)
    rw [List.foldl_cons]
    by_cases hp : e ≠ dieOf c ∧ joinPending s0 (subdomain s0 j e) = true
    · have hstep : failSub c s0 j s e = plainBarrier j.id (subdomain s0 j e) 2 e s := by
        rw [failSub, joinPending_congr (hse hp.1), hp.2]
        simp [hp.1]
      have hsub : (subdomain s0 j e).Nodup := hn.filter _
      have one := plainBarrier_members j.id 2 e s hsub
      rw [hstep]
      obtain ⟨h1, h2, h3⟩ := ih hd _ (fun d hmem hne m hm =>
        (one.others m (apart d hmem m hm)).trans (hs d (List.mem_cons_of_mem e hmem) hne m hm))
      refine ⟨fun d hmem hne hj m hm => ?_, fun m hm => ?_, h3.trans one.mem⟩
      · rcases List.mem_cons.1 hmem with rfl | hmem
        · rw [h2 m (fun d hd _ _ hm' => apart d hd m hm' hm), ← hse hne m hm]
          exact one.members m hm
        · exact h1 d hmem hne hj m hm
      · rw [h2 m (fun d hd => hm d (List.mem_cons_of_mem e hd))]
        exact one.others m (hm e List.mem_cons_self hp.1 hp.2)
    · have hstep : failSub c s0 j s e = s := by
        rw [failSub, if_neg]
        intro h
        simp only [Bool.and_eq_true, bne_iff_ne, ne_eq] at h
        exact hp ⟨h.1, by rw [← joinPending_congr (hse h.1)]; exact h.2⟩
      rw [hstep]
      obtain ⟨h1, h2, h3⟩ := ih hd s (fun d hmem => hs d (List.mem_cons_of_mem e hmem))
      refine ⟨fun d hmem hne hj m hm => ?_, fun m hm => h2 m (fun d hd => hm d (List.mem_cons_of_mem e hd)), h3⟩
      rcases List.mem_cons.1 hmem with rfl | hmem
      · exact absurd ⟨hne, hj⟩ hp
      · exact h1 d hmem hne hj m hm

/-! ### The ends of a barrier (R20, R21) -/

section
variable {s : State} {c : CoreId} {j : Job} (hj : s.coreJob c = some j)
include hj

theorem tryBarrier_waits (h : allArrived s (domainOf s j c) = false) : tryBarrier c s = s := by
  simp [tryBarrier, hj, h]

variable (ha : allArrived s (domainOf s j c) = true)
include ha

theorem tryBarrier_split (hl : (s.core c).id.level = 3) (hq : ∀ m ∈ domainOf s j c, (s.core m).domReq = some .split) :
    tryBarrier c s = doSplit j.id (domainOf s j c) s := by
  have hall : (domainOf s j c).all (fun d => (s.core d).domReq == some .split) = true := by
    rw [List.all_eq_true]
    exact fun m hm => by simp [hq m hm]
  simp [tryBarrier, hj, ha, hl, hall]

/-- A barrier that is no regroup ends as an ordinary one. -/
theorem tryBarrier_plain (h : (s.core c).id.level = 1 ∨ ((s.core c).id.level = 2 ∧ (s.core c).id.hlvl ≠ 3) ∨
      ((s.core c).id.level = 3 ∧ ∃ m ∈ domainOf s j c, (s.core m).domReq ≠ some .split)) :
    ∃ l die, tryBarrier c s = plainBarrier j.id (domainOf s j c) l die s := by
  rcases h with h | ⟨h, hh⟩ | ⟨h, m, hm, hne⟩
  · exact ⟨1, dieOf c, by simp [tryBarrier, hj, ha, h]⟩
  · refine ⟨2, dieOf c, ?_⟩
    simp [tryBarrier, hj, ha, h]
    exact fun e => absurd e hh
  · have hall : (domainOf s j c).all (fun d => (s.core d).domReq == some .split) = false := by
      rw [List.all_eq_false]
      exact ⟨m, hm, by simpa using hne⟩
    exact ⟨3, 0, by simp [tryBarrier, hj, ha, h, hall]⟩

variable (hl : (s.core c).id.level = 2) (hh : (s.core c).id.hlvl = 3)
include hl hh

theorem tryBarrier_join (hp : joinPending s (domainOf s j c) = true) :
    tryBarrier c s = if (liveDies s j).all (fun d => joinPending s (subdomain s j d)) then
      doJoin j.id (liveDies s j) ((liveDies s j).map (subdomain s j)).flatten s else s := by
  unfold tryBarrier
  simp only [hj, ha, hl, hh, hp, Bool.not_true, Bool.false_eq_true, if_false, if_true, decide_true, Bool.and_self]
  rfl

theorem tryBarrier_failed (hp : joinPending s (domainOf s j c) = false) :
    tryBarrier c s = if (domainOf s j c).any (fun d => (s.core d).domReq == some .join) ||
        (liveDies s j).any (fun d => d != dieOf c && joinPending s (subdomain s j d)) then
      (liveDies s j).foldl (failSub c s j) (plainBarrier j.id (domainOf s j c) 2 (dieOf c) s)
      else plainBarrier j.id (domainOf s j c) 2 (dieOf c) s := by
  unfold tryBarrier
  simp only [hj, ha, hl, hh, hp, Bool.not_true, Bool.false_eq_true, if_false, if_true, decide_true, Bool.and_self]
  rfl

end

/-! ### The statement (O23) -/

/-- A subdomain of level 2 is a die's live members. -/
theorem pend_iff {s : State} {j : Job} {d : Fin 4} : joinPending s (subdomain s j d) = true ↔
    subdomain s j d ≠ [] ∧ ∀ m ∈ subdomain s j d, (s.core m).phArr = true ∧ (s.core m).domReq = some .join := joinPending_iff

/-- Settles O23: a barrier takes one of its ends, and each end is one step of every member that it concerns. -/
theorem phases : Obligations.Phases := by
  unfold Obligations.Phases
  refine ⟨fun s c hr => ?_, fun s c j hj hn => ?_⟩
  · intro i
    have hsplit := finishC_updCore_core c (fun k => { k with domReq := some .split }) s
    have hjoin := finishC_updCore_core c (fun k => { k with domReq := some .join }) s
    refine ⟨⟨fun h => ?_, domSetSplit_illegal hr⟩, ⟨fun h => ?_, domSetJoin_illegal hr⟩, fun h => ?_, phase_waits hr⟩
    · exact ⟨_, domSetSplit_notes hr h, updCore_finishC_only c _ s, hsplit.1, hsplit.2.2, hsplit.2.1⟩
    · exact ⟨_, domSetJoin_notes hr h, updCore_finishC_only c _ s, hjoin.1, hjoin.2.2, hjoin.2.1⟩
    · obtain ⟨hid, -, hreq, hx, hft, -⟩ := passPhase_core c s
      exact ⟨_, phase_passes hr h, passPhase_only c s, hx, hft, hid, hreq⟩
  · intro ms k sub pend fits traps passes
    have run : exec (.phaseBarrierComplete c) s = .next (tryBarrier c s) := rfl
    refine ⟨fun hne hall => ?_, fun ⟨m, hm, hph⟩ => ?_⟩
    · have ha : allArrived s (domainOf s j c) = true := allArrived_iff.2 ⟨hne, hall⟩
      refine ⟨fun h => ?_, fun hl hh hcn hms => ⟨fun hp hq => ?_, fun hp hq => ?_, fun hp => ?_⟩, fun hl hq => ?_⟩
      · obtain ⟨l, die, he⟩ := tryBarrier_plain hj ha h
        have hstep := plainBarrier_members j.id l die s hn
        exact ⟨_, run.trans (congrArg _ he), hstep.others, hstep.mem, hstep.members⟩
      · have he := tryBarrier_join hj ha hl hh (by rw [show domainOf s j c = _ from hms]; exact pend_iff.2 hp)
        rw [if_pos (List.all_eq_true.2 (fun d hd => pend_iff.2 (hq d (mem_liveDies.1 hd))))] at he
        have hstep := doJoin_members (s := s) (j := j.id) (dies := liveDies s j) (subdomains_nodup (s := s) hcn)
        have hmem : ∀ {m d}, m ∈ sub d → m ∈ ((liveDies s j).map (subdomain s j)).flatten := fun {m d} h =>
          List.mem_flatten.2 ⟨_, List.mem_map.2 ⟨d, mem_liveDies.2 (List.ne_nil_of_mem h), rfl⟩, h⟩
        refine ⟨_, run.trans (congrArg _ he), fun m h => hstep.others m (fun h' => ?_), hstep.mem, fun d m h => hstep.members m (hmem h)⟩
        obtain ⟨l, hl, hml⟩ := List.mem_flatten.1 h'
        obtain ⟨d, -, rfl⟩ := List.mem_map.1 hl
        exact h d hml
      · obtain ⟨d, hne, hnp⟩ := hq
        have he := tryBarrier_join hj ha hl hh (by rw [show domainOf s j c = _ from hms]; exact pend_iff.2 hp)
        rw [if_neg (fun hall => hnp (pend_iff.1 (List.all_eq_true.1 hall d (mem_liveDies.2 hne))))] at he
        exact run.trans (congrArg _ he)
      · have hms' : domainOf s j c = subdomain s j (dieOf c) := hms
        have he := tryBarrier_failed hj ha hl hh (by rw [hms', Bool.eq_false_iff]; exact fun h => hp (pend_iff.1 h))
        have hstep := plainBarrier_members j.id 2 (dieOf c) s hn
        have apart : ∀ d, d ≠ dieOf c → ∀ m ∈ subdomain s j d, m ∉ domainOf s j c := fun d hd m hm hm' =>
          hd ((dieOf_subdomain hm).symm.trans (dieOf_subdomain (hms' ▸ hm')))
        have hdn : (liveDies s j).Nodup := (List.nodup_finRange 4).filter _
        split at he
        · obtain ⟨h1, h2, h3⟩ := failSubs_members hcn hdn
            (plainBarrier j.id (domainOf s j c) 2 (dieOf c) s) (fun d _ hd m hm => hstep.others m (apart d hd m hm))
          refine ⟨_, run.trans (congrArg _ he), h3.trans hstep.mem, fun m hm => ?_, fun d hd hpd m hm => ?_, fun m hm hno => ?_⟩
          · show PhasePassed (s.core m) _
            rw [h2 m (fun d _ hd _ hm' => apart d hd m hm' hm)]
            exact hstep.members m hm
          · exact h1 d (mem_liveDies.2 hpd.1) hd (pend_iff.2 hpd) m hm
          · rw [h2 m (fun d _ hd hj => hno d hd (pend_iff.1 hj))]
            exact hstep.others m hm
        · next hnone =>
          refine ⟨_, run.trans (congrArg _ he), hstep.mem, hstep.members, fun d hd hpd => absurd ?_ hnone, fun m hm _ => hstep.others m hm⟩
          rw [Bool.or_eq_true]
          exact .inr (List.any_eq_true.2 ⟨d, mem_liveDies.2 hpd.1, by simp [hd, pend_iff.2 hpd]⟩)
      · have hstep := doSplit_members (coreJob_job hj) hn
        refine ⟨_, run.trans (congrArg _ (tryBarrier_split hj ha hl hq)), hstep.others, hstep.mem, fun m hm => ?_⟩
        obtain ⟨-, hreq, hft, hx, hid, hphn⟩ := hstep.members m hm
        exact ⟨hid, hphn, hreq, hft, hx⟩
    · have ha : allArrived s (domainOf s j c) = false := by
        rw [Bool.eq_false_iff]
        intro h
        rw [(allArrived_iff.1 h).2 m hm] at hph
        cases hph
      exact run.trans (congrArg _ (tryBarrier_waits hj ha))

end Sys2Proof.Machine
end

section
/-! A refused prologue can change a core (O51): its completion record's write may fire the snapshot trigger. -/

namespace Sys2Proof.Machine

/-! ### A job whose completion record is watched (R107, R339, R369) -/

/-- A fetched job of one prologue record at an address outside the virtual range, with its completion record at 64. -/
def refusedJob : Job :=
  { fetchJob Core.reset with
    st := .fetched, cls := [],
    hdr := { (fetchJob Core.reset).hdr with npro := 1, pro := 2 ^ 52, crec := 64 } }

/-- A slice watchpoint on the first 64 bytes after address 64, with SNAP. -/
def snapWatch : Wp := { addr := 64, ctl := 1 + 6 * 2 + 2 ^ 6 }

/-- The job's partition has one slice, which watches the record, and one cluster, whose core A stands at 4; the trigger is armed. -/
def watchedState : State :=
  { State.reset with
    jobs := [refusedJob],
    tlb := [fetchTlb Core.reset 0],
    cores := wr State.reset.cores 0 { Core.reset with seq := Seq.at_ 4 },
    slices := wr State.reset.slices 0 { Slice.reset with ws := wr Slice.reset.ws 0 snapWatch },
    parts := wr State.reset.parts 0 { Part.reset with psl := 2 ^ 63, pclu0 := 1, snapArm := true } }

theorem watchedState_job : watchedState.job? refusedJob.id = some refusedJob := rfl

/-- The record lies outside the virtual range (R95, R339). -/
theorem watchedState_prologue :
    runPrologue { refusedJob.who with author := { refusedJob.who.author with kind := 1 } } refusedJob watchedState = (some 20, watchedState) := rfl

/-- The record's write latches core A's PC (R369). -/
theorem endJob_latches : (rd (endJob refusedJob 2 20 watchedState).cores 0).dbg.snapPc ≠ (rd watchedState.cores 0).dbg.snapPc := by
  decide +kernel

/-- Refutes O51: a job that its prologue refuses ends with its completion record (R337, R339); where the record's write touches a slice
watchpoint with SNAP (R107), the armed trigger latches the debug blocks of the partition's cores (R369), so the cores do not stay as they
were. -/
theorem not_packetToBind : ¬ Obligations.PacketToBind := by
  unfold Obligations.PacketToBind
  intro h
  obtain ⟨-, hrefuse, -⟩ := h.2 watchedState refusedJob.id refusedJob watchedState_job
  obtain ⟨t, hrun, -, hcores⟩ := hrefuse rfl 20 watchedState watchedState_prologue
  have hend : exec (.prologueComplete refusedJob.id) watchedState = .next (endJob refusedJob 2 20 watchedState) := rfl
  rw [hend] at hrun
  cases hrun
  exact endJob_latches (by rw [hcores])

end Sys2Proof.Machine
end

section
/-! What a fetch leaves as it was (O7): translations and reads change nothing by which a strand issues. -/

namespace Sys2Proof.Machine

/-! ### Standing (R16, R252, R381) -/

/-- Jobs, the strand whose turn it is and Lovage's grants are as in `s0`; of a core at most its debug block and its queued traps differ. -/
def Standing (s0 s : State) : Prop :=
  s.jobs = s0.jobs ∧ s.cur = s0.cur ∧ (∀ c, ∃ d a, s.core c = { s0.core c with dbg := d, atraps := a }) ∧
    ∀ cl, (s.cluster cl).granted = (s0.cluster cl).granted

theorem Standing.refl (s : State) : Standing s s := ⟨rfl, rfl, fun _ => ⟨_, _, rfl⟩, fun _ => rfl⟩

theorem Standing.mayIssue {s0 s : State} (h : Standing s0 s) (c : CoreId) (st : Strand) : mayIssue s c st = mayIssue s0 c st := by
  obtain ⟨hj, -, hc, hg⟩ := h
  obtain ⟨d, a, hk⟩ := hc c
  unfold Machine.mayIssue State.coreJob State.job?
  rw [hg, hk, hj]
  rfl

theorem Standing.ready {s0 s : State} {c : CoreId} {st : Strand} (h : Standing s0 s) (hr : Ready s0 c st) : Ready s c st :=
  ⟨h.2.1.trans hr.1, (h.mayIssue c st).trans hr.2⟩

theorem standing_updCore {s0 s : State} (c : CoreId) {f : Core → Core} (hf : ∀ k, ∃ d a, f k = { k with dbg := d, atraps := a })
    (h : Standing s0 s) : Standing s0 (s.updCore c f) := by
  obtain ⟨hj, hcur, hc, hg⟩ := h
  refine ⟨hj, hcur, fun m => ?_, hg⟩
  obtain ⟨d, a, hm⟩ := hc m
  by_cases e : m = c
  · subst e
    obtain ⟨d', a', hk⟩ := hf (s.core m)
    exact ⟨d', a', by rw [State.core_updCore_self, hk, hm]⟩
  · exact ⟨d, a, by rw [State.core_updCore_ne _ _ _ _ e, hm]⟩

theorem standing_frames {s0 s : State} (cl : ClusterId) {f : Cluster → Cluster} (hf : ∀ k, (f k).granted = k.granted)
    (h : Standing s0 s) : Standing s0 (s.updCluster cl f) := by
  obtain ⟨hj, hcur, hc, hg⟩ := h
  refine ⟨hj, hcur, hc, fun k => ?_⟩
  by_cases e : k = cl
  · subst e
    rw [State.cluster_updCluster_self, hf, hg]
  · rw [State.cluster_updCluster_ne _ _ _ _ e, hg]

section
variable {s0 : State}

/-! ### Watchpoints, the gate, dirty sectors (R107, R109, R131, R311) -/

theorem standing_raiseCause (kind : Nat) (p : PartId) (vd j q d : Nat) (s : State) (h : Standing s0 s) :
    Standing s0 (raiseCause kind p vd j q d s) := by
  unfold raiseCause
  dsimp only
  split <;> exact h

theorem standing_fireSnap (p : PartId) (src : Nat) (s : State) (h : Standing s0 s) : Standing s0 (fireSnap p src s) := by
  have latch : ∀ (cs : List CoreId) s, Standing s0 s → Standing s0 (cs.foldl (fun s c => s.updCore c latchCore) s) := by
    intro cs
    induction cs with
    | nil => exact fun _ h => h
    | cons c cs ih => exact fun s h => ih _ (standing_updCore c (fun k => ⟨_, k.atraps, rfl⟩) h)
  unfold fireSnap
  dsimp only
  split
  · exact h
  · exact latch _ s h

theorem standing_watchSlice (a : Author) (pa len : Nat) (s : State) (h : Standing s0 s) : Standing s0 (watchSlice a pa len s) := by
  unfold watchSlice
  dsimp only
  repeat' split
  · exact h
  · exact h
  · exact h
  · exact standing_fireSnap _ _ _ (standing_raiseCause _ _ _ _ _ _ _ h)
  · exact standing_raiseCause _ _ _ _ _ _ _ h

theorem standing_putSector (a : Author) (n o : Nat) (bs : List Byte) (l : Label) (p : Bool) (s : State) (h : Standing s0 s) :
    Standing s0 (putSector a n o bs l p s) := standing_watchSlice _ _ _ _ h

theorem standing_charge (p : PartId) (k : HlKind) (n : Nat) (s : State) (h : Standing s0 s) : Standing s0 (charge p k n s) := by
  unfold charge
  split <;> exact h

theorem standing_emitAt (port : Nat) (m : OutMsg) (s : State) (h : Standing s0 s) : Standing s0 (emitAt port m s) := by
  unfold emitAt
  split <;> exact h

theorem standing_freePort (cls : Nat) : Keeps (Standing s0) (freePort cls) := by
  intro s h
  unfold freePort
  split <;> exact h

theorem standing_emit (cls : Nat) (m : OutMsg) : Keeps (Standing s0) (emit cls m) :=
  fun s h => standing_emitAt _ _ _ (standing_freePort cls s h)

theorem standing_sendOut (job pa : Nat) (bs : List Byte) (l : Label) (va : Word) : Keeps (Standing s0) (sendOut job pa bs l va) := by
  intro s h
  unfold sendOut
  split
  · dsimp only
    split
    · exact h
    · exact standing_emit _ _ _ h
  · exact standing_freePort _ s h

theorem standing_relDeny (c : CoreId) (v : Word) (s : State) (h : Standing s0 s) : Standing s0 (relDeny c v s) := by
  unfold relDeny queueTrap
  split
  · exact h
  · exact standing_updCore c (fun k => ⟨k.dbg, _, rfl⟩) h

theorem standing_writeback (l : Line) (s : State) (h : Standing s0 s) : Standing s0 (writeback l s) := by
  unfold writeback
  dsimp only
  split
  · exact standing_putSector _ _ _ _ _ _ _ h
  · have send : ∀ u, Standing s0 u → Standing s0 ((if l.dirty then sendOut (lineJob l) (l.sector * 64) l.bytes l.lbl l.va u
        else (WroteTo.done, u) : WroteTo × State)).2 := by
      intro u hu
      split
      · exact standing_sendOut _ _ _ _ _ _ hu
      · exact hu
    have tell : ∀ r : WroteTo × State, Standing s0 r.2 → Standing s0 (match r.1, l.task with
        | .denied va, some (c, j) => if (r.2.core c).job = some j then relDeny c va r.2 else r.2
        | _, _ => r.2) := by
      intro r hr
      repeat' split
      all_goals first | exact hr | exact standing_relDeny _ _ _ hr
    have back : ∀ u, Standing s0 u → Standing s0 (if paRemote (l.sector * 64) then u.putLine { l with dirty := false } else u) := by
      intro u hu
      split <;> exact hu
    refine back _ (tell _ (send _ ?_))
    split
    · exact standing_charge _ _ _ _ h
    · exact h

/-! ### Reads of sectors -/

theorem standing_resolveJoin (p : PartId) (a b : Label) : Keeps (Standing s0) (resolveJoin p a b) := by
  intro s h
  unfold resolveJoin
  dsimp only
  repeat' split
  all_goals exact h

theorem standing_joinAt (d : Fin 4) (p : PartId) (a b : Label) : Keeps (Standing s0) (joinAt d p a b) := by
  intro s h
  have hr := standing_resolveJoin p (liveId s.labels a) (liveId s.labels b) s h
  unfold joinAt
  dsimp only
  repeat' split
  all_goals first | exact h | exact hr

theorem standing_homeSector (n : Nat) : Keeps (Standing s0) (homeSector n) := by
  intro s h
  unfold homeSector
  dsimp only
  split
  · exact standing_emit 1 _ (freshBytes 64 s).2 h
  · exact h

theorem standing_pull (me : Option Owner) (n : Nat) (s : State) (h : Standing s0 s) : Standing s0 (pull me n s) := by
  unfold pull
  repeat' split
  · exact h
  · exact standing_writeback _ _ h
  · exact h

theorem standing_readSector (me : Option Owner) (n : Nat) : Keeps (Standing s0) (readSector me n) := by
  intro s h
  have hpull := standing_pull me n s h
  have hhome := standing_homeSector n _ hpull
  unfold readSector
  dsimp only
  split
  · exact hpull
  · generalize homeSector n (pull me n s) = r at hhome
    obtain ⟨v, u⟩ := r
    dsimp only at hhome ⊢
    split <;> exact hhome

theorem standing_physRead (pa n : Nat) : Keeps (Standing s0) (physRead pa n) :=
  keeps_foldlM _ (fun _ _ => keeps_bind (standing_readSector _ _) (fun _ => keeps_pure _)) _ _

/-! ### Walks and translations (R90 to R98) -/

theorem standing_tablePhys (p : PartId) (pa n : Nat) : Keeps (Standing s0) (tablePhys p pa n) := by
  unfold tablePhys
  dsimp only
  split
  · exact keeps_bind (keeps_modify (standing_charge _ _ _)) (fun _ => keeps_bind (standing_physRead _ _) (fun _ => keeps_pure _))
  · exact keeps_bind (standing_physRead _ _) (fun _ => keeps_pure _)

theorem standing_walkEntry (stage lev inp e : Nat) (next : Nat → SM (Except PFault Leaf)) (group : SM (Except PFault (List Byte)))
    (hn : ∀ a, Keeps (Standing s0) (next a)) (hg : Keeps (Standing s0) group) :
    Keeps (Standing s0) (walkEntry stage lev inp e next group) := by
  have leaf : ∀ es e, Keeps (Standing s0) (ctLeaf stage es e inp) := fun es e =>
    keeps_ite (keeps_pure _) (keeps_bind (fun _ h => h) (fun _ => keeps_pure _))
  unfold walkEntry
  repeat' split
  all_goals first
    | exact keeps_pure _
    | exact hn _
    | (refine keeps_bind hg (fun r => ?_)
       split
       · exact keeps_pure _
       · exact leaf _ _)

theorem standing_walk2 (p : PartId) (inp fuel lev table : Nat) : Keeps (Standing s0) (walk2 p inp fuel lev table) := by
  induction fuel generalizing lev table with
  | zero => exact keeps_pure _
  | succ n ih =>
    unfold walk2
    refine keeps_bind (standing_tablePhys _ _ _) (fun r => ?_)
    split
    · exact keeps_pure _
    · exact standing_walkEntry _ _ _ _ _ _ (fun _ => ih _ _) (standing_tablePhys _ _ _)

theorem standing_walkIpa (p : PartId) (root : Word) (ipa : Nat) : Keeps (Standing s0) (walkIpa p root ipa) :=
  keeps_ite (standing_walk2 _ _ _ _ _) (keeps_pure _)

theorem standing_tableRead (p : PartId) (root : Word) (ea n : Nat) : Keeps (Standing s0) (tableRead p root ea n) := by
  unfold tableRead
  refine keeps_bind (standing_walkIpa _ _ _) (fun r => ?_)
  repeat' split
  · exact keeps_pure _
  · exact keeps_pure _
  · refine keeps_bind keeps_get (fun s => ?_)
    split
    · exact keeps_pure _
    · exact standing_tablePhys _ _ _

theorem standing_walk1 (p : PartId) (root : Word) (inp fuel lev table : Nat) :
    Keeps (Standing s0) (walk1 p root inp fuel lev table) := by
  induction fuel generalizing lev table with
  | zero => exact keeps_pure _
  | succ n ih =>
    unfold walk1
    refine keeps_bind (standing_tableRead _ _ _ _) (fun r => ?_)
    split
    · exact keeps_pure _
    · exact standing_walkEntry _ _ _ _ _ _ (fun _ => ih _ _) (standing_tableRead _ _ _ _)

theorem standing_walkBoth (p : PartId) (vd : BitVec 3) (asid : BitVec 16) (va : Nat) :
    Keeps (Standing s0) (walkBoth p vd asid va) := by
  have root : Keeps (Standing s0) (root1 p asid) := by
    unfold root1
    refine keeps_bind keeps_get (fun s => keeps_bind (standing_tablePhys _ _ _) (fun r => ?_))
    split <;> exact keeps_pure _
  unfold walkBoth
  refine keeps_bind keeps_get (fun s => keeps_bind root (fun r => ?_))
  repeat' split
  · exact keeps_pure _
  · exact keeps_pure _
  · refine keeps_bind (standing_walk1 _ _ _ _ _ _) (fun r => ?_)
    split
    · exact keeps_pure _
    · refine keeps_bind (standing_walkIpa _ _ _) (fun r => ?_)
      split
      · exact keeps_pure _
      · exact keeps_bind (standing_resolveJoin _ _ _) (fun _ => keeps_pure _)

theorem standing_lookupPage (p : PartId) (vd : BitVec 3) (asid : BitVec 16) (va : Nat) :
    Keeps (Standing s0) (lookupPage p vd asid va) := by
  intro s h
  have hw := standing_walkBoth p vd asid va s h
  unfold lookupPage
  repeat' split
  · exact h
  · exact h
  · next e => rw [e] at hw; exact hw
  · next e => rw [e] at hw; exact hw

theorem standing_stashPage (w : Who) (cl : ClusterId) (idx v : Nat) (acc : Acc) : Keeps (Standing s0) (stashPage w cl idx v acc) := by
  intro s h
  have hw := standing_lookupPage w.pid w.vd w.asid (v * 4096) s h
  unfold stashPage
  split
  · exact h
  · split
    · next e => rw [e] at hw; exact hw
    · next e =>
      rw [e] at hw
      repeat' split
      · exact hw
      · exact hw
      · exact standing_frames cl (fun _ => rfl) hw

theorem standing_needPage (w : Who) (n : PageNeed) : Keeps (Standing s0) (needPage w n) := by
  intro s h
  have hw := standing_lookupPage w.pid w.vd w.asid (n.vpage * 4096) s h
  unfold needPage onePage
  repeat' split
  · exact h
  · exact standing_stashPage _ _ _ _ _ _ h
  · next e => rw [e] at hw; exact hw
  · next e _ _ _ => rw [e] at hw; exact hw
  · next e _ _ => rw [e] at hw; exact hw

theorem standing_openPages (w : Who) (ns : List PageNeed) : Keeps (Standing s0) (openPages w ns) := by
  induction ns with
  | nil => exact keeps_pure _
  | cons n ns ih =>
    intro s h
    have hw := standing_needPage w n s h
    unfold openPages
    split
    · next e => rw [e] at hw; exact hw
    · next e =>
      rw [e] at hw
      have hrest := ih _ hw
      split
      · next e2 => rw [e2] at hrest; exact hrest
      · next e2 => rw [e2] at hrest; exact hrest

theorem standing_markPresent (o : Option Owner) (n : Nat) (s : State) (h : Standing s0 s) : Standing s0 (markPresent o n s) := by
  unfold markPresent
  split
  · exact standing_frames _ (fun _ => rfl) h
  · exact h

theorem standing_readPieces (w : Who) (ps : List Piece) : Keeps (Standing s0) (readPieces w ps) :=
  keeps_foldlM _ (fun _ _ => keeps_bind keeps_get (fun _ => keeps_bind (keeps_modify (fun s h => standing_charge _ _ _ s h)) (fun _ =>
    keeps_bind (standing_readSector _ _) (fun _ => keeps_bind (keeps_modify (fun s h => standing_markPresent _ _ s h)) (fun _ =>
      keeps_bind (standing_joinAt _ _ _ _) (fun _ => keeps_bind (standing_joinAt _ _ _ _) (fun _ => keeps_pure _))))))) _ _

end

/-! ### The fetch (R59, R252) -/

/-- Where a meaning goes on, a property still holds. -/
def KeepsOn (I : State → Prop) {α : Type} (m : M α) : Prop := ∀ s a t, m s = .ok (a, t) → I s → I t

section
variable {I : State → Prop} {α β : Type}

theorem keepsOn_pure (a : α) : KeepsOn I (pure a : M α) := by
  rintro s a t ⟨⟩ h
  exact h

theorem keepsOn_bind {m : M α} {f : α → M β} (hm : KeepsOn I m) (hf : ∀ a, KeepsOn I (f a)) : KeepsOn I (m >>= f) := by
  intro s b t e h
  rw [M.bind_eq] at e
  cases hs : m s with
  | error x => rw [hs] at e; cases e
  | ok r =>
    rw [hs] at e
    exact hf r.1 r.2 b t e (hm s r.1 r.2 hs h)

theorem keepsOn_lift {m : SM α} (hm : Keeps I m) : KeepsOn I (lift m) := by
  intro s a t e h
  rw [lift_eq] at e
  have hs := hm s h
  rw [Except.ok.inj e] at hs
  exact hs

theorem keepsOn_get : KeepsOn I (get : M State) := by
  rintro s a t ⟨⟩ h
  exact h

theorem keepsOn_getCore (c : CoreId) : KeepsOn I (getCore c) := by
  rintro s a t ⟨⟩ h
  exact h

/-- A meaning that stops goes nowhere. -/
theorem keepsOn_stop {m : M α} (h : ∀ s, ∃ e, m s = .error e) : KeepsOn I m := by
  intro s a t ok
  obtain ⟨e, he⟩ := h s
  rw [he] at ok
  cases ok

end

theorem keepsOn_pageFault {I : State → Prop} {α : Type} (c : CoreId) (f : PFault × Word) : KeepsOn I (pageFault c f : M α) := by
  refine keepsOn_stop (fun s => ?_)
  unfold pageFault
  split <;> exact ⟨_, rfl⟩

theorem keepsOn_checkWatch {I : State → Prop} (c : CoreId) (st : Strand) (va len : Nat) (kd : WpKind) : KeepsOn I (checkWatch c st va len kd) := by
  refine keepsOn_bind (keepsOn_getCore c) (fun k => ?_)
  split
  · exact keepsOn_pure _
  · next snap _ => exact keepsOn_stop (fun s => by cases snap <;> exact ⟨_, rfl⟩)

theorem keepsOn_poisoned {I : State → Prop} (c : CoreId) (g : Got) : KeepsOn I (poisoned c g) := by
  unfold poisoned
  split
  · exact keepsOn_stop (fun s => ⟨_, rfl⟩)
  · exact keepsOn_pure _

theorem fetchWord_standing (s0 : State) (c : CoreId) (st : Strand) : KeepsOn (Standing s0) (fetchWord c st) := by
  unfold fetchWord
  refine keepsOn_bind (keepsOn_getCore c) (fun k => keepsOn_bind keepsOn_get (fun s =>
    keepsOn_bind (keepsOn_lift (standing_openPages _ _)) (fun r => ?_)))
  split
  · exact keepsOn_pageFault c _
  · exact keepsOn_bind (keepsOn_checkWatch _ _ _ _ _) (fun _ => keepsOn_bind (keepsOn_lift (standing_readPieces _ _)) (fun g =>
      keepsOn_bind (keepsOn_poisoned c g) (fun _ => keepsOn_pure _)))

/-- A fetched word leaves the strand as ready as it was. -/
theorem fetchWord_ready {s s1 : State} {c : CoreId} {st st' : Strand} {w : Word32} (h : fetchWord c st s = .ok (w, s1))
    (hr : Ready s c st') : Ready s1 c st' := (fetchWord_standing s c st s w s1 h (Standing.refl s)).ready hr

end Sys2Proof.Machine
end

section
/-! Every row goes on (O7): the row of a strand in its turn, and the row of another agent in any state. -/

namespace Sys2Proof.Machine

theorem goesOn_next (s : State) : GoesOn (.next s) := ⟨s, rfl⟩

theorem goesOn_ite {p : Prop} [Decidable p] {a b : Out} (ha : GoesOn a) (hb : GoesOn b) : GoesOn (if p then a else b) := by
  split
  · exact ha
  · exact hb

/-! ### The forms of a strand's row -/

section
variable {s : State} {c : CoreId} (h : Ready s c .C)
include h

theorem runPlain_goesOn (m : CoreId → M Unit) : GoesOn (runPlain m s) := runC_goesOn _ s c h
theorem oprRR_goesOn (f : Word → Word → Word) (d a b : BitVec 6) : GoesOn (oprRR f d a b s) := runPlain_goesOn h _
theorem oprRI_goesOn (f : Word → Word) (d a : BitVec 6) : GoesOn (oprRI f d a s) := runPlain_goesOn h _
theorem oprPc_goesOn (f : Word → Word) (d : BitVec 6) : GoesOn (oprPc f d s) := runPlain_goesOn h _
theorem branchOn_goesOn (cnd : Cond) (a b : BitVec 6) (n : BitVec 2) (o : BitVec 12) : GoesOn (branchOn cnd a b n o s) := runC_goesOn _ s c h
theorem amoRun_goesOn (i : Instr) (op n : Nat) (f : AmoFun) (d a b : BitVec 6) (u : BitVec 3) : GoesOn (amoRun i op n f d a b u s) :=
  runPlain_goesOn h _
theorem csrWriteWith_goesOn (f : Word → Word → Word) (i : Instr) (a : BitVec 6) (n : BitVec 12) : GoesOn (csrWriteWith f i a n s) :=
  runPlain_goesOn h _
theorem spillIssue_goesOn (i : Instr) (a : BitVec 6) (n : BitVec 4) (fill : Bool) : GoesOn (spillIssue i a n fill s) := runPlain_goesOn h _
theorem rdvC_goesOn (k : BitVec 8) (fin : Bool) (i : Instr) : GoesOn (rdvC k fin i s) := runRaw_goesOn _ s c h

theorem trapAfter_goesOn (code : Nat) (k : BitVec 8) : GoesOn (trapAfter code k s) := by
  obtain ⟨hcur, hmay⟩ := h
  unfold trapAfter
  rw [hcur]
  simp [hmay, GoesOn]

end

section
variable {s : State} {c : CoreId} {st : Strand} (h : Ready s c st)
include h

theorem rdvE_goesOn (ht : Tbl.E.ofStrand st = true) (w g : BitVec 3) (k : BitVec 8) (fin : Bool) (i : Instr) : GoesOn (rdvE w g k fin i s) := by
  obtain ⟨hcur, hmay⟩ := h
  unfold rdvE
  rw [hcur]
  simp only [ht, hmay, Bool.and_self, if_true]
  repeat' split
  all_goals exact goesOn_next _

end

section
variable {s : State} {c : CoreId} (h : Ready s c .X)
include h

theorem elem2_goesOn (i : Instr) (w g : BitVec 3) (d a b : BitVec 5) (p : BitVec 2) (f : Word32 → Word32 → Word32) :
    GoesOn (elem2 i w g d a b p f s) := runE_goesOn _ _ _ _ _ s c .X h rfl
theorem elem1_goesOn (i : Instr) (w g : BitVec 3) (d a : BitVec 5) (p : BitVec 2) (f : Word32 → Word32) : GoesOn (elem1 i w g d a p f s) :=
  runE_goesOn _ _ _ _ _ s c .X h rfl
theorem moveBy_goesOn (i : Instr) (w g : BitVec 3) (d a : BitVec 5) (n : BitVec 4) (p : BitVec 2) (f : Tile → Nat → Nat → Nat → Word32) :
    GoesOn (moveBy i w g d a n p f s) := runE_goesOn _ _ _ _ _ s c .X h rfl

theorem netStart_goesOn (i : Instr) (w g : BitVec 3) (xp : Bool) (init : Option (BitVec 4)) : GoesOn (netStart i w g xp init s) := by
  obtain ⟨hcur, hmay⟩ := h
  unfold netStart
  rw [hcur]
  simp only [hmay, decide_true, Bool.and_self, if_true]
  repeat' split
  all_goals exact goesOn_next _

end

theorem drain_goesOn {s : State} {c : CoreId} (h : Ready s c .S) (i : Instr) (w g : BitVec 3) (k : BitVec 5) (b : BitVec 1) (ok : Bool)
    (maxR maxC : Nat) (src : CoreId → SM DrainSrc) : GoesOn (drain i w g k b ok maxR maxC src s) := runE_goesOn _ _ _ _ _ s c .S h rfl

theorem collStep_goesOn (n op : Nat) (work : Word → Coll → CM (Option Coll)) (s : State) : GoesOn (collStep n op work s) := by
  unfold collStep
  dsimp only
  split <;> exact goesOn_next _

/-! ### The rows of the strands -/

/-- A row of the C strand's table. -/
theorem exec_goesOn_C {s : State} {c : CoreId} (h : Ready s c .C) {i : Instr} (hi : i.tbl = .C) : GoesOn (exec i s) := by
  cases i
  case add | sub | and | or | xor | sll | srl | sra | slt | sltu | mul | mulh | mulhu | div | divu | rem | remu | min |
      max =>
    unfold exec
    exact oprRR_goesOn h _ _ _ _
  case clz | ctz | popc | addi | andi | ori | xori | slti | slli | srli | srai =>
    unfold exec
    exact oprRI_goesOn h _ _ _
  case lih | adpc =>
    unfold exec
    exact oprPc_goesOn h _ _
  case ld | st | fence | csrr | wfi | snap | tcp | chanGo | chanStat | chanAbort | lrecFlush | semAcq | semRel | semTry |
      semRd | tokGive | tokWait | fork | domSetSplit | domSetJoin | flagAdd | flagWait | waitt | launch | est | srkey |
      lblRdReg | lblRdMem | splice | repGo | repPoll | collGo | collPoll =>
    delta exec execCollGo
    exact runPlain_goesOn h _
  case beq | bne | blt | bge | bltu | bgeu =>
    unfold exec
    exact branchOn_goesOn h _ _ _ _ _
  case j | jal | jalr =>
    unfold exec
    exact runC_goesOn _ s c h
  case amoAdd | amoAnd | amoOr | amoXor | amoMin | amoMax | amoSwap | amoCas | amoFadd =>
    unfold exec
    exact amoRun_goesOn h _ _ _ _ _ _ _ _
  case csrw | csrs =>
    unfold exec
    exact csrWriteWith_goesOn h _ _ _ _
  case svc | brk =>
    unfold exec
    exact trapAfter_goesOn h _ _
  case tret | phase =>
    unfold exec
    exact runRaw_goesOn _ s c h
  case rdv | rdvEnd =>
    unfold exec
    exact rdvC_goesOn h _ _ _
  case ssSpill | ssFill =>
    unfold exec
    exact spillIssue_goesOn h _ _ _ _
  all_goals cases hi

/-- A row of the table that the engine strands share. -/
theorem exec_goesOn_E {s : State} {c : CoreId} {st : Strand} (h : Ready s c st) (ht : Tbl.E.ofStrand st = true) {i : Instr} (hi : i.tbl = .E) :
    GoesOn (exec i s) := by
  cases i
  case lpSetImm | lpSetReg | lpEnd | eJ | eBnz | nLi | nAdd | eNop =>
    unfold exec
    exact runE_goesOn .E _ _ _ _ s c st h ht
  case eRdv | eRdvEnd =>
    unfold exec
    exact rdvE_goesOn h ht _ _ _ _ _
  all_goals cases hi

/-- A row of the L strand's table. -/
theorem exec_goesOn_L {s : State} {c : CoreId} (h : Ready s c .L) {i : Instr} (hi : i.tbl = .L) : GoesOn (exec i s) := by
  cases i
  case sdBase | sdFmt | sdGeom | sdScale | rgCfg | rgRst | ldTile | ldStrd | ldGath | ldVt | ldBcst | nestSetImm |
      nestSetReg | nestSwap =>
    delta exec execSdBase execSdFmt execSdGeom execSdScale execRgCfg execRgRst execLdTile execLdStrd execLdGath execLdVt
      execLdBcst execNestSetImm execNestSetReg execNestSwap
    exact runE_goesOn .L _ _ _ _ s c .L h rfl
  all_goals cases hi

/-- A row of the X strand's table. -/
theorem exec_goesOn_X {s : State} {c : CoreId} (h : Ready s c .X) {i : Instr} (hi : i.tbl = .X) : GoesOn (exec i s) := by
  cases i
  case mma | mmaQ | acZero | acMv | acLd | acLdAdd | mfence | vfma | vcmp | vsel | vmovMt | vmovTm | vmovMm | vli | vliF |
      vredr | vredc | vscanr | vperm | vtr4 | vtree | scanCfg | scanSeg | scanSegOff | scanLocAgg | scanLocOut |
      scanLocFin | scanApp | scanStep | ssLd | ssLdF | ssSt | ssStF | ssZero =>
    delta exec execMma execMmaQ execAcZero execAcMv execAcLd execAcLdAdd execMfence execScanCfg execScanLocAgg
      execScanLocOut execScanLocFin execScanApp execScanStep
    exact runE_goesOn .X _ _ _ _ s c .X h rfl
  case vadd | vsub | vmul | vmax | vmin | vand | vor | vxor | vshl | vshr =>
    unfold exec
    exact elem2_goesOn h _ _ _ _ _ _ _ _
  case vabs | vneg | vcvt | vmov | vexp2 | vlog2 | vrcp | vrsqrt | vtanh | vsigm | vsoftp =>
    unfold exec
    exact elem1_goesOn h _ _ _ _ _ _ _
  case vrotr | vrotc | vbcr | vbcc =>
    unfold exec
    exact moveBy_goesOn h _ _ _ _ _ _ _ _
  case scanNet | scanNetInit =>
    unfold exec
    exact netStart_goesOn h _ _ _ _ _
  all_goals cases hi

/-- A row of the S strand's table. -/
theorem exec_goesOn_S {s : State} {c : CoreId} (h : Ready s c .S) {i : Instr} (hi : i.tbl = .S) : GoesOn (exec i s) := by
  cases i
  case drMode | histCfg | histRd | histRdClr | histClr | stTile | stWb | stInv | tileDone =>
    delta exec execDrMode execHistCfg execStTile execStWb execStInv execTileDone
    exact runE_goesOn .S _ _ _ _ s c .S h rfl
  case drAcc | drAccAll | drVt =>
    unfold exec
    exact drain_goesOn h _ _ _ _ _ _ _ _ _
  all_goals cases hi

/-- The row of a strand in its turn (R59, R73). -/
theorem exec_goesOn {s : State} {c : CoreId} {st : Strand} (h : Ready s c st) {i : Instr} (hi : i.tbl.ofStrand st = true) :
    GoesOn (exec i s) := by
  cases ht : i.tbl <;> rw [ht] at hi
  case E => exact exec_goesOn_E h hi ht
  case agent => cases st <;> cases hi
  all_goals cases st
  case C.C => exact exec_goesOn_C h ht
  case L.L => exact exec_goesOn_L h ht
  case X.X => exact exec_goesOn_X h ht
  case S.S => exact exec_goesOn_S h ht
  all_goals cases hi

/-! ### The rows of the other agents -/

theorem execSpillCompletion_goesOn (c : CoreId) (s : State) : GoesOn (execSpillCompletion c s) := by
  unfold execSpillCompletion
  cases (s.core c).spill.cmds with
  | nil => exact goesOn_next _
  | cons q qs =>
    refine goesOn_ite (goesOn_next _) ?_
    cases q.got with
    | some new => exact goesOn_next _
    | none =>
      extract_lets w
      generalize translate w _ _ _ s = r
      obtain ⟨r, s1⟩ := r
      cases r with
      | error f => exact goesOn_next _
      | ok pages => exact goesOn_ite (goesOn_next _) (goesOn_next _)

theorem execQuantumEnd_goesOn (p : PartId) (s : State) : GoesOn (execQuantumEnd p s) := by
  unfold execQuantumEnd
  dsimp only
  split <;> exact goesOn_next _

/-- A row of an agent other than the strands: in every state it answers a next one. -/
theorem exec_agent_goesOn {i : Instr} (hi : i.tbl = .agent) (s : State) : GoesOn (exec i s) := by
  cases i
  case loadDelivery | phaseBarrierComplete | spliceService | repGoService | collAck | epochRewrite | hostRegisterWrite |
      invStage1Range | invStage1All | invStage2Range | invStage2All | invPartitionAll | wqkick | wqEnable | wqResume |
      wqSkip | wqDestroy | psl | vdq | tintr | timeset | snapHostTrigger | snapArm | wsrecValidClear | racepaValidClear |
      hprecValidClear | relrecValidClear | ftrecValidClear | lostClear | createOrigin | installPolicy | removePolicy |
      attest | ppsIn | lovageGrant | thermalTrip | amoDelivery | hostLinkBudgetWindow =>
    exact goesOn_next _
  case collSend | collRecv | collCopy | collWait | collLoop | collEnd =>
    unfold exec
    exact collStep_goesOn _ _ _ s
  case spillCompletion =>
    exact execSpillCompletion_goesOn _ s
  case quantumEnd =>
    exact execQuantumEnd_goesOn _ s
  case annulledPosition | collMessage | linkDown | bringupStart | verify | meminit | functionLevelReset | thermalTripEnd |
      illegalInstructionWord | instructionFetchFault | asyncTrapTake | vtreeDelivery | histRdDelivery | ldTileEntryWrite |
      mmaRetire | taskRetire | semWaiterServed | transferRecordRead | recordCompletion | deadlineLeadReached | carryPacket
      | chunkReady | packetFetch | bucketRefill | rackLaunchPacket | ualinkRequest | flitReceive | hostMemoryRead |
      hostMemoryWrite | invalidationDone | queueOffAfterDestroy | coldReset | flagAddApply | waittResume | transferUnit |
      tcpCompletion | scanNetSweepEnd | workItemReturn | guardedReadResume | abortNotice | collTimeout | labelJoinMiss |
      prologueComplete | preemptionDecision | jobBind | drain | drainWindowExpiry | checkpoint | contextSaved | kill |
      jobResume | flitReplay | mailboxDone | l1Writeback =>
    unfold exec
    dsimp only
    delta execAnnulledPosition execCollMessage execLinkDown execBringupStart execVerify execMeminit execFunctionLevelReset
      execThermalTripEnd execIllegalInstructionWord execInstructionFetchFault execAsyncTrapTake execVtreeDelivery
      execHistRdDelivery execLdTileEntryWrite execMmaRetire execTaskRetire execSemWaiterServed execTransferRecordRead
      execRecordCompletion execDeadlineLeadReached execCarryPacket execChunkReady execPacketFetch execBucketRefill
      execRackLaunchPacket execUalinkRequest execFlitReceive execHostMemoryRead execHostMemoryWrite execInvalidationDone
      execQueueOffAfterDestroy execColdReset execFlagAddApply execWaittResume execTransferUnit execTcpCompletion
      execScanNetSweepEnd execWorkItemReturn execGuardedReadResume execAbortNotice execCollTimeout execLabelJoinMiss
      execPrologueComplete execPreemptionDecision execJobBind execDrain execDrainWindowExpiry execCheckpoint
      execContextSaved execKill execJobResume execFlitReplay execMailboxDone execL1Writeback
    repeat' first | with_reducible exact goesOn_next _ | extract_lets | split
  all_goals cases hi

end Sys2Proof.Machine
end

section
/-! No turn stops the machine (O7). -/

namespace Sys2Proof.Machine

/-! ### A decoded row is of the strand's table (R59, R73) -/

/-- Every instruction that a part of the decoder gives is of one table. -/
def RowsOf (t : Tbl) (o : Option Instr) : Prop := ∀ i, o = some i → i.tbl = t

theorem rowsOf_none {t : Tbl} : RowsOf t none := by
  intro i h
  cases h

theorem rowsOf_some {t : Tbl} {i : Instr} (h : i.tbl = t) : RowsOf t (some i) := by
  rintro _ ⟨⟩
  exact h

theorem rowsOf_ite {t : Tbl} {p : Prop} [Decidable p] {a b : Option Instr} (ha : RowsOf t a) (hb : RowsOf t b) :
    RowsOf t (if p then a else b) := by
  split
  · exact ha
  · exact hb

theorem decodeC_rows (w : Nat) : RowsOf .C (decodeC w) := by
  unfold decodeC decodeC01 decodeC07 decodeC15 decodeC17 decodeC18 decodeC19 decodeC1A decodeC1B decodeC1C decodeC1D decodeC1E decodeC1F
    decodeC20 decodeC21 decodeC22
  split
  all_goals repeat' first | exact rowsOf_none | exact rowsOf_some rfl | apply rowsOf_ite

theorem decodeE_rows (w : Nat) : RowsOf .E (decodeE w) := by
  unfold decodeE decodeE01 decodeE07
  split
  all_goals repeat' first | exact rowsOf_none | exact rowsOf_some rfl | apply rowsOf_ite

theorem decodeL_rows (w : Nat) : RowsOf .L (decodeL w) := by
  unfold decodeL decodeL1B
  split
  all_goals repeat' first | exact rowsOf_none | exact rowsOf_some rfl | apply rowsOf_ite

theorem decodeX_rows (w : Nat) : RowsOf .X (decodeX w) := by
  unfold decodeX decodeX14 decodeX28 decodeX29 decodeX2A decodeX36 decodeX37 decodeX38 decodeX3B decodeX3C
  split
  all_goals repeat' first | exact rowsOf_none | exact rowsOf_some rfl | apply rowsOf_ite

theorem decodeS_rows (w : Nat) : RowsOf .S (decodeS w) := by
  unfold decodeS decodeS10 decodeS14
  split
  all_goals repeat' first | exact rowsOf_none | exact rowsOf_some rfl | apply rowsOf_ite

theorem decodeRow_ofStrand {st : Strand} {w : Nat} {i : Instr} (h : decodeRow st w = some i) : i.tbl.ofStrand st = true := by
  cases st with
  | C => rw [decodeC_rows w i h]; rfl
  | L =>
    rw [decodeRow] at h
    split at h
    · rw [decodeE_rows w i h]; rfl
    · rw [decodeL_rows w i h]; rfl
  | X =>
    rw [decodeRow] at h
    split at h
    · rw [decodeE_rows w i h]; rfl
    · rw [decodeX_rows w i h]; rfl
  | S =>
    rw [decodeRow] at h
    split at h
    · rw [decodeE_rows w i h]; rfl
    · rw [decodeS_rows w i h]; rfl

theorem decode_ofStrand {st : Strand} {w : Word32} {i : Instr} (h : decode st w = .ok i) : i.tbl.ofStrand st = true := by
  unfold decode at h
  split at h
  · cases h
  · next hi =>
    split at h
    · cases h
      exact decodeRow_ofStrand hi
    · cases h

/-! ### A strand's turn -/

theorem fetchStep_goesOn {s : State} {c : CoreId} {st : Strand} (h : Ready s c st) : GoesOn (fetchStep c st s) := by
  unfold fetchStep
  split
  · exact exec_agent_goesOn (i := .instructionFetchFault c st) rfl s
  · exact goesOn_next _
  · next w s1 hf =>
    split
    · next i hi => exact exec_goesOn (fetchWord_ready hf h) (decode_ofStrand hi)
    · exact exec_agent_goesOn (i := .illegalInstructionWord c st w) rfl s1

theorem wakeC_goesOn {s : State} {c : CoreId} {o : Out} (h : wakeC c s = some o) : GoesOn o := by
  have deliver : ∀ p : Pend, GoesOn (if p.src = .amo then execAmoDelivery c p.reg s else execLoadDelivery c p.reg s) := fun p =>
    goesOn_ite (exec_agent_goesOn (i := .amoDelivery c p.reg) rfl s) (exec_agent_goesOn (i := .loadDelivery c p.reg) rfl s)
  unfold wakeC at h
  dsimp only at h
  split at h
  · cases h
    split
    · exact deliver _
    · exact exec_agent_goesOn (i := .taskRetire c) rfl s
  · split at h
    · cases h
      exact exec_agent_goesOn (i := .phaseBarrierComplete c) rfl s
    · split at h
      · cases h
        exact deliver _
      · cases h

theorem issueStep_goesOn {s : State} {c : CoreId} {st : Strand} (hcur : s.cur = (c, st)) : GoesOn (issueStep c st s) := by
  unfold issueStep
  dsimp only
  refine goesOn_ite (exec_agent_goesOn (i := .asyncTrapTake c) rfl s) ?_
  split
  · next o ho =>
    split at ho
    · exact wakeC_goesOn ho
    · cases ho
  · split
    · exact goesOn_next _
    · next hm =>
      have hmay : mayIssue s c st = true := by simpa using hm
      exact goesOn_ite (exec_agent_goesOn (i := .annulledPosition c) rfl s) (fetchStep_goesOn ⟨hcur, hmay⟩)

theorem mixTile_cur (a b : Tile) (s : State) : (mixTile a b s).2.cur = s.cur := by
  unfold mixTile
  split <;> rfl

theorem viewTiles_cur (c : CoreId) (ws : List TornTile) (s : State) : (viewTiles c ws s).cur = s.cur := by
  unfold viewTiles
  induction ws generalizing s with
  | nil => rfl
  | cons w ws ih =>
    rw [List.foldl_cons, ih]
    exact mixTile_cur _ _ s

theorem joinL_cur (c : CoreId) (a b : Label) (s : State) : (joinL c a b s).2.cur = s.cur := by
  obtain ⟨-, hcur, -⟩ := standing_joinAt (dieOf c) (s.core c).id.pid a b s (Standing.refl s)
  exact hcur

theorem mixSlot_cur (c : CoreId) (a b : Slot) (s : State) : (mixSlot c a b s).2.cur = s.cur := by
  unfold mixSlot
  split
  · rfl
  · extract_lets n bitsOf
    generalize ht : ({ s with freeCtr := n + 8201 } : State) = t
    have hcur : t.cur = s.cur := by rw [← ht]
    rw [← hcur, ← joinL_cur c a.lbl b.lbl t]
    generalize joinL c a.lbl b.lbl t = r
    rfl

theorem viewSlot_cur (c : CoreId) (n : BitVec 4) (new : Slot) (s : State) : (viewSlot c n new s).cur = s.cur := by
  rw [← mixSlot_cur c ((s.core c).xs.slot n) new s, viewSlot]
  generalize mixSlot c ((s.core c).xs.slot n) new s = r
  rfl

theorem viewOf_cur (c : CoreId) (st : Strand) (s : State) : (viewOf c st s).cur = s.cur := by
  have htiles := viewTiles_cur c (tornBy (s.core c) st) s
  unfold viewOf
  extract_lets s1
  split
  · exact htiles
  · exact (viewSlot_cur _ _ _ _).trans htiles

theorem jobStep_goesOn {s : State} {c : CoreId} {o : Out} (h : jobStep c s = some o) : GoesOn o := by
  unfold jobStep at h
  split at h
  · cases h
  · next j _ =>
    split at h
    · cases h
      exact exec_agent_goesOn (i := .kill j.id) rfl s
    · split at h
      · cases h
        exact exec_agent_goesOn (i := .jobResume j.id []) rfl s
      · cases h

/-- What a strand sees of the others' writes does not stop its turn (R185, R216). -/
theorem seeing_goesOn {c : CoreId} {st : Strand} {issue : State → Out} {s : State}
    (hi : ∀ t : State, t.cur = s.cur → GoesOn (issue t)) : GoesOn (seeing c st issue s) := by
  unfold seeing
  refine goesOn_ite (hi s rfl) ?_
  obtain ⟨t, ht⟩ := hi (viewOf c st s) (viewOf_cur c st s)
  dsimp only
  rw [ht]
  exact goesOn_next _

theorem leaving_goesOn {c : CoreId} {st : Strand} {issue : State → Out} {s : State}
    (hi : ∀ t : State, t.cur = s.cur → GoesOn (issue t)) : GoesOn (leaving c st issue s) := by
  unfold leaving
  refine goesOn_ite (hi s rfl) ?_
  obtain ⟨t, ht⟩ := hi (s.updCore c (fun k => { k with flights := k.flights ++ [tornMark st] })) rfl
  rw [ht]
  exact goesOn_next _

theorem strandIssue_goesOn {c : CoreId} {st : Strand} {issue : State → Out} {s : State}
    (hi : ∀ t : State, t.cur = s.cur → GoesOn (issue t)) : GoesOn (strandIssue c st issue s) := seeing_goesOn hi

theorem jobStep_getD_goesOn {s : State} {c : CoreId} {o : Out} (h : GoesOn o) : GoesOn ((jobStep c s).getD o) := by
  cases hj : jobStep c s with
  | none => exact h
  | some o => exact jobStep_goesOn hj

theorem strandStep_goesOn {s : State} {c : CoreId} {st : Strand} (hcur : s.cur = (c, st)) : GoesOn (strandStep c st s) :=
  jobStep_getD_goesOn (strandIssue_goesOn (fun _ ht => issueStep_goesOn (ht.trans hcur)))

theorem tornStep_goesOn {s : State} {c : CoreId} {st : Strand} (hcur : s.cur = (c, st)) : GoesOn (tornStep c st s) :=
  jobStep_getD_goesOn (strandIssue_goesOn (fun _ ht => leaving_goesOn (fun _ hu => issueStep_goesOn (hu.trans (ht.trans hcur)))))

/-! ### The statement (O7) -/

theorem turn_goesOn {a : Agent} (h : ∀ i, a = .event i → i.tbl = .agent) (s : State) : GoesOn (turn a s) := by
  cases a with
  | strand c st => exact strandStep_goesOn rfl
  | torn c st => exact tornStep_goesOn rfl
  | event i => exact exec_agent_goesOn (h i rfl) s
  | _ => exact goesOn_next _

theorem paced_goesOn {s : State} {o : Out} (h : GoesOn o) : GoesOn (paced s o) := by
  obtain ⟨t, rfl⟩ := h
  exact goesOn_ite (goesOn_next _) (goesOn_next _)

/-- Settles O7: a strand's row finds the strand as ready as its fetch did, and no row of another agent refuses a state. -/
theorem stepNeverStops : Obligations.StepNeverStops := by
  unfold Obligations.StepNeverStops
  intro s h
  show GoesOn (nextTurn s)
  unfold nextTurn
  split
  · exact paced_goesOn (strandStep_goesOn rfl)
  · next a rest ha => exact paced_goesOn (turn_goesOn (fun i hi => h i (by rw [ha, hi]; rfl)) _)

end Sys2Proof.Machine
end

section
/-! What a property of the state has to allow for a strand's rows to keep it, and the building blocks of meanings that keep it (O6). -/

namespace Sys2Proof.Machine

/-! ### Properties that a strand's row keeps -/

/-- What a property has to allow for the rows of a strand to keep it: memory and side bands are written, cores change in whatever opens no
tile write of another strand (R185), and all the rest is free. -/
structure RowClosed (st : Strand) (I : State → Prop) : Prop where
  free : ∀ s t : State, I s → t.cores = s.cores → t.mem = s.mem → t.side = s.side → I t
  core : ∀ s c f, I s → (tornBy (s.core c) st = [] → tornBy (f (s.core c)) st = []) → I (s.updCore c f)
  store : ∀ s a bs, I s → I { s with mem := putBytes s.mem a bs }
  band : ∀ s n sd, I s → I { s with side := mapSet Side.none s.side n sd }

theorem tornBy_congr {k k' : Core} (h : k'.flights = k.flights) (st : Strand) : tornBy k' st = tornBy k st := by
  rw [tornBy, h]
  rfl

section
variable {st : Strand} {I : State → Prop} (hI : RowClosed st I)
include hI

namespace RowClosed

/-- A change of a core that leaves its flights alone. -/
theorem sameFlights (c : CoreId) (f : Core → Core) (s : State) (h : I s) (hf : ∀ k, (f k).flights = k.flights) :
    I (s.updCore c f) :=
  hI.core s c f h (fun hk => (tornBy_congr (hf _) st).trans hk)

/-! ### Accesses (R84 to R109) -/

theorem raiseCause (kind : Nat) (p : PartId) (vd j q d : Nat) (s : State) (h : I s) : I (raiseCause kind p vd j q d s) := by
  unfold Machine.raiseCause
  dsimp only
  split <;> exact hI.free s _ h rfl rfl rfl

theorem fireSnap (p : PartId) (src : Nat) (s : State) (h : I s) : I (fireSnap p src s) := by
  have latch : ∀ (cs : List CoreId) s, I s → I (cs.foldl (fun s c => s.updCore c latchCore) s) := by
    intro cs
    induction cs with
    | nil => exact fun _ h => h
    | cons c cs ih => exact fun s h => ih _ (hI.sameFlights c latchCore s h fun _ => by rfl)
  unfold Machine.fireSnap
  dsimp only
  split
  · exact h
  · exact hI.free _ _ (latch _ s h) rfl rfl rfl

theorem watchSlice (a : Author) (pa len : Nat) (s : State) (h : I s) : I (watchSlice a pa len s) := by
  have hits : ∀ k f n, I (countHits k n (s.updSlice k f)) := fun k f n => hI.free s _ h rfl rfl rfl
  unfold Machine.watchSlice
  dsimp only
  repeat' split
  · exact h
  · exact hI.free s _ h rfl rfl rfl
  · exact hits _ _ _
  · exact hI.fireSnap _ _ _ (hI.raiseCause _ _ _ _ _ _ _ (hits _ _ _))
  · exact hI.raiseCause _ _ _ _ _ _ _ (hits _ _ _)

theorem putSector (a : Author) (n o : Nat) (bs : List Byte) (l : Label) (p : Bool) (s : State) (h : I s) : I (putSector a n o bs l p s) :=
  hI.free _ _ (hI.watchSlice _ _ _ _ (hI.band _ n _ (hI.store s (n * 64) _ h))) rfl rfl rfl

theorem queueTrap (c : CoreId) (t : ATrap) (s : State) (h : I s) : I (queueTrap c t s) := by
  unfold Machine.queueTrap
  split
  · exact h
  · exact hI.sameFlights c _ s h fun _ => by rfl

theorem relDeny (c : CoreId) (v : Word) (s : State) (h : I s) : I (relDeny c v s) := hI.queueTrap c _ s h

theorem charge (p : PartId) (k : HlKind) (n : Nat) (s : State) (h : I s) : I (charge p k n s) := by
  unfold Machine.charge
  split
  · exact h
  · exact hI.free s _ h rfl rfl rfl

theorem freePort (cls : Nat) : Keeps I (freePort cls) := by
  intro s h
  unfold Machine.freePort
  split
  · exact h
  · exact hI.free s _ h rfl rfl rfl

theorem emitAt (port : Nat) (m : OutMsg) (s : State) (h : I s) : I (emitAt port m s) := by
  unfold Machine.emitAt
  split <;> exact hI.free s _ h rfl rfl rfl

theorem emit (cls : Nat) (m : OutMsg) : Keeps I (emit cls m) := fun s h => hI.emitAt _ _ _ (hI.freePort cls s h)

theorem sendOut (job pa : Nat) (bs : List Byte) (l : Label) (va : Word) : Keeps I (sendOut job pa bs l va) := by
  intro s h
  unfold Machine.sendOut
  split
  · dsimp only
    split
    · exact hI.store _ _ _ h
    · exact hI.emit _ _ _ h
  · exact hI.free _ _ (hI.freePort _ s h) rfl rfl rfl

theorem writeback (l : Line) (s : State) (h : I s) : I (writeback l s) := by
  have drop : I (s.dropLine l.sector) := hI.free s _ h rfl rfl rfl
  unfold Machine.writeback
  dsimp only
  split
  · exact hI.putSector _ _ _ _ _ _ _ drop
  · have send : ∀ u, I u → I ((if l.dirty then Machine.sendOut (lineJob l) (l.sector * 64) l.bytes l.lbl l.va u
        else (WroteTo.done, u) : WroteTo × State)).2 := by
      intro u hu
      split
      · exact hI.sendOut _ _ _ _ _ _ hu
      · exact hu
    have tell : ∀ r : WroteTo × State, I r.2 → I (match r.1, l.task with
        | .denied va, some (c, j) => if (r.2.core c).job = some j then Machine.relDeny c va r.2 else r.2
        | _, _ => r.2) := by
      intro r hr
      repeat' split
      · exact hI.relDeny _ _ _ hr
      · exact hr
      · exact hr
    have back : ∀ u, I u → I (if paRemote (l.sector * 64) then u.putLine { l with dirty := false } else u) := by
      intro u hu
      split
      · exact hI.free u _ hu rfl rfl rfl
      · exact hu
    refine back _ (tell _ (send _ ?_))
    split
    · exact hI.charge _ _ _ _ drop
    · exact drop

/-- Accesses and translations keep what a row keeps. -/
theorem closed : Closed I where
  labels s _ _ h := hI.free s _ h rfl rfl rfl
  ctr s _ h := hI.free s _ h rfl rfl rfl
  out s _ h := hI.free s _ h rfl rfl rfl
  waiting s _ h := hI.free s _ h rfl rfl rfl
  tlb s _ h := hI.free s _ h rfl rfl rfl
  clusters s _ _ h := hI.free s _ h rfl rfl rfl
  parts s _ _ h := hI.free s _ h rfl rfl rfl
  drop s _ h := hI.free s _ h rfl rfl rfl
  put s a n o bs l p h := hI.putSector a n o bs l p s h
  hostMem s a bs h := hI.store s a bs h
  back s l _ h := hI.writeback l s h
  clean s _ _ h := hI.free s _ h rfl rfl rfl
  held s _ _ h := hI.free s _ h rfl rfl rfl

theorem anyLine (s : State) (x : Line) (h : I s) : I (s.putLine x) := hI.free s _ h rfl rfl rfl

theorem writePieces (w : Who) (ps : List Piece) (bs : List Byte) (l : Label) : Keeps I (writePieces w ps bs l) :=
  keeps_writePieces hI.closed w ps bs l (.inr hI.anyLine)

theorem writeVirt (w : Who) (va : Nat) (bs : List Byte) (l : Label) : Keeps I (writeVirt w va bs l) :=
  keeps_writeVirt hI.closed w va bs l hI.anyLine

theorem writeRace (w : Who) (pa : Nat) (v : Word) : Keeps I (writeRace w pa v) :=
  keeps_bind keeps_get fun _ => keeps_bind (keeps_readSector hI.closed _ _) fun _ =>
    keeps_writeSector hI.closed _ _ _ _ _ _ (.inr hI.anyLine)

end RowClosed
end

/-! ### Meanings (R252, R350) -/

/-- The state in which a meaning ends, by completion, trap or wait. -/
def endOf {α : Type} : Except Stop (α × State) → State
  | .ok r => r.2
  | .error (.trap _ _ _ t) => t
  | .error (.wait t) => t

/-- However a meaning ends, a property that held still holds. -/
def KeepsM (I : State → Prop) {α : Type} (m : M α) : Prop := ∀ s, I s → I (endOf (m s))

namespace KeepsM
variable {I : State → Prop} {α β : Type}

theorem pure (a : α) : KeepsM I (Pure.pure a : M α) := fun _ h => h

theorem bind {m : M α} {f : α → M β} (hm : KeepsM I m) (hf : ∀ a, KeepsM I (f a)) : KeepsM I (m >>= f) := by
  intro s h
  have h1 := hm s h
  rw [M.bind_eq]
  cases hs : m s with
  | ok r =>
    rw [hs] at h1
    exact hf r.1 r.2 h1
  | error e =>
    rw [hs] at h1
    cases e <;> exact h1

theorem get : KeepsM I (MonadState.get : M State) := fun _ h => h
theorem getCore (c : CoreId) : KeepsM I (getCore c) := fun _ h => h
theorem wait : KeepsM I (waitNow : M α) := fun _ h => h
theorem trap (code sub : Nat) (tval : Word) : KeepsM I (trapNow code tval sub : M α) := fun _ h => h
theorem modifyState {f : State → State} (hf : ∀ s, I s → I (f s)) : KeepsM I (modify f : M PUnit) := hf
theorem lift {m : SM α} (hm : Keeps I m) : KeepsM I (lift m) := hm

theorem ite {p : Prop} [Decidable p] {m n : M α} (hm : KeepsM I m) (hn : KeepsM I n) : KeepsM I (if p then m else n) := by
  split
  · exact hm
  · exact hn

theorem need (b : Bool) (code : Nat) (tval : Word) : KeepsM I (need b code tval) := ite (pure _) (trap _ _ _)
theorem waitUnless (b : Bool) : KeepsM I (waitUnless b) := ite (pure _) wait

theorem forM {l : List α} {f : α → M PUnit} (hf : ∀ a, KeepsM I (f a)) : KeepsM I (l.forM f) := by
  induction l with
  | nil => exact pure _
  | cons a l ih => exact (hf a).bind fun _ => ih

theorem mapM {l : List α} {f : α → M β} (hf : ∀ a, KeepsM I (f a)) : KeepsM I (l.mapM f) := by
  induction l with
  | nil => exact fun _ h => h
  | cons a l ih =>
    rw [List.mapM_cons]
    exact (hf a).bind fun _ => ih.bind fun _ => pure _

theorem foldlM {f : β → α → M β} (hf : ∀ b a, KeepsM I (f b a)) (l : List α) (b : β) : KeepsM I (l.foldlM f b) := by
  induction l generalizing b with
  | nil => exact pure _
  | cons a l ih =>
    rw [List.foldlM_cons]
    exact (hf b a).bind fun _ => ih _

end KeepsM

end Sys2Proof.Machine
end

section
/-! Registers, checks, accesses, the journal and guards keep what a row keeps (O6). -/

namespace Sys2Proof.Machine
namespace RowClosed

section
variable {st : Strand} {I : State → Prop} (hI : RowClosed st I)
include hI

/-! ### Registers and stops -/

theorem modCore (c : CoreId) (f : Core → Core) (hf : ∀ k, (f k).flights = k.flights) : KeepsM I (modCore c f) :=
  fun s h => hI.sameFlights c f s h hf

theorem killJobOf (c : CoreId) (s : State) (h : I s) : I (killJobOf c s) := by
  unfold Machine.killJobOf
  split
  · exact hI.free s _ h rfl rfl rfl
  · exact h

theorem pageFault {α : Type} (c : CoreId) (f : PFault × Word) : KeepsM I (pageFault c f : M α) :=
  .ite (.bind (.modifyState (hI.killJobOf c)) fun _ => .wait) (.trap _ _ _)

omit hI in
theorem readX (c : CoreId) (r : BitVec 6) : KeepsM I (readX c r) := .bind (.getCore c) fun _ => .bind (.waitUnless _) fun _ => .pure _

omit hI in
theorem readXL (c : CoreId) (r : BitVec 6) : KeepsM I (readXL c r) := .bind (.getCore c) fun _ => .bind (.waitUnless _) fun _ => .pure _

theorem writeX (c : CoreId) (r : BitVec 6) (v : Word) (l : Label) : KeepsM I (writeX c r v l) :=
  .bind (.getCore c) fun _ => .bind (.waitUnless _) fun _ => hI.modCore c _ (fun k => k.flights_setX r v l)

omit hI in
theorem needFree (c : CoreId) (r : BitVec 6) : KeepsM I (needFree c r) := .bind (.getCore c) fun _ => .waitUnless _

/-! ### Accesses of a strand (R94 to R106, R247) -/

theorem checkWatch (c : CoreId) (st' : Strand) (va len : Nat) (kd : WpKind) : KeepsM I (checkWatch c st' va len kd) := by
  refine .bind (.getCore c) fun k => ?_
  split
  · exact .pure _
  · exact .ite (.bind (.modifyState (hI.fireSnap _ _)) fun _ => .trap _ _ _) (.trap _ _ _)

theorem checkRace (c : CoreId) (st' : Strand) (ps : List Piece) : KeepsM I (checkRace c st' ps) := by
  refine .forM fun p => .ite (.bind (.getCore c) fun k => .bind (.lift (keeps_readRace hI.closed _ _)) fun r => ?_) (.pure _)
  split
  · exact .ite (.pure _) (.bind (hI.modCore c _ fun _ => by rfl) fun _ => .trap _ _ _)
  · exact .bind (.modifyState (hI.killJobOf c)) fun _ => .wait

theorem stampRace (c : CoreId) (w : Who) (ps : List Piece) : KeepsM I (stampRace c w ps) :=
  .forM fun _ => .ite (.bind (.getCore c) fun _ => .lift (hI.writeRace _ _ _)) (.pure _)

theorem openAccess (c : CoreId) (st' : Strand) (va n : Nat) (acc : Acc) (kd : WpKind) (race : Bool) :
    KeepsM I (openAccess c st' va n acc kd race) := by
  refine .bind .get fun s => .bind (.lift (keeps_translate hI.closed _ _ _ _)) fun r => ?_
  split
  · exact hI.pageFault c _
  · exact .bind (hI.checkWatch _ _ _ _ _) fun _ => .ite (.bind (hI.checkRace _ _ _) fun _ => .pure _) (.pure _)

theorem poisoned (c : CoreId) (g : Got) : KeepsM I (poisoned c g) :=
  .ite (.bind (.modifyState (hI.killJobOf c)) fun _ => .wait) (.pure _)

theorem strandRead (c : CoreId) (st' : Strand) (va n : Nat) (race : Bool) : KeepsM I (strandRead c st' va n race) :=
  .bind (hI.openAccess _ _ _ _ _ _ _) fun _ => .bind (.lift (keeps_readPieces hI.closed _ _)) fun g =>
    .bind (hI.poisoned c g) fun _ => .pure _

theorem wrote (c : CoreId) (r : WroteTo) (s : State) (h : I s) : I (wrote c r s) := by
  cases r with
  | done => exact h
  | denied va => exact hI.relDeny c va s h
  | poison => exact hI.killJobOf c s h

theorem reportDrop (c : CoreId) (r : WroteTo) : KeepsM I (reportDrop c r) := .modifyState (hI.wrote c r)

theorem strandWrite (c : CoreId) (st' : Strand) (va : Nat) (bs : List Byte) (l : Label) (race : Bool) :
    KeepsM I (strandWrite c st' va bs l race) :=
  .bind (hI.openAccess _ _ _ _ _ _ _) fun _ =>
    .ite (.bind (hI.stampRace _ _ _) fun _ => .bind (.lift (hI.writePieces _ _ _ _)) fun r => hI.reportDrop c r)
      (.bind (.lift (hI.writePieces _ _ _ _)) fun r => hI.reportDrop c r)

/-! ### The journal (R250, R360, R361) -/

theorem addPend (c : CoreId) (p : Pend) : KeepsM I (addPend c p) := hI.modCore c _ fun _ => by rfl

omit hI in
theorem jRoom (c : CoreId) : KeepsM I (jRoom c) := .bind (.getCore c) fun _ => .waitUnless _

theorem jNew (c : CoreId) (g : Bool) (i : Instr) (a b r : Word) (l : Label) : KeepsM I (jNew c g i a b r l) :=
  .bind (jRoom c) fun _ => .bind (.getCore c) fun _ => .bind (hI.modCore c _ fun _ => by rfl) fun _ => .pure _

theorem jEnds (c : CoreId) (g : Bool) (i : Instr) (a b : Word) (d : BitVec 6) (v : Word) : KeepsM I (jEnds c g i a b d v) :=
  .bind (.getCore c) fun _ => .bind (hI.jNew _ _ _ _ _ _ _) fun _ => .bind (hI.modCore c _ fun _ => by rfl) fun _ => hI.writeX _ _ _ _

theorem jAtOnce (c : CoreId) (g : Bool) (i : Instr) (a b : Word) (d : BitVec 6) (v : Word) : KeepsM I (jAtOnce c g i a b d v) :=
  .bind (.getCore c) fun _ => .bind (hI.jNew _ _ _ _ _ _ _) fun _ => .bind (hI.modCore c _ fun _ => by rfl) fun _ => hI.writeX _ _ _ _

/-! ### Guards (R300 to R302) -/

theorem guardCheck (c : CoreId) (st' : Strand) (i : Instr) (rs : List Run) : KeepsM I (guardCheck c st' i rs) :=
  .bind .get fun _ => .ite (.bind (hI.modCore c _ fun _ => by rfl) fun _ => .wait) (.pure _)

end
end RowClosed
end Sys2Proof.Machine
end

section
/-! The repair engine's and the traps' state steps keep what a row keeps (O6). -/

namespace Sys2Proof.Machine

/-! ### Steps of the repair engine (R297) -/

/-- A step of the repair engine keeps a property, whether it ends or goes on. -/
def KeepsR (I : State → Prop) {α : Type} (m : RM α) : Prop := Keeps I m.run

namespace KeepsR
variable {I : State → Prop} {α β : Type}

theorem pure (a : α) : KeepsR I (Pure.pure a : RM α) := fun _ h => h
theorem throw (code : Byte) : KeepsR I (throw code : RM α) := fun _ h => h
theorem step {m : SM α} (hm : Keeps I m) : KeepsR I (rStep m) := fun s h => hm s h

theorem bind {m : RM α} {f : α → RM β} (hm : KeepsR I m) (hf : ∀ a, KeepsR I (f a)) : KeepsR I (m >>= f) := by
  show Keeps I (m.run >>= ExceptT.bindCont f)
  refine keeps_bind hm fun r => ?_
  cases r with
  | ok a => exact hf a
  | error e => exact keeps_pure _

theorem ite {p : Prop} [Decidable p] {m n : RM α} (hm : KeepsR I m) (hn : KeepsR I n) : KeepsR I (if p then m else n) := by
  split
  · exact hm
  · exact hn

end KeepsR

namespace RowClosed

section
variable {st : Strand} {I : State → Prop} (hI : RowClosed st I)
include hI

theorem rPoison {α : Type} (r : Rep) : KeepsR I (rPoison r : RM α) :=
  .bind (.step (keeps_modify fun s h => hI.free s _ h rfl rfl rfl)) fun _ => .throw _

theorem rFault {α : Type} (r : Rep) (f : PFault) : KeepsR I (rFault r f : RM α) := .ite (hI.rPoison r) (.throw _)

theorem rGet (r : Rep) (va n : Nat) : KeepsR I (rGet r va n) := by
  refine .bind (.step (keeps_readVirt hI.closed _ _ _)) fun x => ?_
  split
  · exact hI.rFault r _
  · exact .ite (hI.rPoison r) (.pure _)

theorem rPut (r : Rep) (va : Nat) (bs : List Byte) (l : Label) : KeepsR I (rPut r va bs l) := by
  refine .bind (.step (hI.writeVirt _ _ _ _)) fun x => ?_
  split
  · exact hI.rFault r _
  · exact .pure _
  · exact hI.rPoison r
  · next a =>
    refine .step (keeps_modify fun s h => ?_)
    split
    · exact hI.relDeny _ a s h
    · exact h

theorem rReEnt (r : Rep) (b : RepBlk) (f : REnt → REnt) : KeepsR I (rReEnt r b f) :=
  .bind (.bind (hI.rGet _ _ _) fun _ => .pure _) fun _ => .ite (.throw _) (hI.rPut _ _ _ _)

theorem updRep (k : Nat) (f : Rep → Rep) (s : State) (h : I s) : I (updRep k f s) := hI.free s _ h rfl rfl rfl

theorem failRep (k : Nat) (code : Byte) (s : State) (h : I s) : I (failRep k code s) := by
  have put : ∀ r : Rep, I ((rPutDesc r).run (Machine.updRep k (rFail code) s)).2 := fun r =>
    hI.rPut r _ _ _ _ (hI.updRep k _ s h)
  unfold Machine.failRep
  repeat' split
  · exact h
  · exact put _
  · exact put _
  · exact h

theorem runRep (k : Nat) (m : RM Unit) (hm : KeepsR I m) (s : State) (h : I s) : I (runRep k m s) := by
  have h1 := hm s h
  unfold Machine.runRep
  repeat' split
  · exact h
  · next e => rw [e] at h1; exact h1
  · next e => rw [e] at h1; exact hI.failRep k _ _ h1

omit hI in
theorem repNow (k : Nat) : KeepsR I (repNow k) := by
  refine .bind (.step keeps_get) fun s => ?_
  split
  · exact .pure _
  · exact .throw _

theorem markEntry (k i : Nat) : KeepsR I (markEntry k i) := by
  refine .bind (repNow k) fun r => ?_
  split
  · exact hI.rReEnt _ _ _
  · exact .pure _

theorem markStales (k : Nat) : KeepsR I (markStales k) :=
  .bind (.step (keeps_modify (hI.updRep k _))) fun _ => .bind (repNow k) fun _ => hI.rPut _ _ _ _

omit hI in
theorem foldl {α : Type} {f : State → α → State} (hf : ∀ s a, I s → I (f s a)) (l : List α) (s : State) (h : I s) : I (l.foldl f s) := by
  induction l generalizing s with
  | nil => exact h
  | cons a l ih => exact ih _ (hf s a h)

theorem staleMark (marks : List GuardMark) : Keeps I (staleMark marks) := fun s h =>
  foldl (fun s _ hs => foldl (fun s _ hs => hI.runRep _ _ (hI.markEntry _ _) s hs) _ _ (hI.runRep _ _ (hI.markStales _) s hs)) marks s h

end
end RowClosed

/-! ### Tokens, pushes and open writes (R185, R270) -/

theorem tornBy_nil_iff {k : Core} {st : Strand} : tornBy k st = [] ↔ ∀ f ∈ k.flights, f.st ≠ st → f.torn = [] := by
  simp [tornBy]

theorem tornBy_cons {k : Core} {st : Strand} {f : Flight} (hf : f.st ≠ st → f.torn = []) (hk : tornBy k st = []) :
    tornBy { k with flights := f :: k.flights } st = [] := by
  rw [tornBy_nil_iff] at hk ⊢
  intro g hg
  rcases List.mem_cons.1 hg with rfl | hg
  · exact hf
  · exact hk g hg

theorem tornBy_snoc {k : Core} {st : Strand} {f : Flight} (hf : f.st ≠ st → f.torn = []) (hk : tornBy k st = []) :
    tornBy { k with flights := k.flights ++ [f] } st = [] := by
  rw [tornBy_nil_iff] at hk ⊢
  intro g hg
  rcases List.mem_append.1 hg with hg | hg
  · exact hk g hg
  · rw [List.mem_singleton.1 hg]
    exact hf

theorem flights_popToks (qs : List Nat) (k : Core) : (qs.foldl Core.popTok k).flights = k.flights := by
  induction qs generalizing k with
  | nil => rfl
  | cons q qs ih => exact ih (k.popTok q)

theorem flights_givesOf (blocked : List (Strand × Nat)) (st : Strand) (qs : List Nat) (a : List Nat × Core) :
    (qs.foldl (fun (a : List Nat × Core) q =>
      if blocked.contains (st, q) || decide (a.2.tokens q = 255) then (a.1 ++ [q], a.2) else (a.1, a.2.addTok q)) a).2.flights = a.2.flights := by
  induction qs generalizing a with
  | nil => rfl
  | cons q qs ih =>
    rw [List.foldl_cons, ih]
    split <;> rfl

/-- Settling gives up pushes and opens no write. -/
theorem settleFrom_torn {st : Strand} (fs : List Flight) (hfs : ∀ f ∈ fs, f.st ≠ st → f.torn = []) (blocked : List (Strand × Nat)) (k : Core)
    (hk : tornBy k st = []) : tornBy (settleFrom fs blocked k) st = [] := by
  induction fs generalizing blocked k with
  | nil => exact hk
  | cons f fs ih =>
    have rest := ih (fun g hg => hfs g (List.mem_cons_of_mem f hg))
    unfold settleFrom
    split
    · next hp =>
      have given := fun b => rest b _ ((tornBy_congr (flights_givesOf blocked f.st f.gives ([], k)) st).trans hk)
      dsimp only
      split
      · exact given _
      · refine tornBy_cons (fun _ => ?_) (given _)
        unfold Flight.torn
        rw [hp]
    · exact tornBy_cons (hfs f List.mem_cons_self) (rest _ k hk)

theorem settle_torn {st : Strand} {k : Core} (hk : tornBy k st = []) : tornBy (settle k) st = [] :=
  settleFrom_torn k.flights (tornBy_nil_iff.1 hk) [] _ rfl

/-- A row, run in a strand's turn, keeps a property. -/
def KeepsRow (st : Strand) (I : State → Prop) (row : State → Out) : Prop := ∀ s t, s.cur.2 = st → I s → row s = .next t → I t

namespace RowClosed

section
variable {st : Strand} {I : State → Prop} (hI : RowClosed st I)
include hI

/-! ### How a turn ends (R252, R256, R350 to R353) -/

theorem finishC (c : CoreId) (f : Flow) (s : State) (h : I s) : I (finishC c f s) := hI.sameFlights c _ s h fun _ => by rfl

theorem parkC (c : CoreId) (s : State) (h : I s) : I (parkC c s) := hI.sameFlights c _ s h fun _ => by rfl

theorem leaveWait (c : CoreId) (s : State) (h : I s) : I (leaveWait c s) := by
  have abandon : I (abandonWaits c s) := by
    have lines : ∀ (ds : List CoreId) s, I s → I (ds.foldl (fun (s : State) d => s.updCore d (fun k : Core =>
        { k with sems := k.sems.map (fun m : Sem => { m with waiters := m.waiters.filter (fun w => w.1 != c) }) })) s) := fun ds s h =>
      foldl (fun s d hs => hI.sameFlights d _ s hs fun _ => by rfl) ds s h
    unfold abandonWaits
    refine hI.sameFlights c _ _ ?_ fun _ => rfl
    split
    · exact hI.free _ _ (lines _ s h) rfl rfl rfl
    · exact lines _ s h
  unfold Machine.leaveWait
  split
  · exact abandon
  · exact h

theorem takeTrap (c : CoreId) (cause tval : Word) (s : State) (src : Option TrapSrc) (h : I s) : I (takeTrap c cause tval s src) := by
  unfold Machine.takeTrap
  dsimp only
  split
  · exact hI.sameFlights c _ s h fun _ => by rfl
  · exact hI.free s _ h rfl rfl rfl

theorem trapC (c : CoreId) (code sub : Nat) (tval : Word) (s : State) (h : I s) : I (trapC c code sub tval s) := by
  refine hI.takeTrap _ _ _ _ _ (hI.sameFlights c _ _ (hI.leaveWait c s h) fun k => ?_)
  dsimp only
  split <;> rfl

theorem trapEng (c : CoreId) (st' : Strand) (code sub : Nat) (tval : Word) (s : State) (h : I s) : I (trapEng c st' code sub tval s) := by
  refine hI.queueTrap _ _ _ (hI.sameFlights c _ s h fun k => ?_)
  dsimp only
  split <;> rfl

theorem parkE (c : CoreId) (st' : Strand) (s : State) (h : I s) : I (parkE c st' s) := hI.sameFlights c _ s h fun _ => by rfl

/-- The flight of the strand itself is not another's. -/
theorem finishE (c : CoreId) (pops gives : List Nat) (f : EFlow) (s : State) (h : I s) : I (finishE c st pops gives f s) := by
  refine hI.core s c _ h fun hk => settle_torn (tornBy_snoc (fun hne => absurd rfl hne) ?_)
  refine (tornBy_congr ?_ st).trans hk
  rw [Core.flights_setEng, flights_popToks]
  rfl

/-! ### The forms of a row -/

theorem runC (m : CoreId → M Flow) (hm : ∀ c, KeepsM I (m c)) : KeepsRow st I (runC m) := by
  intro s t _ h e
  have hend := hm s.cur.1 s h
  unfold Machine.runC at e
  dsimp only at e
  split at e
  · split at e
    · next hs =>
      rw [hs] at hend
      cases e
      exact hI.finishC _ _ _ hend
    · next hs =>
      rw [hs] at hend
      cases e
      exact hI.trapC _ _ _ _ _ hend
    · next hs =>
      rw [hs] at hend
      cases e
      exact hI.parkC _ _ hend
  · cases e

theorem runPlain (m : CoreId → M Unit) (hm : ∀ c, KeepsM I (m c)) : KeepsRow st I (runPlain m) :=
  hI.runC _ fun c => (hm c).bind fun _ => .pure _

theorem runRaw (m : CoreId → M Unit) (hm : ∀ c, KeepsM I (m c)) : KeepsRow st I (runRaw m) := by
  intro s t _ h e
  have hend := hm s.cur.1 s h
  unfold Machine.runRaw at e
  dsimp only at e
  split at e
  · split at e
    · next hs =>
      rw [hs] at hend
      cases e
      exact hend
    · next hs =>
      rw [hs] at hend
      cases e
      exact hI.trapC _ _ _ _ _ hend
    · next hs =>
      rw [hs] at hend
      cases e
      exact hI.parkC _ _ hend
  · cases e

theorem runE (tbl : Tbl) (i : Instr) (w g : BitVec 3) (m : CoreId → Strand → M EFlow) (hm : ∀ c, KeepsM I (m c st)) :
    KeepsRow st I (runE tbl i w g m) := by
  intro s t hst h e
  have hend := hm s.cur.1 s h
  unfold Machine.runE at e
  rw [hst] at e
  dsimp only at e
  split at e
  · split at e
    · cases e
      exact hI.trapEng _ _ _ _ _ _ h
    · split at e
      · split at e
        · next hs =>
          rw [hs] at hend
          cases e
          exact hI.finishE _ _ _ _ _ hend
        · next hs =>
          rw [hs] at hend
          cases e
          exact hI.trapEng _ _ _ _ _ _ hend
        · next hs =>
          rw [hs] at hend
          cases e
          exact hI.parkE _ _ _ hend
      · cases e
        exact hI.parkE _ _ _ h
  · cases e

theorem trapAfter (code : Nat) (k : BitVec 8) : KeepsRow st I (trapAfter code k) := by
  intro s t _ h e
  unfold Machine.trapAfter at e
  dsimp only at e
  split at e
  · cases e
    exact hI.takeTrap _ _ _ _ _ (hI.finishC _ _ _ h)
  · cases e

end
end RowClosed
end Sys2Proof.Machine
end

section
/-! The rows of the C strand keep what a row keeps (O6). -/

namespace Sys2Proof.Machine
namespace RowClosed

section
variable {st : Strand} {I : State → Prop} (hI : RowClosed st I)
include hI

theorem joinL (c : CoreId) (a b : Label) : Keeps I (joinL c a b) := fun s h => keeps_joinAt hI.closed _ _ a b s h

/-! ### Arithmetic and branches (R251, R253, R254) -/

theorem oprRR (f : Word → Word → Word) (d a b : BitVec 6) : KeepsRow st I (oprRR f d a b) :=
  hI.runPlain _ fun _ => .bind (needFree _ _) fun _ => .bind (readXL _ _) fun _ => .bind (readXL _ _) fun _ =>
    .bind (.lift (hI.joinL _ _ _)) fun _ => hI.writeX _ _ _ _

theorem oprRI (f : Word → Word) (d a : BitVec 6) : KeepsRow st I (oprRI f d a) :=
  hI.runPlain _ fun _ => .bind (needFree _ _) fun _ => .bind (readXL _ _) fun _ => hI.writeX _ _ _ _

theorem oprPc (f : Word → Word) (d : BitVec 6) : KeepsRow st I (oprPc f d) :=
  hI.runPlain _ fun c => .bind (needFree _ _) fun _ => .bind (.getCore c) fun _ => hI.writeX _ _ _ _

theorem branchOn (cnd : Cond) (a b : BitVec 6) (n : BitVec 2) (o : BitVec 12) : KeepsRow st I (branchOn cnd a b n o) :=
  hI.runC _ fun c => .bind (readX _ _) fun _ => .bind (readX _ _) fun _ => .bind (.getCore c) fun _ => .pure _

theorem execJ (o : BitVec 20) : KeepsRow st I (execJ o) := hI.runC _ fun c => .bind (.getCore c) fun _ => .pure _

theorem execJal (d : BitVec 6) (o : BitVec 20) : KeepsRow st I (execJal d o) :=
  hI.runC _ fun c => .bind (needFree _ _) fun _ => .bind (.getCore c) fun _ => .bind (hI.writeX _ _ _ _) fun _ => .pure _

theorem execJalr (d a : BitVec 6) (i : BitVec 14) : KeepsRow st I (execJalr d a i) :=
  hI.runC _ fun c => .bind (needFree _ _) fun _ => .bind (readX _ _) fun _ => .bind (.need _ _ _) fun _ => .bind (.getCore c) fun _ =>
    .bind (hI.writeX _ _ _ _) fun _ => .pure _

/-! ### Loads, stores, atomics (R259 to R264, R330) -/

theorem execLd (d b : BitVec 6) (w : BitVec 3) (o : BitVec 11) : KeepsRow st I (execLd d b w o) :=
  hI.runPlain _ fun _ => .bind (needFree _ _) fun _ => .bind (readX _ _) fun _ => .bind (hI.guardCheck _ _ _ _) fun _ =>
    .bind (hI.strandRead _ _ _ _ _) fun _ => .bind (.lift (hI.staleMark _)) fun _ => hI.addPend _ _

theorem execSt (a b : BitVec 6) (w : BitVec 3) (o : BitVec 11) : KeepsRow st I (execSt a b w o) :=
  hI.runPlain _ fun _ => .bind (readXL _ _) fun _ => .bind (readX _ _) fun _ => hI.strandWrite _ _ _ _ _ _

theorem execFence (r : BitVec 2) (u : BitVec 3) : KeepsRow st I (execFence r u) := hI.runPlain _ fun _ => .pure _

theorem gateDrop (cls port job : Nat) (ids : List Label) (s : State) (h : I s) : I (gateDrop cls port job ids s) := hI.free s _ h rfl rfl rfl

theorem amoRemote (c : CoreId) (op : Nat) (p : Piece) (b d : Word × Label) : KeepsM I (amoRemote c op p b d) := by
  have answer : KeepsM I (do
      let v ← Machine.lift freshWord
      let lin ← Machine.lift ualLabel
      return (v, ← Machine.lift (Machine.joinL c lin p.page.lbl))) :=
    .bind (.lift (keeps_freshWord hI.closed)) fun _ => .bind (.lift fun _ h => h) fun _ => .bind (.lift (hI.joinL _ _ _)) fun _ => .pure _
  refine .bind (.modifyState fun s h => closed_claim hI.closed _ _ s h) fun _ => .bind (.lift (hI.joinL _ _ _)) fun _ =>
    .bind (.lift (hI.joinL _ _ _)) fun _ => .bind .get fun s => .ite ?_ ?_
  · exact .bind (.lift (hI.emit _ _)) fun _ => answer
  · exact .bind (.lift (hI.freePort _)) fun _ => .bind (.modifyState fun s h => hI.relDeny _ _ _ (hI.gateDrop _ _ _ _ s h)) fun _ => answer

theorem amoHere (c : CoreId) (w : Who) (f : AmoFun) (ps : List Piece) (n : Nat) (b : Word × Label) (d : Word) :
    KeepsM I (amoHere c w f ps n b d) := by
  refine .bind (.lift (keeps_readPieces hI.closed _ _)) fun g => .bind (hI.poisoned c g) fun _ => ?_
  dsimp only
  split
  · exact .pure _
  · exact .bind (.lift (hI.writePieces _ _ _ _)) fun _ => .bind (hI.reportDrop _ _) fun _ => .pure _

theorem amoRun (i : Instr) (op n : Nat) (f : AmoFun) (d a b : BitVec 6) (u : BitVec 3) : KeepsRow st I (amoRun i op n f d a b u) := by
  refine hI.runPlain _ fun c => .bind (needFree _ _) fun _ => .bind (readX _ _) fun _ => .bind (readXL _ _) fun _ =>
    .bind (.getCore c) fun _ => .bind (.need _ _ _) fun _ => .bind (.need _ _ _) fun _ => .bind (hI.guardCheck _ _ _ _) fun _ =>
    .bind (hI.openAccess _ _ _ _ _ _ _) fun r => .bind (.need _ _ _) fun _ => .bind (jRoom c) fun _ => ?_
  have rest : ∀ (marks : List GuardMark) (va old res : Word) (e : Word) (lbl l : Label), KeepsM I (do
      Machine.lift (Machine.staleMark marks)
      let seq ← Machine.jNew c true i va e res l
      Machine.modCore c (jPerf seq old lbl)
      Machine.addPend c { reg := d, src := .amo, val := some old, lbl := lbl, seq := some seq }) := fun _ _ _ _ _ _ _ =>
    .bind (.lift (hI.staleMark _)) fun _ => .bind (hI.jNew _ _ _ _ _ _ _) fun _ => .bind (hI.modCore c _ fun _ => by rfl) fun _ => hI.addPend _ _
  dsimp only
  split
  · exact .bind (hI.amoRemote _ _ _ _ _) fun _ => rest _ _ _ _ _ _ _
  · exact .bind (hI.amoHere _ _ _ _ _ _ _) fun _ => rest _ _ _ _ _ _ _

/-! ### Registers of the machine (R67, R266, R267, R315) -/

theorem execCsrr (d : BitVec 6) (n : BitVec 12) : KeepsRow st I (execCsrr d n) :=
  hI.runPlain _ fun _ => .bind (needFree _ _) fun _ => .bind .get fun _ => hI.writeX _ _ _ _

omit hI in
theorem flights_noteKeys (both : Bool) (k : Core) : (noteKeys both k).flights = k.flights := by
  unfold noteKeys
  split <;> rfl

theorem csrWriteWith (f : Word → Word → Word) (i : Instr) (a : BitVec 6) (n : BitVec 12) : KeepsRow st I (csrWriteWith f i a n) := by
  refine hI.runPlain _ fun c => .bind (readX _ _) fun _ => .bind .get fun _ => .bind (.need _ _ _) fun _ => .bind (.need _ _ _) fun _ =>
    hI.modCore c _ fun k => ?_
  dsimp only
  split
  · exact flights_noteKeys false k
  · rfl

theorem execSrkey (a b : BitVec 6) : KeepsRow st I (execSrkey a b) :=
  hI.runPlain _ fun c => .bind (readX _ _) fun _ => .bind (readX _ _) fun _ => .bind (.need _ _ _) fun _ =>
    hI.modCore c _ (flights_noteKeys true)

theorem execLblRdReg (d a : BitVec 6) : KeepsRow st I (execLblRdReg d a) :=
  hI.runPlain _ fun _ => .bind (needFree _ _) fun _ => .bind (readXL _ _) fun _ => .bind .get fun _ => hI.writeX _ _ _ _

theorem execLblRdMem (d a : BitVec 6) : KeepsRow st I (execLblRdMem d a) := by
  refine hI.runPlain _ fun c => .bind (needFree _ _) fun _ => .bind (readX _ _) fun _ => .bind .get fun _ =>
    .bind (.lift (keeps_translate hI.closed _ _ _ _)) fun r => ?_
  split
  · exact hI.pageFault c _
  · exact .bind (.lift (keeps_readPieces hI.closed _ _)) fun g => .bind (hI.poisoned c g) fun _ => .bind .get fun _ => hI.writeX _ _ _ _

theorem execEst (a : BitVec 6) : KeepsRow st I (execEst a) :=
  hI.runPlain _ fun c => .bind (readX _ _) fun _ => .bind (.need _ _ _) fun _ => .bind (.getCore c) fun _ =>
    .modifyState fun s h => hI.free s _ h rfl rfl rfl

/-! ### The system group (R258, R356 to R359) -/

theorem execWfi : KeepsRow st I execWfi :=
  hI.runPlain _ fun c => .bind (.getCore c) fun _ => .ite (.pure _) (.bind (hI.modCore c _ fun _ => by rfl) fun _ => .wait)

theorem execSnap : KeepsRow st I execSnap := hI.runPlain _ fun c => .bind (.getCore c) fun _ => .modifyState (hI.fireSnap _ _)

/-! ### Waits and lines (R271 to R283) -/

theorem execTokGive (q : BitVec 2) : KeepsRow st I (execTokGive q) :=
  hI.runPlain _ fun c => .bind (.getCore c) fun _ => .bind (.need _ _ _) fun _ => .bind (.waitUnless _) fun _ => .bind (.waitUnless _) fun _ =>
    hI.modCore c _ fun _ => by rfl

theorem execTokWait (q : BitVec 2) : KeepsRow st I (execTokWait q) :=
  hI.runPlain _ fun c => .bind (.getCore c) fun _ => .bind (.need _ _ _) fun _ => .bind (.waitUnless _) fun _ =>
    fun s h => hI.core s c (fun k => settle (k.popTok _)) h fun hk => settle_torn (k := (s.core c).popTok _) hk

theorem seenUpdate (c : CoreId) (l : List (Nat × BitVec 16)) (s : State) (h : I s) : I (seenUpdate c l s) := hI.sameFlights c _ s h fun _ => by rfl

theorem semTake (task holder : CoreId) (n : BitVec 6) (v : Nat) (s : State) (h : I s) : I (semTake task holder n v s) := by
  unfold Machine.semTake
  exact hI.sameFlights holder _ _ (hI.seenUpdate _ _ s h) fun _ => by rfl

theorem semRelease (task holder : CoreId) (n : BitVec 6) (v : Nat) (s : State) (h : I s) : I (semRelease task holder n v s) := by
  unfold Machine.semRelease
  exact hI.sameFlights holder _ _ (hI.sameFlights task _ s h fun _ => by rfl) fun _ => by rfl

theorem execSemAcq (a : BitVec 6) (p : BitVec 1) (n : BitVec 6) : KeepsRow st I (execSemAcq a p n) := by
  refine hI.runPlain _ fun c => .bind (readX _ _) fun _ => .bind (.need _ _ _) fun _ => .bind (hI.modCore _ _ fun k => ?_) fun _ =>
    .bind (.getCore _) fun _ => .bind (.waitUnless _) fun _ => .modifyState (hI.semTake _ _ _ _)
  dsimp only
  split <;> rfl

theorem execSemRel (a : BitVec 6) (p : BitVec 1) (n : BitVec 6) : KeepsRow st I (execSemRel a p n) :=
  hI.runPlain _ fun _ => .bind (readX _ _) fun _ => .bind (.need _ _ _) fun _ => .bind (.getCore _) fun _ => .bind (.need _ _ _) fun _ =>
    .modifyState (hI.semRelease _ _ _ _)

theorem execSemTry (d a : BitVec 6) (p : BitVec 1) (n : BitVec 6) : KeepsRow st I (execSemTry d a p n) :=
  hI.runPlain _ fun _ => .bind (needFree _ _) fun _ => .bind (readX _ _) fun _ => .bind (.need _ _ _) fun _ => .bind (.getCore _) fun _ =>
    .ite (.bind (.modifyState (hI.semTake _ _ _ _)) fun _ => hI.writeX _ _ _ _) (hI.writeX _ _ _ _)

theorem execSemRd (d : BitVec 6) (p : BitVec 1) (n : BitVec 6) : KeepsRow st I (execSemRd d p n) :=
  hI.runPlain _ fun _ => .bind (needFree _ _) fun _ => .bind (.getCore _) fun _ => hI.writeX _ _ _ _

theorem updJob (j : JobId) (f : Job → Job) (s : State) (h : I s) : I (s.updJob j f) := hI.free s _ h rfl rfl rfl

omit hI in
theorem needGang (c : CoreId) (w : Word) : KeepsM I (needGang c w) := .bind (.getCore c) fun _ => .bind (.need _ _ _) fun _ => .pure _

theorem execFlagAdd (a : BitVec 6) (n : BitVec 8) : KeepsRow st I (execFlagAdd a n) :=
  hI.runPlain _ fun c => .bind (readX _ _) fun _ => .bind (needGang _ _) fun _ => .bind (.need _ _ _) fun _ =>
    .bind (hI.modCore c _ fun _ => by rfl) fun _ => .bind (.getCore c) fun _ => .modifyState fun s h => hI.updJob _ _ s h

theorem execFlagWait (a : BitVec 6) (n : BitVec 8) : KeepsRow st I (execFlagWait a n) := by
  refine hI.runPlain _ fun c => .bind (readX _ _) fun _ => .bind (needGang _ _) fun _ => .bind (.need _ _ _) fun _ => .bind .get fun _ => ?_
  split
  · exact .wait
  · exact .ite (.bind (.modifyState fun s h => hI.updJob _ _ s h) fun _ => .modifyState fun s h => hI.seenUpdate _ _ s h)
      (.bind (.modifyState fun s h => hI.updJob _ _ s h) fun _ => .wait)

theorem execWaitt (a : BitVec 6) : KeepsRow st I (execWaitt a) :=
  hI.runPlain _ fun c => .bind (readX _ _) fun _ => .bind .get fun _ => .ite (.pure _) (.bind (hI.modCore c _ fun _ => by rfl) fun _ => .wait)

theorem execDomSetSplit : KeepsRow st I execDomSetSplit :=
  hI.runPlain _ fun c => .bind (.getCore c) fun _ => .bind (.need _ _ _) fun _ => hI.modCore c _ fun _ => by rfl

theorem execDomSetJoin : KeepsRow st I execDomSetJoin :=
  hI.runPlain _ fun c => .bind (.getCore c) fun _ => .bind (.need _ _ _) fun _ => hI.modCore c _ fun _ => by rfl

theorem execPhase : KeepsRow st I execPhase :=
  hI.runRaw _ fun c => .bind (.getCore c) fun _ =>
    .ite (.modifyState fun s h => hI.finishC c _ _ (hI.sameFlights c _ s h fun _ => by rfl)) (.bind (hI.modCore c _ fun _ => by rfl) fun _ => .wait)

/-! ### Fork and rendezvous (R16 to R18) -/

omit hI in
theorem flights_startStrand (st' : Strand) (e : Word) (k : Core) : (startStrand st' e k).flights = k.flights := by
  cases st' <;> rfl

theorem execFork (a : BitVec 6) : KeepsRow st I (execFork a) := by
  refine hI.runPlain _ fun c => .bind (readX _ _) fun _ => .bind (.getCore c) fun _ => .bind (.need _ _ _) fun _ =>
    .bind (hI.strandRead _ _ _ _ _) fun _ => .bind (.need _ _ _) fun _ => hI.modCore c _ fun k => ?_
  dsimp only
  repeat' split
  all_goals simp only [flights_startStrand]

end
end RowClosed
end Sys2Proof.Machine
end

section
/-! The rows of the C strand that start work elsewhere, and a rendezvous, keep what a row keeps (O6). -/

namespace Sys2Proof.Machine

theorem passStrand_torn {st : Strand} (fin : Bool) (st' : Strand) {k : Core} (hk : tornBy k st = []) : tornBy (passStrand fin st' k) st = [] := by
  unfold passStrand
  split
  · exact hk
  · next a _ =>
    refine tornBy_snoc (fun _ => rfl) ((tornBy_congr ?_ st).trans hk)
    rw [Core.flights_setEng, flights_popToks]

theorem flights_endHandler (k : Core) : (endHandler k).flights = k.flights := by
  unfold endHandler
  dsimp only
  split <;> rfl

theorem flights_jDone (n : Nat) (k : Core) : (jDone n k).flights = k.flights := rfl

theorem flights_deliverPend (p : Pend) (v : Word) (k : Core) : (deliverPend p v k).flights = k.flights := by
  unfold deliverPend
  dsimp only
  split
  · exact k.flights_setX _ _ _
  · exact k.flights_setX _ _ _

theorem flights_replayResult (n : Nat) (v : Word) (l : Label) (k : Core) : (replayResult n v l k).flights = k.flights := by
  unfold replayResult
  split
  · exact flights_deliverPend _ _ _
  · rfl

namespace RowClosed

section
variable {st : Strand} {I : State → Prop} (hI : RowClosed st I)
include hI

/-! ### Rendezvous (R17, R18) -/

theorem passRendezvous (c : CoreId) (fin : Bool) (s : State) (h : I s) : I (passRendezvous c fin s) := by
  have passed : I (s.setCore c { settle (passStrand fin .S (passStrand fin .X (passStrand fin .L (s.core c)))) with
      arr := Four.all none, rdvDone := fin, rdvWait := fin }) :=
    hI.core s c (fun k => { settle (passStrand fin .S (passStrand fin .X (passStrand fin .L k))) with
      arr := Four.all none, rdvDone := fin, rdvWait := fin }) h fun hk =>
        settle_torn (passStrand_torn fin .S (passStrand_torn fin .X (passStrand_torn fin .L hk)))
  rw [passRendezvous_eq]
  dsimp only
  split
  · exact passed
  · exact hI.finishC c _ _ passed

theorem arrive (c : CoreId) (st' : Strand) (a : Arrival) (w : Word) : KeepsM I (arrive c st' a w) := by
  refine .bind (.getCore c) fun k => .ite .wait (.bind ?_ fun _ => .bind (hI.modCore c _ fun _ => by rfl) fun _ => .bind (.getCore c) fun _ =>
    .ite (.bind (.modifyState (hI.passRendezvous c _)) fun _ => .pure _) (.pure _))
  split
  · exact .need _ _ _
  · exact .pure _

theorem rdvC (k : BitVec 8) (fin : Bool) (i : Instr) : KeepsRow st I (rdvC k fin i) :=
  hI.runRaw _ fun c => .bind (.getCore c) fun _ => .ite (.bind (hI.modCore c _ fun _ => by rfl) fun _ => .wait)
    (.bind (hI.arrive _ _ _ _) fun _ => .ite (.pure _) .wait)

theorem rdvE (w g : BitVec 3) (k : BitVec 8) (fin : Bool) (i : Instr) : KeepsRow st I (rdvE w g k fin i) := by
  intro s t _ h e
  have hend := fun a => hI.arrive s.cur.1 s.cur.2 a (wordOf i) s h
  unfold Machine.rdvE at e
  dsimp only at e
  split at e
  · split at e
    · cases e
      exact hI.trapEng _ _ _ _ _ _ h
    · split at e
      · cases e
        exact hI.parkE _ _ _ h
      · have hend := hend { id := k, fin := fin, order := 0, pops := waitCodes s.cur.2 w, gives := giveCodes s.cur.2 g }
        split at e
        · next hs =>
          rw [hs] at hend
          cases e
          exact hend
        · next hs =>
          rw [hs] at hend
          cases e
          exact hI.parkE _ _ _ hend
        · next hs =>
          rw [hs] at hend
          cases e
          exact hI.trapEng _ _ _ _ _ _ hend
        · next hs =>
          rw [hs] at hend
          cases e
          exact hI.parkE _ _ _ hend
  · cases e

/-! ### Engine commands and replay (R291 to R299, R361) -/

theorem spliceIssue (c : CoreId) (i : Instr) (va vb : Word) : KeepsM I (spliceIssue c i va vb) := by
  refine .bind (.need _ _ _) fun _ => .bind (hI.strandRead _ _ _ _ _) fun _ => .bind (hI.strandRead _ _ _ _ _) fun _ =>
    .ite (.pure _) (.ite (.pure _) (.bind (hI.strandRead _ _ _ _ _) fun _ => .bind (.lift (hI.joinL _ _ _)) fun _ => ?_))
  dsimp only
  split
  · exact .ite (.pure _) (.trap _ _ _)
  · exact .pure _

omit hI in
theorem repGoIssue (c : CoreId) (i : Instr) (va : Word) : KeepsM I (repGoIssue c i va) :=
  .bind (.need _ _ _) fun _ => .bind (.getCore c) fun _ => .pure _

theorem repSend (c : CoreId) (i : Instr) (d : BitVec 6) (va vb : Word) (q : RepCmd) : KeepsM I (repSend c i d va vb q) :=
  .bind (.getCore c) fun _ => .bind (hI.jNew _ _ _ _ _ _ _) fun _ => .bind (hI.addPend _ _) fun _ =>
    .modifyState fun s h => hI.free s _ h rfl rfl rfl

theorem execSplice (d a b : BitVec 6) : KeepsRow st I (execSplice d a b) := by
  refine hI.runPlain _ fun c => .bind (needFree _ _) fun _ => .bind (readX _ _) fun _ => .bind (readX _ _) fun _ =>
    .bind (hI.spliceIssue _ _ _ _) fun r => ?_
  split
  · exact hI.jAtOnce _ _ _ _ _ _ _
  · exact hI.repSend _ _ _ _ _ _

theorem execRepGo (d a : BitVec 6) : KeepsRow st I (execRepGo d a) :=
  hI.runPlain _ fun _ => .bind (needFree _ _) fun _ => .bind (readX _ _) fun _ => .bind (repGoIssue _ _ _) fun _ => hI.repSend _ _ _ _ _ _

theorem pollContext (c : CoreId) (va : Word) : KeepsM I (pollContext c va) := by
  refine .bind (.getCore c) fun _ => .bind .get fun _ => ?_
  split
  · exact .pure _
  · exact .bind (hI.strandRead _ _ _ _ _) fun _ => .pure _

theorem execRepPoll (d a : BitVec 6) : KeepsRow st I (execRepPoll d a) := by
  refine hI.runPlain _ fun c => .bind (needFree _ _) fun _ => .bind (readX _ _) fun _ => .bind (.need _ _ _) fun _ => .bind (jRoom c) fun _ =>
    .bind (hI.pollContext _ _) fun _ => .bind (.getCore c) fun _ => ?_
  dsimp only
  split
  · exact hI.jAtOnce _ _ _ _ _ _ _
  · refine .bind (.modifyState fun s h => ?_) fun _ => hI.jAtOnce _ _ _ _ _ _ _
    split
    · exact hI.free s _ h rfl rfl rfl
    · exact h

theorem reissue (c : CoreId) (e : JEntry) : KeepsM I (reissue c e) := by
  unfold Machine.reissue
  split
  · refine .bind (hI.spliceIssue _ _ _ _) fun r => ?_
    split
    · exact hI.modCore c _ fun k => flights_replayResult _ _ _ _
    · exact .modifyState fun s h => hI.free s _ h rfl rfl rfl
  · exact .bind (repGoIssue _ _ _) fun _ => .modifyState fun s h => hI.free s _ h rfl rfl rfl
  · exact .pure _

theorem replayFault (c : CoreId) (n : Nat) (rest : List Nat) (cause tval : Word) (s : State) (h : I s) :
    I (replayFault c n rest cause tval s) := by
  unfold Machine.replayFault
  split
  · exact hI.free s _ h rfl rfl rfl
  · exact hI.sameFlights c _ s h fun _ => by rfl

theorem replayFrom (c : CoreId) (l : List Nat) (s : State) (h : I s) : I (replayFrom c l s) := by
  induction l generalizing s with
  | nil => exact hI.sameFlights c _ s h fun _ => by rfl
  | cons n ns ih =>
    have hre := fun e => hI.reissue c e s h
    unfold Machine.replayFrom
    split
    · exact ih s h
    · next e _ =>
      have hend := hre e
      repeat' split
      · exact ih s h
      · exact ih _ (hI.sameFlights c _ s h fun k => flights_replayResult _ _ _ _)
      · next hs =>
        rw [hs] at hend
        exact ih _ hend
      · next hs =>
        rw [hs] at hend
        exact hI.replayFault _ _ _ _ _ _ hend
      · next hs =>
        rw [hs] at hend
        exact hI.sameFlights c _ _ hend fun _ => by rfl
      · exact ih s h

theorem continueReplay (c : CoreId) (s : State) (h : I s) : I (continueReplay c s) := by
  unfold Machine.continueReplay
  dsimp only
  split
  · exact h
  · exact hI.replayFrom c _ s h

theorem execTret : KeepsRow st I execTret := by
  refine hI.runRaw _ fun c => .bind (.getCore c) fun k => .bind (.need _ _ _) fun _ => ?_
  split
  · exact .trap _ _ _
  · refine .bind (hI.modCore c _ flights_endHandler) fun _ => ?_
    split
    · exact .modifyState (hI.continueReplay c)
    · exact .pure _

/-! ### Collectives (R319 to R328) -/

theorem setColl (n : Nat) (p : Coll) (s : State) (h : I s) : I (setColl n p s) := hI.free s _ h rfl rfl rfl

theorem notices (p : Coll) (silent : BitVec 7) (s : State) (h : I s) : I (notices p silent s) :=
  foldl (fun s _ hs => hI.emit _ _ s hs) _ _ h

theorem collCause (n : Nat) (cause : Byte) (silent : BitVec 7) (s : State) (h : I s) : I (collCause n cause silent s) := by
  have set := fun p => hI.setColl n p s h
  unfold Machine.collCause
  dsimp only
  repeat' split
  · exact h
  · exact h
  · exact hI.notices _ _ _ (set _)
  · exact set _
  · exact hI.notices _ _ _ (set _)
  · exact set _
  · exact hI.notices _ _ _ (set _)

theorem chunkRanges (p : Coll) : Keeps I (chunkRanges p) := by
  refine keeps_ite (keeps_pure _) ?_
  refine keeps_foldlM _ (fun _ _ => keeps_foldlM _ (fun _ _ => keeps_foldlM _ (fun _ _ => ?_) _ _) _ _) _ _
  refine keeps_bind (keeps_onePage hI.closed _ _ _) fun r => ?_
  dsimp only
  split <;> exact keeps_pure _

theorem startColl (p : Coll) : Keeps I (startColl p) := by
  refine keeps_bind (hI.chunkRanges p) fun rs => keeps_modify fun s h => ?_
  dsimp only
  split
  · exact hI.collCause _ _ _ _ (hI.free s _ h rfl rfl rfl)
  · exact hI.free s _ h rfl rfl rfl

theorem execCollGo (d a : BitVec 6) : KeepsRow st I (execCollGo d a) := by
  refine hI.runPlain _ fun c => .bind (needFree _ _) fun _ => .bind (readX _ _) fun _ => .bind (.need _ _ _) fun _ =>
    .bind (hI.strandRead _ _ _ _ _) fun _ => .bind (hI.strandRead _ _ _ _ _) fun _ => .bind (hI.strandRead _ _ _ _ _) fun _ =>
    .bind (jRoom c) fun _ => .bind (.getCore c) fun _ => .bind .get fun _ => ?_
  refine .ite (.bind (.modifyState fun s h => ?_) fun _ => .bind (.lift (hI.startColl _)) fun _ => hI.jAtOnce _ _ _ _ _ _ _)
    (hI.jAtOnce _ _ _ _ _ _ _)
  split
  · exact hI.free s _ h rfl rfl rfl
  · exact h

theorem execCollPoll (d a : BitVec 6) : KeepsRow st I (execCollPoll d a) := by
  refine hI.runPlain _ fun c => .bind (needFree _ _) fun _ => .bind (readX _ _) fun _ => .bind (.getCore c) fun _ => .bind .get fun _ => ?_
  split
  · exact hI.writeX _ _ _ _
  · exact hI.writeX _ _ _ _

/-! ### Copies and channels (R304 to R317) -/

theorem execTcp (d a : BitVec 6) : KeepsRow st I (execTcp d a) :=
  hI.runPlain _ fun c => .bind (needFree _ _) fun _ => .bind (readX _ _) fun _ => .ite (hI.jEnds _ _ _ _ _ _ _)
    (.bind (hI.guardCheck _ _ _ _) fun _ => .bind (hI.strandRead _ _ _ _ _) fun _ => .bind (.getCore c) fun _ =>
      .bind (.waitUnless _) fun _ => .bind (jRoom c) fun _ => .bind (.lift (hI.staleMark _)) fun _ => .bind (hI.jNew _ _ _ _ _ _ _) fun _ =>
      .bind (hI.addPend _ _) fun _ => hI.modCore c _ fun _ => by rfl)

theorem updChan (cl : ClusterId) (ch : BitVec 3) (f : Chan → Chan) (s : State) (h : I s) : I (updChan cl ch f s) :=
  hI.free s _ h rfl rfl rfl

theorem chanDone (cl : ClusterId) (ch : BitVec 3) (s : State) (h : I s) : I (chanDone cl ch s) := by
  unfold Machine.chanDone
  exact hI.updChan _ _ _ _ (foldl (by exact fun s p hs => hI.sameFlights p.1 _ s hs fun _ => by rfl) _ s h)

theorem execChanGo (a : BitVec 6) (ch : BitVec 3) : KeepsRow st I (execChanGo a ch) := by
  refine hI.runPlain _ fun c => .bind (readX _ _) fun _ => .bind .get fun _ => ?_
  dsimp only
  split
  · exact .trap _ _ _
  · exact .trap _ _ _
  all_goals
    refine .bind (.need _ _ _) fun _ => .bind (.getCore c) fun _ => .bind (hI.jNew _ _ _ _ _ _ _) fun _ => ?_
    split <;> exact .modifyState (hI.updChan _ _ _)

theorem execChanStat (d : BitVec 6) (ch : BitVec 3) : KeepsRow st I (execChanStat d ch) :=
  hI.runPlain _ fun _ => .bind (needFree _ _) fun _ => .bind .get fun _ => hI.writeX _ _ _ _

theorem execChanAbort (ch : BitVec 3) : KeepsRow st I (execChanAbort ch) := by
  refine hI.runPlain _ fun c => .bind .get fun _ => ?_
  split
  · exact .modifyState (hI.updChan _ _ _)
  · exact .modifyState fun s h => hI.chanDone _ _ _ (hI.updChan _ _ _ s h)
  · exact .modifyState fun s h => hI.chanDone _ _ _ (hI.updChan _ _ _ s h)
  · exact .pure _
  · exact .pure _

theorem execLrecFlush (a : BitVec 6) : KeepsRow st I (execLrecFlush a) :=
  hI.runPlain _ fun c => .bind (readX _ _) fun _ => .bind (.getCore c) fun _ =>
    .ite (.modifyState fun s h => foldl (by exact fun s _ hs => hI.free s _ hs rfl rfl rfl) _ s h) (.pure _)

theorem readLRec (w : Who) (cl : Option ClusterId) (n : Nat) : Keeps I (readLRec w cl n) := by
  refine keeps_bind keeps_get fun s => ?_
  split
  · exact keeps_pure _
  · refine keeps_bind (keeps_readVirt hI.closed _ _ _) fun r => ?_
    split
    · exact keeps_pure _
    · refine keeps_ite (keeps_pure _) (keeps_bind (keeps_modify fun s h => ?_) fun _ => keeps_pure _)
      split
      · exact h
      · exact hI.free s _ h rfl rfl rfl

theorem readSide (w : Who) (cl : Option ClusterId) (use : Bool) (n : Nat) : Keeps I (readSide w cl use n) := by
  refine keeps_ite (keeps_pure _) (keeps_bind (hI.readLRec _ _ _) fun r => ?_)
  split <;> exact keeps_pure _

theorem readSides (w : Who) (cl : Option ClusterId) (addr : Word) (r : XRec) : Keeps I (readSides w cl addr r) := by
  refine keeps_ite (keeps_pure _) (keeps_bind (hI.readSide _ _ _ _) fun x => ?_)
  split
  · exact keeps_pure _
  · refine keeps_bind (hI.readSide _ _ _ _) fun y => ?_
    split
    · exact keeps_pure _
    · exact keeps_pure _

theorem checkCopy (w : Who) (cl : Option ClusterId) (useNext spans : Bool) (k : Copy) : Keeps I (checkCopy w cl useNext spans k) := by
  refine keeps_ite (keeps_pure _) (keeps_bind (hI.readSides _ _ _ _) fun r => ?_)
  split
  · exact keeps_pure _
  · exact keeps_pure _

/-! ### Launches (R348) -/

theorem proBad (w : Who) (img : List Byte) : Keeps I (proBad w img) := by
  intro s h
  have hend := hI.checkCopy w none false false (Copy.fresh img 0 0) s h
  unfold Machine.proBad
  split <;> next hs =>
    rw [hs] at hend
    exact hend

theorem packetCode (w : Who) (q : Part) (b pro : List Byte) : Keeps I (packetCode w q b pro) :=
  keeps_ite (keeps_pure _) (keeps_ite (keeps_pure _) (keeps_ite (keeps_pure _) (keeps_ite (keeps_pure _)
    (keeps_bind (keeps_foldlM _ (fun _ _ => keeps_bind (hI.proBad _ _) fun _ => keeps_pure _) _ _) fun _ =>
      keeps_ite (keeps_pure _) (keeps_ite (keeps_pure _) (keeps_pure _))))))

theorem launchCheck (c : CoreId) (a : Word) (i : Instr) : KeepsM I (launchCheck c a i) := by
  refine .bind (.need _ _ _) fun _ => .bind (hI.strandRead _ _ _ _ _) fun _ => .bind (.getCore c) fun _ => .bind .get fun _ => ?_
  dsimp only
  split
  · exact .pure _
  · split
    on_goal 1 => refine .bind (hI.strandRead _ _ _ _ _) fun _ => ?_
    all_goals
      refine .bind (.pure _) fun _ => .bind .get fun _ => .bind .get fun _ => .bind (.lift (hI.packetCode _ _ _ _)) fun _ => ?_
      split
      · exact .pure _
      · split <;> exact .pure _

theorem launchWrite (c : CoreId) (p : Got) (q : Queue) : KeepsM I (launchWrite c p q) := by
  refine .bind .get fun _ => .bind (.lift (hI.writeVirt _ _ _ _)) fun r => ?_
  split
  · exact hI.pageFault c _
  · exact .modifyState fun s h => hI.wrote c _ _ (hI.free s _ h rfl rfl rfl)

theorem execLaunch (d a : BitVec 6) : KeepsRow st I (execLaunch d a) :=
  hI.runPlain _ fun c => .bind (needFree _ _) fun _ => .bind (readX _ _) fun _ => .bind (hI.launchCheck _ _ _) fun _ => .bind (jRoom c) fun _ =>
    .ite (.bind (hI.launchWrite _ _ _) fun _ => hI.jAtOnce _ _ _ _ _ _ _) (hI.jAtOnce _ _ _ _ _ _ _)

/-! ### Spills and fills (R215 to R217) -/

theorem spillIssue (i : Instr) (a : BitVec 6) (n : BitVec 4) (fill : Bool) : KeepsRow st I (spillIssue i a n fill) :=
  hI.runPlain _ fun c => .bind (readX _ _) fun _ => .bind (.need _ _ _) fun _ => .bind (hI.jNew _ _ _ _ _ _ _) fun _ => hI.modCore c _ fun _ => by rfl

end
end RowClosed
end Sys2Proof.Machine
end

section
/-! The rows that the engine strands share, and the L strand's, keep what a row keeps (O6). -/

namespace Sys2Proof.Machine
namespace RowClosed

section
variable {st : Strand} {I : State → Prop} (hI : RowClosed st I)
include hI

/-! ### Registers of an engine strand (R71) -/

theorem modEng (c : CoreId) (st' : Strand) (f : Eng → Eng) : KeepsM I (modEng c st' f) := hI.modCore c _ fun k => k.flights_setEng st' _
theorem modLs (c : CoreId) (f : LState → LState) : KeepsM I (modLs c f) := hI.modCore c _ fun _ => by rfl
theorem modXs (c : CoreId) (f : XState → XState) : KeepsM I (modXs c f) := hI.modCore c _ fun _ => by rfl
theorem modSs (c : CoreId) (f : SState → SState) : KeepsM I (modSs c f) := hI.modCore c _ fun _ => by rfl

theorem execLpSetImm (w g : BitVec 3) (k : BitVec 2) (i : BitVec 15) : KeepsRow st I (execLpSetImm w g k i) :=
  hI.runE _ _ _ _ _ fun _ => .bind (hI.modEng _ _ _) fun _ => .pure _

theorem execLpSetReg (w g : BitVec 3) (k : BitVec 2) (j : BitVec 4) : KeepsRow st I (execLpSetReg w g k j) :=
  hI.runE _ _ _ _ _ fun _ => .bind (hI.modEng _ _ _) fun _ => .pure _

theorem execLpEnd (w g : BitVec 3) (k : BitVec 2) (o : BitVec 18) : KeepsRow st I (execLpEnd w g k o) :=
  hI.runE _ _ _ _ _ fun c => .bind (.getCore c) fun _ => .ite (.bind (hI.modEng _ _ _) fun _ => .pure _)
    (.bind (hI.modEng _ _ _) fun _ => .pure _)

theorem execEJ (w g : BitVec 3) (o : BitVec 18) : KeepsRow st I (execEJ w g o) :=
  hI.runE _ _ _ _ _ fun c => .bind (.getCore c) fun _ => .pure _

theorem execEBnz (w g : BitVec 3) (j : BitVec 4) (o : BitVec 15) : KeepsRow st I (execEBnz w g j o) :=
  hI.runE _ _ _ _ _ fun c => .bind (.getCore c) fun _ => .pure _

theorem execNLi (w g : BitVec 3) (j : BitVec 4) (i : BitVec 15) : KeepsRow st I (execNLi w g j i) :=
  hI.runE _ _ _ _ _ fun _ => .bind (hI.modEng _ _ _) fun _ => .pure _

theorem execNAdd (w g : BitVec 3) (d a : BitVec 4) (i : BitVec 10) : KeepsRow st I (execNAdd w g d a i) :=
  hI.runE _ _ _ _ _ fun _ => .bind (hI.modEng _ _ _) fun _ => .pure _

theorem execENop (w g : BitVec 3) : KeepsRow st I (execENop w g) := hI.runE _ _ _ _ _ fun _ => .pure _

/-! ### Reads of an engine strand (R141, R235) -/

theorem checkWatchRuns (c : CoreId) (st' : Strand) (rs : List Run) (kd : WpKind) : KeepsM I (checkWatchRuns c st' rs kd) := by
  refine .bind (.getCore c) fun k => ?_
  dsimp only
  split
  · exact .pure _
  · split
    · exact .bind (.modifyState (hI.fireSnap _ _)) fun _ => .trap _ _ _
    · exact .trap _ _ _

theorem openRunsE (c : CoreId) (st' : Strand) (rs : List Run) (acc : Acc) (kd : WpKind) (more : List Touch) :
    KeepsM I (openRunsE c st' rs acc kd more) := by
  refine .bind .get fun _ => .bind (.lift (keeps_translateRuns hI.closed _ _)) fun r => ?_
  split
  · exact hI.pageFault c _
  · exact .bind (hI.checkWatchRuns _ _ _ _) fun _ => .bind (hI.checkRace _ _ _) fun _ => .pure _

theorem fetchRuns (c : CoreId) (st' : Strand) (i : Instr) (rs : List Run) (more : List Touch) : KeepsM I (fetchRuns c st' i rs more) :=
  .bind .get fun _ => .bind (.waitUnless _) fun _ => .bind (hI.guardCheck _ _ _ _) fun _ => .bind (hI.openRunsE _ _ _ _ _ _) fun _ =>
    .bind (.lift (keeps_mapM _ (fun _ => keeps_readPieces hI.closed _ _) _)) fun _ => .bind (.forM (hI.poisoned c)) fun _ =>
    .bind (.lift (keeps_joinAll hI.closed _ _ _)) fun _ => .pure _

theorem readLit (c : CoreId) (st' : Strand) (i : Instr) (a : BitVec 4) (o : BitVec 10) : KeepsM I (readLit c st' i a o) :=
  .bind (.getCore c) fun _ => .bind (hI.fetchRuns _ _ _ _ _) fun _ => .pure _

theorem litDone (c : CoreId) (marks : List GuardMark) (f : LState → LState) : KeepsM I (litDone c marks f) :=
  .bind (.lift (hI.staleMark _)) fun _ => .bind (hI.modLs _ _) fun _ => .pure _

theorem readRowsWith (c : CoreId) (i : Instr) (d : SDesc) (rows : List (Int × Int)) (more : List Touch) :
    KeepsM I (readRowsWith c i d rows more) :=
  .bind (.need _ _ _) fun _ => .bind (hI.fetchRuns _ _ _ _ _) fun _ => .bind (.lift (hI.staleMark _)) fun _ => .pure _

theorem readRows (c : CoreId) (i : Instr) (d : SDesc) (rows : List (Int × Int)) : KeepsM I (readRows c i d rows) :=
  .bind (hI.readRowsWith _ _ _ _ _) fun _ => .pure _

theorem advanceDesc (c : CoreId) (k : BitVec 5) (hold : BitVec 1) : KeepsM I (advanceDesc c k hold) := .ite (.pure _) (hI.modLs _ _)

/-! ### Descriptors, rings and nests (R139, R140, R158) -/

theorem execSdBase (w g : BitVec 3) (k : BitVec 5) (a : BitVec 4) (o : BitVec 10) : KeepsRow st I (execSdBase w g k a o) := by
  unfold Machine.execSdBase
  refine hI.runE _ _ _ _ _ fun c => .bind (hI.readLit _ _ _ _ _) fun _ => .bind (.need _ _ _) fun _ => .ite ?_ (hI.litDone _ _ _)
  refine .bind (.need _ _ _) fun _ => .bind .get fun _ => .bind (.waitUnless _) fun _ => .bind (hI.guardCheck _ _ _ _) fun _ =>
    .bind .get fun _ => .bind (.lift (hI.readLRec _ _ _)) fun r => ?_
  split
  · exact hI.pageFault c _
  · refine .bind (.getCore c) fun _ => ?_
    split
    · exact .trap _ _ _
    · exact hI.litDone _ _ _

theorem execSdFmt (w g : BitVec 3) (k : BitVec 5) (a : BitVec 4) (o : BitVec 10) : KeepsRow st I (execSdFmt w g k a o) := by
  unfold Machine.execSdFmt
  exact hI.runE _ _ _ _ _ fun _ => .bind (hI.readLit _ _ _ _ _) fun _ => .bind (.need _ _ _) fun _ => hI.litDone _ _ _

theorem execSdGeom (w g : BitVec 3) (k : BitVec 5) (a : BitVec 4) (o : BitVec 10) : KeepsRow st I (execSdGeom w g k a o) := by
  unfold Machine.execSdGeom
  exact hI.runE _ _ _ _ _ fun _ => .bind (hI.readLit _ _ _ _ _) fun _ => hI.litDone _ _ _

theorem execSdScale (w g : BitVec 3) (k : BitVec 5) (a : BitVec 4) (o : BitVec 10) : KeepsRow st I (execSdScale w g k a o) := by
  unfold Machine.execSdScale
  exact hI.runE _ _ _ _ _ fun _ => .bind (hI.readLit _ _ _ _ _) fun _ => hI.litDone _ _ _

theorem execRgCfg (w g : BitVec 3) (r : BitVec 4) (a : BitVec 4) (o : BitVec 10) : KeepsRow st I (execRgCfg w g r a o) := by
  unfold Machine.execRgCfg
  exact hI.runE _ _ _ _ _ fun c => .bind (hI.readLit _ _ _ _ _) fun _ => .bind .get fun _ => .bind (.need _ _ _) fun _ => .bind (.getCore c) fun _ =>
    .bind (.need _ _ _) fun _ => hI.litDone _ _ _

theorem execRgRst (w g : BitVec 3) (r : BitVec 4) : KeepsRow st I (execRgRst w g r) := by
  unfold Machine.execRgRst
  exact hI.runE _ _ _ _ _ fun c => .bind (.getCore c) fun _ => .bind (.need _ _ _) fun _ => .bind (hI.modLs _ _) fun _ => .pure _

theorem execNestSetImm (w g : BitVec 3) (l : BitVec 3) (f : BitVec 2) (v : BitVec 14) : KeepsRow st I (execNestSetImm w g l f v) := by
  unfold Machine.execNestSetImm
  exact hI.runE _ _ _ _ _ fun _ => .bind (.need _ _ _) fun _ => .bind (hI.modLs _ _) fun _ => .pure _

theorem execNestSetReg (w g : BitVec 3) (l : BitVec 3) (f : BitVec 2) (n : BitVec 4) : KeepsRow st I (execNestSetReg w g l f n) := by
  unfold Machine.execNestSetReg
  exact hI.runE _ _ _ _ _ fun c => .bind (.getCore c) fun _ => .bind (.need _ _ _) fun _ => .bind (hI.modLs _ _) fun _ => .pure _

theorem execNestSwap (w g : BitVec 3) : KeepsRow st I (execNestSwap w g) := by
  unfold Machine.execNestSwap
  exact hI.runE _ _ _ _ _ fun _ => .bind (hI.modLs _ _) fun _ => .pure _

/-! ### Loads (R142 to R144) -/

theorem execLdTile (w g : BitVec 3) (r : BitVec 4) (k : BitVec 5) (h : BitVec 1) : KeepsRow st I (execLdTile w g r k h) := by
  unfold Machine.execLdTile
  exact hI.runE _ _ _ _ _ fun c => .bind (.getCore c) fun _ => .bind (.need _ _ _) fun _ => .bind .get fun _ =>
    .bind (hI.readRowsWith _ _ _ _ _) fun _ => .bind (hI.modLs _ _) fun _ => .bind (hI.advanceDesc _ _ _) fun _ => .pure _

theorem execLdStrd (w g : BitVec 3) (d k : BitVec 5) (h : BitVec 1) : KeepsRow st I (execLdStrd w g d k h) := by
  unfold Machine.execLdStrd
  refine hI.runE _ _ _ _ _ fun c => .bind (.getCore c) fun _ => .bind .get fun _ => .bind (.need _ _ _) fun _ => ?_
  split
  · exact .trap _ _ _
  · exact .bind (hI.readRows _ _ _ _) fun _ => .bind (hI.modXs _ _) fun _ => .bind (hI.advanceDesc _ _ _) fun _ => .pure _

theorem execLdGath (w g : BitVec 3) (d k x : BitVec 5) (h : BitVec 1) : KeepsRow st I (execLdGath w g d k x h) := by
  unfold Machine.execLdGath
  exact hI.runE _ _ _ _ _ fun c => .bind (.getCore c) fun _ => .bind (.need _ _ _) fun _ => .bind (hI.readRows _ _ _ _) fun _ =>
    .bind (.lift (hI.joinL _ _ _)) fun _ => .bind (hI.modXs _ _) fun _ => .bind (hI.advanceDesc _ _ _) fun _ => .pure _

theorem execLdVt (w g : BitVec 3) (d k : BitVec 5) (h : BitVec 1) : KeepsRow st I (execLdVt w g d k h) := by
  unfold Machine.execLdVt
  exact hI.runE _ _ _ _ _ fun c => .bind (.getCore c) fun _ => .bind (.need _ _ _) fun _ => .bind (hI.readRows _ _ _ _) fun _ =>
    .bind (hI.modXs _ _) fun _ => .bind (hI.advanceDesc _ _ _) fun _ => .pure _

theorem execLdBcst (w g : BitVec 3) (d k : BitVec 5) (h : BitVec 1) : KeepsRow st I (execLdBcst w g d k h) := by
  unfold Machine.execLdBcst
  exact hI.runE _ _ _ _ _ fun c => .bind (.getCore c) fun _ => .bind (.need _ _ _) fun _ => .bind (hI.readRows _ _ _ _) fun _ =>
    .bind (hI.modXs _ _) fun _ => .bind (hI.advanceDesc _ _ _) fun _ => .pure _

end
end RowClosed
end Sys2Proof.Machine
end

section
/-! The X strand's rows keep what a row keeps (O6). -/

namespace Sys2Proof.Machine

/-- A step of a matrix multiplication leaves its flight one, and every other as it was. -/
theorem matAdd_torn {st : Strand} (m : MatRun) (sh : Shape) (ea eb : List Byte) (oc : Nat) {k : Core} (hk : tornBy k st = []) :
    tornBy (matAdd m sh ea eb oc k) st = [] := by
  rw [tornBy_nil_iff] at hk ⊢
  intro f hf
  obtain ⟨g, hg, rfl⟩ := List.mem_map.1 hf
  split
  · exact fun _ => rfl
  · exact hk g hg

namespace RowClosed

section
variable {st : Strand} {I : State → Prop} (hI : RowClosed st I)
include hI

/-! ### The matrix unit (R160 to R175) -/

theorem mixWords (old new : List Byte) : Keeps I (mixWords old new) := by
  intro s h
  unfold Machine.mixWords
  split
  · exact h
  · exact hI.closed.ctr s _ h

theorem readEntry (c : CoreId) (pages : List Page) (r : Run) (old : List Byte) : Keeps I (readEntry c pages r old) := by
  intro s h
  have read := keeps_readPieces hI.closed (strandWho s c) (pieces pages r.1 r.2) s h
  unfold Machine.readEntry
  generalize readPieces (strandWho s c) (pieces pages r.1 r.2) s = x at read ⊢
  obtain ⟨g, s1⟩ := x
  dsimp only
  split
  · exact hI.killJobOf c _ read
  · exact hI.mixWords _ _ _ read

theorem readEntry_end {c : CoreId} {pages : List Page} {r : Run} {old : List Byte} {s : State} {x : Option (List Byte) × State}
    (e : Machine.readEntry c pages r old s = x) (h : I s) : I x.2 := by
  rw [← e]
  exact hI.readEntry _ _ _ _ s h

theorem matStep (c : CoreId) (s : State) (h : I s) : I (matStep c s) := by
  unfold Machine.matStep
  split
  · exact h
  · split
    · exact h
    · dsimp only
      split
      · next e1 => exact hI.readEntry_end e1 h
      · next e1 =>
        have h1 := hI.readEntry_end e1 h
        split
        · next e2 => exact hI.readEntry_end e2 h1
        · next e2 => exact hI.core _ c _ (hI.readEntry_end e2 h1) (matAdd_torn _ _ _ _ _)

theorem matFinish (c : CoreId) (s : State) (h : I s) : I (matFinish c s) := by
  have steps : ∀ n, I (Nat.repeat (Machine.matStep c) n s) := by
    intro n
    induction n with
    | zero => exact h
    | succ n ih => exact hI.matStep c _ ih
  unfold Machine.matFinish
  split
  · exact h
  · exact steps _

theorem matAfter (c : CoreId) : KeepsM I (matAfter c) :=
  .bind (.modifyState (hI.matFinish c)) fun _ => .bind (.getCore c) fun _ => .waitUnless _

theorem mmaStart (q : Bool) (i : Instr) (d : BitVec 2) (ra rb sreg : BitVec 4) (c : CoreId) (st' : Strand) :
    KeepsM I (mmaStart q i d ra rb sreg c st') := by
  refine .bind (hI.matAfter c) fun _ => .bind (.getCore c) fun _ => ?_
  dsimp only
  split
  · exact .trap _ _ _
  · refine .bind (.need _ _ _) fun _ => .bind (.need _ _ _) fun _ => .bind (.need _ _ _) fun _ => .bind (.need _ _ _) fun _ =>
      .bind (.need _ _ _) fun _ => .bind .get fun _ => .bind (.lift (keeps_translateRuns hI.closed _ _)) fun r => ?_
    split
    · exact hI.pageFault c _
    · exact .bind (.lift (keeps_mapM _ (fun _ => keeps_readPieces hI.closed _ _) _)) fun _ =>
        .bind (.lift (keeps_mapM _ (fun _ => keeps_readPieces hI.closed _ _) _)) fun _ => .bind (.forM (hI.poisoned c)) fun _ =>
        .bind (.lift (keeps_joinAll hI.closed _ _ _)) fun _ => .bind (hI.modLs _ _) fun _ => .bind (hI.modXs _ _) fun _ => .pure _

theorem execMma (w g : BitVec 3) (d : BitVec 2) (a b s : BitVec 4) : KeepsRow st I (execMma w g d a b s) := by
  unfold Machine.execMma
  exact hI.runE _ _ _ _ _ fun _ => hI.mmaStart _ _ _ _ _ _ _ _

theorem execMmaQ (w g : BitVec 3) (d : BitVec 2) (a b s : BitVec 4) : KeepsRow st I (execMmaQ w g d a b s) := by
  unfold Machine.execMmaQ
  exact hI.runE _ _ _ _ _ fun _ => hI.mmaStart _ _ _ _ _ _ _ _

theorem acStart (c : CoreId) (d : BitVec 2) (i : Instr) : KeepsM I (acStart c d i) :=
  .bind (hI.matAfter c) fun _ => .bind (.getCore c) fun _ => .bind (.need _ _ _) fun _ => .pure _

theorem acLoad (i : Instr) (f : Word32 → Word32 → Word32) (d : BitVec 2) (a : BitVec 5) (j : BitVec 4) (c : CoreId) :
    KeepsM I (acLoad i f d a j c) :=
  .bind (hI.acStart _ _ _) fun _ => .bind (.lift (hI.joinL _ _ _)) fun _ => .bind (hI.modXs _ _) fun _ => .pure _

theorem execAcZero (w g : BitVec 3) (d : BitVec 2) : KeepsRow st I (execAcZero w g d) := by
  unfold Machine.execAcZero
  exact hI.runE _ _ _ _ _ fun _ => .bind (hI.acStart _ _ _) fun _ => .bind (hI.modXs _ _) fun _ => .pure _

theorem execAcMv (w g : BitVec 3) (d : BitVec 5) (a : BitVec 2) (j : BitVec 4) : KeepsRow st I (execAcMv w g d a j) := by
  unfold Machine.execAcMv
  exact hI.runE _ _ _ _ _ fun _ => .bind (hI.acStart _ _ _) fun _ => .bind (hI.modXs _ _) fun _ => .pure _

theorem execAcLd (w g : BitVec 3) (d : BitVec 2) (a : BitVec 5) (j : BitVec 4) : KeepsRow st I (execAcLd w g d a j) := by
  unfold Machine.execAcLd
  exact hI.runE _ _ _ _ _ fun _ => hI.acLoad _ _ _ _ _ _

theorem execAcLdAdd (w g : BitVec 3) (d : BitVec 2) (a : BitVec 5) (j : BitVec 4) : KeepsRow st I (execAcLdAdd w g d a j) := by
  unfold Machine.execAcLdAdd
  exact hI.runE _ _ _ _ _ fun _ => hI.acLoad _ _ _ _ _ _

theorem execMfence (w g : BitVec 3) : KeepsRow st I (execMfence w g) := by
  unfold Machine.execMfence
  exact hI.runE _ _ _ _ _ fun c => .bind (.getCore c) fun _ => .bind (.waitUnless _) fun _ => .bind (hI.modXs _ _) fun _ => .pure _

/-! ### The vector unit (R176 to R184) -/

theorem writeTile (c : CoreId) (d : BitVec 5) (p : BitVec 2) (extra : List Label) (new : Tile) : KeepsM I (writeTile c d p extra new) :=
  .bind (.getCore c) fun _ => .bind (.lift (keeps_joinAll hI.closed _ _ _)) fun _ => .bind (hI.modXs _ _) fun _ => .pure _

theorem writeMask (c : CoreId) (d : BitVec 3) (p : BitVec 2) (extra : List Label) (new : List Bool) : KeepsM I (writeMask c d p extra new) :=
  .bind (.getCore c) fun _ => .bind (.lift (keeps_joinAll hI.closed _ _ _)) fun _ => .bind (hI.modXs _ _) fun _ => .pure _

theorem elem2 (i : Instr) (w g : BitVec 3) (d a b : BitVec 5) (p : BitVec 2) (f : Word32 → Word32 → Word32) :
    KeepsRow st I (elem2 i w g d a b p f) :=
  hI.runE _ _ _ _ _ fun c => .bind (.getCore c) fun _ => hI.writeTile _ _ _ _ _

theorem elem1 (i : Instr) (w g : BitVec 3) (d a : BitVec 5) (p : BitVec 2) (f : Word32 → Word32) : KeepsRow st I (elem1 i w g d a p f) :=
  hI.runE _ _ _ _ _ fun c => .bind (.getCore c) fun _ => hI.writeTile _ _ _ _ _

theorem moveBy (i : Instr) (w g : BitVec 3) (d a : BitVec 5) (n : BitVec 4) (p : BitVec 2) (f : Tile → Nat → Nat → Nat → Word32) :
    KeepsRow st I (moveBy i w g d a n p f) :=
  hI.runE _ _ _ _ _ fun c => .bind (.getCore c) fun _ => hI.writeTile _ _ _ _ _

theorem execVtr4 (w g : BitVec 3) (d a : BitVec 3) : KeepsRow st I (execVtr4 w g d a) :=
  hI.runE _ _ _ _ _ fun c => .bind (.getCore c) fun _ => .bind (.lift (keeps_joinAll hI.closed _ _ _)) fun _ =>
    .bind (hI.modXs _ _) fun _ => .pure _

theorem execVtree (w g : BitVec 3) (a : BitVec 5) (k : BitVec 1) (m o : BitVec 3) (d : BitVec 6) : KeepsRow st I (execVtree w g a k m o d) :=
  hI.runE _ _ _ _ _ fun c => .bind (.getCore c) fun _ => .bind (.lift (keeps_joinAll hI.closed _ _ _)) fun _ =>
    .ite (.pure _) (.bind (hI.addPend _ _) fun _ => .pure _)

/-! ### Scans (R199 to R212) -/

omit hI in
theorem needProg (c : CoreId) (i : Instr) : KeepsM I (needProg c i) := by
  refine .bind (.getCore c) fun _ => .bind (.need _ _ _) fun _ => ?_
  split
  · exact .pure _
  · exact .trap _ _ _

theorem putRec (c : CoreId) (n : BitVec 4) (b w : Nat) (r : ScanRec) (lbl : Label) : KeepsM I (putRec c n b w r lbl) :=
  .bind (.getCore c) fun _ => .bind (.lift (hI.joinL _ _ _)) fun _ => hI.modXs _ _

theorem clearRec (c : CoreId) (n : BitVec 4) (b w : Nat) : KeepsM I (clearRec c n b w) := hI.modXs _ _

theorem putToken (c : CoreId) (p : Prog) (d : BitVec 5) (r : ScanRec) (lbl : Label) : KeepsM I (putToken c p d r lbl) := by
  unfold Machine.putToken
  split
  · exact .pure _
  · exact hI.modXs _ _

theorem tick (c : CoreId) (p : Prog) (run : Bool) : KeepsM I (tick c p run) := by
  refine .bind (.getCore c) fun _ => .ite (hI.modXs _ _) ?_
  split
  · split
    · exact .bind (hI.putRec _ _ _ _ _ _) fun _ => .bind (hI.clearRec _ _ _ _) fun _ => hI.modXs _ _
    · exact .bind (hI.clearRec _ _ _ _) fun _ => hI.modXs _ _
  · exact hI.modXs _ _

theorem locFold (i : Instr) (n : BitVec 2) (a : BitVec 5) (d : Option (BitVec 5)) (fin : Bool) (c : CoreId) :
    KeepsM I (locFold i n a d fin c) := by
  refine .bind (needProg _ _) fun _ => .bind (.getCore c) fun _ => .bind (.need _ _ _) fun _ => .bind (.need _ _ _) fun _ =>
    .bind (.lift (keeps_joinAll hI.closed _ _ _)) fun _ => .bind (hI.putRec _ _ _ _ _ _) fun _ => ?_
  split
  · exact .bind (hI.tick _ _ _) fun _ => .pure _
  · exact .bind (hI.putToken _ _ _ _ _) fun _ => .ite (.bind (hI.modXs _ _) fun _ => .bind (hI.tick _ _ _) fun _ => .pure _)
      (.bind (hI.tick _ _ _) fun _ => .pure _)

omit hI in
theorem netChecks (i : Instr) (xp : Bool) (c : CoreId) : KeepsM I (netChecks i xp c) :=
  .bind (.getCore c) fun _ => .bind (.need _ _ _) fun _ => .ite (.bind .get fun _ => .need _ _ _) (.pure _)

theorem netStart (i : Instr) (w g : BitVec 3) (xp : Bool) (init : Option (BitVec 4)) : KeepsRow st I (netStart i w g xp init) := by
  intro s t _ h e
  have hend := netChecks (I := I) i xp s.cur.1 s h
  unfold Machine.netStart at e
  dsimp only at e
  split at e
  · split at e
    · cases e
      exact hI.trapEng _ _ _ _ _ _ h
    · split at e
      · cases e
        exact hI.parkE _ _ _ h
      · split at e
        · next hs =>
          rw [hs] at hend
          cases e
          exact hI.parkE _ _ _ (hI.sameFlights _ _ _ hend fun _ => by rfl)
        · next hs =>
          rw [hs] at hend
          cases e
          exact hI.trapEng _ _ _ _ _ _ hend
        · next hs =>
          rw [hs] at hend
          cases e
          exact hI.parkE _ _ _ hend
  · cases e

theorem execScanCfg (w g : BitVec 3) (a : BitVec 5) (s : BitVec 4) : KeepsRow st I (execScanCfg w g a s) := by
  unfold Machine.execScanCfg
  refine hI.runE _ _ _ _ _ fun c => .bind (.getCore c) fun _ => ?_
  dsimp only
  split
  · exact .trap _ _ _
  · exact .bind (.need _ _ _) fun _ => .bind (hI.modXs _ _) fun _ => .bind (.getCore c) fun _ => .bind (hI.clearRec _ _ _ _) fun _ =>
      .bind (.forM fun _ => hI.clearRec _ _ _ _) fun _ => .pure _

theorem execScanSeg (w g m f : BitVec 3) : KeepsRow st I (execScanSeg w g m f) :=
  hI.runE _ _ _ _ _ fun _ => .bind (hI.modXs _ _) fun _ => .pure _

theorem execScanSegOff (w g : BitVec 3) : KeepsRow st I (execScanSegOff w g) :=
  hI.runE _ _ _ _ _ fun _ => .bind (hI.modXs _ _) fun _ => .pure _

theorem execScanLocAgg (w g : BitVec 3) (a : BitVec 5) : KeepsRow st I (execScanLocAgg w g a) := by
  unfold Machine.execScanLocAgg
  exact hI.runE _ _ _ _ _ fun _ => hI.locFold _ _ _ _ _ _

theorem execScanLocOut (w g : BitVec 3) (d a : BitVec 5) : KeepsRow st I (execScanLocOut w g d a) := by
  unfold Machine.execScanLocOut
  exact hI.runE _ _ _ _ _ fun _ => hI.locFold _ _ _ _ _ _

theorem execScanLocFin (w g : BitVec 3) (d a : BitVec 5) : KeepsRow st I (execScanLocFin w g d a) := by
  unfold Machine.execScanLocFin
  exact hI.runE _ _ _ _ _ fun _ => hI.locFold _ _ _ _ _ _

theorem execScanNet (w g : BitVec 3) (x : BitVec 1) : KeepsRow st I (execScanNet w g x) := hI.netStart _ _ _ _ _
theorem execScanNetInit (w g : BitVec 3) (n : BitVec 4) (x : BitVec 1) : KeepsRow st I (execScanNetInit w g n x) := hI.netStart _ _ _ _ _

theorem execScanApp (w g : BitVec 3) (d a : BitVec 5) : KeepsRow st I (execScanApp w g d a) := by
  unfold Machine.execScanApp
  exact hI.runE _ _ _ _ _ fun c => .bind (needProg _ _) fun _ => .bind (.getCore c) fun _ => .bind (.need _ _ _) fun _ => .bind (.need _ _ _) fun _ =>
    .bind (.lift (keeps_joinAll hI.closed _ _ _)) fun _ => .bind (hI.putToken _ _ _ _ _) fun _ => .bind (hI.tick _ _ _) fun _ => .pure _

theorem execScanStep (w g : BitVec 3) (d a : BitVec 5) (n : BitVec 4) : KeepsRow st I (execScanStep w g d a n) := by
  unfold Machine.execScanStep
  exact hI.runE _ _ _ _ _ fun c => .bind (needProg _ _) fun _ => .bind (.getCore c) fun _ => .bind (.need _ _ _) fun _ =>
    .bind (.lift (keeps_joinAll hI.closed _ _ _)) fun _ => .bind (hI.putRec _ _ _ _ _ _) fun _ => .bind (hI.putToken _ _ _ _ _) fun _ => .pure _

/-! ### Slots (R213, R214) -/

theorem execSsLd (w g : BitVec 3) (n : BitVec 4) (a : BitVec 5) (b : BitVec 3) : KeepsRow st I (execSsLd w g n a b) :=
  hI.runE _ _ _ _ _ fun c => .bind (.getCore c) fun _ => .bind (.lift (hI.joinL _ _ _)) fun _ => .bind (hI.modXs _ _) fun _ => .pure _

theorem execSsLdF (w g : BitVec 3) (n : BitVec 4) (a b : BitVec 3) : KeepsRow st I (execSsLdF w g n a b) :=
  hI.runE _ _ _ _ _ fun c => .bind (.getCore c) fun _ => .bind (.lift (hI.joinL _ _ _)) fun _ => .bind (hI.modXs _ _) fun _ => .pure _

theorem execSsSt (w g : BitVec 3) (d : BitVec 5) (n : BitVec 4) (b : BitVec 3) : KeepsRow st I (execSsSt w g d n b) :=
  hI.runE _ _ _ _ _ fun c => .bind (.getCore c) fun _ => .bind (.lift (hI.joinL _ _ _)) fun _ => .bind (hI.modXs _ _) fun _ => .pure _

theorem execSsStF (w g : BitVec 3) (d : BitVec 3) (n : BitVec 4) (b : BitVec 3) : KeepsRow st I (execSsStF w g d n b) :=
  hI.runE _ _ _ _ _ fun c => .bind (.getCore c) fun _ => .bind (.lift (hI.joinL _ _ _)) fun _ => .bind (hI.modXs _ _) fun _ => .pure _

theorem execSsZero (w g : BitVec 3) (n : BitVec 4) : KeepsRow st I (execSsZero w g n) :=
  hI.runE _ _ _ _ _ fun _ => .bind (hI.modXs _ _) fun _ => .pure _

end
end RowClosed
end Sys2Proof.Machine
end

section
/-! The S strand's rows keep what a row keeps (O6). -/

namespace Sys2Proof.Machine
namespace RowClosed

section
variable {st : Strand} {I : State → Prop} (hI : RowClosed st I)
include hI

/-! ### Reads and writes of the store unit (R222 to R235) -/

theorem readQuiet (c : CoreId) (va n : Nat) : KeepsM I (readQuiet c va n) := by
  refine .bind .get fun _ => .bind (.lift (keeps_translate hI.closed _ _ _ _)) fun r => ?_
  split
  · exact hI.pageFault c _
  · exact .bind (.lift (keeps_readPieces hI.closed _ _)) fun g => .bind (hI.poisoned c g) fun _ => .pure _

theorem openBlock (c : CoreId) (d : SDesc) : KeepsM I (openBlock c d) := .bind (hI.openRunsE _ _ _ _ _ _) fun _ => .pure _

theorem storeRows (c : CoreId) (w : Who) (rows : List (List Piece × List Byte)) (lbl : Label) : KeepsM I (storeRows c w rows lbl) :=
  .forM fun _ => .bind (hI.stampRace _ _ _) fun _ => .bind (.lift (hI.writePieces _ _ _ _)) fun _ => hI.reportDrop _ _

theorem readKeys (c : CoreId) : Keeps I (readKeys c) := by
  intro s h
  unfold Machine.readKeys
  dsimp only
  split
  · exact h
  · exact hI.closed.ctr s _ h

/-- A drain keeps the property when what it reads does. -/
theorem drain (i : Instr) (w g : BitVec 3) (k : BitVec 5) (h : BitVec 1) (ok : Bool) (maxR maxC : Nat) (src : CoreId → SM DrainSrc)
    (hsrc : ∀ c, Keeps I (src c)) : KeepsRow st I (drain i w g k h ok maxR maxC src) := by
  refine hI.runE _ _ _ _ _ fun c => .bind (.getCore c) fun _ => .bind (.need _ _ _) fun _ => .bind (hI.openBlock _ _) fun _ =>
    .bind (.lift (hI.readKeys c)) fun _ => ?_
  dsimp only
  split
  on_goal 1 =>
    refine .bind (hI.modSs _ _) fun _ => ?_
    split
  on_goal 1 => refine .bind (.trap _ _ _) fun _ => ?_
  all_goals
    refine .bind (.lift (hsrc c)) fun _ => .bind (hI.storeRows _ _ _ _) fun _ => ?_
    split
    · exact .bind (.lift (hI.joinL _ _ _)) fun _ => .bind (hI.modSs _ _) fun _ => .bind (hI.advanceDesc _ _ _) fun _ => .pure _
    · exact .bind (hI.advanceDesc _ _ _) fun _ => .pure _

theorem accView (c : CoreId) (d : BitVec 2) : Keeps I (accView c d) := by
  intro s h
  unfold Machine.accView
  dsimp only
  split
  · exact h
  · have joined := keeps_joinAll hI.closed (dieOf c) (s.core c).id.pid
      ((s.core c).xs.accl d :: (accSeen (s.core c) d).map (fun p => p.2)) _ (hI.closed.ctr s (s.freeCtr + 16384) h)
    exact joined

theorem accSrc (a : BitVec 2) (row col : Nat) (c : CoreId) : Keeps I (accSrc a row col c) := keeps_bind (hI.accView _ _) fun _ => keeps_pure _

theorem execDrAcc (w g : BitVec 3) (k : BitVec 5) (a : BitVec 2) (j : BitVec 4) (h : BitVec 1) : KeepsRow st I (execDrAcc w g k a j h) :=
  hI.drain _ _ _ _ _ _ _ _ _ (hI.accSrc _ _ _)

theorem execDrAccAll (w g : BitVec 3) (k : BitVec 5) (a : AccRegion) (h : BitVec 1) : KeepsRow st I (execDrAccAll w g k a h) :=
  hI.drain _ _ _ _ _ _ _ _ _ (hI.accSrc _ _ _)

theorem execDrVt (w g : BitVec 3) (k a : BitVec 5) (n h : BitVec 1) : KeepsRow st I (execDrVt w g k a n h) :=
  hI.drain _ _ _ _ _ _ _ _ _ fun _ => keeps_bind keeps_get fun _ => keeps_pure _

theorem execDrMode (w g : BitVec 3) (a : BitVec 4) (o : BitVec 10) : KeepsRow st I (execDrMode w g a o) := by
  unfold Machine.execDrMode
  refine hI.runE _ _ _ _ _ fun c => .bind (.getCore c) fun _ => .bind (.need _ _ _) fun _ => .bind (hI.readQuiet _ _ _) fun _ =>
    .bind (.need _ _ _) fun _ => .ite (.bind (hI.modSs _ _) fun _ => .pure _) (.bind .get fun _ => .bind (.lift (hI.readLRec _ _ _)) fun r => ?_)
  split
  · exact .bind (hI.pageFault c _) fun _ => .pure _
  · exact .bind (.need _ _ _) fun _ => .bind (hI.modSs _ _) fun _ => .pure _

theorem execHistCfg (w g : BitVec 3) (h a : BitVec 4) : KeepsRow st I (execHistCfg w g h a) := by
  unfold Machine.execHistCfg
  exact hI.runE _ _ _ _ _ fun c => .bind (.getCore c) fun _ => .bind (.need _ _ _) fun _ => .bind (hI.modSs _ _) fun _ => .pure _

theorem histRead (c : CoreId) (h : BitVec 4) (k : BitVec 5) (d : BitVec 6) : KeepsM I (histRead c h k d) :=
  .bind (.getCore c) fun _ => .ite (.pure _) (.bind (hI.addPend _ _) fun _ => .pure _)

theorem execHistRd (w g : BitVec 3) (h : BitVec 4) (k : BitVec 5) (d : BitVec 6) : KeepsRow st I (execHistRd w g h k d) :=
  hI.runE _ _ _ _ _ fun _ => hI.histRead _ _ _ _

theorem execHistRdClr (w g : BitVec 3) (h : BitVec 4) (k : BitVec 5) (d : BitVec 6) : KeepsRow st I (execHistRdClr w g h k d) :=
  hI.runE _ _ _ _ _ fun _ => .bind (hI.histRead _ _ _ _) fun _ => .bind (hI.modSs _ _) fun _ => .pure _

theorem execHistClr (w g : BitVec 3) (h : BitVec 4) : KeepsRow st I (execHistClr w g h) :=
  hI.runE _ _ _ _ _ fun _ => .bind (hI.modSs _ _) fun _ => .pure _

theorem execStTile (w g : BitVec 3) (k a : BitVec 5) (h : BitVec 1) : KeepsRow st I (execStTile w g k a h) := by
  unfold Machine.execStTile
  exact hI.runE _ _ _ _ _ fun c => .bind (.getCore c) fun _ => .bind (.need _ _ _) fun _ => .bind (hI.openBlock _ _) fun _ =>
    .bind (hI.storeRows _ _ _ _) fun _ => .bind (hI.advanceDesc _ _ _) fun _ => .pure _

omit hI in
theorem windowPages (i : Instr) (c : CoreId) (a b : BitVec 4) : KeepsM I (windowPages i c a b) :=
  .bind .get fun _ => .bind (.need _ _ _) fun _ => .bind (.getCore c) fun _ => .bind (.need _ _ _) fun _ => .pure _

theorem execStWb (w g : BitVec 3) (a b : BitVec 4) : KeepsRow st I (execStWb w g a b) := by
  unfold Machine.execStWb
  exact hI.runE _ _ _ _ _ fun _ => .bind (windowPages _ _ _ _) fun _ =>
    .bind (.modifyState fun s h => foldl (fun s l hs => hI.writeback l s hs) _ s h) fun _ => .pure _

theorem execStInv (w g : BitVec 3) (a b : BitVec 4) : KeepsRow st I (execStInv w g a b) := by
  unfold Machine.execStInv
  exact hI.runE _ _ _ _ _ fun _ => .bind (windowPages _ _ _ _) fun _ =>
    .bind (.modifyState fun s h => hI.free s _ h rfl rfl rfl) fun _ => .pure _

theorem execTileDone (w g : BitVec 3) (a : BitVec 4) : KeepsRow st I (execTileDone w g a) := by
  unfold Machine.execTileDone
  exact hI.runE _ _ _ _ _ fun c => .bind (.getCore c) fun _ => .bind (.need _ _ _) fun _ =>
    .bind (.modifyState fun s h => hI.updJob _ _ s h) fun _ => .pure _

end
end RowClosed
end Sys2Proof.Machine
end

section
/-! Every row of a strand's table keeps what a row keeps (O6). -/

namespace Sys2Proof.Machine
namespace RowClosed

section
variable {st : Strand} {I : State → Prop} (hI : RowClosed st I)
include hI

/-- A row of the C strand's table. -/
theorem exec_C {i : Instr} (hi : i.tbl = .C) : KeepsRow st I (exec i) := by
  cases i
  case add | sub | and | or | xor | sll | srl | sra | slt | sltu | mul | mulh | mulhu | div | divu | rem | remu | min | max =>
    unfold exec
    exact hI.oprRR _ _ _ _
  case clz | ctz | popc | addi | andi | ori | xori | slti | slli | srli | srai =>
    unfold exec
    exact hI.oprRI _ _ _
  case lih | adpc =>
    unfold exec
    exact hI.oprPc _ _
  case ld => exact hI.execLd _ _ _ _
  case st => exact hI.execSt _ _ _ _
  case j => exact hI.execJ _
  case jal => exact hI.execJal _ _
  case jalr => exact hI.execJalr _ _ _
  case fence r u => exact hI.execFence r u
  case csrr => exact hI.execCsrr _ _
  case tret => exact hI.execTret
  case wfi => exact hI.execWfi
  case snap => exact hI.execSnap
  case tcp => exact hI.execTcp _ _
  case chanGo => exact hI.execChanGo _ _
  case chanStat => exact hI.execChanStat _ _
  case chanAbort => exact hI.execChanAbort _
  case lrecFlush => exact hI.execLrecFlush _
  case semAcq => exact hI.execSemAcq _ _ _
  case semRel => exact hI.execSemRel _ _ _
  case semTry => exact hI.execSemTry _ _ _ _
  case semRd => exact hI.execSemRd _ _ _
  case tokGive => exact hI.execTokGive _
  case tokWait => exact hI.execTokWait _
  case fork => exact hI.execFork _
  case domSetSplit => exact hI.execDomSetSplit
  case domSetJoin => exact hI.execDomSetJoin
  case flagAdd => exact hI.execFlagAdd _ _
  case flagWait => exact hI.execFlagWait _ _
  case phase => exact hI.execPhase
  case waitt => exact hI.execWaitt _
  case launch => exact hI.execLaunch _ _
  case est => exact hI.execEst _
  case srkey => exact hI.execSrkey _ _
  case lblRdReg => exact hI.execLblRdReg _ _
  case lblRdMem => exact hI.execLblRdMem _ _
  case splice => exact hI.execSplice _ _ _
  case repGo => exact hI.execRepGo _ _
  case repPoll => exact hI.execRepPoll _ _
  case collGo => exact hI.execCollGo _ _
  case collPoll => exact hI.execCollPoll _ _
  case beq | bne | blt | bge | bltu | bgeu =>
    unfold exec
    exact hI.branchOn _ _ _ _ _
  case amoAdd | amoAnd | amoOr | amoXor | amoMin | amoMax | amoSwap | amoCas | amoFadd =>
    unfold exec
    exact hI.amoRun _ _ _ _ _ _ _ _
  case csrw | csrs =>
    unfold exec
    exact hI.csrWriteWith _ _ _ _
  case svc | brk =>
    unfold exec
    exact hI.trapAfter _ _
  case rdv | rdvEnd =>
    unfold exec
    exact hI.rdvC _ _ _
  case ssSpill | ssFill =>
    unfold exec
    exact hI.spillIssue _ _ _ _
  all_goals cases hi

/-- A row of the table that the engine strands share. -/
theorem exec_E {i : Instr} (hi : i.tbl = .E) : KeepsRow st I (exec i) := by
  cases i
  case lpSetImm => exact hI.execLpSetImm _ _ _ _
  case lpSetReg => exact hI.execLpSetReg _ _ _ _
  case lpEnd => exact hI.execLpEnd _ _ _ _
  case eJ => exact hI.execEJ _ _ _
  case eBnz => exact hI.execEBnz _ _ _ _
  case nLi => exact hI.execNLi _ _ _ _
  case nAdd => exact hI.execNAdd _ _ _ _ _
  case eNop => exact hI.execENop _ _
  case eRdv | eRdvEnd =>
    unfold exec
    exact hI.rdvE _ _ _ _ _
  all_goals cases hi

/-- A row of the L strand's table. -/
theorem exec_L {i : Instr} (hi : i.tbl = .L) : KeepsRow st I (exec i) := by
  cases i
  case sdBase => exact hI.execSdBase _ _ _ _ _
  case sdFmt => exact hI.execSdFmt _ _ _ _ _
  case sdGeom => exact hI.execSdGeom _ _ _ _ _
  case sdScale => exact hI.execSdScale _ _ _ _ _
  case rgCfg => exact hI.execRgCfg _ _ _ _ _
  case rgRst => exact hI.execRgRst _ _ _
  case ldTile => exact hI.execLdTile _ _ _ _ _
  case ldStrd => exact hI.execLdStrd _ _ _ _ _
  case ldGath => exact hI.execLdGath _ _ _ _ _ _
  case ldVt => exact hI.execLdVt _ _ _ _ _
  case ldBcst => exact hI.execLdBcst _ _ _ _ _
  case nestSetImm => exact hI.execNestSetImm _ _ _ _ _
  case nestSetReg => exact hI.execNestSetReg _ _ _ _ _
  case nestSwap => exact hI.execNestSwap _ _
  all_goals cases hi

/-- A row of the X strand's table. -/
theorem exec_X {i : Instr} (hi : i.tbl = .X) : KeepsRow st I (exec i) := by
  cases i
  case mma => exact hI.execMma _ _ _ _ _ _
  case mmaQ => exact hI.execMmaQ _ _ _ _ _ _
  case acZero => exact hI.execAcZero _ _ _
  case acMv => exact hI.execAcMv _ _ _ _ _
  case acLd => exact hI.execAcLd _ _ _ _ _
  case acLdAdd => exact hI.execAcLdAdd _ _ _ _ _
  case mfence => exact hI.execMfence _ _
  case vtr4 => exact hI.execVtr4 _ _ _ _
  case vtree => exact hI.execVtree _ _ _ _ _ _ _
  case scanCfg => exact hI.execScanCfg _ _ _ _
  case scanSeg => exact hI.execScanSeg _ _ _ _
  case scanSegOff => exact hI.execScanSegOff _ _
  case scanLocAgg => exact hI.execScanLocAgg _ _ _
  case scanLocOut => exact hI.execScanLocOut _ _ _ _
  case scanLocFin => exact hI.execScanLocFin _ _ _ _
  case scanNet => exact hI.execScanNet _ _ _
  case scanNetInit => exact hI.execScanNetInit _ _ _ _
  case scanApp => exact hI.execScanApp _ _ _ _
  case scanStep => exact hI.execScanStep _ _ _ _ _
  case ssLd => exact hI.execSsLd _ _ _ _ _
  case ssLdF => exact hI.execSsLdF _ _ _ _ _
  case ssSt => exact hI.execSsSt _ _ _ _ _
  case ssStF => exact hI.execSsStF _ _ _ _ _
  case ssZero => exact hI.execSsZero _ _ _
  case vadd | vsub | vmul | vmax | vmin | vand | vor | vxor | vshl | vshr =>
    unfold exec
    exact hI.elem2 _ _ _ _ _ _ _ _
  case vfma | vsel | vmovMt | vredr | vredc | vscanr | vperm =>
    unfold exec
    exact hI.runE _ _ _ _ _ fun c => .bind (.getCore c) fun _ => hI.writeTile _ _ _ _ _
  case vabs | vneg | vcvt | vmov | vexp2 | vlog2 | vrcp | vrsqrt | vtanh | vsigm | vsoftp =>
    unfold exec
    exact hI.elem1 _ _ _ _ _ _ _
  case vcmp | vmovTm | vmovMm =>
    unfold exec
    exact hI.runE _ _ _ _ _ fun c => .bind (.getCore c) fun _ => hI.writeMask _ _ _ _ _
  case vli | vliF =>
    unfold exec
    exact hI.runE _ _ _ _ _ fun _ => hI.writeTile _ _ _ _ _
  case vrotr | vrotc | vbcr | vbcc =>
    unfold exec
    exact hI.moveBy _ _ _ _ _ _ _ _
  all_goals cases hi

/-- A row of the S strand's table. -/
theorem exec_S {i : Instr} (hi : i.tbl = .S) : KeepsRow st I (exec i) := by
  cases i
  case drAcc => exact hI.execDrAcc _ _ _ _ _ _
  case drAccAll => exact hI.execDrAccAll _ _ _ _ _
  case drVt => exact hI.execDrVt _ _ _ _ _ _
  case drMode => exact hI.execDrMode _ _ _ _
  case histCfg => exact hI.execHistCfg _ _ _ _
  case histRd => exact hI.execHistRd _ _ _ _ _
  case histRdClr => exact hI.execHistRdClr _ _ _ _ _
  case histClr => exact hI.execHistClr _ _ _
  case stTile => exact hI.execStTile _ _ _ _ _
  case stWb => exact hI.execStWb _ _ _ _
  case stInv => exact hI.execStInv _ _ _ _
  case tileDone => exact hI.execTileDone _ _ _
  all_goals cases hi

/-- The row of a strand in its turn (R59, R73). -/
theorem exec {i : Instr} (hi : i.tbl.ofStrand st = true) : KeepsRow st I (exec i) := by
  cases ht : i.tbl <;> rw [ht] at hi
  case agent => cases st <;> cases hi
  case C => exact hI.exec_C ht
  case E => exact hI.exec_E ht
  case L => exact hI.exec_L ht
  case X => exact hI.exec_X ht
  case S => exact hI.exec_S ht

end
end RowClosed
end Sys2Proof.Machine
end

section
/-! A step runs the instruction that the word at the position decodes to (O6): nothing else comes first, and with no tile or slot being
written what the strand sees is what is there. -/

namespace Sys2Proof.Machine

/-! ### A turn opens no write of another strand (R185) -/

/-- No other strand has a tile write open in the core. -/
def NoneOpen (c : CoreId) (st : Strand) (s : State) : Prop := tornBy (s.core c) st = []

theorem noneOpen_closed (c : CoreId) (st : Strand) : RowClosed st (NoneOpen c st) where
  free s t h hc _ _ := by
    show tornBy (rd t.cores c) st = []
    rw [hc]
    exact h
  core s d f h hf := by
    unfold NoneOpen
    by_cases hd : c = d
    · subst hd
      rw [State.core_updCore_self]
      exact hf h
    · rw [State.core_updCore_ne s d c f hd]
      exact h
  store _ _ _ h := h
  band _ _ _ h := h

/-- A fetch keeps what a row keeps. -/
theorem RowClosed.fetchWord {st : Strand} {I : State → Prop} (hI : RowClosed st I) (c : CoreId) (st' : Strand) : KeepsM I (fetchWord c st') := by
  refine .bind (.getCore c) fun _ => .bind .get fun _ => .bind (.lift (keeps_translate hI.closed _ _ _ _)) fun r => ?_
  split
  · exact hI.pageFault c _
  · exact .bind (hI.checkWatch _ _ _ _ _) fun _ => .bind (.lift (keeps_readPieces hI.closed _ _)) fun g => .bind (hI.poisoned c g) fun _ => .pure _

/-- A turn that starts with no other strand's write open ends with none open. -/
theorem exec_noneOpen {c : CoreId} {st : Strand} {a s1 t : State} {w : Word32} {i : Instr} (hcur : a.cur = (c, st))
    (hmay : mayIssue a c st = true) (hopen : NoneOpen c st a) (hw : fetchWord c st a = .ok (w, s1)) (hi : decode st w = .ok i)
    (ht : exec i s1 = .next t) : NoneOpen c st t := by
  have hI := noneOpen_closed c st
  have fetched := hI.fetchWord c st a hopen
  rw [hw] at fetched
  have hs1 : s1.cur = (c, st) := (fetchWord_ready hw ⟨hcur, hmay⟩).1
  exact hI.exec (decode_ofStrand hi) s1 t (by rw [hs1]) fetched ht

/-! ### With nothing being written (R185, R216) -/

theorem viewOf_self {c : CoreId} {st : Strand} {a : State} (hopen : NoneOpen c st a) (hfill : st = .X → fillAt (a.core c) = none) :
    viewOf c st a = a := by
  unfold viewOf
  rw [show tornBy (a.core c) st = [] from hopen]
  by_cases hX : st = .X
  · simp [viewTiles, hX, hfill hX]
  · simp [viewTiles, hX]

theorem backOf_self {c : CoreId} {st : Strand} {a v t : State} (hopen : NoneOpen c st t) (hfill : st = .X → fillAt (a.core c) = none) :
    backOf c st a v t = t := by
  unfold backOf
  rw [show tornBy (t.core c) st = [] from hopen]
  by_cases hX : st = .X
  · simp [hX, hfill hX]
  · simp [hX]

/-! ### Nothing comes first (R252, R257, R364) -/

theorem jobStep_none {c : CoreId} {s : State} (hkill : ∀ j, s.coreJob c = some j → j.killDue = false) (hrep : (s.core c).replay = []) :
    jobStep c s = none := by
  unfold jobStep
  cases hj : s.coreJob c with
  | none => rfl
  | some j => simp [hkill j hj, replayDue, hrep]

theorem wakeC_none {c : CoreId} {v : State} (hrdv : (v.core c).rdvWait = false) (hph : (v.core c).phArr = false)
    (hst : (v.core c).st.c = .issuing) : wakeC c v = none := by
  unfold wakeC
  simp [hrdv, hph, hst]

/-- What the C strand's turn is free of when it comes to fetch. -/
structure FreeToFetch (k : Core) : Prop where
  async : k.asyncDue = false
  rdv : k.rdvWait = false
  phase : k.phArr = false
  issuing : k.st.c = .issuing
  annulled : k.seq.ann = 0

theorem issueStep_decoded {c : CoreId} {st : Strand} {v s1 : State} {w : Word32} {i : Instr} (hmay : mayIssue v c st = true)
    (hC : st = .C → FreeToFetch (v.core c)) (hw : fetchWord c st v = .ok (w, s1)) (hi : decode st w = .ok i) :
    issueStep c st v = exec i s1 := by
  have fetched : fetchStep c st v = exec i s1 := by
    unfold fetchStep
    rw [hw]
    dsimp only
    rw [hi]
  unfold issueStep
  by_cases hst : st = .C
  · obtain ⟨hasync, hrdv, hph, hiss, hann⟩ := hC hst
    simp [hst ▸ fetched, hst ▸ hmay, hst, hasync, wakeC_none hrdv hph hiss, hann]
  · simp [hst, hmay, fetched]

theorem step_eq_strandIssue {s : State} {c : CoreId} {st : Strand} (hag : s.agenda = []) (hcur : s.cur = (c, st))
    (hkill : ∀ j, s.coreJob c = some j → j.killDue = false) (hrep : (s.core c).replay = []) :
    step s = paced s (strandIssue c st (issueStep c st) s) := by
  show nextTurn s = _
  unfold nextTurn
  rw [hag, hcur]
  dsimp only
  unfold strandStep
  rw [jobStep_none hkill hrep]
  rfl

/-! ### The statement (O6) -/

theorem seeing_short {c : CoreId} {st : Strand} {turn : State → Out} {a : State} (hopen : NoneOpen c st a)
    (hfill : st = .X → fillAt (a.core c) = none) : seeing c st turn a = turn a := by
  unfold seeing
  rw [show tornBy (a.core c) st = [] from hopen]
  by_cases hX : st = .X
  · simp [hX, hfill hX]
  · simp [hX]

/-- What a turn on a view leaves: the outcome, with the tiles and the slot that it left alone put back. -/
def putBack (c : CoreId) (st : Strand) (a v : State) (o : Out) : Out :=
  match o with
  | .next t => .next (backOf c st a v t)
  | o => o

theorem putBack_self {c : CoreId} {st : Strand} {a v : State} {o : Out} (h : ∀ t, o = .next t → backOf c st a v t = t) :
    putBack c st a v o = o := by
  cases o with
  | next t => exact congrArg _ (h t rfl)
  | fault f => rfl
  | refused r => rfl

theorem seeing_long {c : CoreId} {st : Strand} {turn : State → Out} {a : State}
    (h : ¬(NoneOpen c st a ∧ (st = .X → fillAt (a.core c) = none))) :
    seeing c st turn a = putBack c st a (viewOf c st a) (turn (viewOf c st a)) := by
  unfold seeing
  rw [if_neg]
  · rfl
  · intro hs
    simp only [Bool.and_eq_true, List.isEmpty_iff, Bool.or_eq_true, Option.isNone_iff_eq_none, decide_eq_true_eq] at hs
    obtain ⟨hopen, hfill⟩ := hs
    exact h ⟨hopen, fun hX => hfill.resolve_right fun hn => hn hX⟩

/-- Settles O6: nothing comes before the fetch; what the row runs on is the strand's view, and a row opens no write of another strand. -/
theorem stepRunsDecoded : Obligations.StepRunsDecoded := by
  unfold Obligations.StepRunsDecoded
  intro s s1 c st w i hag hcur hkill hrep a v hmay hC hw hi
  have free : st = .C → FreeToFetch (v.core c) := fun hst =>
    have ⟨hasync, hrdv, hph, hiss, hann⟩ := hC hst
    ⟨hasync, hrdv, hph, hiss, hann⟩
  have runs : issueStep c st v = exec i s1 := issueStep_decoded hmay free hw hi
  have turn : step s = paced s (seeing c st (issueStep c st) a) := step_eq_strandIssue hag hcur hkill hrep
  have short : NoneOpen c st a → (st = .X → fillAt (a.core c) = none) → v = a ∧ step s = paced s (exec i s1) := by
    intro hopen hfill
    have hv : v = a := viewOf_self hopen hfill
    rw [hv] at runs
    exact ⟨hv, by rw [turn, seeing_short hopen hfill, runs]⟩
  refine ⟨?_, short⟩
  by_cases h : NoneOpen c st a ∧ (st = .X → fillAt (a.core c) = none)
  · obtain ⟨hopen, hfill⟩ := h
    obtain ⟨hv, hstep⟩ := short hopen hfill
    rw [hv] at hmay hw ⊢
    rw [hstep]
    exact congrArg (paced s) (putBack_self fun t ht => backOf_self (exec_noneOpen (a := a) hcur hmay hopen hw hi ht) hfill).symm
  · rw [turn, seeing_long h, runs]
    rfl

end Sys2Proof.Machine
end

section
/-! An engine strand's instruction at its end: what a started instruction leaves of its core (R71, R134, R270). -/

namespace Sys2Proof.Machine

/-- A core whose engine strand goes on, beside its tokens and pushes: the next PC, and the marks of a wait or an exemption gone. -/
def wentOn (st : Strand) (f : EFlow) (k : Core) : Core :=
  { (dropExempt st k).setEng st { k.eng st with pc := f.npc.getD ((k.eng st).pc + 4) } with
    st := k.st.set st .issuing, gwait := k.gwait.filter (fun g => g.st != st) }

theorem finishE_core (c : CoreId) (st : Strand) (pops gives : List Nat) (f : EFlow) (s : State) :
    TokensOnly (wentOn st f (s.core c)) ((finishE c st pops gives f s).core c) := by
  obtain ⟨t, w, fl, hp⟩ := popToks_tokensOnly pops (dropExempt st (s.core c))
  unfold finishE
  rw [State.core_updCore_self, hp]
  refine TokensOnly.trans ?_ (settle_tokensOnly _)
  cases st <;> exact ⟨t, w, _, rfl⟩

theorem finishE_only (c : CoreId) (st : Strand) (pops gives : List Nat) (f : EFlow) (s : State) : OnlyCore c s (finishE c st pops gives f s) :=
  ⟨rfl, fun d h => State.core_updCore_ne s c d _ h⟩

/-- Of its core, an S strand instruction that falls through moves its own PC and keeps the x registers and the tiles. -/
theorem finishE_S (c : CoreId) (pops gives : List Nat) (s : State) :
    ((finishE c .S pops gives {} s).core c).s = nextEng (s.core c) .S ∧ ((finishE c .S pops gives {} s).core c).xs = (s.core c).xs ∧
      KeepsX (s.core c) ((finishE c .S pops gives {} s).core c) := by
  obtain ⟨t, w, fl, h⟩ := finishE_core c .S pops gives {} s
  rw [h]
  exact ⟨rfl, rfl, fun r => ⟨rfl, rfl⟩⟩

section
variable {tbl : Tbl} {i : Instr} {w g : BitVec 3} {m : CoreId → Strand → M EFlow} {s s1 : State} {c : CoreId} {st : Strand}

/-- A meaning that comes to its end: the strand goes on from the state that it left. -/
theorem runE_ok {f : EFlow} (h : Startable s c st w g) (ht : tbl.ofStrand st = true) (hm : m c st s = .ok (f, s1)) :
    runE tbl i w g m s = .next (finishE c st (waitCodes st w) (giveCodes st g) f s1) := by
  rw [runE_eq tbl i w g m s c st h ht, hm]

/-- A meaning that traps: the strand stops at its boundary. -/
theorem runE_trap {code sub : Nat} {tval : Word} (h : Startable s c st w g) (ht : tbl.ofStrand st = true)
    (hm : m c st s = .error (.trap code sub tval s1)) : runE tbl i w g m s = .next (trapEng c st code sub tval s1) := by
  rw [runE_eq tbl i w g m s c st h ht, hm]

end

end Sys2Proof.Machine
end

section
/-! Writing back and discarding window pages, and finishing a tile (O50): which lines and frames are left, and what a chunk counter holds. -/

namespace Sys2Proof.Machine

/-! ### Lines and frames that a write back leaves (R109, R131) -/

/-- The dirty sectors and the stash frames are as before. -/
structure SameHolders (s t : State) : Prop where
  lines : t.lines = s.lines
  clusters : t.clusters = s.clusters

theorem SameHolders.refl (s : State) : SameHolders s s := ⟨rfl, rfl⟩

theorem SameHolders.trans {s t u : State} (h : SameHolders s t) (h' : SameHolders t u) : SameHolders s u :=
  ⟨h'.lines.trans h.lines, h'.clusters.trans h.clusters⟩

theorem raiseCause_holders (kind : Nat) (p : PartId) (vd j q d : Nat) (s : State) : SameHolders s (raiseCause kind p vd j q d s) := by
  unfold raiseCause
  dsimp only
  split <;> exact ⟨rfl, rfl⟩

theorem fireSnap_holders (p : PartId) (src : Nat) (s : State) : SameHolders s (fireSnap p src s) := by
  have latch : ∀ (cs : List CoreId) s, SameHolders s (cs.foldl (fun s c => s.updCore c latchCore) s) := by
    intro cs
    induction cs with
    | nil => exact SameHolders.refl
    | cons c cs ih => exact fun s => SameHolders.trans (t := s.updCore c latchCore) ⟨rfl, rfl⟩ (ih _)
  unfold fireSnap
  dsimp only
  split
  · exact SameHolders.refl s
  · have h := latch (s.part p).cores s
    exact ⟨h.lines, h.clusters⟩

theorem watchSlice_holders (a : Author) (pa len : Nat) (s : State) : SameHolders s (watchSlice a pa len s) := by
  have latched : ∀ k f n, SameHolders s (countHits k n (s.updSlice k f)) := fun _ _ _ => ⟨rfl, rfl⟩
  unfold watchSlice
  dsimp only
  repeat' split
  · exact SameHolders.refl s
  · exact ⟨rfl, rfl⟩
  · exact latched _ _ _
  · exact ((latched _ _ _).trans (raiseCause_holders _ _ _ _ _ _ _)).trans (fireSnap_holders _ _ _)
  · exact (latched _ _ _).trans (raiseCause_holders _ _ _ _ _ _ _)

theorem putSector_holders (a : Author) (n o : Nat) (bs : List Byte) (l : Label) (p : Bool) (s : State) :
    SameHolders s (putSector a n o bs l p s) := by
  have h := watchSlice_holders a (n * 64 + o) bs.length
    { s with mem := putBytes s.mem (n * 64) (overlay (readLocal s n).bytes o bs),
             side := mapSet Side.none s.side n { lbl := l, epoch := (s.slice (sliceOf s (n * 64))).epoch, poison := p } }
  exact ⟨h.lines, h.clusters⟩

theorem charge_holders (p : PartId) (k : HlKind) (n : Nat) (s : State) : SameHolders s (charge p k n s) := by
  unfold charge
  split <;> exact ⟨rfl, rfl⟩

theorem relDeny_holders (c : CoreId) (v : Word) (s : State) : SameHolders s (relDeny c v s) := by
  unfold relDeny queueTrap
  split <;> exact ⟨rfl, rfl⟩

theorem freePort_holders (cls : Nat) (s : State) : SameHolders s (freePort cls s).2 := by
  unfold freePort
  split <;> exact ⟨rfl, rfl⟩

theorem emit_holders (cls : Nat) (m : OutMsg) (s : State) : SameHolders s (emit cls m s).2 := by
  refine (freePort_holders cls s).trans ?_
  show SameHolders _ (emitAt (freePort cls s).1 m (freePort cls s).2)
  unfold emitAt
  split <;> exact ⟨rfl, rfl⟩

theorem sendOut_holders (job pa : Nat) (bs : List Byte) (l : Label) (va : Word) (s : State) :
    SameHolders s (sendOut job pa bs l va s).2 := by
  unfold sendOut
  split
  · dsimp only
    split
    · exact ⟨rfl, rfl⟩
    · exact emit_holders _ _ _
  · exact (freePort_holders _ s).trans ⟨rfl, rfl⟩

/-- A write back gives up its sector; of a remote package it leaves a clean copy. -/
theorem writeback_cases (l : Line) (s : State) : ∃ u, SameHolders (s.dropLine l.sector) u ∧
    (writeback l s = u ∨ writeback l s = u.putLine { l with dirty := false }) := by
  unfold writeback
  dsimp only
  generalize s.dropLine l.sector = d
  split
  · exact ⟨_, putSector_holders _ _ _ _ _ _ _, .inl rfl⟩
  · have send : ∀ u, SameHolders d u → SameHolders d ((if l.dirty then sendOut (lineJob l) (l.sector * 64) l.bytes l.lbl l.va u
        else (WroteTo.done, u) : WroteTo × State)).2 := by
      intro u hu
      split
      · exact hu.trans (sendOut_holders _ _ _ _ _ _)
      · exact hu
    have tell : ∀ r : WroteTo × State, SameHolders d r.2 → SameHolders d (match r.1, l.task with
        | .denied va, some (c, j) => if (r.2.core c).job = some j then relDeny c va r.2 else r.2
        | _, _ => r.2) := by
      intro r hr
      repeat' split
      · exact hr.trans (relDeny_holders _ _ _)
      · exact hr
      · exact hr
    have back : ∀ u, SameHolders d u → ∃ v, SameHolders d v ∧
        ((if paRemote (l.sector * 64) then u.putLine { l with dirty := false } else u) = v ∨
         (if paRemote (l.sector * 64) then u.putLine { l with dirty := false } else u) = v.putLine { l with dirty := false }) := by
      intro u hu
      refine ⟨u, hu, ?_⟩
      split
      · exact .inr rfl
      · exact .inl rfl
    refine back _ (tell _ (send _ ?_))
    split
    · exact charge_holders _ _ _ _
    · exact SameHolders.refl d

theorem clusters_writeback (l : Line) (s : State) : (writeback l s).clusters = s.clusters := by
  obtain ⟨u, hu, h | h⟩ := writeback_cases l s <;> rw [h] <;> exact hu.clusters

/-- What stands dirty after a write back stood there before, in another sector. -/
theorem mem_lines_writeback {l x : Line} {s : State} (hx : x ∈ (writeback l s).lines) :
    x.dirty = false ∨ (x ∈ s.lines ∧ x.sector ≠ l.sector) := by
  obtain ⟨u, hu, h⟩ := writeback_cases l s
  have old : x ∈ u.lines → x ∈ s.lines ∧ x.sector ≠ l.sector := by
    rw [hu.lines]
    simp [State.dropLine]
  rcases h with h | h <;> rw [h] at hx
  · exact .inr (old hx)
  · rcases List.mem_cons.1 hx with rfl | hx
    · exact .inl rfl
    · exact .inr (old (List.mem_filter.1 hx).1)

/-- Several lines written back, one after the other. -/
def writebackAll (ls : List Line) (s : State) : State := ls.foldl (fun s l => writeback l s) s

theorem clusters_writebackAll (ls : List Line) (s : State) : (writebackAll ls s).clusters = s.clusters := by
  induction ls generalizing s with
  | nil => rfl
  | cons l ls ih => exact (ih _).trans (clusters_writeback l s)

theorem standing_writebackAll (ls : List Line) (s : State) : Standing s (writebackAll ls s) := by
  have keeps : ∀ (ls : List Line) u, Standing s u → Standing s (writebackAll ls u) := by
    intro ls
    induction ls with
    | nil => exact fun _ h => h
    | cons l ls ih => exact fun u h => ih _ (standing_writeback l u h)
  exact keeps ls s (Standing.refl s)

theorem mem_lines_writebackAll {ls : List Line} {x : Line} {s : State} (hx : x ∈ (writebackAll ls s).lines) :
    x.dirty = false ∨ (x ∈ s.lines ∧ ∀ l ∈ ls, x.sector ≠ l.sector) := by
  induction ls generalizing s with
  | nil => exact .inr ⟨hx, by simp⟩
  | cons l ls ih =>
    rcases ih hx with h | ⟨hmem, hne⟩
    · exact .inl h
    · rcases mem_lines_writeback hmem with h | ⟨h, hl⟩
      · exact .inl h
      · exact .inr ⟨h, List.forall_mem_cons.2 ⟨hl, hne⟩⟩

theorem mem_stashLines {s : State} {cl : ClusterId} {lo n : Nat} {l : Line} :
    l ∈ stashLines s cl lo n ↔ l ∈ s.lines ∧ ∃ idx, l.owner = .stash cl idx ∧ lo ≤ idx ∧ idx < lo + n := by
  unfold stashLines
  rw [List.mem_filter]
  cases l.owner <;> simp [and_assoc]

/-! ### `st.wb` and `st.inv` (R230) -/

/-- The pages lo to lo + n − 1 that two registers of the S strand name. -/
structure NamesPages (s : State) (c : CoreId) (a b : BitVec 4) (lo n : Nat) : Prop where
  first : (rd (s.core c).s.n (i4 a)).toNat = lo
  count : (rd (s.core c).s.n (i4 b)).toNat = n

theorem windowPages_eq {s : State} {c : CoreId} {a b : BitVec 4} {lo n : Nat} (hp : NamesPages s c a b lo n) (i : Instr) :
    windowPages i c a b s =
      if (windowOf s c).isSome = true ∧ lo + n ≤ 1024 then .ok ((lo, n), s) else .error (.trap cILLEGAL 0 (wordOf i) s) := by
  unfold windowPages
  by_cases hw : (windowOf s c).isSome = true
  · by_cases hn : lo + n ≤ 1024 <;>
      simp only [M.bind_eq, M.get_eq, getCore_eq, need_eq, M.pure_eq, Eng.nreg, hp.first, hp.count, hw, hn, decide_true, decide_false,
        Bool.false_eq_true, and_true, and_false, if_true, if_false]
  · simp only [M.bind_eq, M.get_eq, need_eq, hw, Bool.false_eq_true, false_and, if_false]

/-- The state without the lines and frames of some pages of a cluster's stash. -/
def discardPages (cl : ClusterId) (lo n : Nat) (s : State) : State :=
  { s with lines := s.lines.filter (fun l => !(stashLines s cl lo n).contains l) }.updCluster cl
    (fun k => { k with frames := k.frames.filter (fun f => !(decide (lo ≤ f.idx) && decide (f.idx < lo + n))) })

theorem not_mem_lines_discardPages {cl : ClusterId} {lo n idx : Nat} {s : State} {l : Line} (hl : l ∈ (discardPages cl lo n s).lines)
    (ho : l.owner = .stash cl idx) (hin : lo ≤ idx ∧ idx < lo + n) : False := by
  obtain ⟨hmem, hout⟩ := List.mem_filter.1 hl
  have hgone : l ∈ stashLines s cl lo n := mem_stashLines.2 ⟨hmem, idx, ho, hin⟩
  simp [hgone] at hout

theorem mem_frames_discardPages (cl : ClusterId) (lo n : Nat) (s : State) (f : Frame) :
    f ∈ ((discardPages cl lo n s).cluster cl).frames ↔ f ∈ (s.cluster cl).frames ∧ ¬(lo ≤ f.idx ∧ f.idx < lo + n) := by
  unfold discardPages
  rw [State.cluster_updCluster_self, List.mem_filter]
  refine and_congr Iff.rfl ?_
  simp only [Bool.not_eq_true', Bool.and_eq_false_iff, decide_eq_false_iff_not]
  omega

theorem cluster_discardPages_ne {cl k : ClusterId} {lo n : Nat} {s : State} (hk : k ≠ cl) :
    (discardPages cl lo n s).cluster k = s.cluster k :=
  State.cluster_updCluster_ne _ cl k _ hk

section
variable {s : State} {c : CoreId} {w g : BitVec 3} {a b : BitVec 4} {lo n : Nat} (hs : Startable s c .S w g) (hp : NamesPages s c a b lo n)
include hs hp

theorem exec_stWb (hw : (windowOf s c).isSome = true ∧ lo + n ≤ 1024) :
    exec (.stWb w g a b) s =
      .next (finishE c .S (waitCodes .S w) (giveCodes .S g) {} (writebackAll (stashLines s (clusterOf c) lo n) s)) := by
  show execStWb w g a b s = _
  unfold execStWb
  refine runE_ok hs rfl ?_
  simp only [M.bind_eq, windowPages_eq hp, if_pos hw, M.modify_eq, M.pure_eq]
  rfl

theorem exec_stInv (hw : (windowOf s c).isSome = true ∧ lo + n ≤ 1024) :
    exec (.stInv w g a b) s = .next (finishE c .S (waitCodes .S w) (giveCodes .S g) {} (discardPages (clusterOf c) lo n s)) := by
  show execStInv w g a b s = _
  unfold execStInv
  refine runE_ok hs rfl ?_
  simp only [M.bind_eq, windowPages_eq hp, if_pos hw, M.modify_eq, M.pure_eq]
  rfl

theorem stash_traps (hw : ¬((windowOf s c).isSome = true ∧ lo + n ≤ 1024)) :
    ∀ i ∈ [Instr.stWb w g a b, .stInv w g a b], EngineTraps c .S i cILLEGAL (wordOf i) s := by
  have ends : ∀ i, windowPages i c a b s = .error (.trap cILLEGAL 0 (wordOf i) s) := fun i => (windowPages_eq hp i).trans (if_neg hw)
  intro i hi
  simp only [List.mem_cons, List.not_mem_nil, or_false] at hi
  rcases hi with rfl | rfl
  · show execStWb w g a b s = _
    unfold execStWb
    exact runE_trap hs rfl (by simp only [M.bind_eq, ends])
  · show execStInv w g a b s = _
    unfold execStInv
    exact runE_trap hs rfl (by simp only [M.bind_eq, ends])

/-- `st.wb` leaves no dirty sector of its pages, and no frame changes (R230). -/
theorem stWb_cleans (hw : (windowOf s c).isSome = true ∧ lo + n ≤ 1024) :
    ∃ t, exec (.stWb w g a b) s = .next t ∧ (t.core c).s = nextEng (s.core c) .S ∧ t.clusters = s.clusters ∧
      ∀ l ∈ t.lines, ∀ idx, l.owner = .stash (clusterOf c) idx → lo ≤ idx ∧ idx < lo + n → l.dirty = false := by
  refine ⟨_, exec_stWb hs hp hw, ?_, clusters_writebackAll _ s, fun l hl idx ho hin => ?_⟩
  · obtain ⟨-, -, hcores, -⟩ := standing_writebackAll (stashLines s (clusterOf c) lo n) s
    obtain ⟨d, q, hcore⟩ := hcores c
    rw [(finishE_S _ _ _ _).1, hcore]
    rfl
  · rcases mem_lines_writebackAll hl with h | ⟨hmem, hgone⟩
    · exact h
    · exact absurd rfl (hgone l (mem_stashLines.2 ⟨hmem, idx, ho, hin⟩))

/-- `st.inv` leaves no sector and no frame of its pages, and stores nothing (R230). -/
theorem stInv_discards (hw : (windowOf s c).isSome = true ∧ lo + n ≤ 1024) :
    ∃ t, exec (.stInv w g a b) s = .next t ∧ (t.core c).s = nextEng (s.core c) .S ∧
      (∀ l ∈ t.lines, ∀ idx, l.owner = .stash (clusterOf c) idx → ¬(lo ≤ idx ∧ idx < lo + n)) ∧ t.mem = s.mem ∧ t.side = s.side ∧
      (∀ f, f ∈ (t.cluster (clusterOf c)).frames ↔ f ∈ (s.cluster (clusterOf c)).frames ∧ ¬(lo ≤ f.idx ∧ f.idx < lo + n)) ∧
      ∀ k, k ≠ clusterOf c → t.cluster k = s.cluster k :=
  ⟨_, exec_stInv hs hp hw, (finishE_S _ _ _ _).1, fun _ hl _ ho hin => not_mem_lines_discardPages hl ho hin, rfl, rfl,
    mem_frames_discardPages _ _ _ s, fun _ hk => cluster_discardPages_ne hk⟩

end

/-! ### `tile.done` (R232, R321) -/

section
variable {s : State} {c : CoreId} {w g : BitVec 3} {a : BitVec 4} (hs : Startable s c .S w g)
include hs

/-- `tile.done` adds one to its counter of the core's job (R232). -/
theorem tileDone_counts (hlo : (rd (s.core c).s.n (i4 a)).toNat < 4096) {j : Job} (hj : s.job? (s.core c).id.jobid = some j) :
    ∃ t, exec (.tileDone w g a) s = .next t ∧ (t.core c).s = nextEng (s.core c) .S ∧
      t.job? (s.core c).id.jobid = some (j.bumpChunk (rd (s.core c).s.n (i4 a)).toNat) := by
  have hrun : exec (.tileDone w g a) s = .next (finishE c .S (waitCodes .S w) (giveCodes .S g) {}
      (s.updJob (s.core c).id.jobid (fun j => j.bumpChunk (rd (s.core c).s.n (i4 a)).toNat))) := by
    show execTileDone w g a s = _
    unfold execTileDone
    refine runE_ok hs rfl ?_
    simp only [M.bind_eq, getCore_eq, Eng.nreg, Core.eng, need_eq, hlo, decide_true, if_true, M.modify_eq, M.pure_eq]
  refine ⟨_, hrun, (finishE_S _ _ _ _).1, ?_⟩
  rw [finishE, State.job_updCore, State.job_updJob_self s _ (fun j => j.bumpChunk (rd (s.core c).s.n (i4 a)).toNat) fun _ => rfl, hj]
  rfl

theorem tileDone_traps (hlo : 4096 ≤ (rd (s.core c).s.n (i4 a)).toNat) :
    EngineTraps c .S (.tileDone w g a) cILLEGAL (wordOf (.tileDone w g a)) s := by
  show execTileDone w g a s = _
  unfold execTileDone
  refine runE_trap hs rfl ?_
  simp only [M.bind_eq, getCore_eq, Eng.nreg, Core.eng, need_eq, Nat.not_lt.2 hlo, decide_false, Bool.false_eq_true, if_false]

end

/-- An increment leaves every other counter alone; its own rises, or stays at 65,535 and is marked. -/
theorem chunk_bumpChunk {j : Job} (hj : mapWfFrom ((0 : BitVec 16), false) 0 j.chunks = true) (lo m : Nat) :
    (j.bumpChunk lo).chunk m =
      if m = lo then (if (j.chunk lo).1 = 0xFFFF then (0xFFFF, true) else ((j.chunk lo).1 + 1, (j.chunk lo).2)) else j.chunk m := by
  unfold Job.bumpChunk Job.setChunk
  by_cases h : m = lo
  · subst h
    rw [if_pos rfl]
    refine (mapGet_mapSet_self hj).trans ?_
    split
    · next hv => exact (congrArg (·, true) hv).trans (if_pos hv).symm
    · next hv => exact (if_neg hv).symm
  · rw [if_neg h]
    exact mapGet_mapSet_ne hj h

end Sys2Proof.Machine
end

section
/-! A store into one sector at its slice (O50): packed codes, the bytes that read as stored, and those that read as before. -/

namespace Sys2Proof.Machine

/-! ### Bytes and codes (R4, R33) -/

@[simp] theorem natBytes_length (n v : Nat) : (natBytes n v).length = n := by
  induction n generalizing v with
  | zero => rfl
  | succ n ih => simp [natBytes, ih]

/-- The low bytes of a number and those above them. -/
theorem natBytes_add (m n v : Nat) : natBytes (m + n) v = natBytes m v ++ natBytes n (v / 256 ^ m) := by
  induction m generalizing v with
  | zero => simp [natBytes]
  | succ m ih =>
    rw [show m + 1 + n = m + n + 1 by omega, natBytes, natBytes, ih, Nat.div_div_eq_div_mul, ← Nat.pow_succ']
    rfl

/-- A multiple of 256^n does not show in the n low bytes. -/
theorem natBytes_mod (n v : Nat) : natBytes n (v % 256 ^ n) = natBytes n v := by
  induction n generalizing v with
  | zero => rfl
  | succ n ih =>
    have hlow : v % 256 ^ (n + 1) % 256 = v % 256 := Nat.mod_mod_of_dvd v (Dvd.intro_left _ (Nat.pow_succ 256 n).symm)
    have hhigh : v % 256 ^ (n + 1) / 256 = v / 256 % 256 ^ n := by rw [Nat.pow_succ', Nat.mod_mul_right_div_self]
    have hbyte : BitVec.ofNat 8 (v % 256 ^ (n + 1)) = BitVec.ofNat 8 v := BitVec.eq_of_toNat_eq (by rw [BitVec.toNat_ofNat, BitVec.toNat_ofNat]; exact hlow)
    rw [natBytes, natBytes, hbyte, hhigh, ih]

/-- The number that codes of w bits make, the first one lowest. -/
def packed (w : Nat) : List Nat → Nat
  | [] => 0
  | c :: cs => c % 2 ^ w + 2 ^ w * packed w cs

theorem foldl_zipIdx_packed (w : Nat) (cs : List Nat) (k acc : Nat) :
    (cs.zipIdx k).foldl (fun a p => a + p.1 % 2 ^ w * 2 ^ (p.2 * w)) acc = acc + 2 ^ (k * w) * packed w cs := by
  induction cs generalizing k acc with
  | nil => simp [packed]
  | cons c cs ih =>
    have hk : 2 ^ ((k + 1) * w) = 2 ^ (k * w) * 2 ^ w := by rw [Nat.succ_mul, Nat.pow_add]
    rw [List.zipIdx_cons, List.foldl_cons, ih, hk, packed]
    ring

/-- Codes of 32 bits stand in memory one after the other, little-endian (R4, R33). -/
theorem packCodes_32 (cs : List Nat) : packCodes 32 cs = (cs.map (natBytes 4)).flatten := by
  have hlen : (cs.length * 32 + 7) / 8 = 4 * cs.length := by omega
  unfold packCodes
  rw [hlen, foldl_zipIdx_packed 32 cs 0 0, Nat.zero_mul, Nat.pow_zero, Nat.one_mul, Nat.zero_add]
  clear hlen
  induction cs with
  | nil => rfl
  | cons c cs ih =>
    have hlow : (c % 2 ^ 32 + 2 ^ 32 * packed 32 cs) % 256 ^ 4 = c % 256 ^ 4 := by omega
    have hhigh : (c % 2 ^ 32 + 2 ^ 32 * packed 32 cs) / 256 ^ 4 = packed 32 cs := by omega
    rw [List.length_cons, show 4 * (cs.length + 1) = 4 + 4 * cs.length by omega, packed, natBytes_add, hhigh, ih, ← natBytes_mod 4, hlow,
      natBytes_mod]
    rfl

theorem overlay_length {bs new : List Byte} {o : Nat} (h : o + new.length ≤ bs.length) : (overlay bs o new).length = bs.length := by
  simp only [overlay, List.length_append, List.length_take, List.length_drop]
  omega

/-- A byte of an overlay is one of the new run or of what was there. -/
theorem overlay_getD {bs new : List Byte} {o : Nat} (i : Nat) (h : o + new.length ≤ bs.length) :
    (overlay bs o new).getD i 0 = if o ≤ i ∧ i < o + new.length then new.getD (i - o) 0 else bs.getD i 0 := by
  have htake : (bs.take o).length = o := by rw [List.length_take]; omega
  have hboth : (bs.take o ++ new).length = o + new.length := by rw [List.length_append, htake]
  simp only [overlay, List.getD_eq_getElem?_getD]
  by_cases hlo : i < o
  · rw [if_neg (by omega), List.append_assoc, List.getElem?_append_left (by omega), List.getElem?_take_of_lt hlo]
  · by_cases hhi : i < o + new.length
    · rw [if_pos (by omega), List.getElem?_append_left (by omega), List.getElem?_append_right (by omega), htake]
    · rw [if_neg (by omega), List.getElem?_append_right (by omega), List.getElem?_drop, hboth]
      congr 2
      omega

/-! ### A sector put at its slice (R87, R89, R90) -/

@[simp] theorem readLocal_length (s : State) (n : Nat) : (readLocal s n).bytes.length = 64 := by
  unfold readLocal
  dsimp only
  split <;> simp

theorem overlay_readLocal_length (s : State) (n : Nat) {o : Nat} {bs : List Byte} (h : o + bs.length ≤ 64) :
    (overlay (readLocal s n).bytes o bs).length = 64 :=
  (overlay_length (by rwa [readLocal_length])).trans (readLocal_length s n)

/-- What a sector's slice gives: the stored bytes, the side band, and the slice that holds it. -/
theorem readLocal_congr {s t : State} {n : Nat} (hside : t.sideAt n = s.sideAt n)
    (hslice : t.slice (sliceOf t (n * 64)) = s.slice (sliceOf s (n * 64))) (hbyte : ∀ i, i < 64 → t.byteAt (n * 64 + i) = s.byteAt (n * 64 + i)) :
    readLocal t n = readLocal s n := by
  unfold readLocal
  dsimp only
  rw [hside, hslice, List.map_congr_left fun i hi => hbyte i (List.mem_range.1 hi),
    List.map_congr_left fun i hi => congrArg (Config.staleByte _ (n * 64 + i)) (hbyte i (List.mem_range.1 hi))]

/-- Bytes are read alike in states with the same memory. -/
theorem readByte_congr {s t : State} (hm : t.mem = s.mem) (hd : t.side = s.side) (hl : t.lines = s.lines) (hs : t.slices = s.slices)
    (hp : t.parts = s.parts) (a : Nat) : readByte t a = readByte s a := by
  have hbyte : ∀ x, t.byteAt x = s.byteAt x := fun x => by rw [State.byteAt, State.byteAt, hm]
  have hpart : ∀ x, sliceOf t x = sliceOf s x := fun x => by
    have hparts : t.part = s.part := funext fun p => by rw [State.part, State.part, hp]
    rw [sliceOf, sliceOf, partOf, partOf, hparts]
  have hlocal : readLocal t (a / 64) = readLocal s (a / 64) := by
    refine readLocal_congr ?_ ?_ fun i _ => hbyte _
    · rw [State.sideAt, State.sideAt, hd]
    · rw [hpart, State.slice, State.slice, hs]
  have hline : t.line? (a / 64) = s.line? (a / 64) := by rw [State.line?, State.line?, hl]
  rw [readByte, readByte, hline, hlocal, hbyte]

/-- What a write with no slice watchpoint enabled touches. -/
theorem writeLocal_only (a : Author) (n o : Nat) (bs : List Byte) (l : Label) (s : State)
    (hw : ∀ k i, bit (rd (s.slice k).ws i).ctl.toNat 0 = false) :
    ∃ sd co, sd.current (s.slice (sliceOf s (n * 64))) = true ∧ writeLocal a n o bs l s = { s with
      mem := putBytes s.mem (n * 64) (overlay (readLocal s n).bytes o bs), side := mapSet Side.none s.side n sd, colls := co } := by
  unfold writeLocal putSector
  dsimp only
  rw [watchSlice_none]
  · refine ⟨_, _, ?_, rfl⟩
    simp [Side.current]
  · exact hw

section
variable {s : State} {a : Author} {n o : Nat} {bs : List Byte} {l : Label} (hc : CanonicalMemory s)
  (hw : ∀ k i, bit (rd (s.slice k).ws i).ctl.toNat 0 = false) (hin : o + bs.length ≤ 64)
include hc hw hin

/-- The written sector holds the old bytes with the new run over them. -/
theorem readLocal_writeLocal_self : (readLocal (writeLocal a n o bs l s) n).bytes = overlay (readLocal s n).bytes o bs := by
  obtain ⟨sd, co, hsd, hu⟩ := writeLocal_only a n o bs l s hw
  have hlen := overlay_readLocal_length s n hin
  rw [hu, readLocal]
  rw [if_pos]
  · refine List.ext_getElem (by simp [hlen]) fun i hi _ => ?_
    rw [List.getElem_map, List.getElem_range]
    exact mapGet_putBytes_in hc.1 _ _ _ _
  · unfold State.sideAt
    rw [mapGet_mapSet_self hc.2]
    exact hsd

/-- Every other sector reads as before. -/
theorem readLocal_writeLocal_ne {m : Nat} (hm : m ≠ n) : readLocal (writeLocal a n o bs l s) m = readLocal s m := by
  obtain ⟨sd, co, hsd, hu⟩ := writeLocal_only a n o bs l s hw
  have hlen := overlay_readLocal_length s n hin
  refine readLocal_congr ?_ ?_ fun i hi => ?_
  · rw [hu]
    exact mapGet_mapSet_ne hc.2 hm
  · rw [hu]
    rfl
  · rw [hu]
    exact mapGet_putBytes_out hc.1 _ _ _ (by omega)

/-- A byte after a write to a local sector that no agent holds. -/
theorem readByte_writeLocal (hloc : paLocal (n * 64) = true) (hline : s.line? n = none) (x : Nat) :
    readByte (writeLocal a n o bs l s) x =
      if x / 64 = n then (overlay (readLocal s n).bytes o bs).getD (x % 64) 0 else readByte s x := by
  obtain ⟨sd, co, hsd, hu⟩ := writeLocal_only a n o bs l s hw
  have hlen := overlay_readLocal_length s n hin
  have hlines : ∀ m, (writeLocal a n o bs l s).line? m = s.line? m := by
    intro m
    rw [hu]
    rfl
  unfold readByte
  simp only [paLocal, decide_eq_true_eq] at hloc ⊢
  by_cases hx : x / 64 = n
  · rw [if_pos (by omega), if_pos hx, hlines, hx, hline, ← readLocal_writeLocal_self hc hw hin]
  · rw [if_neg hx, hlines]
    split
    · rw [readLocal_writeLocal_ne hc hw hin hx]
    · rw [hu]
      exact mapGet_putBytes_out hc.1 _ _ _ (by omega)

/-- A write to a local sector that no agent holds stores its bytes and no other. -/
theorem stored_writeLocal (hloc : paLocal (n * 64) = true) (hline : s.line? n = none) :
    Stored s (writeLocal a n o bs l s) (n * 64 + o) bs := by
  have hfit : o + bs.length ≤ (readLocal s n).bytes.length := by rwa [readLocal_length]
  have hold : ∀ x, x / 64 = n → readByte s x = (readLocal s n).bytes.getD (x % 64) 0 := by
    intro x hx
    unfold readByte
    simp only [paLocal, decide_eq_true_eq] at hloc ⊢
    rw [if_pos (by omega), hx, hline]
  refine ⟨?_, fun x hx => ?_⟩
  · refine List.ext_getElem (by simp [readBytes]) fun i hi hb => ?_
    simp only [readBytes, List.getElem_map, List.getElem_range]
    rw [readByte_writeLocal hc hw hin hloc hline, if_pos (by omega), overlay_getD _ hfit,
      if_pos (by omega), show (n * 64 + o + i) % 64 - o = i by omega, List.getD_eq_getElem _ _ hb]
  · rw [readByte_writeLocal hc hw hin hloc hline]
    split
    · next hn => rw [overlay_getD _ hfit, if_neg (by omega), hold x hn]
    · rfl

end

/-! ### One piece written through to its slice (R87, R94, R226) -/

theorem JoinOnly.refl (s : State) : JoinOnly s s := ⟨rfl, 0, by simp⟩

/-- A local sector that no agent holds reads as its slice has it. -/
theorem readSector_unheld (me : Option Owner) {n : Nat} {s : State} (hloc : paLocal (n * 64) = true) (hline : s.line? n = none) :
    readSector me n s = (readLocal s n, s) := by
  have hpull : pull me n s = s := by simp [pull, hline]
  have hrem : paRemote (n * 64) = false := by
    simp only [paLocal, paRemote, decide_eq_true_eq, Bool.and_eq_false_iff, decide_eq_false_iff_not] at hloc ⊢
    omega
  simp [readSector, homeSector, nearSector, hloc, hpull, hline, hrem]

/-- Nobody has to give up a sector that no agent holds and no frame covers. -/
theorem claim_unheld {n : Nat} {s : State} (hline : s.line? n = none) (hframe : ∀ cl, ∀ f ∈ (s.cluster cl).frames, f.ppage ≠ n / 64) :
    claim none n s = s := by
  have hpull : pull none n s = s := by simp [pull, hline]
  have hcover : (List.finRange 112).filter (fun cl => (s.cluster cl).frames.any (fun f => f.ppage == n / 64)) = [] := by
    simpa using hframe
  have hun : unpresent none n s = s := by
    unfold unpresent
    rw [hcover]
    rfl
  simp [claim, hpull, hun, hline]

/-- A piece of a sector that its agent does not keep and no other agent holds. -/
structure UnheldPiece (w : Who) (p : Piece) (s : State) : Prop where
  cache : w.cache = none
  stash : p.page.stash = none
  label : p.page.lbl = 0
  here : paLocal p.pa = true
  sector : paLocal (p.sector * 64) = true
  line : s.line? p.sector = none
  frame : ∀ cl, ∀ f ∈ (s.cluster cl).frames, f.ppage ≠ p.sector / 64

/-- A join with the empty label changes nothing. -/
theorem joinAt_zero_right (d : Fin 4) (p : PartId) (a : Label) (s : State) : joinAt d p a 0 s = (liveId s.labels a, s) := by
  unfold joinAt
  dsimp only
  by_cases ha : liveId s.labels a = 0
  · rw [if_pos ha, ha]
    rfl
  · exact (if_neg ha).trans (if_pos rfl)

section
variable {w : Who} {p : Piece} {s : State} (h : UnheldPiece w p s)
include h

/-- The label that such a piece's sector takes: a join is all that finding it leaves. -/
theorem oldPart_unheld (l : Label) : ∃ l' u, oldPart w none p l s = (some l', u) ∧ JoinOnly s u := by
  unfold oldPart
  split
  · exact ⟨_, s, rfl, JoinOnly.refl s⟩
  · refine ⟨(joinAt w.die w.pid (readLocal s p.sector).lbl l s).1, _, ?_, joinAt_joinOnly w.die w.pid (readLocal s p.sector).lbl l s⟩
    simp [bind, StateT.bind, modify, modifyGet, MonadStateOf.modifyGet, StateT.modifyGet, pure, charge,
      readSector_unheld none h.sector h.line]
    rfl

/-- Such a piece goes to its slice, after a label join. -/
theorem writePiece_unheld (bs : List Byte) (l : Label) : ∃ l' u, JoinOnly s u ∧
    writePiece w p bs l s = (.done, writeLocal w.author p.sector (p.pa % 64) bs l' u) := by
  obtain ⟨l2, u, hold, hu⟩ := oldPart_unheld h (liveId s.labels l)
  have hclaim : claim none p.sector u = u := by
    obtain ⟨e, -⟩ := hu
    refine claim_unheld ?_ ?_
    · rw [e]
      exact h.line
    · rw [e]
      exact h.frame
  refine ⟨l2, u, hu, ?_⟩
  unfold writePiece
  simp only [bind, StateT.bind, get, getThe, MonadStateOf.get, StateT.get, pure, holder_none w s p h.cache h.stash, h.label, joinAt_zero_right, h.here,
    Option.isNone_none, Bool.not_true, Bool.and_false, Bool.false_eq_true, if_false, hold, Option.map_none, writeSector, hclaim]
  rfl

/-- So does a write of one piece with all its bytes. -/
theorem writePieces_unheld {bs : List Byte} (hlen : bs.length = p.len) (l : Label) : ∃ l' u, JoinOnly s u ∧
    writePieces w [p] bs l s = (.done, writeLocal w.author p.sector (p.pa % 64) bs l' u) := by
  obtain ⟨l', u, hu, hw⟩ := writePiece_unheld h bs l
  refine ⟨l', u, hu, ?_⟩
  have htake : bs.take p.len = bs := by rw [← hlen, List.take_length]
  unfold writePieces
  simp only [List.foldlM_cons, List.foldlM_nil, bind, StateT.bind, pure, htake, hw]
  rfl

end

end Sys2Proof.Machine
end

section
/-! A plain access translated (O50): one page that the TLB holds, one piece, no check that stops it. -/

namespace Sys2Proof.Machine

/-! ### One page, one piece (R95, R100) -/

section
variable {va n : Nat} (hn : 0 < n) (hin : va % 64 + n ≤ 64)
include hn hin

theorem pageRange_within : pageRange va n = [va / 4096] := by
  have hlast : (va + n - 1) / 4096 - va / 4096 = 0 := by omega
  rw [pageRange, if_neg (by omega), hlast]
  rfl

theorem pageNeeds_within (acc : Acc) :
    pageNeeds [{ va := va, len := n, acc := acc }] = [Touch.need { va := va, len := n, acc := acc } (va / 4096)] := by
  simp [pageNeeds, pageRange_within hn hin, addNeed]

/-- An access inside one sector is one piece of its page. -/
theorem pieces_within {p : Page} (hp : p.vpage = va / 4096) : pieces [p] va n = [{ va := va, len := n, page := p }] := by
  have hlast : (va + n - 1) / 64 - va / 64 = 0 := by omega
  have hlo : max va (va / 64 * 64) = va := by omega
  have hhi : min (va + n) ((va / 64 + 1) * 64) - va = n := by omega
  rw [pieces, if_neg (by omega), hlast]
  simp [hlo, hhi, hp]

end

/-- An agent without an L1 hits none. -/
theorem hitPage_noCache {w : Who} (hc : w.cache = none) (s : State) (n : PageNeed) : hitPage w s n = none := by
  have hmiss : w.l1Line s n.vpage = fun _ => none := funext fun sec => by rw [Who.l1Line, hc]; rfl
  unfold hitPage
  rw [hmiss]
  cases n.secs <;> cases w.inWindow n.vpage <;> rfl

/-! ### The translation of a plain access (R90, R94) -/

theorem paLocal_iff {pa : Nat} : paLocal pa = true ↔ pa < 2 ^ 39 := decide_eq_true_iff

/-- The piece of a plain access. -/
def plainPiece (va n : Nat) (t : Tlb) : Piece := { va := va, len := n, page := pageOf (va / 4096) t }

/-- The same as an instruction writes that touches nothing else: it may cover its sector (R225). -/
def lonePiece (va n : Nat) (t : Tlb) : Piece :=
  { plainPiece va n t with whole := coversSector [plainPiece va n t] (plainPiece va n t).sector }

section
variable {s : State} {c : CoreId} {st : Strand} {va n : Nat} {kd : WpKind} {t : Tlb} (h : PlainAccess s c st va n kd t)
include h

theorem PlainAccess.checkPage {acc : Acc} (hx : acc.needX = false) : checkPage s t acc true = none := by
  obtain ⟨-, hr, hw, hrace, -, -⟩ := h.rights
  obtain ⟨hloc, hhbm⟩ := h.hbm
  simp [Machine.checkPage, inRanges, hr, hw, hx, hrace, hloc, hhbm]

/-- An agent of the core without L1 and window translates it to the page that the TLB holds, and nothing changes. -/
theorem PlainAccess.translateRuns {w : Who} (hid : w.pid = (s.core c).id.pid ∧ w.vd = (s.core c).id.vd ∧ w.asid = (s.core c).id.asid)
    (hwin : w.window = none) (hcache : w.cache = none) {acc : Acc} (hx : acc.needX = false) :
    Machine.translateRuns w [{ va := va, len := n, acc := acc }] s = (.ok [pageOf (va / 4096) t], s) := by
  obtain ⟨hn, hin, hva⟩ := h.small
  obtain ⟨hpid, hvd, hasid⟩ := hid
  have hout : w.inWindow (va / 4096) = none := by rw [Who.inWindow, hwin]
  have hlook : lookupPage w.pid w.vd w.asid (va / 4096 * 4096) s = (.ok t, s) := by
    rw [lookupPage, if_neg (by omega), Nat.mul_div_cancel _ (by decide), hpid, hvd, hasid, h.held]
  have hone : onePage w (va / 4096) acc s = (.ok (pageOf (va / 4096) t), s) := by
    rw [onePage, hout]
    simp only [hlook, h.checkPage hx]
  rw [Machine.translateRuns, pageNeeds_within hn hin]
  simp only [openPages, needPage, hitPage_noCache hcache, Touch.need, hone, pure, StateT.pure]

theorem PlainAccess.paLocal : Machine.paLocal (physOf t va) = true := by
  have hpage : t.ppage < 2 ^ 27 := Nat.lt_of_mul_lt_mul_right (a := 4096) (paLocal_iff.1 h.hbm.1)
  refine paLocal_iff.2 ?_
  calc physOf t va < (t.ppage + 1) * 4096 := by unfold physOf; omega
    _ ≤ 2 ^ 27 * 4096 := Nat.mul_le_mul_right _ hpage
    _ = 2 ^ 39 := by norm_num

theorem PlainAccess.paLocal_sector : Machine.paLocal (physOf t va / 64 * 64) = true := by
  have hpa := paLocal_iff.1 h.paLocal
  exact paLocal_iff.2 ((Nat.div_mul_le_self _ _).trans_lt hpa)

/-- Its piece is one that an agent without a cache writes through. -/
theorem PlainAccess.unheld {w : Who} (hcache : w.cache = none) : UnheldPiece w (lonePiece va n t) s where
  cache := hcache
  stash := rfl
  label := by
    obtain ⟨-, -, -, -, -, hlbl⟩ := h.rights
    exact hlbl
  here := h.paLocal
  sector := h.paLocal_sector
  line := h.clean
  frame := h.noStash

end

/-! ### The checks of a plain store of an engine strand (R106, R247) -/

theorem checkWatchRuns_none {c : CoreId} {st : Strand} {rs : List Run} {kd : WpKind} {s : State}
    (h : ∀ r ∈ rs, wpHit (s.core c) st (strandPc (s.core c) st) r.1 r.2 kd = none) : checkWatchRuns c st rs kd s = .ok ((), s) := by
  have hits : rs.filterMap (fun r => wpHit (s.core c) st (strandPc (s.core c) st) r.1 r.2 kd) = [] := List.filterMap_eq_nil_iff.2 h
  unfold checkWatchRuns
  simp only [M.bind_eq, getCore_eq, hits]
  rfl

theorem checkRace_unchecked {c : CoreId} {st : Strand} {p : Piece} {s : State} (h : p.page.race = false) :
    checkRace c st [p] s = .ok ((), s) := by
  simp [checkRace, h]

theorem stampRace_unchecked {c : CoreId} {w : Who} {p : Piece} {s : State} (h : p.page.race = false) :
    stampRace c w [p] s = .ok ((), s) := by
  simp [stampRace, h]

/-- The agent of the S strand's stores. -/
def storeWho (s : State) (c : CoreId) : Who := { strandWho s c with cache := none }

section
variable {s : State} {c : CoreId} {va n : Nat} {t : Tlb} (h : PlainAccess s c .S va n { rd := false, wr := true, ex := false } t)
include h

theorem PlainAccess.openRunsE : Machine.openRunsE c .S [(va, n)] .write { rd := false, wr := true, ex := false } [] s =
    .ok ((storeWho s c, [pageOf (va / 4096) t], [[plainPiece va n t]]), s) := by
  obtain ⟨hn, hin, -⟩ := h.small
  obtain ⟨-, -, -, hrace, -, -⟩ := h.rights
  have hwho : engWho s c { rd := false, wr := true, ex := false } = storeWho s c := rfl
  have hruns : [(va, n)].filter (fun r => decide (r.2 ≠ 0)) = [(va, n)] := by simp; omega
  have htr : Machine.translateRuns (storeWho s c) (touches .write [(va, n)]) s = (.ok [pageOf (va / 4096) t], s) :=
    h.translateRuns ⟨rfl, rfl, rfl⟩ h.noWindow rfl rfl
  have hwatch := checkWatchRuns_none (rs := [(va, n)]) (s := s) (c := c) (st := .S) (fun r hr => by rw [List.mem_singleton.1 hr]; exact h.noWatch)
  have hpieces : pieces [pageOf (va / 4096) t] va n = [plainPiece va n t] := pieces_within hn hin rfl
  unfold Machine.openRunsE
  simp only [M.bind_eq, M.get_eq, lift_eq, hwho, hruns, htr, hwatch, List.map_cons, List.map_nil, hpieces, List.flatten_cons, List.flatten_nil,
    List.append_nil, List.foldr_cons, List.foldr_nil, insertPiece, checkRace_unchecked (p := plainPiece va n t) hrace, M.pure_eq]

theorem PlainAccess.openBlock {d : SDesc} (hrows : d.brows = 1) (hrun : d.codeRun 0 = (va, n)) :
    Machine.openBlock c d s = .ok ((storeWho s c, [[plainPiece va n t]]), s) := by
  have hruns : (List.range d.brows).map (fun (r : Nat) => d.codeRun r) = [(va, n)] := by
    rw [hrows]
    simpa using hrun
  unfold Machine.openBlock
  simp only [hruns, M.bind_eq, h.openRunsE, M.pure_eq]

/-- One row of a plain access is stored at its slice, after a label join. -/
theorem PlainAccess.storeRows {bs : List Byte} (hlen : bs.length = n) (l : Label) : ∃ l' u, JoinOnly s u ∧
    Machine.storeRows c (storeWho s c) [([plainPiece va n t], bs)] l s =
      .ok ((), writeLocal (storeWho s c).author (physOf t va / 64) (physOf t va % 64) bs l' u) := by
  obtain ⟨-, -, -, hrace, -, -⟩ := h.rights
  obtain ⟨l', u, hu, hw⟩ := writePieces_unheld (h.unheld (w := storeWho s c) rfl) hlen l
  refine ⟨l', u, hu, ?_⟩
  have hstamp : stampRace c (storeWho s c) [lonePiece va n t] s = .ok ((), s) := stampRace_unchecked hrace
  have hrows : wholeRows [([plainPiece va n t], bs)] = [([lonePiece va n t], bs)] := rfl
  unfold Machine.storeRows
  rw [hrows]
  simp only [List.forM_eq_forM, List.forM_cons, List.forM_nil, M.bind_eq, hstamp, lift_eq, hw, reportDrop, wrote, M.modify_eq, M.pure_eq]
  rfl

end

end Sys2Proof.Machine
end

section
/-! A one-row tile stored, and the statement about stores, the stash and chunk counters (O50). -/

namespace Sys2Proof.Machine

/-! ### `st.tile` of one plain row (R33, R222, R224) -/

/-- The row of a tile that a one-row block names, as bytes. -/
def rowBytes (t : Tile) (n : Nat) : List Byte := (((List.range n).map (fun i => (t.getD i 0).toNat)).map (natBytes 4)).flatten

theorem packCodes_row (t : Tile) (n : Nat) : packCodes 32 ((List.range n).map (fun j => (cell t 64 0 j).toNat)) = rowBytes t n := by
  rw [packCodes_32]
  simp only [rowBytes, cell, Nat.zero_mul, Nat.zero_add]

theorem rowBytes_length (t : Tile) (n : Nat) : (rowBytes t n).length = 4 * n := by
  simp [rowBytes, Function.comp_def, Nat.mul_comm]

/-- The descriptors after a store: POS goes on unless the instruction holds it (R142). -/
def afterBlock (k : BitVec 5) (h : BitVec 1) (l : LState) : LState := if h = 1 then l else l.setDesc k (l.desc k).advance

theorem advanceDesc_eq (c : CoreId) (k : BitVec 5) (h : BitVec 1) (s : State) :
    advanceDesc c k h s = .ok ((), s.updCore c (fun q => { q with ls := afterBlock k h q.ls })) := by
  by_cases hh : h = 1
  · have same : wr s.cores c (rd s.cores c) = s.cores := wr_rd_self _ _
    simp only [advanceDesc, afterBlock, if_pos hh, M.pure_eq, State.updCore, State.setCore, State.core, same]
  · simp only [advanceDesc, afterBlock, if_neg hh]
    rfl

/-- A one-row block of 32-bit lanes at an aligned address passes the checks of `st.tile` (R222, R223). -/
theorem stTile_legal {d : SDesc} (hrows : d.brows = 1) (hfmt : d.fmt = 0 ∨ d.fmt = 8) (hal : (d.codeRun 0).1 % 4 = 0) (hcols : d.bcols ≤ 16) :
    (decide (1 ≤ d.brows) && decide (d.brows ≤ 16) && decide (d.bcols ≤ 64) && decide (d.fmt = 0 ∨ d.fmt = 8) && rowsAligned d) = true := by
  have hw : d.w = 32 := by
    unfold SDesc.w
    rcases hfmt with h | h <;> rw [h] <;> rfl
  have hrow : rowsAligned d = true := by simp [rowsAligned, hrows, hw, hal]
  have hwide : d.bcols ≤ 64 := by omega
  simp [hrows, hfmt, hwide, hrow]

/-- The state u with a row's bytes at an address of core c's partition, and core c's descriptor moved on. -/
def rowStored (s : State) (c : CoreId) (k : BitVec 5) (h : BitVec 1) (pa : Nat) (bs : List Byte) (l : Label) (u : State) : State :=
  (writeLocal (storeWho s c).author (pa / 64) (pa % 64) bs l u).updCore c (fun q => { q with ls := afterBlock k h q.ls })

section
variable {s u : State} {c : CoreId} {k : BitVec 5} {h : BitVec 1} {pa : Nat} {bs : List Byte} {l : Label} (hu : JoinOnly s u)
  (hw : ∀ k i, bit (rd (s.slice k).ws i).ctl.toNat 0 = false)
include hu hw

/-- A row's bytes and the join before them leave the other cores alone, and of the own one all but the descriptor. -/
theorem core_rowStored (d : CoreId) :
    (rowStored s c k h pa bs l u).core d = if d = c then { s.core c with ls := afterBlock k h (s.core c).ls } else s.core d := by
  obtain ⟨sd, co, -, hwrite⟩ := writeLocal_only (storeWho s c).author (pa / 64) (pa % 64) bs l u (by rw [hu.1]; exact hw)
  have hcore : ∀ d, (writeLocal (storeWho s c).author (pa / 64) (pa % 64) bs l u).core d = s.core d := fun d => by
    rw [hwrite]
    exact hu.core d
  unfold rowStored
  split
  · next hd => rw [hd, State.core_updCore_self, hcore]
  · next hd => rw [State.core_updCore_ne _ _ _ _ hd, hcore]

theorem finishE_rowStored_only (pops gives : List Nat) (f : EFlow) : OnlyStore c s (finishE c .S pops gives f (rowStored s c k h pa bs l u)) := by
  have hother : ∀ d, d ≠ c → (finishE c .S pops gives f (rowStored s c k h pa bs l u)).core d = s.core d := fun d hd => by
    rw [(finishE_only c .S pops gives f _).2 d hd, core_rowStored hu hw, if_neg hd]
  obtain ⟨hjoin, hrep⟩ := hu
  obtain ⟨sd, co, -, hwrite⟩ := writeLocal_only (storeWho s c).author (pa / 64) (pa % 64) bs l u (by rw [hjoin]; exact hw)
  refine ⟨?_, by rw [rowStored, hwrite]; exact hrep, hother⟩
  rw [rowStored, hwrite]
  show ({ u with mem := _, side := _, colls := _, cores := _ } : State) = _
  rw [hjoin]
  rfl

/-- The bytes at the address are the row's, in a local sector that no agent holds. -/
theorem finishE_rowStored_stored (hc : CanonicalMemory s) (hin : pa % 64 + bs.length ≤ 64) (hloc : paLocal (pa / 64 * 64) = true)
    (hline : s.line? (pa / 64) = none) (pops gives : List Nat) (f : EFlow) :
    Stored s (finishE c .S pops gives f (rowStored s c k h pa bs l u)) pa bs := by
  obtain ⟨hjoin, -⟩ := hu
  have before : ∀ x, readByte u x = readByte s x := by
    rw [hjoin]
    exact readByte_congr rfl rfl rfl rfl rfl
  have after : ∀ x, readByte (finishE c .S pops gives f (rowStored s c k h pa bs l u)) x =
      readByte (writeLocal (storeWho s c).author (pa / 64) (pa % 64) bs l u) x := readByte_congr rfl rfl rfl rfl rfl
  have hst : Stored u (writeLocal (storeWho s c).author (pa / 64) (pa % 64) bs l u) (pa / 64 * 64 + pa % 64) bs :=
    stored_writeLocal (by rw [hjoin]; exact hc) (by rw [hjoin]; exact hw) hin hloc (by rw [hjoin]; exact hline)
  rw [Nat.div_add_mod'] at hst
  obtain ⟨hthere, hother⟩ := hst
  exact ⟨(List.map_congr_left fun i _ => after _).trans hthere, fun x hx => by rw [after, hother x hx, before]⟩

end

section
variable {s : State} {c : CoreId} {w g : BitVec 3} {k a : BitVec 5} {h : BitVec 1} {t : Tlb} {va n : Nat} {d : SDesc}
  (hs : Startable s c .S w g) (hd : (s.core c).ls.desc k = d) (hrows : d.brows = 1) (hfmt : d.fmt = 0 ∨ d.fmt = 8)
  (hrun : d.codeRun 0 = (va, n)) (hal : va % 4 = 0) (hlen : n = 4 * d.bcols) (hcols : d.bcols ≤ 16)
  (hp : PlainAccess s c .S va n { rd := false, wr := true, ex := false } t)
include hs hd hrows hfmt hrun hal hlen hcols hp

/-- The row is written at its slice after a label join; the strand goes on. -/
theorem exec_stTile_row : ∃ l u, JoinOnly s u ∧ exec (.stTile w g k a h) s = .next (finishE c .S (waitCodes .S w) (giveCodes .S g) {}
    (rowStored s c k h (physOf t va) (rowBytes ((s.core c).xs.tile a) d.bcols) l u)) := by
  subst hd
  have hlegal := stTile_legal hrows hfmt (by rw [hrun]; exact hal) hcols
  obtain ⟨l, u, hu, hstore⟩ := hp.storeRows ((rowBytes_length ((s.core c).xs.tile a) _).trans hlen.symm) ((s.core c).xs.tlbl a)
  have hone : List.range ((s.core c).ls.desc k).brows = [0] := by rw [hrows, List.range_one]
  refine ⟨l, u, hu, ?_⟩
  show execStTile w g k a h s = _
  unfold execStTile
  refine runE_ok hs rfl ?_
  simp only [M.bind_eq, getCore_eq, need_eq]
  rw [if_pos hlegal]
  simp only [hp.openBlock hrows hrun, hone, List.map_cons, List.map_nil, packCodes_row, List.zip_cons_cons, List.zip_nil_right, hstore,
    advanceDesc_eq, M.pure_eq, rowStored]

/-- A one-row block of 32-bit lanes that one plain access covers lands at its address (R33, R222, R224). -/
theorem stTile_stores_row (hc : CanonicalMemory s) : ∃ u, exec (.stTile w g k a h) s = .next u ∧ OnlyStore c s u ∧
    Stored s u (physOf t va) (rowBytes ((s.core c).xs.tile a) d.bcols) ∧ (u.core c).s = nextEng (s.core c) .S ∧
    (u.core c).xs = (s.core c).xs ∧ KeepsX (s.core c) (u.core c) := by
  obtain ⟨l, u, hu, hexec⟩ := exec_stTile_row (a := a) (h := h) hs hd hrows hfmt hrun hal hlen hcols hp
  have hfit : physOf t va % 64 + (rowBytes ((s.core c).xs.tile a) d.bcols).length ≤ 64 := by
    have hsame : physOf t va % 64 = va % 64 := by
      unfold physOf
      omega
    rw [rowBytes_length, hsame, ← hlen]
    exact hp.small.2.1
  refine ⟨_, hexec, finishE_rowStored_only hu hp.noSliceWatch _ _ _,
    finishE_rowStored_stored hu hp.noSliceWatch hc hfit hp.paLocal_sector hp.clean _ _ _, ?_⟩
  have hgoes := finishE_S c (waitCodes .S w) (giveCodes .S g)
    (rowStored s c k h (physOf t va) (rowBytes ((s.core c).xs.tile a) d.bcols) l u)
  rw [core_rowStored hu hp.noSliceWatch, if_pos rfl] at hgoes
  exact hgoes

end

/-! ### The statement (O50) -/

/-- Settles O50: a row reaches its slice in one write after a label join; a write back or a discard takes every dirty line of the named pages;
a finished tile is one increment of the job's counter. -/
theorem stashAndStores : Obligations.StashAndStores := by
  unfold Obligations.StashAndStores
  refine ⟨?_, ?_⟩
  · intro s c w g k a h t hc hs d run lanes hrows hfmt hal hlen ⟨_, hcols⟩ hp
    exact stTile_stores_row hs rfl hrows hfmt rfl hal hlen hcols hp hc
  · intro s c w g a b hs e lo n cl named clean
    have hpages : NamesPages s c a b lo n := ⟨rfl, rfl⟩
    refine ⟨fun hwin hn => ⟨?_, ?_⟩, stash_traps hs hpages, fun hlo j hj hwf => ?_, tileDone_traps hs⟩
    · obtain ⟨t, ht, heng, hcl, hclean⟩ := stWb_cleans hs hpages ⟨hwin, hn⟩
      exact ⟨t, ht, heng, fun l hl idx ho hin => ⟨rfl, hclean l hl idx ho hin⟩, hcl⟩
    · obtain ⟨t, ht, heng, hgone, hrest⟩ := stInv_discards hs hpages ⟨hwin, hn⟩
      exact ⟨t, ht, heng, fun l hl idx ho hin => (hgone l hl idx ho hin).elim, hrest⟩
    · obtain ⟨t, ht, heng, hjob⟩ := tileDone_counts hs hlo hj
      refine ⟨t, _, ht, heng, hjob, rfl, fun m hm => ?_, ?_⟩
      · rw [chunk_bumpChunk hwf, if_neg hm]
      · rw [chunk_bumpChunk hwf, if_pos rfl]

end Sys2Proof.Machine
end

section
/-! Fields of a word (R61 to R76): what `bitsAt` and `fieldAt` read of a sum of fields, and what the low bits of a word amount to. -/

namespace Sys2Proof

/-! ### Reading a sum of fields -/

section Fields
variable {m u k lo n : Nat} {x : BitVec m}

theorem bitsAt_literal (c lo n : Nat) : bitsAt (no_index (OfNat.ofNat c)) lo n = OfNat.ofNat c / 2 ^ lo % 2 ^ n := by rw [bitsAt]

/-- A field put above the bits that are read is not seen. -/
theorem bitsAt_add_put_above (h : lo + n ≤ k) : bitsAt (u + put x k) lo n = bitsAt u lo n := by
  obtain ⟨j, rfl⟩ := Nat.exists_eq_add_of_le h
  unfold bitsAt put
  rw [pow_add, pow_add, show u + x.toNat * (2 ^ lo * 2 ^ n * 2 ^ j) = u + 2 ^ lo * (2 ^ n * (x.toNat * 2 ^ j)) by ring,
    Nat.add_mul_div_left _ _ (by positivity), Nat.add_mul_mod_self_left]

/-- A field put where a number has zeros does not carry into the bits above it. -/
theorem div_add_put (x : BitVec m) (h : bitsAt u k m = 0) : (u + put x k) / 2 ^ k = x.toNat + 2 ^ m * (u / 2 ^ (k + m)) := by
  unfold bitsAt at h
  unfold put
  rw [Nat.add_mul_div_right _ _ (by positivity), ← Nat.div_add_mod (u / 2 ^ k) (2 ^ m), h, Nat.div_div_eq_div_mul, ← pow_add]
  ring

/-- A field put where a number has zeros is read back. -/
theorem bitsAt_add_put_self (h : bitsAt u k m = 0) : bitsAt (u + put x k) k m = x.toNat := by
  rw [bitsAt, div_add_put x h, Nat.add_mul_mod_self_left, Nat.mod_eq_of_lt x.isLt]

/-- A field put below the bits that are read, where the number has zeros, is not seen. -/
theorem bitsAt_add_put_below (h : k + m ≤ lo) (hu : bitsAt u k m = 0) : bitsAt (u + put x k) lo n = bitsAt u lo n := by
  obtain ⟨j, rfl⟩ := Nat.exists_eq_add_of_le h
  have hdiv : (u + put x k) / 2 ^ (k + m) = u / 2 ^ (k + m) := by
    rw [pow_add, ← Nat.div_div_eq_div_mul, div_add_put x hu, Nat.add_mul_div_left _ _ (by positivity), Nat.div_eq_of_lt x.isLt, zero_add,
      pow_add]
  rw [bitsAt, bitsAt, pow_add 2 (k + m), ← Nat.div_div_eq_div_mul, hdiv, Nat.div_div_eq_div_mul]

end Fields

theorem fieldAt_eq (n w lo : Nat) : fieldAt n w lo = BitVec.ofNat n (bitsAt w lo n) := by
  apply BitVec.eq_of_toNat_eq
  rw [fieldAt, BitVec.toNat_ofNat, BitVec.toNat_ofNat, bitsAt, Nat.mod_mod]

/-- A wide field in two parts: one table row may look at more bits than the next fixes. -/
theorem bitsAt_add_width (w lo n m c : Nat) :
    bitsAt w lo (n + m) = c ↔ bitsAt w lo n = c % 2 ^ n ∧ bitsAt w (lo + n) m = c / 2 ^ n := by
  unfold bitsAt
  rw [pow_add, Nat.mod_mul, pow_add, ← Nat.div_div_eq_div_mul]
  generalize w / 2 ^ lo = v
  have hlt := Nat.mod_lt v (show 0 < 2 ^ n by positivity)
  constructor
  · rintro rfl
    rw [Nat.add_mul_mod_self_left, Nat.mod_mod, Nat.add_mul_div_left _ _ (by positivity), Nat.div_eq_of_lt hlt, zero_add]
    exact ⟨rfl, rfl⟩
  · rintro ⟨hlow, hhigh⟩
    rw [hlow, hhigh, Nat.mod_add_div]

/-! ### The low bits of a word -/

/-- The number that the low `k` bits of a word hold, as an integer: a field is the difference of two of them. -/
def lowBits (w k : Nat) : Int := (w % 2 ^ k : Nat)

theorem lowBits_add (w lo n : Nat) : lowBits w (lo + n) = lowBits w lo + bitsAt w lo n * 2 ^ lo := by
  unfold lowBits bitsAt
  rw [pow_add, Nat.mod_mul]
  push_cast
  ring

theorem lowBits_zero (w : Nat) : lowBits w 0 = 0 := by simp [lowBits, Nat.mod_one]

theorem lowBits_word (w : Word32) : lowBits w.toNat 32 = w.toNat := by rw [lowBits, Nat.mod_eq_of_lt w.isLt]

theorem put_fieldAt (n w lo : Nat) : (put (fieldAt n w lo) lo : Int) = lowBits w (lo + n) - lowBits w lo := by
  rw [lowBits_add, add_sub_cancel_left, fieldAt_eq, put, BitVec.toNat_ofNat, bitsAt, Nat.mod_mod]
  push_cast
  rfl

theorem bitsAt_eq_iff (w lo n c : Nat) : bitsAt w lo n = c ↔ lowBits w (lo + n) = lowBits w lo + c * 2 ^ lo := by
  rw [lowBits_add, add_right_inj, mul_left_inj' (by positivity), Nat.cast_inj]

end Sys2Proof
end

section
/-! An instruction's word decodes to it (O1), table by table: each row's opcode, function code and reserved bits are those of its word,
and each field is read back from where the encoder put it. -/

namespace Sys2Proof

theorem encodeNat_lt (i : Instr) : encodeNat i < 2 ^ 32 := by
  cases i
  all_goals
    simp only [encodeNat.eq_def, put]
    omega

theorem toNat_encode (i : Instr) : (encode i).toNat = encodeNat i := by
  rw [encode, BitVec.toNat_ofNat, Nat.mod_eq_of_lt (encodeNat_lt i)]

section Tables
variable {i : Instr}

/-- `amo.fadd` has 7 where the other atomics have their scope, so their words are theirs only with a scope code that R66 assigns. -/
theorem decodeC_encodeNat (hwf : i.wf = true) (ht : i.tbl = .C) : decodeC (encodeNat i) = some i := by
  cases i <;> cases ht
  all_goals simp only [encodeNat.eq_def, decodeC, decodeC01, decodeC07, decodeC15, decodeC17, decodeC18, decodeC19, decodeC1A, decodeC1B,
    decodeC1C, decodeC1D, decodeC1E, decodeC1F, decodeC20, decodeC21, decodeC22, fieldAt_eq, bitsAt_literal, bitsAt_add_put_above,
    bitsAt_add_put_self, bitsAt_add_put_below, bitsAt_add_width _ 12 2 6, bitsAt_add_width _ 0 6 8, bitsAt_add_width _ 0 6 20,
    Nat.reduceAdd, Nat.reduceLeDiff, Nat.reducePow, Nat.reduceDiv, Nat.reduceMod, Nat.reduceEqDiff, reduceIte, BitVec.ofNat_toNat,
    BitVec.setWidth_eq, and_true, false_and]
  all_goals
    simp only [Instr.wf, decide_eq_true_eq] at hwf
    exact if_neg (by omega)

theorem decodeE_encodeNat (ht : i.tbl = .E) : bitsAt (encodeNat i) 20 6 < 16 ∧ decodeE (encodeNat i) = some i := by
  cases i <;> cases ht
  all_goals simp only [encodeNat.eq_def, decodeE, decodeE01, decodeE07, fieldAt_eq, bitsAt_literal, bitsAt_add_put_above,
    bitsAt_add_put_self, bitsAt_add_put_below, Nat.reduceAdd, Nat.reduceLeDiff, Nat.reduceLT, Nat.reducePow, Nat.reduceDiv, Nat.reduceMod,
    Nat.reduceEqDiff, reduceIte, BitVec.ofNat_toNat, BitVec.setWidth_eq, and_self]

theorem decodeRow_encodeNat_L (ht : i.tbl = .L) : decodeRow .L (encodeNat i) = some i := by
  cases i <;> cases ht
  all_goals simp only [encodeNat.eq_def, decodeRow, decodeL, decodeL1B, fieldAt_eq, bitsAt_literal, bitsAt_add_put_above,
    bitsAt_add_put_self, bitsAt_add_put_below, Nat.reduceAdd, Nat.reduceLeDiff, Nat.reduceLT, Nat.reducePow, Nat.reduceDiv, Nat.reduceMod,
    Nat.reduceEqDiff, reduceIte, BitVec.ofNat_toNat, BitVec.setWidth_eq, and_self]

theorem decodeRow_encodeNat_X (ht : i.tbl = .X) : decodeRow .X (encodeNat i) = some i := by
  cases i <;> cases ht
  all_goals simp only [encodeNat.eq_def, decodeRow, decodeX, decodeX14, decodeX28, decodeX29, decodeX2A, decodeX36, decodeX37, decodeX38,
    decodeX3B, decodeX3C, fieldAt_eq, bitsAt_literal, bitsAt_add_put_above, bitsAt_add_put_self, bitsAt_add_put_below,
    bitsAt_add_width _ 1 14 5, Nat.reduceAdd, Nat.reduceLeDiff, Nat.reduceLT, Nat.reducePow, Nat.reduceDiv, Nat.reduceMod, Nat.reduceEqDiff,
    reduceIte, BitVec.ofNat_toNat, BitVec.setWidth_eq, and_true, false_and]

theorem decodeRow_encodeNat_S (ht : i.tbl = .S) : decodeRow .S (encodeNat i) = some i := by
  cases i <;> cases ht
  all_goals simp only [encodeNat.eq_def, decodeRow, decodeS, decodeS10, decodeS14, fieldAt_eq, bitsAt_literal, bitsAt_add_put_above,
    bitsAt_add_put_self, bitsAt_add_put_below, Nat.reduceAdd, Nat.reduceLeDiff, Nat.reduceLT, Nat.reducePow, Nat.reduceDiv, Nat.reduceMod,
    Nat.reduceEqDiff, reduceIte, BitVec.ofNat_toNat, BitVec.setWidth_eq, and_true, and_false]

/-- A strand with the instruction in its table gives its word that row. -/
theorem decodeRow_encodeNat {st : Strand} (hwf : i.wf = true) (ht : i.tbl.ofStrand st = true) : decodeRow st (encodeNat i) = some i := by
  have shared (h : i.tbl = .E) (own : Nat → Option Instr) :
      (if bitsAt (encodeNat i) 20 6 < 16 then decodeE (encodeNat i) else own (encodeNat i)) = some i := by
    obtain ⟨hop, hrow⟩ := decodeE_encodeNat h
    rw [if_pos hop, hrow]
  cases st <;> cases h : i.tbl <;> rw [h] at ht <;> cases ht
  case C.C => exact decodeC_encodeNat hwf h
  case L.E => exact shared h decodeL
  case L.L => exact decodeRow_encodeNat_L h
  case X.E => exact shared h decodeX
  case X.X => exact decodeRow_encodeNat_X h
  case S.E => exact shared h decodeS
  case S.S => exact decodeRow_encodeNat_S h

end Tables

/-- Settles O1: the row that the strand's table gives the word is the instruction, and its codes are assigned. -/
theorem encodeThenDecode : Obligations.EncodeThenDecode := by
  unfold Obligations.EncodeThenDecode
  intro st i hwf ht
  rw [decode, toNat_encode, decodeRow_encodeNat hwf ht]
  exact if_pos hwf

end Sys2Proof
end

section
/-! A word that decodes is the encoding of what it decodes to (O2): the fields, the codes and the reserved bits that a row checks are the
whole word. -/

namespace Sys2Proof

/-! ### What a table answers -/

/-- A table's answer to a word is a row of that table whose encoding is the word. -/
def Faithful (t : Tbl) (w : Nat) (o : Option Instr) : Prop := ∀ i, o = some i → i.tbl = t ∧ encodeNat i = w

section Faithful
variable {t : Tbl} {w : Nat}

theorem faithful_none : Faithful t w none := by
  intro i h
  cases h

theorem faithful_some {i : Instr} (ht : i.tbl = t) (hw : (encodeNat i : Int) = w) : Faithful t w (some i) := by
  rintro _ ⟨⟩
  exact ⟨ht, Int.ofNat_inj.mp hw⟩

/-- Along a table's chain of tests, only those that hold matter. -/
theorem faithful_ite {p : Prop} [Decidable p] {a b : Option Instr} (ha : p → Faithful t w a) (hb : Faithful t w b) :
    Faithful t w (if p then a else b) := by
  split
  · exact ha ‹_›
  · exact hb

end Faithful

/-! ### The tables -/

/-- The row that a table gives a word. -/
def Tbl.row : Tbl → Nat → Option Instr
  | .C => decodeC
  | .E => decodeE
  | .L => decodeL
  | .X => decodeX
  | .S => decodeS
  | .agent => fun _ => none

/-- A strand's row is one of a table that it decodes (R73). -/
theorem decodeRow_eq_row (st : Strand) (w : Nat) : ∃ t : Tbl, t.ofStrand st = true ∧ decodeRow st w = t.row w := by
  have engine {st : Strand} {own : Tbl} (hE : Tbl.E.ofStrand st = true) (hown : own.ofStrand st = true) :
      ∃ t : Tbl, t.ofStrand st = true ∧ (if bitsAt w 20 6 < 16 then decodeE w else own.row w) = t.row w := by
    split
    · exact ⟨.E, hE, rfl⟩
    · exact ⟨own, hown, rfl⟩
  cases st with
  | C => exact ⟨.C, rfl, rfl⟩
  | L => exact engine (own := .L) rfl rfl
  | X => exact engine (own := .X) rfl rfl
  | S => exact engine (own := .S) rfl rfl

section Tables
variable {w : Nat} (hzero : lowBits w 0 = 0) (hword : lowBits w 32 = w)
include hzero hword

/-- Of a row's word each bit stands in one of its fields, in its opcode or in a test, so the differences of low bits add up to the word. -/
theorem decodeC_faithful : Faithful .C w (decodeC w) := by
  unfold decodeC decodeC01 decodeC07 decodeC15 decodeC17 decodeC18 decodeC19 decodeC1A decodeC1B decodeC1C decodeC1D decodeC1E decodeC1F
    decodeC20 decodeC21 decodeC22
  split
  all_goals repeat' refine faithful_ite (fun htest => ?_) ?_
  any_goals exact faithful_none
  all_goals
    refine faithful_some rfl ?_
    simp only [encodeNat.eq_def, Nat.cast_add, put_fieldAt, Nat.cast_ofNat, bitsAt_eq_iff, Nat.reduceAdd] at *
    omega

theorem row_faithful (t : Tbl) : Faithful t w (t.row w) := by
  cases t
  case C => exact decodeC_faithful hzero hword
  case agent => exact faithful_none
  all_goals
    simp only [Tbl.row, decodeE, decodeE01, decodeE07, decodeL, decodeL1B, decodeX, decodeX14, decodeX28, decodeX29, decodeX2A, decodeX36,
      decodeX37, decodeX38, decodeX3B, decodeX3C, decodeS, decodeS10, decodeS14]
    split
  all_goals repeat' refine faithful_ite (fun htest => ?_) ?_
  any_goals exact faithful_none
  all_goals
    refine faithful_some rfl ?_
    simp only [encodeNat.eq_def, Nat.cast_add, put_fieldAt, Nat.cast_ofNat, bitsAt_eq_iff, Nat.reduceAdd] at *
    omega

end Tables

/-- Settles O2: decoding answers a row of the strand's table once its codes are assigned, and the row's encoding is the word. -/
theorem decodeThenEncode : Obligations.DecodeThenEncode := by
  unfold Obligations.DecodeThenEncode
  intro st w i h
  unfold decode at h
  split at h
  · cases h
  next j hj =>
    split at h
    next hwf =>
      cases h
      obtain ⟨t, ht, hrow⟩ := decodeRow_eq_row st w.toNat
      obtain ⟨htbl, henc⟩ := row_faithful (lowBits_zero _) (lowBits_word w) t i (hrow ▸ hj)
      exact ⟨hwf, htbl ▸ ht, by rw [encode, henc, BitVec.ofNat_toNat, BitVec.setWidth_eq]⟩
    · cases h

end Sys2Proof
end

section
/-! Tokens of an engine instruction (R71, R270): the queues that its masks name, what popping and pushing them leaves, and that an
instruction with nothing left to do has moved one token of each. -/

namespace Sys2Proof.Machine

/-! ### The queues of the masks (R70, R71) -/

theorem waitCodes_lt (st : Strand) (w : BitVec 3) : ∀ q ∈ waitCodes st w, q < 16 := by cases st <;> decide +revert
theorem giveCodes_lt (st : Strand) (g : BitVec 3) : ∀ q ∈ giveCodes st g, q < 16 := by cases st <;> decide +revert
theorem waitCodes_nodup (st : Strand) (w : BitVec 3) : (waitCodes st w).Nodup := by cases st <;> decide +revert
theorem giveCodes_nodup (st : Strand) (g : BitVec 3) : (giveCodes st g).Nodup := by cases st <;> decide +revert

/-- A strand pushes no queue that it pops. -/
theorem giveCodes_not_wait (st : Strand) (w g : BitVec 3) : ∀ q ∈ giveCodes st g, q ∉ waitCodes st w := by cases st <;> decide +revert

/-! ### Popping and pushing lists of queues (R270) -/

/-- One token of each queue is popped. -/
theorem tokens_popToks {qs : List Nat} {k : Core} (hn : qs.Nodup) (hlt : ∀ q ∈ qs, q < 16) (hpos : ∀ q ∈ qs, 0 < k.tokens q) {n : Nat}
    (h : n < 16) : (qs.foldl Core.popTok k).tokens n + (if n ∈ qs then 1 else 0) = k.tokens n := by
  induction qs generalizing k with
  | nil => rfl
  | cons q qs ih =>
    rw [List.nodup_cons] at hn
    rw [List.forall_mem_cons] at hlt hpos
    have hpop {m : Nat} (hm : m < 16) := tokens_popTok k q m hlt.1 hm hpos.1
    have hrest : ∀ m ∈ qs, 0 < (k.popTok q).tokens m := by
      intro m hm
      have := hpop (hlt.2 m hm)
      rw [if_neg (ne_of_mem_of_not_mem hm hn.1), Nat.add_zero] at this
      rw [this]
      exact hpos.2 m hm
    have := ih hn.2 hlt.2 hrest
    rw [List.foldl_cons, ← hpop h, ← this]
    by_cases hq : n = q
    · subst hq
      simp [hn.1]
    · simp [hq]

/-- One token is pushed on each queue, where there is room. -/
def pushToks (qs : List Nat) (k : Core) : Core := qs.foldl Core.addTok k

theorem tokens_pushToks {qs : List Nat} {k : Core} (hn : qs.Nodup) (hlt : ∀ q ∈ qs, q < 16) (hroom : ∀ q ∈ qs, k.tokens q < 255) {n : Nat}
    (h : n < 16) : (pushToks qs k).tokens n = k.tokens n + (if n ∈ qs then 1 else 0) := by
  induction qs generalizing k with
  | nil => rfl
  | cons q qs ih =>
    rw [List.nodup_cons] at hn
    rw [List.forall_mem_cons] at hlt hroom
    have hadd {m : Nat} (hm : m < 16) := tokens_addTok k q m hlt.1 hm hroom.1
    have hrest : ∀ m ∈ qs, (k.addTok q).tokens m < 255 := by
      intro m hm
      rw [hadd (hlt.2 m hm), if_neg (ne_of_mem_of_not_mem hm hn.1)]
      exact hroom.2 m hm
    have := ih hn.2 hlt.2 hrest
    unfold pushToks at *
    rw [List.foldl_cons, this, hadd h]
    by_cases hq : n = q
    · subst hq
      simp [hn.1]
    · simp [hq]

theorem flights_pushToks (qs : List Nat) (k : Core) : (pushToks qs k).flights = k.flights := by
  induction qs generalizing k with
  | nil => rfl
  | cons q qs ih => exact ih (k.addTok q)

/-- With nothing owed before it on its queues and room on each, a finished instruction pushes them all. -/
theorem gives_pushed {st : Strand} {qs : List Nat} {k : Core} (hn : qs.Nodup) (hlt : ∀ q ∈ qs, q < 16) (hroom : ∀ q ∈ qs, k.tokens q < 255) :
    qs.foldl (fun (a : List Nat × Core) q =>
      if ([] : List (Strand × Nat)).contains (st, q) || decide (a.2.tokens q = 255) then (a.1 ++ [q], a.2) else (a.1, a.2.addTok q)) ([], k) =
      ([], pushToks qs k) := by
  induction qs generalizing k with
  | nil => rfl
  | cons q qs ih =>
    rw [List.nodup_cons] at hn
    rw [List.forall_mem_cons] at hlt hroom
    have hfull : decide (k.tokens q = 255) = false := decide_eq_false (Nat.ne_of_lt hroom.1)
    rw [List.foldl_cons, if_neg (by simp [hfull])]
    refine ih hn.2 hlt.2 fun m hm => ?_
    rw [tokens_addTok k q m hlt.1 (hlt.2 m hm) hroom.1, if_neg (ne_of_mem_of_not_mem hm hn.1)]
    exact hroom.2 m hm

theorem settle_pushed {st : Strand} {qs : List Nat} {ps : List Page} {k : Core}
    (hk : k.flights = [{ st := st, rest := .push, gives := qs, pages := ps }]) (hn : qs.Nodup) (hlt : ∀ q ∈ qs, q < 16)
    (hroom : ∀ q ∈ qs, k.tokens q < 255) : settle k = pushToks qs { k with flights := [] } := by
  have hgives := gives_pushed (st := st) (k := { k with flights := [] }) hn hlt hroom
  unfold settle
  rw [hk]
  unfold settleFrom
  rw [if_pos rfl]
  dsimp only
  rw [hgives]
  rfl

/-! ### The end of an engine instruction -/

/-- An instruction with nothing left to do pops its wait queues and pushes its give queues (R134, R270). -/
theorem finishE_movesTokens {s s1 : State} {c : CoreId} {st : Strand} {w g : BitVec 3} {f : EFlow}
    (hpos : ∀ q ∈ waitCodes st w, 0 < (s.core c).tokens q) (htok : (s1.core c).tok = (s.core c).tok)
    (hfl : (s1.core c).flights = (s.core c).flights) (hf : f.rest = .push) :
    MovesTokens st w g (s.core c) ((finishE c st (waitCodes st w) (giveCodes st g) f s1).core c) := by
  intro hempty hroom
  have hstart (q : Nat) : (dropExempt st (s1.core c)).tokens q = (s.core c).tokens q := by
    rw [Core.tokens, Core.tokens, ← htok]
    rfl
  have hpops {n : Nat} (hn : n < 16) :=
    tokens_popToks (waitCodes_nodup st w) (waitCodes_lt st w) (fun q hq => by rw [hstart]; exact hpos q hq) hn
  have hpopFlights := flights_popToks (waitCodes st w) (dropExempt st (s1.core c))
  unfold finishE
  rw [State.core_updCore_self]
  generalize (waitCodes st w).foldl Core.popTok (dropExempt st (s1.core c)) = p at hpops hpopFlights
  have hgives : ∀ q ∈ giveCodes st g, p.tokens q < 255 := by
    intro q hq
    have := hpops (giveCodes_lt st g q hq)
    rw [if_neg (giveCodes_not_wait st w g q hq), Nat.add_zero, hstart] at this
    rw [this]
    exact hroom q hq
  have pushed {k : Core} (hk : k.tok = p.tok) (hflk : k.flights = [{ st := st, rest := .push, gives := giveCodes st g, pages := f.pages }]) :
      (settle k).flights = [] ∧ ∀ q, q < 16 → (settle k).tokens q + (if q ∈ waitCodes st w then 1 else 0) =
        (s.core c).tokens q + (if q ∈ giveCodes st g then 1 else 0) := by
    have htokens (q : Nat) : ({ k with flights := [] } : Core).tokens q = p.tokens q := by rw [Core.tokens, Core.tokens, ← hk]
    have hroomk : ∀ q ∈ giveCodes st g, ({ k with flights := [] } : Core).tokens q < 255 := fun q hq => by rw [htokens]; exact hgives q hq
    rw [settle_pushed hflk (giveCodes_nodup st g) (giveCodes_lt st g) hroomk, flights_pushToks]
    refine ⟨rfl, fun q hq => ?_⟩
    rw [tokens_pushToks (giveCodes_nodup st g) (giveCodes_lt st g) hroomk hq, htokens, Nat.add_right_comm, hpops hq, hstart]
  refine pushed (by simp) ?_
  simp [hpopFlights, dropExempt, hfl, hempty, hf]

end Sys2Proof.Machine
end

section
/-! The control instructions of the engine strands (O35): each is one change of its strand's registers. -/

namespace Sys2Proof.Machine

/-! ### What an engine instruction answers -/

@[simp] theorem Core.eng_setEng (k : Core) (st : Strand) (e : Eng) : (k.setEng st e).eng st = e := by cases st <;> rfl
@[simp] theorem Core.setEng_setEng (k : Core) (st : Strand) (e e' : Eng) : (k.setEng st e).setEng st e' = k.setEng st e' := by cases st <;> rfl
@[simp] theorem Core.setEng_eng (k : Core) (st : Strand) : k.setEng st (k.eng st) = k := by cases st <;> rfl

theorem OnlyCore.andJoins {c : CoreId} {s t : State} (h : OnlyCore c s t) : OnlyCoreAndJoins c s t := by
  obtain ⟨hcores, hothers⟩ := h
  have hout : t.out = s.out := by rw [hcores]
  have hlabels : t.labels = s.labels := by rw [hcores]
  refine ⟨?_, ⟨0, by simp [hout]⟩, hothers⟩
  rw [hout, hlabels]
  exact hcores

/-- An engine strand that goes on from registers `e` keeps all else of its core but tokens and what is in flight. -/
theorem TokensOnly.wentOn_keeps {k k' : Core} {st : Strand} {f : EFlow} {e : Eng} (hst : st ≠ .C)
    (h : TokensOnly (wentOn st f (k.setEng st e)) k') :
    KeepsButEngine st k k' ∧ k'.eng st = { e with pc := f.npc.getD (e.pc + 4) } ∧ KeepsUnits k k' := by
  obtain ⟨tok, keyw, fl, rfl⟩ := h
  refine ⟨⟨?_, fun o ho => ?_, ?_⟩, ?_, ?_⟩
  · cases st with
    | C => exact absurd rfl hst
    | L | X | S => simp only [wentOn, dropExempt, Core.setEng, Core.eng]
  · simp [wentOn, ho]
  · simp [wentOn]
  · cases st <;> simp only [wentOn, dropExempt, Core.setEng, Core.eng]
  · cases st <;> simp only [KeepsUnits, wentOn, dropExempt, Core.setEng, and_self]

section Outcomes
variable {i : Instr} {w g : BitVec 3} {m : CoreId → Strand → M EFlow} {s s1 : State} {c : CoreId} {st : Strand} {tbl : Tbl}

/-- A control instruction that leaves its strand's registers `e` and nothing else to do. -/
theorem control_done {e : Eng} {npc : Option Word} (hst : st ≠ .C) (h : Startable s c st w g) (hi : exec i s = runE .E i w g m s)
    (hm : m c st s = .ok ({ npc := npc }, s1)) (hs1 : s1 = s.updCore c (fun k => k.setEng st e)) :
    ∃ t, exec i s = .next t ∧ EngineDone c st w g { e with pc := npc.getD (e.pc + 4) } s t ∧ KeepsUnits (s.core c) (t.core c) := by
  have hcore : s1.core c = (s.core c).setEng st e := by rw [hs1, State.core_updCore_self]
  have honly : OnlyCore c s s1 := hs1 ▸ updCore_only c _ s
  have htok := finishE_core c st (waitCodes st w) (giveCodes st g) { npc := npc } s1
  rw [hcore] at htok
  obtain ⟨hkeeps, heng, hunits⟩ := htok.wentOn_keeps hst
  exact ⟨_, hi.trans (runE_ok h (ofStrand_E hst) hm), ⟨(honly.trans (finishE_only c st _ _ _ s1)).andJoins, hkeeps, heng,
    finishE_movesTokens h.2.2 (by simp [hcore]) (by simp [hcore]) rfl⟩, hunits⟩

/-- An engine instruction waits, and nothing of it has happened, while a queue of its wait mask holds no token (R71, R134). -/
theorem runE_waits (h : Ready s c st) (ht : tbl.ofStrand st = true) (hm : masksStarted (s.core c) st w g = true)
    (hq : ∃ q ∈ waitCodes st w, (s.core c).tokens q = 0) : runE tbl i w g m s = .next (parkE c st s) := by
  obtain ⟨hcur, hmay⟩ := h
  obtain ⟨q, hq, hzero⟩ := hq
  have hall : (waitCodes st w).all (fun q => decide (0 < (s.core c).tokens q)) = false :=
    List.all_eq_false.2 ⟨q, hq, by simp [hzero]⟩
  simp [runE, hcur, ht, hmay, hm, hall]

/-- A mask that names a strand which was not started is illegal (R272). -/
theorem runE_unstarted (h : Ready s c st) (ht : tbl.ofStrand st = true) (hm : masksStarted (s.core c) st w g = false) :
    runE tbl i w g m s = .next (trapEng c st cILLEGAL 0 (wordOf i) s) := by
  obtain ⟨hcur, hmay⟩ := h
  simp [runE, hcur, ht, hmay, hm, wordOf]

/-- What holds up a control instruction, whatever it does: an empty queue, or a strand that was not started. -/
theorem control_held (hst : st ≠ .C) (h : Ready s c st) (hi : exec i s = runE .E i w g m s) :
    (masksStarted (s.core c) st w g = true → (∃ q ∈ waitCodes st w, (s.core c).tokens q = 0) →
      exec i s = .next (s.updCore c (fun k => { k with st := k.st.set st .waiting }))) ∧
    (masksStarted (s.core c) st w g = false → EngineTraps c st i cILLEGAL (wordOf i) s) :=
  ⟨fun hm hq => hi.trans (runE_waits h (ofStrand_E hst) hm hq), fun hm => hi.trans (runE_unstarted h (ofStrand_E hst) hm)⟩

end Outcomes

/-! ### The statement (O35) -/

/-- Registers written back as they were are no change. -/
theorem updCore_setEng_eng (s : State) (c : CoreId) (st : Strand) : s = s.updCore c (fun k => k.setEng st ((s.core c).eng st)) := by
  simp [State.updCore, State.setCore, State.core]

section Control
variable {s : State} {c : CoreId} {st : Strand} {w g : BitVec 3} {k : BitVec 2} {j m : BitVec 4} {i15 : BitVec 15} {o18 : BitVec 18}
  {i10 : BitVec 10}

theorem exec_lpSetImm : exec (.lpSetImm w g k i15) s = execLpSetImm w g k i15 s := rfl
theorem exec_lpSetReg : exec (.lpSetReg w g k j) s = execLpSetReg w g k j s := rfl
theorem exec_lpEnd : exec (.lpEnd w g k o18) s = execLpEnd w g k o18 s := rfl
theorem exec_eJ : exec (.eJ w g o18) s = execEJ w g o18 s := rfl
theorem exec_eBnz : exec (.eBnz w g j i15) s = execEBnz w g j i15 s := rfl
theorem exec_nLi : exec (.nLi w g j i15) s = execNLi w g j i15 s := rfl
theorem exec_nAdd : exec (.nAdd w g j m i10) s = execNAdd w g j m i10 s := rfl
theorem exec_eNop : exec (.eNop w g) s = execENop w g s := rfl

/-- `lp.end` (R135): it jumps back while its counter stands above 1. -/
theorem lpEnd_done (hst : st ≠ .C) (h : Startable s c st w g) (k : BitVec 2) (o18 : BitVec 18) :
    let e := (s.core c).eng st
    let lc := rd e.lc (i2 k)
    ∃ t, exec (.lpEnd w g k o18) s = .next t ∧
      EngineDone c st w g (if 1 < lc.toNat then { e with pc := e.pc + 4 * o18.signExtend 64, lc := wr e.lc (i2 k) (lc - 1) }
        else { e with pc := e.pc + 4, lc := wr e.lc (i2 k) 0 }) s t ∧ KeepsUnits (s.core c) (t.core c) := by
  intro e lc
  by_cases hlc : 1 < lc.toNat
  · rw [if_pos hlc]
    refine control_done (e := { e with lc := wr e.lc (i2 k) (lc - 1) }) (npc := some (pcRel e.pc o18)) hst h exec_lpEnd ?_ rfl
    simp only [M.bind_eq, getCore_eq, M.ite_eq]
    rw [if_pos hlc]
    rfl
  · rw [if_neg hlc]
    refine control_done (e := { e with lc := wr e.lc (i2 k) 0 }) (npc := none) hst h exec_lpEnd ?_ rfl
    simp only [M.bind_eq, getCore_eq, M.ite_eq]
    rw [if_neg hlc]
    rfl

/-- `e.bnz` (R135): it jumps where its register is not 0. -/
theorem eBnz_done (hst : st ≠ .C) (h : Startable s c st w g) (j : BitVec 4) (i15 : BitVec 15) :
    let e := (s.core c).eng st
    ∃ t, exec (.eBnz w g j i15) s = .next t ∧
      EngineDone c st w g { e with pc := if rd e.n (i4 j) ≠ 0 then e.pc + 4 * i15.signExtend 64 else e.pc + 4 } s t ∧
      KeepsUnits (s.core c) (t.core c) := by
  intro e
  have stays := updCore_setEng_eng s c st
  have hexec (npc : Option Word) (h' : (if rd e.n (i4 j) ≠ 0 then some (pcRel e.pc i15) else none) = npc) :=
    control_done (npc := npc) hst h (exec_eBnz (j := j) (i15 := i15)) (by rw [← h']; rfl) stays
  by_cases hn : rd e.n (i4 j) ≠ 0
  · rw [if_pos hn]
    exact hexec _ (if_pos hn)
  · rw [if_neg hn]
    exact hexec _ (if_neg hn)

end Control

/-- Settles O35: each control instruction is one change of its strand's registers, between popping its wait queues and pushing its give
queues. -/
theorem engineControl : Obligations.EngineControl := by
  unfold Obligations.EngineControl
  refine ⟨?_, ?_⟩
  · intro s c st w g k j m i15 o18 i10 hst h e next lc
    have stays := updCore_setEng_eng s c st
    simp only [List.forall_mem_cons, List.not_mem_nil, false_implies, implies_true, and_true]
    refine ⟨?_, ?_, lpEnd_done hst h k o18, ?_, eBnz_done hst h j i15, ?_, ?_, ?_⟩
    · exact control_done (npc := none) hst h exec_lpSetImm rfl rfl
    · exact control_done (npc := none) hst h exec_lpSetReg rfl rfl
    · exact control_done (npc := some (pcRel e.pc o18)) hst h exec_eJ rfl stays
    · exact control_done (npc := none) hst h exec_nLi rfl rfl
    · exact control_done (npc := none) hst h exec_nAdd rfl rfl
    · exact control_done (npc := none) hst h exec_eNop rfl stays
  · intro s c st w g k j m i15 o18 i10 hst h
    simp only [List.forall_mem_cons, List.not_mem_nil, false_implies, implies_true, and_true]
    exact ⟨control_held hst h exec_lpSetImm, control_held hst h exec_lpSetReg, control_held hst h exec_lpEnd, control_held hst h exec_eJ,
      control_held hst h exec_eBnz, control_held hst h exec_nLi, control_held hst h exec_nAdd, control_held hst h exec_eNop⟩

end Sys2Proof.Machine
end

section
/-! Traps of an undecodable word (O8): what a left wait keeps of its core, the entry on the C strand, and an engine strand that stops. -/

namespace Sys2Proof.Machine

/-! ### A wait that is left (R284) -/

/-- The lines that a waiting C strand stands in, left. -/
theorem abandonWaits_csr (c : CoreId) (s : State) : ((abandonWaits c s).core c).csr = (s.core c).csr := by
  have lines (ds : List CoreId) (s : State) : ((ds.foldl (fun (s : State) d => s.updCore d (fun k : Core =>
      { k with sems := k.sems.map (fun m : Sem => { m with waiters := m.waiters.filter (fun w => w.1 != c) }) })) s).core c).csr =
      (s.core c).csr := by
    induction ds generalizing s with
    | nil => rfl
    | cons d ds ih =>
      rw [List.foldl_cons, ih]
      by_cases hd : c = d
      · rw [← hd, State.core_updCore_self]
      · rw [State.core_updCore_ne _ _ _ _ hd]
  unfold abandonWaits
  rw [State.core_updCore_self]
  dsimp only
  split
  · exact lines _ s
  · exact lines _ s

theorem leaveWait_csr (c : CoreId) (s : State) : ((leaveWait c s).core c).csr = (s.core c).csr := by
  unfold leaveWait
  split
  · exact abandonWaits_csr c s
  · rfl

theorem leaveWait_not_waiting {c : CoreId} {s : State} (h : (s.core c).st.c ≠ .waiting) : leaveWait c s = s := if_neg h

/-! ### Entry on the C strand (R256) -/

/-- A precise trap that is no watchpoint's and is delivered is an entry, from the state that the wait was left in. -/
theorem trapC_delivered {c : CoreId} {code sub : Nat} (tval : Word) {s : State} (hcode : code ≠ cWATCH) (h : (s.core c).csr.inHandler = false)
    (hv : (s.core c).csr.hasVector = true) : trapC c code sub tval s =
      (leaveWait c s).updCore c (fun k => enterTrap (dropExempt .C k) none (causeWord false 0 code sub) tval) := by
  have hcsr : (((leaveWait c s).updCore c (dropExempt .C)).core c).csr = (s.core c).csr := by
    rw [State.core_updCore_self]
    exact leaveWait_csr c s
  unfold trapC
  simp only [if_neg hcode]
  rw [takeTrap_delivered _ _ _ _ _ (hcsr ▸ h) (hcsr ▸ hv), State.updCore_updCore]

/-! ### A boundary trap of an engine strand (R350, R353, R355) -/

/-- A core one of whose engine strands has stopped for a trap, which waits unless one of its source waits already. -/
def stoppedFor (st : Strand) (q : ATrap) (k : Core) : Core :=
  { dropExempt st k with
    st := k.st.set st .stoppedTrap, gwait := k.gwait.filter (fun g => g.st != st), arr := k.arr.set st none,
    atraps := k.atraps ++ if k.atraps.any (fun p => p.src == q.src) then [] else [q] }

theorem trapEng_core {c : CoreId} {st : Strand} {code sub : Nat} {tval : Word} {s : State} (hcode : code ≠ cWATCH) :
    (trapEng c st code sub tval s).core c =
      stoppedFor st { cause := causeWord true (strandNo st) code sub, tval := tval, src := .strand st } (s.core c) := by
  have hpc (k : Core) : strandPc { k with st := k.st.set st .stoppedTrap, gwait := k.gwait.filter (fun g => g.st != st),
                                          arr := k.arr.set st none } st = strandPc k st := by cases st <;> rfl
  unfold trapEng queueTrap stoppedFor dropExempt
  simp only [if_neg hcode, State.core_updCore_self, hpc]
  split
  · simp only [State.core_updCore_self, List.append_nil]
  · simp only [State.core_updCore_self]

/-- What a strand that stops for a trap leaves of its core beside its own state. -/
theorem stoppedFor_keeps (st : Strand) (q : ATrap) (k : Core) :
    let k' := stoppedFor st q k
    k'.st.get st = .stoppedTrap ∧ KeepsX k k' ∧ k'.seq = k.seq ∧ k'.csr = k.csr ∧ k'.tok = k.tok ∧ k'.arr.get st = none :=
  ⟨Four.get_set_self _ _ _, fun _ => ⟨rfl, rfl⟩, rfl, rfl, rfl, Four.get_set_self _ _ _⟩

/-! ### The statement (O8) -/

section Word
variable {s : State} {c : CoreId} {w : Word32}

theorem exec_illegalWord_C (h : mayIssue s c .C = true) :
    exec (.illegalInstructionWord c .C w) s = .next (trapC c cILLEGAL 0 (w.setWidth 64) s) :=
  (rfl : exec _ s = execIllegalInstructionWord c .C w s).trans (if_neg (by simp [h]))

theorem exec_illegalWord_engine {st : Strand} (hst : st ≠ .C) (h : mayIssue s c st = true) :
    exec (.illegalInstructionWord c st w) s = .next (trapEng c st cILLEGAL 0 (w.setWidth 64) s) := by
  refine (rfl : exec _ s = execIllegalInstructionWord c st w s).trans ((if_neg (by simp [h])).trans ?_)
  cases st with
  | C => exact absurd rfl hst
  | L => rfl
  | X => rfl
  | S => rfl

end Word

/-- Settles O8: on the C strand the word's trap is an entry from the state that its wait was left in; an engine strand stops, and its entry
joins the queue unless one of it waits. -/
theorem trapEntry : Obligations.TrapEntry := by
  unfold Obligations.TrapEntry
  refine ⟨?_, ?_⟩
  · intro s c w hmay hh hv
    have hcode : cILLEGAL ≠ cWATCH := by decide
    refine ⟨_, exec_illegalWord_C hmay, ?_⟩
    rw [trapC_delivered _ hcode hh hv]
    have honly := updCore_only c (fun k => enterTrap (dropExempt .C k) none (causeWord false 0 cILLEGAL 0) (w.setWidth 64)) (leaveWait c s)
    refine ⟨honly, fun hwait => ?_, ?_⟩
    · rw [leaveWait_not_waiting hwait] at honly ⊢
      exact honly
    · rw [State.core_updCore_self]
      exact ⟨rfl, rfl, rfl, rfl, rfl, rfl, rfl, rfl, rfl, rfl, rfl, rfl, rfl, rfl⟩
  · intro s c st w hst hmay
    obtain ⟨hstop, hx, hseq, hcsr, htok, harr⟩ :=
      stoppedFor_keeps st { cause := causeWord true (strandNo st) cILLEGAL 0, tval := w.setWidth 64, src := .strand st } (s.core c)
    refine ⟨_, exec_illegalWord_engine hst hmay, trapEng_only c st _ _ _ s, ?_⟩
    rw [trapEng_core (by decide)]
    refine ⟨hstop, ?_, hx, hseq, hcsr, htok, harr⟩
    cases st <;> rfl

end Sys2Proof.Machine
end

section
/-! Memory stays in canonical form (O5): jobs, their records and their ends. -/

namespace Sys2Proof.Machine

/-! ### What keeps the canonical form -/

/-- The canonical form is a property of stored bytes and side bands alone, and every write of either keeps it. -/
theorem canonical_rows (st : Strand) : RowClosed st CanonicalMemory where
  free _ _ h _ hm hs := canonical_of_eq hm hs h
  core _ _ _ h _ := h
  store _ a bs h := ⟨putBytes_wf h.1 a bs, h.2⟩
  band _ _ _ h := ⟨h.1, mapSet_wf h.2 (Nat.zero_le _)⟩

/-- The state that a row leaves is canonical. -/
def NextCanonical (o : Out) : Prop := ∀ t, o = .next t → CanonicalMemory t

theorem nextCanonical {s : State} (h : CanonicalMemory s) : NextCanonical (.next s) := by
  rintro _ ⟨⟩
  exact h

theorem nextCanonical_ite {p : Prop} [Decidable p] {a b : Out} (ha : NextCanonical a) (hb : NextCanonical b) :
    NextCanonical (if p then a else b) := by
  split
  · exact ha
  · exact hb

/-- The state beside an answer is canonical, whatever the answer. -/
theorem Keeps.of_eq {I : State → Prop} {α : Type} {m : SM α} (hm : Keeps I m) {s t : State} {a : α} (h : I s) (e : m s = (a, t)) : I t := by
  have h1 := hm s h
  rw [e] at h1
  exact h1

theorem canonical_foldl {α : Type} {f : State → α → State} (hf : ∀ s a, CanonicalMemory s → CanonicalMemory (f s a)) (l : List α) (s : State)
    (h : CanonicalMemory s) : CanonicalMemory (l.foldl f s) := RowClosed.foldl hf l s h

theorem canonical_raiseCause (kind : Nat) (p : PartId) (vd j q d : Nat) {s : State} (h : CanonicalMemory s) :
    CanonicalMemory (raiseCause kind p vd j q d s) := (canonical_rows .C).raiseCause _ _ _ _ _ _ s h

theorem canonical_emit (cls : Nat) (m : OutMsg) : Keeps CanonicalMemory (emit cls m) := (canonical_rows .C).emit cls m

theorem canonical_ite {p : Prop} [Decidable p] {s t : State} (hs : CanonicalMemory s) (ht : CanonicalMemory t) :
    CanonicalMemory (if p then s else t) := by
  split
  · exact hs
  · exact ht

/-! ### Reports, records and the end of a job (R18, R332, R337, R339) -/

theorem canonical_reportTo (q : Queue) (id : JobId) (rply : Word) (state status : Nat) {s : State} (h : CanonicalMemory s) :
    CanonicalMemory (reportTo q id rply state status s) := by
  have sent := fun m => canonical_emit 1 m s h
  exact canonical_ite (canonical_ite (canonical_raiseCause _ _ _ _ _ _ (sent _)) (sent _)) h

theorem canonical_report (j : Job) (state status : Nat) {s : State} (h : CanonicalMemory s) : CanonicalMemory (report j state status s) :=
  canonical_reportTo _ _ _ _ _ h

theorem canonical_writeRecord (j : Job) (fate status : Nat) {s : State} (h : CanonicalMemory s) :
    CanonicalMemory (writeRecord j fate status s) := by
  have written : CanonicalMemory (if j.hdr.crec = 0 then s
      else match writeVirt j.who j.hdr.crec.toNat (recordBytes j fate status s.time) 0 s with
        | (.error f, s1) => raiseCause 2 j.pid j.vd.toNat j.id.toNat j.queue.toNat (f.1.stage * 16 + f.1.kind) s1
        | (.ok _, s1) => s1) := by
    refine canonical_ite h ?_
    split
    · next e => exact canonical_raiseCause _ _ _ _ _ _ ((canonical_writeVirt _ _ _ _).of_eq h e)
    · next e => exact (canonical_writeVirt _ _ _ _).of_eq h e
  exact canonical_ite (canonical_raiseCause _ _ _ _ _ _ written) written

theorem canonical_endJob (j : Job) (fate status : Nat) {s : State} (h : CanonicalMemory s) : CanonicalMemory (endJob j fate status s) :=
  canonical_of_eq (s := report j (if fate = 2 then 3 else 2) status (writeRecord j fate status s)) rfl rfl
    (canonical_report _ _ _ (canonical_writeRecord _ _ _ h))

theorem canonical_haltQueue (q : Queue) (code : Nat) {s : State} (h : CanonicalMemory s) : CanonicalMemory (haltQueue q code s) :=
  canonical_raiseCause _ _ _ _ _ _ h

/-! ### Packets (R335, R338, R339) -/

theorem keeps_readPacket (q : Queue) : Keeps CanonicalMemory (readPacket q) := by
  intro s h
  have read := keeps_readVirt closed_canonical (queueWho q)
  unfold readPacket
  split
  · next e => exact (read _ _).of_eq h e
  · next e =>
    have h1 := (read _ _).of_eq h e
    dsimp only
    split
    · exact h1
    · split
      · next e => exact (read _ _).of_eq h1 e
      · next e => exact (read _ _).of_eq h1 e

theorem canonical_takeIn (id : JobId) (x : Slotted) {s : State} (h : CanonicalMemory s) : CanonicalMemory (takeIn id x s) :=
  canonical_report _ _ _ h

theorem canonical_fetchPacket (k : Queue) {s : State} (h : CanonicalMemory s) : CanonicalMemory (fetchPacket k s) := by
  unfold fetchPacket
  split
  · next e => exact canonical_ite ((keeps_readPacket k).of_eq h e) (canonical_haltQueue _ _ ((keeps_readPacket k).of_eq h e))
  · next g pro s1 e =>
    have h1 := (keeps_readPacket k).of_eq h e
    refine canonical_ite h1 ?_
    have h2 := (canonical_rows .C).packetCode (queueWho k) (s1.part k.pid) g.bytes pro s1 h1
    generalize packetCode (queueWho k) (s1.part k.pid) g.bytes pro s1 = r at h2
    obtain ⟨code, s2⟩ := r
    refine canonical_ite (canonical_haltQueue _ _ (canonical_reportTo _ _ _ _ _ h2)) ?_
    dsimp only
    split
    · exact canonical_takeIn _ _ h2
    · exact h2

theorem canonical_packetFetch (q : QueueId) {s : State} (h : CanonicalMemory s) : NextCanonical (execPacketFetch q s) := by
  unfold execPacketFetch
  dsimp only
  split
  · exact nextCanonical (canonical_takeIn _ _ h)
  · exact nextCanonical_ite (nextCanonical h) (nextCanonical (canonical_fetchPacket _ h))

/-! ### Clusters and gangs (R131, R212, R213, R340) -/

theorem canonical_writebacks (ls : List Line) {s : State} (h : CanonicalMemory s) :
    CanonicalMemory (ls.foldl (fun (s : State) l => (writeback l s).dropLine l.sector) s) :=
  canonical_foldl (f := fun s l => (writeback l s).dropLine l.sector) (fun s l hs => canonical_writeback l s hs) ls s h

theorem canonical_flushStash (cl : ClusterId) {s : State} (h : CanonicalMemory s) : CanonicalMemory (flushStash cl s) := canonical_writebacks _ h

theorem canonical_freeClusters (j : Job) {s : State} (h : CanonicalMemory s) : CanonicalMemory (freeClusters j s) := by
  refine canonical_foldl (fun s cl hs => ?_) _ s h
  refine canonical_foldl (fun _ _ hu => ?_) _ _ (canonical_flushStash cl hs)
  exact hu

theorem canonical_freeArea (j : Job) {s : State} (h : CanonicalMemory s) : CanonicalMemory (freeArea j s) := by
  unfold freeArea
  split <;> exact h

/-! ### Steps that end with an answer or a cause -/

/-- A step that may end early keeps a property, whether it ends or goes on. -/
def KeepsE (I : State → Prop) {ε α : Type} (m : ExceptT ε SM α) : Prop := Keeps I m.run

namespace KeepsE
variable {I : State → Prop} {ε α β : Type}

theorem pure (a : α) : KeepsE I (Pure.pure a : ExceptT ε SM α) := fun _ h => h
theorem throw (e : ε) : KeepsE I (throw e : ExceptT ε SM α) := fun _ h => h

/-- A plain state step inside. -/
theorem step {m : SM α} (hm : Keeps I m) : KeepsE I (ExceptT.mk (do return .ok (← m)) : ExceptT ε SM α) := fun s h => hm s h

theorem bind {m : ExceptT ε SM α} {f : α → ExceptT ε SM β} (hm : KeepsE I m) (hf : ∀ a, KeepsE I (f a)) : KeepsE I (m >>= f) := by
  show Keeps I (m.run >>= ExceptT.bindCont f)
  refine keeps_bind hm fun r => ?_
  cases r with
  | ok a => exact hf a
  | error e => exact keeps_pure _

theorem ite {p : Prop} [Decidable p] {m n : ExceptT ε SM α} (hm : KeepsE I m) (hn : KeepsE I n) : KeepsE I (if p then m else n) := by
  split
  · exact hm
  · exact hn

theorem forM {l : List α} {f : α → ExceptT ε SM PUnit} (hf : ∀ a, KeepsE I (f a)) : KeepsE I (l.forM f) := by
  induction l with
  | nil => exact pure _
  | cons a l ih => exact (hf a).bind fun _ => ih

theorem mapM {l : List α} {f : α → ExceptT ε SM β} (hf : ∀ a, KeepsE I (f a)) : KeepsE I (l.mapM f) := by
  induction l with
  | nil => exact fun _ h => h
  | cons a l ih =>
    rw [List.mapM_cons]
    exact (hf a).bind fun _ => ih.bind fun _ => pure _

theorem foldlM {f : β → α → ExceptT ε SM β} (hf : ∀ b a, KeepsE I (f b a)) (l : List α) (b : β) : KeepsE I (l.foldlM f b) := by
  induction l generalizing b with
  | nil => exact pure _
  | cons a l ih =>
    rw [List.foldlM_cons]
    exact (hf b a).bind fun _ => ih _

end KeepsE

/-! ### Splices and repairs (R285 to R303) -/

theorem canonical_rPut (r : Rep) (va : Nat) (bs : List Byte) (l : Label) : KeepsE CanonicalMemory (rPut r va bs l) :=
  (canonical_rows .C).rPut r va bs l

theorem canonical_rGet (r : Rep) (va n : Nat) : KeepsE CanonicalMemory (rGet r va n) := (canonical_rows .C).rGet r va n

theorem canonical_rReEnt (r : Rep) (b : RepBlk) (f : REnt → REnt) : KeepsE CanonicalMemory (rReEnt r b f) := (canonical_rows .C).rReEnt r b f

theorem canonical_updRep (k : Nat) (f : Rep → Rep) : KeepsE CanonicalMemory (rStep (modify (updRep k f)) : RM PUnit) :=
  .step (keeps_modify fun _ h => h)

theorem canonical_repNow (k : Nat) : KeepsE CanonicalMemory (repNow k) := RowClosed.repNow k

theorem canonical_failRep (k : Nat) (code : Byte) {s : State} (h : CanonicalMemory s) : CanonicalMemory (failRep k code s) :=
  (canonical_rows .C).failRep k code s h

theorem canonical_runRep (k : Nat) {m : RM Unit} (hm : KeepsE CanonicalMemory m) {s : State} (h : CanonicalMemory s) :
    CanonicalMemory (runRep k m s) := (canonical_rows .C).runRep k m hm s h

theorem canonical_pullRegion (r : Rep) (va n : Nat) {s : State} (h : CanonicalMemory s) : CanonicalMemory (pullRegion r va n s) := by
  refine canonical_foldl (fun s vp hs => ?_) _ s h
  have page := keeps_onePage closed_canonical (repWho r) vp .read
  split
  · next e => exact page.of_eq hs e
  · next e => exact canonical_foldl (fun s q hu => closed_claim closed_canonical none q.sector s hu) _ _ (page.of_eq hs e)

theorem canonical_installGuards (r : Rep) {s : State} (h : CanonicalMemory s) : CanonicalMemory (installGuards r s) := by
  refine canonical_foldl (fun s b hs => ?_) _ s h
  exact canonical_foldl (fun s i hu => canonical_pullRegion _ _ _ hu) _ s hs

/-- A fold that carries an answer beside the state. -/
theorem canonical_foldlPair {α β : Type} {f : β × State → α → β × State} (hf : ∀ a x, CanonicalMemory a.2 → CanonicalMemory (f a x).2)
    (l : List α) (a : β × State) (h : CanonicalMemory a.2) : CanonicalMemory (l.foldl f a).2 := by
  induction l generalizing a with
  | nil => exact h
  | cons x l ih => exact ih _ (hf a x h)

theorem keeps_guardPages (r : Rep) : Keeps CanonicalMemory (guardPages r) := by
  intro s h
  refine canonical_foldlPair (fun a vp ha => ?_) _ ([], s) h
  have page := keeps_onePage closed_canonical (repWho r) vp .read
  split
  · next e => exact page.of_eq ha e
  · next e => exact page.of_eq ha e

theorem canonical_guardNow (k : Nat) : KeepsE CanonicalMemory (guardNow k) :=
  .bind (canonical_repNow k) fun r => .bind (.step fun _ h => keeps_guardPages r _ (canonical_installGuards r h)) fun _ => canonical_updRep _ _

theorem canonical_issueItems (k fuel : Nat) : KeepsE CanonicalMemory (issueItems k fuel) := by
  induction fuel with
  | zero => exact .pure _
  | succ n ih =>
    refine .bind (canonical_repNow k) fun r => ?_
    split
    · exact .pure _
    · exact .ite (.pure _) (.bind (canonical_rPut _ _ _ _) fun _ => .bind (canonical_updRep _ _) fun _ => ih)

theorem canonical_checkBlock (r : Rep) (q : Nat) (b : RepBlk) : KeepsE CanonicalMemory (checkBlock r q b) := by
  refine .foldlM (fun mask j => .bind (.foldlM (fun _ _ => .bind (canonical_rGet _ _ _) fun _ => .bind (canonical_rGet _ _ _) fun _ => .pure _) _ _)
    fun a => ?_) _ _
  exact .ite (.bind (.forM fun _ => .bind (canonical_rGet _ _ _) fun _ => canonical_rPut _ _ _ _) fun _ => .pure _) (.pure _)

theorem canonical_rLevel (k : Nat) (b : RepBlk) (lvl : Nat) (pend : Bool) : KeepsE CanonicalMemory (rLevel k b lvl pend) :=
  .bind (canonical_repNow k) fun _ => .bind (canonical_rReEnt _ _ _) fun _ => canonical_updRep _ _

theorem canonical_levelAll (k l : Nat) (pend : Bool) : KeepsE CanonicalMemory (levelAll k l pend) :=
  .bind (canonical_repNow k) fun _ => .forM fun _ => canonical_rLevel _ _ _ _

theorem canonical_levelAfterCheck (k : Nat) : KeepsE CanonicalMemory (levelAfterCheck k) :=
  .bind (canonical_repNow k) fun _ => .forM fun _ => .ite (canonical_rLevel _ _ _ _) (canonical_rLevel _ _ _ _)

theorem canonical_rMove (k : Nat) (f : Rep → Rep) : KeepsE CanonicalMemory (rMove k f) :=
  .bind (canonical_updRep _ _) fun _ => .bind (canonical_repNow k) fun _ => canonical_rPut _ _ _ _

theorem canonical_startRounds (k fuel l : Nat) : KeepsE CanonicalMemory (startRounds k fuel l) := by
  induction fuel generalizing l with
  | zero => exact .pure _
  | succ n ih =>
    refine .bind (canonical_repNow k) fun r => .ite (.bind (canonical_levelAll _ _ _) fun _ => canonical_rMove _ _) ?_
    split
    · exact .bind (canonical_levelAll _ _ _) fun _ => ih _
    · exact .bind (canonical_rMove _ _) fun _ => canonical_issueItems _ _

theorem canonical_advanceRep (k : Nat) : KeepsE CanonicalMemory (advanceRep k) := by
  refine .bind (canonical_repNow k) fun r => ?_
  split
  · exact .bind (.foldlM (fun _ _ => .bind (canonical_checkBlock _ _ _) fun _ => .pure _) _ _) fun _ => .bind (canonical_updRep _ _) fun _ =>
      .bind (canonical_levelAfterCheck k) fun _ => canonical_startRounds _ _ _
  · exact .bind (canonical_levelAll _ _ _) fun _ => canonical_startRounds _ _ _
  · exact .pure _

theorem canonical_settleRep (k : Nat) : KeepsE CanonicalMemory (settleRep k) :=
  .bind (canonical_repNow k) fun _ => .bind (canonical_issueItems _ _) fun _ => .bind (canonical_repNow k) fun _ =>
    .ite (canonical_advanceRep k) (.pure _)

theorem canonical_writeSplice (k i : Nat) (tail : List REnt) : KeepsE CanonicalMemory (writeSplice k i tail) :=
  .bind (canonical_repNow k) fun _ => .bind (.forM fun _ => canonical_rPut _ _ _ _) fun _ => .bind (canonical_rPut _ _ _ _) fun _ =>
    .bind (canonical_guardNow k) fun _ => canonical_rPut _ _ _ _

theorem canonical_startCheck (k : Nat) (again : Bool) : KeepsE CanonicalMemory (startCheck k again) := by
  have rest : KeepsE CanonicalMemory (do guardNow k; rPutDesc (← repNow k); settleRep k : RM Unit) :=
    .bind (canonical_guardNow k) fun _ => .bind (canonical_repNow k) fun _ => .bind (canonical_rPut _ _ _ _) fun _ => canonical_settleRep k
  exact .ite (.bind (canonical_levelAll _ _ _) fun _ => rest) rest

theorem canonical_itemBack (k slot : Nat) (it : RepItem) : KeepsE CanonicalMemory (itemBack k slot it) := by
  refine .bind (canonical_repNow k) fun r => .bind (canonical_rGet _ _ _) fun g => .ite (.pure _) (.bind (canonical_updRep _ _) fun _ =>
    .ite (.throw _) ?_)
  split
  · exact canonical_settleRep k
  · exact canonical_settleRep k
  · exact .pure _

/-! The commands (R290, R295, R413). -/

theorem canonical_qNeed (b : Bool) (v : Word) : KeepsE CanonicalMemory (qNeed b v) := .ite (.pure _) (.throw _)

theorem canonical_qPoison {α : Type} (c : CoreId) : KeepsE CanonicalMemory (qPoison c : QM α) :=
  .bind (.step (keeps_modify ((canonical_rows .C).killJobOf c))) fun _ => .throw _

theorem canonical_qPages (w : Who) (c : CoreId) (ts : List Touch) : KeepsE CanonicalMemory (qPages w c ts) := by
  refine .bind (.step (keeps_translateRuns closed_canonical w ts)) fun r => ?_
  split
  · exact .pure _
  · exact .ite (canonical_qPoison c) (.throw _)

theorem canonical_qRead (w : Who) (c : CoreId) (pages : List Page) (va n : Nat) : KeepsE CanonicalMemory (qRead w c pages va n) :=
  .bind (.step (keeps_readPieces closed_canonical _ _)) fun _ => .ite (canonical_qPoison c) (.pure _)

theorem canonical_qTable (r : Rep) (pages : List Page) : KeepsE CanonicalMemory (qTable r pages) :=
  .bind (.mapM fun _ => .bind (canonical_qRead _ _ _ _ _) fun _ => .pure _) fun _ => .bind (canonical_qNeed _ _) fun _ => .pure _

/-- A context's transition, then what the engine does with it. -/
theorem canonical_accepted (k : Nat) (r : Rep) {m : RM Unit} (hm : KeepsE CanonicalMemory m) :
    KeepsE CanonicalMemory (do qStep (acceptRep k r); qStep (modify (runRep k m)) : QM Unit) :=
  .bind (.step (keeps_modify fun _ h => h)) fun _ => .step (keeps_modify fun _ h => canonical_runRep k hm h)

theorem canonical_serveSplice (q : RepCmd) (id : Ident) : KeepsE CanonicalMemory (serveSplice q id) := by
  refine .bind (.step keeps_get) fun s => ?_
  have busy : ∀ st : RepSt, KeepsE CanonicalMemory (match st with
      | .check | .repair => qEnd 1
      | .error => qEnd 6
      | _ => pure () : QM Unit) := by
    intro st
    cases st
    case check | repair | error => exact .throw _
    all_goals exact .pure _
  refine .bind ?_ fun _ => .bind (canonical_qPages _ _ _) fun _ => .bind (canonical_qRead _ _ _ _ _) fun _ => .bind (canonical_qNeed _ _) fun _ =>
    .bind (busy _) fun _ => .bind (canonical_qPages _ _ _) fun _ => .bind (canonical_qTable _ _) fun _ => .bind (canonical_qNeed _ _) fun _ => ?_
  · cases (meet id q.ctx s).known with
    | none => exact .pure _
    | some r => exact busy r.st
  · dsimp only
    split
    · exact .throw _
    · exact .bind (canonical_qPages _ _ _) fun _ => canonical_accepted _ _ (canonical_writeSplice _ _ _)

theorem canonical_goDesc (q : RepCmd) (id : Ident) (m : Met) : KeepsE CanonicalMemory (goDesc q id m) := by
  refine .bind (.step (keeps_translate closed_canonical _ _ _ _)) fun r => ?_
  split
  · exact .bind (canonical_qRead _ _ _ _ _) fun _ => .pure _
  · refine .ite (canonical_qPoison _) ?_
    split <;> exact .throw _

theorem canonical_serveGo (q : RepCmd) (id : Ident) : KeepsE CanonicalMemory (serveGo q id) := by
  refine .bind (.step keeps_get) fun s => .bind (canonical_goDesc _ _ _) fun d => .bind (canonical_qNeed _ _) fun _ => ?_
  dsimp only
  split
  · exact .throw _
  · exact .throw _
  · exact .throw _
  · have started := fun k r again => canonical_accepted k r (canonical_startCheck k again)
    exact .bind (canonical_qPages _ _ _) fun _ => .bind (canonical_qTable _ _) fun _ =>
      .ite (.bind (canonical_qPages _ _ _) fun _ => started _ _ _) (started _ _ _)

theorem canonical_serveRep (splice : Bool) (k : Nat) {s : State} (h : CanonicalMemory s) : CanonicalMemory (serveRep splice k s) := by
  unfold serveRep
  split
  · exact h
  · next q _ =>
    refine canonical_ite h ?_
    have served : Keeps CanonicalMemory ((if q.splice then serveSplice else serveGo) q (s.core q.core).id).run := by
      split
      · exact canonical_serveSplice _ _
      · exact canonical_serveGo _ _
    have h1 := served s h
    generalize ((if q.splice then serveSplice else serveGo) q (s.core q.core).id).run s = r at h1
    obtain ⟨r, s1⟩ := r
    dsimp only
    split <;> exact h1

theorem canonical_workItemReturn (k slot : Nat) {s : State} (h : CanonicalMemory s) : NextCanonical (execWorkItemReturn k slot s) := by
  unfold execWorkItemReturn
  split
  · exact nextCanonical h
  · exact nextCanonical (canonical_runRep _ (canonical_itemBack _ _ _) h)

theorem canonical_repairKill (j : JobId) {s : State} (h : CanonicalMemory s) : CanonicalMemory (repairKill j s) := by
  refine canonical_of_eq (t := repairKill j s) rfl rfl (canonical_foldl (fun s k hs => ?_) (List.range s.reps.length) s h)
  exact canonical_ite (canonical_failRep _ _ hs) hs

end Sys2Proof.Machine
end

section
/-! Memory stays in canonical form (O5): collectives, and the end of a job. -/

namespace Sys2Proof.Machine

/-! ### Steps of the collective engine (R317 to R328) -/

theorem canonical_cJoin (p : Coll) (ls : List Label) : KeepsE CanonicalMemory (cJoin p ls) := .step (keeps_joinAll closed_canonical _ _ _)

theorem canonical_cPoison {α : Type} (p : Coll) : KeepsE CanonicalMemory (cPoison p : CM α) :=
  .bind (.step (keeps_modify fun _ h => h)) fun _ => .throw _

theorem canonical_cFault {α : Type} (p : Coll) (f : PFault) : KeepsE CanonicalMemory (cFault p f : CM α) :=
  .ite (canonical_cPoison p) (.throw _)

theorem canonical_cReadPieces (p : Coll) (ps : List Piece) : KeepsE CanonicalMemory (cReadPieces p ps) :=
  .foldlM (fun _ _ => .bind (.step (keeps_readPieces closed_canonical _ _)) fun _ => .ite (canonical_cPoison p) (.pure _)) _ _

theorem canonical_cGet (p : Coll) (va n : Nat) : KeepsE CanonicalMemory (cGet p va n) := by
  refine .bind (.step (keeps_translate closed_canonical _ _ _ _)) fun r => ?_
  split
  · exact canonical_cFault p _
  · exact canonical_cReadPieces p _

theorem canonical_relDeny (c : CoreId) (v : Word) {s : State} (h : CanonicalMemory s) : CanonicalMemory (relDeny c v s) :=
  (canonical_rows .C).relDeny c v s h

theorem canonical_cWritePieces (p : Coll) (ps : List Piece) (d : CBytes) : KeepsE CanonicalMemory (cWritePieces p ps d) := by
  refine .bind (.foldlM (fun r q => .bind (canonical_cJoin p _) fun l =>
    .bind (.step (keeps_writePiece closed_canonical p.who q _ l (.inr fun _ _ h => h))) fun w => ?_) _ _) fun _ => .pure _
  split
  · exact .bind (.step (keeps_modify fun _ h => canonical_ite (canonical_relDeny _ _ h) h)) fun _ => .pure _
  · exact .bind (canonical_cPoison p) fun _ => .pure _
  · exact .pure _

theorem canonical_cPut (p : Coll) (va : Nat) (d : CBytes) : KeepsE CanonicalMemory (cPut p va d) := by
  refine .bind (.step (keeps_translate closed_canonical _ _ _ _)) fun r => ?_
  split
  · exact canonical_cFault p _
  · exact canonical_cWritePieces p _ d

theorem canonical_fieldLbls (p : Coll) (size n : Nat) (g : CBytes) : KeepsE CanonicalMemory (fieldLbls p size n g) :=
  .mapM fun _ => canonical_cJoin p _

theorem canonical_cJoinZip (p : Coll) (a b : List Label) : KeepsE CanonicalMemory (cJoinZip p a b) := .mapM fun _ => canonical_cJoin p _

theorem canonical_time : KeepsE CanonicalMemory (cStep get : CM State) := .step keeps_get

theorem canonical_cElems (p : Coll) (k c : Nat) : KeepsE CanonicalMemory (cElems p k c) :=
  .bind (canonical_cGet _ _ _) fun _ => .bind (canonical_fieldLbls _ _ _ _) fun _ => .pure _

theorem canonical_contributions (p : Coll) (k c : Nat) : KeepsE CanonicalMemory (contributions p k c) :=
  .bind (canonical_cElems p k c) fun _ => .ite (.pure _) (.bind (canonical_cGet _ _ _) fun _ => .bind (canonical_fieldLbls _ _ _ _) fun _ =>
    .bind (canonical_cJoinZip _ _ _) fun _ => .pure _)

theorem canonical_storedWords (p : Coll) (c : Nat) : KeepsE CanonicalMemory (storedWords p c) :=
  .bind (canonical_cGet _ _ _) fun _ => .bind (canonical_fieldLbls _ _ _ _) fun _ => .pure _

theorem canonical_wordsVal (p : Coll) (b : Bool) (cs : List FVal) (ls : List Label) : KeepsE CanonicalMemory (wordsVal p b cs ls) :=
  .bind (.mapM fun _ => canonical_cJoin p _) fun _ => .pure _

theorem canonical_plainValue (p : Coll) (k c : Nat) : KeepsE CanonicalMemory (plainValue p k c) :=
  .ite (.bind (canonical_storedWords p c) fun _ => .pure _)
    (.bind (canonical_cElems p k c) fun _ => .ite (.pure _) (canonical_wordsVal _ _ _ _))

theorem canonical_partialValue (p : Coll) (k c : Nat) : KeepsE CanonicalMemory (partialValue p k c) :=
  .ite (.bind (canonical_cElems p k c) fun _ => .pure _)
    (.bind (canonical_contributions p k c) fun _ => .ite (.bind (canonical_wordsVal _ _ _ _) fun _ => .pure _)
      (.bind (canonical_storedWords p c) fun _ => .bind (.mapM fun _ => canonical_cJoin p _) fun _ =>
        .ite (.pure _) (.bind (canonical_cPut _ _ _) fun _ => .pure _)))

theorem canonical_ownValue (p : Coll) (k c : Nat) (red : Bool) : KeepsE CanonicalMemory (ownValue p k c red) :=
  .ite (canonical_partialValue p k c) (.bind (canonical_plainValue p k c) fun _ => .pure _)

theorem canonical_plusVal (p : Coll) (a b : CVal) : KeepsE CanonicalMemory (plusVal p a b) := .bind (canonical_cJoinZip _ _ _) fun _ => .pure _

theorem canonical_recvValue (p : Coll) (w : Word) (m : CollMsg) : KeepsE CanonicalMemory (recvValue p w m) :=
  .ite (.throw _) (.bind (.bind canonical_time fun _ => .pure _) fun _ =>
    .ite (.bind (canonical_ownValue _ _ _ _) fun _ => .ite (canonical_plusVal _ _ _) (.throw _)) (.pure _))

theorem canonical_storeVal (p : Coll) (db c : Nat) (v : CVal) : KeepsE CanonicalMemory (storeVal p db c v) :=
  .ite (.bind (canonical_cPut _ _ _) fun _ => .pure _) (.bind (canonical_cPut _ _ _) fun _ => .pure _)

theorem canonical_cSend (p : Coll) (d : BitVec 7) (v : CVal) (codes : Option (List Word)) : KeepsE CanonicalMemory (cSend p d v codes) :=
  .bind (.mapM fun _ => canonical_cJoin p _) fun _ => .bind canonical_time fun _ =>
    .ite (.bind (.step (canonical_emit _ _)) fun _ => .pure _)
      (.bind (.step (keeps_freePort closed_canonical _)) fun _ => .bind (.step (keeps_modify fun _ h => h)) fun _ => .throw _)

theorem canonical_takeChunk (p : Coll) (n v : Nat) : KeepsE CanonicalMemory (takeChunk p n v) := by
  refine keeps_getBind fun s h => ?_
  cases s.job? p.job with
  | none => exact h
  | some j =>
    dsimp only
    split
    · exact h
    · split <;> exact h

theorem canonical_makeReady (p : Coll) (k c : Nat) : KeepsE CanonicalMemory (makeReady p k c) :=
  .ite (.pure _) (.ite (.bind (canonical_takeChunk _ _ _) fun _ => .pure _) (.bind (.pure _) fun _ => .pure _))

theorem canonical_collCause (n : Nat) (cause : Byte) (silent : BitVec 7) {s : State} (h : CanonicalMemory s) :
    CanonicalMemory (collCause n cause silent s) := (canonical_rows .C).collCause n cause silent s h

theorem canonical_collEndAll (j : JobId) (cause : Byte) {s : State} (h : CanonicalMemory s) : CanonicalMemory (collEndAll j cause s) := by
  refine canonical_foldl (fun s n hs => ?_) _ s h
  split
  · exact canonical_ite (canonical_collCause _ _ _ hs) hs
  · exact hs

theorem canonical_runColl (n : Nat) {m : Coll → CM (Option Coll)} (hm : ∀ p, KeepsE CanonicalMemory (m p)) {s : State} (h : CanonicalMemory s) :
    CanonicalMemory (runColl n m s) := by
  unfold runColl
  split
  · exact h
  · next p _ =>
    have h1 := hm p s h
    refine canonical_ite h ?_
    split
    · next e => rw [e] at h1; exact h1
    · next e => rw [e] at h1; exact h1
    · next e => rw [e] at h1; exact canonical_collCause _ _ _ h1

theorem canonical_readyStep (n : Nat) {s : State} (h : CanonicalMemory s) : CanonicalMemory (readyStep n s) := by
  refine canonical_runColl n (fun p => ?_) h
  split
  · exact .pure _
  · exact .ite (canonical_makeReady _ _ _) (.pure _)

theorem canonical_collStep (n op : Nat) {work : Word → Coll → CM (Option Coll)} (hw : ∀ w p, KeepsE CanonicalMemory (work w p)) {s : State}
    (h : CanonicalMemory s) : NextCanonical (collStep n op work s) := by
  refine nextCanonical_ite (nextCanonical h) (nextCanonical (canonical_runColl n (fun p => ?_) (canonical_readyStep n h)))
  split
  · exact .pure _
  · exact .ite (hw _ _) (.pure _)

theorem canonical_collSend (n : Nat) {s : State} (h : CanonicalMemory s) : NextCanonical (execCollSend n s) :=
  canonical_collStep n 1 (fun _ _ => .bind (canonical_ownValue _ _ _ _) fun _ => .bind (canonical_cSend _ _ _ _) fun _ => .pure _) h

theorem canonical_collRecv (n : Nat) {s : State} (h : CanonicalMemory s) : NextCanonical (execCollRecv n s) := by
  refine canonical_collStep n 2 (fun w p => ?_) h
  split
  · exact .pure _
  · exact .bind (canonical_recvValue _ _ _) fun _ => .bind (.ite (canonical_storeVal _ _ _ _) (.pure _)) fun _ =>
      .ite (.bind (canonical_cSend _ _ _ _) fun _ => .pure _) (.bind canonical_time fun _ => .pure _)

theorem canonical_collCopy (n : Nat) {s : State} (h : CanonicalMemory s) : NextCanonical (execCollCopy n s) :=
  canonical_collStep n 3 (fun _ _ =>
    have goesOn {α : Type} (f : State → α) : KeepsE CanonicalMemory (do return f (← cStep get) : CM α) := .bind canonical_time fun _ => .pure _
    .ite (.bind (canonical_cGet _ _ _) fun _ => .bind (canonical_cPut _ _ _) fun _ => goesOn _) (goesOn _)) h

theorem canonical_collWait (n : Nat) {s : State} (h : CanonicalMemory s) : NextCanonical (execCollWait n s) :=
  canonical_collStep n 4 (fun _ _ => .bind (canonical_takeChunk _ _ _) fun _ => .ite (.bind canonical_time fun _ => .pure _) (.pure _)) h

theorem canonical_collLoop (n : Nat) {s : State} (h : CanonicalMemory s) : NextCanonical (execCollLoop n s) :=
  canonical_collStep n 5 (fun _ _ => .bind canonical_time fun _ => .ite (.pure _) (.pure _)) h

theorem canonical_commitRes (p : Coll) : KeepsE CanonicalMemory (commitRes p) := by
  refine .bind (.step (keeps_translateRuns closed_canonical _ _)) fun r => ?_
  split
  · exact canonical_cFault p _
  · exact .bind (canonical_cReadPieces p _) fun _ => canonical_cWritePieces p _ _

theorem canonical_collEnd (n : Nat) {s : State} (h : CanonicalMemory s) : NextCanonical (execCollEnd n s) :=
  canonical_collStep n 0 (fun _ _ => .ite (.pure _) (.ite (.bind canonical_time fun _ => .pure _)
    (.ite (.bind (canonical_commitRes _) fun _ => .pure _) (.pure _)))) h

theorem canonical_chunkReady (n : Nat) {s : State} (h : CanonicalMemory s) : NextCanonical (execChunkReady n s) :=
  nextCanonical_ite (nextCanonical (canonical_readyStep n h)) (nextCanonical h)

theorem canonical_collMessage (p : PartId) (m : CollMsg) {s : State} (h : CanonicalMemory s) : NextCanonical (execCollMessage p m s) := by
  have sent := fun cls o => canonical_emit cls o s h
  refine nextCanonical_ite (nextCanonical h) ?_
  dsimp only
  split
  · exact nextCanonical (sent _ _)
  · exact nextCanonical (sent _ _)

theorem canonical_collAck (n : Nat) {s : State} (h : CanonicalMemory s) : NextCanonical (execCollAck n s) :=
  nextCanonical (canonical_runColl n (fun _ => .ite (.bind canonical_time fun _ => .pure _) (.pure _)) h)

theorem canonical_abortNotice (p : PartId) (tag : BitVec 16) (rnd : BitVec 32) (silent : BitVec 7) {s : State} (h : CanonicalMemory s) :
    NextCanonical (execAbortNotice p tag rnd silent s) := by
  unfold execAbortNotice
  split
  · exact nextCanonical_ite (nextCanonical h) (nextCanonical (canonical_collCause _ _ _ h))
  · exact nextCanonical_ite (nextCanonical h) (nextCanonical h)

theorem canonical_collTimeout (n : Nat) {s : State} (h : CanonicalMemory s) : NextCanonical (execCollTimeout n s) := by
  unfold execCollTimeout
  split
  · exact nextCanonical h
  · refine nextCanonical_ite (nextCanonical h) ?_
    split
    · exact nextCanonical (canonical_collCause _ _ _ h)
    · exact nextCanonical h

/-! ### Retirement and kill (R18, R303, R326, R345) -/

theorem canonical_taskRetire (c : CoreId) {s : State} (h : CanonicalMemory s) : NextCanonical (execTaskRetire c s) := by
  unfold execTaskRetire
  dsimp only
  split
  · exact nextCanonical h
  · next j _ =>
    refine nextCanonical_ite (nextCanonical h) (nextCanonical_ite (nextCanonical h) (nextCanonical (canonical_endJob _ _ _ ?_)))
    exact canonical_freeArea j (canonical_freeClusters j (s := (s.updCore c retireTask).updJob j.id _) h)

theorem canonical_abandonJob (j : Job) (record : Bool) {s : State} (h : CanonicalMemory s) : CanonicalMemory (abandonJob j record s) := by
  have freed : CanonicalMemory (freeArea j (freeClusters j (collEndAll j.id 0x05 (repairKill j.id (repairDrop j.id s))))) :=
    canonical_freeArea j (canonical_freeClusters j (canonical_collEndAll _ _ (canonical_repairKill _ (s := repairDrop j.id s) h)))
  exact canonical_ite (canonical_endJob _ _ _ (s := dropNode j.pid j.id _) freed) freed

theorem canonical_kill (j : JobId) {s : State} (h : CanonicalMemory s) : NextCanonical (execKill j s) := by
  unfold execKill
  split
  · exact nextCanonical_ite (nextCanonical (canonical_abandonJob _ _ h)) (nextCanonical h)
  · exact nextCanonical h

/-! ### Saves and restores (R362 to R368) -/

/-- A write with an ingress label, run by run. -/
theorem keeps_physWrite (a : Author) (l : Label) (pa : Nat) (bs : List Byte) : Keeps CanonicalMemory (physWrite a l pa bs) := by
  refine keeps_bind (keeps_foldlM _ (fun rest r => ?_) _ _) fun _ => keeps_pure _
  have written := fun old pid => keeps_bind (m := fun s => joinAt 0 pid old l s) (keeps_joinAt closed_canonical 0 pid old l) fun j =>
    keeps_bind (canonical_writeSector none a r.1 r.2.1 (rest.take r.2.2) j) fun _ => keeps_pure (rest.drop r.2.2)
  refine keeps_bind keeps_get fun s => keeps_ite (keeps_bind (keeps_pure _) fun _ => written _ _) (keeps_bind ?_ fun _ => written _ _)
  intro u h
  have read := keeps_readSector closed_canonical none r.1 u h
  dsimp only
  generalize readSector none r.1 u = p at read ⊢
  exact read

/-- What saving a task is, as an equation of functions: on arguments the kernel would lay the image out to compare the two sides. -/
theorem saveTask_eq : saveTask = fun j base drained im s => (physWrite (iocAuthor j) 0 (base + jobImageSize + im.slot.toNat * taskImageSize)
    (assemble taskImageSize 0 (taskAreas im drained s.time)) s).2 := by
  delta saveTask
  rfl

theorem saveImages_eq : saveImages = fun j base left drained imgs s => imgs.foldl (fun (s : State) im => saveTask j base drained im s)
    (physWrite (iocAuthor j) 0 base (assemble jobImageSize 0 (jobAreas j left (s.colls.filter (fun p => p.job == j.id)))) s).2 := by
  delta saveImages
  rfl

/-- Saving images keeps what writes without a cache keep. -/
theorem saveImages_keeps {I : State → Prop} (hw : ∀ a l pa bs, Keeps I (physWrite a l pa bs)) (j : Job) (base left : Nat) (drained : Bool)
    (imgs : List TaskImage) (s : State) (h : I s) : I (saveImages j base left drained imgs s) := by
  rw [saveImages_eq]
  refine RowClosed.foldl (fun s im hs => ?_) imgs _ (hw _ _ _ _ s h)
  rw [saveTask_eq]
  exact hw _ _ _ _ s hs

theorem keeps_readImages (j : Job) (base : Nat) : Keeps CanonicalMemory (readImages j base) :=
  keeps_bind (keeps_physRead closed_canonical _ _) fun _ => keeps_foldlM _ (fun _ _ =>
    keeps_bind (keeps_physRead closed_canonical _ _) fun _ => keeps_pure _) _ _

theorem canonical_abandonWaits (c : CoreId) {s : State} (h : CanonicalMemory s) : CanonicalMemory (abandonWaits c s) := by
  have lines := canonical_foldl (f := fun (s : State) d => s.updCore d (fun k : Core =>
    { k with sems := k.sems.map (fun m : Sem => { m with waiters := m.waiters.filter (fun w => w.1 != c) }) })) (fun _ _ hs => hs)
    [c, peerOf c] s h
  unfold abandonWaits
  dsimp only
  split <;> exact lines

theorem canonical_stopTask (c : CoreId) {s : State} (h : CanonicalMemory s) : CanonicalMemory (stopTask c s) := canonical_abandonWaits c h

theorem canonical_withdrawNet (c : CoreId) {s : State} (h : CanonicalMemory s) : CanonicalMemory (withdrawNet c s) := canonical_ite h h

theorem canonical_placeJob (j : Job) (cls : List ClusterId) {s : State} (h : CanonicalMemory s) : CanonicalMemory (placeJob j cls s) := by
  unfold placeJob
  extract_lets t s1 n s2 s3 s4
  have placed : CanonicalMemory s4 := by
    refine canonical_foldl (fun s p hs => ?_) _ _ h
    exact hs
  exact canonical_ite placed placed

end Sys2Proof.Machine
end

section
/-! Memory stays in canonical form (O5): copies, channels and spills. -/

namespace Sys2Proof.Machine

/-! ### Units of a copy (R111, R247) -/

theorem keeps_forM {I : State → Prop} {α : Type} {f : α → SM PUnit} (hf : ∀ a, Keeps I (f a)) (l : List α) : Keeps I (l.forM f) := by
  induction l with
  | nil => exact keeps_pure _
  | cons a l ih => exact keeps_bind (hf a) fun _ => ih

theorem keeps_staleMark (ms : List GuardMark) : Keeps CanonicalMemory (staleMark ms) := (canonical_rows .C).staleMark ms

theorem canonical_killJobOf (c : CoreId) {s : State} (h : CanonicalMemory s) : CanonicalMemory (killJobOf c s) :=
  (canonical_rows .C).killJobOf c s h

theorem canonical_queueTrap (c : CoreId) (t : ATrap) {s : State} (h : CanonicalMemory s) : CanonicalMemory (queueTrap c t s) :=
  (canonical_rows .C).queueTrap c t s h

theorem canonical_wrote (c : CoreId) (r : WroteTo) {s : State} (h : CanonicalMemory s) : CanonicalMemory (wrote c r s) :=
  (canonical_rows .C).wrote c r s h

theorem keeps_engineRace (c : CoreId) (w : Who) (sync : BitVec 16) (ps : List Piece) : Keeps CanonicalMemory (engineRace c w sync ps) :=
  keeps_forM (fun _ => keeps_ite (keeps_bind keeps_get fun _ => (canonical_rows .C).writeRace _ _ _) (keeps_pure _)) ps

theorem keeps_putRows (w : Who) {stamp : List Piece → SM Unit} (hst : ∀ ps, Keeps CanonicalMemory (stamp ps)) (dps : List (List Piece))
    (rows : List (List Byte)) (l : Label) : Keeps CanonicalMemory (putRows w stamp dps rows l) :=
  keeps_foldlM _ (fun _ _ => keeps_bind (hst _) fun _ => keeps_bind (canonical_writePieces _ _ _ _) fun _ => keeps_pure _) _ _

theorem keeps_moveUnit (w : Who) {stamp : List Piece → SM Unit} (hst : ∀ ps, Keeps CanonicalMemory (stamp ps)) (r : XRec) (sl dl : Option LRec)
    (k : Nat) : Keeps CanonicalMemory (moveUnit w stamp r sl dl k) := by
  refine keeps_bind (keeps_translateRuns closed_canonical _ _) fun t => ?_
  split
  · exact keeps_pure _
  · exact keeps_bind (keeps_mapM _ (fun _ => keeps_readPieces closed_canonical _ _) _) fun _ => keeps_ite (keeps_pure _)
      (keeps_bind (keeps_joinAll closed_canonical _ _ _) fun _ => keeps_putRows w hst _ _ _)

theorem keeps_doUnit (c : CoreId) (w : Who) (sync : BitVec 16) (r : XRec) (sl dl : Option LRec) (k : Nat) :
    Keeps CanonicalMemory (doUnit c w sync r sl dl k) := by
  intro s h
  have moved := keeps_moveUnit w (keeps_engineRace c w sync) r sl dl k s h
  unfold doUnit
  extract_lets marks
  split
  · exact h
  · generalize moveUnit w (engineRace c w sync) r sl dl k s = m at moved
    obtain ⟨e, s1⟩ := m
    cases e
    case done | denied => exact keeps_staleMark marks s1 moved
    all_goals exact moved

theorem keeps_engineWrite (c : CoreId) (w : Who) (sync : BitVec 16) (va : Nat) (bs : List Byte) (l : Label) :
    Keeps CanonicalMemory (engineWrite c w sync va bs l) := by
  refine keeps_bind (keeps_translate closed_canonical _ _ _ _) fun r => ?_
  split
  · exact keeps_pure _
  · exact keeps_bind (keeps_engineRace _ _ _ _) fun _ => keeps_bind (canonical_writePieces _ _ _ _) fun _ => keeps_pure _

/-! ### Channels (R117 to R121) -/

theorem canonical_chanDone (cl : ClusterId) (ch : BitVec 3) {s : State} (h : CanonicalMemory s) : CanonicalMemory (chanDone cl ch s) :=
  (canonical_foldl (f := fun (s : State) (p : CoreId × Nat) => s.updCore p.1 (jDone p.2)) (fun _ _ hs => hs) _ s h :)

theorem canonical_chanAborted (cl : ClusterId) (ch : BitVec 3) {s : State} (h : CanonicalMemory s) : CanonicalMemory (chanAborted cl ch s) :=
  canonical_chanDone cl ch h

theorem canonical_chanFail (cl : ClusterId) (ch : BitVec 3) (st : ChanSt) (cause : Byte) (va : Word) {s : State} (h : CanonicalMemory s) :
    CanonicalMemory (chanFail cl ch st cause va s) := by
  unfold chanFail
  extract_lets k s1 s2
  have told : CanonicalMemory s2 := by
    unfold s2
    split
    · exact canonical_queueTrap _ _ h
    · exact h
  exact canonical_ite (canonical_chanDone cl ch told) told

theorem canonical_chanChk (cl : ClusterId) (ch : BitVec 3) (c : CoreId) (e : ChkEnd) {s : State} (h : CanonicalMemory s) :
    CanonicalMemory (chanChk cl ch c e s) := by
  cases e with
  | bad cause va => exact canonical_chanFail _ _ _ _ _ h
  | poison => exact canonical_killJobOf c h

theorem keeps_checkCopy (w : Who) (cl : Option ClusterId) (useNext spans : Bool) (k : Copy) :
    Keeps CanonicalMemory (checkCopy w cl useNext spans k) := (canonical_rows .C).checkCopy w cl useNext spans k

theorem canonical_chanSides (cl : ClusterId) (ch : BitVec 3) (c : CoreId) (w : Who) (cp : Copy) {s : State} (h : CanonicalMemory s) :
    CanonicalMemory (chanSides cl ch c w cp s) := by
  have checked := keeps_checkCopy w (some cl) true false cp
  refine canonical_ite h ?_
  split
  · next e => exact canonical_chanChk _ _ _ _ (checked.of_eq h e)
  · next e => exact keeps_staleMark _ _ (checked.of_eq h e)

theorem canonical_transferRecordRead (cl : ClusterId) (ch : BitVec 3) {s : State} (h : CanonicalMemory s) :
    NextCanonical (execTransferRecordRead cl ch s) := by
  have fails := fun st cause va => nextCanonical (canonical_chanFail cl ch st cause va h)
  refine nextCanonical_ite (nextCanonical (canonical_chanAborted cl ch h)) (nextCanonical_ite (nextCanonical h) ?_)
  split
  · exact nextCanonical h
  · next c _ =>
    refine nextCanonical_ite (nextCanonical h) ?_
    split
    · exact nextCanonical (canonical_chanSides _ _ _ _ _ h)
    · refine nextCanonical_ite (fails _ _ _) (nextCanonical_ite (fails _ _ _) (nextCanonical_ite (nextCanonical h) ?_))
      have read := keeps_readVirt closed_canonical (engineWho s c 1 ch.toNat) (chanAt s cl ch).cursor.toNat 64
      split
      · next e => exact nextCanonical (canonical_chanChk _ _ _ _ (read.of_eq h e))
      · next e =>
        have h1 := read.of_eq h e
        have marked := keeps_staleMark (guardedBy s c [((chanAt s cl ch).cursor.toNat, 64)]) _ h1
        exact nextCanonical_ite (nextCanonical (canonical_killJobOf c h1))
          (nextCanonical_ite (nextCanonical (canonical_chanFail _ _ _ _ _ marked)) (nextCanonical (canonical_chanSides _ _ _ _ _ marked)))

theorem canonical_chanUnit (cl : ClusterId) (ch : BitVec 3) {s : State} (h : CanonicalMemory s) : CanonicalMemory (chanUnit cl ch s) := by
  have aborted := canonical_chanAborted cl ch h
  unfold chanUnit
  dsimp only
  split
  · exact canonical_ite aborted h
  · exact aborted
  · next c cp _ _ _ =>
    refine canonical_ite h ?_
    have done := keeps_doUnit c (engineWho s c 1 ch.toNat) cp.sync (parseRec cp.img) cp.srcL cp.dstL cp.unit s h
    generalize doUnit c (engineWho s c 1 ch.toNat) cp.sync (parseRec cp.img) cp.srcL cp.dstL cp.unit s = r at done
    obtain ⟨e, s1⟩ := r
    cases e with
    | done => exact done
    | denied va => exact canonical_relDeny c va done
    | fault f va => exact canonical_chanFail _ _ _ _ _ done
    | poison => exact canonical_killJobOf c done
    | waits => exact done
  · exact h

theorem canonical_tcpUnit (c : CoreId) (n : Nat) {s : State} (h : CanonicalMemory s) : CanonicalMemory (tcpUnit c n s) := by
  unfold tcpUnit
  split
  · exact h
  · next t _ =>
    refine canonical_ite h ?_
    extract_lets w r runs set fin
    refine canonical_ite h ?_
    have checked : CanonicalMemory (if t.copy.checked then ((Except.ok t.copy, s) : Except ChkEnd Copy × State)
        else checkCopy w (some (clusterOf c)) false true t.copy s).2 := by
      split
      · exact h
      · exact keeps_checkCopy _ _ _ _ _ s h
    generalize (if t.copy.checked then ((Except.ok t.copy, s) : Except ChkEnd Copy × State)
        else checkCopy w (some (clusterOf c)) false true t.copy s) = m at checked
    obtain ⟨chk, s1⟩ := m
    dsimp only
    split
    · exact checked
    · exact canonical_killJobOf c checked
    · next cp =>
      have marked := keeps_staleMark (guardedBy s c runs) s1 checked
      refine canonical_ite marked ?_
      have done := keeps_doUnit c w cp.sync r cp.srcL cp.dstL cp.unit _ marked
      generalize doUnit c w cp.sync r cp.srcL cp.dstL cp.unit (staleMark (guardedBy s c runs) s1).2 = m at done
      obtain ⟨e, s2⟩ := m
      cases e with
      | done => exact done
      | denied va => exact canonical_relDeny c va done
      | fault f va => exact done
      | poison => exact canonical_killJobOf c done
      | waits => exact done

theorem canonical_transferUnit (src : XferSrc) {s : State} (h : CanonicalMemory s) : NextCanonical (execTransferUnit src s) := by
  cases src with
  | chan cl ch => exact nextCanonical (canonical_chanUnit cl ch h)
  | tcp c n => exact nextCanonical (canonical_tcpUnit c n h)

theorem canonical_completeSem (c : CoreId) (r : XRec) {s : State} (h : CanonicalMemory s) : CanonicalMemory (completeSem c r s).2 := by
  unfold completeSem
  split
  · exact h
  · extract_lets home n
    split
    · exact h
    · exact (canonical_rows .C).semRelease _ _ _ _ s h

theorem canonical_chanWriteBack (cl : ClusterId) (ch : BitVec 3) (c : CoreId) (k : Chan) (cp : Copy) {s : State} (h : CanonicalMemory s) :
    CanonicalMemory (chanWriteBack cl ch c k cp s) := by
  have written := keeps_engineWrite c (engineWho s c 1 ch.toNat) cp.sync (k.cursor.toNat + 8) (natBytes 8 (doneWord cp.img)) 0
  unfold chanWriteBack
  split
  · next e => exact canonical_chanChk _ _ _ _ (written.of_eq h e)
  · next e => exact canonical_wrote _ _ (written.of_eq h e)

theorem canonical_chanIncrement (cl : ClusterId) (ch : BitVec 3) (c : CoreId) (k : Chan) (cp : Copy) {s : State} (h : CanonicalMemory s) :
    CanonicalMemory (chanIncrement cl ch c k cp s) := by
  have counted := canonical_completeSem c (parseRec cp.img) h
  unfold chanIncrement
  generalize completeSem c (parseRec cp.img) s = m at counted
  exact canonical_ite counted (canonical_chanFail _ _ _ _ _ counted)

theorem canonical_chanAdvance (cl : ClusterId) (ch : BitVec 3) (cp : Copy) {s : State} (h : CanonicalMemory s) :
    CanonicalMemory (chanAdvance cl ch cp s) :=
  canonical_ite (canonical_chanAborted cl ch h) (canonical_ite (canonical_chanDone cl ch h) h)

theorem canonical_chanComplete (cl : ClusterId) (ch : BitVec 3) {s : State} (h : CanonicalMemory s) : CanonicalMemory (chanComplete cl ch s) := by
  unfold chanComplete
  dsimp only
  split
  · exact canonical_ite (canonical_chanWriteBack _ _ _ _ _ h) (canonical_ite (canonical_chanIncrement _ _ _ _ _ h) (canonical_chanAdvance _ _ _ h))
  · exact h

theorem canonical_recordCompletion (cl : ClusterId) (ch : BitVec 3) {s : State} (h : CanonicalMemory s) :
    NextCanonical (execRecordCompletion cl ch s) := by
  have aborted := canonical_chanAborted cl ch h
  have complete := canonical_chanComplete cl ch h
  unfold execRecordCompletion
  dsimp only
  split
  · exact nextCanonical (canonical_ite aborted complete)
  · exact nextCanonical aborted
  · exact nextCanonical_ite (nextCanonical h) (nextCanonical complete)
  · exact nextCanonical h

theorem canonical_chanSettle (cl : ClusterId) (ch : BitVec 3) {s : State} (h : CanonicalMemory s) : CanonicalMemory (chanSettle cl ch s) := by
  unfold chanSettle
  extract_lets go
  have goes : ∀ u, CanonicalMemory u → CanonicalMemory (go u) := by
    intro u hu
    unfold go
    split
    · exact canonical_ite hu (canonical_chanComplete cl ch hu)
    · exact canonical_ite hu (canonical_chanComplete cl ch hu)
    · exact hu
  exact goes _ (goes _ h)

theorem canonical_tcpCompletion (c : CoreId) (n : Nat) {s : State} (h : CanonicalMemory s) : NextCanonical (execTcpCompletion c n s) := by
  unfold execTcpCompletion
  split
  · exact nextCanonical h
  · next t _ =>
    split
    · exact nextCanonical h
    · next cause va _ =>
      refine nextCanonical_ite (nextCanonical h) ?_
      have counted : CanonicalMemory (if cause = 0 then completeSem c (parseRec t.copy.img) s else (true, s)).2 := by
        split
        · exact canonical_completeSem c _ h
        · exact h
      generalize (if cause = 0 then completeSem c (parseRec t.copy.img) s else (true, s)) = m at counted
      exact nextCanonical counted

theorem canonical_deadlineLeadReached (src : XferSrc) {s : State} (h : CanonicalMemory s) : NextCanonical (execDeadlineLeadReached src s) := by
  cases src <;> exact nextCanonical h

end Sys2Proof.Machine
end

section
/-! Memory stays in canonical form (O5): deliveries, binds, stops and resumes of jobs. -/

namespace Sys2Proof.Machine

/-! ### Deliveries (R141, R158, R183, R229, R260) -/

theorem canonical_deliverFirst (c : CoreId) (d : BitVec 6) (src : PendSrc) {s : State} (h : CanonicalMemory s) :
    CanonicalMemory (deliverFirst c d src s) := by
  unfold deliverFirst
  split <;> exact h

theorem keeps_writeEntry (w : Who) (pages : List Page) (va : Nat) (runs : List (Nat × List Byte)) (lbl : Label) :
    Keeps CanonicalMemory (writeEntry w pages va runs lbl) :=
  keeps_foldlM _ (fun _ _ => keeps_bind (canonical_writePieces _ _ _ _) fun _ => keeps_pure _) _ _

theorem canonical_ldTileEntryWrite (c : CoreId) (r : BitVec 4) {s : State} (h : CanonicalMemory s) :
    NextCanonical (execLdTileEntryWrite c r s) := by
  unfold execLdTileEntryWrite
  dsimp only
  split
  · next f _ =>
    refine nextCanonical_ite (nextCanonical h) ?_
    split
    · next idx runs lbl _ =>
      have written := keeps_writeEntry (strandWho s c) (f.pagesOn c) (entryVa s c ((s.core c).ls.ring r) idx) runs lbl s h
      exact nextCanonical (canonical_wrote c _ written)
    · exact nextCanonical h
  · exact nextCanonical h

theorem canonical_vtreeDelivery (c : CoreId) {s : State} (h : CanonicalMemory s) : NextCanonical (execVtreeDelivery c s) := by
  unfold execVtreeDelivery
  dsimp only
  split <;> exact nextCanonical h

theorem canonical_histRdDelivery (c : CoreId) {s : State} (h : CanonicalMemory s) : NextCanonical (execHistRdDelivery c s) := by
  unfold execHistRdDelivery
  dsimp only
  split <;> exact nextCanonical h

theorem canonical_mmaRetire (c : CoreId) {s : State} (h : CanonicalMemory s) : NextCanonical (execMmaRetire c s) := by
  have finished := (canonical_rows .C).matFinish c s h
  unfold execMmaRetire
  dsimp only
  split
  · exact nextCanonical finished
  · exact nextCanonical (canonical_ite finished finished)

/-! ### Stopping (R284, R345, R362) -/

theorem canonical_afterOut {f : State → Out} {s : State} (h : CanonicalMemory s) (hf : NextCanonical (f s)) :
    CanonicalMemory (afterOut f s) := by
  unfold afterOut
  split
  · next e => exact hf _ e
  · exact h

theorem canonical_retireDone (c : CoreId) {s : State} (h : CanonicalMemory s) : CanonicalMemory (retireDone c s) := by
  unfold retireDone
  split
  · exact canonical_ite h h
  · exact h

theorem canonical_finishStarted (c : CoreId) {s : State} (h : CanonicalMemory s) : CanonicalMemory (finishStarted c s) := by
  refine canonical_foldl (fun s f hs => ?_) _ _ h
  split
  case h_1 => exact canonical_afterOut hs (canonical_ldTileEntryWrite _ _ hs)
  case h_2 | h_3 => exact canonical_retireDone c hs
  case h_4 => exact canonical_afterOut hs (canonical_vtreeDelivery c hs)
  case h_5 => exact canonical_afterOut hs (canonical_histRdDelivery c hs)
  case h_6 | h_7 => exact hs

theorem canonical_settleChan (cl : ClusterId) (ch : BitVec 3) {s : State} (h : CanonicalMemory s) : CanonicalMemory (settleChan cl ch s) :=
  canonical_ite (canonical_chanAborted cl ch (canonical_chanSettle cl ch h)) (canonical_chanSettle cl ch h)

theorem canonical_applyPosts (j : JobId) {s : State} (h : CanonicalMemory s) : CanonicalMemory (applyPosts j s) := by
  unfold applyPosts
  split
  · exact h
  · next job _ => exact canonical_foldl (f := fun s p => applyPost j 0 p s) (fun _ _ hs => hs) job.posts s h

theorem canonical_drain (j : JobId) {s : State} (h : CanonicalMemory s) : NextCanonical (execDrain j s) := by
  unfold execDrain
  split
  · exact nextCanonical h
  · exact nextCanonical_ite (nextCanonical h) (nextCanonical h)

theorem canonical_drainWindowExpiry (j : JobId) {s : State} (h : CanonicalMemory s) : NextCanonical (execDrainWindowExpiry j s) := by
  unfold execDrainWindowExpiry
  split
  · exact nextCanonical h
  · next job _ =>
    split
    · have stopped := canonical_foldl (f := fun s c => finishLoads c (stopTask c s)) (fun s c hs => canonical_stopTask c hs) job.cores s h
      exact nextCanonical_ite (nextCanonical h) (nextCanonical (canonical_applyPosts j (s := State.updJob _ j _) stopped))
    · exact nextCanonical h

theorem canonical_checkpoint (j : JobId) {s : State} (h : CanonicalMemory s) : NextCanonical (execCheckpoint j s) := by
  unfold execCheckpoint
  split
  · exact nextCanonical h
  · next job _ =>
    refine nextCanonical_ite (nextCanonical h) ?_
    have stopped := canonical_foldl (f := fun s c => finishLoads c (finishStarted c (withdrawNet c (stopTask c s))))
      (fun s c hs => canonical_finishStarted c (canonical_withdrawNet c (canonical_stopTask c hs))) job.cores s h
    have settled := canonical_foldl (f := fun s cl => (List.finRange 8).foldl (fun (s : State) ch => settleChan cl (BitVec.ofNat 3 ch.val) s) s)
      (fun s cl hs => canonical_foldl (fun s ch hs => canonical_settleChan _ _ hs) _ s hs) job.cls _ (canonical_applyPosts j stopped)
    have ended := canonical_collEndAll j 0x04 settled
    exact nextCanonical (s := State.updJob _ j _) ended

/-! ### CONTEXT_SAVED and JOB_RESUME (R345, R362 to R368) -/

theorem canonical_updJob (j : JobId) (f : Job → Job) {s : State} (h : CanonicalMemory s) : CanonicalMemory (s.updJob j f) := h

theorem canonical_updPart (p : PartId) (f : Part → Part) {s : State} (h : CanonicalMemory s) : CanonicalMemory (s.updPart p f) := h

theorem canonical_contextSaved (j : JobId) {s : State} (h : CanonicalMemory s) : NextCanonical (execContextSaved j s) := by
  unfold execContextSaved
  split
  · exact nextCanonical h
  · next job _ =>
    dsimp only
    split
    · refine nextCanonical_ite (nextCanonical h) (nextCanonical (canonical_report _ _ _ (canonical_updJob _ _ (canonical_updPart _ _
        (canonical_freeClusters _ (saveImages_keeps keeps_physWrite _ _ _ _ _ _ ?_))))))
      exact canonical_foldl (fun s cl hs => canonical_flushStash cl hs) _ _
        (canonical_foldl (fun s c hs => canonical_stopTask c (canonical_withdrawNet c hs)) _ s h)
    · exact nextCanonical h

theorem canonical_replayFrom (c : CoreId) (ns : List Nat) {s : State} (h : CanonicalMemory s) : CanonicalMemory (replayFrom c ns s) :=
  (canonical_rows .C).replayFrom c ns s h

theorem canonical_regroup (j : JobId) {s : State} (h : CanonicalMemory s) : CanonicalMemory (regroup j s) := by
  unfold regroup
  split
  · exact h
  · refine canonical_ite h (canonical_foldl (fun s c hs => ?_) _ _ (canonical_updJob _ _ h))
    exact hs

theorem canonical_replays (l : List CoreId) {s : State} (h : CanonicalMemory s) :
    CanonicalMemory (l.foldl (fun (s : State) c => replayFrom c (openEntries (s.core c)) s) s) := by
  induction l generalizing s with
  | nil => exact h
  | cons c l ih =>
    rw [List.foldl_cons]
    exact ih (canonical_replayFrom c _ h)

theorem canonical_resumeOn (job : Job) (cls : List ClusterId) {s : State} (h : CanonicalMemory s) : CanonicalMemory (resumeOn job cls s) := by
  unfold resumeOn
  refine canonical_replays _ (canonical_updJob _ _ (canonical_freeArea job
    (canonical_regroup job.id (canonical_foldl (fun s p hs => ?_) _ _ (canonical_placeJob job cls h)))))
  split <;> exact hs

theorem canonical_restoreColls (b : List Byte) (j : JobId) {s : State} (h : CanonicalMemory s) : CanonicalMemory (restoreColls b j s) := h

theorem canonical_badRestore (j : Job) (x : BadImage) {s : State} (h : CanonicalMemory s) : CanonicalMemory (badRestore j x s) := h

theorem canonical_jobResume (j : JobId) (cls : List ClusterId) {s : State} (h : CanonicalMemory s) : NextCanonical (execJobResume j cls s) := by
  unfold execJobResume
  split
  · exact nextCanonical h
  · next job _ =>
    split
    · exact nextCanonical (canonical_foldl (fun s c hs => (canonical_rows .C).continueReplay c s hs) _ _ h)
    · refine nextCanonical_ite (nextCanonical h) ?_
      split
      next e =>
      have read := (keeps_readImages job _).of_eq h e
      split
      · exact nextCanonical (canonical_badRestore _ _ read)
      · exact nextCanonical_ite (nextCanonical (canonical_updJob _ _ read))
          (nextCanonical (canonical_report _ _ _ (canonical_resumeOn _ _ (canonical_restoreColls _ _ (canonical_updJob _ _ read)))))
    · exact nextCanonical h

/-! ### Binds, decisions, tokens (R340, R343, R344, R346) -/

theorem canonical_jobBind (j : JobId) (cls : List ClusterId) {s : State} (h : CanonicalMemory s) : NextCanonical (execJobBind j cls s) := by
  unfold execJobBind
  split
  · exact nextCanonical h
  · next job _ =>
    refine nextCanonical_ite (nextCanonical h) (nextCanonical (canonical_report _ _ _ ?_))
    exact canonical_foldl (f := fun (s : State) (p : ClusterId × Nat) =>
      (s.updCore (coreA p.1) (bindTask job (2 * p.2))).updCore (coreB p.1) (bindTask job (2 * p.2 + 1))) (fun _ _ hs => hs) _ _
      (canonical_placeJob job cls h)

theorem canonical_preemptionDecision (j : JobId) {s : State} (h : CanonicalMemory s) : NextCanonical (execPreemptionDecision j s) := by
  unfold execPreemptionDecision
  split
  · exact nextCanonical h
  · next job _ =>
    refine nextCanonical_ite (nextCanonical h) ?_
    split
    · exact nextCanonical h
    · next t vs _ =>
      have ordered := canonical_foldl (f := fun (s : State) (v : Victim) =>
        (s.updPart job.pid (fun q => { q with areas := v.area.toList ++ q.areas })).updJob v.job.id (fun k =>
          { k with form := some v.form, area := v.area, killDue := k.killDue || decide (v.form = .kill) })) (fun _ _ hs => hs) vs s h
      exact nextCanonical (s := State.updJob _ j _) ordered

theorem canonical_bucketRefill {s : State} (h : CanonicalMemory s) : NextCanonical (execBucketRefill s) := nextCanonical h

theorem canonical_quantumEnd (p : PartId) {s : State} (h : CanonicalMemory s) : NextCanonical (execQuantumEnd p s) := by
  unfold execQuantumEnd
  dsimp only
  split <;> exact nextCanonical h

/-! ### The prologue (R120, R339) -/

theorem keeps_killWho (w : Who) : Keeps CanonicalMemory (modify (killWho w) : SM Unit) := fun _ h => h

theorem keeps_runUnits (w : Who) (r : XRec) (a b : Option LRec) (fuel k : Nat) : Keeps CanonicalMemory (runUnits w r a b fuel k) := by
  induction fuel generalizing k with
  | zero => exact keeps_pure _
  | succ fuel ih =>
    refine keeps_bind (keeps_moveUnit w (fun _ => keeps_pure _) r a b k) fun e => ?_
    split
    · exact keeps_pure _
    · exact keeps_bind (keeps_killWho w) fun _ => keeps_pure _
    · exact ih _

theorem keeps_runRecord (w : Who) (img : List Byte) : Keeps CanonicalMemory (runRecord w img) := by
  refine keeps_bind (keeps_checkCopy _ _ _ _ _) fun e => ?_
  split
  · exact keeps_pure _
  · exact keeps_bind (keeps_killWho w) fun _ => keeps_pure _
  · exact keeps_runUnits _ _ _ _ _ _

theorem keeps_runPrologue (w : Who) (j : Job) : Keeps CanonicalMemory (runPrologue w j) := by
  refine keeps_foldlM _ (fun bad i => ?_) _ _
  split
  · exact keeps_pure _
  · refine keeps_bind (keeps_readVirt closed_canonical _ _ _) fun r => ?_
    split
    · exact keeps_ite (keeps_bind (keeps_killWho w) fun _ => keeps_pure _) (keeps_pure _)
    · exact keeps_ite (keeps_bind (keeps_killWho w) fun _ => keeps_pure _) (keeps_runRecord w _)

theorem canonical_prologueComplete (j : JobId) {s : State} (h : CanonicalMemory s) : NextCanonical (execPrologueComplete j s) := by
  unfold execPrologueComplete
  split
  · exact nextCanonical h
  · next job _ =>
    refine nextCanonical_ite (nextCanonical h) ?_
    have ran := keeps_runPrologue { job.who with author := { job.who.author with kind := 1 } } job
    dsimp only at ran
    split
    · next e => exact nextCanonical (canonical_endJob _ _ _ (ran.of_eq h e))
    · next e => exact nextCanonical (canonical_updJob _ _ (ran.of_eq h e))

/-! ### Flags, semaphores, time (R276, R279, R283) -/

theorem canonical_serveFlag (j : JobId) (n : BitVec 8) {s : State} (h : CanonicalMemory s) : CanonicalMemory (serveFlag j n s) := by
  unfold serveFlag
  split
  · exact h
  · refine canonical_foldl (fun s w hs => ?_) _ _ (canonical_updJob _ _ h)
    exact hs

theorem canonical_flagAddApply (j : JobId) (k : Nat) {s : State} (h : CanonicalMemory s) : NextCanonical (execFlagAddApply j k s) := by
  unfold execFlagAddApply
  split
  · exact nextCanonical h
  · split
    · exact nextCanonical h
    · exact nextCanonical (canonical_serveFlag j _ (s := applyPost j k _ s) h)

theorem canonical_waittResume (c : CoreId) {s : State} (h : CanonicalMemory s) : NextCanonical (execWaittResume c s) := by
  unfold execWaittResume
  split
  · exact nextCanonical_ite (nextCanonical (s := resumeC c s) h) (nextCanonical h)
  · exact nextCanonical h

end Sys2Proof.Machine
end

section
/-! Memory stays in canonical form (O5): traps, domains, sweeps, spills and guarded reads. -/

namespace Sys2Proof.Machine

/-! ### Rows of the strands, and traps (R255, R256, R350 to R357) -/

/-- A row of a strand's table, in any turn. -/
theorem canonical_strandRow {i : Instr} (hi : i.tbl ≠ .agent) {s : State} (h : CanonicalMemory s) : NextCanonical (exec i s) := by
  have rows := canonical_rows s.cur.2
  intro t e
  cases ht : i.tbl with
  | C => exact rows.exec_C ht s t rfl h e
  | E => exact rows.exec_E ht s t rfl h e
  | L => exact rows.exec_L ht s t rfl h e
  | X => exact rows.exec_X ht s t rfl h e
  | S => exact rows.exec_S ht s t rfl h e
  | agent => exact absurd ht hi

theorem canonical_takeTrap (c : CoreId) (cause tval : Word) (src : Option TrapSrc) {s : State} (h : CanonicalMemory s) :
    CanonicalMemory (takeTrap c cause tval s src) := (canonical_rows .C).takeTrap c cause tval s src h

theorem canonical_trapC (c : CoreId) (code sub : Nat) (tval : Word) {s : State} (h : CanonicalMemory s) :
    CanonicalMemory (trapC c code sub tval s) := (canonical_rows .C).trapC c code sub tval s h

theorem canonical_trapEng (c : CoreId) (st : Strand) (code sub : Nat) (tval : Word) {s : State} (h : CanonicalMemory s) :
    CanonicalMemory (trapEng c st code sub tval s) := (canonical_rows .C).trapEng c st code sub tval s h

theorem canonical_annulledPosition (c : CoreId) {s : State} (h : CanonicalMemory s) : NextCanonical (execAnnulledPosition c s) :=
  nextCanonical_ite (nextCanonical h) (nextCanonical (s := s.updCore c _) h)

theorem canonical_illegalInstructionWord (c : CoreId) (st : Strand) (w : Word32) {s : State} (h : CanonicalMemory s) :
    NextCanonical (execIllegalInstructionWord c st w s) := by
  refine nextCanonical_ite (nextCanonical h) ?_
  cases st with
  | C => exact nextCanonical (canonical_trapC c _ _ _ h)
  | L | X | S => exact nextCanonical (canonical_trapEng c _ _ _ _ h)

theorem canonical_instructionFetchFault (c : CoreId) (st : Strand) {s : State} (h : CanonicalMemory s) :
    NextCanonical (execInstructionFetchFault c st s) := by
  refine nextCanonical_ite (nextCanonical h) ?_
  have fetched := (canonical_rows .C).fetchWord c st s h
  generalize fetchWord c st s = r at fetched
  match r, fetched with
  | .ok _, _ => exact nextCanonical h
  | .error (.wait s1), h1 => exact nextCanonical (s := s1) h1
  | .error (.trap code sub tval s1), h1 =>
    cases st with
    | C => exact nextCanonical (canonical_trapC c _ _ _ (s := s1) h1)
    | L | X | S => exact nextCanonical (canonical_trapEng c _ _ _ _ (s := s1) h1)

theorem canonical_leaveWaits (c : CoreId) {s : State} (h : CanonicalMemory s) : CanonicalMemory (leaveWaits c s) :=
  canonical_ite (s := finishC c {} s) h (canonical_abandonWaits c h)

theorem canonical_asyncTrapTake (c : CoreId) {s : State} (h : CanonicalMemory s) : NextCanonical (execAsyncTrapTake c s) := by
  have left := canonical_leaveWaits c h
  refine nextCanonical_ite (nextCanonical h) (nextCanonical_ite (nextCanonical (canonical_takeTrap c _ _ _ (s := State.updCore _ c _) left)) ?_)
  split
  · exact nextCanonical h
  · exact nextCanonical_ite (nextCanonical (s := (s.updCore c _).updCore c _) h)
      (nextCanonical (canonical_takeTrap c _ _ _ (s := State.updCore _ c _) left))

/-! ### Domains (R20, R21) -/

theorem canonical_plainBarrier (j : JobId) (ms : List CoreId) (lvl : BitVec 2) (die : Fin 4) {s : State} (h : CanonicalMemory s) :
    CanonicalMemory (plainBarrier j ms lvl die s) := by
  refine canonical_foldl (fun s c hs => ?_) _ _ (canonical_updJob j _ h)
  have passed : CanonicalMemory (passPhase c s) := hs
  exact canonical_ite (canonical_takeTrap c _ _ none passed) passed

theorem canonical_doSplit (j : JobId) (ms : List CoreId) {s : State} (h : CanonicalMemory s) : CanonicalMemory (doSplit j ms s) := by
  unfold doSplit
  split
  · exact h
  · refine canonical_foldl (fun s c hs => ?_) _ _ (canonical_updJob j _ h)
    exact hs

theorem canonical_doJoin (j : JobId) (dies : List (Fin 4)) (ms : List CoreId) {s : State} (h : CanonicalMemory s) :
    CanonicalMemory (doJoin j dies ms s) := by
  refine canonical_foldl (fun s c hs => ?_) _ _ (canonical_updJob j _ h)
  exact hs

theorem canonical_tryBarrier (c : CoreId) {s : State} (h : CanonicalMemory s) : CanonicalMemory (tryBarrier c s) := by
  unfold tryBarrier
  split
  · exact h
  · next j _ =>
    extract_lets ms k dies sub mine s1
    have plain := fun ms lvl die => canonical_plainBarrier j.id ms lvl die h
    refine canonical_ite h (canonical_ite (canonical_ite (canonical_doSplit _ _ h) (plain _ _ _)) (canonical_ite ?_ (plain _ _ _)))
    have own : CanonicalMemory s1 := plain _ _ _
    refine canonical_ite (canonical_ite (canonical_doJoin _ _ _ h) h) (canonical_ite ?_ own)
    refine canonical_foldl (fun s d hs => ?_) _ _ own
    exact canonical_ite (canonical_plainBarrier _ _ _ _ hs) hs

theorem canonical_semWaiterServed (c : CoreId) (n : BitVec 6) {s : State} (h : CanonicalMemory s) : NextCanonical (execSemWaiterServed c n s) := by
  unfold execSemWaiterServed
  dsimp only
  split
  · exact nextCanonical_ite (nextCanonical (s := resumeC _ (semTake _ c n _ s)) h) (nextCanonical h)
  · exact nextCanonical h

/-! ### Sweeps over the network and carry packets (R204, R210 to R213) -/

theorem canonical_updCore (c : CoreId) (f : Core → Core) {s : State} (h : CanonicalMemory s) : CanonicalMemory (s.updCore c f) := h

theorem keeps_joinL (c : CoreId) (a b : Label) : Keeps CanonicalMemory (joinL c a b) := (canonical_rows .C).joinL c a b

theorem canonical_commitNet (p : Prog) (c : CoreId) (carry : ScanRec) (lbl : Label) {s : State} (h : CanonicalMemory s) :
    CanonicalMemory (commitNet p c carry lbl s) := by
  unfold commitNet
  refine canonical_updCore c _ (keeps_forM (fun r => ?_) _ s h)
  exact keeps_bind keeps_get fun _ => keeps_bind (keeps_joinL c _ _) fun _ => keeps_modify fun _ hs => canonical_updCore c _ hs

theorem canonical_trapNet (code : Nat) (tval : Word) (ms : List CoreId) {s : State} (h : CanonicalMemory s) :
    CanonicalMemory (trapNet code tval ms s) :=
  canonical_foldl (fun _ c hs => canonical_trapEng c _ _ _ _ (canonical_withdrawNet c hs)) _ _ h

theorem canonical_emitAt (port : Nat) (m : OutMsg) {s : State} (h : CanonicalMemory s) : CanonicalMemory (emitAt port m s) :=
  (canonical_rows .C).emitAt port m s h

theorem canonical_gateDrop (cls port job : Nat) (ids : List Label) {s : State} (h : CanonicalMemory s) :
    CanonicalMemory (gateDrop cls port job ids s) := (canonical_rows .C).gateDrop cls port job ids s h

theorem canonical_sendCarry (pid : PartId) (lvl : Nat) (k : CarryIn) (lbl : Label) {s : State} (h : CanonicalMemory s) :
    CanonicalMemory (sendCarry pid lvl k lbl s) := canonical_emitAt _ _ h

theorem keeps_sendCarries (pid : PartId) (job : JobId) (ps : List (Nat × CarryIn)) (lbl : Label) :
    Keeps CanonicalMemory (sendCarries pid job ps lbl) := by
  intro s h
  unfold sendCarries
  split
  · exact canonical_gateDrop _ _ _ _ h
  · exact canonical_foldl (fun s p hs => canonical_sendCarry pid p.1 p.2 lbl hs) ps s h

/-- The state that a sweep between packages leaves is canonical. -/
def SweepCanonical : XpEnd → Prop
  | .wait t | .bad _ t | .denied t | .carry _ _ t => CanonicalMemory t

theorem canonical_xpFinish (x : XpSweep) (why : Nat) (carry : ScanRec) (lbls ins : List Label) (ls : List ScanRec) {s : State}
    (h : CanonicalMemory s) : SweepCanonical (xpFinish x why carry lbls ins ls s) := by
  have joined := keeps_joinAll closed_canonical 0 x.pid lbls s h
  unfold xpFinish
  generalize joinAll 0 x.pid lbls s = r at joined
  obtain ⟨l, s1⟩ := r
  dsimp only
  split
  · next e => exact (keeps_sendCarries _ _ _ _).of_eq joined e
  · next s2 e =>
    have sent : CanonicalMemory s2 := (keeps_sendCarries _ _ _ _).of_eq joined e
    split <;> exact sent

theorem canonical_xpSweep (x : XpSweep) {s : State} (h : CanonicalMemory s) : SweepCanonical (xpSweep x s) := by
  unfold xpSweep
  dsimp only
  split
  · exact h
  · split
    · exact canonical_xpFinish _ _ _ _ _ _ h
    · split
      · split
        next l s1 e =>
        have joined := (keeps_joinAll closed_canonical _ _ _).of_eq h e
        split
        · next e => exact (keeps_sendCarries _ _ _ _).of_eq joined e
        · next s2 e =>
          have sent : CanonicalMemory s2 := (keeps_sendCarries _ _ _ _).of_eq joined e
          exact sent
      · split
        · exact h
        · exact canonical_xpFinish _ _ _ _ _ _ h

theorem canonical_commitAll (p : Prog) (j : Job) (ms : List CoreId) (first n : Nat) (leaves : List ScanRec) (swn : BitVec 16) (root : ScanRec)
    (lbl : Label) {s : State} (h : CanonicalMemory s) : CanonicalMemory (commitAll p j ms first n leaves swn root lbl s) :=
  canonical_updPart j.pid _ (canonical_foldl (f := fun u m => commitNet p m
    ((carries p n leaves root).getD ((u.core m).id.slot.toNat - first) none) lbl u) (fun _ m hu => canonical_commitNet p m _ lbl hu) ms s h)

theorem canonical_placeNode (pid : PartId) (j : JobId) (swn : BitVec 16) {s : State} (h : CanonicalMemory s) :
    CanonicalMemory (placeNode pid j swn s) := h

theorem canonical_scanNetSweepEnd (c : CoreId) {s : State} (h : CanonicalMemory s) : NextCanonical (execScanNetSweepEnd c s) := by
  unfold execScanNetSweepEnd
  split
  · exact nextCanonical h
  · next j _ =>
    dsimp only
    split
    · refine nextCanonical_ite (nextCanonical h) (nextCanonical_ite (nextCanonical (canonical_trapNet _ _ _ h)) ?_)
      split
      next lbl s1 e =>
      have joined := (keeps_joinAll closed_canonical _ _ _).of_eq h e
      refine nextCanonical_ite (nextCanonical (canonical_commitAll _ _ _ _ _ _ _ _ _ joined)) ?_
      have swept := fun x swn => canonical_xpSweep x (canonical_placeNode (s.core c).id.pid j.id swn joined)
      split
      · next s3 e => exact nextCanonical ((congrArg SweepCanonical e).mp (swept _ _))
      · next s3 e => exact nextCanonical (canonical_trapNet _ _ _ (s := s3) ((congrArg SweepCanonical e).mp (swept _ _)))
      · next s3 e => exact nextCanonical (canonical_trapNet _ _ _ (canonical_updPart _ _ (s := s3) ((congrArg SweepCanonical e).mp (swept _ _))))
      · next s3 e =>
        have h3 : CanonicalMemory s3 := (congrArg SweepCanonical e).mp (swept _ _)
        split
        next e' => exact nextCanonical (canonical_commitAll _ _ _ _ _ _ _ _ _ ((keeps_joinAll closed_canonical _ _ _).of_eq h3 e'))
    · exact nextCanonical h

theorem canonical_sendKept (pid : PartId) (u : HeldPacket) {s : State} (h : CanonicalMemory s) : CanonicalMemory (sendKept pid u s) :=
  canonical_ite (canonical_sendCarry _ _ _ _ h) (canonical_gateDrop _ _ _ _ h)

theorem canonical_upArrives (pid : PartId) (p : HeldPacket) {s : State} (h : CanonicalMemory s) : CanonicalMemory (upArrives pid p s) := by
  have sent := fun u => canonical_sendKept pid u h
  unfold upArrives
  dsimp only
  split
  · exact sent _
  · split
    · split
      · exact canonical_ite h h
      · split
        · exact sent _
        · exact h
    · split
      · exact sent _
      · exact h

theorem canonical_downArrives (pid : PartId) (p : HeldPacket) {s : State} (h : CanonicalMemory s) : CanonicalMemory (downArrives pid p s) := by
  unfold downArrives
  split
  · exact canonical_ite h h
  · exact h

theorem canonical_carryPacket (pid : PartId) (packet : CarryIn) {s : State} (h : CanonicalMemory s) :
    NextCanonical (execCarryPacket pid packet s) :=
  nextCanonical_ite (nextCanonical h) (nextCanonical (canonical_ite (canonical_downArrives _ _ h) (canonical_upArrives _ _ h)))

/-! ### Spills and fills (R214 to R216) -/

theorem keeps_mixSlot (c : CoreId) (a b : Slot) : Keeps CanonicalMemory (mixSlot c a b) := by
  intro s h
  unfold mixSlot
  split
  · exact h
  · exact keeps_joinL c _ _ { s with freeCtr := s.freeCtr + 8201 } h

theorem canonical_spillPop (c : CoreId) (q : SpillCmd) {s : State} (h : CanonicalMemory s) : CanonicalMemory (spillPop c q s) := h

theorem canonical_spillTrap (c : CoreId) (code sub : Nat) (tval : Word) {s : State} (h : CanonicalMemory s) :
    CanonicalMemory (spillTrap c code sub tval s) := canonical_queueTrap c _ (s := s.updCore c _) h

theorem canonical_spillFault (c : CoreId) (f : PFault × Word) {s : State} (h : CanonicalMemory s) : CanonicalMemory (spillFault c f s) :=
  canonical_ite (canonical_killJobOf c h) (canonical_spillTrap c _ _ _ h)

theorem canonical_fillRead (c : CoreId) (q : SpillCmd) (g : Got) {s : State} (h : CanonicalMemory s) : CanonicalMemory (fillRead c q g s) :=
  canonical_ite (canonical_killJobOf c h) (canonical_ite (canonical_spillTrap c _ _ _ (canonical_spillPop c q h)) (t := s.updCore c _) h)

theorem canonical_fillEnd (c : CoreId) (q : SpillCmd) (new : Slot) {s : State} (h : CanonicalMemory s) : CanonicalMemory (fillEnd c q new s) := by
  have mixed : ∀ p [Decidable p] old, CanonicalMemory (if p then ((new, s) : Slot × State) else mixSlot c new old s).2 := by
    intro p _ old
    split
    · exact h
    · exact keeps_mixSlot c new old s h
  exact mixed _ _

theorem canonical_spillWrite (c : CoreId) (w : Who) (q : SpillCmd) (ps : List Piece) {s : State} (h : CanonicalMemory s) :
    CanonicalMemory (spillWrite c w q ps s) := by
  have mixed := keeps_mixSlot c ((s.core c).xs.slot q.slot) q.was s h
  have raced := keeps_engineRace c w q.sync ps _ mixed
  have written := fun bs l => canonical_writePieces w ps bs l _ raced
  exact canonical_wrote c _ (written _ _)

theorem canonical_spillCompletion (c : CoreId) {s : State} (h : CanonicalMemory s) : NextCanonical (execSpillCompletion c s) := by
  unfold execSpillCompletion
  cases (s.core c).spill.cmds with
  | nil => exact nextCanonical h
  | cons q qs =>
    refine nextCanonical_ite (nextCanonical h) ?_
    cases q.got with
    | some new => exact nextCanonical (canonical_fillEnd c q new h)
    | none =>
      extract_lets w
      have translated := fun n acc => keeps_translate closed_canonical w q.addr.toNat n acc s h
      have opened := translated 33856 (if q.fill then Acc.read else Acc.write)
      generalize translate w _ _ _ s = r at opened
      obtain ⟨r, s1⟩ := r
      cases r with
      | error f => exact nextCanonical (canonical_spillFault c f opened)
      | ok pages =>
        exact nextCanonical_ite (nextCanonical (canonical_fillRead c q _ (keeps_readPieces closed_canonical _ _ _ opened)))
          (nextCanonical (canonical_spillWrite c _ q _ opened))

/-! ### The end of a guarded read's wait, and a join that misses (R301, R306) -/

/-- What a waiting read does is its own row. -/
theorem guardedMeaning_cases (i : Instr) (s : State) :
    guardedMeaning i s = .next s ∨ (i.tbl ≠ .agent ∧ guardedMeaning i s = exec i s) := by
  unfold guardedMeaning
  split
  case h_22 => exact .inl rfl
  all_goals exact .inr ⟨nofun, rfl⟩

theorem canonical_guardedReadResume (c : CoreId) (st : Strand) {s : State} (h : CanonicalMemory s) :
    NextCanonical (execGuardedReadResume c st s) := by
  unfold execGuardedReadResume
  split
  · exact nextCanonical h
  · next g _ =>
    have meant : NextCanonical (guardedMeaning g.instr { s with cur := (c, st) }) := by
      obtain e | ⟨hi, e⟩ := guardedMeaning_cases g.instr { s with cur := (c, st) }
      · rw [e]
        exact nextCanonical h
      · rw [e]
        exact canonical_strandRow hi h
    split
    · next s1 e => exact nextCanonical (s := { s1 with cur := s.cur }) (meant s1 e)
    · exact nextCanonical h

theorem canonical_labelJoinMiss (die : Fin 4) (a b : Label) {s : State} (h : CanonicalMemory s) : NextCanonical (execLabelJoinMiss die a b s) := by
  unfold execLabelJoinMiss
  split
  · exact nextCanonical h
  · have joined := fun p => keeps_joinAt closed_canonical die p a b s h
    exact nextCanonical (joined _)

end Sys2Proof.Machine
end

section
/-! Memory stays in canonical form (O5): fabrics, the memory side, Sorrel and the host. -/

namespace Sys2Proof.Machine

/-! ### Requests and links (R85, R311, R331, R332) -/

theorem canonical_respond (cls port pa : Nat) (g : PhysGot) (answer : Option (List Byte) → OutMsg) {s : State} (h : CanonicalMemory s) :
    CanonicalMemory (respond cls port pa g answer s) := by
  have dropped := canonical_gateDrop cls port 0 g.lbls h
  refine canonical_ite (canonical_emitAt _ _ h) (canonical_ite (canonical_emitAt _ _ h) (canonical_emitAt _ _ ?_))
  split
  · exact canonical_raiseCause _ _ _ _ _ _ dropped
  · exact dropped

theorem canonical_ualinkRequest (r : UalReq) {s : State} (h : CanonicalMemory s) : NextCanonical (execUalinkRequest r s) := by
  have read := fun n => keeps_physRead closed_canonical r.addr.toNat n s h
  have written := fun a l bs t (ht : CanonicalMemory t) => keeps_physWrite a l r.addr.toNat bs t ht
  refine nextCanonical_ite (nextCanonical (canonical_emitAt _ _ h)) ?_
  dsimp only
  split
  · exact nextCanonical (canonical_respond _ _ _ _ _ (read _))
  · exact nextCanonical (canonical_emitAt _ _ (written _ _ _ s h))
  · refine nextCanonical (canonical_respond _ _ _ _ _ ?_)
    split
    · exact written _ _ _ _ (read _)
    · exact read _

theorem canonical_rackLaunchPacket (q : QueueId) (bytes : List Byte) {s : State} (h : CanonicalMemory s) :
    NextCanonical (execRackLaunchPacket q bytes s) := by
  unfold execRackLaunchPacket
  refine nextCanonical_ite (nextCanonical h) ?_
  split
  next n s1 e1 =>
  have drawn := (keeps_freshNat closed_canonical).of_eq h e1
  dsimp only
  generalize rd s1.labels.inlbl (if n % 2 = 0 then 1 else 13) = lbl
  split
  · next e => exact nextCanonical (canonical_ite ((canonical_writeVirt _ _ _ _).of_eq drawn e)
      (canonical_haltQueue _ _ ((canonical_writeVirt _ _ _ _).of_eq drawn e)))
  · next s2 e =>
    have written : CanonicalMemory s2 := (canonical_writeVirt _ _ _ _).of_eq drawn e
    exact nextCanonical written

theorem canonical_flitReceive (f : Flit) {s : State} (h : CanonicalMemory s) : NextCanonical (execFlitReceive f s) :=
  nextCanonical_ite (nextCanonical h) (nextCanonical_ite (nextCanonical h) (nextCanonical h))

theorem canonical_flitReplay (p : Port) {s : State} (h : CanonicalMemory s) : NextCanonical (execFlitReplay p s) := by
  unfold execFlitReplay
  split
  · exact nextCanonical h
  · exact nextCanonical_ite (nextCanonical h) (nextCanonical h)

theorem canonical_linkDown (p : Port) {s : State} (h : CanonicalMemory s) : NextCanonical (execLinkDown p s) :=
  nextCanonical_ite (nextCanonical h) (nextCanonical h)

/-! ### Side bands, write-back, soft errors (R87, R89, R109) -/

theorem canonical_setSide (n : Nat) (sd : Side) {s : State} (h : CanonicalMemory s) :
    CanonicalMemory { s with side := mapSet Side.none s.side n sd } := (canonical_rows .C).band s n sd h

theorem canonical_rewriteEpochs (k : Fin 32) {s : State} (h : CanonicalMemory s) : CanonicalMemory (rewriteEpochs k s) :=
  canonical_foldl (fun _ n hs => canonical_ite hs (canonical_setSide n _ hs)) _ _ h

theorem canonical_installKey (k : Fin 32) {s : State} (h : CanonicalMemory s) : CanonicalMemory (installKey k s) :=
  canonical_rewriteEpochs k h

theorem canonical_l1Writeback (c : CoreId) (sector : Nat) {s : State} (h : CanonicalMemory s) : NextCanonical (execL1Writeback c sector s) := by
  unfold execL1Writeback
  split
  · next l _ =>
    split
    · exact nextCanonical (canonical_ite (canonical_writeback l s h) h)
    · exact nextCanonical h
  · exact nextCanonical h

theorem canonical_eccError (sector : Nat) (corrected : Bool) {s : State} (h : CanonicalMemory s) : CanonicalMemory (eccError sector corrected s) := by
  refine canonical_ite h (canonical_ite h ?_)
  extract_lets sd s1
  have poisoned : CanonicalMemory s1 := canonical_setSide sector _ h
  split
  · exact canonical_raiseCause _ _ _ _ _ _ poisoned
  · exact poisoned

/-! ### Sorrel (R378) -/

theorem canonical_pulls (l : List (Nat × Nat × Nat)) {s : State} (h : CanonicalMemory s) :
    CanonicalMemory (l.foldl (fun (s : State) r => pull none r.1 s) s) :=
  canonical_foldl (fun s r hs => closed_pull closed_canonical none r.1 s hs) l s h

theorem canonical_claims (l : List (Nat × Nat × Nat)) {s : State} (h : CanonicalMemory s) :
    CanonicalMemory (l.foldl (fun (s : State) r => claim none r.1 s) s) :=
  canonical_foldl (fun s r hs => closed_claim closed_canonical none r.1 s hs) l s h

theorem canonical_store (pa : Nat) (bs : List Byte) {s : State} (h : CanonicalMemory s) : CanonicalMemory { s with mem := putBytes s.mem pa bs } :=
  (canonical_rows .C).store s pa bs h

theorem canonical_hostStore (pa : Nat) (bs : List Byte) {s : State} (h : CanonicalMemory s) : CanonicalMemory (hostStore pa bs s) :=
  canonical_store pa bs (canonical_claims (sectorRuns pa bs.length) h)

theorem keeps_mbRead (pa n : Nat) : Keeps CanonicalMemory (mbRead pa n) := fun _ h => canonical_pulls (sectorRuns pa n) h

theorem canonical_takeLeaf (b : List Byte) {s : State} (h : CanonicalMemory s) : CanonicalMemory (takeLeaf b s) := canonical_ite h h

theorem canonical_mbStart (cmd : Nat) {s : State} (h : CanonicalMemory s) : CanonicalMemory (mbStart cmd s) := by
  refine canonical_ite (t := State.mk ..) h ?_
  have first := keeps_mbRead s.boot.mbaddr.toNat 8 s h
  have request := keeps_mbRead s.boot.mbaddr.toNat (mbLen cmd (wd (leNat (mbRead s.boot.mbaddr.toNat 8 s).1))) _ first
  exact canonical_ite (canonical_takeLeaf _ request) request

theorem keeps_createOrigin (b : List Byte) : Keeps CanonicalMemory (createOrigin b) := by
  intro s h
  unfold createOrigin
  dsimp only
  split
  · exact h
  · split <;> exact h

theorem keeps_installPolicy (b : List Byte) : Keeps CanonicalMemory (installPolicy b) := by
  intro s h
  unfold installPolicy
  extract_lets l r m slots serial answer
  split
  · exact h
  · split
    · exact h
    · split <;> exact h

theorem keeps_removePolicy (b : List Byte) : Keeps CanonicalMemory (removePolicy b) := by
  intro s h
  unfold removePolicy
  extract_lets l r m sig answer
  split
  · exact h
  · split <;> exact h

theorem keeps_attest (b : List Byte) : Keeps CanonicalMemory (attest b) := by
  intro s h
  unfold attest
  split
  · exact h
  · split <;> exact h

theorem keeps_mbRun (pa cmd : Nat) (req : List Byte) : Keeps CanonicalMemory (mbRun pa cmd req) := by
  intro s h
  unfold mbRun
  split
  · exact h
  · split
    · exact keeps_createOrigin req s h
    · exact keeps_installPolicy req s h
    · exact keeps_removePolicy req s h
    · exact keeps_attest req s h
    · exact h

theorem canonical_mailboxDone {s : State} (h : CanonicalMemory s) : NextCanonical (execMailboxDone s) := by
  unfold execMailboxDone
  split
  · exact nextCanonical h
  · next pa cmd req _ =>
    have ran := keeps_mbRun pa cmd req s h
    generalize mbRun pa cmd req s = r at ran
    obtain ⟨e, s1⟩ := r
    have stored := canonical_hostStore pa e.resp (s := s1) ran
    exact nextCanonical stored

end Sys2Proof.Machine
end

section
/-! Memory stays in canonical form (O5): the host's registers, resets and power. -/

namespace Sys2Proof.Machine

/-! ### What a register write leaves (R6, R371) -/

/-- A register write that is not discarded leaves memory canonical. -/
def RegCanonical (e : RegEnd) : Prop := ∀ t, e = .ok t → CanonicalMemory t

/-- A write of an offset leaves memory canonical where a register stands there and takes it. -/
def RegsCanonical (r : Option RegEnd) : Prop := ∀ e, r = some e → RegCanonical e

theorem regCanonical_ok {s : State} (h : CanonicalMemory s) : RegCanonical (.ok s) := by
  rintro _ ⟨⟩
  exact h

theorem regCanonical_error (n : Nat) : RegCanonical (.error n) := by
  intro t e
  cases e

theorem regCanonical_ite {p : Prop} [Decidable p] {a b : RegEnd} (ha : RegCanonical a) (hb : RegCanonical b) :
    RegCanonical (if p then a else b) := by
  split
  · exact ha
  · exact hb

theorem regCanonical_guardBits (d : Word) (w : RegWrite) {e : RegEnd} (h : RegCanonical e) : RegCanonical (guardBits d w e) :=
  regCanonical_ite (regCanonical_error 1) h

theorem regCanonical_limit (b : Bool) {s : State} (h : CanonicalMemory s) : RegCanonical (limit b s) :=
  regCanonical_ite (regCanonical_ok h) (regCanonical_error 2)

theorem regsCanonical_none : RegsCanonical none := by
  intro t e
  cases e

theorem regsCanonical_some {e : RegEnd} (h : RegCanonical e) : RegsCanonical (some e) := by
  rintro _ ⟨⟩
  exact h

theorem regsCanonical_ite {p : Prop} [Decidable p] {a b : Option RegEnd} (ha : RegsCanonical a) (hb : RegsCanonical b) :
    RegsCanonical (if p then a else b) := by
  split
  · exact ha
  · exact hb

/-- The usual register: its defined bits guard a write that leaves memory alone. -/
theorem regsCanonical_guarded (d : Word) (w : RegWrite) {s : State} (h : CanonicalMemory s) : RegsCanonical (some (guardBits d w (.ok s))) :=
  regsCanonical_some (regCanonical_guardBits d w (regCanonical_ok h))

/-- A register with limits on its values (R373). -/
theorem regsCanonical_limited (d : Word) (w : RegWrite) (b : Bool) {s : State} (h : CanonicalMemory s) :
    RegsCanonical (some (guardBits d w (limit b s))) :=
  regsCanonical_some (regCanonical_guardBits d w (regCanonical_limit b h))

/-! ### The IOC block (R85, R314, R341, R347, R375, R377, R378, R381) -/

theorem canonical_flushPart (q : Part) {s : State} (h : CanonicalMemory s) : CanonicalMemory (flushPart q s) :=
  canonical_foldl (f := fun s l => writeback l s) (fun s l hs => canonical_writeback l s hs) _ s h

theorem canonical_applyPart (p : PartId) (q : Part) {s : State} (h : CanonicalMemory s) : CanonicalMemory (applyPart p q s) := by
  unfold applyPart
  extract_lets old s1 s2
  have flushed : CanonicalMemory s1 := canonical_updPart p _ (canonical_flushPart old h)
  have keyed : CanonicalMemory s2 := canonical_foldl (f := fun s k => installKey k s) (fun s k hs => canonical_installKey k hs) _ _
    (canonical_flushPart q flushed)
  exact canonical_ite keyed (canonical_ite flushed flushed)

theorem canonical_setPart (p : PartId) (f : Part → Part) {s : State} (h : CanonicalMemory s) : RegCanonical (setPart p f s) :=
  regCanonical_ite (regCanonical_error 2) (regCanonical_ok (canonical_applyPart p _ h))

theorem canonical_writePartIoc (p : PartId) (o : Nat) (w : RegWrite) {s : State} (h : CanonicalMemory s) : RegsCanonical (writePartIoc p o w s) := by
  have set := fun f => canonical_setPart p f h
  unfold writePartIoc
  split
  · exact regsCanonical_some (set _)
  · exact regsCanonical_some (regCanonical_guardBits _ w (set _))
  · exact regsCanonical_some (regCanonical_guardBits _ w (set _))
  · exact regsCanonical_none

theorem canonical_writeIoc (o : Nat) (w : RegWrite) {s : State} (h : CanonicalMemory s) : RegsCanonical (writeIoc o w s) := by
  have guarded := fun d t (ht : CanonicalMemory t) => regsCanonical_guarded d w ht
  unfold writeIoc
  dsimp only
  refine regsCanonical_ite (canonical_writePartIoc _ _ w h) (regsCanonical_ite
    (regsCanonical_some (regCanonical_guardBits _ w (regCanonical_error 4))) (regsCanonical_ite (guarded _ _ (canonical_ite h h))
    (regsCanonical_ite (guarded _ _ h) ?_)))
  split
  case h_1 | h_3 | h_7 | h_8 | h_9 | h_12 | h_14 | h_15 | h_16 | h_17 => exact guarded _ _ h
  case h_2 | h_6 | h_11 => exact guarded _ _ (canonical_ite h h)
  case h_4 => exact regsCanonical_some (regCanonical_limit _ h)
  case h_5 | h_13 => exact regsCanonical_limited _ w _ h
  case h_10 =>
    exact regsCanonical_some (regCanonical_guardBits _ w (regCanonical_ite (regCanonical_ite (regCanonical_error 2)
      (regCanonical_ok (canonical_mbStart _ h))) (regCanonical_ok h)))
  case h_18 => exact regsCanonical_none

/-! ### Work queues (R333, R334, R336) -/

theorem canonical_kick (q : Queue) (tail : Word32) {s : State} (h : CanonicalMemory s) : RegCanonical (kick q tail s) := by
  refine regCanonical_ite (regCanonical_error 2) ?_
  split
  · exact regCanonical_ite (regCanonical_ok h) (regCanonical_ok (canonical_haltQueue _ _ h))
  · exact regCanonical_limit _ h
  · exact regCanonical_error 2

theorem canonical_destroyQueue (q : Queue) {s : State} (h : CanonicalMemory s) : CanonicalMemory (destroyQueue q s) := by
  refine canonical_foldl (fun s j hs => ?_) _ _ ?_
  · exact canonical_updJob j.id _ hs
  · refine canonical_foldl (fun s j hs => ?_) _ _ ?_
    · exact canonical_endJob j 3 0 hs
    · exact h

theorem canonical_queueCmd (q : Queue) (cmd : Nat) {s : State} (h : CanonicalMemory s) : RegCanonical (queueCmd q cmd s) := by
  unfold queueCmd
  split
  · exact regCanonical_limit _ h
  · exact regCanonical_ok h
  · exact regCanonical_ok h
  · exact regCanonical_ok (canonical_destroyQueue q h)
  · exact regCanonical_ok (canonical_destroyQueue q h)
  · exact regCanonical_error 2

theorem canonical_writeQueue (q : QueueId) (o : Nat) (w : RegWrite) {s : State} (h : CanonicalMemory s) : RegsCanonical (writeQueue q o w s) := by
  have own := fun d e (he : RegCanonical e) => regsCanonical_some (regCanonical_guardBits d w (regCanonical_ite (p := w.low = true) he
    (regCanonical_ok h)))
  unfold writeQueue
  dsimp only
  split
  · exact regsCanonical_limited _ w _ h
  · exact regsCanonical_limited _ w _ h
  · exact own _ _ (canonical_kick _ _ h)
  · exact regsCanonical_some (regCanonical_ok h)
  · exact regsCanonical_guarded _ w h
  · exact own _ _ (canonical_queueCmd _ _ h)
  · exact regsCanonical_none

/-! ### Blocks of partitions, cores and slices (R98, R102, R105, R107, R330, R343, R354, R365, R369) -/

theorem canonical_writeVdev (p : PartId) (v : Fin 8) (o : Nat) (w : RegWrite) {s : State} (h : CanonicalMemory s) :
    RegsCanonical (writeVdev p v o w s) := by
  unfold writeVdev
  dsimp only
  split
  · exact regsCanonical_guarded _ w h
  · exact regsCanonical_some (regCanonical_ok h)
  · exact regsCanonical_guarded _ w h
  · exact regsCanonical_guarded _ w h
  · exact regsCanonical_none

theorem canonical_writeEndpoint (p : PartId) (e o : Nat) (w : RegWrite) {s : State} (h : CanonicalMemory s) :
    RegsCanonical (writeEndpoint p e o w s) := by
  unfold writeEndpoint
  dsimp only
  split
  · exact regsCanonical_some (regCanonical_limit _ h)
  · exact regsCanonical_some (regCanonical_limit _ h)
  · exact regsCanonical_limited _ w _ h
  · exact regsCanonical_limited _ w _ h
  · exact regsCanonical_none

theorem canonical_invStart (p : PartId) (v : Nat) {s : State} (h : CanonicalMemory s) : CanonicalMemory (invStart p v s) :=
  canonical_ite h (canonical_ite h h)

theorem canonical_writeSnapctl (p : PartId) (w : RegWrite) {s : State} (h : CanonicalMemory s) : CanonicalMemory (writeSnapctl p w s) := by
  unfold writeSnapctl
  extract_lets s1 s2
  have cleared : CanonicalMemory s1 := canonical_ite h h
  have fired : CanonicalMemory s2 := canonical_ite ((canonical_rows .C).fireSnap p 1 s1 cleared) cleared
  exact canonical_ite fired fired

theorem canonical_setChecked (p : PartId) (ok : Part → Bool) (f : Part → Part) {s : State} (h : CanonicalMemory s) :
    RegCanonical (setChecked p ok f s) := regCanonical_limit _ h

theorem canonical_writePart (p : PartId) (o : Nat) (w : RegWrite) {s : State} (h : CanonicalMemory s) : RegsCanonical (writePart p o w s) := by
  have guarded := fun d t (ht : CanonicalMemory t) => regsCanonical_guarded d w ht
  have checked := fun d ok f => regsCanonical_some (regCanonical_guardBits d w (canonical_setChecked p ok f h))
  unfold writePart
  dsimp only
  refine regsCanonical_ite (canonical_writeVdev _ _ _ w h) (regsCanonical_ite (canonical_writeEndpoint _ _ _ w h) ?_)
  split
  case h_1 =>
    exact regsCanonical_some (regCanonical_guardBits _ w (regCanonical_ite (regCanonical_ok (canonical_invStart p _ h)) (regCanonical_ok h)))
  case h_2 | h_3 | h_4 | h_9 | h_10 | h_11 | h_12 => exact guarded _ _ h
  case h_5 | h_6 | h_7 | h_8 | h_16 | h_17 => exact checked _ _ _
  case h_13 => exact regsCanonical_some (regCanonical_guardBits _ w (regCanonical_ite (regCanonical_ok h) (regCanonical_ok h)))
  case h_14 | h_19 => exact regsCanonical_some (regCanonical_ok h)
  case h_15 => exact guarded _ _ h
  case h_18 => exact guarded _ _ (canonical_writeSnapctl p w h)
  case h_20 => exact regsCanonical_none

theorem canonical_writeTintr (c : CoreId) (w : RegWrite) {s : State} (h : CanonicalMemory s) : RegCanonical (writeTintr c w s) :=
  regCanonical_ite (regCanonical_error 2) (regCanonical_ite (regCanonical_ok h) (regCanonical_ite (regCanonical_error 2) (regCanonical_ok h)))

theorem canonical_writeCore (c : CoreId) (o : Nat) (w : RegWrite) {s : State} (h : CanonicalMemory s) : RegsCanonical (writeCore c o w s) := by
  unfold writeCore
  dsimp only
  refine regsCanonical_ite (regsCanonical_ite (regsCanonical_guarded _ w h) (regsCanonical_limited _ w _ h))
    (regsCanonical_ite (regsCanonical_guarded _ w h) ?_)
  split
  case h_1 | h_5 | h_6 | h_7 => exact regsCanonical_some (regCanonical_ok h)
  case h_2 => exact regsCanonical_guarded _ w (canonical_ite h h)
  case h_3 => exact regsCanonical_some (regCanonical_guardBits _ w (canonical_writeTintr c w h))
  case h_4 => exact regsCanonical_guarded _ w h
  case h_8 => exact regsCanonical_none

theorem canonical_writeSlice (k : Fin 32) (o : Nat) (w : RegWrite) {s : State} (h : CanonicalMemory s) : RegsCanonical (writeSlice k o w s) := by
  unfold writeSlice
  dsimp only
  refine regsCanonical_ite (regsCanonical_ite (regsCanonical_guarded _ w h) (regsCanonical_limited _ w _ h)) ?_
  split
  case h_1 => exact regsCanonical_guarded _ w (canonical_ite h h)
  case h_2 | h_3 => exact regsCanonical_guarded _ w h
  case h_4 => exact regsCanonical_none

/-! ### BAR 0 and BAR 2 (R370, R371, R373) -/

theorem canonical_pageWrite (ro : List (Nat × Word)) (r : Nat) (e : Option RegEnd) {s : State} (h : CanonicalMemory s) :
    RegsCanonical (pageWrite ro r e s) := by
  refine regsCanonical_ite regsCanonical_none ?_
  split
  · exact regsCanonical_some (regCanonical_error 1)
  · exact regsCanonical_some (regCanonical_ok h)

theorem canonical_writeAt (o : Nat) (w : RegWrite) {s : State} (h : CanonicalMemory s) : RegsCanonical (writeAt o w s) := by
  have page := fun ro r e => canonical_pageWrite ro r e h
  refine regsCanonical_ite (regsCanonical_ite (page _ _ _) (canonical_writeIoc o w h)) (regsCanonical_ite (canonical_writeQueue _ _ w h)
    (regsCanonical_ite regsCanonical_none ?_))
  dsimp only
  exact regsCanonical_ite (regsCanonical_ite (page _ _ _) (canonical_writePart _ _ w h)) (regsCanonical_ite regsCanonical_none
    (regsCanonical_ite (regsCanonical_ite (page _ _ _) (canonical_writeCore _ _ w h)) (regsCanonical_ite regsCanonical_none
    (regsCanonical_ite (regsCanonical_ite (page _ _ _) (canonical_writeSlice _ _ w h)) regsCanonical_none))))

theorem canonical_hostWrite (off size : Nat) (v : Word) {s : State} (h : CanonicalMemory s) : CanonicalMemory (hostWrite off size v s) := by
  refine canonical_ite h ?_
  extract_lets sh w o
  have written := canonical_writeAt o w h
  split
  · exact h
  · next r e =>
    refine canonical_ite h ?_
    split
    · exact canonical_ite h h
    · exact written _ e _ rfl
    · exact h

theorem canonical_hostWrite2 (off size : Nat) (v : Word) {s : State} (h : CanonicalMemory s) : CanonicalMemory (hostWrite2 off size v s) := by
  refine canonical_ite h (canonical_ite h ?_)
  extract_lets w
  split
  · next e => exact canonical_writeQueue _ _ w h _ e _ rfl
  · exact h
  · exact h

theorem canonical_hostReadReg (two : Bool) (off size : Nat) {s : State} (h : CanonicalMemory s) : CanonicalMemory (hostReadReg two off size s) := by
  refine canonical_ite h (canonical_ite h ?_)
  extract_lets o
  have read : CanonicalMemory (if readable s o || !namesReg s o then ((readAt s o, s) : Word × State) else freshWord s).2 := by
    split
    · exact h
    · exact keeps_freshWord closed_canonical s h
  exact read

/-! ### Memory through BAR 4, invalidation (R99, R372) -/

theorem canonical_hostMemoryRead (off : BitVec 39) (n : Nat) {s : State} (h : CanonicalMemory s) : NextCanonical (execHostMemoryRead off n s) :=
  nextCanonical_ite (nextCanonical h) (nextCanonical (canonical_respond _ _ _ _ _ (keeps_physRead closed_canonical off.toNat n s h)))

theorem canonical_hostMemoryWrite (off : BitVec 39) (bytes : List Byte) {s : State} (h : CanonicalMemory s) :
    NextCanonical (execHostMemoryWrite off bytes s) :=
  nextCanonical_ite (nextCanonical h) (nextCanonical (keeps_physWrite _ _ off.toNat bytes s h))

theorem canonical_hostLocal (pa : Nat) (bytes : List Byte) {s : State} (h : CanonicalMemory s) : CanonicalMemory (hostLocal pa bytes s) :=
  canonical_ite (canonical_hostStore pa bytes h) h

theorem canonical_invStash (i : InvCmd) (cl : ClusterId) {s : State} (h : CanonicalMemory s) : CanonicalMemory (invStash i cl s) := by
  unfold invStash
  split
  · exact h
  · split
    · exact h
    · exact canonical_writebacks _ h

theorem canonical_invalidationDone (p : PartId) {s : State} (h : CanonicalMemory s) : NextCanonical (execInvalidationDone p s) := by
  unfold execInvalidationDone
  dsimp only
  split
  · exact nextCanonical h
  · next i _ =>
    refine nextCanonical_ite (nextCanonical h) (nextCanonical (canonical_updPart p _ ?_))
    exact canonical_foldl (f := fun s cl => invStash i cl s) (fun s cl hs => canonical_invStash i cl hs) _ _ (canonical_writebacks _ h)

theorem canonical_queueOffAfterDestroy (q : QueueId) {s : State} (h : CanonicalMemory s) : NextCanonical (execQueueOffAfterDestroy q s) :=
  nextCanonical_ite (nextCanonical h) (nextCanonical (canonical_raiseCause _ _ _ _ _ _ (s := s.setQueue _) h))

/-! ### Resets, bring-up, power (R374 to R376, R381) -/

theorem mapWfFrom_filter {α : Type} [DecidableEq α] {d : α} (p : Nat × α → Bool) {lo : Nat} {m : List (Nat × α)} (w : mapWfFrom d lo m = true) :
    mapWfFrom d lo (m.filter p) = true := by
  induction m generalizing lo with
  | nil => rfl
  | cons x t ih =>
    obtain ⟨k, v⟩ := x
    simp only [mapWfFrom, Bool.and_eq_true, decide_eq_true_eq] at w
    obtain ⟨⟨hlo, hv⟩, ht⟩ := w
    rw [List.filter_cons]
    split
    · simp only [mapWfFrom, Bool.and_eq_true, decide_eq_true_eq]
      exact ⟨⟨hlo, hv⟩, ih ht⟩
    · exact mapWfFrom_mono (by omega) (ih ht)

theorem canonical_coldReset {s : State} (h : CanonicalMemory s) : NextCanonical (execColdReset s) := by
  refine nextCanonical ⟨?_, rfl⟩
  exact mapWfFrom_filter _ h.1

theorem canonical_verify (a b : Nat) {s : State} (h : CanonicalMemory s) : NextCanonical (execVerify a b s) :=
  nextCanonical_ite (nextCanonical h) (nextCanonical_ite (nextCanonical h) (nextCanonical_ite (nextCanonical h) (nextCanonical h)))

theorem canonical_disablePart (p : PartId) {s : State} (h : CanonicalMemory s) : CanonicalMemory (disablePart p s) := by
  have flushed := canonical_updPart p (fun q => { q with psl := q.psl &&& ~~~validBit }) (canonical_flushPart (s.part p) h)
  exact canonical_of_eq (s := (flushPart (s.part p) s).updPart p _) rfl rfl flushed

theorem canonical_disableAll {s : State} (h : CanonicalMemory s) : CanonicalMemory (disableAll s) := by
  unfold disableAll
  generalize List.finRange 32 = ps
  exact canonical_foldl (f := fun s p => disablePart p s) (fun s p hs => canonical_disablePart p hs) ps s h

theorem canonical_trained (bad : List (Fin 8)) {s : State} (h : CanonicalMemory s) : CanonicalMemory (trained bad s) := by
  unfold trained
  split <;> exact h

theorem canonical_meminit (bad : List (Fin 8)) {s : State} (h : CanonicalMemory s) : NextCanonical (execMeminit bad s) := by
  have disabled := canonical_disableAll h
  unfold execMeminit
  generalize disableAll s = u at disabled ⊢
  exact nextCanonical_ite (nextCanonical h) (nextCanonical (canonical_trained bad disabled))

theorem canonical_abandonJobs (js : List Job) {s : State} (h : CanonicalMemory s) :
    CanonicalMemory (js.foldl (fun (s : State) j => match s.job? j.id with | some k => abandonJob k false s | none => s) s) := by
  refine canonical_foldl (fun s j hs => ?_) _ s h
  split
  · exact canonical_abandonJob _ false hs
  · exact hs

theorem canonical_functionLevelReset (bad : List (Fin 8)) {s : State} (h : CanonicalMemory s) : NextCanonical (execFunctionLevelReset bad s) := by
  unfold execFunctionLevelReset
  refine nextCanonical_ite (nextCanonical h) ?_
  extract_lets s1 s2
  have abandoned : CanonicalMemory s1 := canonical_abandonJobs s.jobs h
  have disabled : CanonicalMemory s2 := canonical_disableAll abandoned
  clear_value s2
  exact nextCanonical (canonical_trained bad disabled)

theorem canonical_grantAll (f : ClusterId → Bool) {s : State} (h : CanonicalMemory s) : CanonicalMemory (grantAll f s) := by
  refine canonical_foldl (fun s cl hs => ?_) _ s h
  exact hs

theorem canonical_thermalTripEnd {s : State} (h : CanonicalMemory s) : NextCanonical (execThermalTripEnd s) :=
  nextCanonical_ite (nextCanonical h) (nextCanonical (canonical_grantAll _ h))

end Sys2Proof.Machine
end

section
/-! Every step keeps memory in canonical form (O5). -/

namespace Sys2Proof.Machine

/-! ### What a strand sees, and what stays open (R185, R216) -/

theorem keeps_mixTile (a b : Tile) : Keeps CanonicalMemory (mixTile a b) := by
  intro s h
  unfold mixTile
  split
  · exact h
  · exact h

theorem canonical_viewTiles (c : CoreId) (ws : List TornTile) {s : State} (h : CanonicalMemory s) : CanonicalMemory (viewTiles c ws s) := by
  refine canonical_foldl (fun s w hs => ?_) ws s h
  exact canonical_updCore c _ (keeps_mixTile w.old _ s hs)

theorem canonical_viewSlot (c : CoreId) (n : BitVec 4) (new : Slot) {s : State} (h : CanonicalMemory s) : CanonicalMemory (viewSlot c n new s) :=
  canonical_updCore c _ (keeps_mixSlot c _ new s h)

theorem canonical_viewOf (c : CoreId) (st : Strand) {s : State} (h : CanonicalMemory s) : CanonicalMemory (viewOf c st s) := by
  have tiles := canonical_viewTiles c (tornBy (s.core c) st) h
  unfold viewOf
  dsimp only
  generalize (if st = .X then fillAt (s.core c) else none) = fill
  match fill with
  | none => exact tiles
  | some (n, new) => exact canonical_viewSlot c n new tiles

theorem keeps_mergeTile (cur view after : Tile) : Keeps CanonicalMemory (mergeTile cur view after) := fun _ h => h

theorem canonical_backTile (c : CoreId) (st : Strand) (s v : State) (w : TornTile) {t : State} (h : CanonicalMemory t) :
    CanonicalMemory (backTile c st s v w t) := by
  unfold backTile
  extract_lets x y z own mine
  refine canonical_ite (canonical_updCore c _ h) ?_
  split
  next n t1 e1 =>
  have merged := (keeps_mergeTile _ _ _).of_eq h e1
  split
  next l t2 e2 =>
  have joined := (keeps_joinL c _ _).of_eq merged e2
  split
  next b t3 e3 =>
  exact canonical_updCore c _ ((keeps_joinL c _ _).of_eq joined e3)

theorem canonical_backSlot (c : CoreId) (n : BitVec 4) (s v : State) {t : State} (h : CanonicalMemory t) : CanonicalMemory (backSlot c n s v t) :=
  canonical_ite h h

theorem canonical_backOf (c : CoreId) (st : Strand) (s v : State) {t : State} (h : CanonicalMemory t) : CanonicalMemory (backOf c st s v t) := by
  have tiles := canonical_foldl (f := fun t w => backTile c st s v w t) (fun t w ht => canonical_backTile c st s v w ht) (tornBy (t.core c) st) t h
  unfold backOf
  dsimp only
  generalize (if st = .X then fillAt (s.core c) else none) = fill
  match fill with
  | none => exact tiles
  | some (n, new) => exact canonical_backSlot c n s v tiles

theorem canonical_openLabels (c : CoreId) (x : XState) (ws : List TornTile) {s : State} (h : CanonicalMemory s) :
    CanonicalMemory (openLabels c x ws s) :=
  canonical_foldl (fun _ _ hs => canonical_updCore c _ (keeps_joinL c _ _ _ hs)) ws s h

theorem canonical_openTorn (c : CoreId) (st : Strand) (x : XState) {t : State} (h : CanonicalMemory t) : CanonicalMemory (openTorn c st x t) :=
  canonical_ite (canonical_updCore c _ h) (canonical_updCore c _ (canonical_openLabels c x _ h))

/-- A turn that leaves memory canonical, from every state where it is. -/
def TurnCanonical (f : State → Out) : Prop := ∀ s, CanonicalMemory s → NextCanonical (f s)

theorem TurnCanonical.seeing {issue : State → Out} (hi : TurnCanonical issue) (c : CoreId) (st : Strand) : TurnCanonical (seeing c st issue) := by
  intro s h
  refine nextCanonical_ite (hi s h) ?_
  have issued := hi _ (canonical_viewOf c st h)
  dsimp only
  split
  · next t e => exact nextCanonical (canonical_backOf c st s _ (issued t e))
  · exact issued

theorem TurnCanonical.leaving {issue : State → Out} (hi : TurnCanonical issue) (c : CoreId) (st : Strand) : TurnCanonical (leaving c st issue) := by
  intro s h
  refine nextCanonical_ite (hi s h) ?_
  have issued := hi _ (canonical_updCore c (fun k => { k with flights := k.flights ++ [tornMark st] }) h)
  split
  · next t e => exact nextCanonical (canonical_ite (canonical_openTorn c st _ (issued t e)) (issued t e))
  · exact issued

theorem TurnCanonical.strandIssue {issue : State → Out} (hi : TurnCanonical issue) (c : CoreId) (st : Strand) :
    TurnCanonical (strandIssue c st issue) :=
  fun _ h => hi.seeing c st _ (canonical_updCore c _ h)

/-! ### Rows of the other agents -/

/-- A row of an agent other than the strands leaves memory canonical. -/
theorem canonical_agentRow {i : Instr} (hi : i.tbl = .agent) {s : State} (h : CanonicalMemory s) : NextCanonical (exec i s) := by
  cases i
  case annulledPosition c => exact canonical_annulledPosition c h
  case illegalInstructionWord c st w => exact canonical_illegalInstructionWord c st w h
  case instructionFetchFault c st => exact canonical_instructionFetchFault c st h
  case asyncTrapTake c => exact canonical_asyncTrapTake c h
  case loadDelivery c d => exact nextCanonical (canonical_deliverFirst c d _ h)
  case amoDelivery c d => exact nextCanonical (canonical_deliverFirst c d _ h)
  case vtreeDelivery c => exact canonical_vtreeDelivery c h
  case histRdDelivery c => exact canonical_histRdDelivery c h
  case ldTileEntryWrite c r => exact canonical_ldTileEntryWrite c r h
  case mmaRetire c => exact canonical_mmaRetire c h
  case taskRetire c => exact canonical_taskRetire c h
  case phaseBarrierComplete c => exact nextCanonical (canonical_tryBarrier c h)
  case semWaiterServed c n => exact canonical_semWaiterServed c n h
  case flagAddApply j k => exact canonical_flagAddApply j k h
  case waittResume c => exact canonical_waittResume c h
  case transferRecordRead cl ch => exact canonical_transferRecordRead cl ch h
  case transferUnit src => exact canonical_transferUnit src h
  case recordCompletion cl ch => exact canonical_recordCompletion cl ch h
  case tcpCompletion c n => exact canonical_tcpCompletion c n h
  case deadlineLeadReached src => exact canonical_deadlineLeadReached src h
  case spillCompletion c => exact canonical_spillCompletion c h
  case scanNetSweepEnd c => exact canonical_scanNetSweepEnd c h
  case carryPacket p k => exact canonical_carryPacket p k h
  case spliceService k => exact nextCanonical (canonical_serveRep true k h)
  case repGoService k => exact nextCanonical (canonical_serveRep false k h)
  case workItemReturn k n => exact canonical_workItemReturn k n h
  case guardedReadResume c st => exact canonical_guardedReadResume c st h
  case collSend n => exact canonical_collSend n h
  case collRecv n => exact canonical_collRecv n h
  case collCopy n => exact canonical_collCopy n h
  case collWait n => exact canonical_collWait n h
  case collLoop n => exact canonical_collLoop n h
  case collEnd n => exact canonical_collEnd n h
  case chunkReady n => exact canonical_chunkReady n h
  case collMessage p m => exact canonical_collMessage p m h
  case collAck n => exact canonical_collAck n h
  case abortNotice p t r m => exact canonical_abortNotice p t r m h
  case collTimeout n => exact canonical_collTimeout n h
  case labelJoinMiss d a b => exact canonical_labelJoinMiss d a b h
  case packetFetch q => exact canonical_packetFetch q h
  case prologueComplete j => exact canonical_prologueComplete j h
  case preemptionDecision j => exact canonical_preemptionDecision j h
  case jobBind j cls => exact canonical_jobBind j cls h
  case drain j => exact canonical_drain j h
  case drainWindowExpiry j => exact canonical_drainWindowExpiry j h
  case checkpoint j => exact canonical_checkpoint j h
  case contextSaved j => exact canonical_contextSaved j h
  case kill j => exact canonical_kill j h
  case jobResume j cls => exact canonical_jobResume j cls h
  case bucketRefill => exact canonical_bucketRefill h
  case quantumEnd p => exact canonical_quantumEnd p h
  case rackLaunchPacket q b => exact canonical_rackLaunchPacket q b h
  case ualinkRequest r => exact canonical_ualinkRequest r h
  case flitReceive f => exact canonical_flitReceive f h
  case flitReplay p => exact canonical_flitReplay p h
  case linkDown p => exact canonical_linkDown p h
  case epochRewrite k => exact nextCanonical (canonical_rewriteEpochs k h)
  case l1Writeback c n => exact canonical_l1Writeback c n h
  case hostLinkBudgetWindow => exact nextCanonical h
  case hostRegisterWrite off n v => exact nextCanonical (canonical_hostWrite _ n v h)
  case hostMemoryRead off n => exact canonical_hostMemoryRead off n h
  case hostMemoryWrite off b => exact canonical_hostMemoryWrite off b h
  case invStage1Range | invStage1All | invStage2Range | invStage2All | invPartitionAll | wqkick | wqEnable | wqResume | wqSkip | wqDestroy |
      psl | vdq | tintr | timeset | snapHostTrigger | snapArm | wsrecValidClear | racepaValidClear | hprecValidClear | relrecValidClear |
      ftrecValidClear | lostClear | createOrigin | installPolicy | removePolicy | attest =>
    exact nextCanonical (canonical_hostWrite _ _ _ h)
  case queueOffAfterDestroy q => exact canonical_queueOffAfterDestroy q h
  case invalidationDone p => exact canonical_invalidationDone p h
  case mailboxDone => exact canonical_mailboxDone h
  case coldReset => exact canonical_coldReset h
  case bringupStart => exact nextCanonical_ite (nextCanonical h) (nextCanonical h)
  case verify a b => exact canonical_verify a b h
  case meminit bad => exact canonical_meminit bad h
  case functionLevelReset bad => exact canonical_functionLevelReset bad h
  case ppsIn => exact nextCanonical h
  case lovageGrant g mw => exact nextCanonical (canonical_grantAll _ h)
  case thermalTrip => exact nextCanonical (canonical_grantAll _ h)
  case thermalTripEnd => exact canonical_thermalTripEnd h
  all_goals cases hi

/-- Every row leaves memory canonical. -/
theorem canonical_exec (i : Instr) : TurnCanonical (exec i) := by
  intro s h
  by_cases hi : i.tbl = .agent
  · exact canonical_agentRow hi h
  · exact canonical_strandRow hi h

/-! ### Turns (R24, R252, R257; log entry 4) -/

theorem canonical_fetchStep (c : CoreId) (st : Strand) : TurnCanonical (fetchStep c st) := by
  intro s h
  have fetched := (canonical_rows .C).fetchWord c st s h
  unfold fetchStep
  split
  · exact canonical_instructionFetchFault c st h
  · next s1 e =>
    rw [e] at fetched
    exact nextCanonical (s := s1) fetched
  · next w s1 e =>
    rw [e] at fetched
    split
    · exact canonical_exec _ s1 fetched
    · exact canonical_illegalInstructionWord c st w (s := s1) fetched

theorem canonical_wakeC (c : CoreId) {s : State} (h : CanonicalMemory s) {o : Out} (e : wakeC c s = some o) : NextCanonical o := by
  have delivered : ∀ p : Pend, NextCanonical (if p.src = .amo then execAmoDelivery c p.reg s else execLoadDelivery c p.reg s) := fun p =>
    nextCanonical_ite (nextCanonical (canonical_deliverFirst c _ _ h)) (nextCanonical (canonical_deliverFirst c _ _ h))
  unfold wakeC at e
  dsimp only at e
  split at e
  · cases e
    split
    · exact delivered _
    · exact canonical_taskRetire c h
  · split at e
    · cases e
      exact nextCanonical (canonical_tryBarrier c h)
    · split at e
      · cases e
        exact delivered _
      · cases e

theorem canonical_jobStep (c : CoreId) {s : State} (h : CanonicalMemory s) {o : Out} (e : jobStep c s = some o) : NextCanonical o := by
  unfold jobStep at e
  split at e
  · cases e
  · split at e
    · cases e
      exact canonical_kill _ h
    · split at e
      · cases e
        exact canonical_jobResume _ _ h
      · cases e

theorem canonical_issueStep (c : CoreId) (st : Strand) : TurnCanonical (issueStep c st) := by
  intro s h
  refine nextCanonical_ite (canonical_asyncTrapTake c h) ?_
  split
  · next o e =>
    split at e
    · exact canonical_wakeC c h e
    · cases e
  · exact nextCanonical_ite (nextCanonical h) (nextCanonical_ite (canonical_annulledPosition c h) (canonical_fetchStep c st s h))

theorem canonical_strandTurn {issue : State → Out} (hi : TurnCanonical issue) (c : CoreId) {s : State} (h : CanonicalMemory s) :
    NextCanonical ((jobStep c s).getD (issue s)) := by
  cases e : jobStep c s with
  | none => exact hi s h
  | some o => exact canonical_jobStep c h e

theorem canonical_strandStep (c : CoreId) (st : Strand) : TurnCanonical (strandStep c st) := fun _ h =>
  canonical_strandTurn ((canonical_issueStep c st).strandIssue c st) c h

theorem canonical_tornStep (c : CoreId) (st : Strand) : TurnCanonical (tornStep c st) := fun _ h =>
  canonical_strandTurn (((canonical_issueStep c st).leaving c st).strandIssue c st) c h

theorem canonical_turn (a : Agent) {s : State} (h : CanonicalMemory s) : NextCanonical (turn a s) := by
  cases a with
  | strand c st => exact canonical_strandStep c st { s with cur := (c, st) } h
  | torn c st => exact canonical_tornStep c st { s with cur := (c, st) } h
  | event i => exact canonical_exec i s h
  | tick n => exact nextCanonical h
  | tlbEvict asid vpage => exact nextCanonical h
  | hostLocal pa bytes => exact nextCanonical (canonical_hostLocal pa bytes h)
  | eccError sector corrected => exact nextCanonical (canonical_eccError sector corrected h)
  | barTwo off size v => exact nextCanonical (canonical_hostWrite2 _ size v h)
  | barRead two off size => exact nextCanonical (canonical_hostReadReg two _ size h)
  | bootVerify => exact nextCanonical (canonical_ite h h)
  | matrixStep c => exact nextCanonical ((canonical_rows .C).matStep c s h)
  | inlbl fabric l => exact nextCanonical h
  | flitSend p => exact nextCanonical h
  | pins g r => exact nextCanonical h

/-- A turn that is not taken leaves the state but for the count of free choices. -/
theorem canonical_paced {s : State} (h : CanonicalMemory s) {o : Out} (ho : NextCanonical o) : NextCanonical (paced s o) := by
  unfold paced
  split
  · exact nextCanonical_ite (nextCanonical h) ho
  · exact ho

theorem canonical_step {s : State} (h : CanonicalMemory s) : NextCanonical (step s) := by
  unfold step nextTurn
  split
  · exact canonical_paced h (canonical_strandStep _ _ s h)
  · next a rest _ =>
    have taken : CanonicalMemory { s with agenda := rest } := h
    exact canonical_paced taken (canonical_turn a taken)

/-- Settles O5: whatever agent takes its turn, it writes memory and side bands through the operations that keep their canonical form. -/
theorem stepKeepsMemoryCanonical : Obligations.StepKeepsMemoryCanonical := by
  unfold Obligations.StepKeepsMemoryCanonical
  exact fun _ t h e => canonical_step h t e

end Sys2Proof.Machine
end

section
/-! A fetch beyond 2^52 need not fault (O12): a line of the L1 may record the page. -/

namespace Sys2Proof.Machine

/-! ### A position whose sector stands in the L1 (R90, R95) -/

/-- A line of core 0's L1 under virtual page 2^40, executable, of the reset core's address space. -/
def farLine : Line :=
  { sector := 0, owner := .l1 0 0 (2 ^ 40), bytes := List.replicate 64 0, lbl := 0, poison := false, dirty := false, task := none, va := 2 ^ 52,
    tag := some { pid := 0, vd := 0, r := true, w := true, x := true, tso := false, lbl := 0 } }

/-- Core 0's C strand stands at 2^52, outside a handler and with a trap vector, and the L1 has the sector of that address. -/
def farFetch : State :=
  { (placeWord State.reset .C 0).updCore 0 (fun k => { k with seq := Seq.at_ (2 ^ 52), csr := { k.csr with tvec := 4096 } }) with
    lines := [farLine] }

/-- An access that hits the L1 makes no translation (R90), so the fetch delivers a word and nothing faults. -/
theorem farFetch_hits : (match fetchWord 0 .C farFetch with | .ok _ => true | .error _ => false) = true := by decide +kernel

theorem farFetch_stays : exec (.instructionFetchFault 0 .C) farFetch = .next farFetch := by
  have hits := farFetch_hits
  show execInstructionFetchFault 0 .C farFetch = .next farFetch
  unfold execInstructionFetchFault
  split
  · rfl
  · split
    · next e => rw [e] at hits; cases hits
    · next e => rw [e] at hits; cases hits
    · rfl

/-- Refutes O12: the fault of a position beyond 2^52 comes from its translation (R95), and of a fetch whose sector stands in the core's L1
under that page there is none (R90). No step makes such a line, but the statement is about every state. -/
theorem not_positionsWithoutFetch : ¬ Obligations.PositionsWithoutFetch := by
  unfold Obligations.PositionsWithoutFetch
  intro h
  obtain ⟨-, hfault⟩ := h farFetch 0 (by decide +kernel)
  obtain ⟨t, hrun, -, hcause, -⟩ := hfault (by decide +kernel) (by decide +kernel) (by decide +kernel) (by decide +kernel)
  rw [farFetch_stays] at hrun
  cases hrun
  exact absurd hcause (by decide +kernel)

end Sys2Proof.Machine
end

section
/-! Translations stay with a write-back (O58): of what a written-back line touches, the TLBs are no part. -/

namespace Sys2Proof.Machine

/-! ### What a write-back does with translations (R98, R109) -/

theorem raiseCause_tlb (kind : Nat) (p : PartId) (vd j q d : Nat) (s : State) : (raiseCause kind p vd j q d s).tlb = s.tlb := by
  unfold raiseCause
  dsimp only
  split <;> rfl

theorem latchCores_tlb (cs : List CoreId) (s : State) : (cs.foldl (fun s c => s.updCore c latchCore) s).tlb = s.tlb := by
  induction cs generalizing s with
  | nil => rfl
  | cons c cs ih => exact ih _

theorem fireSnap_tlb (p : PartId) (src : Nat) (s : State) : (fireSnap p src s).tlb = s.tlb := by
  unfold fireSnap
  dsimp only
  split
  · rfl
  · exact latchCores_tlb _ s

theorem watchSlice_tlb (a : Author) (pa len : Nat) (s : State) : (watchSlice a pa len s).tlb = s.tlb := by
  unfold watchSlice
  dsimp only
  split
  · rfl
  · split
    · rfl
    · split
      · rfl
      · split
        · rw [fireSnap_tlb, raiseCause_tlb]
          rfl
        · rw [raiseCause_tlb]
          rfl

theorem putSector_tlb (a : Author) (n o : Nat) (bs : List Byte) (l : Label) (p : Bool) (s : State) : (putSector a n o bs l p s).tlb = s.tlb :=
  watchSlice_tlb a (n * 64 + o) bs.length { s with
    mem := putBytes s.mem (n * 64) (overlay (readLocal s n).bytes o bs),
    side := mapSet Side.none s.side n { lbl := l, epoch := (s.slice (sliceOf s (n * 64))).epoch, poison := p } }

theorem charge_tlb (p : PartId) (k : HlKind) (n : Nat) (s : State) : (charge p k n s).tlb = s.tlb := by
  unfold charge
  split <;> rfl

theorem relDeny_tlb (c : CoreId) (v : Word) (s : State) : (relDeny c v s).tlb = s.tlb := by
  unfold relDeny queueTrap
  split <;> rfl

theorem freePort_tlb (cls : Nat) (s : State) : (freePort cls s).2.tlb = s.tlb := by
  unfold freePort
  split <;> rfl

theorem emit_tlb (cls : Nat) (m : OutMsg) (s : State) : (emit cls m s).2.tlb = s.tlb := by
  refine Eq.trans ?_ (freePort_tlb cls s)
  show (emitAt (freePort cls s).1 m (freePort cls s).2).tlb = _
  unfold emitAt
  split <;> rfl

theorem sendOut_tlb (job pa : Nat) (bs : List Byte) (l : Label) (va : Word) (s : State) : (sendOut job pa bs l va s).2.tlb = s.tlb := by
  unfold sendOut
  split
  · dsimp only
    split
    · rfl
    · exact emit_tlb _ _ _
  · exact freePort_tlb _ s

theorem writeback_tlb (l : Line) (s : State) : (writeback l s).tlb = s.tlb := by
  unfold writeback
  dsimp only
  split
  · exact putSector_tlb _ _ _ _ _ _ _
  · have charged : (match l.task with
        | some (c, _) => charge ((s.dropLine l.sector).core c).id.pid .write (if l.dirty && paHost (l.sector * 64) then 1 else 0)
            (s.dropLine l.sector)
        | none => s.dropLine l.sector).tlb = s.tlb := by
      split
      · exact charge_tlb _ _ _ _
      · rfl
    have sent : ∀ u : State, ((if l.dirty then sendOut (lineJob l) (l.sector * 64) l.bytes l.lbl l.va u
        else (WroteTo.done, u) : WroteTo × State)).2.tlb = u.tlb := by
      intro u
      split
      · exact sendOut_tlb _ _ _ _ _ _
      · rfl
    have told : ∀ r : WroteTo × State, (match r.1, l.task with
        | .denied va, some (c, j) => if (r.2.core c).job = some j then relDeny c va r.2 else r.2
        | _, _ => r.2).tlb = r.2.tlb := by
      intro r
      split
      · split
        · exact relDeny_tlb _ _ _
        · rfl
      · rfl
    have kept : ∀ u : State, (if paRemote (l.sector * 64) then u.putLine { l with dirty := false } else u).tlb = u.tlb := by
      intro u
      split <;> rfl
    exact (kept _).trans ((told _).trans ((sent _).trans charged))

/-! ### Lines written back and given up (R99, R109) -/

/-- What a line written back and given up leaves stood there before, in another sector. -/
theorem mem_lines_giveUp {l x : Line} {s : State} (hx : x ∈ ((writeback l s).dropLine l.sector).lines) : x ∈ s.lines ∧ x.sector ≠ l.sector := by
  obtain ⟨hx, hne⟩ := List.mem_filter.1 hx
  have hne : x.sector ≠ l.sector := by simpa using hne
  refine ⟨?_, hne⟩
  have old : ∀ u, SameHolders (s.dropLine l.sector) u → x ∈ u.lines → x ∈ s.lines := by
    intro u hu hm
    rw [hu.lines] at hm
    exact (List.mem_filter.1 hm).1
  obtain ⟨u, hu, h | h⟩ := writeback_cases l s
  · rw [h] at hx
    exact old u hu hx
  · rw [h] at hx
    rcases List.mem_cons.1 hx with rfl | hx
    · exact absurd rfl hne
    · exact old u hu (List.mem_filter.1 hx).1

/-- Several lines written back and given up, one after the other. -/
def giveUpAll (ls : List Line) (s : State) : State := ls.foldl (fun s l => (writeback l s).dropLine l.sector) s

theorem giveUpAll_tlb (ls : List Line) (s : State) : (giveUpAll ls s).tlb = s.tlb := by
  induction ls generalizing s with
  | nil => rfl
  | cons l ls ih => exact (ih _).trans (writeback_tlb l s)

theorem mem_lines_giveUpAll {ls : List Line} {x : Line} {s : State} (hx : x ∈ (giveUpAll ls s).lines) :
    x ∈ s.lines ∧ ∀ l ∈ ls, x.sector ≠ l.sector := by
  induction ls generalizing s with
  | nil => exact ⟨hx, by simp⟩
  | cons l ls ih =>
    obtain ⟨hmem, hne⟩ := ih hx
    obtain ⟨hmem, hl⟩ := mem_lines_giveUp hmem
    exact ⟨hmem, List.forall_mem_cons.2 ⟨hl, hne⟩⟩

/-- An invalidated stash gives up lines and frames alone, and takes no line on. -/
theorem invStash_gives (i : InvCmd) (cl : ClusterId) (s : State) :
    (invStash i cl s).tlb = s.tlb ∧ ∀ x ∈ (invStash i cl s).lines, x ∈ s.lines := by
  unfold invStash
  split
  · exact ⟨rfl, fun _ hx => hx⟩
  · split
    · exact ⟨rfl, fun _ hx => hx⟩
    · exact ⟨giveUpAll_tlb _ s, fun x hx => (mem_lines_giveUpAll hx).1⟩

theorem invStashes_give (i : InvCmd) (cls : List ClusterId) (s : State) :
    (cls.foldl (fun s cl => invStash i cl s) s).tlb = s.tlb ∧ ∀ x ∈ (cls.foldl (fun s cl => invStash i cl s) s).lines, x ∈ s.lines := by
  induction cls generalizing s with
  | nil => exact ⟨rfl, fun _ hx => hx⟩
  | cons cl cls ih =>
    obtain ⟨htlb, hlines⟩ := invStash_gives i cl s
    obtain ⟨htlb', hlines'⟩ := ih (invStash i cl s)
    exact ⟨htlb'.trans htlb, fun x hx => hlines x (hlines' x hx)⟩

end Sys2Proof.Machine
end

section
/-! Invalidation (O58): the command word of INVCMD, what the partition makes of it, and the end of a command. -/

namespace Sys2Proof.Machine

/-! ### INVCMD (R98) -/

/-- INVCMD's fields: KIND, VD and ASID (R98). -/
def invWord (kind asid vd : Nat) : Word := wd (asid * 64 + vd * 8 + kind)

section Word
variable {kind : Nat} {asid : BitVec 16} {vd : BitVec 3} (hk : kind < 8)
include hk

theorem invWord_toNat : (invWord kind asid.toNat vd.toNat).toNat = asid.toNat * 64 + vd.toNat * 8 + kind := by
  have ha := asid.isLt
  have hv := vd.isLt
  simp only [invWord, wd, BitVec.toNat_ofNat]
  omega

theorem invWord_kind : bits (invWord kind asid.toNat vd.toNat).toNat 0 3 = kind := by
  rw [invWord_toNat hk, bits]
  omega

theorem invWord_vd : BitVec.ofNat 3 (bits (invWord kind asid.toNat vd.toNat).toNat 3 3) = vd := by
  have hv := vd.isLt
  have hbits : bits (invWord kind asid.toNat vd.toNat).toNat 3 3 = vd.toNat := by
    rw [invWord_toNat hk, bits]
    omega
  rw [hbits, BitVec.ofNat_toNat, BitVec.setWidth_eq]

theorem invWord_asid : BitVec.ofNat 16 (bits (invWord kind asid.toNat vd.toNat).toNat 6 16) = asid := by
  have ha := asid.isLt
  have hv := vd.isLt
  have hbits : bits (invWord kind asid.toNat vd.toNat).toNat 6 16 = asid.toNat := by
    rw [invWord_toNat hk, bits]
    omega
  rw [hbits, BitVec.ofNat_toNat, BitVec.setWidth_eq]

/-- A command sets no reserved bit. -/
theorem invWord_defined : invWord kind asid.toNat vd.toNat &&& ~~~(span 0 22) = 0 := by
  have ha := asid.isLt
  have hv := vd.isLt
  have hs : span 0 22 = (BitVec.allOnes 22).setWidth 64 := by decide
  rw [hs]
  ext i hi
  rw [BitVec.getElem_and, BitVec.getElem_not, BitVec.getElem_setWidth, BitVec.getLsbD_allOnes]
  by_cases h22 : i < 22
  · simp [h22]
  · have hlt : (invWord kind asid.toNat vd.toNat).toNat < 2 ^ 22 := by rw [invWord_toNat hk]; omega
    have hlt : (invWord kind asid.toNat vd.toNat).toNat < 2 ^ i := lt_of_lt_of_le hlt (Nat.pow_le_pow_right (by decide) (by omega))
    have hbit : (invWord kind asid.toNat vd.toNat)[i] = false := Nat.testBit_lt_two_pow hlt
    simp [hbit]

end Word

theorem discard_part (kind bar off : Nat) (s : State) (p : PartId) : (discard kind bar off s).part p = s.part p := rfl

theorem writePart_invcmd (p : PartId) (w : RegWrite) (s : State) :
    writePart p 0 w s = some (guardBits (span 0 22) w (if w.low then .ok (invStart p w.val.toNat s) else .ok s)) := rfl

theorem partBlock_aligned (p : PartId) : partBlock p % 8 = 0 := by
  unfold partBlock
  omega

theorem invBusy_partBlock (p : PartId) (s : State) : invBusy (partBlock p) s = if (s.part p).inv.isSome then some p else none := by
  have hp := p.isLt
  have hi : (0x400000 + p.val * 0x20000 - 0x400000) / 0x20000 = p.val := by omega
  unfold invBusy partBlock
  rw [if_pos (by omega), hi, Fin.ofNat_val_eq_self]

section Command
variable {s : State} {p : PartId} {kind : Nat} {asid : BitVec 16} {vd : BitVec 3} (hk : kind < 8)
include hk

theorem writeAt_invcmd : writeAt (partBlock p) (wholeWrite (invWord kind asid.toNat vd.toNat)) s =
    some (.ok (invStart p (invWord kind asid.toNat vd.toNat).toNat s)) := by
  have hblock := writeAt_part p (r := 0) (wholeWrite (invWord kind asid.toNat vd.toNat)) s (by decide)
  rw [Nat.add_zero, writePart_invcmd, guardBits_pass _ (invWord_defined hk), wholeWrite_low, if_pos rfl] at hblock
  exact hblock

variable (hs : s.boot.st = .ready)
include hs

/-- With no command under way the write is one of INVCMD. -/
theorem invWrite_idle (hi : (s.part p).inv = none) :
    invWrite p kind asid.toNat vd.toNat s = invStart p (invWord kind asid.toNat vd.toNat).toNat s :=
  hostWrite_taken (partBlock_aligned p) (writeAt_invcmd hk) hs (by rw [invBusy_partBlock, hi]; rfl)

/-- While BUSY the write is discarded and sets ERR (R98). -/
theorem invWrite_busy (hi : (s.part p).inv ≠ none) :
    invWrite p kind asid.toNat vd.toNat s = discard 2 0 (partBlock p) (s.updPart p (fun q => { q with invErr := true })) := by
  have h8 := partBlock_aligned p
  have ho : partBlock p / 8 * 8 = partBlock p := by omega
  have hw := writeAt_invcmd (s := s) (p := p) (asid := asid) (vd := vd) hk
  have hb : invBusy (partBlock p) s = some p := by rw [invBusy_partBlock, if_pos (Option.isSome_iff_ne_none.2 hi)]
  show hostWrite (partBlock p) 8 (invWord kind asid.toNat vd.toNat) s = _
  unfold hostWrite
  simp only [h8, ho, Nat.zero_mul, wholeWrite_eq, hw, hb, wholeWrite_low]
  simp [hs]

end Command

theorem invStart_taken {s : State} {p : PartId} {kind : Nat} {asid : BitVec 16} {vd : BitVec 3} (hk : kind < 8) (h0 : kind ≠ 0)
    (h5 : kind ≤ 5) (hc : kind = 1 ∨ kind = 3 → (s.part p).invcnt ≠ 0) :
    invStart p (invWord kind asid.toNat vd.toNat).toNat s = s.updPart p (fun q => { q with inv := some (
      { kind := kind, asid := asid, vd := vd, page := (s.part p).invaddr.toNat / 4096, count := (s.part p).invcnt.toNat } : InvCmd) }) := by
  unfold invStart
  rw [invWord_kind hk, invWord_asid hk, invWord_vd hk, if_neg (by omega), if_neg (fun h => hc h.1 h.2)]

theorem invStart_empty {s : State} {p : PartId} {kind : Nat} {asid : BitVec 16} {vd : BitVec 3} (hk : kind < 8)
    (hc : kind = 1 ∨ kind = 3) (h : (s.part p).invcnt = 0) :
    invStart p (invWord kind asid.toNat vd.toNat).toNat s = s.updPart p (fun q => { q with invDone := true }) := by
  unfold invStart
  rw [invWord_kind hk, if_neg (by omega), if_pos ⟨hc, h⟩]

/-- A row that is a command of INVCMD: taken, ended at once, or refused while another is under way (R98, R99). -/
theorem invalidation_command {s : State} {p : PartId} {i : Instr} {kind : Nat} {asid : BitVec 16} {vd : BitVec 3} (hs : s.boot.st = .ready)
    (hrun : exec i s = .next (invWrite p kind asid.toNat vd.toNat s)) (h0 : kind ≠ 0) (h5 : kind ≤ 5) :
    let q := s.part p
    let cmd : InvCmd := { kind := kind, asid := asid, vd := vd, page := q.invaddr.toNat / 4096, count := q.invcnt.toNat }
    (q.inv = none → (kind = 1 ∨ kind = 3 → q.invcnt ≠ 0) → exec i s = .next (s.updPart p (fun q => { q with inv := some cmd }))) ∧
    (q.inv = none → (kind = 1 ∨ kind = 3) → q.invcnt = 0 → exec i s = .next (s.updPart p (fun q => { q with invDone := true }))) ∧
    (q.inv ≠ none → ∃ t, exec i s = .next t ∧ (t.part p).inv = q.inv ∧ (t.part p).invErr = true ∧ t.tlb = s.tlb) := by
  have hk : kind < 8 := by omega
  refine ⟨fun hi hc => ?_, fun hi hc h => ?_, fun hi => ?_⟩
  · rw [hrun, invWrite_idle hk hs hi, invStart_taken hk h0 h5 hc]
  · rw [hrun, invWrite_idle hk hs hi, invStart_empty hk hc h]
  · refine ⟨_, hrun, ?_⟩
    rw [invWrite_busy hk hs hi]
    rw [discard_part, State.part_updPart_self]
    exact ⟨rfl, rfl, rfl⟩

/-! ### INVALIDATION_DONE (R99) -/

section Done
variable {s : State} {p : PartId} {i : InvCmd} (hi : (s.part p).inv = some i)
include hi

theorem invalidationDone_waits (hw : ∃ c ∈ (s.part p).cores, i.waits s c = true) : exec (.invalidationDone p) s = .next s := by
  have hany : (s.part p).cores.any (i.waits s) = true := List.any_eq_true.2 hw
  show execInvalidationDone p s = _
  unfold execInvalidationDone
  simp only [hi, hany, if_true]

/-- An L1 line that a command gives up, by what it records of its translation (R90, R99). -/
def InvCmd.takes (i : InvCmd) (p : PartId) (l : Line) : Bool :=
  match l.owner with
  | .l1 _ asid v => l.tag.all (fun t => t.pid == p && i.covers asid t.vd v)
  | .stash _ _ => false

theorem invalidationDone_ends (hw : ∀ c ∈ (s.part p).cores, i.waits s c = false) : exec (.invalidationDone p) s = .next
    (((s.part p).clusters.foldl (fun s cl => invStash i cl s) (giveUpAll (s.lines.filter (i.takes p))
      { s with tlb := s.tlb.filter (fun t => !(t.pid == p && i.uses t.asid t.vd t.vpage t.leaf t.span)) })).updPart p
        (fun q => { q with inv := none, invDone := true })) := by
  have hany : (s.part p).cores.any (i.waits s) = false := by
    rw [List.any_eq_false]
    exact fun c hc => by rw [hw c hc]; decide
  show execInvalidationDone p s = _
  unfold execInvalidationDone
  simp only [hi, hany]
  rfl

theorem invalidationDone_state (hw : ∀ c ∈ (s.part p).cores, i.waits s c = false) :
    ∃ t, exec (.invalidationDone p) s = .next t ∧ (t.part p).inv = none ∧ (t.part p).invDone = true ∧
      t.tlb = s.tlb.filter (fun t => !(t.pid == p && i.uses t.asid t.vd t.vpage t.leaf t.span)) ∧
      ∀ l ∈ t.lines, i.takes p l = false := by
  refine ⟨_, invalidationDone_ends hi hw, ?_⟩
  generalize hg : giveUpAll (s.lines.filter (i.takes p))
    { s with tlb := s.tlb.filter (fun t => !(t.pid == p && i.uses t.asid t.vd t.vpage t.leaf t.span)) } = g
  obtain ⟨htlb, hlines⟩ := invStashes_give i (s.part p).clusters g
  have hpart := State.part_updPart_self ((s.part p).clusters.foldl (fun s cl => invStash i cl s) g) p
    (fun q => { q with inv := none, invDone := true })
  refine ⟨by rw [hpart], by rw [hpart], ?_, fun l hl => ?_⟩
  · refine htlb.trans ?_
    rw [← hg, giveUpAll_tlb]
  · have hl := hlines l hl
    rw [← hg] at hl
    obtain ⟨hmem, hne⟩ := mem_lines_giveUpAll hl
    by_contra ht
    exact hne l (List.mem_filter.2 ⟨hmem, by simpa using ht⟩) rfl

end Done

theorem invalidationDone_idle {s : State} {p : PartId} (hi : (s.part p).inv = none) : exec (.invalidationDone p) s = .next s := by
  show execInvalidationDone p s = _
  unfold execInvalidationDone
  simp only [hi]

/-- A line of an L1 that a command leaves records a translation that it does not cover, or another partition's. -/
theorem InvCmd.takes_l1 {i : InvCmd} {p : PartId} {l : Line} {c : CoreId} {a : BitVec 16} {v : Nat} (h : i.takes p l = false)
    (ho : l.owner = .l1 c a v) : ∃ g, l.tag = some g ∧ (g.pid = p → i.covers a g.vd v = false) := by
  unfold InvCmd.takes at h
  rw [ho] at h
  cases ht : l.tag with
  | none => rw [ht] at h; cases h
  | some g =>
    refine ⟨g, rfl, fun hp => ?_⟩
    rw [ht] at h
    simpa [hp] using h

/-- Settles O58: the command word has the row's fields, and the end of a command filters the TLB and gives up every line that it takes. -/
theorem invalidations : Obligations.Invalidations := by
  unfold Obligations.Invalidations
  intro s p asid vd hs q
  refine ⟨?_, fun i hi hw => invalidationDone_waits hi hw, fun i hi hw => ?_, fun hi => invalidationDone_idle hi⟩
  · exact List.forall_mem_cons.2 ⟨invalidation_command (kind := 1) hs rfl (by decide) (by decide),
      List.forall_mem_cons.2 ⟨invalidation_command (kind := 2) hs rfl (by decide) (by decide),
      List.forall_mem_cons.2 ⟨invalidation_command (kind := 3) hs rfl (by decide) (by decide),
      List.forall_mem_cons.2 ⟨invalidation_command (kind := 4) hs rfl (by decide) (by decide),
      List.forall_mem_cons.2 ⟨invalidation_command (kind := 5) hs rfl (by decide) (by decide), List.forall_mem_nil _⟩⟩⟩⟩⟩
  · obtain ⟨t, hrun, hinv, hdone, htlb, hlines⟩ := invalidationDone_state hi hw
    refine ⟨t, hrun, hinv, hdone, fun e => ?_, fun l hl c a v ho => InvCmd.takes_l1 (hlines l hl) ho⟩
    rw [htlb, List.mem_filter]
    simp [imp_iff_not_or]

end Sys2Proof.Machine
end

section
/-! Requests from outside and link replay (O54). -/

namespace Sys2Proof.Machine

/-! ### Answers (R311, R331) -/

/-- The answer to a request over UALink, as it leaves through the port that the request came by (R331). -/
def ualAnswer (r : UalReq) (d : Option (List Byte)) (s : State) : State :=
  if (rd s.links r.port).down then { s with waiting := s.waiting ++ [(r.port.val, OutMsg.ualResp r.port d)] }
  else { s with out := s.out ++ [OutMsg.ualResp r.port d] }

theorem emitAt_port (p : Port) (m : OutMsg) (s : State) :
    emitAt p.val m s = if (rd s.links p).down then { s with waiting := s.waiting ++ [(p.val, m)] } else { s with out := s.out ++ [m] } := by
  rw [emitAt, State.downAt, Fin.ofNat_val_eq_self]

theorem emitAt_ualResp (r : UalReq) (d : Option (List Byte)) (s : State) : emitAt r.port.val (OutMsg.ualResp r.port d) s = ualAnswer r d s :=
  emitAt_port r.port _ s

/-- Data whose labels all pass are answered (R311). -/
theorem respond_passes (cls port pa : Nat) {g : PhysGot} (answer : Option (List Byte) → OutMsg) {s : State} (hp : g.poison = false)
    (hg : gatePasses s cls g.lbls = true) : respond cls port pa g answer s = emitAt port (answer (some g.bytes)) s := by
  simp [respond, hp, hg]

/-! ### Requests over UALink (R84, R85, R310, R330) -/

/-- A valid UALNUM that the request names (R85). -/
def UalNamed (s : State) (r : UalReq) : Prop := bit s.ualnum.toNat 7 = true ∧ bits s.ualnum.toNat 0 7 = r.num.toNat

theorem ualServed_iff (s : State) (r : UalReq) : ualServed s r = true ↔ UalNamed s r := by simp [ualServed, UalNamed]

/-- The author of a UALink request's write, as a slice watchpoint records it (R108). -/
def ualAuthor (r : UalReq) : Author := { kind := 5, clu := r.src.toNat, slot := r.port.val, job := 0 }

section
variable {s s1 : State} {r : UalReq}

theorem ualinkRequest_unnamed (h : ¬ UalNamed s r) : exec (.ualinkRequest r) s = .next (ualAnswer r none s) := by
  have hs : ualServed s r = false := Bool.eq_false_iff.2 fun e => h ((ualServed_iff s r).1 e)
  show execUalinkRequest r s = _
  simp only [execUalinkRequest, hs, Bool.not_false, Bool.true_or, if_true, emitAt_ualResp]

theorem ualinkRequest_misaligned (hamo : ualIsAmo r.op = true) (h : r.addr.toNat % 8 ≠ 0) :
    exec (.ualinkRequest r) s = .next (ualAnswer r none s) := by
  show execUalinkRequest r s = _
  simp only [execUalinkRequest, hamo, decide_eq_true h, Bool.and_self, Bool.or_true, if_true, emitAt_ualResp]

/-- A request that is served: it names the package, its bytes end in the HBM4, an atomic's address is aligned. -/
structure UalFits (s : State) (r : UalReq) : Prop where
  named : UalNamed s r
  inside : r.addr.toNat + ualSize r.op ≤ 2 ^ 39
  aligned : ualIsAmo r.op = true → r.addr.toNat % 8 = 0

theorem UalFits.served (h : UalFits s r) :
    (!ualServed s r || decide (2 ^ 39 < r.addr.toNat + ualSize r.op) || (ualIsAmo r.op && decide (r.addr.toNat % 8 ≠ 0))) = false := by
  have hal : (ualIsAmo r.op && decide (r.addr.toNat % 8 ≠ 0)) = false := by
    cases ha : ualIsAmo r.op with
    | false => rfl
    | true => simp [h.aligned ha]
  rw [(ualServed_iff s r).2 h.named, hal, decide_eq_false (Nat.not_lt.2 h.inside)]
  rfl

theorem ualinkRequest_read {n : Nat} {g : PhysGot} (h : UalFits s r) (hop : r.op = .read n) (hg : physRead r.addr.toNat n s = (g, s1))
    (hpoison : g.poison = false) (hpass : gatePasses s1 1 g.lbls = true) :
    exec (.ualinkRequest r) s = .next (ualAnswer r (some g.bytes) s1) := by
  show execUalinkRequest r s = _
  unfold execUalinkRequest
  simp only [h.served, Bool.false_eq_true, if_false]
  simp only [hop, hg, respond_passes _ _ _ _ hpoison hpass, emitAt_ualResp]

theorem ualinkRequest_write {bs : List Byte} (h : UalFits s r) (hop : r.op = .write bs) :
    exec (.ualinkRequest r) s =
      .next (ualAnswer r (some []) (physWrite (ualAuthor r) (rd s.labels.inlbl r.port) r.addr.toNat bs s).2) := by
  show execUalinkRequest r s = _
  unfold execUalinkRequest
  simp only [h.served, Bool.false_eq_true, if_false]
  simp only [hop, emitAt_ualResp, ualAuthor]

theorem ualinkRequest_amoAdd {v : Word} {g : PhysGot} {s2 : State} (h : UalFits s r) (hop : r.op = .amoAdd v)
    (hg : physRead r.addr.toNat 8 s = (g, s1)) (hpoison : g.poison = false)
    (hs2 : (physWrite (ualAuthor r) (rd s.labels.inlbl r.port) r.addr.toNat (natBytes 8 (wd (leNat g.bytes) + v).toNat) s1).2 = s2)
    (hpass : gatePasses s2 1 g.lbls = true) : exec (.ualinkRequest r) s = .next (ualAnswer r (some g.bytes) s2) := by
  show execUalinkRequest r s = _
  unfold execUalinkRequest
  simp only [h.served, Bool.false_eq_true, if_false]
  subst hs2
  simp only [hop, hg, hpoison, Bool.false_eq_true, if_false, ualNext]
  exact congrArg _ ((respond_passes _ _ _ _ hpoison hpass).trans (emitAt_ualResp r _ _))

end

/-! ### Forwarded launch packets (R310, R332, R334) -/

theorem State.queue_id (s : State) (q : QueueId) : (s.queue q).id = q := by
  unfold State.queue
  cases h : s.queues.find? (fun k => k.id == q) with
  | none => rfl
  | some k => simpa using List.find?_some h

theorem raiseCause_queues (kind : Nat) (p : PartId) (vd j q d : Nat) (s : State) :
    (raiseCause kind p vd j q d s).queues = s.queues ∧ (raiseCause kind p vd j q d s).jobs = s.jobs := by
  unfold raiseCause
  dsimp only
  split <;> exact ⟨rfl, rfl⟩

/-- A halted queue holds its code and keeps the rest. -/
theorem haltQueue_queue (k : Queue) (code : Nat) (s : State) :
    (haltQueue k code s).queue k.id = { k with st := .halt, code := BitVec.ofNat 8 code } ∧ (haltQueue k code s).jobs = s.jobs := by
  obtain ⟨hq, hj⟩ := raiseCause_queues 2 k.pid k.vd.toNat 0 k.id.toNat (Config.causeDetail 2 code)
    (s.setQueue { k with st := .halt, code := BitVec.ofNat 8 code })
  refine ⟨?_, hj⟩
  rw [State.queue, haltQueue, hq]
  exact State.queue_setQueue_self s { k with st := .halt, code := BitVec.ofNat 8 code }

/-- A packet of 128 bytes at a rack queue, not a device queue, in RUN or HALT, with a free slot (R332). -/
def RackTakes (k : Queue) (b : List Byte) : Prop :=
  b.length = 128 ∧ k.rack = true ∧ k.dev = false ∧ (k.st = .run ∨ k.st = .halt) ∧ (k.tailv - k.head).toNat < 2 ^ k.log2n

theorem rackTakes_iff (k : Queue) (b : List Byte) : (!rackTakes k || decide (b.length ≠ 128)) = false ↔ RackTakes k b := by
  simp only [rackTakes, RackTakes, Bool.or_eq_false_iff, Bool.not_eq_false', Bool.and_eq_true, Bool.not_eq_true', decide_eq_true_eq,
    decide_eq_false_iff_not, not_not]
  exact ⟨fun ⟨⟨⟨⟨hr, hd⟩, hst⟩, hfree⟩, hlen⟩ => ⟨hlen, hr, hd, hst, hfree⟩,
    fun ⟨hlen, hr, hd, hst, hfree⟩ => ⟨⟨⟨⟨hr, hd⟩, hst⟩, hfree⟩, hlen⟩⟩

/-- The write of a packet into its ring, with the ingress label of the fabric that a free choice names (R310). -/
def ringWrite (s : State) (q : QueueId) (b : List Byte) : Except (PFault × Word) WroteTo × State :=
  writeVirt (queueWho (s.queue q)) ((s.queue q).slotVa (s.queue q).tailv) b
    (rd s.labels.inlbl (if Config.freeNat s.freeCtr % 2 = 0 then 1 else 13)) { s with freeCtr := s.freeCtr + 1 }

section
variable {s s2 : State} {q : QueueId} {b : List Byte}

theorem rackLaunchPacket_taken {d : WroteTo} (h : RackTakes (s.queue q) b) (hw : ringWrite s q b = (.ok d, s2)) :
    exec (.rackLaunchPacket q b) s = .next (s2.setQueue { s.queue q with tailv := (s.queue q).tailv + 1 }) := by
  unfold ringWrite at hw
  show execRackLaunchPacket q b s = _
  unfold execRackLaunchPacket
  simp only [(rackTakes_iff _ _).2 h, Bool.false_eq_true, if_false, freshNat, hw]

theorem rackLaunchPacket_faults {f : PFault × Word} (h : RackTakes (s.queue q) b) (hw : ringWrite s q b = (.error f, s2))
    (hpoison : f.1.poison = false) :
    exec (.rackLaunchPacket q b) s = .next (haltQueue (s.queue q) (f.1.stage * 16 + f.1.kind) s2) := by
  unfold ringWrite at hw
  show execRackLaunchPacket q b s = _
  unfold execRackLaunchPacket
  simp only [(rackTakes_iff _ _).2 h, Bool.false_eq_true, if_false, freshNat, hw, hpoison]

theorem rackLaunchPacket_dropped (h : ¬ RackTakes (s.queue q) b) : exec (.rackLaunchPacket q b) s = .next s := by
  have hno : (!rackTakes (s.queue q) || decide (b.length ≠ 128)) = true := Bool.not_eq_false _ ▸ fun e => h ((rackTakes_iff _ _).1 e)
  exact if_pos hno

end

/-! ### Links (R331) -/

/-- A link after an acknowledgement: what it covers leaves the window, which is progress. -/
def Link.acked (l : Link) (ack : Nat) : Link :=
  let rest := l.window.filter (fun n => decide (ack ≤ n))
  if rest.length < l.window.length then { l with window := rest, replays := 0 } else l

theorem Link.acked_rxSeq (l : Link) (ack : Nat) : (l.acked ack).rxSeq = l.rxSeq := by
  unfold Link.acked
  dsimp only
  split <;> rfl

section
variable {s : State} {f : Flit} {p : Port}

theorem flitReceive_badCrc (h : f.crcOk = false) : exec (.flitReceive f) s = .next s := by
  show execFlitReceive f s = _
  simp [execFlitReceive, h]

theorem flitReceive_good (h : f.crcOk = true) : exec (.flitReceive f) s =
    if f.bufFree && decide (f.seq = (s.link f.port).rxSeq) then
      .next { s with links := wr s.links f.port { (s.link f.port).acked f.ack with rxSeq := (s.link f.port).rxSeq + 1 },
                     out := s.out ++ [OutMsg.flitAck f.port ((s.link f.port).rxSeq + 1)] }
    else .next { s with links := wr s.links f.port ((s.link f.port).acked f.ack) } := by
  have hacked : execFlitReceive f s =
      if f.bufFree && decide (f.seq = ((s.link f.port).acked f.ack).rxSeq) then
        .next { (s.updLink f.port (fun _ => (s.link f.port).acked f.ack)).updLink f.port (fun l => { l with rxSeq := l.rxSeq + 1 }) with
          out := s.out ++ [OutMsg.flitAck f.port (((s.link f.port).acked f.ack).rxSeq + 1)] }
      else .next (s.updLink f.port (fun _ => (s.link f.port).acked f.ack)) := by
    unfold execFlitReceive
    simp only [h, Bool.not_true, Bool.false_eq_true, if_false]
    rfl
  refine hacked.trans ?_
  simp only [Link.acked_rxSeq, State.updLink, State.link, rd_wr_self, wr_wr_self]
  rfl

theorem flitReplay_oldest {n : Nat} {ns : List Nat} (hw : (s.link p).window = n :: ns) (hd : (s.link p).down = false) :
    exec (.flitReplay p) s =
      .next { s with links := wr s.links p { s.link p with replays := (s.link p).replays + 1 }, out := s.out ++ [OutMsg.flitReplay p n] } := by
  show execFlitReplay p s = _
  simp only [execFlitReplay, hw, hd, Bool.false_eq_true, if_false, State.updLink]

theorem linkDown_eq : exec (.linkDown p) s =
    if 16 ≤ (s.link p).replays then .next { s with links := wr s.links p { s.link p with down := true } } else .next s := rfl

end

/-! ### The statement (O54) -/

/-- Settles O54: each request has one branch of its instruction, and a flit one of the two of a good CRC. -/
theorem fabrics : Obligations.Fabrics := by
  unfold Obligations.Fabrics
  refine ⟨⟨?_, ?_⟩, ?_⟩
  · intro s s2 q b d
    refine ⟨rackLaunchPacket_taken, fun htakes f hw hpoison => ?_, rackLaunchPacket_dropped⟩
    obtain ⟨hq, hjobs⟩ := haltQueue_queue (s.queue q) (f.1.stage * 16 + f.1.kind) s2
    rw [State.queue_id] at hq
    exact ⟨_, rackLaunchPacket_faults htakes hw hpoison, by rw [hq], by rw [hq], by rw [hq], hjobs⟩
  · intro s s1 r g
    refine ⟨ualinkRequest_unnamed, fun n hn hop hin => ?_, fun bs hn hop hin => ?_, fun v hn hop hin hal hg hp => ?_, fun v hop hal => ?_⟩
    · exact ualinkRequest_read ⟨hn, by rw [hop]; exact hin, fun e => by rw [hop] at e; cases e⟩ hop
    · exact ualinkRequest_write ⟨hn, by rw [hop]; exact hin, fun e => by rw [hop] at e; cases e⟩ hop
    · exact ualinkRequest_amoAdd ⟨hn, by rw [hop]; exact hin, fun _ => hal⟩ hop hg hp rfl
    · refine ualinkRequest_misaligned ?_ hal
      rcases hop with h | h <;> rw [h] <;> rfl
  · intro s f p
    refine ⟨flitReceive_badCrc, fun hcrc hbuf hseq => ?_, fun hcrc hno => ?_, fun n ns => flitReplay_oldest, fun h => ?_, fun h => ?_⟩
    · rw [flitReceive_good hcrc, if_pos (by rw [hbuf, decide_eq_true hseq]; rfl)]
      rfl
    · rw [flitReceive_good hcrc, if_neg]
      · rfl
      · rcases hno with h | h
        · simp [h]
        · simp only [Bool.and_eq_true, decide_eq_true_eq]
          exact fun e => h e.2
    · rw [linkDown_eq, if_pos h]
    · rw [linkDown_eq, if_neg (by omega)]

end Sys2Proof.Machine
end
section
/-! Side bands rewritten for an epoch, and a written-back line (O55): bytes read as before. -/

namespace Sys2Proof.Machine

/-! ### An epoch rewrite (R89) -/

/-- The side band that an epoch rewrite leaves of one: of another epoch, it takes the epoch before and label 0. -/
def Side.rewritten (e : BitVec 12) (sd : Side) : Side := if sd.epoch = e then sd else { sd with lbl := 0, epoch := e - 1 }

theorem pred_ne_self (e : BitVec 12) : e - 1 ≠ e := by bv_omega

/-- Rewriting again changes nothing. -/
theorem Side.rewritten_idem (e : BitVec 12) (sd : Side) : (sd.rewritten e).rewritten e = sd.rewritten e := by
  by_cases h : sd.epoch = e
  · rw [Side.rewritten, Side.rewritten, if_pos h, if_pos h]
  · rw [show sd.rewritten e = { sd with lbl := 0, epoch := e - 1 } from if_neg h]
    exact if_neg (pred_ne_self e)

/-- A rewrite makes no sector current and none stale, and leaves its poison (R87, R89). -/
theorem Side.rewritten_current (sl : Slice) (sd : Side) : (sd.rewritten sl.epoch).current sl = sd.current sl := by
  unfold Side.rewritten
  split
  · rfl
  · next h => rw [Side.current, Side.current, beq_false_of_ne h, beq_false_of_ne (pred_ne_self sl.epoch)]

/-- One sector's side band rewritten. -/
def rewriteSide (e : BitVec 12) (s : State) (n : Nat) : State :=
  if (s.sideAt n).epoch = e then s else { s with side := mapSet Side.none s.side n { s.sideAt n with lbl := 0, epoch := e - 1 } }

section
variable {e : BitVec 12} {s : State}

theorem rewriteSide_only (n : Nat) : rewriteSide e s n = { s with side := (rewriteSide e s n).side } := by
  unfold rewriteSide
  split <;> rfl

theorem rewriteSide_wf (n : Nat) (h : CanonicalMemory s) : CanonicalMemory (rewriteSide e s n) := by
  unfold rewriteSide
  split
  · exact h
  · exact ⟨h.1, mapSet_wf h.2 (Nat.zero_le n)⟩

theorem sideAt_rewriteSide (n m : Nat) (h : CanonicalMemory s) :
    (rewriteSide e s n).sideAt m = if m = n then (s.sideAt n).rewritten e else s.sideAt m := by
  unfold rewriteSide Side.rewritten
  by_cases hm : m = n
  · subst hm
    rw [if_pos rfl]
    split
    · rfl
    · exact mapGet_mapSet_self h.2
  · rw [if_neg hm]
    split
    · rfl
    · exact mapGet_mapSet_ne h.2 hm

theorem rewriteSides_only (ns : List Nat) : ns.foldl (rewriteSide e) s = { s with side := (ns.foldl (rewriteSide e) s).side } := by
  induction ns generalizing s with
  | nil => rfl
  | cons n ns ih =>
    have hn := rewriteSide_only (e := e) (s := s) n
    have hrest := ih (s := rewriteSide e s n)
    rw [List.foldl_cons]
    generalize ns.foldl (rewriteSide e) (rewriteSide e s n) = u at hrest ⊢
    rw [hrest, hn]

theorem sideAt_rewriteSides (ns : List Nat) (m : Nat) (h : CanonicalMemory s) :
    (ns.foldl (rewriteSide e) s).sideAt m = if m ∈ ns then (s.sideAt m).rewritten e else s.sideAt m := by
  induction ns generalizing s with
  | nil => rfl
  | cons n ns ih =>
    rw [List.foldl_cons, ih (rewriteSide_wf n h), sideAt_rewriteSide n m h]
    by_cases hm : m = n
    · subst hm
      rw [if_pos rfl, Side.rewritten_idem, ite_self, if_pos List.mem_cons_self]
    · have hmem : m ∈ n :: ns ↔ m ∈ ns := by simp [hm]
      simp only [if_neg hm, hmem]

end

/-- A sector with a side band of its own is listed. -/
theorem mem_of_mapGet_ne {α : Type} {d : α} {m : List (Nat × α)} {a : Nat} (h : mapGet d m a ≠ d) : a ∈ m.map (fun p => p.1) := by
  induction m with
  | nil => exact absurd rfl h
  | cons p m ih =>
    obtain ⟨k, v⟩ := p
    by_cases hk : k = a
    · exact List.mem_cons.2 (.inl hk.symm)
    · rw [mapGet, if_neg hk] at h
      split at h
      · exact absurd rfl h
      · exact List.mem_cons_of_mem _ (ih h)

theorem mem_heldSectors (s : State) (k : Fin 32) (n : Nat) : n ∈ heldSectors s k ↔
    (n ∈ s.mem.map (fun c : Host.Cell => c.1 / 64) ∨ n ∈ s.side.map (fun p : Nat × Side => p.1)) ∧ paLocal (n * 64) = true ∧
      sliceOf s (n * 64) = k := by
  simp only [heldSectors, List.mem_filter, List.mem_eraseDups, List.mem_append, Bool.and_eq_true, beq_iff_eq]

/-- A sector at its slice gives the bytes it gave, if its side band is of the slice's epoch as before or not as before. -/
theorem readLocal_bytes_congr {s t : State} {n : Nat} (hm : t.mem = s.mem) (hp : t.parts = s.parts) (hk : t.slices = s.slices)
    (hc : (t.sideAt n).current (s.slice (sliceOf s (n * 64))) = (s.sideAt n).current (s.slice (sliceOf s (n * 64)))) :
    (readLocal t n).bytes = (readLocal s n).bytes := by
  have hbyte : ∀ x, t.byteAt x = s.byteAt x := fun x => by rw [State.byteAt, State.byteAt, hm]
  have hslice : t.slice (sliceOf t (n * 64)) = s.slice (sliceOf s (n * 64)) := by
    have hparts : t.part = s.part := funext fun p => by rw [State.part, State.part, hp]
    rw [sliceOf, sliceOf, partOf, partOf, hparts, State.slice, State.slice, hk]
  unfold readLocal
  dsimp only
  simp only [hslice, hc, hbyte]
  split <;> rfl

/-- Bytes are read alike in states whose dirty sectors, host memory and slices give the same. -/
theorem readByte_of {s t : State} (hl : t.lines = s.lines) (hm : ∀ a, paLocal a = false → t.byteAt a = s.byteAt a)
    (hr : ∀ n, (readLocal t n).bytes = (readLocal s n).bytes) : MemorySame s t := by
  intro a
  have hline : t.line? (a / 64) = s.line? (a / 64) := by rw [State.line?, State.line?, hl]
  unfold readByte
  split
  · rw [hline, hr]
  · next h => exact hm a (Bool.eq_false_iff.2 h)

theorem rewriteEpochs_only (k : Fin 32) (s : State) : rewriteEpochs k s = { s with side := (rewriteEpochs k s).side } := rewriteSides_only _

theorem sideAt_rewriteEpochs (k : Fin 32) {s : State} (n : Nat) (h : CanonicalMemory s) :
    (rewriteEpochs k s).sideAt n = if n ∈ heldSectors s k then (s.sideAt n).rewritten (s.slice k).epoch else s.sideAt n :=
  sideAt_rewriteSides _ n h

/-- What a read returns does not change (R89). -/
theorem rewriteEpochs_same (k : Fin 32) {s : State} (h : CanonicalMemory s) : MemorySame s (rewriteEpochs k s) := by
  have hside := fun n => sideAt_rewriteEpochs k n h
  have only := rewriteEpochs_only k s
  generalize rewriteEpochs k s = t at hside only
  have hm : t.mem = s.mem := by rw [only]
  refine readByte_of (by rw [only]) (fun a _ => by rw [State.byteAt, State.byteAt, hm])
    fun n => readLocal_bytes_congr hm (by rw [only]) (by rw [only]) ?_
  rw [hside]
  split
  · next hn =>
    obtain ⟨-, -, hk⟩ := (mem_heldSectors s k n).1 hn
    rw [hk]
    exact Side.rewritten_current _ _
  · rfl

/-- A sector of the slice with a side band has the current epoch afterwards, or the one before it with label 0 (R89). -/
theorem rewriteEpochs_side (k : Fin 32) {s : State} (h : CanonicalMemory s) {n : Nat} (hloc : paLocal (n * 64) = true)
    (hk : sliceOf s (n * 64) = k) (he : ((rewriteEpochs k s).sideAt n).epoch ≠ (s.slice k).epoch) (hn : s.sideAt n ≠ Side.none) :
    ((rewriteEpochs k s).sideAt n).epoch = (s.slice k).epoch - 1 ∧ ((rewriteEpochs k s).sideAt n).lbl = 0 := by
  have held : n ∈ heldSectors s k := (mem_heldSectors s k n).2 ⟨.inr (mem_of_mapGet_ne hn), hloc, hk⟩
  rw [sideAt_rewriteEpochs k n h, if_pos held] at he ⊢
  unfold Side.rewritten at he ⊢
  split at he
  · next hsame => exact absurd hsame he
  · next hother => rw [if_neg hother]; exact ⟨rfl, rfl⟩

/-! ### A written-back line (R89, R109) -/

/-- Every slice's key is the same. -/
def SameKeys (s t : State) : Prop := ∀ k, (t.slice k).keyGen = (s.slice k).keyGen

theorem SameKeys.of_eq {s t : State} (h : t.slices = s.slices) : SameKeys s t := fun k => by rw [State.slice, h, State.slice]

theorem SameKeys.trans {s t u : State} (h : SameKeys s t) (h' : SameKeys t u) : SameKeys s u := fun k => (h' k).trans (h k)

theorem sameKeys_updSlice (k : Fin 32) (f : Slice → Slice) (s : State) (hf : (f (s.slice k)).keyGen = (s.slice k).keyGen) :
    SameKeys s (s.updSlice k f) := by
  intro j
  by_cases h : j = k
  · rw [h, State.slice_updSlice_self, hf]
  · rw [State.slice_updSlice_ne _ _ _ _ h]

theorem raiseCause_slices (kind : Nat) (p : PartId) (vd j q d : Nat) (s : State) : (raiseCause kind p vd j q d s).slices = s.slices := by
  unfold raiseCause
  dsimp only
  split <;> rfl

theorem latchCores_slices (cs : List CoreId) (s : State) : (cs.foldl (fun s c => s.updCore c latchCore) s).slices = s.slices := by
  induction cs generalizing s with
  | nil => rfl
  | cons c cs ih => exact ih _

theorem fireSnap_slices (p : PartId) (src : Nat) (s : State) : (fireSnap p src s).slices = s.slices := by
  unfold fireSnap
  dsimp only
  split
  · rfl
  · exact latchCores_slices _ s

/-- A hit of a slice watchpoint installs no key (R108). -/
theorem watchSlice_keys (a : Author) (pa len : Nat) (s : State) : SameKeys s (watchSlice a pa len s) := by
  unfold watchSlice
  dsimp only
  split
  · exact SameKeys.of_eq rfl
  · next h hs _ =>
    have counted : ∀ n u, SameKeys u (countHits (sliceOf s pa) n u) := fun n u => sameKeys_updSlice _ _ _ rfl
    have latched : SameKeys s (countHits (sliceOf s pa) hs.length
        (s.updSlice (sliceOf s pa) (fun q => { q with wsrec := wsrecOf a h.idx, wshit := wd h.first }))) :=
      (sameKeys_updSlice _ _ _ rfl).trans (counted _ _)
    split
    · exact counted _ _
    · split
      · exact latched
      · split
        · exact latched.trans (SameKeys.of_eq ((fireSnap_slices _ _ _).trans (raiseCause_slices _ _ _ _ _ _ _)))
        · exact latched.trans (SameKeys.of_eq (raiseCause_slices _ _ _ _ _ _ _))

theorem putSector_keys (a : Author) (n o : Nat) (bs : List Byte) (l : Label) (p : Bool) (s : State) : SameKeys s (putSector a n o bs l p s) :=
  watchSlice_keys a (n * 64 + o) bs.length { s with
    mem := putBytes s.mem (n * 64) (overlay (readLocal s n).bytes o bs),
    side := mapSet Side.none s.side n { lbl := l, epoch := (s.slice (sliceOf s (n * 64))).epoch, poison := p } }

/-- Where an address lies depends on the partitions' PSL alone (R86). -/
theorem sliceOf_congr {s t : State} (h : ∀ p, (t.part p).psl = (s.part p).psl) (pa : Nat) : sliceOf t pa = sliceOf s pa := by
  have hpart : partOf t pa = partOf s pa := by
    refine congrArg (fun f => (List.finRange 32).find? f) (funext fun p => ?_)
    rw [Part.enabled, Part.inHbm, Part.base, Part.slice0, Part.slices, h p]
    rfl
  unfold sliceOf
  rw [hpart]
  split
  · next p _ => simp only [Part.base, Part.slice0, Part.slices, h p]
  · rfl

section
variable {s : State} (hc : CanonicalMemory s) (a : Author) (n o : Nat) (bs : List Byte) (l : Label) (p : Bool)

/-- What putting a sector leaves of memory, side bands and lines. -/
theorem putSector_store : (putSector a n o bs l p s).mem = putBytes s.mem (n * 64) (overlay (readLocal s n).bytes o bs) ∧
    (putSector a n o bs l p s).side = mapSet Side.none s.side n { lbl := l, epoch := (s.slice (sliceOf s (n * 64))).epoch, poison := p } ∧
    (putSector a n o bs l p s).lines = s.lines := by
  obtain ⟨hm, hs, hl⟩ := watchSlice_store a (n * 64 + o) bs.length { s with
    mem := putBytes s.mem (n * 64) (overlay (readLocal s n).bytes o bs),
    side := mapSet Side.none s.side n { lbl := l, epoch := (s.slice (sliceOf s (n * 64))).epoch, poison := p } }
  exact ⟨hm, hs, hl⟩

include hc

/-- The sector holds the old bytes with the new run over them. -/
theorem readLocal_putSector_self (hin : o + bs.length ≤ 64) :
    (readLocal (putSector a n o bs l p s) n).bytes = overlay (readLocal s n).bytes o bs := by
  obtain ⟨hm, hs, -⟩ := putSector_store (s := s) a n o bs l p
  have hcfg := putSector_config a n o bs l p s
  have hlen := overlay_readLocal_length s n hin
  have hside : (putSector a n o bs l p s).sideAt n = { lbl := l, epoch := (s.slice (sliceOf s (n * 64))).epoch, poison := p } := by
    rw [State.sideAt, hs]
    exact mapGet_mapSet_self hc.2
  rw [readLocal, hside, if_pos]
  · refine List.ext_getElem (by simp [hlen]) fun i hi _ => ?_
    rw [List.getElem_map, List.getElem_range, State.byteAt, hm]
    exact mapGet_putBytes_in hc.1 _ _ _ _
  · simp [Side.current, sliceOf_congr hcfg.psl, hcfg.epoch]

/-- Every other sector reads as before. -/
theorem readLocal_putSector_ne (hin : o + bs.length ≤ 64) {m : Nat} (hmn : m ≠ n) :
    (readLocal (putSector a n o bs l p s) m).bytes = (readLocal s m).bytes := by
  obtain ⟨hm, hs, -⟩ := putSector_store (s := s) a n o bs l p
  have hcfg := putSector_config a n o bs l p s
  have hkeys := putSector_keys a n o bs l p s
  have hlen := overlay_readLocal_length s n hin
  have hside : (putSector a n o bs l p s).sideAt m = s.sideAt m := by
    rw [State.sideAt, hs]
    exact mapGet_mapSet_ne hc.2 hmn
  have hbyte : ∀ i, i < 64 → (putSector a n o bs l p s).byteAt (m * 64 + i) = s.byteAt (m * 64 + i) := fun i hi => by
    rw [State.byteAt, hm]
    exact mapGet_putBytes_out hc.1 _ _ _ (by omega)
  unfold readLocal
  dsimp only
  rw [hside, sliceOf_congr hcfg.psl, Side.current, Side.current, hcfg.epoch, hkeys]
  split
  · exact List.map_congr_left fun i hi => hbyte i (List.mem_range.1 hi)
  · exact List.map_congr_left fun i hi => congrArg (Config.staleByte _ (m * 64 + i)) (hbyte i (List.mem_range.1 hi))

end

theorem line?_dropLine_self (s : State) (n : Nat) : (s.dropLine n).line? n = none := by
  unfold State.line? State.dropLine
  rw [List.find?_eq_none]
  intro x hx
  simpa using (List.mem_filter.1 hx).2

theorem line?_dropLine_ne (s : State) {m n : Nat} (h : m ≠ n) : (s.dropLine n).line? m = s.line? m := by
  unfold State.line? State.dropLine
  rw [List.find?_filter]
  refine congrArg (fun f => s.lines.find? f) (funext fun x => ?_)
  by_cases hx : x.sector = m
  · simp [hx, h]
  · simp [hx]

/-- A whole sector over another is all that is left. -/
theorem overlay_whole {old bs : List Byte} (h : old.length = bs.length) : overlay old 0 bs = bs := by
  simp [overlay, h]

section
variable {s : State} {l : Line} (hloc : paLocal (l.sector * 64) = true)
include hloc

/-- A local line goes to its slice and is given up (R109). -/
theorem writeback_local : writeback l s =
    putSector { kind := 7, clu := l.owner.cluster.val, slot := 0, job := 0 } l.sector 0 l.bytes l.lbl l.poison (s.dropLine l.sector) :=
  if_pos hloc

theorem writeback_line? (m : Nat) : (writeback l s).line? m = (s.dropLine l.sector).line? m := by
  rw [writeback_local hloc]
  obtain ⟨-, -, hl⟩ := putSector_store (s := s.dropLine l.sector) { kind := 7, clu := l.owner.cluster.val, slot := 0, job := 0 }
    l.sector 0 l.bytes l.lbl l.poison
  rw [State.line?, hl, State.line?]

/-- Each byte reads as the line held it, or as before (R89, R109). -/
theorem writeback_same (hc : CanonicalMemory s) (hl : s.line? l.sector = some l) (hlen : l.bytes.length = 64) : MemorySame s (writeback l s) := by
  intro a
  have hin : 0 + l.bytes.length ≤ 64 := by omega
  have hself : (readLocal (writeback l s) l.sector).bytes = l.bytes := by
    rw [writeback_local hloc]
    exact (readLocal_putSector_self (s := s.dropLine l.sector) hc _ _ _ _ _ _ hin).trans (overlay_whole (by rw [readLocal_length, hlen]))
  have hother : ∀ m, m ≠ l.sector → (readLocal (writeback l s) m).bytes = (readLocal s m).bytes := fun m hm => by
    rw [writeback_local hloc]
    exact readLocal_putSector_ne (s := s.dropLine l.sector) hc _ _ _ _ _ _ hin hm
  unfold readByte
  split
  · rw [writeback_line? hloc]
    by_cases ha : a / 64 = l.sector
    · rw [ha, line?_dropLine_self, hl, hself]
    · rw [line?_dropLine_ne s ha, hother _ ha]
  · next hfar =>
    obtain ⟨hm, -, -⟩ := putSector_store (s := s.dropLine l.sector) { kind := 7, clu := l.owner.cluster.val, slot := 0, job := 0 }
      l.sector 0 l.bytes l.lbl l.poison
    have hfit := overlay_readLocal_length (s.dropLine l.sector) l.sector hin
    simp only [paLocal, decide_eq_true_eq] at hloc hfar
    rw [writeback_local (by simpa [paLocal] using hloc), State.byteAt, hm]
    exact mapGet_putBytes_out hc.1 _ _ _ (by omega)

end

end Sys2Proof.Machine
end

section
/-! The host link's windows, host memory, and the statement about the memory side (O55). -/

namespace Sys2Proof.Machine

/-! ### Budget windows (R341) -/

theorem rd_map {α β : Type} {n : Nat} (f : α → β) (v : Vector α n) (i : Fin n) : rd (v.map f) i = f (rd v i) := by simp [rd]

/-- A partition's counts once the windows up to w have each taken their limits off. -/
theorem hlOpen_eq (w : Nat) (q : Part) : q.hlOpen w = { q with hlWin := w, hlUsed :=
    (hlLeft (bits q.hlbud.toNat 0 16) (w - q.hlWin) q.hlUsed.1, hlLeft (bits q.hlbud.toNat 16 16) (w - q.hlWin) q.hlUsed.2.1,
      hlLeft (bits q.hlbud.toNat 32 16) (w - q.hlWin) q.hlUsed.2.2) } := rfl

/-! ### Reads by the host (R312, R372) -/

section
variable {s s1 : State} {off : BitVec 39} {n : Nat} {g : PhysGot}

theorem hostMemoryRead_outside (h : inPartitions s off.toNat n = false) :
    exec (.hostMemoryRead off n) s = .next { s with out := s.out ++ [OutMsg.hostRead none] } := by
  show execHostMemoryRead off n s = _
  simp only [execHostMemoryRead, h, Bool.not_false, if_true]

theorem hostMemoryRead_inside (h : inPartitions s off.toNat n = true) (hg : physRead off.toNat n s = (g, s1)) :
    exec (.hostMemoryRead off n) s = .next (respond 0 0 off.toNat g OutMsg.hostRead s1) := by
  show execHostMemoryRead off n s = _
  simp only [execHostMemoryRead, h, Bool.not_true, Bool.false_eq_true, if_false, hg]

theorem emitAt_host (m : OutMsg) {t : State} (h : (rd t.links 0).down = false) : emitAt 0 m t = { t with out := t.out ++ [m] } :=
  if_neg (by rw [State.downAt]; simpa using h)

theorem raiseCause_kept (kind : Nat) (p : PartId) (vd j q d : Nat) (t : State) :
    (raiseCause kind p vd j q d t).mem = t.mem ∧ (raiseCause kind p vd j q d t).labels = t.labels ∧
      (raiseCause kind p vd j q d t).links = t.links := by
  unfold raiseCause
  dsimp only
  split <;> exact ⟨rfl, rfl, rfl⟩

/-- A denied read answers no data; the drop is counted (R312, R314). -/
theorem respond_denied (pa : Nat) (hlink : (rd s1.links 0).down = false) (hpoison : g.poison = false) (hdeny : gatePasses s1 0 g.lbls = false) :
    ∃ o, (respond 0 0 pa g OutMsg.hostRead s1).out = o ++ [OutMsg.hostRead none] ∧ (respond 0 0 pa g OutMsg.hostRead s1).mem = s1.mem ∧
      (respond 0 0 pa g OutMsg.hostRead s1).labels.relcnt = satInc32 s1.labels.relcnt := by
  have told : ∀ u : State, u.mem = s1.mem → u.labels = (gateDrop 0 0 0 g.lbls s1).labels → u.links = s1.links →
      ∃ o, (emitAt 0 (OutMsg.hostRead none) u).out = o ++ [OutMsg.hostRead none] ∧ (emitAt 0 (OutMsg.hostRead none) u).mem = s1.mem ∧
        (emitAt 0 (OutMsg.hostRead none) u).labels.relcnt = satInc32 s1.labels.relcnt := by
    intro u hm hl hlinks
    rw [emitAt_host _ (by rw [hlinks]; exact hlink)]
    exact ⟨u.out, rfl, hm, by rw [hl]; rfl⟩
  unfold respond
  simp only [hpoison, hdeny, Bool.false_eq_true, if_false]
  split
  · next p _ =>
    obtain ⟨hm, hl, hlinks⟩ := raiseCause_kept 6 p 0 0 0 (Config.causeDetail 6 0) (gateDrop 0 0 0 g.lbls s1)
    exact told _ hm hl hlinks
  · exact told _ rfl rfl rfl

end

/-! ### Writes by the host (R310, R372) -/

/-- Bytes inside one sector are one run (R94). -/
theorem sectorRuns_within {pa n : Nat} (hn : 0 < n) (hin : pa % 64 + n ≤ 64) : sectorRuns pa n = [(pa / 64, pa % 64, n)] := by
  have hlast : (pa + n - 1) / 64 - pa / 64 + 1 = 1 := by omega
  have hlo : max pa (pa / 64 * 64) = pa := by omega
  have hhi : min (pa + n) ((pa / 64 + 1) * 64) - pa = n := by omega
  unfold sectorRuns
  rw [if_neg (by omega), hlast]
  simp only [List.range_one, List.map_cons, List.map_nil, Nat.add_zero, hlo, hhi]

section
variable {s : State} {pa : Nat} {bs : List Byte} (hne : bs ≠ []) (hin : pa % 64 + bs.length ≤ 64) (hloc : paLocal (pa / 64 * 64) = true)
  (hline : s.line? (pa / 64) = none) (hframe : ∀ cl, ∀ f ∈ (s.cluster cl).frames, f.ppage ≠ pa / 64 / 64)
include hne hin hloc hline hframe

/-- A write inside one local sector that no agent holds goes to its slice after a label join. -/
theorem physWrite_unheld (a : Author) (l : Label) : ∃ l' u, JoinOnly s u ∧ (physWrite a l pa bs s).2 = writeLocal a (pa / 64) (pa % 64) bs l' u := by
  have claimed : ∀ u, JoinOnly s u → claim none (pa / 64) u = u := fun u ⟨e, _⟩ =>
    claim_unheld (by rw [e]; exact hline) (by rw [e]; exact hframe)
  have stored : ∀ old, ∃ l' u, JoinOnly s u ∧
      writeLocal a (pa / 64) (pa % 64) bs (joinAt 0 ((partOf s pa).getD 0) old l s).1
        (claim none (pa / 64) (joinAt 0 ((partOf s pa).getD 0) old l s).2) = writeLocal a (pa / 64) (pa % 64) bs l' u := fun old =>
    have hjoin := joinAt_joinOnly 0 ((partOf s pa).getD 0) old l s
    ⟨_, _, hjoin, congrArg _ (claimed _ hjoin)⟩
  unfold physWrite
  rw [sectorRuns_within (List.length_pos_iff.2 hne) hin]
  by_cases hfull : bs.length = 64
  · simp only [List.foldlM_cons, List.foldlM_nil, bind, StateT.bind, get, getThe, MonadStateOf.get, StateT.get, pure, StateT.pure,
      List.take_length, if_pos hfull]
    exact stored 0
  · simp only [List.foldlM_cons, List.foldlM_nil, bind, StateT.bind, get, getThe, MonadStateOf.get, StateT.get, pure, StateT.pure,
      List.take_length, if_neg hfull, readSector_unheld none hloc hline]
    exact stored _

end

/-! ### The statement (O55) -/

/-- Settles O55: a rewritten side band is current no more and no less than before; a line is put whole over its sector; the host's bytes
inside one sector are one run, which goes to its slice. -/
theorem memorySide : Obligations.MemorySide := by
  unfold Obligations.MemorySide
  refine ⟨⟨fun s k hc => ?_, fun s c l hc hl ⟨a, v, ho⟩ hlen hloc => ?_, fun s => ?_⟩, fun s s1 off n bs g => ?_⟩
  · exact ⟨rewriteEpochs k s, rfl, rewriteEpochs_only k s, rewriteEpochs_same k hc, fun n => rewriteEpochs_side k hc⟩
  · refine ⟨writeback l s, ?_, ?_, writeback_same hloc hc hl hlen⟩
    · show execL1Writeback c l.sector s = _
      simp only [execL1Writeback, hl, ho, if_true]
    · rw [writeback_line? hloc, line?_dropLine_self]
  · exact ⟨_, rfl, rfl, fun p => (rd_map _ _ p).trans (hlOpen_eq _ _)⟩
  · refine ⟨hostMemoryRead_outside, fun hin hg hpoison hlink => ⟨fun hpass => ?_, fun hdeny => ?_⟩, fun hout => ?_, ?_⟩
    · rw [hostMemoryRead_inside hin hg, respond_passes _ _ _ _ hpoison hpass, emitAt_host _ hlink]
    · obtain ⟨o, hout, hmem, hcnt⟩ := respond_denied off.toNat hlink hpoison hdeny
      exact ⟨_, o, hostMemoryRead_inside hin hg, hout, hmem, hcnt⟩
    · refine ⟨discard 5 2 off.toNat s, ?_, rfl, rfl, rfl⟩
      show execHostMemoryWrite off bs s = _
      simp only [execHostMemoryWrite, hout, Bool.not_false, if_true]
    · intro hpart hc hne hin hline hwatch hframe
      have hend : off.toNat + bs.length ≤ 2 ^ 39 := by
        simp only [inPartitions, Bool.and_eq_true, decide_eq_true_eq] at hpart
        exact hpart.1
      have hpos : 0 < bs.length := List.length_pos_iff.2 hne
      have hloc : paLocal (off.toNat / 64 * 64) = true := paLocal_iff.2 (by omega)
      obtain ⟨l, u, ⟨hu, -⟩, hw⟩ := physWrite_unheld hne hin hloc hline hframe { kind := 6, clu := 0, slot := 0, job := 0 } (rd s.labels.inlbl 0)
      have hwatchu : ∀ k i, bit (rd (u.slice k).ws i).ctl.toNat 0 = false := by rw [hu]; exact hwatch
      have before : ∀ x, readByte u x = readByte s x := by
        rw [hu]
        exact readByte_congr rfl rfl rfl rfl rfl
      have stored := stored_writeLocal (s := u) (a := { kind := 6, clu := 0, slot := 0, job := 0 }) (l := l) (by rw [hu]; exact hc) hwatchu hin
        hloc (by rw [hu]; exact hline)
      rw [Nat.div_add_mod'] at stored
      obtain ⟨sd, co, -, honly⟩ := writeLocal_only { kind := 6, clu := 0, slot := 0, job := 0 } (off.toNat / 64) (off.toNat % 64) bs l u hwatchu
      refine ⟨_, ?_, ⟨stored.1, fun x hx => (stored.2 x hx).trans (before x)⟩, ?_, ?_⟩
      · show execHostMemoryWrite off bs s = _
        simp only [execHostMemoryWrite, hpart, Bool.not_true, Bool.false_eq_true, if_false, hw]
      · rw [honly, hu]
      · rw [honly, hu]

end Sys2Proof.Machine
end

section
/-! A plain access of the C strand through its L1 (O15, O16): it hits no line, translates by its TLB, and finds its sector at its slice. -/

namespace Sys2Proof.Machine

/-! ### Caches and labels (R90, R305, R306) -/

/-- An access outside the window is kept in the agent's L1 or in no cache (R90, R130). -/
theorem holder_l1 (w : Who) (s : State) {p : Piece} (hp : p.page.stash = none) :
    w.holder s p = none ∨ ∃ c a v, w.holder s p = some (.l1 c a v) := by
  unfold Who.holder
  simp only [hp]
  split
  · exact .inl rfl
  · split
    · cases w.cache with
      | none => exact .inl rfl
      | some c => exact .inr ⟨c, _, _, rfl⟩
    · exact .inl rfl

theorem markPresent_l1 {o : Option Owner} (ho : o = none ∨ ∃ c a v, o = some (.l1 c a v)) (sector : Nat) (s : State) :
    markPresent o sector s = s := by
  rcases ho with rfl | ⟨c, a, v, rfl⟩ <;> rfl

theorem liveId_liveId (l : LabelSt) (x : Label) : liveId l (liveId l x) = liveId l x := by
  by_cases h : (decide (x = 0) || l.table.any (fun e => e.id == x.toNat)) = true
  · rw [show liveId l x = x from if_pos h, show liveId l x = x from if_pos h]
  · rw [show liveId l x = 1023 from if_neg h]
    exact ite_self _

/-- A join to the empty label gives the other, as it counts (R305, R306). -/
theorem joinAt_zero_left (d : Fin 4) (p : PartId) (b : Label) (s : State) : joinAt d p 0 b s = (liveId s.labels b, s) := rfl

/-- What a plain access of n bytes reads: the bytes at its address and the sector's label (R94). -/
abbrev plainGot (s : State) (t : Tlb) (va n : Nat) : Got :=
  { bytes := readBytes s (physOf t va) n, lbl := liveId s.labels (s.sideAt (physOf t va / 64)).lbl, poison := false }

/-! ### A plain access translated (R90, R95) -/

section
variable {s : State} {c : CoreId} {st : Strand} {va n : Nat} {kd : WpKind} {t : Tlb} (h : PlainAccess s c st va n kd t)
include h

/-- The one sector that the access needs stands in no line of the L1 (R90). -/
theorem PlainAccess.misses (acc : Acc) : hitPage (strandWho s c) s (Touch.need { va := va, len := n, acc := acc } (va / 4096)) = none := by
  obtain ⟨hn, hin, -⟩ := h.small
  have hlo : max va (va / 4096 * 4096) = va := by omega
  have hhi : (min (va + n) (va / 4096 * 4096 + 4096) - 1) / 64 - va / 64 = 0 := by omega
  have hneed : Touch.need { va := va, len := n, acc := acc } (va / 4096) =
      { vpage := va / 4096, acc := acc, first := va, secs := [va / 64 % 64] } := by
    simp only [Touch.need, hlo, hhi, Nat.zero_add, List.range_one, List.map_cons, List.map_nil, Nat.add_zero]
  have hline : (strandWho s c).l1Line s (va / 4096) (va / 64 % 64) = none := by
    unfold Who.l1Line
    refine List.findSome?_eq_none_iff.2 fun l hl => ?_
    have hmiss := h.noHit l hl
    split
    · exact if_neg fun hit => hmiss hit.2.1 hit.1
    · rfl
  unfold hitPage
  simp only [hneed, List.map_cons, List.map_nil, hline]
  split
  · next heq => cases heq
  · rfl

/-- The strand translates it to the page that its TLB holds, and nothing changes (R90, R95). -/
theorem PlainAccess.translate {acc : Acc} (hx : acc.needX = false) :
    Machine.translate (strandWho s c) va n acc s = (.ok [pageOf (va / 4096) t], s) := by
  obtain ⟨hn, hin, hva⟩ := h.small
  have hout : (strandWho s c).inWindow (va / 4096) = none := by
    unfold Who.inWindow
    rw [show (strandWho s c).window = none from h.noWindow]
  have hlook : lookupPage (strandWho s c).pid (strandWho s c).vd (strandWho s c).asid (va / 4096 * 4096) s = (.ok t, s) := by
    rw [lookupPage, if_neg (by omega), Nat.mul_div_cancel _ (by decide)]
    have hheld := h.held
    simp only [strandWho] at hheld ⊢
    rw [hheld]
  have hone : onePage (strandWho s c) (va / 4096) acc s = (.ok (pageOf (va / 4096) t), s) := by
    rw [onePage, hout]
    simp only [hlook, h.checkPage hx]
  have hneed : needPage (strandWho s c) (Touch.need { va := va, len := n, acc := acc } (va / 4096)) s = (.ok (pageOf (va / 4096) t), s) := by
    unfold needPage
    rw [h.misses acc]
    exact hone
  rw [Machine.translate, Machine.translateRuns, pageNeeds_within hn hin]
  simp only [openPages, hneed, pure, StateT.pure]

/-- Its piece, as a strand without checks left to fail gets it. -/
theorem PlainAccess.pieces : Machine.pieces [pageOf (va / 4096) t] va n = [plainPiece va n t] :=
  pieces_within h.small.1 h.small.2.1 rfl

/-- No check stops it (R100, R106, R247). -/
theorem PlainAccess.openAccess {acc : Acc} (hx : acc.needX = false) (race : Bool) :
    Machine.openAccess c st va n acc kd race s = .ok ((strandWho s c, [plainPiece va n t]), s) := by
  obtain ⟨-, -, -, hrace, -, -⟩ := h.rights
  unfold Machine.openAccess
  simp only [M.bind_eq, M.get_eq, lift_eq, h.translate hx, checkWatch, getCore_eq, h.noWatch, h.pieces, M.pure_eq,
    M.ite_eq, checkRace_unchecked (p := plainPiece va n t) hrace]
  cases race <;> rfl

/-! ### The sector of a plain access (R87, R94) -/

/-- The agent reads the bytes at their slice, with the sector's label (R94). -/
theorem PlainAccess.readPieces (w : Who) : Machine.readPieces w [plainPiece va n t] s = (plainGot s t va n, s) := by
  obtain ⟨hn, hin, -⟩ := h.small
  obtain ⟨-, -, -, -, -, hlbl⟩ := h.rights
  have hoff : physOf t va % 64 = va % 64 := by unfold physOf; omega
  have hlblOf : (readLocal s (physOf t va / 64)).lbl = (s.sideAt (physOf t va / 64)).lbl := congrArg SectorVal.lbl (if_pos h.epoch)
  have hpoison : (readLocal s (physOf t va / 64)).poison = false := by
    unfold readLocal
    dsimp only
    split <;> exact h.notPoisoned
  have hbytes : ((readLocal s (physOf t va / 64)).bytes.drop (physOf t va % 64)).take n = readBytes s (physOf t va) n := by
    have hlen : (readLocal s (physOf t va / 64)).bytes.length = 64 := readLocal_length s _
    refine List.ext_getElem (by simp only [readBytes, List.length_take, List.length_drop, List.length_map, List.length_range]; omega)
      fun i hi hi' => ?_
    have hi : i < n := by simpa [readBytes] using hi'
    have hsec : (physOf t va + i) / 64 = physOf t va / 64 := by omega
    have hrem : (physOf t va + i) % 64 = physOf t va % 64 + i := by omega
    have hloc : Machine.paLocal (physOf t va + i) = true := by
      have := paLocal_iff.1 h.paLocal_sector
      exact paLocal_iff.2 (by omega)
    simp only [readBytes, List.getElem_take, List.getElem_drop, List.getElem_map, List.getElem_range]
    rw [readByte, if_pos hloc, hsec, h.clean, hrem]
    exact (List.getD_eq_getElem _ _ (by omega)).symm
  have hmark := markPresent_l1 (holder_l1 w s (p := plainPiece va n t) rfl) (physOf t va / 64) s
  have hhost : fromHost s (plainPiece va n t) = false := fromHost_local s _ h.paLocal
  unfold Machine.readPieces
  simp only [List.foldlM_cons, List.foldlM_nil, bind, StateT.bind, get, getThe, MonadStateOf.get, StateT.get, pure, StateT.pure, modify,
    modifyGet, MonadStateOf.modifyGet, StateT.modifyGet, hhost, Bool.false_eq_true, if_false, charge, if_true]
  rw [show (plainPiece va n t).sector = physOf t va / 64 from rfl, readSector_unheld _ h.paLocal_sector h.clean]
  simp only [hmark]
  rw [show (plainPiece va n t).page.lbl = 0 from hlbl, joinAt_zero_right]
  simp only [joinAt_zero_left, liveId_liveId, List.nil_append, Bool.false_or]
  rw [show (plainPiece va n t).pa = physOf t va from rfl, show (plainPiece va n t).len = n from rfl, hbytes, hlblOf, hpoison]

end

end Sys2Proof.Machine
end

section
/-! A plain access's bytes written (O15, O16): into the agent's L1 or to the slice, after a label join. -/

namespace Sys2Proof.Machine

/-! ### What a write of local bytes leaves (R87, R90, R94) -/

/-- Of the state, at most lines, the stored bytes and side bands, chunk counters and what a label join touches differ. -/
def StoreOnly (s t : State) : Prop :=
  t = { s with lines := t.lines, mem := t.mem, side := t.side, colls := t.colls, out := t.out,
               labels := { s.labels with table := t.labels.table, caches := t.labels.caches, lblcnt := t.labels.lblcnt } } ∧
    OnlyJoinReports s t

theorem StoreOnly.refl (s : State) : StoreOnly s s := ⟨rfl, 0, by simp⟩

theorem StoreOnly.cores {s t : State} (h : StoreOnly s t) : t.cores = s.cores := by rw [h.1]

theorem StoreOnly.core {s t : State} (h : StoreOnly s t) (c : CoreId) : t.core c = s.core c := by rw [State.core, h.cores, State.core]

/-- An instruction of core c that changes the core alone after such a write. -/
theorem StoreOnly.onlyStore {s u t : State} {c : CoreId} (h : StoreOnly s u) (ht : OnlyCore c u t) : OnlyStore c s t := by
  obtain ⟨heq, hrep⟩ := h
  obtain ⟨hcores, hother⟩ := ht
  unfold OnlyCores at hcores
  have hout : t.out = u.out := by rw [hcores]
  refine ⟨?_, by unfold OnlyJoinReports at hrep ⊢; rw [hout]; exact hrep, fun d hd => ?_⟩
  · rw [hcores, heq]
  · rw [hother d hd, heq]
    rfl

/-- A change of cores moves no byte. -/
theorem stored_cores {s u t : State} {pa : Nat} {bs : List Byte} (ht : t = { u with cores := t.cores }) (h : Stored s u pa bs) :
    Stored s t pa bs := by
  have same : ∀ a, readByte t a = readByte u a := by
    rw [ht]
    exact readByte_congr rfl rfl rfl rfl rfl
  obtain ⟨hthere, hother⟩ := h
  exact ⟨(List.map_congr_left fun i _ => same _).trans hthere, fun a ha => (same a).trans (hother a ha)⟩

theorem memorySame_cores {s t : State} (ht : t = { s with cores := t.cores }) : MemorySame s t := by
  rw [ht]
  exact readByte_congr rfl rfl rfl rfl rfl

/-! ### A dirty line made (R90, R130) -/

theorem line?_putLine_self (u : State) (x : Line) : (u.putLine x).line? x.sector = some x := by simp [State.putLine, State.line?]

theorem line?_putLine_ne (u : State) {x : Line} {m : Nat} (h : m ≠ x.sector) : (u.putLine x).line? m = u.line? m := by
  have hne : (x.sector == m) = false := by simpa using fun e : x.sector = m => h e.symm
  rw [State.line?, State.putLine, List.find?_cons, hne]
  exact line?_dropLine_ne u h

/-- A line put over a sector that no agent held stores its run of bytes and no other. -/
theorem stored_putLine {s : State} {x : Line} {o : Nat} {bs : List Byte} (hloc : paLocal (x.sector * 64) = true)
    (hline : s.line? x.sector = none) (hin : o + bs.length ≤ 64) (hx : x.bytes = overlay (readLocal s x.sector).bytes o bs) :
    Stored s (s.putLine x) (x.sector * 64 + o) bs := by
  have hfit : o + bs.length ≤ (readLocal s x.sector).bytes.length := by rwa [readLocal_length]
  have hend := paLocal_iff.1 hloc
  have here : ∀ a, a / 64 = x.sector → readByte (s.putLine x) a = (overlay (readLocal s x.sector).bytes o bs).getD (a % 64) 0 := by
    intro a ha
    rw [readByte, if_pos (paLocal_iff.2 (by omega)), ha, line?_putLine_self, ← hx]
  refine ⟨List.ext_getElem (by simp [readBytes]) fun i hi hb => ?_, fun a ha => ?_⟩
  · simp only [readBytes, List.getElem_map, List.getElem_range]
    rw [here _ (by omega), overlay_getD _ hfit, if_pos (by omega), show (x.sector * 64 + o + i) % 64 - o = i by omega,
      List.getD_eq_getElem _ _ hb]
  · by_cases hn : a / 64 = x.sector
    · rw [here a hn, overlay_getD _ hfit, if_neg (by omega), readByte, if_pos (paLocal_iff.2 (by omega)), hn, hline]
    · rw [readByte, readByte, line?_putLine_ne s hn]
      rfl

theorem storeOnly_writeLocal {s u : State} (hu : JoinOnly s u) (hw : ∀ k i, bit (rd (s.slice k).ws i).ctl.toNat 0 = false)
    (a : Author) (n o : Nat) (bs : List Byte) (l : Label) : StoreOnly s (writeLocal a n o bs l u) := by
  obtain ⟨heq, hrep⟩ := hu
  obtain ⟨sd, co, -, hwrite⟩ := writeLocal_only a n o bs l u (by rw [heq]; exact hw)
  refine ⟨?_, by rw [hwrite]; exact hrep⟩
  rw [hwrite, heq]

theorem storeOnly_putLine {s u : State} (hu : JoinOnly s u) (x : Line) : StoreOnly s (u.putLine x) := by
  obtain ⟨heq, hrep⟩ := hu
  refine ⟨?_, hrep⟩
  rw [heq]
  rfl

/-! ### One piece written (R94, R130, R225) -/

/-- A piece of a sound sector at its slice, that no other agent holds, under no page label. -/
structure HomePiece (p : Piece) (s : State) : Prop where
  stash : p.page.stash = none
  label : p.page.lbl = 0
  here : paLocal p.pa = true
  sector : paLocal (p.sector * 64) = true
  line : s.line? p.sector = none
  frame : ∀ cl, ∀ f ∈ (s.cluster cl).frames, f.ppage ≠ p.sector / 64
  sound : (readLocal s p.sector).poison = false

theorem HomePiece.unheld {p : Piece} {s : State} (h : HomePiece p s) {w : Who} (hw : w.cache = none) : UnheldPiece w p s :=
  ⟨hw, h.stash, h.label, h.here, h.sector, h.line, h.frame⟩

section
variable {w : Who} {p : Piece} {s : State} (h : HomePiece p s) (bs : List Byte) (l : Label)
include h

/-- What no cache keeps goes to its slice, as an agent without a cache writes it. -/
theorem HomePiece.writePiece_through (hold : w.holder s p = none) :
    writePiece w p bs l s = writePiece { w with cache := none } p bs l s := by
  have hnone : ({ w with cache := none } : Who).holder s p = none := holder_none _ s p rfl h.stash
  unfold writePiece
  simp only [bind, StateT.bind, get, getThe, MonadStateOf.get, StateT.get, pure, h.label, joinAt_zero_right, hold, hnone]
  rfl

/-- What the L1 keeps becomes a dirty line of the old bytes with the new run over them. -/
theorem HomePiece.writePiece_cached {c : CoreId} {a : BitVec 16} {v : Nat} (hold : w.holder s p = some (.l1 c a v)) :
    ∃ x u, JoinOnly s u ∧ x.sector = p.sector ∧ x.bytes = overlay (readLocal s p.sector).bytes (p.pa % 64) bs ∧
      writePiece w p bs l s = (.done, u.putLine x) := by
  have hjoin := joinAt_joinOnly w.die w.pid (readLocal s p.sector).lbl (liveId s.labels l) s
  have hhost : fromHost s p = false := fromHost_local s p h.here
  have hpart : ∃ l' u, JoinOnly s u ∧ oldPart w (some (.l1 c a v)) p (liveId s.labels l) s = (some l', u) := by
    unfold oldPart
    split
    · exact ⟨_, s, JoinOnly.refl s, rfl⟩
    · refine ⟨(joinAt w.die w.pid (readLocal s p.sector).lbl (liveId s.labels l) s).1, _, hjoin, ?_⟩
      simp only [bind, StateT.bind, modify, modifyGet, MonadStateOf.modifyGet, StateT.modifyGet, pure, StateT.pure, hhost, Bool.and_false,
        Bool.false_eq_true, if_false, charge, if_true, readSector_unheld (some (.l1 c a v)) h.sector h.line, h.sound]
  obtain ⟨l', u, hu, hpart⟩ := hpart
  have hline : u.line? p.sector = none := by rw [hu.1]; exact h.line
  have hframe : ∀ cl, ∀ f ∈ (u.cluster cl).frames, f.ppage ≠ p.sector / 64 := by rw [hu.1]; exact h.frame
  have hclaim : claim (some (.l1 c a v)) p.sector u = u := by
    have hpull : pull (some (.l1 c a v)) p.sector u = u := by simp [pull, hline]
    have hcover : (List.finRange 112).filter (fun cl => (u.cluster cl).frames.any (fun f => f.ppage == p.sector / 64)) = [] := by
      simpa using hframe
    have hun : unpresent (some (.l1 c a v)) p.sector u = u := by
      unfold unpresent
      rw [hcover]
      rfl
    simp [claim, hpull, hun, hline]
  have hnear : nearSector u p.sector = readLocal s p.sector := by
    rw [nearSector, if_pos h.sector, hu.1]
    rfl
  refine ⟨{ w.line (.l1 c a v) p with
    bytes := overlay (readLocal s p.sector).bytes (p.pa % 64) bs, lbl := l',
    poison := (readLocal s p.sector).poison && decide (bs.length < 64) }, u, hu, rfl, rfl, ?_⟩
  unfold writePiece
  simp only [bind, StateT.bind, get, getThe, MonadStateOf.get, StateT.get, pure, h.label, joinAt_zero_right, hold, h.here, Option.isNone_some,
    Bool.false_and, Bool.false_eq_true, if_false, hpart, Option.map_some, writeSector]
  rw [show ((w.line (.l1 c a v) p).owner) = .l1 c a v from rfl, hclaim, hline]
  simp only [hnear, modify, modifyGet, MonadStateOf.modifyGet, StateT.modifyGet, markPresent, StateT.pure, pure]
  rfl

/-- The piece's bytes stand at its address, and at most the L1, the slice and a label join show it. -/
theorem HomePiece.writePiece (hc : CanonicalMemory s) (hw : ∀ k i, bit (rd (s.slice k).ws i).ctl.toNat 0 = false)
    (hin : p.pa % 64 + bs.length ≤ 64) : ∃ u, Machine.writePiece w p bs l s = (.done, u) ∧ StoreOnly s u ∧ Stored s u p.pa bs := by
  have haddr : p.sector * 64 + p.pa % 64 = p.pa := Nat.div_add_mod' p.pa 64
  have before : ∀ {u}, JoinOnly s u → ∀ x, readByte u x = readByte s x := by
    intro u hu
    rw [hu.1]
    exact readByte_congr rfl rfl rfl rfl rfl
  rcases holder_l1 w s h.stash with hold | ⟨c, a, v, hold⟩
  · obtain ⟨l', u, hu, hwrite⟩ := writePiece_unheld (h.unheld (w := { w with cache := none }) rfl) bs l
    refine ⟨_, (h.writePiece_through bs l hold).trans hwrite, storeOnly_writeLocal hu hw _ _ _ _ _, ?_⟩
    obtain ⟨hthere, hother⟩ := stored_writeLocal (s := u) (a := w.author) (l := l') (by rw [hu.1]; exact hc) (by rw [hu.1]; exact hw) hin
      h.sector (by rw [hu.1]; exact h.line)
    rw [haddr] at hthere hother
    exact ⟨hthere, fun x hx => (hother x hx).trans (before hu x)⟩
  · obtain ⟨x, u, hu, hsec, hbytes, hwrite⟩ := h.writePiece_cached bs l hold
    refine ⟨_, hwrite, storeOnly_putLine hu x, ?_⟩
    have hloc : readLocal u p.sector = readLocal s p.sector := by rw [hu.1]; rfl
    obtain ⟨hthere, hother⟩ := stored_putLine (s := u) (x := x) (o := p.pa % 64) (bs := bs) (by rw [hsec]; exact h.sector)
      (by rw [hsec, hu.1]; exact h.line) hin (by rw [hsec, hloc, hbytes])
    rw [hsec, haddr] at hthere hother
    exact ⟨hthere, fun y hy => (hother y hy).trans (before hu y)⟩

end

section
variable {s : State} {c : CoreId} {st : Strand} {va n : Nat} {kd : WpKind} {t : Tlb} (h : PlainAccess s c st va n kd t)
include h

theorem PlainAccess.homePiece : HomePiece (plainPiece va n t) s where
  stash := rfl
  label := by
    obtain ⟨-, -, -, -, -, hlbl⟩ := h.rights
    exact hlbl
  here := h.paLocal
  sector := h.paLocal_sector
  line := h.clean
  frame := h.noStash
  sound := by
    unfold readLocal
    dsimp only
    split <;> exact h.notPoisoned

/-- All the bytes of a plain access stored by any agent of the core. -/
theorem PlainAccess.writePieces (hc : CanonicalMemory s) (w : Who) {bs : List Byte} (hlen : bs.length = n) (l : Label) :
    ∃ u, Machine.writePieces w [plainPiece va n t] bs l s = (.done, u) ∧ StoreOnly s u ∧ Stored s u (physOf t va) bs := by
  have hoff : physOf t va % 64 = va % 64 := by unfold physOf; omega
  obtain ⟨-, hin, -⟩ := h.small
  obtain ⟨u, hwrite, honly, hst⟩ := h.homePiece.writePiece (w := w) bs l hc h.noSliceWatch (by
    rw [hlen, show (plainPiece va n t).pa = physOf t va from rfl, hoff]
    exact hin)
  refine ⟨u, ?_, honly, hst⟩
  have htake : bs.take (plainPiece va n t).len = bs := by rw [show (plainPiece va n t).len = n from rfl, ← hlen, List.take_length]
  unfold Machine.writePieces
  simp only [List.foldlM_cons, List.foldlM_nil, bind, StateT.bind, pure, htake, hwrite]
  rfl

end

end Sys2Proof.Machine
end

section
/-! Loads and stores of the C strand (O15): the checks of an access, its guards, its effect, and the delivery of a result. -/

namespace Sys2Proof.Machine

/-! ### The checks of an access, in their order (R96, R100, R106, R247) -/

section
variable {c : CoreId} {va n : Nat} {acc : Acc} {kd : WpKind} {race : Bool} {s s1 : State} {pages : List Page}

theorem openAccess_fault {st : Strand} {f : PFault × Word} (ht : translate (strandWho s c) va n acc s = (.error f, s1))
    (hp : f.1.poison = false) : openAccess c st va n acc kd race s =
      .error (.trap (if f.1.stage = 1 then cPF1 else cPF2) (f.1.level * 16 + f.1.kind) f.2 s1) := by
  unfold openAccess
  simp only [M.bind_eq, M.get_eq, lift_eq, ht, pageFault, hp, Bool.false_eq_true, if_false, trapNow_eq]

theorem checkWatch_none (hw : wpHit (s1.core c) .C (s1.core c).seq.pc va n kd = none) : checkWatch c .C va n kd s1 = .ok ((), s1) := by
  simp only [checkWatch, M.bind_eq, getCore_eq, strandPc, hw, M.pure_eq]

section
variable (ht : translate (strandWho s c) va n acc s = (.ok pages, s1))
include ht

theorem openAccess_watch {w : Nat} {snap : Bool} (hw : wpHit (s1.core c) .C (s1.core c).seq.pc va n kd = some (w, snap)) :
    openAccess c .C va n acc kd race s =
      .error (.trap cWATCH w (wd va) (if snap then fireSnap (s1.core c).id.pid 2 s1 else s1)) := by
  unfold openAccess
  simp only [M.bind_eq, M.get_eq, lift_eq, ht, checkWatch, getCore_eq, strandPc, hw]
  cases snap <;> rfl

variable (hw : wpHit (s1.core c) .C (s1.core c).seq.pc va n kd = none)
include hw

theorem openAccess_unraced : openAccess c .C va n acc kd false s = .ok ((strandWho s c, pieces pages va n), s1) := by
  unfold openAccess
  simp only [M.bind_eq, M.get_eq, lift_eq, ht, checkWatch_none hw, Bool.false_eq_true, if_false, M.pure_eq]

theorem openAccess_race {p : Piece} {r : Word} {s2 : State} (hps : pieces pages va n = [p]) (hp : p.page.race = true)
    (hr : readRace (s1.core c).id.pid p.pa s1 = (some r, s2))
    (hfree : raceFree r (s1.core c).id.jobid (s1.core c).id.phn (s1.core c).id.slot (fun t => (s1.core c).seen.toList.getD t 0) = false) :
    openAccess c .C va n acc kd true s = .error (.trap cRACE 0 (wd (p.va / 64 * 64)) (s2.updCore c (fun k =>
      { k with dbg := { k.dbg with racerec := r, racepa := wd (2 ^ 63 + p.pa / 64 * 64) } }))) := by
  unfold openAccess
  simp only [M.bind_eq, M.get_eq, lift_eq, ht, checkWatch_none hw, hps, if_true, checkRace, List.forM_eq_forM, List.forM_cons, hp,
    getCore_eq, hr, hfree, Bool.false_eq_true, if_false, modCore_eq, trapNow_eq, Nat.add_zero, M.ite_eq]

end
end

/-- An instruction that takes each trap of its access's checks faults as R96, R100 and R106 have it. -/
theorem faultsOn_of {c : CoreId} {i : Instr} {va n : Nat} {acc : Acc} {kd : WpKind} {race : Bool} {s : State}
    (h : ∀ code sub tval s1, openAccess c .C va n acc kd race s = .error (.trap code sub tval s1) → exec i s = .next (trapC c code sub tval s1)) :
    FaultsOn c i va n acc kd s :=
  ⟨fun _ _ ht hp => h _ _ _ _ (openAccess_fault ht hp), fun _ _ _ _ ht hw => h _ _ _ _ (openAccess_watch ht hw)⟩

/-- And races as R247 and R248 have it. -/
theorem racesOn_of {c : CoreId} {i : Instr} {va n : Nat} {acc : Acc} {kd : WpKind} {s : State}
    (h : ∀ code sub tval s1, openAccess c .C va n acc kd true s = .error (.trap code sub tval s1) → exec i s = .next (trapC c code sub tval s1)) :
    RacesOn c i va n acc kd s :=
  fun _ _ _ _ _ ht hw hps hp hr hfree => h _ _ _ _ (openAccess_race ht hw hps hp hr hfree)

/-! ### Guards (R300, R301) -/

section
variable {c : CoreId} {st : Strand} {i : Instr} {rs : List Run} {s : State}

theorem guardCheck_passes (h : ∀ m ∈ guardedBy s c rs, m.stok = true) : guardCheck c st i rs s = .ok (guardedBy s c rs, s) := by
  have hany : (guardedBy s c rs).any (fun m => !m.stok) = false := by
    rw [List.any_eq_false]
    intro m hm
    rw [h m hm]
    decide
  unfold guardCheck
  simp only [M.bind_eq, M.get_eq, M.ite_eq, hany, Bool.false_eq_true, if_false, M.pure_eq]

theorem guardCheck_waits (h : ∃ m ∈ guardedBy s c rs, m.stok = false) : guardCheck c st i rs s =
    .error (.wait (s.updCore c (fun k => { k with gwait := { st := st, instr := i } :: k.gwait.filter (fun g => g.st != st) }))) := by
  obtain ⟨m, hm, hstok⟩ := h
  have hany : (guardedBy s c rs).any (fun m => !m.stok) = true := List.any_eq_true.2 ⟨m, hm, by rw [hstok]; rfl⟩
  unfold guardCheck
  simp only [M.bind_eq, M.get_eq, M.ite_eq, hany, if_true, modCore_eq, waitNow_eq]

end

/-! ### The C strand goes on (R252) -/

/-- Completion after a change of the own core that leaves its sequence and strands. -/
theorem finishC_updCore_falls (c : CoreId) (g : Core → Core) (u : State) (hseq : (g (u.core c)).seq = (u.core c).seq)
    (hst : (g (u.core c)).st = (u.core c).st) : FallsThrough (u.core c) ((finishC c {} (u.updCore c g)).core c) := by
  rw [finishC_core, State.core_updCore_self]
  exact ⟨by simp [Seq.advance, hseq], by simp [hst]⟩

/-- And its x registers. -/
theorem finishC_updCore_keepsX (c : CoreId) (g : Core → Core) (u : State) (hx : (g (u.core c)).x = (u.core c).x)
    (hxl : (g (u.core c)).xl = (u.core c).xl) : KeepsX (u.core c) ((finishC c {} (u.updCore c g)).core c) := by
  rw [finishC_core, State.core_updCore_self]
  exact fun r => ⟨by simp [Core.xval, hx], by simp [Core.xlbl, hxl]⟩

/-- Completion alone keeps registers and falls through. -/
theorem finishC_keeps (c : CoreId) (u : State) : KeepsCore (u.core c) ((finishC c {} u).core c) ∧ KeepsX (u.core c) ((finishC c {} u).core c) ∧
    FallsThrough (u.core c) ((finishC c {} u).core c) := by
  rw [finishC_core]
  exact ⟨rfl, fun r => ⟨rfl, rfl⟩, by simp [FallsThrough, Seq.advance]⟩

/-! ### Loads (R259, R260) -/

/-- The address and the length of a load or a store (R62). -/
def memAddr (s : State) (c : CoreId) (b : BitVec 6) (w : BitVec 3) (o : BitVec 11) : Nat :=
  (cmAddr ((s.core c).xval b) o (widthSize w)).toNat

/-- What a load leaves pending. -/
def loadPend (d : BitVec 6) (w : BitVec 3) (g : Got) : Pend :=
  { reg := d, src := .load, val := some (widthExtend w (leNat g.bytes)), lbl := g.lbl, seq := none }

section
variable {s : State} {c : CoreId} {d b : BitVec 6} {w : BitVec 3} {o : BitVec 11} (hr : Ready s c .C) (hp : NonePending (s.core c) [d, b])
include hr hp

theorem execLd_guarded : WaitsOnGuard c (.ld d b w o) (memAddr s c b w o) (widthSize w) s := by
  intro h
  unfold memAddr at h
  have hd : (s.core c).pending d = false := hp d (by simp)
  have hb : (s.core c).pending b = false := hp b (by simp)
  show execLd d b w o s = _
  unfold execLd
  refine runPlain_wait hr ?_
  simp only [M.bind_eq, needFree_eq, readX_eq, hd, hb, Bool.false_eq_true, if_false, guardCheck_waits h]

variable (hg : ∀ m ∈ guardedBy s c [(memAddr s c b w o, widthSize w)], m.stok = true)
include hg

/-- With its guards passed a load does what its access does. -/
theorem execLd_read {g : Got} {s1 : State} (h : strandRead c .C (memAddr s c b w o) (widthSize w) true s = .ok (g, s1)) :
    exec (.ld d b w o) s = .next (finishC c {} ((staleMark (guardedBy s c [(memAddr s c b w o, widthSize w)]) s1).2.updCore c
      (fun k => { k with pend := k.pend ++ [loadPend d w g] }))) := by
  have hd : (s.core c).pending d = false := hp d (by simp)
  have hb : (s.core c).pending b = false := hp b (by simp)
  show execLd d b w o s = _
  unfold execLd
  refine runPlain_ok hr ?_
  unfold memAddr at hg h ⊢
  simp only [M.bind_eq, needFree_eq, readX_eq, hd, hb, Bool.false_eq_true, if_false, guardCheck_passes hg, h, lift_eq, addPend, modCore_eq,
    loadPend]

theorem execLd_trap (code sub : Nat) (tval : Word) (s1 : State)
    (h : openAccess c .C (memAddr s c b w o) (widthSize w) .read { rd := true, wr := false, ex := false } true s = .error (.trap code sub tval s1)) :
    exec (.ld d b w o) s = .next (trapC c code sub tval s1) := by
  have hd : (s.core c).pending d = false := hp d (by simp)
  have hb : (s.core c).pending b = false := hp b (by simp)
  show execLd d b w o s = _
  unfold execLd
  refine runPlain_trap hr ?_
  unfold memAddr at hg h
  simp only [M.bind_eq, needFree_eq, readX_eq, hd, hb, Bool.false_eq_true, if_false, guardCheck_passes hg, strandRead, h]

end

/-! ### Stores (R259) -/

section
variable {s : State} {c : CoreId} {r b : BitVec 6} {w : BitVec 3} {o : BitVec 11} (hr : Ready s c .C) (hp : NonePending (s.core c) [r, b])
include hr hp

theorem execSt_written {s1 : State} (h : strandWrite c .C (memAddr s c b w o) (natBytes (widthSize w) ((s.core c).xval r).toNat)
    ((s.core c).xlbl r) true s = .ok ((), s1)) : exec (.st r b w o) s = .next (finishC c {} s1) := by
  have hs : (s.core c).pending r = false := hp r (by simp)
  have hb : (s.core c).pending b = false := hp b (by simp)
  show execSt r b w o s = _
  unfold execSt
  refine runPlain_ok hr ?_
  unfold memAddr at h
  simp only [M.bind_eq, readXL_eq, readX_eq, hs, hb, Bool.false_eq_true, if_false, h]

theorem execSt_trap (code sub : Nat) (tval : Word) (s1 : State)
    (h : openAccess c .C (memAddr s c b w o) (widthSize w) .write { rd := false, wr := true, ex := false } true s = .error (.trap code sub tval s1)) :
    exec (.st r b w o) s = .next (trapC c code sub tval s1) := by
  have hs : (s.core c).pending r = false := hp r (by simp)
  have hb : (s.core c).pending b = false := hp b (by simp)
  show execSt r b w o s = _
  unfold execSt
  refine runPlain_trap hr ?_
  unfold memAddr at h
  simp only [M.bind_eq, readXL_eq, readX_eq, hs, hb, Bool.false_eq_true, if_false, strandWrite, natBytes_length, h]

end

/-! ### A plain access's effect -/

section
variable {s : State} {c : CoreId} {va n : Nat} {t : Tlb}

theorem PlainAccess.strandRead (h : PlainAccess s c .C va n { rd := true, wr := false, ex := false } t) : Machine.strandRead c .C va n true s =
    .ok (plainGot s t va n, s) := by
  unfold Machine.strandRead
  simp only [M.bind_eq, h.openAccess (acc := .read) rfl, lift_eq, h.readPieces, poisoned, Bool.false_eq_true, if_false, M.pure_eq]

theorem PlainAccess.strandWrite (h : PlainAccess s c .C va n { rd := false, wr := true, ex := false } t) (hc : CanonicalMemory s) {bs : List Byte}
    (hlen : bs.length = n) (l : Label) : ∃ u, Machine.strandWrite c .C va bs l true s = .ok ((), u) ∧ StoreOnly s u ∧
      Stored s u (physOf t va) bs := by
  obtain ⟨-, -, -, hrace, -, -⟩ := h.rights
  obtain ⟨u, hu, honly, hst⟩ := h.writePieces hc (strandWho s c) hlen l
  refine ⟨u, ?_, honly, hst⟩
  unfold Machine.strandWrite
  simp only [M.bind_eq, hlen, h.openAccess (acc := .write) rfl, if_true, stampRace_unchecked (p := plainPiece va n t) hrace, lift_eq, hu,
    reportDrop, wrote, M.modify_eq]

end

/-! ### The width codes (R62) -/

theorem widthSize_eq (w : BitVec 3) : widthSize w = if w.toNat < 2 then 1 else if w.toNat < 4 then 2 else if w.toNat < 6 then 4 else 8 := by
  revert w
  decide

theorem widthSize_store (w : BitVec 3) : w = 1 ∨ w = 3 ∨ w = 5 ∨ w = 6 →
    widthSize w = if w = 1 then 1 else if w = 3 then 2 else if w = 5 then 4 else 8 := by
  revert w
  decide

theorem sint_eq_toInt {n : Nat} (hn : 0 < n) (v : Nat) : sint n v = (BitVec.ofNat n v).toInt := by
  have hpow : 2 ^ n = 2 * 2 ^ (n - 1) := by rw [← Nat.pow_succ', Nat.succ_eq_add_one, Nat.sub_add_cancel hn]
  rw [BitVec.toInt_eq_toNat_cond, BitVec.toNat_ofNat, sint]
  have hiff : 2 * (v % 2 ^ n) < 2 ^ n ↔ v % 2 ^ n < 2 ^ (n - 1) := by omega
  simp only [hiff]

theorem widthExtend_eq (w : BitVec 3) (v : Nat) : widthExtend w v = if w = 0 then (BitVec.ofNat 8 v).signExtend 64
    else if w = 2 then (BitVec.ofNat 16 v).signExtend 64 else if w = 4 then (BitVec.ofNat 32 v).signExtend 64 else wd v := by
  have h8 : word (sint 8 v) = (BitVec.ofNat 8 v).signExtend 64 := by rw [sint_eq_toInt (by decide)]; rfl
  have h16 : word (sint 16 v) = (BitVec.ofNat 16 v).signExtend 64 := by rw [sint_eq_toInt (by decide)]; rfl
  have h32 : word (sint 32 v) = (BitVec.ofNat 32 v).signExtend 64 := by rw [sint_eq_toInt (by decide)]; rfl
  unfold widthExtend
  split
  · next h => rw [h8, if_pos (BitVec.eq_of_toNat_eq h)]
  · next h => rw [h16, if_neg (fun e => by rw [e] at h; cases h), if_pos (BitVec.eq_of_toNat_eq h)]
  · next h =>
    rw [h32, if_neg (fun e => by rw [e] at h; cases h), if_neg (fun e => by rw [e] at h; cases h), if_pos (BitVec.eq_of_toNat_eq h)]
  · next n0 n2 n4 => rw [if_neg (fun e => n0 (by rw [e]; rfl)), if_neg (fun e => n2 (by rw [e]; rfl)), if_neg (fun e => n4 (by rw [e]; rfl))]

/-! ### The delivery of a pending result (R250, R260, R361) -/

/-- A delivery writes x[d] and takes the result off the list; of the rest at most the journal and LOW differ. -/
theorem deliverPend_eq (p : Pend) (v : Word) (k : Core) :
    ∃ j n, deliverPend p v k = { k.setX p.reg v p.lbl with pend := k.pend.erase p, journal := j, low := n } := by
  unfold deliverPend
  cases p.seq with
  | none => exact ⟨_, _, rfl⟩
  | some n => exact ⟨_, _, rfl⟩

/-- The journal entry of a delivered command is complete (R361). -/
theorem deliverPend_done {p : Pend} {n : Nat} (hp : p.seq = some n) (v : Word) (k : Core) :
    ∀ e ∈ (deliverPend p v k).journal, e.seq = n → e.done = true := by
  intro e he hn
  have hj : (deliverPend p v k).journal = (k.setX p.reg v p.lbl).journal.map (fun e => if e.seq == n then { e with done := true } else e) := by
    unfold deliverPend
    rw [hp]
    rfl
  rw [hj] at he
  obtain ⟨e0, -, rfl⟩ := List.mem_map.1 he
  by_cases h0 : (e0.seq == n) = true
  · rw [if_pos h0]
  · rw [if_neg h0] at hn
    exact absurd (by simpa using hn) h0

/-- The one pending result of a core, delivered by its own engine. -/
theorem deliverFirst_only {s : State} {c : CoreId} {p : Pend} {v : Word} (hv : p.val = some v) (hp : (s.core c).pend = [p]) :
    deliverFirst c p.reg p.src s = s.updCore c (deliverPend p v) := by
  have hfind : (s.core c).pend.find? (fun q => q.reg == p.reg && q.src == p.src && q.val.isSome) = some p := by
    rw [hp]
    simp [hv]
  unfold deliverFirst
  rw [hfind]
  simp only [hv, Option.getD_some]

theorem delivery_state {s : State} {c : CoreId} {p : Pend} {v : Word} (hp : (s.core c).pend = [p]) :
    let t := s.updCore c (deliverPend p v)
    OnlyCore c s t ∧ SetsX (s.core c) (t.core c) p.reg v p.lbl ∧ (t.core c).pend = [] ∧ (t.core c).seq = (s.core c).seq ∧
      (t.core c).csr = (s.core c).csr ∧ (t.core c).tok = (s.core c).tok ∧
      (∀ n, p.seq = some n → ∀ e ∈ (t.core c).journal, e.seq = n → e.done = true) := by
  obtain ⟨j, n, hk⟩ := deliverPend_eq p v (s.core c)
  refine ⟨⟨rfl, fun m hm => State.core_updCore_ne _ _ _ _ hm⟩, ?_⟩
  simp only [State.core_updCore_self]
  refine ⟨⟨?_, ?_, fun r hr => ⟨?_, ?_⟩⟩, ?_, ?_, ?_, ?_, fun m hm => deliverPend_done hm v _⟩
  · rw [hk]
    exact Core.xval_setX_self _ _ _ _
  · rw [hk]
    exact Core.xlbl_setX_self _ _ _ _
  · rw [hk]
    exact Core.xval_setX_ne _ _ _ _ _ hr
  · rw [hk]
    exact Core.xlbl_setX_ne _ _ _ _ _ hr
  · rw [hk, hp]
    simp
  · rw [hk]
    exact Core.seq_setX _ _ _ _
  · rw [hk]
    exact Core.csr_setX _ _ _ _
  · rw [hk]
    exact Core.tok_setX _ _ _ _

/-! ### The statement (O15) -/

/-- A plain load's effect. -/
theorem load_plain {s : State} {c : CoreId} {d b : BitVec 6} {w : BitVec 3} {o : BitVec 11} {t : Tlb} (hr : Ready s c .C)
    (hp : NonePending (s.core c) [d, b]) (h : PlainAccess s c .C (memAddr s c b w o) (widthSize w) { rd := true, wr := false, ex := false } t) :
    ∃ u, exec (.ld d b w o) s = .next u ∧ OnlyCore c s u ∧ MemorySame s u ∧ FallsThrough (s.core c) (u.core c) ∧
      KeepsCore { s.core c with pend := (u.core c).pend } (u.core c) ∧ KeepsX (s.core c) (u.core c) ∧
      (u.core c).pend = (s.core c).pend ++ [loadPend d w (plainGot s t (memAddr s c b w o) (widthSize w))] := by
  have hnone := h.noGuard
  have hexec := execLd_read hr hp (by rw [hnone]; simp) h.strandRead
  rw [hnone] at hexec
  refine ⟨_, hexec, updCore_finishC_only c _ s, memorySame_cores rfl, finishC_updCore_falls c _ s rfl rfl, ?_,
    finishC_updCore_keepsX c _ s rfl rfl, ?_⟩
  · rw [finishC_core]
    simp only [staleMark, List.foldl_nil, State.core_updCore_self]
    rfl
  · rw [finishC_core]
    simp only [staleMark, List.foldl_nil, State.core_updCore_self]

/-- Settles O15: each load and store is its access's checks in their order and then its effect; a plain access has one sector, in no cache. -/
theorem loadsAndStores : Obligations.LoadsAndStores := by
  unfold Obligations.LoadsAndStores
  refine ⟨?_, ?_, ?_, ?_, ?_⟩
  · intro s c d b w o t hr _ hp
    simp only [← widthSize_eq, ← widthExtend_eq]
    exact load_plain hr hp
  · intro s c d p v hv hp hreg i hi hsrc
    subst hreg
    refine ⟨s.updCore c (deliverPend p v), ?_, delivery_state hp⟩
    have hfirst := deliverFirst_only hv hp
    rw [hsrc] at hfirst
    simp only [List.mem_cons, List.not_mem_nil, or_false] at hi
    rcases hi with rfl | rfl <;> exact congrArg Host.Outcome.next hfirst
  · intro s c r b w o t hc hr hw hp
    simp only [← widthSize_store w hw]
    intro h
    obtain ⟨u, hwrite, honly, hst⟩ := h.strandWrite hc (natBytes_length _ ((s.core c).xval r).toNat) ((s.core c).xlbl r)
    obtain ⟨hcore, hx, hfalls⟩ := finishC_keeps c u
    rw [honly.core] at hcore hx hfalls
    exact ⟨_, execSt_written hr hp hwrite, honly.onlyStore (finishC_only c {} u), stored_cores rfl hst, hcore, hx, hfalls⟩
  · intro s c d b w o hr _ hp
    simp only [← widthSize_eq, ← widthExtend_eq]
    refine ⟨fun hg => ⟨fun g s1 hread => ?_, faultsOn_of (execLd_trap hr hp hg), racesOn_of (execLd_trap hr hp hg)⟩, execLd_guarded hr hp⟩
    refine ⟨_, execLd_read hr hp hg hread, updCore_finishC_only c _ _, finishC_updCore_falls c _ _ rfl rfl,
      finishC_updCore_keepsX c _ _ rfl rfl, ?_⟩
    rw [finishC_core, State.core_updCore_self]
    rfl
  · intro s c r b w o hr hw hp
    simp only [← widthSize_store w hw]
    refine ⟨fun s1 hwrite => ?_, faultsOn_of (execSt_trap hr hp), racesOn_of (execSt_trap hr hp)⟩
    obtain ⟨hcore, hx, hfalls⟩ := finishC_keeps c s1
    exact ⟨_, execSt_written hr hp hwrite, finishC_only c _ s1, hx, hcore, hfalls⟩

end Sys2Proof.Machine
end

section
/-! What accesses leave of every core (O16): registers, the sequence, pending results and the journal's counts stay. -/

namespace Sys2Proof.Machine

/-! ### Cores as they stand (R105, R355) -/

/-- Of each core at most its debug block and its queued traps differ. -/
def CoresStand (s0 s : State) : Prop := ∀ c, ∃ d a, s.core c = { s0.core c with dbg := d, atraps := a }

theorem CoresStand.refl (s : State) : CoresStand s s := fun _ => ⟨_, _, rfl⟩

/-- What an access leaves standing leaves the cores so. -/
theorem CoresStand.step {s0 s t : State} (h : CoresStand s0 s) (ht : Standing s t) : CoresStand s0 t := by
  obtain ⟨-, -, hcore, -⟩ := ht
  intro c
  obtain ⟨d, a, hc⟩ := h c
  obtain ⟨d', a', hc'⟩ := hcore c
  exact ⟨d', a', by rw [hc', hc]⟩

theorem CoresStand.trans {s t u : State} (h : CoresStand s t) (h' : CoresStand t u) : CoresStand s u := by
  intro c
  obtain ⟨d, a, hc⟩ := h c
  obtain ⟨d', a', hc'⟩ := h' c
  exact ⟨d', a', by rw [hc', hc]⟩

section
variable {s s1 : State} (h : CoresStand s s1) (c : CoreId)
include h

theorem CoresStand.seq : (s1.core c).seq = (s.core c).seq := by
  obtain ⟨d, a, hc⟩ := h c
  rw [hc]

theorem CoresStand.head : (s1.core c).head = (s.core c).head := by
  obtain ⟨d, a, hc⟩ := h c
  rw [hc]

theorem CoresStand.pend : (s1.core c).pend = (s.core c).pend := by
  obtain ⟨d, a, hc⟩ := h c
  rw [hc]

theorem CoresStand.span : (s1.core c).span = (s.core c).span := by
  obtain ⟨d, a, hc⟩ := h c
  rw [hc]
  rfl

theorem CoresStand.keepsX : KeepsX (s.core c) (s1.core c) := by
  obtain ⟨d, a, hc⟩ := h c
  rw [hc]
  exact fun r => ⟨rfl, rfl⟩

end

section
variable {s0 : State}

theorem coresStand_closed : Closed (CoresStand s0) where
  labels _ _ _ h := h
  ctr _ _ h := h
  out _ _ h := h
  waiting _ _ h := h
  tlb _ _ h := h
  clusters _ _ _ h := h
  parts _ _ _ h := h
  drop _ _ h := h
  put s a n o bs l p h := h.step (standing_putSector a n o bs l p s (Standing.refl s))
  hostMem _ _ _ h := h
  back s l _ h := h.step (standing_writeback l s (Standing.refl s))
  clean _ _ _ h := h
  held _ _ _ h := h

theorem coresStand_relDeny (c : CoreId) (v : Word) (s : State) (h : CoresStand s0 s) : CoresStand s0 (relDeny c v s) :=
  h.step (standing_relDeny c v s (Standing.refl s))

theorem coresStand_killJobOf (c : CoreId) (s : State) (h : CoresStand s0 s) : CoresStand s0 (killJobOf c s) := by
  unfold killJobOf
  split <;> exact h

theorem coresStand_wrote (c : CoreId) (r : WroteTo) (s : State) (h : CoresStand s0 s) : CoresStand s0 (wrote c r s) := by
  cases r with
  | done => exact h
  | denied va => exact coresStand_relDeny c va s h
  | poison => exact coresStand_killJobOf c s h

theorem coresStand_writePieces (w : Who) (ps : List Piece) (bs : List Byte) (l : Label) : Keeps (CoresStand s0) (writePieces w ps bs l) :=
  keeps_writePieces coresStand_closed w ps bs l (.inr fun _ _ h => h)

/-! ### The repair engine's records of stale reads (R297, R302) -/

theorem coresStand_rPoison {α : Type} (r : Rep) : KeepsR (CoresStand s0) (rPoison r : RM α) :=
  .bind (.step (keeps_modify fun _ h => h)) fun _ => .throw _

theorem coresStand_rFault {α : Type} (r : Rep) (f : PFault) : KeepsR (CoresStand s0) (rFault r f : RM α) := .ite (coresStand_rPoison r) (.throw _)

theorem coresStand_rGet (r : Rep) (va n : Nat) : KeepsR (CoresStand s0) (rGet r va n) := by
  refine .bind (.step (keeps_readVirt coresStand_closed _ _ _)) fun x => ?_
  split
  · exact coresStand_rFault r _
  · exact .ite (coresStand_rPoison r) (.pure _)

theorem coresStand_rPut (r : Rep) (va : Nat) (bs : List Byte) (l : Label) : KeepsR (CoresStand s0) (rPut r va bs l) := by
  refine .bind (.step (keeps_writeVirt coresStand_closed _ _ _ _ fun _ _ h => h)) fun x => ?_
  split
  · exact coresStand_rFault r _
  · exact .pure _
  · exact coresStand_rPoison r
  · refine .step (keeps_modify fun s h => ?_)
    split
    · exact coresStand_relDeny _ _ s h
    · exact h

theorem coresStand_failRep (k : Nat) (code : Byte) (s : State) (h : CoresStand s0 s) : CoresStand s0 (failRep k code s) := by
  have put : ∀ r : Rep, CoresStand s0 ((rPutDesc r).run (updRep k (rFail code) s)).2 := fun r => coresStand_rPut r _ _ _ _ h
  unfold failRep
  split
  · exact h
  · split
    · exact put _
    · exact put _
    · exact h

theorem coresStand_runRep (k : Nat) {m : RM Unit} (hm : KeepsR (CoresStand s0) m) (s : State) (h : CoresStand s0 s) :
    CoresStand s0 (runRep k m s) := by
  have ran := hm s h
  unfold runRep
  split
  · exact h
  · split
    · next e => rw [e] at ran; exact ran
    · next e => rw [e] at ran; exact coresStand_failRep k _ _ ran

theorem coresStand_markEntry (k i : Nat) : KeepsR (CoresStand s0) (markEntry k i) := by
  refine .bind (RowClosed.repNow k) fun r => ?_
  split
  · exact .bind (.bind (coresStand_rGet _ _ _) fun _ => .pure _) fun _ => .ite (.throw _) (coresStand_rPut _ _ _ _)
  · exact .pure _

theorem coresStand_markStales (k : Nat) : KeepsR (CoresStand s0) (markStales k) :=
  .bind (.step (keeps_modify fun _ h => h)) fun _ => .bind (RowClosed.repNow k) fun _ => coresStand_rPut _ _ _ _

theorem coresStand_staleMark (ms : List GuardMark) : Keeps (CoresStand s0) (staleMark ms) := fun s h =>
  RowClosed.foldl (fun s _ hs => RowClosed.foldl (fun s i hs => coresStand_runRep _ (coresStand_markEntry _ i) s hs) _ _
    (coresStand_runRep _ (coresStand_markStales _) s hs)) ms s h

/-! ### What an atomic's access leaves (R262, R330) -/

theorem coresStand_joinL (c : CoreId) (a b : Label) : Keeps (CoresStand s0) (joinL c a b) :=
  fun s h => keeps_joinAt coresStand_closed _ _ a b s h

theorem coresStand_amoHere (c : CoreId) (w : Who) (f : AmoFun) (ps : List Piece) (n : Nat) (b : Word × Label) (d : Word) :
    KeepsM (CoresStand s0) (amoHere c w f ps n b d) := by
  have poison : ∀ g, KeepsM (CoresStand s0) (poisoned c g) := fun g =>
    .ite (.bind (.modifyState (coresStand_killJobOf c)) fun _ => .wait) (.pure _)
  refine .bind (.lift (keeps_readPieces coresStand_closed _ _)) fun g => .bind (poison g) fun _ => ?_
  dsimp only
  split
  · exact .pure _
  · exact .bind (.lift (coresStand_writePieces _ _ _ _)) fun r => .bind (.modifyState (coresStand_wrote c r)) fun _ => .pure _

theorem coresStand_amoRemote (c : CoreId) (op : Nat) (p : Piece) (b d : Word × Label) : KeepsM (CoresStand s0) (amoRemote c op p b d) := by
  have answer : KeepsM (CoresStand s0) (do
      let v ← lift freshWord
      let lin ← lift ualLabel
      return (v, ← lift (joinL c lin p.page.lbl))) :=
    .bind (.lift (keeps_freshWord coresStand_closed)) fun _ => .bind (.lift fun _ h => h) fun _ => .bind (.lift (coresStand_joinL _ _ _)) fun _ =>
      .pure _
  refine .bind (.modifyState fun s h => closed_claim coresStand_closed _ _ s h) fun _ => .bind (.lift (coresStand_joinL _ _ _)) fun _ =>
    .bind (.lift (coresStand_joinL _ _ _)) fun _ => .bind .get fun s => .ite ?_ ?_
  · exact .bind (.lift (keeps_emit coresStand_closed _ _)) fun _ => answer
  · exact .bind (.lift (keeps_freePort coresStand_closed _)) fun _ => .bind (.modifyState fun s h => coresStand_relDeny _ _ _ h) fun _ => answer

end

end Sys2Proof.Machine
end

section
/-! Atomics (O16): the one body that they share, from its checks to the entry that it leaves in the journal. -/

namespace Sys2Proof.Machine

/-- A step of a meaning that goes on. -/
theorem M.bind_ok {α β : Type} {m : M α} {f : α → M β} {s s1 : State} {a : α} (h : m s = .ok (a, s1)) : (m >>= f) s = f a s1 := by
  rw [M.bind_eq, h]

/-- A step of a meaning that stops it. -/
theorem M.bind_stop {α β : Type} {m : M α} {f : α → M β} {s : State} {e : Stop} (h : m s = .error e) : (m >>= f) s = .error e := by
  rw [M.bind_eq, h]

/-! ### A command issued with its result (R360, R361) -/

/-- The entry that a guarded command makes as it takes the next number (R360). -/
def newEntry (i : Instr) (va vb : Word) (r : Word × Label) (k : Core) : JEntry :=
  { seq := k.head, guarded := true, done := false, perf := false, word := encode i, opa := va, opb := vb, res := r.1, reslbl := r.2,
    thr := k.csr.hthresh }

/-- A core whose command takes the next number. -/
def takeSeq (i : Instr) (va vb : Word) (r : Word × Label) (k : Core) : Core :=
  { k with journal := (newEntry i va vb r k :: k.journal).take 4096, head := seqAdd k.head 1 }

/-- A core after an atomic: its command has passed its commit point with the old value, which is pending in x[d]. -/
def amoIssued (i : Instr) (va vb : Word) (r : Word × Label) (d : BitVec 6) (old : Word) (lbl : Label) (k : Core) : Core :=
  { jPerf k.head old lbl (takeSeq i va vb r k) with
    pend := k.pend ++ [{ reg := d, src := .amo, val := some old, lbl := lbl, seq := some k.head }] }

/-- With room in the journal the command goes on (R360). -/
theorem jRoom_ok {c : CoreId} {s : State} (h : (s.core c).span < 4096) : jRoom c s = .ok ((), s) :=
  (M.bind_ok (getCore_eq c s)).trans ((waitUnless_eq _ s).trans (if_pos (decide_eq_true h)))

theorem jNew_ok {c : CoreId} {s : State} (i : Instr) (va vb : Word) (r : Word × Label) (h : (s.core c).span < 4096) :
    jNew c true i va vb r.1 r.2 s = .ok ((s.core c).head, s.updCore c (takeSeq i va vb r)) :=
  (M.bind_ok (jRoom_ok h)).trans rfl

section
variable (i : Instr) (va vb : Word) (r : Word × Label) (d : BitVec 6) (old : Word) (lbl : Label)

/-- Its entry is the journal's newest. -/
theorem amoIssued_entry (k : Core) : (amoIssued i va vb r d old lbl k).journal.head?.map (fun e => (e.seq, e.guarded, e.perf, e.done, e.res)) =
    some (k.head, true, true, false, old) := by
  simp [amoIssued, jPerf, jUpd, takeSeq, newEntry]

/-- A change of a core counts by what it makes of that core. -/
theorem updCore_congr {c : CoreId} {s : State} {f g : Core → Core} (h : f (s.core c) = g (s.core c)) : s.updCore c f = s.updCore c g := by
  rw [State.updCore, State.updCore, h]

/-- What follows an atomic's access. -/
theorem amoEnd_eq {c : CoreId} {ms : List GuardMark} {s2 : State} (hspan : ((staleMark ms s2).2.core c).span < 4096) :
    (do lift (staleMark ms)
        let seq ← jNew c true i va vb r.1 r.2
        modCore c (jPerf seq old lbl)
        addPend c { reg := d, src := .amo, val := some old, lbl := lbl, seq := some seq } : M Unit) s2 =
      .ok ((), (staleMark ms s2).2.updCore c (amoIssued i va vb r d old lbl)) := by
  refine (M.bind_ok (a := ()) (s1 := (staleMark ms s2).2) rfl).trans ((M.bind_ok (jNew_ok i va vb r hspan)).trans
    ((M.bind_ok (modCore_eq _ _ _)).trans ?_))
  refine (modCore_eq _ _ _).trans (congrArg (fun t => Except.ok ((), t)) ?_)
  rw [State.updCore_updCore, State.updCore_updCore]
  exact updCore_congr rfl

/-- The core at the end, and the rest of the state. -/
theorem amoIssued_ends (c : CoreId) (s : State) : let u := finishC c {} (s.updCore c (amoIssued i va vb r d old lbl))
    OnlyCore c s u ∧ FallsThrough (s.core c) (u.core c) ∧ KeepsX (s.core c) (u.core c) ∧
      (u.core c).pend = (s.core c).pend ++ [{ reg := d, src := .amo, val := some old, lbl := lbl, seq := some (s.core c).head }] ∧
      (u.core c).head = seqAdd (s.core c).head 1 ∧
      (u.core c).journal.head?.map (fun e => (e.seq, e.guarded, e.perf, e.done, e.res)) = some ((s.core c).head, true, true, false, old) := by
  refine ⟨updCore_finishC_only c _ s, finishC_updCore_falls c _ s rfl rfl, finishC_updCore_keepsX c _ s rfl rfl, ?_, ?_, ?_⟩
  all_goals rw [finishC_core, State.core_updCore_self]
  · rfl
  · rfl
  · exact amoIssued_entry i va vb r d old lbl (s.core c)

end

/-! ### The body of every atomic (R262, R330) -/

/-- What an atomic's access needs of the watchpoints (R105). -/
abbrev amoKind : WpKind := { rd := true, wr := true, ex := false }

/-- An atomic from its access on, once its registers, its alignment and its guards let it go (R262, R330, R361). -/
def amoBody (i : Instr) (op n : Nat) (f : AmoFun) (d : BitVec 6) (sc : BitVec 3) (c : CoreId) (va : Word) (vb : Word × Label) (k : Core)
    (marks : List GuardMark) : M Unit := do
  let (w, ps) ← openAccess c .C va.toNat n .atomic amoKind false
  let remote := ps.find? (fun p => paRemote p.pa)
  need (remote.isNone || (decide (sc.toNat = 4) && amoRemoteOk op)) cILLEGAL va
  jRoom c
  let (old, lbl) ← match remote with
    | some p => amoRemote c op p vb (k.xval d, k.xlbl d)
    | none => amoHere c { w with cache := none } f ps n vb (k.xval d)
  lift (staleMark marks)
  let seq ← jNew c true i va vb.1 (k.xval d) (k.xlbl d)
  modCore c (jPerf seq old lbl)
  addPend c { reg := d, src := .amo, val := some old, lbl := lbl, seq := some seq }

/-- The meaning that every atomic runs. -/
def amoMeaning (i : Instr) (op n : Nat) (f : AmoFun) (d a b : BitVec 6) (sc : BitVec 3) (c : CoreId) : M Unit := do
  needFree c d
  let va ← readX c a
  let vb ← readXL c b
  let k ← getCore c
  need (decide (va.toNat % n = 0)) cILLEGAL va
  need (!(decide (op = 8) && k.id.det)) cILLEGAL (wordOf i)
  let marks ← guardCheck c .C i [(va.toNat, n)]
  amoBody i op n f d sc c va vb k marks

theorem amoRun_eq (i : Instr) (op n : Nat) (f : AmoFun) (d a b : BitVec 6) (sc : BitVec 3) :
    amoRun i op n f d a b sc = runPlain (amoMeaning i op n f d a b sc) := rfl

section
variable {s : State} {c : CoreId} {i : Instr} {op n : Nat} {f : AmoFun} {d a b : BitVec 6} {sc : BitVec 3}
  (hp : NonePending (s.core c) [d, a, b])
include hp

/-- With no register pending the alignment is looked at first. -/
theorem amoMeaning_eq : amoMeaning i op n f d a b sc c s = (do
    need (decide (((s.core c).xval a).toNat % n = 0)) cILLEGAL ((s.core c).xval a)
    need (!(decide (op = 8) && (s.core c).id.det)) cILLEGAL (wordOf i)
    let marks ← guardCheck c .C i [(((s.core c).xval a).toNat, n)]
    amoBody i op n f d sc c ((s.core c).xval a) ((s.core c).xval b, (s.core c).xlbl b) (s.core c) marks : M Unit) s := by
  have free : ∀ r ∈ [d, a, b], ¬ (s.core c).pending r = true := fun r hr => by rw [hp r hr]; decide
  have hd : needFree c d s = .ok ((), s) := (needFree_eq c d s).trans (if_neg (free d (by simp)))
  have ha : readX c a s = .ok ((s.core c).xval a, s) := (readX_eq c a s).trans (if_neg (free a (by simp)))
  have hb : readXL c b s = .ok (((s.core c).xval b, (s.core c).xlbl b), s) := (readXL_eq c b s).trans (if_neg (free b (by simp)))
  exact (M.bind_ok hd).trans ((M.bind_ok ha).trans ((M.bind_ok hb).trans (M.bind_ok (getCore_eq c s))))

theorem amoMeaning_misaligned (h : ((s.core c).xval a).toNat % n ≠ 0) :
    amoMeaning i op n f d a b sc c s = .error (.trap cILLEGAL 0 ((s.core c).xval a) s) :=
  (amoMeaning_eq hp).trans (M.bind_stop ((need_eq _ _ _ _).trans (if_neg (by rw [decide_eq_false h]; decide))))

variable (hal : ((s.core c).xval a).toNat % n = 0)
include hal

theorem amoMeaning_aligned : amoMeaning i op n f d a b sc c s = (do
    need (!(decide (op = 8) && (s.core c).id.det)) cILLEGAL (wordOf i)
    let marks ← guardCheck c .C i [(((s.core c).xval a).toNat, n)]
    amoBody i op n f d sc c ((s.core c).xval a) ((s.core c).xval b, (s.core c).xlbl b) (s.core c) marks : M Unit) s :=
  (amoMeaning_eq hp).trans (M.bind_ok ((need_eq _ _ _ _).trans (if_pos (decide_eq_true hal))))

theorem amoMeaning_undetermined (h : (decide (op = 8) && (s.core c).id.det) = true) :
    amoMeaning i op n f d a b sc c s = .error (.trap cILLEGAL 0 (wordOf i) s) :=
  (amoMeaning_aligned hp hal).trans (M.bind_stop ((need_eq _ _ _ _).trans (if_neg (by rw [h]; decide))))

variable (hdet : (decide (op = 8) && (s.core c).id.det) = false)
include hdet

theorem amoMeaning_legal : amoMeaning i op n f d a b sc c s = (do
    let marks ← guardCheck c .C i [(((s.core c).xval a).toNat, n)]
    amoBody i op n f d sc c ((s.core c).xval a) ((s.core c).xval b, (s.core c).xlbl b) (s.core c) marks : M Unit) s :=
  (amoMeaning_aligned hp hal).trans (M.bind_ok ((need_eq _ _ _ _).trans (if_pos (by rw [hdet]; rfl))))

theorem amoMeaning_guarded (h : ∃ m ∈ guardedBy s c [(((s.core c).xval a).toNat, n)], m.stok = false) :
    amoMeaning i op n f d a b sc c s = .error (.wait (s.updCore c (fun k =>
      { k with gwait := { st := .C, instr := i } :: k.gwait.filter (fun g => g.st != .C) }))) :=
  (amoMeaning_legal hp hal hdet).trans (M.bind_stop (guardCheck_waits h))

theorem amoMeaning_unguarded (hg : ∀ m ∈ guardedBy s c [(((s.core c).xval a).toNat, n)], m.stok = true) :
    amoMeaning i op n f d a b sc c s = amoBody i op n f d sc c ((s.core c).xval a) ((s.core c).xval b, (s.core c).xlbl b) (s.core c)
      (guardedBy s c [(((s.core c).xval a).toNat, n)]) s :=
  (amoMeaning_legal hp hal hdet).trans (M.bind_ok (guardCheck_passes hg))

end

section
variable {s s1 s2 : State} {c : CoreId} {i : Instr} {op n : Nat} {f : AmoFun} {d : BitVec 6} {sc : BitVec 3} {va : Word} {vb : Word × Label}
  {k : Core} {marks : List GuardMark} {w : Who} {ps : List Piece} {old : Word} {l : Label}

theorem amoBody_trap {e : Stop} (h : openAccess c .C va.toNat n .atomic amoKind false s = .error e) :
    amoBody i op n f d sc c va vb k marks s = .error e := M.bind_stop h

variable (ho : openAccess c .C va.toNat n .atomic amoKind false s = .ok ((w, ps), s1))
include ho

theorem amoBody_refused {p : Piece} (hfar : ps.find? (fun p => paRemote p.pa) = some p)
    (h : (decide (sc.toNat = 4) && amoRemoteOk op) = false) :
    amoBody i op n f d sc c va vb k marks s = .error (.trap cILLEGAL 0 va s1) := by
  refine (M.bind_ok ho).trans (M.bind_stop ((need_eq _ _ _ _).trans (if_neg ?_)))
  rw [hfar, h]
  exact Bool.false_ne_true

variable (hroom : (s1.core c).span < 4096) (hroom3 : ((staleMark marks s2).2.core c).span < 4096)
include hroom hroom3

/-- An atomic in local or host memory. -/
theorem amoBody_near (hnear : ps.find? (fun p => paRemote p.pa) = none)
    (h : amoHere c { w with cache := none } f ps n vb (k.xval d) s1 = .ok ((old, l), s2)) :
    amoBody i op n f d sc c va vb k marks s =
      .ok ((), (staleMark marks s2).2.updCore c (amoIssued i va vb.1 (k.xval d, k.xlbl d) d old l)) := by
  refine (M.bind_ok ho).trans ((M.bind_ok ((need_eq _ _ _ _).trans (if_pos ?_))).trans ((M.bind_ok (jRoom_ok hroom)).trans ?_))
  · rw [hnear]
    rfl
  · simp only [hnear]
    exact (M.bind_ok h).trans (amoEnd_eq i va vb.1 (k.xval d, k.xlbl d) d old l hroom3)

/-- An atomic at a remote slice. -/
theorem amoBody_far {p : Piece} (hfar : ps.find? (fun p => paRemote p.pa) = some p) (hok : (decide (sc.toNat = 4) && amoRemoteOk op) = true)
    (h : amoRemote c op p vb (k.xval d, k.xlbl d) s1 = .ok ((old, l), s2)) :
    amoBody i op n f d sc c va vb k marks s =
      .ok ((), (staleMark marks s2).2.updCore c (amoIssued i va vb.1 (k.xval d, k.xlbl d) d old l)) := by
  refine (M.bind_ok ho).trans ((M.bind_ok ((need_eq _ _ _ _).trans (if_pos ?_))).trans ((M.bind_ok (jRoom_ok hroom)).trans ?_))
  · rw [hok, Bool.or_true]
  · simp only [hfar]
    exact (M.bind_ok h).trans (amoEnd_eq i va vb.1 (k.xval d, k.xlbl d) d old l hroom3)

end

end Sys2Proof.Machine
end

section
/-! The nine atomics and the statement about them (O16). -/

namespace Sys2Proof.Machine

/-! ### The nine operations (R262, R330) -/

/-- An atomic: its instruction, its bytes, whether UALink has it, and what it writes. -/
def amoRows (d a b : BitVec 6) (r : BitVec 2) (sc : BitVec 3) : List (Instr × Nat × Bool × AmoFun) :=
  [(Instr.amoAdd d a b r sc, 8, true, fun x y _ => some (x + y)), (.amoAnd d a b r sc, 8, false, fun x y _ => some (x &&& y)),
   (.amoOr d a b r sc, 8, false, fun x y _ => some (x ||| y)), (.amoXor d a b r sc, 8, false, fun x y _ => some (x ^^^ y)),
   (.amoMin d a b r sc, 8, false, fun x y _ => some (if y.toInt < x.toInt then y else x)),
   (.amoMax d a b r sc, 8, false, fun x y _ => some (if x.toInt < y.toInt then y else x)),
   (.amoSwap d a b r sc, 8, true, fun _ y _ => some y), (.amoCas d a b r sc, 8, true, fun x y z => if x = z then some y else none),
   (.amoFadd d a b sc r, 4, false, fun x y _ => some ((fadd (x.setWidth 32) (y.setWidth 32)).setWidth 64))]

/-- A row of the table as the model runs it. -/
def RunsAs (d a b : BitVec 6) (sc : BitVec 3) (p : Instr × Nat × Bool × AmoFun) : Prop :=
  ∃ op, (∀ s, exec p.1 s = amoRun p.1 op p.2.1 p.2.2.2 d a b sc s) ∧ amoRemoteOk op = p.2.2.1 ∧ (op = 8 → p.2.1 = 4)

theorem amoMin_fun : amoPlain (fun x y => if slt64 y x then y else x) = fun x y _ => some (if y.toInt < x.toInt then y else x) := by
  funext x y _
  simp [amoPlain, slt64, BitVec.slt]

theorem amoMax_fun : amoPlain (fun x y => if slt64 x y then y else x) = fun x y _ => some (if x.toInt < y.toInt then y else x) := by
  funext x y _
  simp [amoPlain, slt64, BitVec.slt]

theorem amoRows_run (d a b : BitVec 6) (r : BitVec 2) (sc : BitVec 3) : ∀ p ∈ amoRows d a b r sc, RunsAs d a b sc p := by
  have other : ∀ {m n : Nat}, m ≠ 8 → m = 8 → n = 4 := fun h e => absurd e h
  refine List.forall_mem_cons.2 ⟨⟨0, fun _ => rfl, rfl, other (by decide)⟩, List.forall_mem_cons.2 ⟨⟨1, fun _ => rfl, rfl, other (by decide)⟩,
    List.forall_mem_cons.2 ⟨⟨2, fun _ => rfl, rfl, other (by decide)⟩, List.forall_mem_cons.2 ⟨⟨3, fun _ => rfl, rfl, other (by decide)⟩,
    List.forall_mem_cons.2 ⟨⟨4, fun s => ?_, rfl, other (by decide)⟩, List.forall_mem_cons.2 ⟨⟨5, fun s => ?_, rfl, other (by decide)⟩,
    List.forall_mem_cons.2 ⟨⟨6, fun _ => rfl, rfl, other (by decide)⟩, List.forall_mem_cons.2 ⟨⟨7, fun _ => rfl, rfl, other (by decide)⟩,
    List.forall_mem_cons.2 ⟨⟨8, fun _ => rfl, rfl, fun _ => rfl⟩, fun _ h => nomatch h⟩⟩⟩⟩⟩⟩⟩⟩⟩
  · show execAmoMin d a b r sc s = _
    rw [← amoMin_fun]
    rfl
  · show execAmoMax d a b r sc s = _
    rw [← amoMax_fun]
    rfl

/-- All but the last are of eight bytes. -/
theorem amoRows_eight {d a b : BitVec 6} {r : BitVec 2} {sc : BitVec 3} : ∀ p ∈ (amoRows d a b r sc).take 8, p.2.1 = 8 := by
  simp [amoRows]

/-- The eight of eight bytes, with what each writes. -/
theorem amoResults (d a b : BitVec 6) (r : BitVec 2) (sc : BitVec 3) (old y z : Word) :
    ∀ p ∈ [(Instr.amoAdd d a b r sc, some (old + y)), (.amoAnd d a b r sc, some (old &&& y)), (.amoOr d a b r sc, some (old ||| y)),
           (.amoXor d a b r sc, some (old ^^^ y)), (.amoMin d a b r sc, some (if y.toInt < old.toInt then y else old)),
           (.amoMax d a b r sc, some (if old.toInt < y.toInt then y else old)), (.amoSwap d a b r sc, some y),
           (.amoCas d a b r sc, if old = z then some y else none)],
      ∃ op f, (∀ s, exec p.1 s = amoRun p.1 op 8 f d a b sc s) ∧ op ≠ 8 ∧ f old y z = p.2 := by
  intro p hp
  have hrow : p ∈ ((amoRows d a b r sc).take 8).map (fun q => (q.1, q.2.2.2 old y z)) := hp
  obtain ⟨q, hq, rfl⟩ := List.mem_map.1 hrow
  obtain ⟨op, hexec, -, hop⟩ := amoRows_run d a b r sc q (List.mem_of_mem_take hq)
  rw [amoRows_eight q hq] at hexec hop
  exact ⟨op, q.2.2.2, hexec, fun e => absurd (hop e) (by decide), rfl⟩

/-! ### A plain atomic (R262, R361) -/

section
variable {s : State} {c : CoreId} {d a b : BitVec 6} {sc : BitVec 3} {i : Instr} {op n : Nat} {f : AmoFun} {t : Tlb}

/-- The access of a plain atomic: the old bytes read, and the new ones stored where there are any. -/
theorem amoHere_plain (hc : CanonicalMemory s) {va : Nat} (h : PlainAccess s c .C va n amoKind t) (w : Who) (vb : Word × Label) (z : Word) :
    ∃ u, amoHere c w f [plainPiece va n t] n vb z s = .ok ((wd (leNat (readBytes s (physOf t va) n)), (plainGot s t va n).lbl), u) ∧ StoreOnly s u ∧
      (∀ v, f (wd (leNat (readBytes s (physOf t va) n))) vb.1 z = some v → Stored s u (physOf t va) (natBytes n v.toNat)) ∧
      (f (wd (leNat (readBytes s (physOf t va) n))) vb.1 z = none → u = s) := by
  unfold amoHere
  simp only [M.bind_eq, lift_eq, h.readPieces, poisoned, Bool.false_eq_true, if_false, M.pure_eq]
  cases f (wd (leNat (readBytes s (physOf t va) n))) vb.1 z with
  | none => exact ⟨s, rfl, StoreOnly.refl s, fun v e => (Option.some_ne_none v e.symm).elim, fun _ => rfl⟩
  | some v =>
    obtain ⟨u, hw, honly, hst⟩ := h.writePieces hc w (natBytes_length n v.toNat) vb.2
    refine ⟨u, ?_, honly, fun v' e => ?_, fun e => (Option.some_ne_none v e).elim⟩
    · simp only [M.bind_eq, lift_eq, hw, reportDrop, wrote, M.modify_eq, M.pure_eq]
    · cases e
      exact hst

variable (hc : CanonicalMemory s) (hr : Ready s c .C) (hp : NonePending (s.core c) [d, a, b]) (hspan : (s.core c).span < 4096)
  (hal : ((s.core c).xval a).toNat % n = 0) (hdet : (decide (op = 8) && (s.core c).id.det) = false)
  (h : PlainAccess s c .C ((s.core c).xval a).toNat n amoKind t)
include hc hr hp hspan hal hdet h

/-- A plain atomic stores at its address and leaves its command and its pending result. -/
theorem amoRun_plain : let pa := physOf t ((s.core c).xval a).toNat
    let old := wd (leNat (readBytes s pa n))
    let new := f old ((s.core c).xval b) ((s.core c).xval d)
    ∃ u, amoRun i op n f d a b sc s = .next u ∧ OnlyStore c s u ∧ KeepsX (s.core c) (u.core c) ∧ FallsThrough (s.core c) (u.core c) ∧
      (∀ v, new = some v → Stored s u pa (natBytes n v.toNat)) ∧ (new = none → MemorySame s u) ∧
      (u.core c).pend = (s.core c).pend ++
        [{ reg := d, src := .amo, val := some old, lbl := liveId s.labels (s.sideAt (pa / 64)).lbl, seq := some (s.core c).head }] ∧
      (u.core c).head = seqAdd (s.core c).head 1 ∧ (u.core c).journal.head?.map (fun e => (e.seq, e.guarded, e.perf, e.done, e.res)) =
        some ((s.core c).head, true, true, false, old) := by
  obtain ⟨u, hu, honly, hst, hsame⟩ := amoHere_plain (f := f) hc h { strandWho s c with cache := none } ((s.core c).xval b, (s.core c).xlbl b)
    ((s.core c).xval d)
  have hnear : [plainPiece ((s.core c).xval a).toNat n t].find? (fun p => paRemote p.pa) = none := by
    have hpa := paLocal_iff.1 h.paLocal
    have hrem : paRemote (plainPiece ((s.core c).xval a).toNat n t).pa = false := by
      rw [show (plainPiece ((s.core c).xval a).toNat n t).pa = physOf t ((s.core c).xval a).toNat from rfl]
      simp only [paRemote, Bool.and_eq_false_iff, decide_eq_false_iff_not]
      omega
    rw [List.find?_cons, hrem]
    rfl
  have hend := amoBody_near (i := i) (op := op) (d := d) (sc := sc) (vb := ((s.core c).xval b, (s.core c).xlbl b)) (k := s.core c) (marks := [])
    (h.openAccess (acc := .atomic) rfl false) hspan (s2 := u) (by
      show (u.core c).span < 4096
      rw [honly.core]
      exact hspan) hnear hu
  have hmean := amoMeaning_unguarded (i := i) (op := op) (f := f) (sc := sc) hp hal hdet (by rw [h.noGuard]; simp)
  rw [h.noGuard] at hmean
  replace hmean := hmean.trans hend
  have hends := amoIssued_ends i ((s.core c).xval a) ((s.core c).xval b) ((s.core c).xval d, (s.core c).xlbl d) d
    (wd (leNat (readBytes s (physOf t ((s.core c).xval a).toNat) n))) (plainGot s t ((s.core c).xval a).toNat n).lbl c u
  obtain ⟨hcore, hfalls, hx, hpend, hhead, hent⟩ := hends
  rw [honly.core] at hfalls hx hpend hhead hent
  refine ⟨_, (congrFun (amoRun_eq i op n f d a b sc) s).trans (runPlain_ok hr hmean), honly.onlyStore hcore, hx, hfalls,
    fun v hv => stored_cores rfl (hst v hv), fun hnone => ?_, hpend, hhead, hent⟩
  have hus := hsame hnone
  subst hus
  exact memorySame_cores rfl

end

/-- A remote atomic always comes to its end. -/
theorem amoRemote_ok (c : CoreId) (op : Nat) (p : Piece) (vb vd : Word × Label) (s : State) :
    ∃ old l s2, amoRemote c op p vb vd s = .ok ((old, l), s2) := by
  unfold amoRemote
  simp only [M.bind_eq, M.modify_eq, lift_eq, M.get_eq, M.ite_eq]
  by_cases hop : op = 7
  all_goals
    simp only [hop, if_true, if_false]
    split <;> exact ⟨_, _, _, rfl⟩

/-! ### Any atomic (R94, R96, R106, R130, R301, R330) -/

section
variable {s : State} {c : CoreId} {d a b : BitVec 6} {sc : BitVec 3} {i : Instr} {op n : Nat} {f : AmoFun}
  (hr : Ready s c .C) (hp : NonePending (s.core c) [d, a, b])
include hr hp

theorem amoRun_misaligned (h : ((s.core c).xval a).toNat % n ≠ 0) :
    amoRun i op n f d a b sc s = .next (trapC c cILLEGAL 0 ((s.core c).xval a) s) := runPlain_trap hr (amoMeaning_misaligned hp h)

variable (hal : ((s.core c).xval a).toNat % n = 0)
include hal

theorem amoRun_undetermined (h : (decide (op = 8) && (s.core c).id.det) = true) :
    amoRun i op n f d a b sc s = .next (trapC c cILLEGAL 0 (wordOf i) s) := runPlain_trap hr (amoMeaning_undetermined hp hal h)

variable (hdet : (decide (op = 8) && (s.core c).id.det) = false) (hi : exec i s = amoRun i op n f d a b sc s)
include hdet hi

theorem amoRun_guarded : WaitsOnGuard c i ((s.core c).xval a).toNat n s := fun h =>
  hi.trans (runPlain_wait hr (amoMeaning_guarded hp hal hdet h))

variable (hg : ∀ m ∈ guardedBy s c [(((s.core c).xval a).toNat, n)], m.stok = true)
include hg

theorem amoRun_faults : FaultsOn c i ((s.core c).xval a).toNat n .atomic amoKind s :=
  faultsOn_of fun _ _ _ _ h => hi.trans (runPlain_trap hr ((amoMeaning_unguarded hp hal hdet hg).trans (amoBody_trap h)))

variable {pages : List Page} {s1 : State} (ht : translate (strandWho s c) ((s.core c).xval a).toNat n .atomic s = (.ok pages, s1))
  (hw : wpHit (s1.core c) .C (s1.core c).seq.pc ((s.core c).xval a).toNat n amoKind = none)
include ht hw

/-- A remote address that the scope or the operation rules out (R330). -/
theorem amoRun_refused (hfar : ¬ ∀ q ∈ pieces pages ((s.core c).xval a).toNat n, paRemote q.pa = false)
    (h : sc ≠ 4 ∨ amoRemoteOk op = false) : exec i s = .next (trapC c cILLEGAL 0 (wd ((s.core c).xval a).toNat) s1) := by
  have hrefuse : (decide (sc.toNat = 4) && amoRemoteOk op) = false := by
    rcases h with hsc | hop
    · rw [decide_eq_false (fun e : sc.toNat = 4 => hsc (BitVec.eq_of_toNat_eq e)), Bool.false_and]
    · rw [hop, Bool.and_false]
  have hword : wd ((s.core c).xval a).toNat = (s.core c).xval a := by simp [wd]
  rw [hword]
  cases hfind : (pieces pages ((s.core c).xval a).toNat n).find? (fun p => paRemote p.pa) with
  | none => exact absurd (fun q hq => by simpa using List.find?_eq_none.1 hfind q hq) hfar
  | some p =>
    exact hi.trans (runPlain_trap hr ((amoMeaning_unguarded hp hal hdet hg).trans (amoBody_refused (openAccess_unraced ht hw) hfind hrefuse)))

variable (hroom : (s1.core c).span < 4096)
include hroom

/-- An atomic whose address is not remote does what its access does. -/
theorem amoRun_near (hnear : ∀ q ∈ pieces pages ((s.core c).xval a).toNat n, paRemote q.pa = false) {old : Word} {l : Label} {s2 : State}
    (h : amoHere c { strandWho s c with cache := none } f (pieces pages ((s.core c).xval a).toNat n) n
      ((s.core c).xval b, (s.core c).xlbl b) ((s.core c).xval d) s1 = .ok ((old, l), s2)) :
    let s3 := (staleMark (guardedBy s c [(((s.core c).xval a).toNat, n)]) s2).2
    ∃ u, exec i s = .next u ∧ OnlyCore c s3 u ∧ FallsThrough (s3.core c) (u.core c) ∧ KeepsX (s3.core c) (u.core c) ∧
      (u.core c).pend = (s3.core c).pend ++ [{ reg := d, src := .amo, val := some old, lbl := l, seq := some (s3.core c).head }] := by
  have stand := coresStand_amoHere (s0 := s1) c { strandWho s c with cache := none } f (pieces pages ((s.core c).xval a).toNat n) n
    ((s.core c).xval b, (s.core c).xlbl b) ((s.core c).xval d) s1 (CoresStand.refl s1)
  rw [h] at stand
  have stand3 := coresStand_staleMark (guardedBy s c [(((s.core c).xval a).toNat, n)]) s2 stand
  have hfind : (pieces pages ((s.core c).xval a).toNat n).find? (fun p => paRemote p.pa) = none :=
    List.find?_eq_none.2 fun q hq => by rw [hnear q hq]; decide
  have hmean := (amoMeaning_unguarded (i := i) (f := f) (sc := sc) hp hal hdet hg).trans
    (amoBody_near (openAccess_unraced ht hw) hroom (by rw [stand3.span]; exact hroom) hfind h)
  obtain ⟨hcore, hfalls, hx, hpend, -, -⟩ := amoIssued_ends i ((s.core c).xval a) ((s.core c).xval b)
    ((s.core c).xval d, (s.core c).xlbl d) d old l c (staleMark (guardedBy s c [(((s.core c).xval a).toNat, n)]) s2).2
  exact ⟨_, hi.trans (runPlain_ok hr hmean), hcore, hfalls, hx, hpend⟩

/-- A remote atomic that scope and operation allow: its result comes from outside (R330). -/
theorem amoRun_far (hfar : ¬ ∀ q ∈ pieces pages ((s.core c).xval a).toNat n, paRemote q.pa = false) (hsc : sc = 4)
    (hop : amoRemoteOk op = true) : ∃ u q, exec i s = .next u ∧ (u.core c).seq.pc = (s.core c).seq.n1 ∧ KeepsX (s.core c) (u.core c) ∧
      (u.core c).pend = (s1.core c).pend ++ [q] ∧ q.reg = d ∧ q.src = .amo ∧ q.val.isSome = true ∧ q.seq = some (s1.core c).head := by
  have stand1 : CoresStand s s1 := by
    have := keeps_translate coresStand_closed (strandWho s c) ((s.core c).xval a).toNat n .atomic s (CoresStand.refl s)
    rwa [ht] at this
  cases hfind : (pieces pages ((s.core c).xval a).toNat n).find? (fun p => paRemote p.pa) with
  | none => exact absurd (fun q hq => by simpa using List.find?_eq_none.1 hfind q hq) hfar
  | some p =>
    obtain ⟨old, l, s2, hrem⟩ := amoRemote_ok c op p ((s.core c).xval b, (s.core c).xlbl b) ((s.core c).xval d, (s.core c).xlbl d) s1
    have stand2 := coresStand_amoRemote (s0 := s1) c op p ((s.core c).xval b, (s.core c).xlbl b) ((s.core c).xval d, (s.core c).xlbl d) s1
      (CoresStand.refl s1)
    rw [hrem] at stand2
    have stand3 := coresStand_staleMark (guardedBy s c [(((s.core c).xval a).toNat, n)]) s2 stand2
    have hmean := (amoMeaning_unguarded (i := i) (f := f) (sc := sc) hp hal hdet hg).trans
      (amoBody_far (openAccess_unraced ht hw) hroom (by rw [stand3.span]; exact hroom) hfind (by rw [hsc, hop]; rfl) hrem)
    obtain ⟨-, ⟨hseq, -⟩, hx, hpend, -, -⟩ := amoIssued_ends i ((s.core c).xval a) ((s.core c).xval b)
      ((s.core c).xval d, (s.core c).xlbl d) d old l c (staleMark (guardedBy s c [(((s.core c).xval a).toNat, n)]) s2).2
    have all := stand1.trans stand3
    refine ⟨_, _, hi.trans (runPlain_ok hr hmean), ?_, fun r => ?_, hpend.trans (by rw [stand3.pend]), rfl, rfl, rfl, by rw [stand3.head]⟩
    · rw [hseq, all.seq]
    · obtain ⟨hv, hl⟩ := hx r
      obtain ⟨hv', hl'⟩ := all.keepsX c r
      exact ⟨hv.trans hv', hl.trans hl'⟩

end

/-! ### FP32 addition on four bytes (R262) -/

theorem leNat_lt (bs : List Byte) : leNat bs < 256 ^ bs.length := by
  induction bs with
  | nil => exact Nat.one_pos
  | cons b bs ih =>
    have hb : b.toNat < 256 := b.isLt
    rw [leNat, List.length_cons, Nat.pow_succ]
    omega

theorem setWidth_wd (x : Nat) : (wd x).setWidth 32 = BitVec.ofNat 32 x := by
  apply BitVec.eq_of_toNat_eq
  simp [wd]

/-- Four bytes as a word are their container, extended by zeros. -/
theorem wd_leNat_four {bs : List Byte} (h : bs.length = 4) : wd (leNat bs) = (BitVec.ofNat 32 (leNat bs)).setWidth 64 := by
  have hlt := leNat_lt bs
  rw [h] at hlt
  apply BitVec.eq_of_toNat_eq
  simp only [wd, BitVec.toNat_ofNat, BitVec.toNat_setWidth]
  omega

theorem readBytes_length (s : State) (pa n : Nat) : (readBytes s pa n).length = n := by simp [readBytes]

theorem toNat_setWidth_64 (x : Word32) : (x.setWidth 64).toNat = x.toNat := by
  rw [BitVec.toNat_setWidth]
  exact Nat.mod_eq_of_lt (x.isLt.trans (by decide))

theorem exec_amoFadd (d a b : BitVec 6) (r : BitVec 2) (sc : BitVec 3) (s : State) :
    exec (.amoFadd d a b sc r) s = amoRun (.amoFadd d a b sc r) 8 4 amoFaddFun d a b sc s := rfl

section
variable {s : State} {c : CoreId} {d a b : BitVec 6} {r : BitVec 2} {sc : BitVec 3} (hc : CanonicalMemory s) (hr : Ready s c .C)
  (hp : NonePending (s.core c) [d, a, b]) (hspan : (s.core c).span < 4096) (hal : ((s.core c).xval a).toNat % 4 = 0)
include hr hp hal

theorem amoFadd_undetermined (hdet : (s.core c).id.det = true) : TrapsIllegal c (.amoFadd d a b sc r) s := by
  have hill : (decide (8 = 8) && (s.core c).id.det) = true := by simp [hdet]
  unfold TrapsIllegal
  rw [exec_amoFadd]
  exact amoRun_undetermined hr hp hal hill

include hc hspan in
theorem amoFadd_plain (hdet : (s.core c).id.det = false) {t : Tlb} (h : PlainAccess s c .C ((s.core c).xval a).toNat 4 amoKind t) :
    let old : Word32 := BitVec.ofNat 32 (leNat (readBytes s (physOf t ((s.core c).xval a).toNat) 4))
    ∃ u, exec (.amoFadd d a b sc r) s = .next u ∧ OnlyStore c s u ∧ KeepsX (s.core c) (u.core c) ∧ FallsThrough (s.core c) (u.core c) ∧
      Stored s u (physOf t ((s.core c).xval a).toNat) (natBytes 4 (fadd old (((s.core c).xval b).setWidth 32)).toNat) ∧
      (u.core c).pend.map (fun p => (p.reg, p.val)) = (s.core c).pend.map (fun p => (p.reg, p.val)) ++ [(d, some (old.setWidth 64))] := by
  have hlegal : (decide (8 = 8) && (s.core c).id.det) = false := by simp [hdet]
  obtain ⟨u, hu, honly, hx, hfalls, hst, -, hpend, -, -⟩ := amoRun_plain (i := .amoFadd d a b sc r) (op := 8) (f := amoFaddFun) (sc := sc)
    hc hr hp hspan hal hlegal h
  rw [exec_amoFadd]
  refine ⟨u, hu, honly, hx, hfalls, ?_, ?_⟩
  · have hstored := hst _ rfl
    rw [setWidth_wd, toNat_setWidth_64] at hstored
    exact hstored
  · rw [hpend, List.map_append, wd_leNat_four (readBytes_length s _ 4)]
    rfl

end

/-! ### The statement (O16) -/

/-- Settles O16: the nine atomics are rows of one table, and one body runs each row. -/
theorem atomics : Obligations.Atomics := by
  unfold Obligations.Atomics
  refine ⟨?_, ?_, ?_, ?_⟩
  · intro s c d a b r sc t hc hr hp hspan va old y hal h p hmem
    obtain ⟨op, f, hexec, hop, hf⟩ := amoResults d a b r sc old y ((s.core c).xval d) p hmem
    have hdet : (decide (op = 8) && (s.core c).id.det) = false := by rw [decide_eq_false hop, Bool.false_and]
    obtain ⟨u, hu, hrest⟩ := amoRun_plain (i := p.1) (f := f) (sc := sc) hc hr hp hspan hal hdet h
    rw [← hf]
    exact ⟨u, (hexec s).trans hu, hrest⟩
  · intro s c d a b r sc hr hp hmis i hmem
    have hrow : i ∈ ((amoRows d a b r sc).take 8).map (fun q => q.1) := hmem
    obtain ⟨q, hq, rfl⟩ := List.mem_map.1 hrow
    obtain ⟨op, hexec, -, -⟩ := amoRows_run d a b r sc q (List.mem_of_mem_take hq)
    exact (hexec s).trans (amoRun_misaligned hr hp (by rw [amoRows_eight q hq]; exact hmis))
  · intro s c d a b r sc hc hr hp va hal
    exact ⟨amoFadd_undetermined hr hp hal, fun hdet hspan t h => amoFadd_plain hc hr hp hspan hal hdet h⟩
  · intro s c d a b r sc hr hp va y kd plain p hmem hal hdet4
    have hrow : p ∈ amoRows d a b r sc := hmem
    obtain ⟨op, hexec, hremote, hop⟩ := amoRows_run d a b r sc p hrow
    have hdet : (decide (op = 8) && (s.core c).id.det) = false := by
      by_cases h8 : op = 8
      · rw [hdet4 (hop h8), Bool.and_false]
      · rw [decide_eq_false h8, Bool.false_and]
    rw [← hremote]
    have hi := hexec s
    exact ⟨amoRun_guarded hr hp hal hdet hi, fun hg => ⟨amoRun_faults hr hp hal hdet hi hg, fun pages s1 ht hw =>
      ⟨fun hfar hno => amoRun_refused hr hp hal hdet hi hg ht hw hfar hno, fun hroom =>
        ⟨fun hnear old l s2 h => amoRun_near hr hp hal hdet hi hg ht hw hroom hnear h,
          fun hfar hsc hok => amoRun_far hr hp hal hdet hi hg ht hw hroom hfar hsc hok⟩⟩⟩⟩

end Sys2Proof.Machine
end

section
/-! Channels as parts of the state (O27, O28): what a change of one channel, its end and its failure leave. -/

namespace Sys2Proof.Machine

/-! ### One channel changed (R110) -/

theorem i3_ne {a b : BitVec 3} (h : a ≠ b) : i3 a ≠ i3 b := fun e => h (BitVec.eq_of_toNat_eq (congrArg Fin.val e))

section
variable (cl : ClusterId) (ch : BitVec 3) (f : Chan → Chan) (s : State)

@[simp] theorem chanAt_updChan_self : chanAt (updChan cl ch f s) cl ch = f (chanAt s cl ch) := by simp [chanAt, updChan]

theorem chanAt_updChan_ne {h : BitVec 3} (hne : h ≠ ch) : chanAt (updChan cl ch f s) cl h = chanAt s cl h := by
  simp [chanAt, updChan, i3_ne hne]

theorem cluster_updChan_ne {d : ClusterId} (hne : d ≠ cl) : (updChan cl ch f s).cluster d = s.cluster d :=
  State.cluster_updCluster_ne _ _ _ _ hne

/-- A change of a channel and one of a core meet nowhere. -/
theorem updChan_updCore (c : CoreId) (g : Core → Core) : updChan cl ch f (s.updCore c g) = (updChan cl ch f s).updCore c g := rfl

@[simp] theorem core_updChan (d : CoreId) : (updChan cl ch f s).core d = s.core d := rfl

end

theorem OnlyCores.chanAt {s t : State} (h : OnlyCores s t) (cl : ClusterId) (ch : BitVec 3) : Machine.chanAt t cl ch = Machine.chanAt s cl ch := by
  rw [h]
  rfl

theorem chanAt_finishC (c : CoreId) (r : Flow) (s : State) (cl : ClusterId) (ch : BitVec 3) : chanAt (finishC c r s) cl ch = chanAt s cl ch := rfl

theorem OnlyCores.mem {s t : State} (h : OnlyCores s t) : t.mem = s.mem := by rw [h]

/-! ### The end of a channel's commands (R119, R361) -/

/-- Of each core at most the journal and LOW differ, and nothing outside the cores. -/
def JournalsOnly (s t : State) : Prop := OnlyCores s t ∧ ∀ d, ∃ j n, t.core d = { s.core d with journal := j, low := n }

theorem journalsOnly_jDone (l : List (CoreId × Nat)) (s : State) : JournalsOnly s (l.foldl (fun s p => s.updCore p.1 (jDone p.2)) s) := by
  induction l generalizing s with
  | nil => exact ⟨rfl, fun d => ⟨_, _, rfl⟩⟩
  | cons p l ih =>
    obtain ⟨honly, hcore⟩ := ih (s.updCore p.1 (jDone p.2))
    refine ⟨honly.trans rfl, fun d => ?_⟩
    obtain ⟨j, n, hd⟩ := hcore d
    refine ⟨j, n, hd.trans ?_⟩
    by_cases e : d = p.1
    · rw [e, State.core_updCore_self]
      rfl
    · rw [State.core_updCore_ne _ _ _ _ e]

theorem JournalsOnly.goesOn {s t : State} {c : CoreId} (h : JournalsOnly s t) : KeepsX (s.core c) ((finishC c {} t).core c) ∧
    FallsThrough (s.core c) ((finishC c {} t).core c) := by
  obtain ⟨j, n, hc⟩ := h.2 c
  rw [finishC_core, hc]
  exact ⟨fun r => ⟨rfl, rfl⟩, rfl, rfl⟩

section
variable (cl : ClusterId) (ch : BitVec 3) (s : State)

/-- The end of a channel's commands completes their entries and empties its list of them. -/
theorem chanDone_eq : ∃ t, JournalsOnly s t ∧ chanDone cl ch s = updChan cl ch (fun k => { k with seqs := [] }) t :=
  ⟨_, journalsOnly_jDone _ s, rfl⟩

theorem chanAt_chanDone : chanAt (chanDone cl ch s) cl ch = { chanAt s cl ch with seqs := [] } := by
  obtain ⟨t, ⟨honly, -⟩, heq⟩ := chanDone_eq cl ch s
  rw [heq, chanAt_updChan_self, honly.chanAt]

theorem chanDone_mem : (chanDone cl ch s).mem = s.mem := by
  obtain ⟨t, ⟨honly, -⟩, heq⟩ := chanDone_eq cl ch s
  rw [heq]
  exact honly.mem

theorem chanAt_chanAborted : chanAt (chanAborted cl ch s) cl ch = { chanAt s cl ch with st := .idle, cause := 0x0F, copy := none, seqs := [] } := by
  rw [chanAborted, chanAt_chanDone, chanAt_updChan_self]

theorem chanAborted_mem : (chanAborted cl ch s).mem = s.mem := chanDone_mem _ _ _

/-- A channel that fails shows its new state and the cause (R119, R121). -/
theorem chanFail_shows (st : ChanSt) (cause : Byte) (va : Word) :
    (chanAt (chanFail cl ch st cause va s) cl ch).st = st ∧ (chanAt (chanFail cl ch st cause va s) cl ch).cause = cause := by
  have failed : ∀ t, OnlyCores (updChan cl ch (fun k => { k with st := st, cause := cause }) s) t →
      let u := if st = .error then chanDone cl ch t else t
      (chanAt u cl ch).st = st ∧ (chanAt u cl ch).cause = cause := by
    intro t ht
    have hchan := (ht.chanAt cl ch).trans (chanAt_updChan_self cl ch _ s)
    dsimp only
    split
    · rw [chanAt_chanDone, hchan]
      exact ⟨rfl, rfl⟩
    · rw [hchan]
      exact ⟨rfl, rfl⟩
  unfold chanFail
  dsimp only
  cases (chanAt s cl ch).issuer with
  | none => exact failed _ rfl
  | some c => exact failed _ (queueTrap_only c _ _).1

end

end Sys2Proof.Machine
end

section
/-! `chan.go`, `chan.stat`, `chan.abort` and `lrec.flush` (O27). -/

namespace Sys2Proof.Machine

/-! ### A command that takes the next number (R360) -/

/-- A core whose command, which no guard holds back at a replay, takes the next number. -/
def takeNumber (i : Instr) (va : Word) (r : Word × Label) (k : Core) : Core :=
  { k with journal := ({ newEntry i va 0 r k with guarded := false } :: k.journal).take 4096, head := seqAdd k.head 1 }

theorem jNew_number {c : CoreId} {s : State} (i : Instr) (va : Word) (r : Word × Label) (h : (s.core c).span < 4096) :
    jNew c false i va 0 r.1 r.2 s = .ok ((s.core c).head, s.updCore c (takeNumber i va r)) :=
  (M.bind_ok (jRoom_ok h)).trans rfl

theorem readX_ok {c : CoreId} {r : BitVec 6} {s : State} (h : (s.core c).pending r = false) : readX c r s = .ok ((s.core c).xval r, s) := by
  rw [readX_eq, h, if_neg Bool.false_ne_true]

/-! ### `chan.go` (R119, R125) -/

/-- Only one channel of the core's cluster and, of the core, what the issue of a command changes differ. -/
def ChanIssued (c : CoreId) (ch : BitVec 3) (s t : State) : Prop :=
  t = { s with cores := t.cores, clusters := t.clusters } ∧ (∀ d, d ≠ c → t.core d = s.core d) ∧
    (∀ cl, cl ≠ clusterOf c → t.cluster cl = s.cluster cl) ∧ (∀ h, h ≠ ch → chanAt t (clusterOf c) h = chanAt s (clusterOf c) h) ∧
    KeepsX (s.core c) (t.core c) ∧ FallsThrough (s.core c) (t.core c) ∧ (t.core c).head = seqAdd (s.core c).head 1

/-- The state after a `chan.go` that makes f of the channel. -/
def chanGone (c : CoreId) (ch : BitVec 3) (i : Instr) (v : Word) (f : Chan → Chan) (s : State) : State :=
  finishC c {} (updChan (clusterOf c) ch f (s.updCore c (takeNumber i v (0, 0))))

theorem chanGone_issued (c : CoreId) (ch : BitVec 3) (i : Instr) (v : Word) (f : Chan → Chan) (s : State) :
    ChanIssued c ch s (chanGone c ch i v f s) ∧ chanAt (chanGone c ch i v f s) (clusterOf c) ch = f (chanAt s (clusterOf c) ch) := by
  refine ⟨⟨rfl, fun d hd => (updCore_finishC_only c _ (updChan (clusterOf c) ch f s)).2 d hd, fun cl hcl => cluster_updChan_ne _ _ _ _ hcl,
    fun h hh => chanAt_updChan_ne _ _ _ _ hh, finishC_updCore_keepsX c _ (updChan (clusterOf c) ch f s) rfl rfl,
    finishC_updCore_falls c _ (updChan (clusterOf c) ch f s) rfl rfl, ?_⟩, chanAt_updChan_self (clusterOf c) ch f s⟩
  rw [chanGone, finishC_core, core_updChan, State.core_updCore_self]
  rfl

section
variable {s : State} {c : CoreId} {a : BitVec 6} {ch : BitVec 3} (hr : Ready s c .C) (hp : NonePending (s.core c) [a])
include hr hp

/-- A head starts a chain on a channel that does not run. -/
theorem execChanGo_starts (hspan : (s.core c).span < 4096) (hv : (s.core c).xval a ≠ 0)
    (hst : (chanAt s (clusterOf c) ch).st = .idle ∨ (chanAt s (clusterOf c) ch).st = .error ∨ (chanAt s (clusterOf c) ch).st = .fault) :
    exec (.chanGo a ch) s = .next (chanGone c ch (.chanGo a ch) ((s.core c).xval a)
      (chanStart c (s.core c).head ((s.core c).xval a) (s.core c).sync) s) := by
  have ha : (s.core c).pending a = false := hp a (by simp)
  have hneed : need (decide ((s.core c).xval a ≠ 0) || decide ((chanAt s (clusterOf c) ch).st = .fault)) cILLEGAL (wordOf (.chanGo a ch)) s =
      .ok ((), s) := by rw [need_eq, decide_eq_true hv, Bool.true_or, if_pos rfl]
  rw [chanGone]
  show execChanGo a ch s = _
  unfold execChanGo
  refine runPlain_ok hr ((M.bind_ok (readX_ok ha)).trans ((M.bind_ok (M.get_eq s)).trans ?_))
  rcases hst with hst | hst | hst
  all_goals
    rw [hst] at hneed ⊢
    refine (M.bind_ok hneed).trans ((M.bind_ok (getCore_eq c s)).trans ((M.bind_ok (jNew_number _ _ (0, 0) hspan)).trans ?_))
    rw [if_neg hv]
    rfl

/-- From FAULT 0 resumes the unit that the channel kept. -/
theorem execChanGo_resumes (hspan : (s.core c).span < 4096) (hv : (s.core c).xval a = 0) (hst : (chanAt s (clusterOf c) ch).st = .fault) :
    exec (.chanGo a ch) s = .next (chanGone c ch (.chanGo a ch) 0
      (fun k => { k with st := .run, issuer := some c, seqs := k.seqs ++ [(c, (s.core c).head)], sync := (s.core c).sync,
                         copy := k.copy.map (fun p => { p with sync := (s.core c).sync }) }) s) := by
  have ha : (s.core c).pending a = false := hp a (by simp)
  rw [chanGone]
  show execChanGo a ch s = _
  unfold execChanGo
  refine runPlain_ok hr ((M.bind_ok (readX_ok ha)).trans ((M.bind_ok (M.get_eq s)).trans ?_))
  rw [hst, hv]
  exact (M.bind_ok (need_eq _ _ _ _)).trans ((M.bind_ok (getCore_eq c s)).trans ((M.bind_ok (jNew_number _ _ (0, 0) hspan)).trans rfl))

/-- A channel under way takes no `chan.go`, and 0 resumes nothing but a fault. -/
theorem execChanGo_illegal (hst : (chanAt s (clusterOf c) ch).st = .run ∨ (chanAt s (clusterOf c) ch).st = .aborting ∨
    ((s.core c).xval a = 0 ∧ ((chanAt s (clusterOf c) ch).st = .idle ∨ (chanAt s (clusterOf c) ch).st = .error))) :
    TrapsIllegal c (.chanGo a ch) s := by
  have ha : (s.core c).pending a = false := hp a (by simp)
  show execChanGo a ch s = _
  unfold execChanGo
  refine runPlain_trap hr ?_
  rcases hst with hst | hst | ⟨hv, hst | hst⟩
  · simp [M.bind_eq, readX_eq, ha, hst]
  · simp [M.bind_eq, readX_eq, ha, hst]
  · simp [M.bind_eq, readX_eq, ha, hst, hv]
  · simp [M.bind_eq, readX_eq, ha, hst, hv]

end

/-! ### `chan.stat` (R126) -/

theorem execChanStat_completes {s : State} {c : CoreId} {d : BitVec 6} (ch : BitVec 3) (hr : Ready s c .C) (hd : (s.core c).pending d = false) :
    let k := chanAt s (clusterOf c) ch
    CompletesWith c (.chanStat d ch) s d (wd (k.st.code + bits k.cursor.toNat 6 46 * 64 + k.cause.toNat * 2 ^ 56)) 0 := by
  refine ⟨_, ?_, updCore_finishC_only c _ s, finishC_setX_core c d _ 0 s⟩
  show execChanStat d ch s = _
  unfold execChanStat
  refine runPlain_ok hr ?_
  simp only [M.bind_eq, needFree_eq, hd, Bool.false_eq_true, if_false, M.get_eq, writeX_eq]

/-! ### `chan.abort` (R119, R127) -/

section
variable {s : State} {c : CoreId} (ch : BitVec 3) (hr : Ready s c .C)
include hr

theorem execChanAbort_running (hst : (chanAt s (clusterOf c) ch).st = .run) :
    exec (.chanAbort ch) s = .next (finishC c {} (updChan (clusterOf c) ch (fun k => { k with st := .aborting }) s)) := by
  show execChanAbort ch s = _
  unfold execChanAbort
  refine runPlain_ok hr ?_
  simp only [M.bind_eq, M.get_eq, hst, M.modify_eq]

theorem execChanAbort_stopped (hst : (chanAt s (clusterOf c) ch).st = .fault ∨ (chanAt s (clusterOf c) ch).st = .error) :
    exec (.chanAbort ch) s =
      .next (finishC c {} (chanDone (clusterOf c) ch (updChan (clusterOf c) ch (fun k => { k with st := .idle, copy := none }) s))) := by
  show execChanAbort ch s = _
  unfold execChanAbort
  refine runPlain_ok hr ?_
  rcases hst with hst | hst <;> simp only [M.bind_eq, M.get_eq, hst, M.modify_eq]

theorem execChanAbort_idle (hst : (chanAt s (clusterOf c) ch).st = .idle ∨ (chanAt s (clusterOf c) ch).st = .aborting) :
    exec (.chanAbort ch) s = .next (finishC c {} s) := by
  show execChanAbort ch s = _
  unfold execChanAbort
  refine runPlain_ok hr ?_
  rcases hst with hst | hst <;> simp only [M.bind_eq, M.get_eq, hst, M.pure_eq]

/-- What `chan.abort` makes of each state of its channel. -/
theorem execChanAbort_outcome :
    let k := chanAt s (clusterOf c) ch
    ∃ t, exec (.chanAbort ch) s = .next t ∧ t.mem = s.mem ∧ FallsThrough (s.core c) (t.core c) ∧ KeepsX (s.core c) (t.core c) ∧
      (k.st = .run → chanAt t (clusterOf c) ch = { k with st := .aborting }) ∧
      (k.st = .fault ∨ k.st = .error → (chanAt t (clusterOf c) ch).st = .idle ∧ (chanAt t (clusterOf c) ch).cause = k.cause) ∧
      (k.st = .idle ∨ k.st = .aborting → chanAt t (clusterOf c) ch = k) := by
  intro k
  have states : k.st = .run ∨ (k.st = .fault ∨ k.st = .error) ∨ (k.st = .idle ∨ k.st = .aborting) := by cases k.st <;> simp
  rcases states with hst | hst | hst
  · obtain ⟨-, hx, hfalls⟩ := finishC_keeps c (updChan (clusterOf c) ch (fun k => { k with st := .aborting }) s)
    exact ⟨_, execChanAbort_running ch hr hst, rfl, hfalls, hx,
      fun _ => (chanAt_finishC _ _ _ _ _).trans (chanAt_updChan_self _ _ _ _),
      fun h => absurd h (by simp [hst]), fun h => absurd h (by simp [hst])⟩
  · obtain ⟨t, hj, hdone⟩ := chanDone_eq (clusterOf c) ch (updChan (clusterOf c) ch (fun k => { k with st := .idle, copy := none }) s)
    obtain ⟨hx, hfalls⟩ := hj.goesOn (c := c)
    refine ⟨_, execChanAbort_stopped ch hr hst, chanDone_mem _ _ _, ?_, ?_, fun h => absurd h ?_, fun _ => ?_, fun h => absurd h ?_⟩
    · rw [hdone]
      exact hfalls
    · rw [hdone]
      exact hx
    · rcases hst with hst | hst <;> simp [hst]
    · show (chanAt (chanDone _ ch _) _ ch).st = _ ∧ (chanAt (chanDone _ ch _) _ ch).cause = _
      rw [chanAt_chanDone, chanAt_updChan_self]
      exact ⟨rfl, rfl⟩
    · rcases hst with hst | hst <;> simp [hst]
  · obtain ⟨-, hx, hfalls⟩ := finishC_keeps c s
    refine ⟨_, execChanAbort_idle ch hr hst, rfl, hfalls, hx, fun h => absurd h ?_, fun h => absurd h ?_, fun _ => rfl⟩
    · rcases hst with hst | hst <;> simp [hst]
    · rcases hst with hst | hst <;> simp [hst]

end

/-! ### `lrec.flush` (R128) -/

/-- One idempotent change of several clusters changes each of them once. -/
theorem cluster_updClusters {f : Cluster → Cluster} (hf : ∀ k, f (f k) = f k) (cls : List ClusterId) (s : State) (q : ClusterId) :
    (cls.foldl (fun (s : State) cl => s.updCluster cl f) s).cluster q = if q ∈ cls then f (s.cluster q) else s.cluster q := by
  induction cls generalizing s with
  | nil => rfl
  | cons cl cls ih =>
    rw [List.foldl_cons, ih]
    by_cases h : q = cl
    · rw [h, State.cluster_updCluster_self, hf, ite_self, if_pos List.mem_cons_self]
    · rw [State.cluster_updCluster_ne _ _ _ _ h]
      simp only [List.mem_cons, h, false_or]

theorem updClusters_only (f : Cluster → Cluster) (cls : List ClusterId) (s : State) :
    cls.foldl (fun (s : State) cl => s.updCluster cl f) s =
      { s with clusters := (cls.foldl (fun (s : State) cl => s.updCluster cl f) s).clusters } := by
  induction cls generalizing s with
  | nil => rfl
  | cons cl cls ih => exact ih (s.updCluster cl f)

/-- A record cache without the record of a handle in an address space. -/
def dropRecord (asid : BitVec 16) (h : Nat) (q : Cluster) : Cluster :=
  { q with recs := q.recs.filter (fun e => !(e.1 == asid && e.2.1.toNat == h)) }

theorem dropRecord_idem (asid : BitVec 16) (h : Nat) (q : Cluster) : dropRecord asid h (dropRecord asid h q) = dropRecord asid h q := by
  simp [dropRecord]

theorem mem_dropRecord {asid : BitVec 16} {h : Nat} {q : Cluster} {e : BitVec 16 × Word × List Byte} :
    e ∈ (dropRecord asid h q).recs ↔ e ∈ q.recs ∧ ¬ (e.1 = asid ∧ e.2.1.toNat = h) := by
  simp [dropRecord, imp_iff_not_or]

/-- The clusters whose record caches a `lrec.flush` of a core reaches. -/
abbrev flushed (s : State) (c : CoreId) : List ClusterId := (s.part (s.core c).id.pid).clusters ++ [clusterOf c]

section
variable {s : State} {c : CoreId} {a : BitVec 6} (hr : Ready s c .C) (ha : (s.core c).pending a = false)
include hr ha

theorem execLrecFlush_drops (hv : ((s.core c).xval a).toNat < 2 ^ 52) : exec (.lrecFlush a) s =
    .next (finishC c {} ((flushed s c).foldl (fun u cl => u.updCluster cl
      (dropRecord (s.core c).id.asid (((s.core c).xval a).toNat / 64 * 64))) s)) := by
  show execLrecFlush a s = _
  unfold execLrecFlush
  refine runPlain_ok hr ?_
  simp only [M.bind_eq, readX_eq, ha, Bool.false_eq_true, if_false, getCore_eq, hv, if_true, M.modify_eq, flushed]
  rfl

theorem execLrecFlush_wide (hv : 2 ^ 52 ≤ ((s.core c).xval a).toNat) : exec (.lrecFlush a) s = .next (finishC c {} s) := by
  show execLrecFlush a s = _
  unfold execLrecFlush
  refine runPlain_ok hr ?_
  simp only [M.bind_eq, readX_eq, ha, Bool.false_eq_true, if_false, getCore_eq, Nat.not_lt.2 hv, M.pure_eq]

end

end Sys2Proof.Machine
end

section
/-! The statement about the commands of a channel (O27). -/

namespace Sys2Proof.Machine

/-- What `lrec.flush` leaves of each cluster's record cache. -/
theorem execLrecFlush_outcome {s : State} {c : CoreId} {a : BitVec 6} (hr : Ready s c .C) (ha : (s.core c).pending a = false) :
    let v := ((s.core c).xval a).toNat
    ∃ t, exec (.lrecFlush a) s = .next t ∧ t.mem = s.mem ∧ FallsThrough (s.core c) (t.core c) ∧ KeepsX (s.core c) (t.core c) ∧
      (v < 2 ^ 52 → ∀ q, q ∈ (s.part (s.core c).id.pid).clusters ∨ q = clusterOf c → ∀ e, e ∈ (t.cluster q).recs ↔
        e ∈ (s.cluster q).recs ∧ ¬ (e.1 = (s.core c).id.asid ∧ e.2.1.toNat = v / 64 * 64)) ∧
      (∀ q, q ∉ (s.part (s.core c).id.pid).clusters → q ≠ clusterOf c → t.cluster q = s.cluster q) ∧
      (2 ^ 52 ≤ v → t.clusters = s.clusters) := by
  intro v
  rcases Nat.lt_or_ge v (2 ^ 52) with hv | hv
  · have honly := updClusters_only (dropRecord (s.core c).id.asid (v / 64 * 64)) (flushed s c) s
    have hcluster := cluster_updClusters (dropRecord_idem (s.core c).id.asid (v / 64 * 64)) (flushed s c) s
    have hrun := execLrecFlush_drops hr ha hv
    generalize (flushed s c).foldl (fun u cl => u.updCluster cl (dropRecord (s.core c).id.asid (v / 64 * 64))) s = u at honly hcluster hrun
    have hcore : u.core c = s.core c := by rw [honly]; rfl
    obtain ⟨-, hx, hfalls⟩ := finishC_keeps c u
    rw [hcore] at hx hfalls
    refine ⟨_, hrun, by rw [honly]; rfl, hfalls, hx, fun _ q hq e => ?_, fun q hq hne => ?_, fun h => absurd hv (Nat.not_lt.2 h)⟩
    · show e ∈ (u.cluster q).recs ↔ _
      rw [hcluster, if_pos (by simpa using hq), mem_dropRecord]
    · show u.cluster q = _
      rw [hcluster, if_neg (by simpa using ⟨hq, hne⟩)]
  · obtain ⟨-, hx, hfalls⟩ := finishC_keeps c s
    exact ⟨_, execLrecFlush_wide hr ha hv, rfl, hfalls, hx, fun h => absurd h (Nat.not_lt.2 hv), fun _ _ _ => rfl, fun _ => rfl⟩

/-- Settles O27: a `chan.go` changes one channel and takes one number, the other three read or change what their rules name. -/
theorem channels : Obligations.Channels := by
  unfold Obligations.Channels
  refine ⟨fun s c a ch hr hp hspan => ⟨fun hv hst => ?_, fun hv hst => ?_, execChanGo_illegal hr hp⟩, fun s c d a ch hr hp => ?_⟩
  · exact ⟨_, execChanGo_starts hr hp hspan hv hst, chanGone_issued c ch _ _ _ s⟩
  · exact ⟨_, execChanGo_resumes hr hp hspan hv hst, chanGone_issued c ch _ _ _ s⟩
  · intro cl k code
    have hcode : code = k.st.code := by
      dsimp only [code]
      cases k.st <;> rfl
    refine ⟨?_, execChanAbort_outcome ch hr, execLrecFlush_outcome hr (hp a (by simp))⟩
    rw [hcode]
    exact execChanStat_completes ch hr (hp d (by simp))

end Sys2Proof.Machine
end

section
/-! Steps of a running channel (O28): the read of its next record, its units, and the completion of a record. -/

namespace Sys2Proof.Machine

/-! ### Runs that no guard names (R300) -/

theorem guardHolds_of_nil {s : State} {c : CoreId} {runs : List Run} (h : guardedBy s c runs = []) : guardHolds s c runs = false := by
  rw [guardHolds, h]
  rfl

/-! ### The checks of a record (R120) -/

section
variable {cl : ClusterId} {ch : BitVec 3} {c : CoreId} {w : Who} {cp : Copy} {s : State}

theorem chanSides_held (hg : guardHolds s c (sideReads w (some cl) (parseRec cp.img) s) = true) :
    chanSides cl ch c w cp s = updChan cl ch (fun k => { k with copy := some cp }) s := by
  rw [chanSides, if_pos hg]

variable (hg : guardedBy s c (sideReads w (some cl) (parseRec cp.img) s) = [])
include hg

theorem chanSides_checked {cp1 : Copy} {s1 : State} (h : checkCopy w (some cl) true false cp s = (.ok cp1, s1)) :
    chanSides cl ch c w cp s = updChan cl ch (fun k => { k with copy := some cp1 }) s1 := by
  simp only [chanSides, guardHolds_of_nil hg, Bool.false_eq_true, if_false, h, hg]
  rfl

theorem chanSides_bad {cause : Byte} {va : Word} {s1 : State} (h : checkCopy w (some cl) true false cp s = (.error (.bad cause va), s1)) :
    chanSides cl ch c w cp s = chanFail cl ch .error cause va s1 := by
  simp only [chanSides, guardHolds_of_nil hg, Bool.false_eq_true, if_false, h, chanChk]

end

/-! ### A running channel -/

section
variable {s : State} {cl : ClusterId} {ch : BitVec 3} {c : CoreId} (hst : (chanAt s cl ch).st = .run) (hi : (chanAt s cl ch).issuer = some c)
  (hlive : engineLive s c ((chanAt s cl ch).seqsOf c) = true)
include hst hi hlive

/-! ### TRANSFER_RECORD_READ (R118, R120) -/

section
variable (hcopy : (chanAt s cl ch).copy = none) (hcount : (chanAt s cl ch).count + 1 < 2 ^ 20) (hal : (chanAt s cl ch).cursor.toNat % 64 = 0)
include hcopy hcount hal

theorem transferRecordRead_held (hg : guardHolds s c [((chanAt s cl ch).cursor.toNat, 64)] = true) :
    exec (.transferRecordRead cl ch) s = .next s := by
  show execTransferRecordRead cl ch s = _
  unfold execTransferRecordRead
  simp only [hst, hi, hlive, hcopy, Nat.not_le.2 hcount, hal, hg]
  rfl

/-- The record that it reads goes on to the checks of its sides, or ends the chain where OWN is clear. -/
theorem transferRecordRead_reads (hg : guardedBy s c [((chanAt s cl ch).cursor.toNat, 64)] = []) {g : Got} {s1 : State}
    (hread : readVirt (engineWho s c 1 ch.toNat) (chanAt s cl ch).cursor.toNat 64 s = (.ok g, s1)) (hp : g.poison = false) :
    exec (.transferRecordRead cl ch) s = .next (if (parseRec g.bytes).own
      then chanSides cl ch c (engineWho s c 1 ch.toNat) (Copy.fresh g.bytes (chanAt s cl ch).cursor (chanAt s cl ch).sync) s1
      else chanFail cl ch .error 0x01 (chanAt s cl ch).cursor s1) := by
  show execTransferRecordRead cl ch s = _
  unfold execTransferRecordRead
  simp only [hst, hi, hlive, hcopy, Nat.not_le.2 hcount, hal, guardHolds_of_nil hg, hread, hp, hg]
  cases (parseRec g.bytes).own <;> rfl

end

/-! ### TRANSFER_UNIT (R111) -/

section
variable {cp : Copy} (hcopy : (chanAt s cl ch).copy = some cp) (hchk : cp.checked = true)
include hcopy hchk

section
variable (hunit : cp.unit < unitsOf (parseRec cp.img)) {s1 : State}
include hunit

theorem transferUnit_done (hdo : doUnit c (engineWho s c 1 ch.toNat) cp.sync (parseRec cp.img) cp.srcL cp.dstL cp.unit s = (.done, s1)) :
    exec (.transferUnit (.chan cl ch)) s = .next (updChan cl ch (fun k => { k with copy := some { cp with unit := cp.unit + 1 } }) s1) := by
  show Host.Outcome.next (chanUnit cl ch s) = _
  unfold chanUnit
  simp only [hst, hi, hcopy, hchk, hlive, Nat.not_le.2 hunit, hdo]
  rfl

theorem transferUnit_fault {f : PFault} {va : Word}
    (hdo : doUnit c (engineWho s c 1 ch.toNat) cp.sync (parseRec cp.img) cp.srcL cp.dstL cp.unit s = (.fault f va, s1)) :
    exec (.transferUnit (.chan cl ch)) s = .next (chanFail cl ch .fault (faultCause f) va s1) := by
  show Host.Outcome.next (chanUnit cl ch s) = _
  unfold chanUnit
  simp only [hst, hi, hcopy, hchk, hlive, Nat.not_le.2 hunit, hdo]
  rfl

end

/-! ### RECORD_COMPLETION (R117) -/

variable (hunit : unitsOf (parseRec cp.img) ≤ cp.unit)
include hunit

/-- A record whose last unit has performed takes the step of its stage. -/
theorem recordCompletion_step : exec (.recordCompletion cl ch) s = .next (
    if cp.stage = 0 then chanWriteBack cl ch c (chanAt s cl ch) cp s
    else if cp.stage = 1 then chanIncrement cl ch c (chanAt s cl ch) cp s
    else chanAdvance cl ch cp s) := by
  show execRecordCompletion cl ch s = _
  unfold execRecordCompletion
  simp only [hst, hi, hcopy, hchk, hlive, Nat.not_lt.2 hunit, chanComplete]
  rfl

theorem recordCompletion_writtenBack {s1 : State} (h0 : cp.stage = 0)
    (hw : engineWrite c (engineWho s c 1 ch.toNat) cp.sync ((chanAt s cl ch).cursor.toNat + 8) (natBytes 8 (doneWord cp.img)) 0 s =
      (.ok .done, s1)) :
    exec (.recordCompletion cl ch) s = .next (updChan cl ch (fun k => { k with copy := some { cp with stage := 1 } }) s1) := by
  rw [recordCompletion_step hst hi hlive hcopy hchk hunit, if_pos h0, chanWriteBack, hw]
  rfl

theorem recordCompletion_counts {s1 : State} (h1 : cp.stage = 1) (hc : completeSem c (parseRec cp.img) s = (true, s1)) :
    exec (.recordCompletion cl ch) s = .next (updChan cl ch (fun k => { k with copy := some { cp with stage := 2 } }) s1) := by
  rw [recordCompletion_step hst hi hlive hcopy hchk hunit, if_neg (by omega), if_pos h1, chanIncrement, hc]
  rfl

theorem recordCompletion_overflows {s1 : State} (h1 : cp.stage = 1) (hc : completeSem c (parseRec cp.img) s = (false, s1)) :
    exec (.recordCompletion cl ch) s = .next (chanFail cl ch .error 0x08 (chanAt s cl ch).cursor s1) := by
  rw [recordCompletion_step hst hi hlive hcopy hchk hunit, if_neg (by omega), if_pos h1, chanIncrement, hc]
  rfl

/-- The last step leaves the channel idle at the end of its chain, or at NEXT. -/
theorem recordCompletion_advances (h2 : 2 ≤ cp.stage) : ∃ t, exec (.recordCompletion cl ch) s = .next t ∧ t.mem = s.mem ∧
    ((parseRec cp.img).next = 0 → (chanAt t cl ch).st = .idle ∧ (chanAt t cl ch).copy = none) ∧
    ((parseRec cp.img).next ≠ 0 → chanAt t cl ch =
      { chanAt s cl ch with cursor := wd (parseRec cp.img).next, count := (chanAt s cl ch).count + 1, copy := none }) := by
  refine ⟨_, recordCompletion_step hst hi hlive hcopy hchk hunit, ?_⟩
  rw [if_neg (by omega), if_neg (by omega), chanAdvance, hst, if_neg (by decide)]
  by_cases hn : (parseRec cp.img).next = 0
  · rw [if_pos hn]
    refine ⟨chanDone_mem _ _ _, fun _ => ?_, fun h => absurd hn h⟩
    rw [chanAt_chanDone, chanAt_updChan_self]
    exact ⟨rfl, rfl⟩
  · rw [if_neg hn]
    exact ⟨rfl, fun h => absurd h hn, fun _ => chanAt_updChan_self _ _ _ s⟩

end
end

/-- An abort between the steps of a completion ends the chain (R119). -/
theorem recordCompletion_aborted {s : State} {cl : ClusterId} {ch : BitVec 3} {c : CoreId} {cp : Copy} (hst : (chanAt s cl ch).st = .aborting)
    (hi : (chanAt s cl ch).issuer = some c) (hcopy : (chanAt s cl ch).copy = some cp) (h1 : cp.stage ≠ 1) :
    exec (.recordCompletion cl ch) s = .next (chanAborted cl ch s) := by
  show execRecordCompletion cl ch s = _
  unfold execRecordCompletion
  by_cases h0 : cp.stage = 0
  · simp only [hst, hi, hcopy, h0, if_true]
  · simp only [hst, hi, hcopy, h0, if_false, chanComplete, h1, chanAdvance, if_true]

/-! ### The completion increment (R117, R246) -/

section
variable {c : CoreId} {r : XRec} {s : State}

theorem completeSem_none (h : r.cmpl = false) : completeSem c r s = (true, s) := by simp [completeSem, h]

variable (hr : r.cmpl = true)
include hr

theorem completeSem_counts (h : ((s.core (if r.peer then peerOf c else c)).sem (BitVec.ofNat 6 r.sem)).count ≠ 65535) :
    completeSem c r s = (true, semRelease c (if r.peer then peerOf c else c) (BitVec.ofNat 6 r.sem) 1 s) := by
  have hn : ((s.core (if r.peer then peerOf c else c)).sem (BitVec.ofNat 6 r.sem)).count.toNat ≠ 65535 := fun e => h (BitVec.eq_of_toNat_eq e)
  simp only [completeSem, hr, Bool.not_true, Bool.false_eq_true, if_false, if_neg hn]

theorem completeSem_full (h : ((s.core (if r.peer then peerOf c else c)).sem (BitVec.ofNat 6 r.sem)).count = 65535) :
    completeSem c r s = (false, s) := by
  simp only [completeSem, hr, Bool.not_true, Bool.false_eq_true, if_false, h]
  rfl

end

end Sys2Proof.Machine
end

section
/-! What an engine writes for a plain access (O28), and race records that no page asks for. -/

namespace Sys2Proof.Machine

/-! ### Race records (R247) -/

theorem engineRace_unchecked {c : CoreId} {w : Who} {sync : BitVec 16} {ps : List Piece} (h : ∀ p ∈ ps, p.page.race = false) (s : State) :
    engineRace c w sync ps s = ((), s) := by
  unfold engineRace
  induction ps with
  | nil => rfl
  | cons p ps ih =>
    have hp : p.page.race = false := h p List.mem_cons_self
    have ih := ih fun q hq => h q (List.mem_cons_of_mem _ hq)
    simp only [List.forM_eq_forM, List.forM_cons, hp, Bool.false_eq_true, if_false] at ih ⊢
    exact ih

theorem page_mem_of_pieces {pages : List Page} {va n : Nat} {p : Piece} (hp : p ∈ pieces pages va n) : p.page ∈ pages := by
  unfold pieces at hp
  split at hp
  · cases hp
  · obtain ⟨i, -, hi⟩ := List.mem_filterMap.1 hp
    obtain ⟨q, hq, rfl⟩ := Option.map_eq_some_iff.1 hi
    exact List.mem_of_find?_eq_some hq

/-! ### The transfer engine's write for a task (R234, R247) -/

/-- An agent without an L1 always translates (R90). -/
theorem hitPage_uncached {w : Who} (hw : w.cache = none) (s : State) (n : PageNeed) : hitPage w s n = none := by
  have hline : ∀ v sec, w.l1Line s v sec = none := fun v sec => by rw [Who.l1Line, hw]; rfl
  unfold hitPage
  split
  · next heq =>
    cases hs : n.secs with
    | nil => rw [hs] at heq; cases heq
    | cons a l => rw [hs, List.map_cons, hline] at heq; cases heq
  · rfl

section
variable {s : State} {c : CoreId} {st : Strand} {va n : Nat} {kd : WpKind} {t : Tlb} (h : PlainAccess s c st va n kd t)
include h

theorem PlainAccess.translate_engine (slot : Nat) {acc : Acc} (hx : acc.needX = false) :
    Machine.translate (engineWho s c 1 slot) va n acc s = (.ok [pageOf (va / 4096) t], s) := by
  obtain ⟨hn, hin, hva⟩ := h.small
  have hout : (engineWho s c 1 slot).inWindow (va / 4096) = none := by
    unfold Who.inWindow
    rw [show (engineWho s c 1 slot).window = none from h.noWindow]
  have hlook : lookupPage (engineWho s c 1 slot).pid (engineWho s c 1 slot).vd (engineWho s c 1 slot).asid (va / 4096 * 4096) s = (.ok t, s) := by
    rw [lookupPage, if_neg (by omega), Nat.mul_div_cancel _ (by decide)]
    have hheld := h.held
    simp only [engineWho, strandWho] at hheld ⊢
    rw [hheld]
  have hneed : ∀ need : PageNeed, need.vpage = va / 4096 → need.acc = acc →
      needPage (engineWho s c 1 slot) need s = (.ok (pageOf (va / 4096) t), s) := by
    intro need hv ha
    rw [needPage, hitPage_uncached rfl, hv, ha, onePage, hout]
    simp only [hlook, h.checkPage hx]
  rw [Machine.translate, Machine.translateRuns, pageNeeds_within hn hin]
  simp only [openPages, hneed (Touch.need { va := va, len := n, acc := acc } (va / 4096)) rfl rfl, pure, StateT.pure]

theorem PlainAccess.engineWrite (hc : CanonicalMemory s) (slot : Nat) (sync : BitVec 16) {bs : List Byte} (hlen : bs.length = n) (l : Label) :
    ∃ u, Machine.engineWrite c (engineWho s c 1 slot) sync va bs l s = (.ok .done, u) ∧ StoreOnly s u ∧ Stored s u (physOf t va) bs := by
  obtain ⟨-, -, -, hrace, -, -⟩ := h.rights
  obtain ⟨u, hu, honly, hst⟩ := h.writePieces hc (engineWho s c 1 slot) hlen l
  have hplain : engineRace c (engineWho s c 1 slot) sync [plainPiece va n t] s = ((), s) :=
    engineRace_unchecked (fun p hp => by rw [List.mem_singleton.1 hp]; exact hrace) s
  refine ⟨u, ?_, honly, hst⟩
  unfold Machine.engineWrite
  simp only [bind, StateT.bind, hlen, h.translate_engine slot (acc := .write) rfl, h.pieces, hplain, hu, pure, StateT.pure]

end

end Sys2Proof.Machine
end

section
/-! The end of a `tcp`, and the lead of a deadline (O28). -/

namespace Sys2Proof.Machine

/-! ### A release through a semaphore (R246, R276) -/

/-- Of each core at most SYNC and the semaphores differ, and nothing outside the cores. -/
def SemsOnly (s t : State) : Prop := OnlyCores s t ∧ ∀ d, ∃ y m, t.core d = { s.core d with sync := y, sems := m }

theorem SemsOnly.refl (s : State) : SemsOnly s s := ⟨rfl, fun _ => ⟨_, _, rfl⟩⟩

section
variable (task holder : CoreId) (n : BitVec 6) (v : Nat) (s : State)

theorem semRelease_others {d : CoreId} (ht : d ≠ task) (hh : d ≠ holder) : (semRelease task holder n v s).core d = s.core d := by
  rw [semRelease, State.core_updCore_ne _ _ _ _ hh, State.core_updCore_ne _ _ _ _ ht]

theorem semRelease_semsOnly : SemsOnly s (semRelease task holder n v s) := by
  refine ⟨rfl, fun d => ?_⟩
  have raised : ∃ y, (s.updCore task (fun k => { k with sync := (s.core task).sync + 1 })).core d = { s.core d with sync := y } := by
    by_cases ht : d = task
    · rw [ht, State.core_updCore_self]
      exact ⟨_, rfl⟩
    · rw [State.core_updCore_ne _ _ _ _ ht]
      exact ⟨_, rfl⟩
  obtain ⟨y, hy⟩ := raised
  by_cases hh : d = holder
  · subst hh
    rw [semRelease, State.core_updCore_self, hy]
    exact ⟨y, _, rfl⟩
  · rw [semRelease, State.core_updCore_ne _ _ _ _ hh, hy]
    exact ⟨y, _, rfl⟩

theorem Sem.stamp_count (m : Sem) (c : CoreId) (y : BitVec 16) : (m.stamp c y).count = m.count := by
  unfold Sem.stamp
  split <;> rfl

theorem sem_setSem_self (k : Core) (m : Sem) : (k.setSem n m).sem n = m := rd_wr_self _ _ _

theorem semRelease_count : (((semRelease task holder n v s).core holder).sem n).count = ((s.core holder).sem n).count + BitVec.ofNat 16 v := by
  have before : ((s.updCore task (fun k => { k with sync := (s.core task).sync + 1 })).core holder).sem n = (s.core holder).sem n := by
    by_cases h : holder = task
    · rw [h, State.core_updCore_self]
      rfl
    · rw [State.core_updCore_ne _ _ _ _ h]
  rw [semRelease, State.core_updCore_self, sem_setSem_self, Sem.stamp_count, before]

end

theorem semRelease_one {task holder : CoreId} {n : BitVec 6} {s : State} (h : ((s.core holder).sem n).count ≠ 65535) :
    (((semRelease task holder n 1 s).core holder).sem n).count.toNat = ((s.core holder).sem n).count.toNat + 1 := by
  rw [semRelease_count]
  bv_omega

/-! ### TCP_COMPLETION (R124) -/

/-- The first copy leaves the queue and its result is delivered. -/
def tcpEnds (c : CoreId) (p : Pend) (v : Word) (s : State) : State :=
  s.updCore c (fun k => deliverPend p v { k with tcps := k.tcps.drop 1 })

theorem copyStatus_success (va : Word) : copyStatus 0 va = 0 := if_pos rfl

/-- The status of a `tcp` whose increment found its semaphore full (R124). -/
theorem copyStatus_overflow (va : Word) : copyStatus 0x08 va = wd (8 * 2 ^ 56 + va.toNat % 2 ^ 52) := if_neg (by decide)

section
variable {s : State} {c : CoreId} {t0 : TcpCopy} {rest : List TcpCopy} {p : Pend} (htcps : (s.core c).tcps = t0 :: rest)
  (hpend : (s.core c).pend = [p])
include htcps hpend

/-- A `tcp` that has ended makes its increment, and its status depends on whether that went through. -/
theorem tcpCompletion_ends {cause : Byte} {va : Word} (hend : t0.copy.ended = some (cause, va)) (hlive : engineLive s c [t0.seq] = true)
    (hsrc : p.src = .tcp t0.seq) {ok : Bool} {s1 : State} (hsem : SemsOnly s s1)
    (hinc : (if cause = 0 then completeSem c (parseRec t0.copy.img) s else (true, s)) = (ok, s1))
    {v : Word} (hv : (if ok then copyStatus cause va else copyStatus 0x08 t0.copy.addr) = v) :
    exec (.tcpCompletion c 0) s = .next (tcpEnds c p v s1) := by
  obtain ⟨y, m, hc⟩ := hsem.2 c
  show execTcpCompletion c 0 s = _
  unfold execTcpCompletion
  simp only [htcps, List.getElem?_cons_zero, hend, hlive, Bool.not_true, Bool.false_eq_true, if_false, hinc]
  refine congrArg Host.Outcome.next (updCore_congr ?_)
  rw [hc, hv]
  simp only [hpend, htcps, List.eraseIdx_cons_zero, List.drop_succ_cons, List.drop_zero, hsrc, List.find?_cons, beq_self_eq_true]

/-- A copy that failed, or that asks for no increment, ends with its own status. -/
theorem tcpCompletion_quiet {cause : Byte} {va : Word} (hend : t0.copy.ended = some (cause, va)) (hlive : engineLive s c [t0.seq] = true)
    (hsrc : p.src = .tcp t0.seq) (hquiet : (parseRec t0.copy.img).cmpl = false ∨ cause ≠ 0) :
    exec (.tcpCompletion c 0) s = .next (tcpEnds c p (copyStatus cause va) s) := by
  refine tcpCompletion_ends htcps hpend hend hlive hsrc (SemsOnly.refl s) (ok := true) ?_ (if_pos rfl)
  split
  · next h0 => exact completeSem_none (hquiet.resolve_right (not_not_intro h0))
  · rfl

section
variable {va : Word} (hend : t0.copy.ended = some (0, va)) (hlive : engineLive s c [t0.seq] = true) (hsrc : p.src = .tcp t0.seq)
  (hcmpl : (parseRec t0.copy.img).cmpl = true)
include hend hlive hsrc hcmpl

theorem tcpCompletion_counts
    (hroom : ((s.core (if (parseRec t0.copy.img).peer then peerOf c else c)).sem (BitVec.ofNat 6 (parseRec t0.copy.img).sem)).count ≠ 65535) :
    exec (.tcpCompletion c 0) s = .next (tcpEnds c p 0
      (semRelease c (if (parseRec t0.copy.img).peer then peerOf c else c) (BitVec.ofNat 6 (parseRec t0.copy.img).sem) 1 s)) :=
  tcpCompletion_ends htcps hpend hend hlive hsrc (semRelease_semsOnly _ _ _ _ s) ((if_pos rfl).trans (completeSem_counts hcmpl hroom))
    (copyStatus_success va)

theorem tcpCompletion_overflows
    (hfull : ((s.core (if (parseRec t0.copy.img).peer then peerOf c else c)).sem (BitVec.ofNat 6 (parseRec t0.copy.img).sem)).count = 65535) :
    exec (.tcpCompletion c 0) s = .next (tcpEnds c p (wd (8 * 2 ^ 56 + t0.copy.addr.toNat % 2 ^ 52)) s) :=
  tcpCompletion_ends htcps hpend hend hlive hsrc (SemsOnly.refl s) ((if_pos rfl).trans (completeSem_full hcmpl hfull)) (copyStatus_overflow _)

end

/-- What the end of a copy leaves of a state that differs in semaphores alone. -/
theorem tcpEnds_leaves {s1 : State} (hsem : SemsOnly s s1) (v : Word) (hlbl : p.lbl = 0) : let t := tcpEnds c p v s1
    OnlyCores s t ∧ (t.core c).tcps = rest ∧ (t.core c).pend = [] ∧ (t.core c).seq = (s.core c).seq ∧
      SetsX (s.core c) (t.core c) p.reg v 0 ∧ (∀ d n, (t.core d).sem n = (s1.core d).sem n) ∧ ∀ d, d ≠ c → t.core d = s1.core d := by
  obtain ⟨hcores, hsems⟩ := hsem
  obtain ⟨y, m, hc⟩ := hsems c
  obtain ⟨j, n, hk⟩ := deliverPend_eq p v { s1.core c with tcps := (s1.core c).tcps.drop 1 }
  have hother : ∀ d, d ≠ c → (tcpEnds c p v s1).core d = s1.core d := fun d hd => State.core_updCore_ne _ _ _ _ hd
  have hself : (tcpEnds c p v s1).core c = { Core.setX { s1.core c with tcps := (s1.core c).tcps.drop 1 } p.reg v p.lbl with
      pend := (s1.core c).pend.erase p, journal := j, low := n } := (State.core_updCore_self _ _ _).trans hk
  have hsame : ∀ d n, ((tcpEnds c p v s1).core d).sem n = (s1.core d).sem n := by
    intro d n
    by_cases hd : d = c
    · rw [hd, hself]
      exact congrArg (fun sems => rd sems (i6 n)) (Core.sems_setX _ _ _ _)
    · rw [hother d hd]
  refine ⟨?_, ?_, ?_, ?_, ⟨?_, ?_, fun r hr => ⟨?_, ?_⟩⟩, hsame, hother⟩
  · unfold OnlyCores at *
    rw [tcpEnds, hcores]
    rfl
  all_goals rw [hself, hc]
  · exact (Core.tcps_setX _ _ _ _).trans (by rw [htcps]; rfl)
  · simp [hpend]
  · exact Core.seq_setX _ _ _ _
  · exact Core.xval_setX_self _ _ _ _
  · rw [hlbl]
    exact Core.xlbl_setX_self _ _ _ _
  · exact Core.xval_setX_ne _ _ _ _ _ hr
  · exact Core.xlbl_setX_ne _ _ _ _ _ hr

end

/-! ### DEADLINE_LEAD_REACHED (R116) -/

theorem leadReached_iff (r : XRec) (now : Word) :
    leadReached r now = true ↔ r.offl = true ∧ r.deadline ≠ 0 ∧ r.deadline ≤ now.toNat + 2 ^ (r.dlead + 6) := by
  simp only [leadReached, Bool.and_eq_true, decide_eq_true_eq, and_assoc, Nat.sub_le_iff_le_add]

theorem deadlineLead_marks {s : State} {cl : ClusterId} {ch : BitVec 3} {cp : Copy} (hcopy : (chanAt s cl ch).copy = some cp) :
    let t := updChan cl ch (fun k => { k with
      copy := k.copy.map (fun q => if leadReached (parseRec q.img) s.time then { q with late := true } else q) }) s
    exec (.deadlineLeadReached (.chan cl ch)) s = .next t ∧
      (chanAt t cl ch).copy = some (if leadReached (parseRec cp.img) s.time then { cp with late := true } else cp) := by
  refine ⟨rfl, ?_⟩
  rw [chanAt_updChan_self, hcopy]
  rfl

end Sys2Proof.Machine
end

section
/-! The statement about a running channel and the end of a copy (O28). -/

namespace Sys2Proof.Machine

/-- A change of clusters moves no byte. -/
theorem stored_updChan {s u : State} {pa : Nat} {bs : List Byte} (cl : ClusterId) (ch : BitVec 3) (f : Chan → Chan) (h : Stored s u pa bs) :
    Stored s (updChan cl ch f u) pa bs := by
  have same : ∀ a, readByte (updChan cl ch f u) a = readByte u a := readByte_congr rfl rfl rfl rfl rfl
  obtain ⟨hthere, hother⟩ := h
  exact ⟨(List.map_congr_left fun i _ => same _).trans hthere, fun a ha => (same a).trans (hother a ha)⟩

/-- Settles O28: each step of a running channel, of an abort, of the end of a `tcp` and of a deadline is one equation of its row. -/
theorem channelSteps : Obligations.ChannelSteps := by
  unfold Obligations.ChannelSteps
  refine ⟨fun s s1 cl ch c hst hi hlive => ?_, fun s cl ch c cp hst hi hcopy h1 => ?_, ?_, fun s cl ch cp hcopy => ?_⟩
  · intro k w fails
    refine ⟨fun hcopy hcount hal hg => transferRecordRead_held hst hi hlive hcopy hcount hal hg, fun hcopy hcount hal hg g hread hp => ?_,
      fun cp hcopy hchk => ⟨fun hunit hdo => transferUnit_done hst hi hlive hcopy hchk hunit hdo,
        fun hunit f va hdo => ⟨_, transferUnit_fault hst hi hlive hcopy hchk hunit hdo, chanFail_shows _ _ _ _ _ _⟩, fun hunit => ?_⟩⟩
    · have hrun := transferRecordRead_reads hst hi hlive hcopy hcount hal hg hread hp
      refine ⟨fun hown hheld => ?_, fun hown hfree cp s2 hok => ?_, fun hown hfree cause va s2 hbad => ?_, fun hown => ?_⟩
      · rw [hrun, if_pos hown, chanSides_held (cp := Copy.fresh g.bytes k.cursor k.sync) hheld]
      · rw [hrun, if_pos hown, chanSides_checked (cp := Copy.fresh g.bytes k.cursor k.sync) hfree hok]
      · rw [if_pos hown, chanSides_bad (cp := Copy.fresh g.bytes k.cursor k.sync) hfree hbad] at hrun
        exact ⟨_, hrun, chanFail_shows _ _ _ _ _ _⟩
      · rw [if_neg (by simp [hown])] at hrun
        exact ⟨_, hrun, chanFail_shows _ _ _ _ _ _⟩
    · refine ⟨fun h0 => ⟨recordCompletion_writtenBack hst hi hlive hcopy hchk hunit h0, fun t hc hplain => ?_⟩,
        fun h1 => ⟨fun hn => recordCompletion_counts hst hi hlive hcopy hchk hunit h1 (completeSem_none hn),
          fun hn hroom => recordCompletion_counts hst hi hlive hcopy hchk hunit h1 (completeSem_counts hn hroom),
          fun hn hfull => ⟨_, recordCompletion_overflows hst hi hlive hcopy hchk hunit h1 (completeSem_full hn hfull),
            chanFail_shows _ _ _ _ _ _⟩⟩,
        recordCompletion_advances hst hi hlive hcopy hchk hunit⟩
      obtain ⟨u, hu, honly, hstored⟩ := hplain.engineWrite hc ch.toNat cp.sync (natBytes_length 8 (doneWord cp.img)) 0
      exact ⟨_, recordCompletion_writtenBack hst hi hlive hcopy hchk hunit h0 hu, stored_updChan _ _ _ hstored,
        congrArg Chan.copy (chanAt_updChan_self _ _ _ u), honly.cores⟩
  · refine ⟨_, recordCompletion_aborted hst hi hcopy h1, chanAborted_mem _ _ _, ?_⟩
    rw [chanAt_chanAborted]
    exact ⟨rfl, rfl, rfl⟩
  · intro s c t0 rest cause va p htcps hend hlive hpend hsrc hlbl r h n m
    have hleaves := fun {s1} (hsem : SemsOnly s s1) v => tcpEnds_leaves htcps hpend hsem v hlbl
    by_cases hquiet : r.cmpl = false ∨ cause ≠ 0
    · obtain ⟨honly, htcp, hpd, hseq, hset, -, hother⟩ := hleaves (SemsOnly.refl s) (copyStatus cause va)
      refine ⟨_, tcpCompletion_quiet htcps hpend hend hlive hsrc hquiet, honly, htcp, hpd, hseq, fun d hd _ => hother d hd,
        fun _ => ⟨⟨honly, hother⟩, hset⟩, fun hc h0 => ?_, fun hc h0 => ?_⟩
      · exact absurd hquiet (by simp [hc, h0])
      · exact absurd hquiet (by simp [hc, h0])
    · obtain ⟨hcmpl, h0⟩ := not_or.1 hquiet
      rw [Bool.not_eq_false] at hcmpl
      rw [not_not] at h0
      subst h0
      by_cases hfull : m.count = 65535
      · obtain ⟨honly, htcp, hpd, hseq, hset, hsem, hother⟩ := hleaves (SemsOnly.refl s) (wd (8 * 2 ^ 56 + t0.copy.addr.toNat % 2 ^ 52))
        exact ⟨_, tcpCompletion_overflows htcps hpend hend hlive hsrc hcmpl hfull, honly, htcp, hpd, hseq, fun d hd _ => hother d hd,
          fun h => absurd h hquiet, fun _ _ h => absurd hfull h, fun _ _ _ => ⟨hset, hsem h n⟩⟩
      · obtain ⟨honly, htcp, hpd, hseq, hset, hsem, hother⟩ := hleaves (semRelease_semsOnly c h n 1 s) 0
        exact ⟨_, tcpCompletion_counts htcps hpend hend hlive hsrc hcmpl hfull, honly, htcp, hpd, hseq,
          fun d hd hh => (hother d hd).trans (semRelease_others c h n 1 s hd hh), fun h => absurd h hquiet,
          fun _ _ _ => ⟨hset, (congrArg (fun q => q.count.toNat) (hsem h n)).trans (semRelease_one hfull)⟩, fun _ _ h => absurd h hfull⟩
  · intro r due
    obtain ⟨hrun, hcp⟩ := deadlineLead_marks hcopy
    refine ⟨_, hrun, rfl, fun h => ?_, fun h => ?_⟩
    · rw [hcp, if_pos ((leadReached_iff r s.time).2 h)]
    · rw [hcp, if_neg fun e => h ((leadReached_iff r s.time).1 e)]

end Sys2Proof.Machine
end

section
/-! `tcp`, `ss.spill` and `ss.fill` issue (O29). -/

namespace Sys2Proof.Machine

/-! ### Steps that nothing stops -/

section
variable {c : CoreId} {r : BitVec 6} {s : State} (h : (s.core c).pending r = false)
include h

theorem needFree_ok : needFree c r s = .ok ((), s) := by
  rw [needFree_eq, h, if_neg Bool.false_ne_true]

theorem writeX_ok (v : Word) (l : Label) : writeX c r v l s = .ok ((), s.updCore c (fun k => k.setX r v l)) := by
  rw [writeX_eq, h, if_neg Bool.false_ne_true]

end

/-! ### `tcp` (R124, R300, R360) -/

/-- The core after the issue of a `tcp` that has read its record. -/
def tcpIssued (i : Instr) (d : BitVec 6) (v : Word) (g : Got) (k : Core) : Core :=
  { takeNumber i v (k.xval d, k.xlbl d) k with
    pend := k.pend ++ [{ reg := d, src := .tcp k.head, val := none, lbl := 0, seq := some k.head }]
    tcps := k.tcps ++ [{ reg := d, seq := k.head, copy := Copy.fresh g.bytes v k.sync }] }

/-- The core after the issue of a command that ends at once without a commit point. -/
def endedAtOnce (i : Instr) (d : BitVec 6) (v res : Word) (k : Core) : Core :=
  (jDone k.head (takeNumber i v (k.xval d, k.xlbl d) k)).setX d res 0

section
variable {s : State} {c : CoreId} {d a : BitVec 6} (hr : Ready s c .C) (hp : NonePending (s.core c) [d, a])
include hr hp

theorem execTcp_guarded (hal : ((s.core c).xval a).toNat % 64 = 0) : WaitsOnGuard c (.tcp d a) ((s.core c).xval a).toNat 64 s := by
  intro h
  have hd : (s.core c).pending d = false := hp d (by simp)
  have ha : (s.core c).pending a = false := hp a (by simp)
  show execTcp d a s = _
  unfold execTcp
  refine runPlain_wait hr ((M.bind_ok (needFree_ok hd)).trans ((M.bind_ok (readX_ok ha)).trans ?_))
  rw [if_neg (not_not_intro hal)]
  exact M.bind_stop (guardCheck_waits h)

/-- With no guard in its way it reads its record and joins the queue of copies. -/
theorem execTcp_reads (hal : ((s.core c).xval a).toNat % 64 = 0) (hspan : (s.core c).span < 4096)
    (hg : guardedBy s c [(((s.core c).xval a).toNat, 64)] = []) {g : Got} {s1 : State}
    (hread : strandRead c .C ((s.core c).xval a).toNat 64 false s = .ok (g, s1)) (hc : s1.core c = s.core c) (hlen : (s.core c).tcps.length < 8) :
    exec (.tcp d a) s = .next (finishC c {} (s1.updCore c (tcpIssued (.tcp d a) d ((s.core c).xval a) g))) := by
  have hd : (s.core c).pending d = false := hp d (by simp)
  have ha : (s.core c).pending a = false := hp a (by simp)
  have hpass : guardCheck c .C (.tcp d a) [(((s.core c).xval a).toNat, 64)] s = .ok ([], s) := by
    rw [guardCheck_passes (by rw [hg]; simp), hg]
  have hroom : (s1.core c).span < 4096 := by rw [hc]; exact hspan
  have hnew := jNew_number (.tcp d a) ((s.core c).xval a) ((s.core c).xval d, (s.core c).xlbl d) hroom
  have hfew : waitUnless (decide ((s.core c).tcps.length < 8)) s1 = .ok ((), s1) := by rw [waitUnless_eq, if_pos (decide_eq_true hlen)]
  show execTcp d a s = _
  unfold execTcp
  refine runPlain_ok hr ((M.bind_ok (needFree_ok hd)).trans ((M.bind_ok (readX_ok ha)).trans ?_))
  rw [if_neg (not_not_intro hal)]
  refine (M.bind_ok hpass).trans ((M.bind_ok hread).trans ((M.bind_ok (getCore_eq c s1)).trans ?_))
  rw [hc]
  refine (M.bind_ok hfew).trans ((M.bind_ok (jRoom_ok hroom)).trans ((M.bind_ok (lift_eq _ s1)).trans ((M.bind_ok hnew).trans
    ((M.bind_ok (modCore_eq c _ _)).trans ((modCore_eq c _ _).trans ?_)))))
  rw [State.updCore_updCore, State.updCore_updCore]
  refine congrArg (fun t => Except.ok ((), t)) (updCore_congr ?_)
  rw [hc]
  rfl

theorem execTcp_misaligned (hal : ((s.core c).xval a).toNat % 64 ≠ 0) (hspan : (s.core c).span < 4096) :
    exec (.tcp d a) s = .next (finishC c {} (s.updCore c (endedAtOnce (.tcp d a) d ((s.core c).xval a) (copyStatus 0x02 ((s.core c).xval a))))) := by
  have hd : (s.core c).pending d = false := hp d (by simp)
  have ha : (s.core c).pending a = false := hp a (by simp)
  have hnew := jNew_number (.tcp d a) ((s.core c).xval a) ((s.core c).xval d, (s.core c).xlbl d) hspan
  have hfree : (((s.updCore c (takeNumber (.tcp d a) ((s.core c).xval a) ((s.core c).xval d, (s.core c).xlbl d))).updCore c
      (jDone (s.core c).head)).core c).pending d = false := by
    rw [State.core_updCore_self, State.core_updCore_self]
    exact hd
  show execTcp d a s = _
  unfold execTcp
  refine runPlain_ok hr ((M.bind_ok (needFree_ok hd)).trans ((M.bind_ok (readX_ok ha)).trans ?_))
  rw [if_pos hal]
  refine (M.bind_ok (getCore_eq c s)).trans ((M.bind_ok hnew).trans ((M.bind_ok (modCore_eq c _ _)).trans ((writeX_ok hfree _ 0).trans ?_)))
  rw [State.updCore_updCore, State.updCore_updCore]
  exact congrArg (fun t => Except.ok ((), t)) (updCore_congr rfl)

end

/-- What a command that ends at once leaves: its result, its number, and its complete entry as the newest. -/
theorem endedAtOnce_leaves (i : Instr) (d : BitVec 6) (v res : Word) (c : CoreId) (s : State) :
    let t := finishC c {} (s.updCore c (endedAtOnce i d v res))
    SetsX (s.core c) (t.core c) d res 0 ∧ (t.core c).head = seqAdd (s.core c).head 1 ∧
      (t.core c).journal.head?.map (fun e => (e.seq, e.perf, e.done)) = some ((s.core c).head, false, true) := by
  have hself : (finishC c {} (s.updCore c (endedAtOnce i d v res))).core c = _ := finishC_core c {} _
  rw [State.core_updCore_self] at hself
  refine ⟨⟨?_, ?_, fun r hr => ⟨?_, ?_⟩⟩, ?_, ?_⟩
  all_goals rw [hself]
  · exact Core.xval_setX_self _ _ _ _
  · exact Core.xlbl_setX_self _ _ _ _
  · exact Core.xval_setX_ne _ _ _ _ _ hr
  · exact Core.xlbl_setX_ne _ _ _ _ _ hr
  · exact Core.head_setX _ _ _ _
  · simp [endedAtOnce, jDone, jUpd, takeNumber, newEntry]

/-! ### `ss.spill` and `ss.fill` (R214, R215, R360) -/

/-- The core after the issue of a spill or a fill. -/
def spillQueued (i : Instr) (n : BitVec 4) (fill : Bool) (v : Word) (k : Core) : Core :=
  { takeNumber i v (0, 0) k with spill := { k.spill with
    cmds := k.spill.cmds ++ [{ slot := n, was := k.xs.slot n, addr := v, fill := fill, seq := k.head, sync := k.sync, got := none }] } }

section
variable {s : State} {c : CoreId} {a : BitVec 6} (hr : Ready s c .C) (ha : (s.core c).pending a = false) (i : Instr) (n : BitVec 4) (fill : Bool)
include hr ha

theorem spillIssue_queued (hal : ((s.core c).xval a).toNat % 64 = 0) (hspan : (s.core c).span < 4096) :
    spillIssue i a n fill s = .next (finishC c {} (s.updCore c (spillQueued i n fill ((s.core c).xval a)))) := by
  have hnew := jNew_number i ((s.core c).xval a) (0, 0) hspan
  have hneed : need (decide (((s.core c).xval a).toNat % 64 = 0)) cILLEGAL ((s.core c).xval a) s = .ok ((), s) := by
    rw [need_eq, if_pos (decide_eq_true hal)]
  unfold spillIssue
  refine runPlain_ok hr ((M.bind_ok (readX_ok ha)).trans ((M.bind_ok hneed).trans ((M.bind_ok hnew).trans ((modCore_eq c _ _).trans ?_))))
  rw [State.updCore_updCore]
  exact congrArg (fun t => Except.ok ((), t)) (updCore_congr rfl)

theorem spillIssue_misaligned (hal : ((s.core c).xval a).toNat % 64 ≠ 0) :
    spillIssue i a n fill s = .next (trapC c cILLEGAL 0 ((s.core c).xval a) s) := by
  unfold spillIssue
  refine runPlain_trap hr ?_
  simp only [M.bind_eq, readX_eq, ha, Bool.false_eq_true, if_false, need_eq, hal, decide_false]

end

end Sys2Proof.Machine
end

section
/-! The state-spill engine (O29): what a fill makes of its slot, and how each kind of command ends. -/

namespace Sys2Proof.Machine

/-! ### A slot that two writers share (R216; log entry 26) -/

/-- A list made element by element of its own or another list's elements. -/
theorem getD_map_zipIdx {f : Word32 × Nat → Word32} {m : List Word32} (hf : ∀ p, f p = p.1 ∨ f p = m.getD p.2 0) (l : List Word32) (i : Nat) :
    (l.zipIdx.map f).getD i 0 = l.getD i 0 ∨ (l.zipIdx.map f).getD i 0 = m.getD i 0 := by
  by_cases h : i < l.length
  · rcases hf (l[i], i) with e | e
    · exact .inl (by simp [List.getD_eq_getElem?_getD, h, e])
    · exact .inr (by simp [List.getD_eq_getElem?_getD, h, e])
  · exact .inl (by simp [List.getD_eq_getElem?_getD, h])

theorem rd_ofFn {α : Type} {n : Nat} (f : Fin n → α) (k : Fin n) : rd (Vector.ofFn f) k = f k := by simp [rd]

/-- Word i of block k of a slot. -/
abbrev Slot.word (x : Slot) (k : Fin 8) (i : Nat) : Word32 := (rd x.blocks k).getD i 0

theorem laterWrites_word (was cur new : Slot) (k : Fin 8) (i : Nat) :
    (laterWrites was cur new).word k i = new.word k i ∨ (laterWrites was cur new).word k i = cur.word k i := by
  simp only [Slot.word, laterWrites, rd_ofFn]
  refine getD_map_zipIdx (fun p => ?_) _ i
  split
  · exact .inl rfl
  · exact .inr rfl

theorem mixSlot_word (c : CoreId) (a b : Slot) (s : State) (k : Fin 8) (i : Nat) :
    (mixSlot c a b s).1.word k i = a.word k i ∨ (mixSlot c a b s).1.word k i = b.word k i := by
  by_cases h : a = b
  · rw [mixSlot, if_pos h]
    exact .inl rfl
  · rw [mixSlot, if_neg h]
    dsimp only
    generalize joinL c a.lbl b.lbl _ = j
    obtain ⟨l, s1⟩ := j
    simp only [Slot.word, rd_ofFn]
    refine getD_map_zipIdx (fun p => ?_) _ i
    split
    · exact .inl rfl
    · exact .inr rfl

theorem mixSlot_state {c : CoreId} {a b : Slot} (s : State) (h : a ≠ b) :
    (mixSlot c a b s).2 = (joinL c a.lbl b.lbl { s with freeCtr := s.freeCtr + 8201 }).2 := by
  rw [mixSlot, if_neg h]
  dsimp only
  generalize joinL c a.lbl b.lbl _ = j
  rfl

/-- A mix of two slots touches the label tables, their reports and the count of free choices alone. -/
theorem mixSlot_only (c : CoreId) (a b : Slot) (s : State) : (mixSlot c a b s).2 =
    { s with out := (mixSlot c a b s).2.out, labels := (mixSlot c a b s).2.labels, freeCtr := (mixSlot c a b s).2.freeCtr } := by
  by_cases h : a = b
  · rw [mixSlot, if_pos h]
  · obtain ⟨hjoin, -⟩ : JoinOnly { s with freeCtr := s.freeCtr + 8201 } (mixSlot c a b s).2 := by
      rw [mixSlot_state s h]
      exact joinAt_joinOnly _ _ _ _ _
    generalize (mixSlot c a b s).2 = t at hjoin ⊢
    rw [hjoin]

theorem mixSlot_same (c : CoreId) (a : Slot) (s : State) : mixSlot c a a s = (a, s) := if_pos rfl

/-- What a fill puts in place of the slot, and the state that its choices leave. -/
def filled (c : CoreId) (q : SpillCmd) (new : Slot) (s : State) : Slot × State :=
  if (s.core c).xs.slot q.slot = q.was then (new, s) else mixSlot c new (laterWrites q.was ((s.core c).xs.slot q.slot) new) s

theorem fillEnd_eq (c : CoreId) (q : SpillCmd) (new : Slot) (s : State) : fillEnd c q new s =
    spillPop c q ((filled c q new s).2.updCore c (fun k => { k with xs := k.xs.setSlot q.slot (filled c q new s).1 })) := by
  unfold fillEnd filled
  rfl

theorem filled_only (c : CoreId) (q : SpillCmd) (new : Slot) (s : State) : (filled c q new s).2 =
    { s with out := (filled c q new s).2.out, labels := (filled c q new s).2.labels, freeCtr := (filled c q new s).2.freeCtr } := by
  unfold filled
  split
  · rfl
  · exact mixSlot_only _ _ _ _

theorem filled_word (c : CoreId) (q : SpillCmd) (new : Slot) (s : State) (k : Fin 8) (i : Nat) :
    (filled c q new s).1.word k i = new.word k i ∨ (filled c q new s).1.word k i = ((s.core c).xs.slot q.slot).word k i := by
  unfold filled
  split
  · exact .inl rfl
  · rcases mixSlot_word c new (laterWrites q.was ((s.core c).xs.slot q.slot) new) s k i with h | h
    · exact .inl h
    · rw [h]
      exact laterWrites_word _ _ _ k i

theorem slot_setSlot_self (x : XState) (n : BitVec 4) (v : Slot) : (x.setSlot n v).slot n = v := rd_wr_self _ _ _

theorem slot_setSlot_ne (x : XState) {n m : BitVec 4} (v : Slot) (h : m ≠ n) : (x.setSlot n v).slot m = x.slot m :=
  rd_wr_ne _ _ _ _ fun e => h (BitVec.eq_of_toNat_eq (congrArg Fin.val e))

/-! ### SPILL_COMPLETION (R215, R216) -/

theorem spillPop_core (c : CoreId) (q : SpillCmd) (s : State) : (spillPop c q s).core c =
    jDone q.seq { s.core c with spill := { (s.core c).spill with cmds := (s.core c).spill.cmds.drop 1 } } := State.core_updCore_self _ _ _

section
variable {s : State} {c : CoreId} {q : SpillCmd} {qs : List SpillCmd} (hcmds : (s.core c).spill.cmds = q :: qs)
include hcmds

theorem spillCompletion_held (h : (s.core c).spill.held = true) : exec (.spillCompletion c) s = .next s := by
  show execSpillCompletion c s = _
  rw [execSpillCompletion, hcmds]
  exact if_pos (by rw [h, Bool.true_or])

variable (hlive : engineLive s c [q.seq] = true) (hheld : (s.core c).spill.held = false)
include hlive hheld

theorem spillCompletion_fillEnds {new : Slot} (hgot : q.got = some new) : exec (.spillCompletion c) s = .next (fillEnd c q new s) := by
  show execSpillCompletion c s = _
  rw [execSpillCompletion, hcmds]
  refine (if_neg (by rw [hheld, hlive]; decide)).trans ?_
  rw [hgot]

variable (hgot : q.got = none)
include hgot

/-! The image's size is made a variable first, or the kernel would unroll a translation of that length. -/

theorem spillCompletion_faults {f : PFault × Word} {s1 : State}
    (ht : translate (engineWho s c 2 0) q.addr.toNat 33856 (if q.fill then .read else .write) s = (.error f, s1)) :
    exec (.spillCompletion c) s = .next (spillFault c f s1) := by
  show execSpillCompletion c s = _
  unfold execSpillCompletion
  obtain ⟨n, hn⟩ : ∃ n, n = 33856 := ⟨_, rfl⟩
  rw [← hn] at ht ⊢
  simp only [hcmds, hheld, hlive, Bool.not_true, Bool.or_self, Bool.false_eq_true, if_false, hgot, ht]

theorem spillCompletion_reads (hfill : q.fill = true) {pages : List Page} {s1 s2 : State} {g : Got}
    (ht : translate (engineWho s c 2 0) q.addr.toNat 33856 .read s = (.ok pages, s1))
    (hread : readPieces (engineWho s c 2 0) (pieces pages q.addr.toNat 33856) s1 = (g, s2)) :
    exec (.spillCompletion c) s = .next (fillRead c q g s2) := by
  show execSpillCompletion c s = _
  unfold execSpillCompletion
  obtain ⟨n, hn⟩ : ∃ n, n = 33856 := ⟨_, rfl⟩
  rw [← hn] at ht hread ⊢
  simp only [hcmds, hheld, hlive, Bool.not_true, Bool.or_self, Bool.false_eq_true, if_false, hgot, hfill, if_true, ht, hread]

theorem spillCompletion_writes (hfill : q.fill = false) {pages : List Page} {s1 : State}
    (ht : translate (engineWho s c 2 0) q.addr.toNat 33856 .write s = (.ok pages, s1)) :
    exec (.spillCompletion c) s = .next (spillWrite c (engineWho s c 2 0) q (pieces pages q.addr.toNat 33856) s1) := by
  show execSpillCompletion c s = _
  unfold execSpillCompletion
  obtain ⟨n, hn⟩ : ∃ n, n = 33856 := ⟨_, rfl⟩
  rw [← hn] at ht ⊢
  simp only [hcmds, hheld, hlive, Bool.not_true, Bool.or_self, Bool.false_eq_true, if_false, hgot, hfill, ht]

end

/-- A translation fault queues its trap and holds the engine up (R215, R355). -/
theorem spillFault_queues {c : CoreId} {f : PFault × Word} {s : State} (hp : f.1.poison = false) : ∃ l,
    (spillFault c f s).core c = { s.core c with spill := { (s.core c).spill with held := true }, atraps := l } ∧
    ((∀ a ∈ (s.core c).atraps, a.src ≠ .spill) → l = (s.core c).atraps ++
      [{ cause := causeWord true 0 (if f.1.stage = 1 then cPF1 else cPF2) (f.1.level * 16 + f.1.kind), tval := f.2, src := .spill }]) ∧
    OnlyCore c s (spillFault c f s) := by
  have hfault : spillFault c f s = spillTrap c (if f.1.stage = 1 then cPF1 else cPF2) (f.1.level * 16 + f.1.kind) f.2 s := by
    simp [spillFault, hp]
  rw [hfault, spillTrap]
  have honly := (updCore_only c (fun k => { k with spill := { k.spill with held := true } }) s).trans (queueTrap_only c
    { cause := causeWord true 0 (if f.1.stage = 1 then cPF1 else cPF2) (f.1.level * 16 + f.1.kind), tval := f.2, src := .spill }
    (s.updCore c (fun k => { k with spill := { k.spill with held := true } })))
  by_cases hw : (s.core c).atraps.any (fun a => a.src == .spill) = true
  · refine ⟨(s.core c).atraps, ?_, fun h => ?_, honly⟩
    · rw [queueTrap, if_pos (by rw [State.core_updCore_self]; exact hw), State.core_updCore_self]
    · obtain ⟨a, ha, hsrc⟩ := List.any_eq_true.1 hw
      exact absurd (by simpa using hsrc) (h a ha)
  · refine ⟨_, ?_, fun _ => rfl, honly⟩
    rw [queueTrap_first _ _ _ (by rw [State.core_updCore_self]; simpa using hw), State.updCore_updCore, State.core_updCore_self]

end Sys2Proof.Machine
end

section
/-! The statement about `tcp`, spills and fills (O29). -/

namespace Sys2Proof.Machine

/-- A spill's last steps, where no page is race-checked and its writes go through (R216, R246). -/
theorem spillWrite_done {c : CoreId} {w : Who} {q : SpillCmd} {ps : List Piece} {s s3 : State} (hnow : (s.core c).xs.slot q.slot = q.was)
    (hrace : ∀ p ∈ ps, p.page.race = false) (hw : writePieces w ps (slotBytes q.was) q.was.lbl s = (.done, s3)) :
    spillWrite c w q ps s = spillPop c q (s3.updCore c (fun k => { k with sync := k.sync + 1 })) := by
  unfold spillWrite
  simp only [hnow, mixSlot_same, engineRace_unchecked hrace, hw, wrote]

/-- Settles O29: each command is one change of its core as it issues, and the engine's head command ends in one of four ways. -/
theorem commandsIssue : Obligations.CommandsIssue := by
  unfold Obligations.CommandsIssue
  refine ⟨fun s c d a n hr hp hspan => ?_, fun s s1 c q qs pages hcmds hlive => ?_⟩
  · intro v
    refine ⟨execTcp_guarded hr hp, fun hal hg g s1 hread hc hlen => ?_, fun hal => ?_, fun p hmem => ?_⟩
    · refine ⟨_, execTcp_reads hr hp hal hspan hg hread hc hlen, updCore_finishC_only c _ s1, ?_⟩
      have hx := finishC_updCore_keepsX c (tcpIssued (.tcp d a) d v g) s1 rfl rfl
      have hfalls := finishC_updCore_falls c (tcpIssued (.tcp d a) d v g) s1 rfl rfl
      rw [hc] at hx hfalls
      refine ⟨hx, hfalls, ?_⟩
      rw [finishC_core, State.core_updCore_self, hc]
      exact ⟨rfl, rfl, rfl⟩
    · exact ⟨_, execTcp_misaligned hr hp hal hspan, updCore_finishC_only c _ s, endedAtOnce_leaves _ d v _ c s⟩
    · have ha : (s.core c).pending a = false := hp a (by simp)
      have hexec : exec p.1 s = spillIssue p.1 a n p.2 s := by
        simp only [List.mem_cons, List.not_mem_nil, or_false] at hmem
        rcases hmem with rfl | rfl <;> rfl
      rw [hexec]
      refine ⟨fun hal => ⟨_, spillIssue_queued hr ha p.1 n p.2 hal hspan, updCore_finishC_only c _ s, finishC_updCore_keepsX c _ s rfl rfl,
        finishC_updCore_falls c _ s rfl rfl, ?_⟩, spillIssue_misaligned hr ha p.1 n p.2⟩
      rw [finishC_core, State.core_updCore_self]
      exact ⟨rfl, rfl⟩
  · intro w va cur
    refine ⟨spillCompletion_held hcmds, fun hheld => ⟨fun hfill hgot ht g s2 hread hp hpad hc => ?_, fun new hgot => ?_,
      fun hfill hgot hnow ht hrace s3 hw hc => ?_, fun hgot f ht hp hc => ?_⟩⟩
    · refine ⟨_, spillCompletion_reads hcmds hlive hheld hgot hfill ht hread, ?_⟩
      have hread : fillRead c q g s2 = s2.updCore c (fun k => { k with spill := { k.spill with
          cmds := { q with got := some (slotOfBytes g.bytes g.lbl) } :: k.spill.cmds.drop 1 } }) := by
        simp [fillRead, hp, hpad]
      rw [hread]
      refine ⟨updCore_only c _ s2, ?_⟩
      rw [State.core_updCore_self, hc]
      refine ⟨?_, rfl, fun r => ⟨rfl, rfl⟩, rfl⟩
      simp only [hcmds, hheld, List.drop_succ_cons, List.drop_zero]
    · have honly := filled_only c q new s
      have hword := filled_word c q new s
      have hsame : cur = q.was → (filled c q new s).1 = new := fun h => by rw [filled, if_pos h]
      rw [spillCompletion_fillEnds hcmds hlive hheld hgot, fillEnd_eq]
      generalize filled c q new s = r at honly hword hsame
      obtain ⟨x, u⟩ := r
      dsimp only at honly hword hsame
      have hu : u.core c = s.core c := by rw [honly]; rfl
      have hcore := spillPop_core c q (u.updCore c (fun k => { k with xs := k.xs.setSlot q.slot x }))
      rw [State.core_updCore_self, hu] at hcore
      refine ⟨_, rfl, ?_, fun d hd => ?_, ?_⟩
      · unfold OnlyCores
        rw [show spillPop c q (u.updCore c (fun k => { k with xs := k.xs.setSlot q.slot x })) = { u with
          cores := (spillPop c q (u.updCore c (fun k => { k with xs := k.xs.setSlot q.slot x }))).cores } from rfl, honly]
      · rw [spillPop, State.core_updCore_ne _ _ _ _ hd, State.core_updCore_ne _ _ _ _ hd, honly]
        rfl
      · dsimp only at hcore ⊢
        rw [hcore]
        refine ⟨?_, fun r => ⟨rfl, rfl⟩, fun n hn => slot_setSlot_ne _ x hn, fun h => ?_, fun k i => ?_⟩
        · simp only [jDone, jUpd, hcmds, hheld, List.drop_succ_cons, List.drop_zero]
        · exact (slot_setSlot_self _ _ x).trans (hsame h)
        · have hslot : (jDone q.seq { s.core c with
              xs := (s.core c).xs.setSlot q.slot x, spill := { (s.core c).spill with cmds := (s.core c).spill.cmds.drop 1 } }).xs.slot q.slot = x :=
            slot_setSlot_self _ _ x
          rw [hslot]
          exact hword k i
    · have hstand := keeps_translate coresStand_closed w va 33856 .write s (CoresStand.refl s)
      rw [ht] at hstand
      obtain ⟨d, a, hs1⟩ := hstand c
      have hslot : (s1.core c).xs.slot q.slot = q.was := by rw [hs1]; exact hnow
      rw [hnow] at hw
      have hdone := spillWrite_done hslot (fun p hp => hrace _ (page_mem_of_pieces hp)) hw
      have hcore := spillPop_core c q (s3.updCore c (fun k => { k with sync := k.sync + 1 }))
      rw [State.core_updCore_self, hc] at hcore
      refine ⟨_, (spillCompletion_writes hcmds hlive hheld hgot hfill ht).trans (congrArg Host.Outcome.next hdone),
        (updCore_only c _ s3).trans (updCore_only c _ _), ?_⟩
      rw [hcore]
      refine ⟨?_, rfl, rfl, fun r => ⟨rfl, rfl⟩⟩
      simp only [jDone, jUpd, hcmds, hheld, List.drop_succ_cons, List.drop_zero]
    · obtain ⟨l, hcore, htraps, honly⟩ := spillFault_queues (c := c) (s := s1) hp
      refine ⟨_, spillCompletion_faults hcmds hlive hheld hgot ht, honly, ?_⟩
      rw [hc] at hcore htraps
      rw [hcore]
      exact ⟨by simp only [hcmds], rfl, rfl, htraps⟩

end Sys2Proof.Machine
end
